-- ==== Sys2Proof/Word.lean ====
section
/-! DEFINITION. The word types of the BXV-AM4 and their plainest arithmetic (R6, R9). -/

namespace Sys2Proof

/-- A byte of any memory (R6). -/
abbrev Byte := BitVec 8

/-- A 32-bit register of the v, c and e classes (R56). -/
abbrev Word := BitVec 32

/-- A 64-bit instruction word, scalar register or address (R56, R161). -/
abbrev DWord := BitVec 64

/-- Bits `lo .. lo + n - 1` of a number, read unsigned (the slice `x<hi:lo>` of R9). -/
def bitsOf (x lo n : Nat) : Nat := x / 2 ^ lo % 2 ^ n

/-- One bit of a number (`x<i>` of R9). -/
def bitOf (x i : Nat) : Bool := x / 2 ^ i % 2 == 1

/-- The two's-complement reading of the low `n` bits of a number (R9). -/
def signedOf (n x : Nat) : Int :=
  let y := x % 2 ^ n
  if 2 * y < 2 ^ n then (y : Int) else (y : Int) - 2 ^ n

/-- Reduction of an integer modulo `2^n`, as the bits of an `n`-bit string (R9). -/
def wrapTo (n : Nat) (x : Int) : Nat := (x % (2 ^ n : Int)).toNat

/-- `a emod b` for a positive `b` (R9). -/
def emodNat (a : Int) (b : Nat) : Nat := (a % (b : Int)).toNat

/-- The little-endian bytes of a number, `n` of them (R6). -/
def toBytes : Nat → Nat → List Byte
  | 0, _ => []
  | n + 1, x => BitVec.ofNat 8 x :: toBytes n (x / 256)

/-- The number that little-endian bytes hold (R6). -/
def ofBytes : List Byte → Nat
  | [] => 0
  | b :: bs => b.toNat + 256 * ofBytes bs

/-- The lanes whose bit is set in a mask, ascending, of a wave of at most `w` lanes. -/
def lanesOf (w : Nat) (mask : BitVec 64) : List Nat :=
  (List.range w).filter (fun l => mask.getLsbD l)

/-- The mask that holds exactly the listed lanes. -/
def maskOf : List Nat → BitVec 64
  | [] => 0
  | l :: ls => BitVec.ofNat 64 (2 ^ l) ||| maskOf ls

end Sys2Proof
end

