-- ==== Sys2Proof/Syntax.lean ====
section
/-! DEFINITION. The instruction set of the BXV-AM4: one constructor for each row of the opcode table.
Instruction words carry their decoded fields (R162 to R188, R418); a row that is a move of an engine, a home slice,
dispatch, the driver or the outside carries what that agent chooses. -/

namespace Sys2Proof

/-- Operand specifiers (R164). The reserved specifiers 729-767 have no constructor. -/
inductive Opnd where
  | v (n : Fin 576)     -- main register
  | c (n : Fin 48)      -- operand file
  | e (n : Fin 4)       -- echo register
  | q (n : Fin 12)      -- queue register
  | s (n : Fin 64)      -- scalar register
  | p (n : Fin 8)       -- predicate
  | sr (n : Fin 17)     -- special register 712 + n (R166)
  | imm (n : Fin 256)   -- inline constant n - 128
  deriving DecidableEq, Repr

/-- The guard of a full word: predicate and sense (R162, R163). -/
structure Guard where
  pred : Fin 8
  neg  : Bool
  deriving DecidableEq, Repr

/-- Integer type codes TY (R179). -/
inductive Ty where
  | s8 | s16 | s32 | s64 | z8 | z16 | z32 | z64 | b32 | b64
  deriving DecidableEq, Repr

/-- Float format codes FT, DT and ST (R179). -/
inductive FFmt where
  | f32 | bf16 | f16 | n8e4 | n8e5 | n4e2
  deriving DecidableEq, Repr

/-- Element format codes EF (R123, R179). -/
inductive EFmt where
  | n4e2 | n8e4 | n8e5 | s4 | s8 | bf16
  deriving DecidableEq, Repr

/-- Rounding modes (R117, R179). -/
inductive RMode where
  | rne | rz | rdn | rup
  deriving DecidableEq, Repr

/-- Access sizes SZ (R179, R257). -/
inductive Sz where
  | z8 | z16 | b32 | b64 | s8 | s16 | b128 | s32
  deriving DecidableEq, Repr

/-- Integer conditions of CMP and POLLB (R188). -/
inductive Cond where
  | eq | ne | lt | le | gt | ge
  deriving DecidableEq, Repr

/-- Float conditions of FCMP (R188, R235). -/
inductive FCond where
  | eq | ne | lt | le | gt | ge | un | or
  deriving DecidableEq, Repr

/-- Orders of an access (R173). -/
inductive Order where
  | rlx | acq | rel | acqrel | sc
  deriving DecidableEq, Repr

/-- Scopes (R94, R173). -/
inductive Scope where
  | wave | group | core | die | pkg | sys
  deriving DecidableEq, Repr

/-- Address spaces (R52). -/
inductive Space where
  | glb | spad | ostore
  deriving DecidableEq, Repr

/-- Cache hints (R173). -/
inductive Hint where
  | none | own | home
  deriving DecidableEq, Repr

/-- A modifier prefix (R173). -/
structure Prefix where
  order  : Order
  scope  : Scope
  space  : Space
  policy : Fin 4
  hint   : Hint
  code   : Bool
  deriving DecidableEq, Repr

/-- Source-lane modes of SHFL (R226). -/
inductive ShflMode where
  | index | up | down | xor
  deriving DecidableEq, Repr

/-- Modes of VOTE (R227). -/
inductive VoteMode where
  | all | any | ballot | uni
  deriving DecidableEq, Repr

/-- Lane reduction operations; the last three are those of FLT 1 (R188, R225, R228). -/
inductive RedOp where
  | add (ty : Ty) | min (ty : Ty) | max (ty : Ty) | and (ty : Ty) | or (ty : Ty) | xor (ty : Ty)
  | fadd (rm : RMode) | fmin | fmax
  deriving DecidableEq, Repr

/-- Sub-group widths SUBW (R178). -/
inductive SubW where
  | w | w2 | w4 | w8 | w16 | w32
  deriving DecidableEq, Repr

/-- Memory operand of a class M word in scratchpad or operand store: an offset, or the tile form (R178, R264). -/
inductive MForm where
  | off (o : BitVec 12)
  | tile (dir : Bool) (t : Fin 64)
  deriving DecidableEq, Repr

/-- Atomic operations (R188, R268). -/
inductive AtomOp where
  | add | and | or | xor | min | max | xchg | fadd
  deriving DecidableEq, Repr

/-- Header fields that QINFO reads (R299). -/
inductive QField where
  | count | cap | head | tail
  deriving DecidableEq, Repr

/-- Half opcodes of a paired word with their modifiers (R171). -/
inductive HalfOp where
  | nop
  | add (ty : Fin 3) | sub (ty : Fin 3)
  | and | or | xor | shl | shr | mov
  | min (z : Bool) | max (z : Bool)
  | fadd (rm : RMode) (ftz : Bool) | fmul (rm : RMode) (ftz : Bool)
  | fmin (ftz : Bool) | fmax (ftz : Bool)
  deriving DecidableEq, Repr

/-- One half of a paired word (R170). -/
structure Half where
  op : HalfOp
  d  : Opnd
  s  : Opnd
  g  : Fin 8
  deriving DecidableEq, Repr

/-- A host access to HBM, through CXL.mem or BAR2, or to BAR4 (R370, R424), or a write of the host to its own memory, of which
the module may hold the line (R368). -/
inductive HostAccess where
  | read (cxl : Bool) (addr : Nat) (size : Nat)
  | write (cxl : Bool) (addr : Nat) (data : List Byte)
  | bar4Write (off : Nat) (data : List Byte)
  | ownWrite (addr : Nat) (data : List Byte)
  deriving DecidableEq, Repr

/-- A region of a snapshot configuration or generation (R442): base, length in units of 64 KiB, and kind. -/
structure SRegion where
  base : BitVec 64
  len  : Nat
  kind : Nat
  deriving DecidableEq, Repr

/-- A generation in a slot of the snapshot store (R450). `data` holds each region's bytes as offset and byte pairs, the bytes
that are not listed being zero. -/
structure Generation where
  jobid    : BitVec 64
  srcmod   : BitVec 14
  number   : Nat
  tcut     : Nat
  feed     : BitVec 32
  pfeed    : BitVec 32
  regions  : List SRegion
  data     : List (List Host.Cell)
  commit   : Bool
  deriving DecidableEq, Repr

/-- The plain register fields a driver or service core can write (R371, R392, R423, R439, R417, R378, R12). -/
inductive RegField where
  | ifhost | mode | pollint | qtbase | rgbase | porten
  | ctxbase | cmdasid | cmdarg | cmdlen
  | mbbuf | pwrcap | tlimit
  | svasid | srcmod | holdmod | partner | rsvpct | rsvbase | errbase | errcap
  | svcAsid (core : Fin 16) | svcJctr (core : Fin 16)
  deriving DecidableEq, Repr

/-- Sources of a violation (R423, R435). -/
inductive VSource where
  | pcie | cxlmem | peer | service
  deriving DecidableEq, Repr

/-- Kinds of a violation (R423). -/
inductive VKind where
  | read | write | atomic | execute
  deriving DecidableEq, Repr

/-- The instructions and moves of the opcode table. -/
inductive Instr where
  -- integer and predicate (R205 to R217)
  | add (g : Guard) (ty : Ty) (d a b : Opnd)
  | addc (g : Guard) (ty : Ty) (d a b : Opnd) (pc : Fin 7)
  | sub (g : Guard) (ty : Ty) (d a b : Opnd)
  | subb (g : Guard) (ty : Ty) (d a b : Opnd) (pc : Fin 7)
  | mul (g : Guard) (ty : Ty) (d a b : Opnd)
  | mulh (g : Guard) (ty : Ty) (d a b : Opnd)
  | mad (g : Guard) (ty : Ty) (d a b c : Opnd)
  | div (g : Guard) (la : Fin 16) (ty : Ty) (trap : Bool) (d a b : Opnd)
  | rem (g : Guard) (la : Fin 16) (ty : Ty) (trap : Bool) (d a b : Opnd)
  | min (g : Guard) (ty : Ty) (d a b : Opnd)
  | max (g : Guard) (ty : Ty) (d a b : Opnd)
  | abs (g : Guard) (ty : Ty) (d a : Opnd)
  | neg (g : Guard) (ty : Ty) (d a : Opnd)
  | and (g : Guard) (ty : Ty) (d a b : Opnd)
  | or (g : Guard) (ty : Ty) (d a b : Opnd)
  | xor (g : Guard) (ty : Ty) (d a b : Opnd)
  | andn (g : Guard) (ty : Ty) (d a b : Opnd)
  | shl (g : Guard) (ty : Ty) (d a b : Opnd)
  | shr (g : Guard) (ty : Ty) (d a b : Opnd)
  | sar (g : Guard) (ty : Ty) (d a b : Opnd)
  | rotl (g : Guard) (ty : Ty) (d a b : Opnd)
  | popc (g : Guard) (ty : Ty) (d a : Opnd)
  | clz (g : Guard) (ty : Ty) (d a : Opnd)
  | ctz (g : Guard) (ty : Ty) (d a : Opnd)
  | brev (g : Guard) (ty : Ty) (d a : Opnd)
  | bfx (g : Guard) (ty : Ty) (pos len1 : Fin 64) (d a : Opnd)
  | bfi (g : Guard) (ty : Ty) (pos len1 : Fin 64) (d a b : Opnd)
  | sel (g : Guard) (ty : Ty) (d a b : Opnd) (pc : Fin 8)
  | cmp (g : Guard) (ty : Ty) (cond : Cond) (d : Fin 8) (a b : Opnd)
  | pand (g : Guard) (d a b : Fin 8)
  | por (g : Guard) (d a b : Fin 8)
  | pxor (g : Guard) (d a b : Fin 8)
  | pnot (g : Guard) (d a : Fin 8)
  | mov (g : Guard) (ty : Ty) (d a : Opnd)
  | movi (g : Guard) (d : Opnd) (imm : BitVec 26)
  | movh (g : Guard) (d : Opnd) (imm : BitVec 16) (pos : Fin 4)
  | lea (g : Guard) (ty : Ty) (d a b : Opnd) (sh : Fin 16)
  | cvti (g : Guard) (dt st : Ty) (sat : Bool) (d a : Opnd)
  -- floating point (R232 to R243)
  | fadd (g : Guard) (ft : FFmt) (rm : RMode) (ftz : Bool) (d a b : Opnd)
  | fsub (g : Guard) (ft : FFmt) (rm : RMode) (ftz : Bool) (d a b : Opnd)
  | fmul (g : Guard) (ft : FFmt) (rm : RMode) (ftz : Bool) (d a b : Opnd)
  | ffma (g : Guard) (rm : RMode) (ftz : Bool) (d a b c : Opnd)
  | hfma2 (g : Guard) (half : Bool) (rm : RMode) (ftz : Bool) (d a b c : Opnd)
  | fmin (g : Guard) (ft : FFmt) (ftz : Bool) (d a b : Opnd)
  | fmax (g : Guard) (ft : FFmt) (ftz : Bool) (d a b : Opnd)
  | fcmp (g : Guard) (ft : FFmt) (cond : FCond) (ftz : Bool) (d : Fin 8) (a b : Opnd)
  | fclass (g : Guard) (ft : FFmt) (d a : Opnd)
  | frcpa (g : Guard) (la : Fin 16) (ftz : Bool) (d a : Opnd)
  | frsqa (g : Guard) (la : Fin 16) (ftz : Bool) (d a : Opnd)
  | fsqrt (g : Guard) (la : Fin 16) (ft : FFmt) (rm : RMode) (ftz : Bool) (d a : Opnd)
  | fdiv (g : Guard) (la : Fin 16) (ft : FFmt) (rm : RMode) (ftz : Bool) (d a b : Opnd)
  | fexp2 (g : Guard) (la : Fin 16) (rm : RMode) (ftz : Bool) (d a : Opnd)
  | flog2 (g : Guard) (la : Fin 16) (rm : RMode) (ftz : Bool) (d a : Opnd)
  | fsin (g : Guard) (la : Fin 16) (rm : RMode) (ftz : Bool) (d a : Opnd)
  | fcos (g : Guard) (la : Fin 16) (rm : RMode) (ftz : Bool) (d a : Opnd)
  | ftanh (g : Guard) (la : Fin 16) (rm : RMode) (ftz : Bool) (d a : Opnd)
  | cvtf (g : Guard) (dt st : FFmt) (rm : RMode) (ftz nan : Bool) (d a : Opnd) (b : Option Opnd)
  | cvtfi (g : Guard) (ty : Ty) (ft : FFmt) (rm : RMode) (ftz : Bool) (d a : Opnd)
  | cvtif (g : Guard) (ft : FFmt) (ty : Ty) (rm : RMode) (d a : Opnd)
  | frnd (g : Guard) (ft : FFmt) (rm : RMode) (ftz : Bool) (d a : Opnd)
  -- packed, narrow and block formats (R244 to R255)
  | dot4 (g : Guard) (fa fb : Fin 4) (rm : RMode) (d a b c : Opnd)
  | dot8 (g : Guard) (fa fb : Fin 4) (rm : RMode) (d a b c : Opnd)
  | qnt (g : Guard) (ef : EFmt) (rm : RMode) (nan : Bool) (tab : Fin 4) (d a b : Opnd)
  | dqnt (g : Guard) (ef : EFmt) (tab : Fin 4) (d a b : Opnd)
  | bscl (g : Guard) (ef : EFmt) (d a : Opnd)
  | pkb (g : Guard) (esz : Fin 3) (pos : Fin 16) (d a : Opnd)
  | upkb (g : Guard) (esz : Fin 3) (pos : Fin 16) (d a : Opnd)
  | blkld (g : Guard) (la : Fin 16) (pre : Option Prefix) (d a : Opnd)
  | blkst (g : Guard) (pre : Option Prefix) (a b : Opnd)
  | mxld (g : Guard) (la : Fin 16) (pre : Option Prefix) (ef : EFmt) (rm : RMode) (d a b : Opnd)
  | mxst (g : Guard) (pre : Option Prefix) (ef : EFmt) (rm : RMode) (nan : Bool) (x a b : Opnd)
  | ctab (g : Guard) (pre : Option Prefix) (tab : Fin 4) (a : Opnd)
  -- lanes (R224 to R229)
  | shfl (g : Guard) (mode : ShflMode) (ty : Ty) (sub : SubW) (d a b : Opnd)
  | vote (g : Guard) (mode : VoteMode) (sub : SubW) (d : Opnd) (a : Fin 8)
  | lred (g : Guard) (op : RedOp) (sub : SubW) (d a : Opnd)
  | lscan (g : Guard) (op : RedOp) (sub : SubW) (d a : Opnd)
  | matchL (g : Guard) (all : Bool) (ty : Ty) (sub : SubW) (d a : Opnd)
  -- memory (R256 to R278)
  | ld (g : Guard) (la : Fin 16) (pre : Option Prefix) (sz : Sz) (off : BitVec 12) (d a : Opnd)
  | st (g : Guard) (pre : Option Prefix) (sz : Sz) (off : BitVec 12) (a b : Opnd)
  | lds (g : Guard) (la : Fin 16) (pre : Option Prefix) (sz : Sz) (form : MForm) (d a : Opnd)
  | sts (g : Guard) (pre : Option Prefix) (sz : Sz) (form : MForm) (a b : Opnd)
  | ldb (g : Guard) (la : Fin 16) (pre : Option Prefix) (sz : Sz) (form : MForm) (d a : Opnd)
  | stb (g : Guard) (pre : Option Prefix) (sz : Sz) (form : MForm) (a b : Opnd)
  | ldq (g : Guard) (pre : Option Prefix) (sz : Sz) (off : BitVec 12) (q : Fin 12) (a : Opnd)
  | stq (g : Guard) (pre : Option Prefix) (sz : Sz) (off : BitVec 12) (a : Opnd) (q : Fin 12)
  | pref (g : Guard) (pre : Option Prefix) (off : BitVec 12) (a : Opnd)
  | atom (g : Guard) (la : Fin 16) (pre : Option Prefix) (op : AtomOp) (ty : Ty) (d : Option Opnd) (a b : Opnd)
  | cas (g : Guard) (la : Fin 16) (pre : Option Prefix) (ty : Ty) (d a b c : Opnd)
  | cas128 (g : Guard) (la : Fin 16) (pre : Option Prefix) (d a b c : Opnd)
  | ld128a (g : Guard) (la : Fin 16) (pre : Option Prefix) (off : BitVec 12) (d a : Opnd)
  | st128a (g : Guard) (pre : Option Prefix) (off : BitVec 12) (a b : Opnd)
  | fence (g : Guard) (pre : Prefix)
  | invr (g : Guard) (pre : Option Prefix) (a b : Opnd)
  | wbr (g : Guard) (pre : Option Prefix) (a b : Opnd)
  | regw (g : Guard) (pre : Option Prefix) (a b : Opnd)
  | icinv (g : Guard) (pre : Option Prefix) (a b : Opnd)
  -- groups, waiting, registers and tasks (R279 to R300)
  | gnew (g : Guard) (d a : Opnd)
  | join (g : Guard) (a : Opnd)
  | leave (g : Guard)
  | bar (g : Guard) (b : Fin 16)
  | bara (g : Guard) (b : Fin 16)
  | barw (g : Guard) (b : Fin 16)
  | gang (g : Guard) (a : Opnd)
  | waitw (g : Guard) (pre : Option Prefix) (ty : Ty) (d : Fin 8) (a b c : Opnd)
  | waitwWake (core wave k : Nat)
  | waitwTimeout (core wave k : Nat)
  | pollb (g : Guard) (pre : Option Prefix) (ty : Ty) (cond : Cond) (d : Fin 8) (a b : Opnd)
  | pollbNapEnd (core wave k : Nat)
  | yield (g : Guard)
  | nap (g : Guard) (a : Opnd)
  | napEnd (core wave k : Nat)
  | grow (g : Guard) (d : Fin 8) (a b : Opnd)
  | growGrant (core : Nat)
  | growTimeout (core wave k : Nat)
  | shrink (g : Guard) (a : Opnd)
  | spawn (g : Guard) (d : Fin 8) (a : Opnd) (v8 : Fin 72) (offer : Fin 8) (inv : Bool)
  | enq (g : Guard) (d : Fin 8) (a : Opnd) (s4 : Fin 16)
  | deq (g : Guard) (la : Fin 16) (s4 : Fin 16) (a : Opnd) (pr : Fin 8)
  | qinfo (g : Guard) (la : Fin 16) (field : QField) (d a : Opnd)
  -- tiles, engines and the product units (R301 to R330)
  | xq (g : Guard) (s4 : Fin 16)
  | lq (g : Guard) (s4 : Fin 16)
  | tset (g : Guard) (t : Fin 64) (a : Opnd)
  | tstate (g : Guard) (t : Fin 64) (d : Opnd)
  | twait (g : Guard) (t : Fin 64)
  | tdrain (g : Guard) (t : Fin 64)
  | tfree (g : Guard) (t : Fin 64)
  | cupset (g : Guard) (add : Bool) (t : Fin 64) (a : Opnd)
  | cupwt (g : Guard) (t : Fin 64)
  | cupqry (g : Guard) (t : Fin 64) (d : Opnd)
  | chki (g : Guard) (t : Fin 64) (a b : Opnd)
  | tileDrained (core t : Nat)
  | tileWaitWake (core wave k : Nat)
  | kguard (g : Guard) (k : Fin 16) (a : Opnd)
  | kclr (g : Guard) (k : Fin 16)
  | kmul (g : Guard) (la : Fin 16) (k : Fin 16) (ta tb : Fin 64) (a : Opnd)
  | kmulStep (core group k : Nat)
  | kmma (g : Guard) (la : Fin 16) (k : Fin 16) (ta tb : Fin 64) (a : Opnd)
  | microTile (core group m : Nat)
  | kext (g : Guard) (la : Fin 16) (k : Fin 16) (d a : Opnd)
  | kextf (g : Guard) (la : Fin 16) (k : Fin 16) (rm : RMode) (add : Bool) (d a b : Opnd)
  | ksto (g : Guard) (la : Fin 16) (k : Fin 16) (ta : Fin 64) (a : Opnd)
  | kpack (g : Guard) (la : Fin 16) (k : Fin 16) (ta : Fin 64) (a b : Opnd)
  | kstat (g : Guard) (la : Fin 16) (k : Fin 16) (d : Opnd)
  -- parked state, faults and system (R331 to R348)
  | sget (g : Guard) (la : Fin 16) (sz : Sz) (off : BitVec 12) (d : Opnd) (n : Fin 64)
  | sput (g : Guard) (sz : Sz) (off : BitVec 12) (n : Fin 64) (b : Opnd)
  | presume (g : Guard) (n : Fin 64)
  | pretry (g : Guard) (n : Fin 64)
  | predir (g : Guard) (n : Fin 64) (b c : Opnd)
  | pkill (g : Guard) (n : Fin 64)
  | fraise (g : Guard) (prio : Fin 8) (a : Opnd)
  | trap (g : Guard) (service : Fin 4096) (a : Opnd)
  | brk (g : Guard) (tag : BitVec 16)
  | ckpt (g : Guard) (n : BitVec 16)
  | resid (g : Guard) (a : Opnd)
  | rds (g : Guard) (r : Fin 17) (d : Opnd)
  | wrs (g : Guard) (r : Fin 17) (a : Opnd)
  | isync (g : Guard)
  | nop (g : Guard)
  | snap (g : Guard)
  | pairedWord (u l : Half)
  -- trailers (R177, R218 to R223)
  | next (aw : BitVec 5)
  | brp (aw : BitVec 5) (p : Fin 8) (sense : Bool) (offa offb : BitVec 19)
  | jidx (aw : BitVec 5) (x : Opnd) (offa : BitVec 19) (len1 : BitVec 12)
  | call (aw : BitVec 5) (offa : BitVec 19)
  | ret (aw : BitVec 5)
  | exit (aw : BitVec 5)
  | loopn (aw : BitVec 5) (x : Opnd) (offa : BitVec 19)
  -- moves of the issue stages and of pending work
  | issueCycle (core stage : Nat)
  | addressPromoted (core wave : Nat) (addr : BitVec 64)
  | setAside (core wave path : Nat)
  | interlockCleared (core wave k : Nat)
  | awaitDrained (core wave : Nat)
  | resultWriteback (core wave k : Nat)
  | deferredFaultReport (core wave k : Nat)
  | storeFaultReport (k : Nat) (code : BitVec 8)
  | waveResume (core wave : Nat)
  | groupDissolve (core group : Nat)
  -- moves of the engines
  | copySegment (core group cmd seg : Nat)
  | copyPieceWrite (core group cmd seg : Nat)
  | ladleBag (core group cmd bag : Nat)
  -- moves of the home slices, the dies and the fabric
  | storeAtHome (k : Nat)
  | loadAtHome (core : Nat) (word : Nat)
  | atomicAtHome (k : Nat)
  | l1Writeback (core : Nat) (word : Nat)
  | updateReceive (die k : Nat)
  | valueReceive (die k : Nat)
  | lineWake (die word : Nat)
  | fenceArbiter (k : Nat)
  | sequencerStore (k : Nat)
  | replicaApply (member k : Nat)
  | replicaMemberTimeout (group member : Nat)
  | linkTimeout (k : Nat)
  | portLinkDown (port : Nat)
  | pageWalk (die : Nat) (asid : BitVec 16) (va : BitVec 64)
  -- fault tasks and dispatch
  | budgetExpired (core wave : Nat)
  | deadlineExpired (k : Nat)
  | tailChange (n : Nat)
  | bindTake (core idx : Nat)
  | bindWithdraw (core idx : Nat)
  | taskEnd (k : Nat)
  -- service cores
  | vspawn (rd rs1 rs2 : Fin 32)
  | vjoin (rd rs1 rs2 : Fin 32)
  | vjoinWake (core : Nat)
  -- the driver
  | drainEnd (asid : BitVec 16)
  | saveComplete (asid : BitVec 16)
  | saveDeadline (asid : BitVec 16)
  | cmdUnknown (code : BitVec 4)
  | start (failAt : Option (Fin 8))
  -- the host and the outside
  | hostSnoop (line : Nat)
  | hostMemAccess (acc : HostAccess)
  | atsCompletion (asid : BitVec 16) (va : BitVec 64) (grant : Option Nat) (w : Bool)
  | prgResponse (asid : BitVec 16) (va : BitVec 64) (ok : Bool)
  | atsInvalidation (pasid : BitVec 20) (va : BitVec 64) (len : Nat)
  | thermalThrottle (temp : BitVec 8)
  | thermalTrip (temp : BitVec 8)
  | tripRecovery (temp : BitVec 8)
  | powerLimit (watts : BitVec 12)
  -- the mailbox
  | mbUnknown (code : BitVec 8)
  | violation (src : VSource) (kind : VKind) (addr : BitVec 64)
  -- the service OS
  | map (k : Nat) (place : BitVec 64) (frame : BitVec 64)
  | unmap (k : Nat)
  | alloc (k : Nat) (place : BitVec 64) (frame : BitVec 64)
  | free (k : Nat)
  | fread (k : Nat)
  | fwrite (k : Nat)
  | log (k : Nat)
  -- the snapshot engine
  | pairAnswer (feed : Option (BitVec 32))
  | recall (remote : List Generation)
  | svcmdUnknown (code : BitVec 4)
  | snapshotCut (asid : BitVec 16)
  | frameDrainComplete (frame : Nat)
  | partnerAck (asid : BitVec 16)
  | busParityRetry (core wave : Nat) (addr : Nat) (groups : BitVec 16) (fails : Fin 6)
  | registerWrite (field : RegField) (value : BitVec 64)
  | portLinkUp (port : Nat)
  | thermalThrottleEnd (temp : BitVec 8)
  | partnerLost (asid : BitVec 16)
  | partnerGenerationReceive (gen : Generation)
  | partnerSlotReadRequest (module : BitVec 14) (slot : Bool)
  | retentionSleepEntry (die word : Nat)
  -- commands and moves without an argument, last so that every other constructor has a small tag
  | clockRebase
  | stockpotDeliver
  | dispatchTurn
  | attach
  | detach
  | qtsync
  | load
  | preempt
  | restore
  | kill
  | unload
  | inval
  | stepCmd
  | freeze
  | thaw
  | orderlyWarmReset
  | orderlyColdReset
  | forcedWarmReset
  | powerOn
  | powerBrake
  | update
  | attest
  | getcert
  | lifecycle
  | svcreg
  | svcunreg
  | vclear
  | pair
  | unpair
  | discard
  | powerLoss
  | powerBrakeRelease
  | powerGatingEntry
  deriving DecidableEq, Repr

end Sys2Proof
end

