-- ==== Sys2Proof/WellFormed.lean ====
section
/-! DEFINITION. Well-formed instructions: the encodings of R189 that depend on the operands of an instruction, and not
on a field's code alone. A term that fails here is fault 0x50 at its word. -/

namespace Sys2Proof

/-- Width in bits of an integer type (R203). -/
def Ty.bits : Ty → Nat
  | .s8 | .z8 => 8
  | .s16 | .z16 => 16
  | .s32 | .z32 | .b32 => 32
  | .s64 | .z64 | .b64 => 64

/-- Width in bits of the register that holds an operand of an integer type (R203). -/
def Ty.regBits (t : Ty) : Nat := if t.bits = 64 then 64 else 32

/-- Types read with their sign (R203). -/
def Ty.signed : Ty → Bool
  | .s8 | .s16 | .s32 | .s64 => true
  | _ => false

/-- Types `.b32` and `.b64`. -/
def Ty.raw : Ty → Bool
  | .b32 | .b64 => true
  | _ => false

/-- Types of 32 and 64 bits that are signed or unsigned: codes 2, 3, 6 and 7 (R205). -/
def Ty.full : Ty → Bool
  | .s32 | .s64 | .z32 | .z64 => true
  | _ => false

/-- Formats that the arithmetic floats accept (R179). -/
def FFmt.arith : FFmt → Bool
  | .f32 | .bf16 | .f16 => true
  | _ => false

/-- Element formats that are narrow floats. -/
def EFmt.float : EFmt → Bool
  | .n4e2 | .n8e4 | .n8e5 => true
  | _ => false

/-- Element formats that are narrow integers. -/
def EFmt.int : EFmt → Bool
  | .s4 | .s8 => true
  | _ => false

/-- Bytes moved by an access size (R257). -/
def Sz.bytes : Sz → Nat
  | .z8 | .s8 => 1
  | .z16 | .s16 => 2
  | .b32 | .s32 => 4
  | .b64 => 8
  | .b128 => 16

/-- Width in bits of the register an access size loads or stores (R257). -/
def Sz.regBits : Sz → Nat
  | .b64 | .s32 => 64
  | .b128 => 128
  | _ => 32

/-- Sizes a store accepts (R256). -/
def Sz.storable : Sz → Bool
  | .z8 | .z16 | .b32 | .b64 | .b128 => true
  | _ => false

/-- The register group of a width starts at an aligned register (R165). -/
def Opnd.aligned (w : Nat) : Opnd → Bool
  | .v n => if w = 128 then n.val % 4 = 0 else if w = 64 then n.val % 2 = 0 else true
  | .c n => if w = 128 then n.val % 4 = 0 else if w = 64 then n.val % 2 = 0 else true
  | .e n => if w = 128 then n.val % 4 = 0 else if w = 64 then n.val % 2 = 0 else true
  | .s n => if w = 128 then n.val % 2 = 0 else true
  | _ => true

/-- An operand that may stand as a source of a width (R164, R165). -/
def Opnd.src (w : Nat) (o : Opnd) : Bool :=
  match o with
  | .p _ => false
  | _ => o.aligned w

/-- An operand that may stand as a destination of a width (R164, R165). -/
def Opnd.dst (w : Nat) (o : Opnd) : Bool :=
  match o with
  | .p _ | .sr _ | .imm _ => false
  | _ => o.aligned w

/-- A destination of a long-latency instruction: no echo register (R22). -/
def Opnd.dstLong (w : Nat) (o : Opnd) : Bool :=
  match o with
  | .e _ => false
  | _ => o.dst w

/-- A destination that must be a v, c or s register group (R249, R259, R302, R345). -/
def Opnd.dstReg (w : Nat) (o : Opnd) : Bool :=
  match o with
  | .v _ | .c _ | .s _ => o.aligned w
  | _ => false

/-- A source that must be a register group: no queue, special register or inline constant (R165, R249). -/
def Opnd.srcGroup (w : Nat) (o : Opnd) : Bool :=
  match o with
  | .v _ | .c _ | .e _ | .s _ => o.aligned w
  | _ => false

/-- A source that must be a register (R251). -/
def Opnd.srcReg (w : Nat) (o : Opnd) : Bool :=
  match o with
  | .imm _ => false
  | _ => o.src w

/-- A wave-uniform operand (R165). -/
def Opnd.uniform : Opnd → Bool
  | .s _ | .sr _ | .imm _ => true
  | _ => false

/-- A predicate specifier. -/
def Opnd.isP : Opnd → Bool
  | .p _ => true
  | _ => false

/-- CODE stands only with an order that acquires (R173). -/
def Prefix.codeOk (p : Prefix) : Bool :=
  !p.code || (match p.order with | .acq | .acqrel | .sc => true | _ => false)

/-- The fields of a prefix that a word accepts (R174). -/
def Prefix.ok (orders : List Order) (spaces : List Space) : Option Prefix → Bool
  | none => true
  | some p => orders.contains p.order && spaces.contains p.space && p.codeOk

/-- Widths of special registers (R166), by specifier minus 712. -/
def srBits (r : Fin 17) : Nat :=
  [32, 6, 8, 9, 64, 8, 2, 14, 7, 32, 64, 64, 64, 64, 64, 3, 64].getD r.val 0

/-- The register numbers of the v class that a half reads (R172). -/
def Half.reads (h : Half) : List Opnd :=
  match h.op with
  | .nop => []
  | .mov => [h.s]
  | _ => [h.d, h.s]

/-- Queue registers that a half names in any role (R172). -/
def Half.queues (h : Half) : List Nat :=
  match h.op with
  | .nop => []
  | _ => [h.d, h.s].filterMap (fun o => match o with | .q n => some n.val | _ => none)

/-- Banks of the v registers a half reads (R172). -/
def Half.banks (h : Half) : List Nat :=
  h.reads.filterMap (fun o => match o with | .v n => some (n.val % 4) | _ => none)

/-- An operand that an 8-bit specifier names (R170). -/
def Opnd.short : Opnd → Bool
  | .v n => n.val < 192
  | .c _ | .e _ | .q _ => true
  | _ => false

/-- A half is legal by itself: the half-NOP has every other field zero (R171). -/
def Half.ok (h : Half) : Bool :=
  match h.op with
  | .nop => h.d == .v 0 && h.s == .v 0 && h.g == 0
  | _ => h.d.short && h.s.short

/-- The rules of R172 between the halves. -/
def pairOk (u l : Half) : Bool :=
  u.ok && l.ok && (u.banks.all fun b => !l.banks.contains b) && (u.queues.all fun q => !l.queues.contains q)
    && !(u.op != .nop && l.op != .nop && u.d == l.d)

/-- A type that an integer reduction accepts, with its operation (R225). -/
def RedOp.ok : RedOp → Bool
  | .add ty | .and ty | .or ty | .xor ty => ty.full || ty.raw
  | .min ty | .max ty => ty.full
  | _ => true

/-- Width of the value a reduction reads. -/
def RedOp.bits : RedOp → Nat
  | .add ty | .and ty | .or ty | .xor ty | .min ty | .max ty => ty.regBits
  | _ => 32

/-- Operation and type of an `ATOM` (R268). -/
def AtomOp.tyOk (op : AtomOp) (ty : Ty) : Bool :=
  match op with
  | .min | .max => ty.full
  | .fadd => ty == .b32
  | _ => ty.full || ty.raw

/-- The tile form: uniform index, sizes 2 and 3 (R256, R264). -/
def MForm.ok (f : MForm) (sz : Sz) (a : Opnd) : Bool :=
  match f with
  | .off _ => a.src 32
  | .tile _ _ => a.uniform && (sz == .b32 || sz == .b64)

/-- Orders that load-type words accept (R174). -/
def loadOrders : List Order := [.rlx, .acq, .sc]
/-- Orders that store-type words accept (R174). -/
def storeOrders : List Order := [.rlx, .rel, .sc]
/-- Orders that atomics accept (R174). -/
def atomOrders : List Order := [.rlx, .acq, .rel, .acqrel, .sc]

/-- A table number, element format and `.nan` that `QNT` accepts (R245). -/
def qntOk (ef : EFmt) (tab : Fin 4) (nan : Bool) : Bool :=
  (tab == 0 || ef.int) && (!nan || ef.float)

/-- Every check of R189 on an instruction's operands. The moves of the agents have no encoding, and no check. -/
def Instr.wellFormed : Instr → Bool
  | .add _ ty d a b | .sub _ ty d a b | .mul _ ty d a b =>
    d.dst ty.regBits && a.src ty.regBits && b.src ty.regBits
  | .addc _ ty d a b _ | .subb _ ty d a b _ =>
    (ty == .z32 || ty == .z64 || ty.raw) && d.dst ty.regBits && a.src ty.regBits && b.src ty.regBits
  | .mulh _ ty d a b => ty.full && d.dst ty.regBits && a.src ty.regBits && b.src ty.regBits
  | .mad _ ty d a b c => d.dst ty.regBits && a.src ty.regBits && b.src ty.regBits && c.src ty.regBits
  | .div _ _ ty _ d a b | .rem _ _ ty _ d a b =>
    ty.full && d.dstLong ty.regBits && a.src ty.regBits && b.src ty.regBits
  | .min _ ty d a b | .max _ ty d a b => !ty.raw && d.dst ty.regBits && a.src ty.regBits && b.src ty.regBits
  | .abs _ ty d a => ty.signed && d.dst ty.regBits && a.src ty.regBits
  | .neg _ ty d a => (ty.signed || ty.raw) && d.dst ty.regBits && a.src ty.regBits
  | .and _ ty d a b | .or _ ty d a b | .xor _ ty d a b | .andn _ ty d a b =>
    ty.raw && d.dst ty.regBits && a.src ty.regBits && b.src ty.regBits
  | .shl _ ty d a b | .shr _ ty d a b | .sar _ ty d a b | .rotl _ ty d a b =>
    ty.raw && d.dst ty.regBits && a.src ty.regBits && b.src 32
  | .popc _ ty d a | .clz _ ty d a | .ctz _ ty d a | .brev _ ty d a => ty.raw && d.dst ty.regBits && a.src ty.regBits
  | .bfx _ ty pos len1 d a =>
    ty.full && decide (pos.val + len1.val + 1 ≤ ty.bits) && d.dst ty.regBits && a.src ty.regBits
  | .bfi _ ty pos len1 d a b =>
    ty.raw && decide (pos.val + len1.val + 1 ≤ ty.bits) && d.dst ty.regBits && a.src ty.regBits && b.src ty.regBits
  | .sel _ ty d a b _ => ty.raw && d.dst ty.regBits && a.src ty.regBits && b.src ty.regBits
  | .cmp _ ty cond _ a b =>
    (!ty.raw || cond == .eq || cond == .ne) && a.src ty.regBits && b.src ty.regBits
  | .pand _ _ _ _ | .por _ _ _ _ | .pxor _ _ _ _ | .pnot _ _ _ => true
  | .mov _ ty d a => ty.raw && d.dst ty.regBits && a.src ty.regBits
  | .movi _ d _ => d.dst 32
  | .movh _ d _ pos =>
    match d with
    | .q _ => false
    | .s _ => true
    | _ => d.dst 32 && decide (pos.val < 2)
  | .lea _ ty d a b _ =>
    match ty with
    | .b64 => d.dst 64 && a.src 64 && b.src 64
    | .s32 | .z32 => d.dst 64 && a.src 64 && b.src 32
    | .b32 => d.dst 32 && a.src 32 && b.src 32
    | _ => false
  | .cvti _ dt sty _ d a => !dt.raw && !sty.raw && d.dst dt.regBits && a.src sty.regBits
  | .fadd _ ft _ _ d a b | .fsub _ ft _ _ d a b | .fmul _ ft _ _ d a b =>
    ft.arith && d.dst 32 && a.src 32 && b.src 32
  | .ffma _ _ _ d a b c | .hfma2 _ _ _ _ d a b c => d.dst 32 && a.src 32 && b.src 32 && c.src 32
  | .fmin _ ft _ d a b | .fmax _ ft _ d a b => ft.arith && d.dst 32 && a.src 32 && b.src 32
  | .fcmp _ ft _ _ _ a b => ft.arith && a.src 32 && b.src 32
  | .fclass _ ft d a => ft.arith && d.dst 32 && a.src 32
  | .frcpa _ _ _ d a | .frsqa _ _ _ d a => d.dstLong 32 && a.src 32
  | .fsqrt _ _ ft _ _ d a => ft.arith && d.dstLong 32 && a.src 32
  | .fdiv _ _ ft _ _ d a b => ft.arith && d.dstLong 32 && a.src 32 && b.src 32
  | .fexp2 _ _ _ _ d a | .flog2 _ _ _ _ d a | .fsin _ _ _ _ d a | .fcos _ _ _ _ d a | .ftanh _ _ _ _ d a =>
    d.dstLong 32 && a.src 32
  | .cvtf _ dt sf _ _ nan d a b =>
    dt != sf && (!nan || !dt.arith) && d.dst 32 && a.src 32 &&
      (match b with
       | none => dt.arith && sf.arith
       | some o => !(dt.arith && sf.arith) && o.src 32)
  | .cvtfi _ ty ft _ _ d a => !ty.raw && ft.arith && d.dst ty.regBits && a.src 32
  | .cvtif _ ft ty _ d a => !ty.raw && ft.arith && d.dst 32 && a.src ty.regBits
  | .frnd _ ft _ _ d a => ft.arith && d.dst 32 && a.src 32
  | .dot4 _ fa fb _ d a b c =>
    decide (fa.val < 2) && decide (fb.val < 2) && d.dst 32 && a.src 32 && b.src 32 && c.src 32
  | .dot8 _ fa fb _ d a b c =>
    decide (fa.val < 3) && decide (fb.val < 3) && d.dst 32 && a.src 32 && b.src 32 && c.src 32
  | .qnt _ ef _ nan tab d a b => qntOk ef tab nan && d.dst 32 && a.src 32 && b.src 32
  | .dqnt _ ef tab d a b => qntOk ef tab false && d.dst 32 && a.src 32 && b.src 32
  | .bscl _ _ d a => d.dst 32 && a.src 32
  | .pkb _ esz pos d a | .upkb _ esz pos d a =>
    decide (pos.val < 32 / (4 * 2 ^ esz.val)) && d.dst 32 && a.src 32
  | .blkld _ _ pre d a => Prefix.ok loadOrders [.glb, .spad] pre && d.dstReg 128 && !a.isP
  | .blkst _ pre a b => Prefix.ok storeOrders [.glb, .spad] pre && !a.isP && b.srcGroup 128
  | .mxld _ _ pre _ _ d a b => Prefix.ok loadOrders [.glb] pre && d.dstLong 32 && a.src 64 && b.src 64
  | .mxst _ pre ef _ nan x a b =>
    Prefix.ok storeOrders [.glb] pre && (!nan || ef.float) && x.srcReg 32 && a.src 64 && b.src 64
  | .ctab _ pre tab a => Prefix.ok [.rlx] [.glb] pre && tab != 0 && a.uniform
  | .shfl _ _ ty _ d a b => ty.raw && d.dst ty.regBits && a.src ty.regBits && b.src 32
  | .vote _ mode _ d _ => if mode == .ballot then d.dstReg 64 else d.isP
  | .lred _ op _ d a | .lscan _ op _ d a => op.ok && d.dst op.bits && a.src op.bits
  | .matchL _ all ty _ d a => ty.raw && (if all then d.isP else d.dstReg 64) && a.src ty.regBits
  | .ld _ _ pre sz _ d a => Prefix.ok loadOrders [.glb] pre && d.dstReg sz.regBits && a.src 64
  | Instr.st _ pre sz _ a b => Prefix.ok storeOrders [.glb] pre && sz.storable && a.src 64 && b.src sz.regBits
  | .lds _ _ pre sz form d a => Prefix.ok loadOrders [.glb, .spad] pre && form.ok sz a && d.dstReg sz.regBits
  | .sts _ pre sz form a b =>
    Prefix.ok storeOrders [.glb, .spad] pre && form.ok sz a && sz.storable && b.src sz.regBits
  | .ldb _ _ pre sz form d a => Prefix.ok loadOrders [.glb, .ostore] pre && form.ok sz a && d.dstReg sz.regBits
  | .stb _ pre sz form a b =>
    Prefix.ok storeOrders [.glb, .ostore] pre && form.ok sz a && sz.storable && b.src sz.regBits
  | .ldq _ pre _ _ _ a => Prefix.ok loadOrders [.glb] pre && a.src 64
  | .stq _ pre sz _ a _ => Prefix.ok storeOrders [.glb] pre && sz.storable && a.src 64
  | .pref _ pre _ a => Prefix.ok [.rlx] [.glb] pre && a.src 64
  | .atom _ la pre op ty d a b =>
    Prefix.ok atomOrders [.glb, .spad] pre && op.tyOk ty && !a.isP && b.src ty.regBits &&
      (match d with
       | none => la == 0
       | some o => o.dstReg ty.regBits)
  | .cas _ _ pre ty d a b c =>
    Prefix.ok atomOrders [.glb, .spad] pre && ty.raw && d.dstReg ty.regBits && !a.isP && b.src ty.regBits &&
      c.src ty.regBits
  | .cas128 _ _ pre d a b c =>
    Prefix.ok atomOrders [.glb] pre && d.dstReg 128 && a.src 64 && b.src 128 && c.src 128
  | .ld128a _ _ pre _ d a => Prefix.ok loadOrders [.glb] pre && d.dstReg 128 && a.src 64
  | .st128a _ pre _ a b => Prefix.ok storeOrders [.glb] pre && a.src 64 && b.src 128
  | .fence _ pre =>
    pre.order != .rlx && pre.space == .glb && pre.policy == 0 && pre.hint == .none && pre.codeOk
  | .invr _ pre a b => Prefix.ok [.rlx, .acq] [.glb] pre && a.uniform && b.uniform
  | .wbr _ pre a b => Prefix.ok [.rlx, .rel] [.glb] pre && a.uniform && b.uniform
  | .regw _ pre a b | .icinv _ pre a b => Prefix.ok [.rlx] [.glb] pre && a.uniform && b.uniform
  | .gnew _ d a => d.dst 32 && a.uniform
  | .join _ a | .gang _ a | .nap _ a | .shrink _ a => a.uniform
  | .leave _ | .bar _ _ | .bara _ _ | .barw _ _ | .yield _ => true
  | .waitw _ pre ty _ a b c =>
    Prefix.ok loadOrders [.glb, .spad] pre && ty.raw && !a.isP && b.src ty.regBits && c.uniform
  | .pollb _ pre ty _ _ a b => Prefix.ok loadOrders [.glb, .spad] pre && ty.raw && !a.isP && b.src ty.regBits
  | .grow _ _ a b => a.uniform && b.uniform
  | .spawn _ _ a _ _ _ | .enq _ _ a _ | .deq _ _ _ a _ => a.uniform
  | .qinfo _ _ _ d a => d.dstLong 32 && a.uniform
  | .xq _ _ | .lq _ _ | .twait _ _ | .tdrain _ _ | .tfree _ _ | .cupwt _ _ | .kclr _ _ => true
  | .tset _ _ a | .cupset _ _ _ a | .kguard _ _ a | .kmul _ _ _ _ _ a | .kmma _ _ _ _ _ a | .ksto _ _ _ _ a =>
    a.uniform
  | .tstate _ _ d | .cupqry _ _ d | .kstat _ _ _ d => d.dstReg 64
  | .chki _ _ a b => a.uniform && b.uniform
  | .kext _ _ _ d a => d.dstReg 64 && a.src 32
  | .kextf _ _ _ _ _ d a b => (match d with | .v _ | .c _ => true | _ => false) && a.src 32 && b.src 32
  | .kpack _ _ _ _ a b => a.src 32 && b.src 32
  | .sget _ _ sz _ d n => sz != .b128 && n.val % 2 == 0 && d.dstReg sz.regBits
  | .sput _ sz _ n b => (sz == .z8 || sz == .z16 || sz == .b32 || sz == .b64) && n.val % 2 == 0 && b.uniform
  | .presume _ _ | .pretry _ _ | .pkill _ _ => true
  | .predir _ _ b c => b.uniform && c.uniform
  | .fraise _ _ a => a.uniform
  | .trap _ service a => service != 0 && a.uniform
  | .brk _ _ | .ckpt _ _ | .isync _ | .nop _ | .snap _ => true
  | .resid _ a => a.src 32
  | .rds _ r d => d.dstReg (if srBits r ≤ 32 then 32 else 64)
  | .wrs _ r a => (r == 13 || r == 14 || r == 15) && a.uniform
  | .pairedWord u l => pairOk u l
  | .next _ | .brp _ _ _ _ _ | .call _ _ | .ret _ | .exit _ => true
  | .jidx _ x _ _ => (match x with | .v _ | .c _ | .e _ | .s _ => true | _ => false)
  | .loopn _ x _ => (match x with | .v _ | .c _ | .s _ => true | _ => false)
  | _ => true

end Sys2Proof
end

