-- ==== Sys2Proof/Decode.lean ====
section
/-! DEFINITION. Decoding instruction words (R161 to R188, R418), total on any bytes, and the encoder. -/

namespace Sys2Proof

/-- Why bytes are not an instruction. On a compute core each of these is fault 0x50 at the word (R189). -/
inductive DecodeError where
  | truncated | reservedCode | operands | misplacedPrefix | notServiceWord
  deriving DecidableEq, Repr

/-- The fields of a full word (R162). -/
structure Fields where
  fmt   : Nat
  major : Nat
  la    : Nat
  gp    : Nat
  gs    : Nat
  dst   : Nat
  sa    : Nat
  sb    : Nat
  low   : Nat
  deriving DecidableEq, Repr

/-- The fields of a word by position (R162). -/
def fieldsOf (w : Nat) : Fields :=
  { fmt := bitsOf w 62 2, major := bitsOf w 54 8, la := bitsOf w 50 4, gp := bitsOf w 47 3, gs := bitsOf w 46 1,
    dst := bitsOf w 36 10, sa := bitsOf w 26 10, sb := bitsOf w 16 10, low := bitsOf w 0 16 }

/-- The word with given fields (R162). -/
def wordOf (f : Fields) : Nat :=
  f.low + 65536 * (f.sb + 1024 * (f.sa + 1024 * (f.dst + 1024 * (f.gs + 2 * (f.gp + 8 * (f.la + 16 * (f.major
    + 256 * f.fmt)))))))

/-- Succeeds exactly when the condition holds. -/
def need (c : Bool) : Option Unit := if c then some () else none

/-- The operand a 10-bit specifier names (R164, R166). -/
def opndOf (n : Nat) : Option Opnd :=
  if n < 576 then some (.v (Fin.ofNat 576 n))
  else if n < 624 then some (.c (Fin.ofNat 48 (n - 576)))
  else if n < 628 then some (.e (Fin.ofNat 4 (n - 624)))
  else if n < 640 then some (.q (Fin.ofNat 12 (n - 628)))
  else if n < 704 then some (.s (Fin.ofNat 64 (n - 640)))
  else if n < 712 then some (.p (Fin.ofNat 8 (n - 704)))
  else if n < 729 then some (.sr (Fin.ofNat 17 (n - 712)))
  else if n < 768 then none
  else if n < 1024 then some (.imm (Fin.ofNat 256 (n - 768)))
  else none

/-- The specifier of an operand (R164). -/
def specOf : Opnd → Nat
  | .v n => n.val
  | .c n => 576 + n.val
  | .e n => 624 + n.val
  | .q n => 628 + n.val
  | .s n => 640 + n.val
  | .p n => 704 + n.val
  | .sr n => 712 + n.val
  | .imm n => 768 + n.val

/-- The predicate a specifier names. -/
def predOf (n : Nat) : Option (Fin 8) :=
  if 704 ≤ n ∧ n < 712 then some (Fin.ofNat 8 (n - 704)) else none

/-- The scalar register a specifier names. -/
def scalarOf (n : Nat) : Option (Fin 64) :=
  if 640 ≤ n ∧ n < 704 then some (Fin.ofNat 64 (n - 640)) else none

/-- The queue register a specifier names. -/
def queueOf (n : Nat) : Option (Fin 12) :=
  if 628 ≤ n ∧ n < 640 then some (Fin.ofNat 12 (n - 628)) else none

/-- TY codes (R179). -/
def tyOf : Nat → Option Ty
  | 0 => some .s8
  | 1 => some .s16
  | 2 => some .s32
  | 3 => some .s64
  | 4 => some .z8
  | 5 => some .z16
  | 6 => some .z32
  | 7 => some .z64
  | 8 => some .b32
  | 9 => some .b64
  | _ => none

/-- TY codes (R179). -/
def tyCode : Ty → Nat
  | .s8 => 0
  | .s16 => 1
  | .s32 => 2
  | .s64 => 3
  | .z8 => 4
  | .z16 => 5
  | .z32 => 6
  | .z64 => 7
  | .b32 => 8
  | .b64 => 9

/-- Float format codes (R179). -/
def ffmtOf : Nat → Option FFmt
  | 0 => some .f32
  | 1 => some .bf16
  | 2 => some .f16
  | 3 => some .n8e4
  | 4 => some .n8e5
  | 5 => some .n4e2
  | _ => none

/-- Float format codes (R179). -/
def ffmtCode : FFmt → Nat
  | .f32 => 0
  | .bf16 => 1
  | .f16 => 2
  | .n8e4 => 3
  | .n8e5 => 4
  | .n4e2 => 5

/-- EF codes (R179). -/
def efmtOf : Nat → Option EFmt
  | 0 => some .n4e2
  | 1 => some .n8e4
  | 2 => some .n8e5
  | 3 => some .s4
  | 4 => some .s8
  | 5 => some .bf16
  | _ => none

/-- EF codes (R179). -/
def efmtCode : EFmt → Nat
  | .n4e2 => 0
  | .n8e4 => 1
  | .n8e5 => 2
  | .s4 => 3
  | .s8 => 4
  | .bf16 => 5

/-- RM codes (R179). -/
def rmOf : Nat → Option RMode
  | 0 => some .rne
  | 1 => some .rz
  | 2 => some .rdn
  | 3 => some .rup
  | _ => none

/-- RM codes (R179). -/
def rmCode : RMode → Nat
  | .rne => 0
  | .rz => 1
  | .rdn => 2
  | .rup => 3

/-- SZ codes (R179). -/
def szOf : Nat → Option Sz
  | 0 => some .z8
  | 1 => some .z16
  | 2 => some .b32
  | 3 => some .b64
  | 4 => some .s8
  | 5 => some .s16
  | 6 => some .b128
  | 7 => some .s32
  | _ => none

/-- SZ codes (R179). -/
def szCode : Sz → Nat
  | .z8 => 0
  | .z16 => 1
  | .b32 => 2
  | .b64 => 3
  | .s8 => 4
  | .s16 => 5
  | .b128 => 6
  | .s32 => 7

/-- Conditions of `CMP` and `POLLB` (R188). -/
def condOf : Nat → Option Cond
  | 0 => some .eq
  | 1 => some .ne
  | 2 => some .lt
  | 3 => some .le
  | 4 => some .gt
  | 5 => some .ge
  | _ => none

/-- Conditions of `CMP` and `POLLB` (R188). -/
def condCode : Cond → Nat
  | .eq => 0
  | .ne => 1
  | .lt => 2
  | .le => 3
  | .gt => 4
  | .ge => 5

/-- Conditions of `FCMP` (R188). -/
def fcondOf : Nat → Option FCond
  | 0 => some .eq
  | 1 => some .ne
  | 2 => some .lt
  | 3 => some .le
  | 4 => some .gt
  | 5 => some .ge
  | 6 => some .un
  | 7 => some .or
  | _ => none

/-- Conditions of `FCMP` (R188). -/
def fcondCode : FCond → Nat
  | .eq => 0
  | .ne => 1
  | .lt => 2
  | .le => 3
  | .gt => 4
  | .ge => 5
  | .un => 6
  | .or => 7

/-- ORDER codes (R173). -/
def orderOf : Nat → Option Order
  | 0 => some .rlx
  | 1 => some .acq
  | 2 => some .rel
  | 3 => some .acqrel
  | 4 => some .sc
  | _ => none

/-- ORDER codes (R173). -/
def orderCode : Order → Nat
  | .rlx => 0
  | .acq => 1
  | .rel => 2
  | .acqrel => 3
  | .sc => 4

/-- SCOPE codes (R173). -/
def scopeOf : Nat → Option Scope
  | 0 => some .wave
  | 1 => some .group
  | 2 => some .core
  | 3 => some .die
  | 4 => some .pkg
  | 5 => some .sys
  | _ => none

/-- SCOPE codes (R173). -/
def scopeCode : Scope → Nat
  | .wave => 0
  | .group => 1
  | .core => 2
  | .die => 3
  | .pkg => 4
  | .sys => 5

/-- Address-space codes (R52). -/
def spaceOf : Nat → Option Space
  | 0 => some .glb
  | 1 => some .spad
  | 2 => some .ostore
  | _ => none

/-- Address-space codes (R52). -/
def spaceCode : Space → Nat
  | .glb => 0
  | .spad => 1
  | .ostore => 2

/-- HINT codes (R173). -/
def hintOf : Nat → Option Hint
  | 0 => some .none
  | 1 => some .own
  | 2 => some .home
  | _ => none

/-- HINT codes (R173). -/
def hintCode : Hint → Nat
  | .none => 0
  | .own => 1
  | .home => 2

/-- Modes of `SHFL` (R188). -/
def shflOf : Nat → Option ShflMode
  | 0 => some .index
  | 1 => some .up
  | 2 => some .down
  | 3 => some .xor
  | _ => none

/-- Modes of `SHFL` (R188). -/
def shflCode : ShflMode → Nat
  | .index => 0
  | .up => 1
  | .down => 2
  | .xor => 3

/-- Modes of `VOTE` (R188). -/
def voteOf : Nat → Option VoteMode
  | 0 => some .all
  | 1 => some .any
  | 2 => some .ballot
  | 3 => some .uni
  | _ => none

/-- Modes of `VOTE` (R188). -/
def voteCode : VoteMode → Nat
  | .all => 0
  | .any => 1
  | .ballot => 2
  | .uni => 3

/-- SUBW codes (R178). -/
def subwOf : Nat → Option SubW
  | 0 => some .w
  | 1 => some .w2
  | 2 => some .w4
  | 3 => some .w8
  | 4 => some .w16
  | 5 => some .w32
  | _ => none

/-- SUBW codes (R178). -/
def subwCode : SubW → Nat
  | .w => 0
  | .w2 => 1
  | .w4 => 2
  | .w8 => 3
  | .w16 => 4
  | .w32 => 5

/-- OP codes of `ATOM` (R188). -/
def atomOpOf : Nat → Option AtomOp
  | 0 => some .add
  | 1 => some .and
  | 2 => some .or
  | 3 => some .xor
  | 4 => some .min
  | 5 => some .max
  | 6 => some .xchg
  | 7 => some .fadd
  | _ => none

/-- OP codes of `ATOM` (R188). -/
def atomOpCode : AtomOp → Nat
  | .add => 0
  | .and => 1
  | .or => 2
  | .xor => 3
  | .min => 4
  | .max => 5
  | .xchg => 6
  | .fadd => 7

/-- Fields of `QINFO` (R188). -/
def qfieldOf : Nat → Option QField
  | 0 => some .count
  | 1 => some .cap
  | 2 => some .head
  | 3 => some .tail
  | _ => none

/-- Fields of `QINFO` (R188). -/
def qfieldCode : QField → Nat
  | .count => 0
  | .cap => 1
  | .head => 2
  | .tail => 3

/-- The guard of a word (R162). -/
def Fields.guard (f : Fields) : Guard := ⟨Fin.ofNat 8 f.gp, f.gs == 1⟩

/-- The lookahead of a word marked L. -/
def Fields.laF (f : Fields) : Fin 16 := Fin.ofNat 16 f.la

/-- A modifier prefix word (R173). -/
def prefixOf (w : Nat) : Option Prefix := do
  need (bitsOf w 62 2 == 2 && bitsOf w 0 49 == 0)
  let order ← orderOf (bitsOf w 59 3)
  let scope ← scopeOf (bitsOf w 56 3)
  let space ← spaceOf (bitsOf w 54 2)
  let hint ← hintOf (bitsOf w 50 2)
  pure ⟨order, scope, space, Fin.ofNat 4 (bitsOf w 52 2), hint, bitsOf w 49 1 == 1⟩

/-- The word of a prefix (R173). -/
def prefixWord (p : Prefix) : Nat :=
  2 ^ 49 * ((if p.code then 1 else 0) + 2 * (hintCode p.hint + 4 * (p.policy.val + 4 * (spaceCode p.space
    + 4 * (scopeCode p.scope + 8 * (orderCode p.order + 8 * 2))))))

/-- A reduction operation from MINOR, FLT, TY or FT, and RM (R178, R188, R225). -/
def redOf (flt minor ty rm : Nat) : Option RedOp :=
  if flt = 0 then do
    need (rm == 0)
    let t ← tyOf ty
    match minor with
    | 0 => some (.add t) | 1 => some (.min t) | 2 => some (.max t)
    | 3 => some (.and t) | 4 => some (.or t) | 5 => some (.xor t) | _ => none
  else do
    need (ty == 0)
    match minor with
    | 0 => (rmOf rm).map .fadd
    | 1 => (need (rm == 0)).map fun _ => .fmin
    | 2 => (need (rm == 0)).map fun _ => .fmax
    | _ => none

/-- LOW of a lane reduction: the fields of class L without SUBW. -/
def redLow : RedOp → Nat
  | .add t => 4096 * tyCode t
  | .min t => 4096 * tyCode t + 256
  | .max t => 4096 * tyCode t + 512
  | .and t => 4096 * tyCode t + 768
  | .or t => 4096 * tyCode t + 1024
  | .xor t => 4096 * tyCode t + 1280
  | .fadd rm => 64 * rmCode rm + 4
  | .fmin => 256 + 4
  | .fmax => 512 + 4

/-- TF, OFF, DIR and TILE of class M (R178). -/
def mformOf (low : Nat) : Option MForm :=
  if bitsOf low 12 1 = 0 then some (.off (BitVec.ofNat 12 (bitsOf low 0 12)))
  else do
    need (bitsOf low 6 5 == 0)
    pure (.tile (bitsOf low 11 1 == 1) (Fin.ofNat 64 (bitsOf low 0 6)))

/-- Bits 12 to 0 of LOW in class M. -/
def mformLow : MForm → Nat
  | .off o => o.toNat
  | .tile dir t => 4096 + (if dir then 2048 else 0) + t.val

/-- Three register operands. -/
def Fields.dab (f : Fields) (k : Opnd → Opnd → Opnd → Option Instr) : Option Instr := do
  let d ← opndOf f.dst
  let a ← opndOf f.sa
  let b ← opndOf f.sb
  k d a b

/-- A destination and one source; SB zero. -/
def Fields.da (f : Fields) (k : Opnd → Opnd → Option Instr) : Option Instr := do
  need (f.sb == 0)
  let d ← opndOf f.dst
  let a ← opndOf f.sa
  k d a

/-- Two sources; DST zero. -/
def Fields.ab (f : Fields) (k : Opnd → Opnd → Option Instr) : Option Instr := do
  need (f.dst == 0)
  let a ← opndOf f.sa
  let b ← opndOf f.sb
  k a b

/-- One source; DST and SB zero. -/
def Fields.a1 (f : Fields) (k : Opnd → Option Instr) : Option Instr := do
  need (f.dst == 0 && f.sb == 0)
  let a ← opndOf f.sa
  k a

/-- One destination; SA and SB zero. -/
def Fields.d1 (f : Fields) (k : Opnd → Option Instr) : Option Instr := do
  need (f.sa == 0 && f.sb == 0)
  let d ← opndOf f.dst
  k d

/-- No operand: DST, SA and SB zero. -/
def Fields.z0 (f : Fields) (i : Option Instr) : Option Instr := do
  need (f.dst == 0 && f.sa == 0 && f.sb == 0)
  i

/-- Class A with TY only: MINOR, TRAP and PC zero. -/
def Fields.tyA (f : Fields) (k : Ty → Option Instr) : Option Instr := do
  need (bitsOf f.low 0 12 == 0)
  let ty ← tyOf (bitsOf f.low 12 4)
  k ty

/-- Class A with TY and PC. -/
def Fields.tyPc (f : Fields) (k : Ty → Nat → Option Instr) : Option Instr := do
  need (bitsOf f.low 3 9 == 0)
  let ty ← tyOf (bitsOf f.low 12 4)
  k ty (bitsOf f.low 0 3)

/-- Class A with TY and TRAP. -/
def Fields.tyTrap (f : Fields) (k : Ty → Bool → Option Instr) : Option Instr := do
  need (bitsOf f.low 0 7 == 0 && bitsOf f.low 8 4 == 0)
  let ty ← tyOf (bitsOf f.low 12 4)
  k ty (bitsOf f.low 7 1 == 1)

/-- Class A with TY and MINOR. -/
def Fields.tyMinor (f : Fields) (k : Ty → Nat → Option Instr) : Option Instr := do
  need (bitsOf f.low 0 8 == 0)
  let ty ← tyOf (bitsOf f.low 12 4)
  k ty (bitsOf f.low 8 4)

/-- Classes I3 and C3: TY and a third source. -/
def Fields.tyC (f : Fields) (k : Ty → Opnd → Option Instr) : Option Instr := do
  need (bitsOf f.low 10 2 == 0)
  let ty ← tyOf (bitsOf f.low 12 4)
  let c ← opndOf (bitsOf f.low 0 10)
  k ty c

/-- Class C3 with TY zero. -/
def Fields.c3 (f : Fields) (k : Opnd → Option Instr) : Option Instr := do
  need (bitsOf f.low 10 6 == 0)
  let c ← opndOf (bitsOf f.low 0 10)
  k c

/-- Class BF. -/
def Fields.bf (f : Fields) (k : Ty → Fin 64 → Fin 64 → Option Instr) : Option Instr := do
  let ty ← tyOf (bitsOf f.low 12 4)
  k ty (Fin.ofNat 64 (bitsOf f.low 6 6)) (Fin.ofNat 64 (bitsOf f.low 0 6))

/-- Class CV with DT, ST, RM, FTZ and SN as numbers. -/
def Fields.cv (f : Fields) (k : Nat → Nat → RMode → Bool → Bool → Option Instr) : Option Instr := do
  need (bitsOf f.low 0 4 == 0)
  let rm ← rmOf (bitsOf f.low 6 2)
  k (bitsOf f.low 12 4) (bitsOf f.low 8 4) rm (bitsOf f.low 5 1 == 1) (bitsOf f.low 4 1 == 1)

/-- Class F, with MINOR. -/
def Fields.fl (f : Fields) (k : FFmt → RMode → Bool → Nat → Option Instr) : Option Instr := do
  need (bitsOf f.low 8 1 == 0 && bitsOf f.low 0 4 == 0)
  let ft ← ffmtOf (bitsOf f.low 12 4)
  let rm ← rmOf (bitsOf f.low 10 2)
  k ft rm (bitsOf f.low 9 1 == 1) (bitsOf f.low 4 4)

/-- Class F with MINOR zero. -/
def Fields.fl0 (f : Fields) (k : FFmt → RMode → Bool → Option Instr) : Option Instr :=
  f.fl fun ft rm ftz minor => do need (minor == 0); k ft rm ftz

/-- Class F with FT and MINOR zero: the FP32 functions. -/
def Fields.fl32 (f : Fields) (k : RMode → Bool → Option Instr) : Option Instr :=
  f.fl0 fun ft rm ftz => do need (ft == .f32); k rm ftz

/-- Class F3: RM, SUB and a third source. -/
def Fields.f3 (f : Fields) (k : RMode → Nat → Opnd → Option Instr) : Option Instr := do
  let rm ← rmOf (bitsOf f.low 14 2)
  let c ← opndOf (bitsOf f.low 0 10)
  k rm (bitsOf f.low 10 4) c

/-- Class N. -/
def Fields.nw (f : Fields) (k : EFmt → RMode → Bool → Fin 4 → Option Instr) : Option Instr := do
  need (bitsOf f.low 0 7 == 0)
  let ef ← efmtOf (bitsOf f.low 12 4)
  let rm ← rmOf (bitsOf f.low 10 2)
  k ef rm (bitsOf f.low 9 1 == 1) (Fin.ofNat 4 (bitsOf f.low 7 2))

/-- Class PK. -/
def Fields.pk (f : Fields) (k : Fin 3 → Fin 16 → Option Instr) : Option Instr := do
  need (bitsOf f.low 0 8 == 0 && decide (bitsOf f.low 12 4 < 3))
  k (Fin.ofNat 3 (bitsOf f.low 12 4)) (Fin.ofNat 16 (bitsOf f.low 8 4))

/-- Class L: the TY or FT field, MINOR, RM, SUBW and FLT. -/
def Fields.ln (f : Fields) (k : Nat → Nat → Nat → SubW → Nat → Option Instr) : Option Instr := do
  need (bitsOf f.low 0 2 == 0)
  let sub ← subwOf (bitsOf f.low 3 3)
  k (bitsOf f.low 12 4) (bitsOf f.low 8 4) (bitsOf f.low 6 2) sub (bitsOf f.low 2 1)

/-- Class M without the tile form. -/
def Fields.mo (f : Fields) (k : Sz → BitVec 12 → Option Instr) : Option Instr := do
  need (bitsOf f.low 12 1 == 0)
  let sz ← szOf (bitsOf f.low 13 3)
  k sz (BitVec.ofNat 12 (bitsOf f.low 0 12))

/-- Class M with either form. -/
def Fields.mf (f : Fields) (k : Sz → MForm → Option Instr) : Option Instr := do
  let sz ← szOf (bitsOf f.low 13 3)
  let form ← mformOf f.low
  k sz form

/-- Class AT. -/
def Fields.at_ (f : Fields) (k : AtomOp → Ty → Bool → Option Instr) : Option Instr := do
  need (bitsOf f.low 0 7 == 0)
  let ty ← tyOf (bitsOf f.low 12 4)
  let op ← atomOpOf (bitsOf f.low 8 4)
  k op ty (bitsOf f.low 7 1 == 1)

/-- Class Z: LOW zero. -/
def Fields.lz (f : Fields) (i : Option Instr) : Option Instr := do
  need (f.low == 0)
  i

/-- Class T: MINOR and TILE. -/
def Fields.tl (f : Fields) (k : Nat → Fin 64 → Option Instr) : Option Instr := do
  need (bitsOf f.low 6 6 == 0)
  k (bitsOf f.low 12 4) (Fin.ofNat 64 (bitsOf f.low 0 6))

/-- Class T with MINOR zero. -/
def Fields.tl0 (f : Fields) (k : Fin 64 → Option Instr) : Option Instr :=
  f.tl fun minor t => do need (minor == 0); k t

/-- Class K. -/
def Fields.kk (f : Fields) (k : Fin 16 → Fin 64 → Fin 64 → Option Instr) : Option Instr :=
  k (Fin.ofNat 16 (bitsOf f.low 12 4)) (Fin.ofNat 64 (bitsOf f.low 6 6)) (Fin.ofNat 64 (bitsOf f.low 0 6))

/-- Class K with TA and TB zero. -/
def Fields.k0 (f : Fields) (k : Fin 16 → Option Instr) : Option Instr :=
  f.kk fun acc ta tb => do need (ta == 0 && tb == 0); k acc

/-- Class SR. -/
def Fields.sr (f : Fields) (k : Fin 17 → Option Instr) : Option Instr := do
  need (decide (712 ≤ f.low ∧ f.low < 729))
  k (Fin.ofNat 17 (f.low - 712))

/-- Lookahead zero: the major is not marked L (R168). -/
def Fields.noLa (f : Fields) (i : Option Instr) : Option Instr := do
  need (f.la == 0)
  i

/-- A v group of eight, by its first register (R296). -/
def v8Of (n : Nat) : Option (Fin 72) :=
  if n < 576 ∧ n % 8 = 0 then some (Fin.ofNat 72 (n / 8)) else none

/-- Four scalar registers, by the first (R297). -/
def s4Of (n : Nat) : Option (Fin 16) :=
  if 640 ≤ n ∧ n < 704 ∧ n % 4 = 0 then some (Fin.ofNat 16 ((n - 640) / 4)) else none

/-- Majors 0x00 to 0x1F (R180, R205). -/
def decodeInt (f : Fields) : Option Instr :=
  match f.major with
  | 0x00 => f.noLa (f.tyA fun ty => f.dab fun d a b => some (.add f.guard ty d a b))
  | 0x01 =>
    f.noLa (f.tyPc fun ty pc => f.dab fun d a b => do need (decide (pc < 7)); some (.addc f.guard ty d a b (Fin.ofNat 7 pc)))
  | 0x02 => f.noLa (f.tyA fun ty => f.dab fun d a b => some (.sub f.guard ty d a b))
  | 0x03 =>
    f.noLa (f.tyPc fun ty pc => f.dab fun d a b => do need (decide (pc < 7)); some (.subb f.guard ty d a b (Fin.ofNat 7 pc)))
  | 0x04 => f.noLa (f.tyA fun ty => f.dab fun d a b => some (.mul f.guard ty d a b))
  | 0x05 => f.noLa (f.tyA fun ty => f.dab fun d a b => some (.mulh f.guard ty d a b))
  | 0x06 => f.noLa (f.tyC fun ty c => f.dab fun d a b => some (.mad f.guard ty d a b c))
  | 0x07 => f.tyTrap fun ty trap => f.dab fun d a b => some (.div f.guard f.laF ty trap d a b)
  | 0x08 => f.tyTrap fun ty trap => f.dab fun d a b => some (.rem f.guard f.laF ty trap d a b)
  | 0x09 => f.noLa (f.tyA fun ty => f.dab fun d a b => some (.min f.guard ty d a b))
  | 0x0A => f.noLa (f.tyA fun ty => f.dab fun d a b => some (.max f.guard ty d a b))
  | 0x0B => f.noLa (f.tyA fun ty => f.da fun d a => some (.abs f.guard ty d a))
  | 0x0C => f.noLa (f.tyA fun ty => f.da fun d a => some (.neg f.guard ty d a))
  | 0x0D => f.noLa (f.tyA fun ty => f.dab fun d a b => some (.and f.guard ty d a b))
  | 0x0E => f.noLa (f.tyA fun ty => f.dab fun d a b => some (.or f.guard ty d a b))
  | 0x0F => f.noLa (f.tyA fun ty => f.dab fun d a b => some (.xor f.guard ty d a b))
  | 0x10 => f.noLa (f.tyA fun ty => f.dab fun d a b => some (.andn f.guard ty d a b))
  | 0x11 => f.noLa (f.tyA fun ty => f.dab fun d a b => some (.shl f.guard ty d a b))
  | 0x12 => f.noLa (f.tyA fun ty => f.dab fun d a b => some (.shr f.guard ty d a b))
  | 0x13 => f.noLa (f.tyA fun ty => f.dab fun d a b => some (.sar f.guard ty d a b))
  | 0x14 => f.noLa (f.tyA fun ty => f.dab fun d a b => some (.rotl f.guard ty d a b))
  | 0x15 => f.noLa (f.tyMinor fun ty minor => f.da fun d a =>
      match minor with
      | 0 => some (.popc f.guard ty d a) | 1 => some (.clz f.guard ty d a) | 2 => some (.ctz f.guard ty d a)
      | 3 => some (.brev f.guard ty d a) | _ => none)
  | 0x16 => f.noLa (f.bf fun ty pos len => f.da fun d a => some (.bfx f.guard ty pos len d a))
  | 0x17 => f.noLa (f.bf fun ty pos len => f.dab fun d a b => some (.bfi f.guard ty pos len d a b))
  | 0x18 => f.noLa (f.tyPc fun ty pc => f.dab fun d a b => some (.sel f.guard ty d a b (Fin.ofNat 8 pc)))
  | 0x19 => f.noLa (f.tyMinor fun ty minor => do
      let cond ← condOf minor
      let d ← predOf f.dst
      let a ← opndOf f.sa
      let b ← opndOf f.sb
      some (.cmp f.guard ty cond d a b))
  | 0x1A => f.noLa (do
      need (bitsOf f.low 0 8 == 0 && bitsOf f.low 12 4 == 0)
      let d ← predOf f.dst
      let a ← predOf f.sa
      if bitsOf f.low 8 4 = 3 then do need (f.sb == 0); some (.pnot f.guard d a)
      else do
        let b ← predOf f.sb
        match bitsOf f.low 8 4 with
        | 0 => some (.pand f.guard d a b) | 1 => some (.por f.guard d a b) | 2 => some (.pxor f.guard d a b) | _ => none)
  | 0x1B => f.noLa (f.tyA fun ty => f.da fun d a => some (.mov f.guard ty d a))
  | 0x1C => f.noLa (do
      need (f.sa == 0)
      let d ← opndOf f.dst
      some (.movi f.guard d (BitVec.ofNat 26 (f.low + 65536 * f.sb))))
  | 0x1D => f.noLa (do
      need (f.sa == 0 && decide (f.sb < 4))
      let d ← opndOf f.dst
      some (.movh f.guard d (BitVec.ofNat 16 f.low) (Fin.ofNat 4 f.sb)))
  | 0x1E => f.noLa (f.tyMinor fun ty minor => f.dab fun d a b => some (.lea f.guard ty d a b (Fin.ofNat 16 minor)))
  | 0x1F => f.noLa (f.cv fun dt st rm ftz sn => f.da fun d a => do
      need (rm == .rne && !ftz)
      let dt ← tyOf dt
      let st ← tyOf st
      some (.cvti f.guard dt st sn d a))
  | _ => none

/-- Majors 0x20 to 0x3F (R181, R232). -/
def decodeFloat (f : Fields) : Option Instr :=
  match f.major with
  | 0x20 => f.noLa (f.fl0 fun ft rm ftz => f.dab fun d a b => some (.fadd f.guard ft rm ftz d a b))
  | 0x21 => f.noLa (f.fl0 fun ft rm ftz => f.dab fun d a b => some (.fsub f.guard ft rm ftz d a b))
  | 0x22 => f.noLa (f.fl0 fun ft rm ftz => f.dab fun d a b => some (.fmul f.guard ft rm ftz d a b))
  | 0x23 => f.noLa (f.f3 fun rm sub c => f.dab fun d a b => do
      need (decide (sub % 8 = 0))
      some (.ffma f.guard rm (sub / 8 == 1) d a b c))
  | 0x24 => f.noLa (f.fl0 fun ft rm ftz => f.dab fun d a b => do need (rm == .rne); some (.fmin f.guard ft ftz d a b))
  | 0x25 => f.noLa (f.fl0 fun ft rm ftz => f.dab fun d a b => do need (rm == .rne); some (.fmax f.guard ft ftz d a b))
  | 0x26 => f.noLa (f.fl fun ft rm ftz minor => do
      need (rm == .rne)
      let cond ← fcondOf minor
      let d ← predOf f.dst
      let a ← opndOf f.sa
      let b ← opndOf f.sb
      some (.fcmp f.guard ft cond ftz d a b))
  | 0x27 =>
    f.noLa (f.fl0 fun ft rm ftz => f.da fun d a => do need (rm == .rne && !ftz); some (.fclass f.guard ft d a))
  | 0x28 => f.fl32 fun rm ftz => f.da fun d a => do need (rm == .rne); some (.frcpa f.guard f.laF ftz d a)
  | 0x29 => f.fl32 fun rm ftz => f.da fun d a => do need (rm == .rne); some (.frsqa f.guard f.laF ftz d a)
  | 0x2A => f.fl0 fun ft rm ftz => f.da fun d a => some (.fsqrt f.guard f.laF ft rm ftz d a)
  | 0x2B => f.fl0 fun ft rm ftz => f.dab fun d a b => some (.fdiv f.guard f.laF ft rm ftz d a b)
  | 0x2C => f.fl32 fun rm ftz => f.da fun d a => some (.fexp2 f.guard f.laF rm ftz d a)
  | 0x2D => f.fl32 fun rm ftz => f.da fun d a => some (.flog2 f.guard f.laF rm ftz d a)
  | 0x2E => f.fl32 fun rm ftz => f.da fun d a => some (.fsin f.guard f.laF rm ftz d a)
  | 0x2F => f.fl32 fun rm ftz => f.da fun d a => some (.fcos f.guard f.laF rm ftz d a)
  | 0x30 => f.fl32 fun rm ftz => f.da fun d a => some (.ftanh f.guard f.laF rm ftz d a)
  | 0x31 => f.noLa (f.cv fun dt st rm ftz sn => do
      let dt ← ffmtOf dt
      let st ← ffmtOf st
      let d ← opndOf f.dst
      let a ← opndOf f.sa
      if dt.arith && st.arith then do need (f.sb == 0); some (.cvtf f.guard dt st rm ftz sn d a none)
      else do
        let b ← opndOf f.sb
        some (.cvtf f.guard dt st rm ftz sn d a (some b)))
  | 0x32 => f.noLa (f.cv fun dt st rm ftz sn => f.da fun d a => do
      need (!sn)
      let ty ← tyOf dt
      let ft ← ffmtOf st
      some (.cvtfi f.guard ty ft rm ftz d a))
  | 0x33 => f.noLa (f.cv fun dt st rm ftz sn => f.da fun d a => do
      need (!sn && !ftz)
      let ft ← ffmtOf dt
      let ty ← tyOf st
      some (.cvtif f.guard ft ty rm d a))
  | 0x34 => f.noLa (f.fl0 fun ft rm ftz => f.da fun d a => some (.frnd f.guard ft rm ftz d a))
  | 0x35 => f.noLa (f.f3 fun rm sub c => f.dab fun d a b => do
      need (decide (sub % 4 = 0))
      some (.hfma2 f.guard (sub / 4 % 2 == 1) rm (sub / 8 == 1) d a b c))
  | _ => none

/-- Majors 0x40 to 0x57 (R182, R183). -/
def decodeNarrow (f : Fields) (pre : Option Prefix) : Option Instr :=
  match f.major with
  | 0x40 =>
    f.noLa (f.f3 fun rm sub c => f.dab fun d a b => some (.dot4 f.guard (Fin.ofNat 4 (sub / 4)) (Fin.ofNat 4 (sub % 4)) rm d a b c))
  | 0x41 =>
    f.noLa (f.f3 fun rm sub c => f.dab fun d a b => some (.dot8 f.guard (Fin.ofNat 4 (sub / 4)) (Fin.ofNat 4 (sub % 4)) rm d a b c))
  | 0x42 => f.noLa (f.nw fun ef rm nan tab => f.dab fun d a b => some (.qnt f.guard ef rm nan tab d a b))
  | 0x43 =>
    f.noLa (f.nw fun ef rm nan tab => f.dab fun d a b => do need (rm == .rne && !nan); some (.dqnt f.guard ef tab d a b))
  | 0x44 =>
    f.noLa (f.nw fun ef rm nan tab => f.da fun d a => do need (rm == .rne && !nan && tab == 0); some (.bscl f.guard ef d a))
  | 0x45 => f.noLa (f.pk fun esz pos => f.da fun d a => some (.pkb f.guard esz pos d a))
  | 0x46 => f.noLa (f.pk fun esz pos => f.da fun d a => some (.upkb f.guard esz pos d a))
  | 0x47 => f.lz (f.da fun d a => some (.blkld f.guard f.laF pre d a))
  | 0x48 => f.noLa (f.lz (f.ab fun a b => some (.blkst f.guard pre a b)))
  | 0x49 =>
    f.nw fun ef rm nan tab => f.dab fun d a b => do need (!nan && tab == 0); some (.mxld f.guard f.laF pre ef rm d a b)
  | 0x4A =>
    f.noLa (f.nw fun ef rm nan tab => f.dab fun x a b => do need (tab == 0); some (.mxst f.guard pre ef rm nan x a b))
  | 0x4B =>
    f.noLa (f.nw fun ef rm nan tab => f.a1 fun a => do need (ef == .n4e2 && rm == .rne && !nan); some (.ctab f.guard pre tab a))
  | 0x50 => f.noLa (f.ln fun ty minor rm sub flt => f.dab fun d a b => do
      need (rm == 0 && flt == 0)
      let ty ← tyOf ty
      let mode ← shflOf minor
      some (.shfl f.guard mode ty sub d a b))
  | 0x51 => f.noLa (f.ln fun ty minor rm sub flt => do
      need (ty == 0 && rm == 0 && flt == 0 && f.sb == 0)
      let mode ← voteOf minor
      let d ← opndOf f.dst
      let a ← predOf f.sa
      some (.vote f.guard mode sub d a))
  | 0x52 => f.noLa (f.ln fun ty minor rm sub flt => f.da fun d a => do
      let op ← redOf flt minor ty rm
      some (.lred f.guard op sub d a))
  | 0x53 => f.noLa (f.ln fun ty minor rm sub flt => f.da fun d a => do
      let op ← redOf flt minor ty rm
      some (.lscan f.guard op sub d a))
  | 0x54 => f.noLa (f.ln fun ty minor rm sub flt => f.da fun d a => do
      need (rm == 0 && flt == 0 && decide (minor < 2))
      let ty ← tyOf ty
      some (.matchL f.guard (minor == 1) ty sub d a))
  | _ => none

/-- Majors 0x58 to 0x7F (R184). -/
def decodeMem (f : Fields) (pre : Option Prefix) : Option Instr :=
  match f.major with
  | 0x58 => f.mo fun sz off => f.da fun d a => some (.ld f.guard f.laF pre sz off d a)
  | 0x59 => f.noLa (f.mo fun sz off => f.ab fun a b => some (.st f.guard pre sz off a b))
  | 0x5A => f.mf fun sz form => f.da fun d a => some (.lds f.guard f.laF pre sz form d a)
  | 0x5B => f.noLa (f.mf fun sz form => f.ab fun a b => some (.sts f.guard pre sz form a b))
  | 0x5C => f.mf fun sz form => f.da fun d a => some (.ldb f.guard f.laF pre sz form d a)
  | 0x5D => f.noLa (f.mf fun sz form => f.ab fun a b => some (.stb f.guard pre sz form a b))
  | 0x5E => f.noLa (f.mo fun sz off => do
      need (f.sb == 0)
      let q ← queueOf f.dst
      let a ← opndOf f.sa
      some (.ldq f.guard pre sz off q a))
  | 0x5F => f.noLa (f.mo fun sz off => do
      need (f.dst == 0)
      let a ← opndOf f.sa
      let q ← queueOf f.sb
      some (.stq f.guard pre sz off a q))
  | 0x60 => f.noLa (f.mo fun sz off => f.a1 fun a => do need (sz == .z8); some (.pref f.guard pre off a))
  | 0x61 => f.at_ fun op ty nr =>
      if nr then do
        need (f.la == 0)
        f.ab fun a b => some (.atom f.guard 0 pre op ty none a b)
      else f.dab fun d a b => some (.atom f.guard f.laF pre op ty (some d) a b)
  | 0x62 => f.tyC fun ty c => f.dab fun d a b => some (.cas f.guard f.laF pre ty d a b c)
  | 0x63 => f.c3 fun c => f.dab fun d a b => some (.cas128 f.guard f.laF pre d a b c)
  | 0x64 => f.mo fun sz off => f.da fun d a => do need (sz == .b128); some (.ld128a f.guard f.laF pre off d a)
  | 0x65 => f.noLa (f.mo fun sz off => f.ab fun a b => do need (sz == .b128); some (.st128a f.guard pre off a b))
  | 0x66 => f.noLa (f.lz (f.z0 (pre.map fun p => .fence f.guard p)))
  | 0x67 => f.noLa (f.lz (f.ab fun a b => some (.invr f.guard pre a b)))
  | 0x68 => f.noLa (f.lz (f.ab fun a b => some (.wbr f.guard pre a b)))
  | 0x69 => f.noLa (f.lz (f.ab fun a b => some (.regw f.guard pre a b)))
  | 0x6A => f.noLa (f.lz (f.ab fun a b => some (.icinv f.guard pre a b)))
  | _ => none

/-- Majors 0x80 to 0x9F (R185). -/
def decodeGroup (f : Fields) (pre : Option Prefix) : Option Instr :=
  match f.major with
  | 0x80 => f.noLa (f.lz (f.da fun d a => some (.gnew f.guard d a)))
  | 0x81 => f.noLa (f.lz (f.a1 fun a => some (.join f.guard a)))
  | 0x82 => f.noLa (f.lz (f.z0 (some (.leave f.guard))))
  | 0x83 => f.noLa (f.z0 (do need (decide (f.low < 16)); some (.bar f.guard (Fin.ofNat 16 f.low))))
  | 0x84 => f.noLa (f.z0 (do need (decide (f.low < 16)); some (.bara f.guard (Fin.ofNat 16 f.low))))
  | 0x85 => f.noLa (f.z0 (do need (decide (f.low < 16)); some (.barw f.guard (Fin.ofNat 16 f.low))))
  | 0x86 => f.noLa (f.lz (f.a1 fun a => some (.gang f.guard a)))
  | 0x87 => f.noLa (f.tyC fun ty c => do
      let d ← predOf f.dst
      let a ← opndOf f.sa
      let b ← opndOf f.sb
      some (.waitw f.guard pre ty d a b c))
  | 0x88 => f.noLa (f.tyMinor fun ty minor => do
      let cond ← condOf minor
      let d ← predOf f.dst
      let a ← opndOf f.sa
      let b ← opndOf f.sb
      some (.pollb f.guard pre ty cond d a b))
  | 0x89 => f.noLa (f.lz (f.z0 (some (.yield f.guard))))
  | 0x8A => f.noLa (f.lz (f.a1 fun a => some (.nap f.guard a)))
  | 0x8B => f.noLa (f.lz (do
      let d ← predOf f.dst
      let a ← opndOf f.sa
      let b ← opndOf f.sb
      some (.grow f.guard d a b)))
  | 0x8C => f.noLa (f.lz (f.a1 fun a => some (.shrink f.guard a)))
  | 0x90 => f.noLa (do
      need (bitsOf f.low 4 12 == 0)
      let d ← predOf f.dst
      let a ← opndOf f.sa
      let v8 ← v8Of f.sb
      some (.spawn f.guard d a v8 (Fin.ofNat 8 (bitsOf f.low 0 3)) (bitsOf f.low 3 1 == 1)))
  | 0x91 => f.noLa (f.lz (do
      let d ← predOf f.dst
      let a ← opndOf f.sa
      let s4 ← s4Of f.sb
      some (.enq f.guard d a s4)))
  | 0x92 => do
      need (decide (f.low < 8) && f.sb == 0)
      let s4 ← s4Of f.dst
      let a ← opndOf f.sa
      some (.deq f.guard f.laF s4 a (Fin.ofNat 8 f.low))
  | 0x93 => f.tl fun minor t => f.da fun d a => do
      need (t == 0)
      let field ← qfieldOf minor
      some (.qinfo f.guard f.laF field d a)
  | _ => none

/-- Majors 0xA0 to 0xBF (R186). -/
def decodeTile (f : Fields) : Option Instr :=
  match f.major with
  | 0xA0 => f.noLa (f.lz (do
      need (f.dst == 0 && f.sb == 0)
      let s4 ← s4Of f.sa
      some (.xq f.guard s4)))
  | 0xA1 => f.noLa (f.lz (do
      need (f.dst == 0 && f.sb == 0)
      let s4 ← s4Of f.sa
      some (.lq f.guard s4)))
  | 0xA2 => f.noLa (f.tl0 fun t => f.a1 fun a => some (.tset f.guard t a))
  | 0xA3 => f.noLa (f.tl0 fun t => f.d1 fun d => some (.tstate f.guard t d))
  | 0xA4 => f.noLa (f.tl0 fun t => f.z0 (some (.twait f.guard t)))
  | 0xA5 => f.noLa (f.tl0 fun t => f.z0 (some (.tdrain f.guard t)))
  | 0xA6 => f.noLa (f.tl0 fun t => f.z0 (some (.tfree f.guard t)))
  | 0xA7 =>
    f.noLa (f.tl fun minor t => f.a1 fun a => do need (decide (minor < 2)); some (.cupset f.guard (minor == 1) t a))
  | 0xA8 => f.noLa (f.tl0 fun t => f.z0 (some (.cupwt f.guard t)))
  | 0xA9 => f.noLa (f.tl0 fun t => f.d1 fun d => some (.cupqry f.guard t d))
  | 0xAA => f.noLa (f.tl0 fun t => f.ab fun a b => some (.chki f.guard t a b))
  | 0xB0 => f.noLa (f.k0 fun k => f.a1 fun a => some (.kguard f.guard k a))
  | 0xB1 => f.noLa (f.k0 fun k => f.z0 (some (.kclr f.guard k)))
  | 0xB2 => f.kk fun k ta tb => f.a1 fun a => some (.kmul f.guard f.laF k ta tb a)
  | 0xB3 => f.kk fun k ta tb => f.a1 fun a => some (.kmma f.guard f.laF k ta tb a)
  | 0xB4 => f.k0 fun k => f.da fun d a => some (.kext f.guard f.laF k d a)
  | 0xB5 => f.dab fun d a b => do
      need (bitsOf f.low 0 9 == 0)
      let rm ← rmOf (bitsOf f.low 10 2)
      some (.kextf f.guard f.laF (Fin.ofNat 16 (bitsOf f.low 12 4)) rm (bitsOf f.low 9 1 == 1) d a b)
  | 0xB6 => f.kk fun k ta tb => f.a1 fun a => do need (tb == 0); some (.ksto f.guard f.laF k ta a)
  | 0xB7 => f.kk fun k ta tb => f.ab fun a b => do need (tb == 0); some (.kpack f.guard f.laF k ta a b)
  | 0xB8 => f.k0 fun k => f.d1 fun d => some (.kstat f.guard f.laF k d)
  | _ => none

/-- Majors 0xC0 to 0xFF (R187). -/
def decodeSys (f : Fields) : Option Instr :=
  match f.major with
  | 0xC0 => f.mo fun sz off => do
      need (f.sb == 0)
      let d ← opndOf f.dst
      let n ← scalarOf f.sa
      some (.sget f.guard f.laF sz off d n)
  | 0xC1 => f.noLa (f.mo fun sz off => do
      need (f.dst == 0)
      let n ← scalarOf f.sa
      let b ← opndOf f.sb
      some (.sput f.guard sz off n b))
  | 0xC2 => f.noLa (f.lz (do need (f.dst == 0 && f.sb == 0); (scalarOf f.sa).map fun n => .presume f.guard n))
  | 0xC3 => f.noLa (f.lz (do need (f.dst == 0 && f.sb == 0); (scalarOf f.sa).map fun n => .pretry f.guard n))
  | 0xC4 => f.noLa (f.c3 fun c => do
      need (f.dst == 0)
      let n ← scalarOf f.sa
      let b ← opndOf f.sb
      some (.predir f.guard n b c))
  | 0xC5 => f.noLa (f.lz (do need (f.dst == 0 && f.sb == 0); (scalarOf f.sa).map fun n => .pkill f.guard n))
  | 0xC6 => f.noLa (f.a1 fun a => do need (decide (f.low < 8)); some (.fraise f.guard (Fin.ofNat 8 f.low) a))
  | 0xC7 => f.noLa (f.a1 fun a => do need (decide (f.low < 4096)); some (.trap f.guard (Fin.ofNat 4096 f.low) a))
  | 0xC8 => f.noLa (f.z0 (some (.ckpt f.guard (BitVec.ofNat 16 f.low))))
  | 0xC9 => f.noLa (f.lz (f.a1 fun a => some (.resid f.guard a)))
  | 0xCA => f.noLa (f.z0 (some (.brk f.guard (BitVec.ofNat 16 f.low))))
  | 0xD0 => f.noLa (f.sr fun r => f.d1 fun d => some (.rds f.guard r d))
  | 0xD1 => f.noLa (f.sr fun r => f.a1 fun a => some (.wrs f.guard r a))
  | 0xD2 => f.noLa (f.lz (f.z0 (some (.isync f.guard))))
  | 0xD3 => f.noLa (f.lz (f.z0 (some (.nop f.guard))))
  | 0xD4 => f.noLa (f.lz (f.z0 (some (.snap f.guard))))
  | _ => none

/-- A full word, with the prefix that stands before it. -/
def decodeFull (f : Fields) (pre : Option Prefix) : Option Instr :=
  if f.major < 0x20 then decodeInt f
  else if f.major < 0x40 then decodeFloat f
  else if f.major < 0x58 then decodeNarrow f pre
  else if f.major < 0x80 then decodeMem f pre
  else if f.major < 0xA0 then decodeGroup f pre
  else if f.major < 0xC0 then decodeTile f
  else decodeSys f

/-- The words that accept a prefix (R174). -/
def takesPrefix : Instr → Bool
  | .ld .. | .ldq .. | .ld128a .. | .mxld .. | .blkld .. | .waitw .. | .pollb .. | .lds .. | .ldb .. | .st .. | .stq ..
  | .st128a .. | .mxst .. | .blkst .. | .sts .. | .stb .. | .atom .. | .cas .. | .cas128 .. | .fence .. | .invr ..
  | .wbr .. | .regw .. | .pref .. | .ctab .. | .icinv .. => true
  | _ => false

/-- The operand an 8-bit specifier names (R170). -/
def shortOf (n : Nat) : Opnd :=
  if n < 192 then .v (Fin.ofNat 576 n)
  else if n < 240 then .c (Fin.ofNat 48 (n - 192))
  else if n < 244 then .e (Fin.ofNat 4 (n - 240))
  else .q (Fin.ofNat 12 (n - 244))

/-- The 8-bit specifier of an operand. -/
def shortSpec : Opnd → Nat
  | .v n => n.val
  | .c n => 192 + n.val
  | .e n => 240 + n.val
  | .q n => 244 + n.val
  | _ => 0

/-- A half opcode with its modifiers (R171). -/
def halfOpOf (hop hm : Nat) : Option HalfOp :=
  match hop with
  | 0x00 => if hm = 0 then some .nop else none
  | 0x01 => if hm < 3 then some (.add (Fin.ofNat 3 hm)) else none
  | 0x02 => if hm < 3 then some (.sub (Fin.ofNat 3 hm)) else none
  | 0x03 => if hm = 2 then some .and else none
  | 0x04 => if hm = 2 then some .or else none
  | 0x05 => if hm = 2 then some .xor else none
  | 0x06 => if hm = 2 then some .shl else none
  | 0x07 => if hm = 2 then some .shr else none
  | 0x08 => if hm = 2 then some .mov else none
  | 0x09 => if hm < 2 then some (.min (hm == 1)) else none
  | 0x0A => if hm < 2 then some (.max (hm == 1)) else none
  | 0x0B => if hm < 8 then (rmOf (hm % 4)).map fun rm => .fadd rm (hm / 4 == 1) else none
  | 0x0C => if hm < 8 then (rmOf (hm % 4)).map fun rm => .fmul rm (hm / 4 == 1) else none
  | 0x0D => if hm = 0 || hm = 4 then some (.fmin (hm == 4)) else none
  | 0x0E => if hm = 0 || hm = 4 then some (.fmax (hm == 4)) else none
  | _ => none

/-- HOP and HM of a half opcode (R171). -/
def halfCode : HalfOp → Nat × Nat
  | .nop => (0x00, 0)
  | .add t => (0x01, t.val)
  | .sub t => (0x02, t.val)
  | .and => (0x03, 2)
  | .or => (0x04, 2)
  | .xor => (0x05, 2)
  | .shl => (0x06, 2)
  | .shr => (0x07, 2)
  | .mov => (0x08, 2)
  | .min z => (0x09, if z then 1 else 0)
  | .max z => (0x0A, if z then 1 else 0)
  | .fadd rm ftz => (0x0B, rmCode rm + if ftz then 4 else 0)
  | .fmul rm ftz => (0x0C, rmCode rm + if ftz then 4 else 0)
  | .fmin ftz => (0x0D, if ftz then 4 else 0)
  | .fmax ftz => (0x0E, if ftz then 4 else 0)

/-- One half of a paired word (R170). -/
def halfOf (h : Nat) : Option Half :=
  (halfOpOf (bitsOf h 24 7) (bitsOf h 0 5)).map fun op =>
    ⟨op, shortOf (bitsOf h 16 8), shortOf (bitsOf h 8 8), Fin.ofNat 8 (bitsOf h 5 3)⟩

/-- The 31 bits of a half. -/
def halfWord (h : Half) : Nat :=
  (halfCode h.op).2 + 32 * (h.g.val + 8 * (shortSpec h.s + 256 * (shortSpec h.d + 256 * (halfCode h.op).1)))

/-- A trailer (R176, R177). -/
def trailerOf (w : Nat) : Option Instr :=
  let aw := BitVec.ofNat 5 (bitsOf w 53 5)
  let offa := BitVec.ofNat 19 (bitsOf w 20 19)
  let tr := bitsOf w 39 10
  match bitsOf w 58 4 with
  | 0 => do need (bitsOf w 0 53 == 0); some (.next aw)
  | 1 => do
    need (bitsOf w 0 1 == 0 && tr == 0)
    some (.brp aw (Fin.ofNat 8 (bitsOf w 50 3)) (bitsOf w 49 1 == 1) offa (BitVec.ofNat 19 (bitsOf w 1 19)))
  | 2 => do
    need (bitsOf w 0 8 == 0 && bitsOf w 49 4 == 0)
    let x ← opndOf tr
    some (.jidx aw x offa (BitVec.ofNat 12 (bitsOf w 8 12)))
  | 3 => do need (bitsOf w 0 20 == 0 && bitsOf w 39 14 == 0); some (.call aw offa)
  | 4 => do need (bitsOf w 0 53 == 0); some (.ret aw)
  | 5 => do need (bitsOf w 0 53 == 0); some (.exit aw)
  | 6 => do
    need (bitsOf w 0 20 == 0 && bitsOf w 49 4 == 0)
    let x ← opndOf tr
    some (.loopn aw x offa)
  | _ => none

/-- The word of a trailer (R176). -/
def trailerWord (kind : Nat) (aw : BitVec 5) (tp ts tr offa offb : Nat) : Nat :=
  2 * (offb + 524288 * (offa + 524288 * (tr + 1024 * (ts + 2 * (tp + 8 * (aw.toNat + 32 * (kind + 16 * 3)))))))

/-- Checks an instruction that has been read (R189). -/
def checked (i : Option Instr) : Except DecodeError Instr :=
  match i with
  | none => .error .reservedCode
  | some j => if j.wellFormed then .ok j else .error .operands

/-- One word that stands without a prefix. -/
def decodeWord (w : Nat) : Except DecodeError Instr :=
  match bitsOf w 62 2 with
  | 0 => checked (decodeFull (fieldsOf w) none)
  | 1 => checked (do let u ← halfOf (bitsOf w 31 31); let l ← halfOf (bitsOf w 0 31); some (.pairedWord u l))
  | 2 => .error .misplacedPrefix
  | _ => checked (trailerOf w)

/-- A prefix and the word after it: one issue unit (R161, R174). -/
def decodeUnit (w0 w1 : Nat) : Except DecodeError Instr :=
  match prefixOf w0 with
  | none => .error .reservedCode
  | some p =>
    if bitsOf w1 62 2 = 0 then
      match decodeFull (fieldsOf w1) (some p) with
      | none => .error .misplacedPrefix
      | some i => if !takesPrefix i then .error .misplacedPrefix else checked (some i)
    else .error .misplacedPrefix

/-- Reads one instruction from the bytes of code and gives the rest (R161, R6). -/
def decode (bs : List Byte) : Except DecodeError (Instr × List Byte) :=
  if bs.length < 8 then .error .truncated
  else
    let w0 := ofBytes (bs.take 8)
    let rest := bs.drop 8
    if bitsOf w0 62 2 = 2 then
      if rest.length < 8 then .error .truncated
      else
        match decodeUnit w0 (ofBytes (rest.take 8)) with
        | .error e => .error e
        | .ok i => .ok (i, rest.drop 8)
    else
      match decodeWord w0 with
      | .error e => .error e
      | .ok i => .ok (i, rest)

/-- A service-core word: the two instructions of custom-0 (R418). -/
def decodeService (w : Nat) : Except DecodeError Instr :=
  if bitsOf w 0 7 = 0x0B then
    if bitsOf w 25 7 = 0 then
      let rd := Fin.ofNat 32 (bitsOf w 7 5)
      let rs1 := Fin.ofNat 32 (bitsOf w 15 5)
      let rs2 := Fin.ofNat 32 (bitsOf w 20 5)
      match bitsOf w 12 3 with
      | 0 => .ok (.vspawn rd rs1 rs2)
      | 1 => .ok (.vjoin rd rs1 rs2)
      | _ => .error .reservedCode
    else .error .reservedCode
  else .error .notServiceWord

/-- The instruction the decoder reads from a word as the opcode table numbers its bits: a service-core word of 32 bits,
a word of 64, or a prefix and a word of 128 with the prefix first. -/
def decodeTableWord (nbits w : Nat) : Option Instr :=
  if nbits = 32 then (decodeService w).toOption
  else (decode (toBytes 16 w)).toOption.map Prod.fst

/-- A full word from its fields (R162). -/
def full (major : Nat) (g : Guard) (la dst sa sb low : Nat) : Nat :=
  wordOf ⟨0, major, la, g.pred.val, (if g.neg then 1 else 0), dst, sa, sb, low⟩

/-- A bit as a number. -/
def bit (b : Bool) : Nat := if b then 1 else 0

/-- The full word of an instruction, without its prefix; the encoding tables of R178 to R188. -/
def fullWord : Instr → Option Nat
  | .add g ty d a b => some (full 0x00 g 0 (specOf d) (specOf a) (specOf b) (4096 * tyCode ty))
  | .sub g ty d a b => some (full 0x02 g 0 (specOf d) (specOf a) (specOf b) (4096 * tyCode ty))
  | .mul g ty d a b => some (full 0x04 g 0 (specOf d) (specOf a) (specOf b) (4096 * tyCode ty))
  | .mulh g ty d a b => some (full 0x05 g 0 (specOf d) (specOf a) (specOf b) (4096 * tyCode ty))
  | .min g ty d a b => some (full 0x09 g 0 (specOf d) (specOf a) (specOf b) (4096 * tyCode ty))
  | .max g ty d a b => some (full 0x0A g 0 (specOf d) (specOf a) (specOf b) (4096 * tyCode ty))
  | .and g ty d a b => some (full 0x0D g 0 (specOf d) (specOf a) (specOf b) (4096 * tyCode ty))
  | .or g ty d a b => some (full 0x0E g 0 (specOf d) (specOf a) (specOf b) (4096 * tyCode ty))
  | .xor g ty d a b => some (full 0x0F g 0 (specOf d) (specOf a) (specOf b) (4096 * tyCode ty))
  | .andn g ty d a b => some (full 0x10 g 0 (specOf d) (specOf a) (specOf b) (4096 * tyCode ty))
  | .shl g ty d a b => some (full 0x11 g 0 (specOf d) (specOf a) (specOf b) (4096 * tyCode ty))
  | .shr g ty d a b => some (full 0x12 g 0 (specOf d) (specOf a) (specOf b) (4096 * tyCode ty))
  | .sar g ty d a b => some (full 0x13 g 0 (specOf d) (specOf a) (specOf b) (4096 * tyCode ty))
  | .rotl g ty d a b => some (full 0x14 g 0 (specOf d) (specOf a) (specOf b) (4096 * tyCode ty))
  | .addc g ty d a b pc => some (full 0x01 g 0 (specOf d) (specOf a) (specOf b) (4096 * tyCode ty + pc.val))
  | .subb g ty d a b pc => some (full 0x03 g 0 (specOf d) (specOf a) (specOf b) (4096 * tyCode ty + pc.val))
  | .mad g ty d a b c => some (full 0x06 g 0 (specOf d) (specOf a) (specOf b) (4096 * tyCode ty + specOf c))
  | .div g la ty trap d a b => some (full 0x07 g la.val (specOf d) (specOf a) (specOf b) (4096 * tyCode ty + 128 * bit trap))
  | .rem g la ty trap d a b => some (full 0x08 g la.val (specOf d) (specOf a) (specOf b) (4096 * tyCode ty + 128 * bit trap))
  | .abs g ty d a => some (full 0x0B g 0 (specOf d) (specOf a) 0 (4096 * tyCode ty))
  | .neg g ty d a => some (full 0x0C g 0 (specOf d) (specOf a) 0 (4096 * tyCode ty))
  | .mov g ty d a => some (full 0x1B g 0 (specOf d) (specOf a) 0 (4096 * tyCode ty))
  | .popc g ty d a => some (full 0x15 g 0 (specOf d) (specOf a) 0 (4096 * tyCode ty + 0))
  | .clz g ty d a => some (full 0x15 g 0 (specOf d) (specOf a) 0 (4096 * tyCode ty + 256))
  | .ctz g ty d a => some (full 0x15 g 0 (specOf d) (specOf a) 0 (4096 * tyCode ty + 512))
  | .brev g ty d a => some (full 0x15 g 0 (specOf d) (specOf a) 0 (4096 * tyCode ty + 768))
  | .bfx g ty pos len d a => some (full 0x16 g 0 (specOf d) (specOf a) 0 (4096 * tyCode ty + 64 * pos.val + len.val))
  | .bfi g ty pos len d a b => some (full 0x17 g 0 (specOf d) (specOf a) (specOf b) (4096 * tyCode ty + 64 * pos.val + len.val))
  | .sel g ty d a b pc => some (full 0x18 g 0 (specOf d) (specOf a) (specOf b) (4096 * tyCode ty + pc.val))
  | .cmp g ty cond d a b => some (full 0x19 g 0 (704 + d.val) (specOf a) (specOf b) (4096 * tyCode ty + 256 * condCode cond))
  | .pand g d a b => some (full 0x1A g 0 (704 + d.val) (704 + a.val) (704 + b.val) 0)
  | .por g d a b => some (full 0x1A g 0 (704 + d.val) (704 + a.val) (704 + b.val) 256)
  | .pxor g d a b => some (full 0x1A g 0 (704 + d.val) (704 + a.val) (704 + b.val) 512)
  | .pnot g d a => some (full 0x1A g 0 (704 + d.val) (704 + a.val) 0 768)
  | .movi g d imm => some (full 0x1C g 0 (specOf d) 0 (imm.toNat / 65536) (imm.toNat % 65536))
  | .movh g d imm pos => some (full 0x1D g 0 (specOf d) 0 pos.val imm.toNat)
  | .lea g ty d a b sh => some (full 0x1E g 0 (specOf d) (specOf a) (specOf b) (4096 * tyCode ty + 256 * sh.val))
  | .cvti g dt st sat d a => some (full 0x1F g 0 (specOf d) (specOf a) 0 (4096 * tyCode dt + 256 * tyCode st + 16 * bit sat))
  | .fadd g ft rm ftz d a b => some (full 0x20 g 0 (specOf d) (specOf a) (specOf b) (4096 * ffmtCode ft + 1024 * rmCode rm + 512 * bit ftz))
  | .fsub g ft rm ftz d a b => some (full 0x21 g 0 (specOf d) (specOf a) (specOf b) (4096 * ffmtCode ft + 1024 * rmCode rm + 512 * bit ftz))
  | .fmul g ft rm ftz d a b => some (full 0x22 g 0 (specOf d) (specOf a) (specOf b) (4096 * ffmtCode ft + 1024 * rmCode rm + 512 * bit ftz))
  | .ffma g rm ftz d a b c => some (full 0x23 g 0 (specOf d) (specOf a) (specOf b) (16384 * rmCode rm + 8192 * bit ftz + specOf c))
  | .fmin g ft ftz d a b => some (full 0x24 g 0 (specOf d) (specOf a) (specOf b) (4096 * ffmtCode ft + 512 * bit ftz))
  | .fmax g ft ftz d a b => some (full 0x25 g 0 (specOf d) (specOf a) (specOf b) (4096 * ffmtCode ft + 512 * bit ftz))
  | .fcmp g ft cond ftz d a b => some (full 0x26 g 0 (704 + d.val) (specOf a) (specOf b) (4096 * ffmtCode ft + 512 * bit ftz + 16 * fcondCode cond))
  | .fclass g ft d a => some (full 0x27 g 0 (specOf d) (specOf a) 0 (4096 * ffmtCode ft))
  | .frcpa g la ftz d a => some (full 0x28 g la.val (specOf d) (specOf a) 0 (512 * bit ftz))
  | .frsqa g la ftz d a => some (full 0x29 g la.val (specOf d) (specOf a) 0 (512 * bit ftz))
  | .fsqrt g la ft rm ftz d a => some (full 0x2A g la.val (specOf d) (specOf a) 0 (4096 * ffmtCode ft + 1024 * rmCode rm + 512 * bit ftz))
  | .fdiv g la ft rm ftz d a b => some (full 0x2B g la.val (specOf d) (specOf a) (specOf b) (4096 * ffmtCode ft + 1024 * rmCode rm + 512 * bit ftz))
  | .fexp2 g la rm ftz d a => some (full 0x2C g la.val (specOf d) (specOf a) 0 (1024 * rmCode rm + 512 * bit ftz))
  | .flog2 g la rm ftz d a => some (full 0x2D g la.val (specOf d) (specOf a) 0 (1024 * rmCode rm + 512 * bit ftz))
  | .fsin g la rm ftz d a => some (full 0x2E g la.val (specOf d) (specOf a) 0 (1024 * rmCode rm + 512 * bit ftz))
  | .fcos g la rm ftz d a => some (full 0x2F g la.val (specOf d) (specOf a) 0 (1024 * rmCode rm + 512 * bit ftz))
  | .ftanh g la rm ftz d a => some (full 0x30 g la.val (specOf d) (specOf a) 0 (1024 * rmCode rm + 512 * bit ftz))
  | .cvtf g dt st rm ftz nan d a b => some (full 0x31 g 0 (specOf d) (specOf a) (match b with | none => 0 | some o => specOf o)
    (4096 * ffmtCode dt + 256 * ffmtCode st + 64 * rmCode rm + 32 * bit ftz + 16 * bit nan))
  | .cvtfi g ty ft rm ftz d a => some (full 0x32 g 0 (specOf d) (specOf a) 0
    (4096 * tyCode ty + 256 * ffmtCode ft + 64 * rmCode rm + 32 * bit ftz))
  | .cvtif g ft ty rm d a => some (full 0x33 g 0 (specOf d) (specOf a) 0 (4096 * ffmtCode ft + 256 * tyCode ty + 64 * rmCode rm))
  | .frnd g ft rm ftz d a => some (full 0x34 g 0 (specOf d) (specOf a) 0 (4096 * ffmtCode ft + 1024 * rmCode rm + 512 * bit ftz))
  | .hfma2 g half rm ftz d a b c => some (full 0x35 g 0 (specOf d) (specOf a) (specOf b)
    (16384 * rmCode rm + 8192 * bit ftz + 4096 * bit half + specOf c))
  | .dot4 g fa fb rm d a b c => some (full 0x40 g 0 (specOf d) (specOf a) (specOf b)
    (16384 * rmCode rm + 4096 * fa.val + 1024 * fb.val + specOf c))
  | .dot8 g fa fb rm d a b c => some (full 0x41 g 0 (specOf d) (specOf a) (specOf b)
    (16384 * rmCode rm + 4096 * fa.val + 1024 * fb.val + specOf c))
  | .qnt g ef rm nan tab d a b => some (full 0x42 g 0 (specOf d) (specOf a) (specOf b)
    (4096 * efmtCode ef + 1024 * rmCode rm + 512 * bit nan + 128 * tab.val))
  | .dqnt g ef tab d a b => some (full 0x43 g 0 (specOf d) (specOf a) (specOf b) (4096 * efmtCode ef + 128 * tab.val))
  | .bscl g ef d a => some (full 0x44 g 0 (specOf d) (specOf a) 0 (4096 * efmtCode ef))
  | .pkb g esz pos d a => some (full 0x45 g 0 (specOf d) (specOf a) 0 (4096 * esz.val + 256 * pos.val))
  | .upkb g esz pos d a => some (full 0x46 g 0 (specOf d) (specOf a) 0 (4096 * esz.val + 256 * pos.val))
  | .blkld g la _ d a => some (full 0x47 g la.val (specOf d) (specOf a) 0 0)
  | .blkst g _ a b => some (full 0x48 g 0 0 (specOf a) (specOf b) 0)
  | .mxld g la _ ef rm d a b => some (full 0x49 g la.val (specOf d) (specOf a) (specOf b) (4096 * efmtCode ef + 1024 * rmCode rm))
  | .mxst g _ ef rm nan x a b => some (full 0x4A g 0 (specOf x) (specOf a) (specOf b) (4096 * efmtCode ef + 1024 * rmCode rm + 512 * bit nan))
  | .ctab g _ tab a => some (full 0x4B g 0 0 (specOf a) 0 (128 * tab.val))
  | .shfl g mode ty sub d a b => some (full 0x50 g 0 (specOf d) (specOf a) (specOf b) (4096 * tyCode ty + 256 * shflCode mode + 8 * subwCode sub))
  | .vote g mode sub d a => some (full 0x51 g 0 (specOf d) (704 + a.val) 0 (256 * voteCode mode + 8 * subwCode sub))
  | .lred g op sub d a => some (full 0x52 g 0 (specOf d) (specOf a) 0 (redLow op + 8 * subwCode sub))
  | .lscan g op sub d a => some (full 0x53 g 0 (specOf d) (specOf a) 0 (redLow op + 8 * subwCode sub))
  | .matchL g all ty sub d a => some (full 0x54 g 0 (specOf d) (specOf a) 0 (4096 * tyCode ty + 256 * bit all + 8 * subwCode sub))
  | .ld g la _ sz off d a => some (full 0x58 g la.val (specOf d) (specOf a) 0 (8192 * szCode sz + off.toNat))
  | .st g _ sz off a b => some (full 0x59 g 0 0 (specOf a) (specOf b) (8192 * szCode sz + off.toNat))
  | .lds g la _ sz form d a => some (full 0x5A g la.val (specOf d) (specOf a) 0 (8192 * szCode sz + mformLow form))
  | .ldb g la _ sz form d a => some (full 0x5C g la.val (specOf d) (specOf a) 0 (8192 * szCode sz + mformLow form))
  | .sts g _ sz form a b => some (full 0x5B g 0 0 (specOf a) (specOf b) (8192 * szCode sz + mformLow form))
  | .stb g _ sz form a b => some (full 0x5D g 0 0 (specOf a) (specOf b) (8192 * szCode sz + mformLow form))
  | .ldq g _ sz off q a => some (full 0x5E g 0 (628 + q.val) (specOf a) 0 (8192 * szCode sz + off.toNat))
  | .stq g _ sz off a q => some (full 0x5F g 0 0 (specOf a) (628 + q.val) (8192 * szCode sz + off.toNat))
  | .pref g _ off a => some (full 0x60 g 0 0 (specOf a) 0 off.toNat)
  | .atom g la _ op ty d a b => some (full 0x61 g la.val (match d with | none => 0 | some o => specOf o) (specOf a) (specOf b)
    (4096 * tyCode ty + 256 * atomOpCode op + 128 * bit d.isNone))
  | .cas g la _ ty d a b c => some (full 0x62 g la.val (specOf d) (specOf a) (specOf b) (4096 * tyCode ty + specOf c))
  | .cas128 g la _ d a b c => some (full 0x63 g la.val (specOf d) (specOf a) (specOf b) (specOf c))
  | .ld128a g la _ off d a => some (full 0x64 g la.val (specOf d) (specOf a) 0 (8192 * 6 + off.toNat))
  | .st128a g _ off a b => some (full 0x65 g 0 0 (specOf a) (specOf b) (8192 * 6 + off.toNat))
  | .fence g _ => some (full 0x66 g 0 0 0 0 0)
  | .invr g _ a b => some (full 0x67 g 0 0 (specOf a) (specOf b) 0)
  | .wbr g _ a b => some (full 0x68 g 0 0 (specOf a) (specOf b) 0)
  | .regw g _ a b => some (full 0x69 g 0 0 (specOf a) (specOf b) 0)
  | .icinv g _ a b => some (full 0x6A g 0 0 (specOf a) (specOf b) 0)
  | .gnew g d a => some (full 0x80 g 0 (specOf d) (specOf a) 0 0)
  | .join g a => some (full 0x81 g 0 0 (specOf a) 0 0)
  | .gang g a => some (full 0x86 g 0 0 (specOf a) 0 0)
  | .nap g a => some (full 0x8A g 0 0 (specOf a) 0 0)
  | .shrink g a => some (full 0x8C g 0 0 (specOf a) 0 0)
  | .leave g => some (full 0x82 g 0 0 0 0 0)
  | .yield g => some (full 0x89 g 0 0 0 0 0)
  | .isync g => some (full 0xD2 g 0 0 0 0 0)
  | .nop g => some (full 0xD3 g 0 0 0 0 0)
  | .snap g => some (full 0xD4 g 0 0 0 0 0)
  | .bar g b => some (full 0x83 g 0 0 0 0 b.val)
  | .bara g b => some (full 0x84 g 0 0 0 0 b.val)
  | .barw g b => some (full 0x85 g 0 0 0 0 b.val)
  | .waitw g _ ty d a b c => some (full 0x87 g 0 (704 + d.val) (specOf a) (specOf b) (4096 * tyCode ty + specOf c))
  | .pollb g _ ty cond d a b => some (full 0x88 g 0 (704 + d.val) (specOf a) (specOf b) (4096 * tyCode ty + 256 * condCode cond))
  | .grow g d a b => some (full 0x8B g 0 (704 + d.val) (specOf a) (specOf b) 0)
  | .spawn g d a v8 offer inv => some (full 0x90 g 0 (704 + d.val) (specOf a) (8 * v8.val) (offer.val + 8 * bit inv))
  | .enq g d a s4 => some (full 0x91 g 0 (704 + d.val) (specOf a) (640 + 4 * s4.val) 0)
  | .deq g la s4 a pr => some (full 0x92 g la.val (640 + 4 * s4.val) (specOf a) 0 pr.val)
  | .qinfo g la field d a => some (full 0x93 g la.val (specOf d) (specOf a) 0 (4096 * qfieldCode field))
  | .xq g s4 => some (full 0xA0 g 0 0 (640 + 4 * s4.val) 0 0)
  | .lq g s4 => some (full 0xA1 g 0 0 (640 + 4 * s4.val) 0 0)
  | .tset g t a => some (full 0xA2 g 0 0 (specOf a) 0 t.val)
  | .tstate g t d => some (full 0xA3 g 0 (specOf d) 0 0 t.val)
  | .cupqry g t d => some (full 0xA9 g 0 (specOf d) 0 0 t.val)
  | .twait g t => some (full 0xA4 g 0 0 0 0 t.val)
  | .tdrain g t => some (full 0xA5 g 0 0 0 0 t.val)
  | .tfree g t => some (full 0xA6 g 0 0 0 0 t.val)
  | .cupwt g t => some (full 0xA8 g 0 0 0 0 t.val)
  | .cupset g add t a => some (full 0xA7 g 0 0 (specOf a) 0 (4096 * bit add + t.val))
  | .chki g t a b => some (full 0xAA g 0 0 (specOf a) (specOf b) t.val)
  | .kguard g k a => some (full 0xB0 g 0 0 (specOf a) 0 (4096 * k.val))
  | .kclr g k => some (full 0xB1 g 0 0 0 0 (4096 * k.val))
  | .kmul g la k ta tb a => some (full 0xB2 g la.val 0 (specOf a) 0 (4096 * k.val + 64 * ta.val + tb.val))
  | .kmma g la k ta tb a => some (full 0xB3 g la.val 0 (specOf a) 0 (4096 * k.val + 64 * ta.val + tb.val))
  | .kext g la k d a => some (full 0xB4 g la.val (specOf d) (specOf a) 0 (4096 * k.val))
  | .kextf g la k rm add d a b => some (full 0xB5 g la.val (specOf d) (specOf a) (specOf b) (4096 * k.val + 1024 * rmCode rm + 512 * bit add))
  | .ksto g la k ta a => some (full 0xB6 g la.val 0 (specOf a) 0 (4096 * k.val + 64 * ta.val))
  | .kpack g la k ta a b => some (full 0xB7 g la.val 0 (specOf a) (specOf b) (4096 * k.val + 64 * ta.val))
  | .kstat g la k d => some (full 0xB8 g la.val (specOf d) 0 0 (4096 * k.val))
  | .sget g la sz off d n => some (full 0xC0 g la.val (specOf d) (640 + n.val) 0 (8192 * szCode sz + off.toNat))
  | .sput g sz off n b => some (full 0xC1 g 0 0 (640 + n.val) (specOf b) (8192 * szCode sz + off.toNat))
  | .presume g n => some (full 0xC2 g 0 0 (640 + n.val) 0 0)
  | .pretry g n => some (full 0xC3 g 0 0 (640 + n.val) 0 0)
  | .pkill g n => some (full 0xC5 g 0 0 (640 + n.val) 0 0)
  | .predir g n b c => some (full 0xC4 g 0 0 (640 + n.val) (specOf b) (specOf c))
  | .fraise g prio a => some (full 0xC6 g 0 0 (specOf a) 0 prio.val)
  | .trap g service a => some (full 0xC7 g 0 0 (specOf a) 0 service.val)
  | .ckpt g n => some (full 0xC8 g 0 0 0 0 n.toNat)
  | .resid g a => some (full 0xC9 g 0 0 (specOf a) 0 0)
  | .brk g tag => some (full 0xCA g 0 0 0 0 tag.toNat)
  | .rds g r d => some (full 0xD0 g 0 (specOf d) 0 0 (712 + r.val))
  | .wrs g r a => some (full 0xD1 g 0 0 (specOf a) 0 (712 + r.val))
  | _ => none

/-- The prefix of a memory word, if it has one (R161). -/
def prefixIn : Instr → Option Prefix
  | .blkld _ _ pre _ _ | .blkst _ pre _ _ | .mxld _ _ pre _ _ _ _ _ | .mxst _ pre _ _ _ _ _ _ | .ctab _ pre _ _
  | .ld _ _ pre _ _ _ _ | .st _ pre _ _ _ _ | .lds _ _ pre _ _ _ _ | .sts _ pre _ _ _ _ | .ldb _ _ pre _ _ _ _
  | .stb _ pre _ _ _ _ | .ldq _ pre _ _ _ _ | .stq _ pre _ _ _ _ | .pref _ pre _ _ | .atom _ _ pre _ _ _ _ _
  | .cas _ _ pre _ _ _ _ _ | .cas128 _ _ pre _ _ _ _ | .ld128a _ _ pre _ _ _ | .st128a _ pre _ _ _
  | .invr _ pre _ _ | .wbr _ pre _ _ | .regw _ pre _ _ | .icinv _ pre _ _ | .waitw _ pre _ _ _ _ _
  | .pollb _ pre _ _ _ _ _ => pre
  | .fence _ p => some p
  | _ => none

/-- The instruction word of a compute-core instruction, without its prefix; none for a move of an agent. -/
def instrWord : Instr → Option Nat
  | .pairedWord u l => some (halfWord l + 2 ^ 31 * (halfWord u + 2 ^ 31))
  | .next aw => some (trailerWord 0 aw 0 0 0 0 0)
  | .brp aw p s offa offb => some (trailerWord 1 aw p.val (bit s) 0 offa.toNat offb.toNat)
  | .jidx aw x offa len => some (trailerWord 2 aw 0 0 (specOf x) offa.toNat (128 * len.toNat))
  | .call aw offa => some (trailerWord 3 aw 0 0 0 offa.toNat 0)
  | .ret aw => some (trailerWord 4 aw 0 0 0 0 0)
  | .exit aw => some (trailerWord 5 aw 0 0 0 0 0)
  | .loopn aw x offa => some (trailerWord 6 aw 0 0 (specOf x) offa.toNat 0)
  | i => fullWord i

/-- The word of a service-core instruction (R418). -/
def serviceWord : Instr → Option Nat
  | .vspawn rd rs1 rs2 => some (0x0B + 2 ^ 7 * rd.val + 2 ^ 15 * rs1.val + 2 ^ 20 * rs2.val)
  | .vjoin rd rs1 rs2 => some (0x0B + 2 ^ 7 * rd.val + 2 ^ 12 + 2 ^ 15 * rs1.val + 2 ^ 20 * rs2.val)
  | _ => none

/-- The bytes of an instruction as code holds them: its prefix first, each word in little-endian order (R6). A move of
an agent has none. -/
def encode (i : Instr) : List Byte :=
  match serviceWord i with
  | some w => toBytes 4 w
  | none =>
    match instrWord i with
    | none => []
    | some w =>
      (match prefixIn i with
       | none => []
       | some p => toBytes 8 (prefixWord p)) ++ toBytes 8 w

end Sys2Proof
end

