-- ==== Sys2Proof/Config.lean ====
section
/-! DEFINITION. What an implementation fixes and the free values: constants without a body, so that nothing can be
proved of them but that they are some value. -/

namespace Sys2Proof.Config

/-- A byte of scratchpad (space 1) or operand store (space 2) that nothing has written since its group formed, by the
group's formation number and the offset (R281). Free value, log 9. -/
opaque freeByte : Nat → Nat → Nat → Byte

/-- A free value of one step, by the counter that the step advances. Free value, log 4. -/
opaque freeWord : Nat → BitVec 64

/-- A free choice between two outcomes, by the counter: which registered words of a killed context are lost (R93). Free
value, log 4. -/
opaque freeBool : Nat → Bool

/-- The late-bound windows that the job of a context registers with the service OS when it is loaded, by ASID and a counter: first
page, pages, and the HBM page of the backing data. No command of the spec registers them (R366). Free value, log 107. -/
opaque jobWindows : Nat → Nat → List (Nat × Nat × Nat)

/-- The root complex of a PCIe-only attachment completes an AtomicOp: 0 FetchAdd, 1 Swap, 2 CAS, by its bytes. The device
keeps no record of it (R81, R369, R459). Free value, log 90. -/
opaque rootAtomic : Nat → Nat → Bool

/-- STATEH of the n-th record (R148, R387): the device's choice. Free value, log 10. -/
opaque stateHandle : Nat → BitVec 32

/-- A private byte of a group image in the save area (R406). Free value, log 11. -/
opaque saveByte : Nat → Byte

/-- SHA3-512, which the spec names and does not define (R428 to R433). Free value, log 12. -/
opaque sha3 : List Byte → BitVec 512

/-- ML-DSA-87 verification of key, message digest and signature (R428, R433). Free value, log 12. -/
opaque verify : List Byte → BitVec 512 → List Byte → Bool

/-- ML-DSA-87 signature of a digest: 0 by the identity key, 1 by the attestation key of an image digest. Free value,
log 12. -/
opaque sign : Nat → BitVec 512 → BitVec 512 → List Byte

/-- The public keys and certificate of the device: 0 identity, 1 attestation of an image digest, 2 the vendor's signature.
Free value, log 12. -/
opaque publicKey : Nat → BitVec 512 → List Byte

/-- The vendor key digest held in ROM (R429). Free value, log 12. -/
opaque vendorKey : BitVec 512

/-- The owner key digest that an accepted provisioning sets, by the request's bytes: the request's layout does not hold it
(R432, R433). Free value, log 12. -/
opaque ownerKey : List Byte → BitVec 512

end Sys2Proof.Config
end

