-- ==== Sys2Proof/Machine/State.lean ====
section
/-! DEFINITION. The state of the module: every piece of state the spec gives it, as plain data, and the state after
reset. The comment on a field cites the rule that names it. Numbers that software never sees as a word are `Nat`. -/

namespace Sys2Proof.Machine

/-- Why a step stops. No instruction and no event of the table ends here. -/
inductive Fault where
  /-- Raised by `step` alone, when a service core stands at a word of the RV64 base set other than `fence`: its instruction
  set beyond `vspawn` and `vjoin` is not an interface of the module (R412). Safe. -/
  | serviceFirmware
  deriving DecidableEq, Repr

/-- Why a step is refused. -/
inductive Refusal where
  /-- Raised by `exec` for an instruction that has no meaning yet. Safe. -/
  | notModelled (mnemonic : String)
  deriving DecidableEq, Repr

/-- Memory: address and byte pairs in one canonical form, addresses strictly rising, no byte equal to what an unlisted
address reads as. -/
abbrev Memory := List Host.Cell

/-- What an issue stage or an agenda entry selects: an issuing path of a wave, by core, `%wave` and lane mask, a set-aside
path whose word is tried to learn whether its interlock has cleared (R24), or a service core. -/
inductive Sel where
  | path (core wave : Nat) (mask : BitVec 64)
  | probe (core wave : Nat) (mask : BitVec 64)
  | service (n : Nat)
  deriving DecidableEq, Repr

/-- A fault met by a unit: its code (R156) and its ADDRESS qualifier (R148). -/
structure Flt where
  code : Nat
  addr : BitVec 64
  deriving DecidableEq, Repr

/-- A destination of a register write. `q` is a push onto a store queue (R164). -/
inductive Dest where
  | v (n : Nat) | c (n : Nat) | e (n : Nat) | q (n : Nat) | s (n : Nat) | p (n : Nat)
  deriving DecidableEq, Repr

/-- One register write of one lane; a 32-bit register takes the low bits, a predicate bit 0. -/
structure RegWrite where
  lane : Nat
  dst  : Dest
  val  : BitVec 64
  deriving DecidableEq, Repr

/-- Recorded form of an accumulator (R132). -/
inductive AForm where
  | none | outer | conv
  deriving DecidableEq, Repr

/-- Digits, exponents and flags of an accumulator (R132). `digits` lists the nonzero digits by rising index, and `raw`
is P of raw mode. -/
structure AccVal where
  g      : Nat
  form   : AForm
  digits : List (Nat × Int)
  er     : List (Option Int)
  ec     : List (Option Int)
  nr     : BitVec 64
  nc     : BitVec 64
  raw    : Int
  deriving DecidableEq, Repr

/-- A `KMUL` step issued to an accumulator and not yet performed (R318, R323). `again` says that a retry performs it, so
that it waits for its tiles to be ready (R304). -/
structure KStep where
  ticket : Nat
  desc   : BitVec 64
  word   : BitVec 64
  ta     : Nat
  tb     : Nat
  wave   : Nat
  mask   : BitVec 64
  pc     : BitVec 64
  again  : Bool
  deriving DecidableEq, Repr

/-- An accumulator with the steps pending on it, and the tickets of the steps issued to it, oldest first (R318). -/
structure Acc where
  val     : AccVal
  pend    : List KStep
  tickets : List Nat
  deriving DecidableEq, Repr

/-- An open lookahead window (R168, R169): the words still to issue in it, the results it holds back, and for a
product instruction the accumulators it names, with the step's ticket and the values from before it once performed. `born`
is the place of its word in the wave's issue order. -/
structure Window where
  left   : Nat
  born   : Nat
  writes : List RegWrite
  ticket : Option Nat
  accs   : List Nat
  olds   : List (Nat × AccVal)
  deriving DecidableEq, Repr

/-- The first outcome that a wait on a tile meets: ready, with the scope of its acquire (R69), or abandoned (R67). -/
inductive TileSeen where
  | ready (scope : Scope)
  | gone
  deriving DecidableEq, Repr

/-- What a path whose word waits at an interlock waits on: tiles, or accumulators that a sequence uses, of its group. `gone`
says that such a tile has been abandoned (R67), or such a sequence killed (R155), since. -/
structure Interlock where
  tiles : List Nat
  accs  : List Nat
  gone  : Bool
  deriving DecidableEq, Repr

/-- How a wait on memory stands: nothing has happened, a watched word was written, or a restore makes it compare again
(R42, R291). -/
inductive Wake where
  | quiet | written | restored
  deriving DecidableEq, Repr

/-- What a path waits for from its trailer on (R23, R42 to R44, R286 to R292, R306). `done` is a segment-final
instruction with nothing left to wait for. `reads` lists lane, address and compared value, `homes` the places of those
words, and `unit` the words of the issue unit; `seen` is the first outcome that a tile wait met, and `named` its lanes in which
the guard held (R458). A
time is a number of cycles until the trailer issues, and a value of `%clock` from then on. -/
inductive WaitFor where
  | done
  | waitw (d : Fin 8) (size : Nat) (pre : Prefix) (reads : List (Nat × BitVec 64 × BitVec 64)) (homes : List Nat)
      (unit : Nat) (until_ : Option Nat) (wake : Wake)
  | poll (until_ : Nat)
  | nap (until_ : Nat)
  | yield
  | barrier (b : Nat) (lanes : List (Nat × Nat))
  | tile (t : Nat) (cup : Bool) (named : BitVec 64) (seen : Option TileSeen)
  | grow (d : Fin 8) (count : Nat) (lanes : List Nat) (until_ : Option Nat) (order : Nat)
  | exit (cls : BitVec 5)
  deriving DecidableEq, Repr

/-- What a faulting lane's outstanding operation repeats on a retry (R263, R300, R323). -/
inductive DefKind where
  | load (sz : Sz) (dst : Opnd)
  | pair (dst : Opnd)
  | block (dst : Opnd)
  | ldq (sz : Sz) (q : Fin 12)
  | mx (ef : EFmt) (rm : RMode) (e s : BitVec 64) (dst : Opnd)
  | atom (op : AtomOp) (ty : Ty) (b : BitVec 64) (dst : Opnd)
  | cas (bytes : Nat) (cmp new : BitVec 128) (dst : Opnd)
  | cmp (p : Fin 8) (cond : Cond) (bytes : Nat) (b : BitVec 64)
  | enq (d : Fin 8) (entries : List (Nat × List Byte)) (act : List Nat) (each : Bool)
  | deq (s4 : Fin 16) (pr : Fin 8)
  | bit (p : Fin 8)
  | qinfo (field : QField) (dst : Opnd)
  | entry (pa : Nat) (data : List Byte)
  | kstep (group k : Nat) (step : KStep)
  | table (t : Fin 4)
  | nothing
  deriving DecidableEq, Repr

/-- One lane of an outstanding operation: whether it is a lane that faulted, its address, the operation and its
pending-result slot (R263), and the registers that its result no longer reaches, because a later long-latency word has
written them (R168) or they are scalars of another lane's result (R164). A lane that did not fault stands here only under an
all-or-nothing word (R11). -/
structure DefItem where
  lane : Nat
  bad  : Bool
  va   : BitVec 64
  kind : DefKind
  slot : List Byte
  newer : List Dest
  deriving DecidableEq, Repr

/-- A load, atomic, queue operation or product step that met a fault at its home (R263): the words of its lookahead
window still to issue, whether its report has arrived, whether it is the fault of the wave's record, whether `PRETRY` has
reissued it and it is still to be performed, and the place of its word in the wave's issue order. -/
structure Deferred where
  mask     : BitVec 64
  flt      : Flt
  pc       : BitVec 64
  items    : List DefItem
  left     : Nat
  reported : Bool
  raised   : Bool
  again    : Bool
  born     : Nat
  deriving DecidableEq, Repr

/-- An issuing, set-aside or waiting path (R25, R26): its program counter, lanes, words issued in the segment (R18),
a segment-final instruction issued (R23), open windows, cycles at an interlock (R24), and whether its segment began at
the target of a trailer (R18). `lock` says what the word waits on at its interlock, and `retry` that it may be tried again at
once. -/
structure Path where
  pc      : BitVec 64
  mask    : BitVec 64
  seg     : Nat
  fin     : Option WaitFor
  windows : List Window
  stall   : Nat
  target  : Bool
  lock    : Option Interlock := none
  retry   : Bool := false
  deriving DecidableEq, Repr

/-- A path that waits from its trailer, with what it waits for. -/
structure Waiting where
  path : Path
  what : WaitFor
  deriving DecidableEq, Repr

/-- Standing of a thread (R13, R20, R26). `drain` holds the classes that its path still drains and the path's lanes. A
thread that sets aside or waits runs, on a path that its wave keeps. -/
inductive ThState where
  | empty | run | drain (cls : BitVec 5) (mask : BitVec 64) | ended
  deriving DecidableEq, Repr

/-- A thread in its lane (R13, R17, R29, R56, R221, R38, R286). -/
structure Lane where
  st      : ThState
  tid     : BitVec 32
  group   : Option Nat
  pc      : BitVec 64
  target  : Bool
  stack   : List (BitVec 64)
  v       : List Word
  c       : List Word
  e       : List Word
  p       : List Bool
  lq      : List (List (Option Word))
  sq      : List (List Word)
  arrived : List (Option Nat)
  deriving DecidableEq, Repr

/-- A wave (R14 to R17, R24 to R28, R32, R36, R37, R43, R46 to R51, R341). `gangDead` says that the gang list was broken
by a member's change of group or end (R34, R285); `stopped`, that the wave makes no path choice (R408); `saved`, that the context-save
engine has taken the wave, whole or at a marker (R341); `issueNo` counts the words that the wave has issued, and `owes` says
that an ended wave is still to be counted at its task's join counter (R420). -/
structure Wave where
  core     : Nat
  id       : Nat
  slot     : Option Nat
  width    : Nat
  asid     : BitVec 16
  shadow   : Bool
  partner  : Option Nat
  guarded  : Bool
  tol      : Word
  launchPr : BitVec 3
  prio     : BitVec 3
  memdef   : BitVec 64
  step     : BitVec 64
  gang     : BitVec 64
  gangDead : Bool
  fails    : Nat
  savedPr  : BitVec 3
  s        : List (BitVec 64)
  lanes    : List Lane
  paths    : List Path
  aside    : List Path
  resume   : List Path
  waits    : List Waiting
  ages     : List (BitVec 64 × Nat)
  promoted : List (BitVec 64)
  deferred : List Deferred
  fetched  : List (BitVec 64 × BitVec 64)
  marker   : Option Nat
  ckCount  : Nat
  issueNo  : Nat
  parked   : Option (BitVec 64)
  stopped  : Bool
  evicted  : Bool
  depth    : Nat
  record   : Option (BitVec 64)
  task     : Option Nat
  gindex   : Nat
  turn     : Nat
  snapped  : Bool
  saved    : Option (Option Nat)
  owes     : Bool
  ended    : Bool
  deriving DecidableEq, Repr

/-- A barrier (R31): the phase in progress, the threads that were members at its start, those arrived in it, and
those arrived for the next one. A thread is named by wave and lane. -/
structure Barrier where
  phase   : Nat
  members : List (Nat × Nat)
  arrived : List (Nat × Nat)
  early   : List (Nat × Nat)
  deriving DecidableEq, Repr

/-- States of a tile-table entry (R65). -/
inductive TState where
  | empty | filling | ready | draining
  deriving DecidableEq, Repr

/-- A tile-table entry that a group owns: descriptor (R64), status word (R65) and the bytes reserved by segments
(R68), the widest scope of the commands credited to it (R69) and, while draining, how many commands the group had
submitted before the drain. A free entry is one that no group owns. -/
structure Tile where
  desc      : BitVec 64
  state     : TState
  abandoned : Bool
  parked    : Nat
  expect    : Nat
  arrived   : Nat
  reserved  : Nat
  scope     : Nat
  drainOrd  : Nat
  deriving DecidableEq, Repr

/-- Standing of one segment of an engine command (R75, R79). -/
inductive SegState where
  | pending | running | parked (h : BitVec 64) | done | killed
  deriving DecidableEq, Repr

/-- A segment or bag that has begun: bytes delivered, patched addresses and spaces (R151), reservation held (R68), whether its
source is known, which for a bag its first offset says (R151), and bytes written whose credit waits for their release
(R69). -/
structure Seg where
  no       : Nat
  state    : SegState
  doneB    : Nat
  src      : BitVec 64
  dst      : BitVec 64
  ssp      : Nat
  dsp      : Nat
  len      : Nat
  reserved : Bool
  known    : Bool
  sent     : Nat
  deriving DecidableEq, Repr

/-- A byte range of a footprint (R72): write flag, space code, first byte and length. -/
structure Range where
  write : Bool
  space : Nat
  lo    : Int
  len   : Nat
  deriving DecidableEq, Repr

/-- An accepted engine command (R70, R72, R80, R310 to R315). `wave` submitted it; `block` is the extension or parameter block as read. -/
structure Cmd where
  ladle    : Bool
  idx      : Nat
  order    : Nat
  wave     : Nat
  words    : List (BitVec 64)
  block    : List (BitVec 64)
  total    : Nat
  segs     : List Seg
  ranges   : List Range
  retried  : Bool
  killed   : Bool
  complete : Bool
  lastFlt  : Nat
  credited : Nat
  deriving DecidableEq, Repr

/-- A product sequence of a gang (R33, R160, R324), with the standing of its record. `masks` lists the wave and lanes of
the paths that issued it (R20), and `again` says that it resumed and waits for its tiles to be ready (R304). -/
structure KSeq where
  gang   : List Nat
  gangl  : BitVec 64
  word   : BitVec 64
  pc     : BitVec 64
  desc   : BitVec 64
  acc    : Nat
  ta     : Nat
  tb     : Nat
  ticket : Nat
  mask   : BitVec 32
  active : Bool
  parked : Option (BitVec 64)
  last   : Nat
  masks  : List (Nat × BitVec 64)
  again  : Bool
  deriving DecidableEq, Repr

/-- An entry of the rendezvous latch (R33). `out` holds what the latch decided: a fault's code and address, or code 0
and the ticket of the sequence it started. -/
structure LatchEnt where
  wave : Nat
  mask : BitVec 64
  word : BitVec 64
  desc : BitVec 64
  gang : BitVec 64
  pc   : BitVec 64
  out  : Option (Nat × BitVec 64 × Nat)
  deriving DecidableEq, Repr

/-- Allotments of a group (R281, R379). -/
structure GDesc where
  spad   : Nat
  ostore : Nat
  bars   : Nat
  tiles  : Nat
  acc    : Nat
  cring  : Nat
  lring  : Nat
  deriving DecidableEq, Repr

/-- A group (R29 to R31, R58, R62, R65, R70, R113, R132, R158, R160, R342 to R344). -/
structure Group where
  core     : Nat
  id       : Nat
  asid     : BitVec 16
  task     : Option Nat
  gindex   : Nat
  alloc    : GDesc
  gen      : Nat
  spad     : Memory
  ostore   : Memory
  bars     : List Barrier
  tiles    : List (Nat × Tile)
  accs     : List Acc
  seqs     : List KSeq
  latch    : List LatchEnt
  cmds     : List Cmd
  copyNext : Nat
  ladlNext : Nat
  residM   : Word
  nanr     : Bool
  guarded  : Bool
  conflict : Bool
  overBud  : Bool
  killed   : Bool
  dissolve : Option (Nat × Nat)
  handler  : Bool
  depth    : Nat
  record   : Option (BitVec 64)
  snapIn   : Bool
  deriving DecidableEq, Repr

/-- The 2-bit state of a word at its home (R87). The owner's name stands in the region or line entry (R88). -/
inductive WState where
  | unreg | region | line | held
  deriving DecidableEq, Repr

/-- An entry of a region table: a 4 KiB region and one owner code (R88). -/
structure RegionEnt where
  region : Nat
  owner  : BitVec 9
  deriving DecidableEq, Repr

/-- An entry of a line table: a 64-byte line and an owner code for each of its words, 0x1FF for none (R88). -/
structure LineEnt where
  line   : Nat
  owners : List (BitVec 9)
  deriving DecidableEq, Repr

/-- An entry of a slice's remote-owner table: a core of another module than the home's (R88). -/
structure RemoteEnt where
  slice : Nat
  entry : Nat
  mod   : BitVec 14
  core  : BitVec 8
  deriving DecidableEq, Repr

/-- A word with a home state other than unregistered, or marked lost (R87, R93); `word` is the physical address over 8. -/
structure HWord where
  word : Nat
  st   : WState
  lost : Bool
  deriving DecidableEq, Repr

/-- A word in a core's L1 (R91): registered to the core, or an unregistered copy. -/
structure L1Word where
  core  : Nat
  asid  : BitVec 16
  word  : Nat
  reg   : Bool
  dirty : Bool
  data  : BitVec 64
  deriving DecidableEq, Repr

/-- A held word of a surrogate group (R113). -/
structure HeldWord where
  core  : Nat
  group : Nat
  word  : Nat
  data  : BitVec 64
  mask  : BitVec 8
  deriving DecidableEq, Repr

/-- A die's copy of a remote word (R102, R103). -/
structure DieCopy where
  die    : Nat
  word   : Nat
  data   : BitVec 64
  gen    : BitVec 16
  asleep : Bool
  deriving DecidableEq, Repr

/-- An update sent between dies: a completed write of a word homed on `src`, or, without data, a registration that drops
the copies of the word (R102). -/
structure Update where
  src   : Nat
  dst   : Nat
  word  : Nat
  data  : Option (BitVec 64)
  stamp : List Nat
  deriving DecidableEq, Repr

/-- What a die receives from another: a fill of a word, or the acknowledgement of a store of some lanes (R92, R102). -/
inductive ValueKind where
  | fill (word : Nat) (data : BitVec 64)
  | ack (core wave : Nat) (lanes : BitVec 64)
  deriving DecidableEq, Repr

/-- A value in flight between dies, with the knowledge of its sender (R102). -/
structure DieValue where
  src   : Nat
  dst   : Nat
  what  : ValueKind
  stamp : List Nat
  deriving DecidableEq, Repr

/-- What an access in flight does at its home: write its bytes, or an atomic of R268 with its operand. -/
inductive StoreOp where
  | write
  | atom (op : AtomOp) (ty : Ty) (b : BitVec 64)
  deriving DecidableEq, Repr

/-- A store, or an atomic without return, in flight to its home, with the tag-table data of R147. `lane` is the lowest of the
lanes whose store it is. `more` lists the further parts, each with its virtual and physical address, that its homes perform with it as one unit (R111, R249); `depth`
is that of a handler's wave (R157), and `stamp` the knowledge of the die that issued it (R102). -/
structure Store where
  tag    : Nat
  core   : Nat
  wave   : Nat
  lane   : Nat
  lanes  : BitVec 64
  tid    : BitVec 32
  group  : Option Nat
  asid   : BitVec 16
  pc     : BitVec 64
  va     : BitVec 64
  pa     : Nat
  data   : List Byte
  op     : StoreOp
  order  : Nat
  toHome : Bool
  depth  : Option Nat
  more   : List (BitVec 64 × Nat × List Byte)
  stamp  : List Nat
  guarded : Bool
  record : Option (BitVec 64)
  deriving DecidableEq, Repr

/-- A check-out held at a range table (R76): its virtual range inside one 4 KiB region, the physical address of its first
byte, and the copy command that made it, which says where its bytes lie in the group's storage (R77). -/
structure CheckOut where
  core  : Nat
  group : Nat
  asid  : BitVec 16
  lo    : Nat
  len   : Nat
  pa    : Nat
  excl  : Bool
  words : List (BitVec 64)
  block : List (BitVec 64)
  deriving DecidableEq, Repr

/-- A store to a replicated page that the sequencer has numbered (R106), with the thread that made it and the modules that
have applied it. -/
structure RepStore where
  core  : Nat
  wave  : Nat
  lane  : Nat
  group : Nat
  num   : Nat
  pa    : Nat
  data  : List Byte
  acked : List Nat
  deriving DecidableEq, Repr

/-- A fence that has issued and not completed, or with `pc` an ordering access of the path there that waits (R95, R101,
R272): its agent, its order and scope, its code bit (R359), and once the arbiter has placed it the write counts it waits
for. -/
structure Fence where
  core   : Nat
  wave   : Nat
  mask   : BitVec 64
  order  : Order
  scope  : Scope
  code   : Bool
  pc     : Option (BitVec 64)
  counts : Option (List Nat)
  deriving DecidableEq, Repr

/-- A cached translation (R399, R401): die, ASID, 4 KiB virtual page, entry as read and its level. -/
structure TlbEnt where
  die   : Nat
  asid  : BitVec 16
  page  : Nat
  entry : BitVec 64
  level : Nat
  deriving DecidableEq, Repr

/-- A page request of PRI outstanding (R401). -/
structure PageReq where
  asid : BitVec 16
  page : Nat
  sent : Bool
  deriving DecidableEq, Repr

/-- A cached answer of the host to an address translation request (R401): host page, and write permission. -/
structure AtsEnt where
  asid  : BitVec 16
  page  : Nat
  frame : Nat
  write : Bool
  deriving DecidableEq, Repr

/-- A page of a context: one whose page request the host has failed, met by the retried access (R401), or one whose
translation the host has revoked (R55, R402). -/
structure PrgFail where
  asid : BitVec 16
  page : Nat
  deriving DecidableEq, Repr

/-- A store outstanding to another module, or to the host, by its tag, with the time it was sent and whether it has been
sent again (R82, R389). -/
structure RemoteAcc where
  store  : Nat
  module : Option Nat
  asid   : BitVec 16
  sent   : Nat
  again  : Bool
  deriving DecidableEq, Repr

/-- An instruction word held by a core's L1 instruction cache (R358). -/
structure IWord where
  core : Nat
  asid : BitVec 16
  va   : BitVec 64
  pa   : Nat
  word : BitVec 64
  deriving DecidableEq, Repr

/-- Coherence state (R86 to R107, R113, R147, R399, R403). The tables `regions`, `lines` and `remotes` list the newest
entry first. `shared` lists the lines, by the die whose core holds them, that another die has read since they were filled
(R102); `ioKnown` is the knowledge of the I/O die. -/
structure Coh where
  words    : List HWord
  regions  : List RegionEnt
  lines    : List LineEnt
  remotes  : List RemoteEnt
  l1       : List L1Word
  held     : List HeldWord
  copies   : List DieCopy
  appliedV : List (List Nat)
  knownV   : List (List Nat)
  ioKnown  : List Nat
  shared   : List (Nat × Nat)
  updates  : List Update
  values   : List DieValue
  issued   : List Nat
  fences   : List Fence
  gen      : BitVec 16
  stores   : List Store
  nextTag  : Nat
  checks   : List CheckOut
  reps     : List RepStore
  repNext  : List (Nat × Nat)
  repOut   : List (Nat × Nat)
  hostLines : List (Nat × Bool)
  tlb      : List TlbEnt
  ats      : List AtsEnt
  reqs     : List PageReq
  prgFail  : List PrgFail
  revoked  : List PrgFail
  remote   : List RemoteAcc
  icache   : List IWord
  deriving DecidableEq, Repr

/-- Context states (R394). -/
inductive CState where
  | nonresident | resident | draining | saving | saved | killed
  deriving DecidableEq, Repr

/-- Snapshot states of an armed context (R441). -/
inductive SState where
  | idle | cutting | draining | committing
  deriving DecidableEq, Repr

/-- Snapshot status of a context (R441, R443, R444): `begun` says that a round of arrivals is in progress, `round` that it
is complete and its cut pending. -/
structure Snap where
  armed     : Bool
  armerr    : Nat
  sstate    : SState
  feedsafe  : Bool
  partnered : Bool
  lastgen   : Nat
  pgen      : Nat
  cuts      : Nat
  skipcad   : Nat
  skipbusy  : Nat
  aborts    : Nat
  tcut      : Nat
  cutSince  : Bool
  jobid     : BitVec 64
  cadence   : Nat
  regions   : List SRegion
  slot      : Nat
  begun     : Bool
  round     : Bool
  deriving DecidableEq, Repr

/-- A memory placement or allocation of the service OS (R365, R366, R422); `src` is the page of a MAP request. -/
structure Placement where
  va    : BitVec 64
  src   : BitVec 64
  bytes : Nat
  alloc : Bool
  deriving DecidableEq, Repr

/-- A late-bound window that the job of a context has registered with the service OS (R366): its first address and bytes, and
the HBM address of its backing data (log 107). -/
structure LateWindow where
  base    : BitVec 64
  bytes   : Nat
  backing : Nat
  deriving DecidableEq, Repr

/-- A context known to the device (R394, R405, R406, R441). `ctabs` are companding tables 1 to 3 (R126); `groups` and `waves` hold the image of a saved
context, and `drainT` is the end of its drain or save. -/
structure Ctx where
  idx      : Nat
  asid     : BitVec 16
  pasid    : BitVec 20
  ptroot   : BitVec 64
  faulttab : BitVec 64
  memdef   : BitVec 64
  savearea : BitVec 64
  savesize : Nat
  drainus  : Nat
  saveus   : Nat
  linkto   : Nat
  snapcfg  : BitVec 64
  cstate   : CState
  frozen   : Bool
  ctabs    : List (Option (List Byte))
  groups   : List Group
  waves    : List Wave
  killCause : Nat
  killList : List (Nat × Nat × Nat)
  snap     : Snap
  places   : List Placement
  windows  : List LateWindow
  drainT   : Nat
  restoring : Bool
  deriving DecidableEq, Repr

/-- What a parked record stands for (R146). -/
inductive PUnit where
  | wave (core wave : Nat)
  | seq (core group : Nat) (ticket : Nat)
  | seg (core group cmd seg : Nat)
  | store (tag : Nat)
  deriving DecidableEq, Repr

/-- A parked record in use (R148, R387); `back` says that `PRETRY` reissues the word before PCF (R306, R340). `pcs` holds the PCs of a
wave's lanes at the park, `newPcs` those that `SPUT` patched, `spare` the return addresses that patches left to lanes beyond their stacks, and `pcf` and
`pco` the record's as written (R334, R339). `lastTask` is the first task after the latest `PREDIR`, so that an earlier task's waves
are told apart (R338). -/
structure Parked where
  handle    : BitVec 64
  asid      : BitVec 16
  unit      : PUnit
  code      : Nat
  depth     : Nat
  back      : Bool
  lastTask  : Nat
  deadline  : Nat
  pcs       : List (Nat × BitVec 64)
  newPcs    : List (Nat × BitVec 64)
  spare     : List (Nat × List (BitVec 64))
  pcf       : BitVec 64
  pco       : BitVec 64
  deriving DecidableEq, Repr

/-- A fault task (R153, R158, R159): where its entry lies, or held in a stockpot, and whether it is taken. -/
structure FTask where
  id       : Nat
  handle   : BitVec 64
  asid     : BitVec 16
  queue    : BitVec 64
  launch   : BitVec 64
  code     : Nat
  prio     : Nat
  depth    : Nat
  budget   : Nat
  deadUs   : Nat
  deadAbs  : Nat
  slot     : Option Nat
  taken    : Bool
  die      : Nat
  deriving DecidableEq, Repr

/-- A registered task queue (R377, R378). `tail` is TAIL as dispatch has noticed it, and `seen` the changes that it noticed: the
tails before and after each, and its time. -/
structure QReg where
  n      : Nat
  hdr    : BitVec 64
  asid   : BitVec 16
  faultq : Bool
  watch  : Bool
  qstat  : Nat
  tail   : Nat
  seen   : List (Nat × Nat × Nat)
  deriving DecidableEq, Repr

/-- A task taken by dispatch (R380, R382, R383, R420). A task with `only` is the exact group of a guarded tile, whose task
is `parent` (R343). `lr` is the launch record as read, sixteen words, and `back` lists the groups whose bind records were
withdrawn. `used` counts the cycles of R158 against the budget. -/
structure Task where
  id       : Nat
  lrAddr   : BitVec 64
  lr       : List (BitVec 64)
  asid     : BitVec 16
  arg      : BitVec 64
  user0    : BitVec 64
  user1    : BitVec 64
  kind     : Nat
  depth    : Nat
  prio     : Nat
  deadline : Nat
  budget   : Nat
  used     : Nat
  groups   : Nat
  nextG    : Nat
  back     : List Nat
  live     : Nat
  doneG    : Nat
  started  : Bool
  ended    : Bool
  jctr     : BitVec 64
  only     : Option Nat
  ftask    : Option Nat
  parent   : Option Nat
  deriving DecidableEq, Repr

/-- A bind record of a core's slot table (R384). -/
structure BindRec where
  core     : Nat
  idx      : Nat
  kind     : Nat
  prio     : Nat
  depth    : Nat
  state    : Nat
  asid     : BitVec 16
  gindex   : Nat
  lr       : BitVec 64
  arg      : BitVec 64
  user0    : BitVec 64
  user1    : BitVec 64
  deadline : Nat
  budget   : Nat
  taskref  : Nat
  deriving DecidableEq, Repr

/-- Dispatch (R153, R158, R159, R377 to R385). `slots` lists the bind records with VALID 1. -/
structure Disp where
  queues : List QReg
  tasks  : List Task
  slots  : List BindRec
  rr     : List (Nat × Nat)
  ftasks : List FTask
  parked : List Parked
  nextId : Nat
  deriving DecidableEq, Repr

/-- A frozen 64 KiB frame (R445 to R448): the frozen contents, the reserve frame attached as second buffer, and the
regions and offsets that the frame holds. -/
structure Frozen where
  frame   : Nat
  asid    : BitVec 16
  content : Memory
  second  : Option Nat
  places  : List (Nat × Nat)
  deriving DecidableEq, Repr

/-- The machine that compute words and engines act on. `failing` lists the transfers that have failed at their home and
whose access has not met it yet: core, fault code and physical address (R456). `turns` lists, by engine, the core and group
that it served last (R71). ERRNEXT and ERRDROP of the survival block (R439, R454) are here,
beside the memory that the error ring lies in. -/
structure Mach where
  clock     : BitVec 64
  usec      : Nat
  usFrac    : Nat
  choices   : List Nat
  freeCount : Nat
  cur       : Option Sel
  latch     : List Sel
  mem       : Memory
  tags      : List Nat
  coh       : Coh
  ctxs      : List Ctx
  disp      : Disp
  groups    : List Group
  waves     : List Wave
  frozen    : List Frozen
  poisoned  : List Nat
  failing   : List (Nat × Nat × Nat)
  turns     : List (Nat × Nat × Nat)
  turnNo    : Nat
  errnext   : BitVec 32
  errdrop   : BitVec 16
  deriving DecidableEq, Repr

/-- The attach block (R371). `refused` says that the last attach failed, so that nothing but a new one is accepted (R373).
`cut` lists each port and module that the port's link does not reach (R389). -/
structure Attach where
  ifhost   : BitVec 64
  ifneg    : BitVec 64
  mode     : BitVec 2
  attached : Bool
  pollint  : BitVec 16
  qtbase   : BitVec 64
  rgbase   : BitVec 64
  modid    : BitVec 14
  porten   : BitVec 12
  linkup   : BitVec 12
  refused  : Bool
  cut      : List (Nat × Nat)
  deriving DecidableEq, Repr

/-- The control block (R392). `cold` says that the next start is a cold one, and `powered` that the module has power. -/
structure Control where
  ctxbase   : BitVec 64
  cmdasid   : BitVec 16
  cmdarg    : BitVec 64
  cmdlen    : BitVec 64
  cmdbusy   : Bool
  cmdres    : BitVec 8
  rstkind   : BitVec 3
  failcnt   : BitVec 2
  recovery  : Bool
  bootstage : BitVec 5
  cold      : Bool
  powered   : Bool
  deriving DecidableEq, Repr

/-- The management block (R423), and what the mailbox commands keep (R429, R432 to R434, R437): the running image, the image
store (none when a write of it was cut short), an image being written, the staging SRAM, and a life-cycle wipe begun. -/
structure Mgmt where
  mbbusy   : Bool
  mbres    : BitVec 7
  mbbuf    : BitVec 64
  lcstate  : BitVec 2
  fwsvn    : BitVec 16
  svnmin   : BitVec 16
  feedid   : BitVec 32
  pwrcap   : BitVec 12
  pwrnow   : BitVec 12
  clknow   : BitVec 12
  tempmax  : BitVec 8
  tlimit   : BitVec 8
  throt    : BitVec 3
  tripcnt  : BitVec 8
  vaddr    : BitVec 64
  vsrc     : BitVec 2
  vkind    : BitVec 2
  vcount   : BitVec 16
  lcseq    : BitVec 32
  ownerKey : BitVec 512
  hasSecret : Bool
  image    : List Byte
  store    : Option (List Byte)
  updating : Option (List Byte)
  staging  : Memory
  wiping   : Bool
  holdTrip : Bool
  phyOk    : Bool
  pendingReset : Option Nat
  deriving DecidableEq, Repr

/-- The survival block (R439), the snapshot store (R450), the retirement list (R457) and the pairing (R451). -/
structure Survival where
  svbusy  : Bool
  svres   : BitVec 3
  svasid  : BitVec 16
  srcmod  : BitVec 14
  holdmod : BitVec 14
  partner : BitVec 14
  pstate  : BitVec 2
  rsvpct  : BitVec 6
  rsvbase : BitVec 64
  errbase : BitVec 64
  errcap  : BitVec 5
  retired : List Nat
  pfeed   : BitVec 32
  own     : List (Option Generation)
  part    : List (Option Generation)
  sending : Option Generation
  deriving DecidableEq, Repr

/-- The host-visible device blocks. -/
structure Dev where
  att : Attach
  ctl : Control
  mgt : Mgmt
  srv : Survival
  deriving DecidableEq, Repr

/-- A service core (R412, R416, R417, R420): a register is 64 bits and the tag and capability metadata above it. `joining`
holds the registers of a `vjoin` that waits. -/
structure SvcCore where
  pc     : BitVec 64
  x      : List (BitVec 64)
  caps   : List (Option (BitVec 64))
  user   : Bool
  svasid : BitVec 64
  svjctr : BitVec 64
  exc    : Option (Nat × BitVec 64)
  joining : Option (Nat × Nat × Nat)
  deriving DecidableEq, Repr

/-- A registered service-request queue (R421). -/
structure SvcQueue where
  hdr     : BitVec 64
  asid    : BitVec 16
  ftab    : BitVec 64
  ftcount : Nat
  logring : BitVec 64
  logpos  : Nat
  deriving DecidableEq, Repr

/-- The module. -/
structure State where
  dev    : Dev
  mach   : Mach
  svc    : List SvcCore
  svcq   : List SvcQueue
  agenda : List Instr
  deriving DecidableEq, Repr

/-- No coherence state: caches, tables and TLBs empty, clocks zero (R103, R411). -/
def Coh.reset : Coh :=
  { words := [], regions := [], lines := [], remotes := [], l1 := [], held := [], copies := [],
    appliedV := [[0,0,0,0],[0,0,0,0],[0,0,0,0],[0,0,0,0]], knownV := [[0,0,0,0],[0,0,0,0],[0,0,0,0],[0,0,0,0]],
    ioKnown := [0,0,0,0], shared := [],
    updates := [], values := [], issued := [0,0,0,0], fences := [], gen := 0, stores := [], nextTag := 0,
    checks := [], reps := [], repNext := [], repOut := [], hostLines := [], tlb := [], ats := [], reqs := [],
    prgFail := [], revoked := [], remote := [], icache := [] }

/-- No queue registered, no task, every slot table empty (R384). -/
def Disp.reset : Disp :=
  { queues := [], tasks := [], slots := [], rr := [], ftasks := [], parked := [], nextId := 1 }

/-- The machine after a wipe (R411). -/
def Mach.reset : Mach :=
  { clock := 0, usec := 0, usFrac := 0, choices := [], freeCount := 0, cur := none, latch := [], mem := [],
    tags := [], coh := Coh.reset, ctxs := [], disp := Disp.reset, groups := [], waves := [], frozen := [],
    poisoned := [], failing := [], turns := [], turnNo := 0, errnext := 0, errdrop := 0 }

/-- The attach block at reset (R371). -/
def Attach.reset : Attach :=
  { ifhost := 0, ifneg := 0, mode := 0, attached := false, pollint := 8, qtbase := 0, rgbase := 0, modid := 0,
    porten := 0xFFF, linkup := 0, refused := false, cut := [] }

/-- The control block after a power-on cold start that reached stage 7 (R392, R409, R410). -/
def Control.reset : Control :=
  { ctxbase := 0, cmdasid := 0, cmdarg := 0, cmdlen := 0, cmdbusy := false, cmdres := 0, rstkind := 0, failcnt := 0,
    recovery := false, bootstage := 7, cold := true, powered := true }

/-- The management block at reset (R423). The provisioned fields are a DESIGN CHOICE (log 6). -/
def Mgmt.reset : Mgmt :=
  { mbbusy := false, mbres := 0, mbbuf := 0, lcstate := 0, fwsvn := 0, svnmin := 0, feedid := 0, pwrcap := 2400,
    pwrnow := 0, clknow := 2400, tempmax := 0, tlimit := 95, throt := 0, tripcnt := 0, vaddr := 0, vsrc := 0,
    vkind := 0, vcount := 0, lcseq := 0, ownerKey := 0, hasSecret := true, image := [], store := some [],
    updating := none, staging := [], wiping := false, holdTrip := false, phyOk := true, pendingReset := none }

/-- The survival block at reset (R439), with an empty snapshot store and retirement list (log 6). -/
def Survival.reset : Survival :=
  { svbusy := false, svres := 0, svasid := 0, srcmod := 0, holdmod := 0, partner := 0, pstate := 0, rsvpct := 8,
    rsvbase := 0, errbase := 0, errcap := 0, retired := [], pfeed := 0,
    own := [none, none], part := [none, none], sending := none }

/-- The device blocks at reset. -/
def Dev.reset : Dev := { att := Attach.reset, ctl := Control.reset, mgt := Mgmt.reset, srv := Survival.reset }

/-- A service core at reset: every register at zero is a DESIGN CHOICE (log 8); `svasid` and `svjctr` by R417. -/
def SvcCore.reset : SvcCore :=
  { pc := 0, x := List.replicate 32 0, caps := List.replicate 32 none, user := false, svasid := 0, svjctr := 0,
    exc := none, joining := none }

/-- The module right after a power-on cold start (R409 to R411). -/
def State.reset : State :=
  { dev := Dev.reset, mach := Mach.reset, svc := List.replicate 16 SvcCore.reset, svcq := [], agenda := [] }

end Sys2Proof.Machine
end

