-- ==== Sys2Proof/Machine/Memory.lean ====
section
/-! DEFINITION. Memory: one canonical list of bytes for the physical spaces, and the bytes of a group's scratchpad and
operand store (R6, R52, R54, R58, R62, R411). -/

namespace Sys2Proof.Machine

/-- The canonical form: addresses strictly rising, no listed byte equal to what an unlisted address reads as. -/
def Memory.wf : Memory → Bool
  | [] => true
  | [(_, b)] => b != 0
  | (k, b) :: (l, c) :: r => b != 0 && decide (k < l) && Memory.wf ((l, c) :: r)

/-- One byte. An unlisted address reads zero: HBM by R411, host and peer memory by log 5. -/
def Memory.read : Memory → Nat → Byte
  | [], _ => 0
  | (k, b) :: r, a => if a = k then b else Memory.read r a

/-- Writes one byte, keeping the canonical form. -/
def Memory.write : Memory → Nat → Byte → Memory
  | [], a, b => if b = 0 then [] else [(a, b)]
  | (k, c) :: r, a, b =>
    if a < k then (if b = 0 then (k, c) :: r else (a, b) :: (k, c) :: r)
    else if a = k then (if b = 0 then r else (a, b) :: r)
    else (k, c) :: Memory.write r a b

/-- Bytes from an address on. -/
def Memory.readN (m : Memory) (a : Nat) : Nat → List Byte
  | 0 => []
  | n + 1 => m.read a :: m.readN (a + 1) n

/-- Writes bytes from an address on. -/
def Memory.writeN (m : Memory) (a : Nat) : List Byte → Memory
  | [] => m
  | b :: bs => Memory.writeN (m.write a b) (a + 1) bs

/-- The 8-byte word at word number `w`. -/
def Memory.word (m : Memory) (w : Nat) : BitVec 64 := BitVec.ofNat 64 (ofBytes (m.readN (8 * w) 8))

/-- Writes the 8-byte word at word number `w`. -/
def Memory.setWord (m : Memory) (w : Nat) (x : BitVec 64) : Memory := m.writeN (8 * w) (toBytes 8 x.toNat)

/-- The listed bytes of a range (for the contents of a frozen frame, R445). -/
def Memory.slice (m : Memory) (lo len : Nat) : Memory :=
  m.filter fun c => decide (lo ≤ c.1) && decide (c.1 < lo + len)

/-- Memory with a range cleared to what an unlisted address reads as. -/
def Memory.clear (m : Memory) (lo len : Nat) : Memory := m.filter fun c => !(decide (lo ≤ c.1) && decide (c.1 < lo + len))

/-- Memory with bytes written at `lo` and onward, by their offsets. -/
def Memory.put (m : Memory) (lo : Nat) (cells : List Host.Cell) : Memory := cells.foldl (fun m c => m.write (lo + c.1) c.2) m

/-- The listed bytes of a range, by their offsets. -/
def Memory.offsets (m : Memory) (lo len : Nat) : List Host.Cell := (m.slice lo len).map fun c => (c.1 - lo, c.2)

/-- Bytes of a group's scratchpad or operand store that something has written: addresses strictly rising. -/
def localWf : Memory → Bool
  | [] => true
  | [_] => true
  | (k, _) :: (l, c) :: r => decide (k < l) && localWf ((l, c) :: r)

/-- A listed byte of a group's storage. -/
def localFind : Memory → Nat → Option Byte
  | [], _ => none
  | (k, b) :: r, a => if a = k then some b else localFind r a

/-- One byte of a group's storage: written, or free (R281). -/
def localRead (gen space : Nat) (m : Memory) (a : Nat) : Byte :=
  match localFind m a with
  | some b => b
  | none => Config.freeByte gen space a

/-- Writes one byte of a group's storage. -/
def localWrite : Memory → Nat → Byte → Memory
  | [], a, b => [(a, b)]
  | (k, c) :: r, a, b =>
    if a < k then (a, b) :: (k, c) :: r
    else if a = k then (a, b) :: r
    else (k, c) :: localWrite r a b

/-- Bytes of a group's storage. -/
def localReadN (gen space : Nat) (m : Memory) (a : Nat) : Nat → List Byte
  | 0 => []
  | n + 1 => localRead gen space m a :: localReadN gen space m (a + 1) n

/-- Writes bytes of a group's storage. -/
def localWriteN (m : Memory) (a : Nat) : List Byte → Memory
  | [] => m
  | b :: bs => localWriteN (localWrite m a b) (a + 1) bs

/-- Bytes of HBM (R396, R397): 576 GiB. -/
def hbmBytes : Nat := 576 * 2 ^ 30

/-- The private region begins here (R435). -/
def privateBase : Nat := 0x8F00000000

/-- Physical address of a byte of host or CXL pooled memory. -/
def hostAddr (a : Nat) : Nat := 2 ^ 56 + a

/-- Physical address of a byte of another module's HBM. -/
def peerAddr (mod a : Nat) : Nat := 2 ^ 57 + mod * 2 ^ 50 + a

/-- An address in host or CXL pooled memory. -/
def isHost (pa : Nat) : Bool := decide (2 ^ 56 ≤ pa) && decide (pa < 2 ^ 57)

/-- An address in another module's HBM. -/
def isPeer (pa : Nat) : Bool := decide (2 ^ 57 ≤ pa)

/-- The module of a peer address. -/
def peerModule (pa : Nat) : Nat := (pa - 2 ^ 57) / 2 ^ 50

/-- The die that owns an HBM address (R398). -/
def dieOf (pa : Nat) : Nat := pa / 4096 % 4

/-- The slice of its die that homes an HBM address (R398). -/
def sliceOf (pa : Nat) : Nat := pa / 4096 / 4 % 64

/-- The stack of its die, numbered over the module as 3d + s (R398, R455). -/
def stackOf (pa : Nat) : Nat := 3 * dieOf pa + pa / 4096 / 256 % 3

/-- The die of a core (R4). -/
def coreDie (core : Nat) : Nat := core / 64

/-! Lists of records -/

/-- Changes every element that satisfies a test. -/
def updWhere {α : Type} (p : α → Bool) (f : α → α) (l : List α) : List α := l.map fun x => if p x then f x else x

/-- Sets an element of a list, if it is there. -/
def setAt {α : Type} (l : List α) (n : Nat) (x : α) : List α := l.set n x

/-- Changes an element of a list, if it is there. -/
def updAt {α : Type} (l : List α) (n : Nat) (f : α → α) : List α :=
  match l[n]? with
  | some x => l.set n (f x)
  | none => l

/-- Sum of a list. -/
def sumNat : List Nat → Nat
  | [] => 0
  | x :: xs => x + sumNat xs

/-- Least element, if there is one. -/
def minNat : List Nat → Option Nat
  | [] => none
  | x :: xs => match minNat xs with
    | none => some x
    | some y => some (min x y)

/-- Greatest element; 0 of an empty list. -/
def maxNat : List Nat → Nat
  | [] => 0
  | x :: xs => max x (maxNat xs)

/-- The numbers `lo .. lo + n - 1`. -/
def rangeFrom (lo n : Nat) : List Nat := (List.range n).map (lo + ·)

/-- The first free number from `a` on, among at most `fuel`. -/
def firstFree (used : List Nat) (a : Nat) : Nat → Option Nat
  | 0 => none
  | fuel + 1 => if used.contains a then firstFree used (a + 1) fuel else some a

/-- Element that a better-than test puts first; ties keep the earlier one. -/
def bestOf {α : Type} (better : α → α → Bool) : List α → Option α
  | [] => none
  | x :: xs => match bestOf better xs with
    | none => some x
    | some y => if better y x then some y else some x

end Sys2Proof.Machine
end

