-- ==== Sys2Proof/Machine/Coherence.lean ====
section
/-! DEFINITION. Coherence and translation: home states, registration, L1 words, updates between dies, address
translation, and loads, stores and atomics at their homes (R86 to R111, R113, R396 to R402). -/

namespace Sys2Proof.Machine

/-! Home states -/

/-- The home's record of a word. -/
def Coh.find (c : Coh) (w : Nat) : Option HWord := c.words.find? fun h => h.word == w

/-- The state that the home keeps of a word (R87). -/
def Coh.state (c : Coh) (w : Nat) : WState :=
  match c.find w with
  | some h => h.st
  | none => .unreg

/-- The word is marked lost (R93). -/
def Coh.lost (c : Coh) (w : Nat) : Bool :=
  match c.find w with
  | some h => h.lost
  | none => false

/-- Sets the state and the lost mark of a word. -/
def Coh.setHome (c : Coh) (w : Nat) (st : WState) (lost : Bool) : Coh :=
  let rest := c.words.filter fun h => h.word != w
  { c with words := if st == .unreg && !lost then rest else ⟨w, st, lost⟩ :: rest }

/-- The owner code that names no owner (R88). -/
def noOwner : BitVec 9 := 0x1FF

/-- Writes an owner into the field of a word in its line's entry (R89). -/
def LineEnt.put (e : LineEnt) (w : Nat) (o : BitVec 9) : LineEnt :=
  { e with owners := (List.range 8).map fun i => if i = w % 8 then o else e.owners.getD i noOwner }

/-- The home of a word, by number: the module's slices by R398, the host-line agent, and the slices of each other module
(R86). The host-line agent keeps tables as a slice does (log 84). -/
def homeSlice (w : Nat) : Nat :=
  let pa := 8 * w
  if isHost pa then 256
  else if isPeer pa then 257 + 256 * peerModule pa + (pa - peerAddr (peerModule pa) 0) / 4096 % 256
  else pa / 4096 % 256

/-- The region entry of a word (R88). -/
def Coh.regionOf (c : Coh) (w : Nat) : Option RegionEnt := c.regions.find? fun e => e.region == w / 512

/-- The line entry of a word (R88). -/
def Coh.lineOf (c : Coh) (w : Nat) : Option LineEnt := c.lines.find? fun e => e.line == w / 8

/-- The owner that the tables of a word's home name for it (R87, R88). -/
def Coh.owner (c : Coh) (w : Nat) : Option (BitVec 9) :=
  match c.state w with
  | .unreg => none
  | .region => (c.regionOf w).map RegionEnt.owner
  | .line | .held => match c.lineOf w with
    | some e => if e.owners.getD (w % 8) noOwner = noOwner then none else some (e.owners.getD (w % 8) noOwner)
    | none => none

/-- The core of this package that an owner code names at the home of a word: its own number at a home of this package,
and an entry of the remote-owner table at a slice of another module (R88). -/
def Coh.coreOf (c : Coh) (w : Nat) (o : BitVec 9) : Option Nat :=
  if isPeer (8 * w) then
    (c.remotes.find? fun e => e.slice == homeSlice w && e.entry + 256 == o.toNat).map fun e => e.core.toNat
  else if o.toNat < 256 then some o.toNat
  else none

/-- The core of this package that a word is registered to. -/
def Coh.ownerCore (c : Coh) (w : Nat) : Option Nat := (c.owner w).bind (c.coreOf w)

/-- The committed value of the word is at its home: it is unregistered, or held under a field that names no owner
(R87, R91). -/
def Coh.vacate (c : Coh) (w : Nat) (lost : Bool) : Coh :=
  if c.state w = .held then
    { (c.setHome w .held lost) with
      lines := updWhere (fun e => e.line == w / 8) (fun e => e.put w noOwner) c.lines }
  else c.setHome w .unreg lost

/-- A core's L1 entry for a word. -/
def Coh.l1Of (c : Coh) (core w : Nat) : Option L1Word := c.l1.find? fun x => x.core == core && x.word == w

/-- Puts a word into a core's L1, in place of what it held of it. -/
def Coh.setL1 (c : Coh) (x : L1Word) : Coh :=
  { c with l1 := x :: c.l1.filter fun y => !(y.core == x.core && y.word == x.word) }

/-- Drops a core's L1 entry for a word. -/
def Coh.dropL1 (c : Coh) (core w : Nat) : Coh :=
  { c with l1 := c.l1.filter fun y => !(y.core == core && y.word == w) }

/-- Invalidates every word of a core's L1 that is not registered to it (R96). -/
def Coh.sweep (c : Coh) (core : Nat) : Coh := { c with l1 := c.l1.filter fun y => y.core != core || y.reg }

/-- The held entry of a word, if a surrogate group holds it (R113). -/
def Coh.heldOf (c : Coh) (w : Nat) : Option HeldWord := c.held.find? fun h => h.word == w

/-- A held word returns to its committed state: line-owned by the owner that its field names, or unregistered (R113). -/
def Coh.unhold (c : Coh) (w : Nat) : Coh :=
  if c.state w = .held then c.setHome w (if (c.owner w).isSome then .line else .unreg) (c.lost w) else c

/-- The 2-bit code of the state that the home keeps of a word (R87). -/
def Coh.code (c : Coh) (w : Nat) : BitVec 2 :=
  match c.state w with
  | .unreg => 0
  | .region => 1
  | .line => 2
  | .held => 3

/-- The committed value of a word: with its owner, or at the home (R91). -/
def Mach.homeValue (m : Mach) (w : Nat) : BitVec 64 :=
  match m.coh.ownerCore w with
  | some k =>
    match m.coh.l1Of k w with
    | some x => x.data
    | none => m.mem.word w
  | none => m.mem.word w

/-! Updates between dies (R102, R103) -/

/-- Componentwise greater of two vectors of four counters. -/
def vecMax (a b : List Nat) : List Nat := (List.range 4).map fun j => max (a.getD j 0) (b.getD j 0)

/-- Each counter of a vector is at most that of another. -/
def vecLe (a b : List Nat) : Bool := (List.range 4).all fun j => decide (a.getD j 0 ≤ b.getD j 0)

/-- The die that homes a word of this module's HBM. -/
def wordDie (w : Nat) : Nat := dieOf (8 * w)

/-- The die through which a word's home is reached: a compute die, or 4 for the I/O die, at which host, pooled and peer
words enter the package (log 85). -/
def homeDie (w : Nat) : Nat := if isHost (8 * w) || isPeer (8 * w) then 4 else wordDie w

/-- The knowledge vector of a die (R102). -/
def Coh.known (c : Coh) (die : Nat) : List Nat := if die = 4 then c.ioKnown else c.knownV.getD die []

/-- The condition under which a die applies an update (R102). -/
def Coh.updateReady (c : Coh) (u : Update) : Bool :=
  let a := c.appliedV.getD u.dst []
  (List.range 4).all fun j =>
    if j = u.src then u.stamp.getD j 0 == a.getD j 0 + 1 else decide (u.stamp.getD j 0 ≤ a.getD j 0)

/-- Applies an update at its die: the die's copy of the word takes the value, or is dropped (R102). -/
def Coh.applyUpdate (c : Coh) (u : Update) : Coh :=
  let here := fun (k : DieCopy) => k.die == u.dst && k.word == u.word
  { c with
    copies := match u.data with
      | some x => updWhere here (fun k => { k with data := x }) c.copies
      | none => c.copies.filter fun k => !here k
    appliedV := updAt c.appliedV u.dst fun v => updAt v u.src fun _ => u.stamp.getD u.src 0
    knownV := updAt c.knownV u.dst fun v => vecMax v u.stamp
    updates := c.updates.erase u }

/-- Applies every update in flight to a die, in the order sent. -/
def Coh.deliver (c : Coh) (die : Nat) : Coh :=
  (c.updates.filter fun u => u.dst == die).foldl Coh.applyUpdate c

/-- Applies, in the order sent, the updates in flight to a die that a knowledge vector counts (R102). -/
def Coh.deliverTo (c : Coh) (die : Nat) (v : List Nat) : Coh :=
  (c.updates.filter fun u => u.dst == die && decide (u.stamp.getD u.src 0 ≤ v.getD u.src 0)).foldl Coh.applyUpdate c

/-- A die receives what another sent with a stamp: it first applies the writes that the stamp counts, and then knows what
the sender knew (R102). -/
def Coh.absorb (c : Coh) (die : Nat) (stamp : List Nat) : Coh :=
  if die = 4 then { c with ioKnown := vecMax c.ioKnown stamp }
  else
    let c := c.deliverTo die stamp
    { c with knownV := updAt c.knownV die fun v => vecMax v stamp }

/-- The clock rebase (R103): every update in flight is applied, every counter and stamp returns to zero under the next
generation, and a wrap of the generation drops the sleeping copies. -/
def Mach.rebase (m : Mach) : Mach :=
  let c := (List.range 4).foldl (fun (c : Coh) die => c.deliver die) m.coh
  let zero := List.replicate 4 0
  { m with coh := { c with
      appliedV := List.replicate 4 zero, knownV := List.replicate 4 zero, ioKnown := zero, issued := zero
      gen := c.gen + 1
      values := c.values.map fun x => { x with stamp := zero }
      stores := c.stores.map fun x => { x with stamp := zero }
      fences := c.fences.map fun f => { f with counts := f.counts.map fun _ => zero }
      copies := if c.gen = 0xFFFF then c.copies.filter fun k => !k.asleep else c.copies } }

/-- The count that no counter of K reaches: a rebase comes before it (R103). -/
def rebaseLimit : Nat := 2 ^ 32 - 2 ^ 20

/-- A die sends an update to the other three (R102), after a rebase where its counter would reach the limit (R103). The
sender counts its own write as applied (log 86). -/
def Mach.sendUpdate (m : Mach) (d w : Nat) (x : Option (BitVec 64)) : Mach :=
  if 4 ≤ d then m
  else
    let m := if rebaseLimit ≤ (m.coh.known d).getD d 0 + 1 then m.rebase else m
    let kn := updAt m.coh.knownV d fun v => updAt v d (· + 1)
    let stamp := kn.getD d []
    let us := ((List.range 4).filter (· != d)).map fun y => (⟨d, y, w, x, stamp⟩ : Update)
    { m with coh := { m.coh with
        knownV := kn, appliedV := updAt m.coh.appliedV d fun v => updAt v d (· + 1),
        updates := m.coh.updates ++ us, issued := updAt m.coh.issued d (· + 1) } }

/-! Registration and revocation (R88 to R92) -/

/-- Writes a registered word back to its home and leaves it to the home alone (R91, R92): the data brings what its owner's
die knows (R102). `keep` leaves the owner an unregistered copy. -/
def Mach.writeBack (m : Mach) (w : Nat) (keep : Bool) : Mach :=
  match m.coh.ownerCore w with
  | none => { m with coh := m.coh.vacate w (m.coh.lost w) }
  | some k =>
    let x := m.homeValue w
    let c := (m.coh.vacate w false).absorb (homeDie w) (m.coh.known (coreDie k))
    let c := match c.l1Of k w with
      | some e => if keep then c.setL1 { e with reg := false, dirty := false } else c.dropL1 k w
      | none => c
    { m with mem := m.mem.setWord w x, coh := c }

/-- Writes back every word of a list. -/
def Mach.writeBackAll (m : Mach) (ws : List Nat) (keep : Bool) : Mach :=
  ws.foldl (fun m w => m.writeBack w keep) m

/-- The words registered in a 4 KiB region through its region entry. -/
def Coh.regionWords (c : Coh) (r : Nat) : List Nat :=
  (c.words.filter fun h => h.word / 512 == r && h.st == .region).map HWord.word

/-- The words registered or held in a line through its line entry. -/
def Coh.lineWords (c : Coh) (l : Nat) : List Nat :=
  (c.words.filter fun h => h.word / 8 == l && (h.st == .line || h.st == .held)).map HWord.word

/-- Revokes a region entry: its words are written back (R90). -/
def Mach.revokeRegion (m : Mach) (r : Nat) : Mach :=
  let m := m.writeBackAll (m.coh.regionWords r) false
  { m with coh := { m.coh with regions := m.coh.regions.filter fun e => e.region != r } }

/-- Marks a surrogate group conflicted (R113, R114). -/
def Mach.conflict (m : Mach) (core g : Nat) : Mach :=
  let mark := updWhere (fun (x : Group) => x.core == core && x.id == g) fun x => { x with conflict := true }
  { m with groups := mark m.groups, ctxs := m.ctxs.map fun c => { c with groups := mark c.groups } }

/-- A word's hold ends without a commit: its group is conflicted and its held value vanishes (log 87). -/
def Mach.dropHold (m : Mach) (w : Nat) : Mach :=
  match m.coh.heldOf w with
  | none => m
  | some h =>
    let m := m.conflict h.core h.group
    { m with coh := { m.coh with held := m.coh.held.filter fun x => x.word != w } }

/-- Revokes a line entry: its words are written back, and a hold that needed it ends (R90). -/
def Mach.revokeLine (m : Mach) (l : Nat) : Mach :=
  let ws := m.coh.lineWords l
  let m := ws.foldl Mach.dropHold (m.writeBackAll ws false)
  { m with coh := { m.coh with
      words := m.coh.words.filterMap fun h =>
        if h.word / 8 == l && (h.st == .line || h.st == .held) then (if h.lost then some { h with st := .unreg } else none)
        else some h
      lines := m.coh.lines.filter fun e => e.line != l } }

/-- Makes room for a region entry at the slice of a word, by revoking the least recently allocated of a full table
(R88, R90). -/
def Mach.roomRegion (m : Mach) (w : Nat) : Mach :=
  let mine := m.coh.regions.filter fun e => homeSlice (512 * e.region) == homeSlice w
  if mine.length < 4096 then m
  else match mine.getLast? with
    | some v => m.revokeRegion v.region
    | none => m

/-- Makes room for a line entry at the slice of a word (R88, R90). -/
def Mach.roomLine (m : Mach) (w : Nat) : Mach :=
  let mine := m.coh.lines.filter fun e => homeSlice (8 * e.line) == homeSlice w
  if mine.length < 2048 then m
  else match mine.getLast? with
    | some v => m.revokeLine v.line
    | none => m

/-- Revokes every word that a slice's tables name an owner code for, and the region entries that hold it (R90). -/
def Mach.revokeOwner (m : Mach) (slice : Nat) (o : BitVec 9) : Mach :=
  let ws := (m.coh.words.filter fun h => homeSlice h.word == slice && m.coh.owner h.word == some o).map HWord.word
  let m := m.writeBackAll ws false
  { m with coh := { m.coh with
      regions := m.coh.regions.filter fun e => !(homeSlice (512 * e.region) == slice && e.owner == o)
      lines := updWhere (fun e => homeSlice (8 * e.line) == slice)
        (fun e => { e with owners := e.owners.map fun x => if x = o then noOwner else x }) m.coh.lines } }

/-- An agent whose stores register the words they write: a core of a module, and its context (R89). -/
structure Claim where
  core : Nat
  asid : BitVec 16
  mod  : BitVec 14
  deriving DecidableEq, Repr

/-- An entry for a core in the remote-owner table of a peer's slice: a free one of the 255, or that of the least recently
allocated owner, which is revoked (R88, R90). -/
def Mach.remoteEntry (m : Mach) (slice : Nat) (k : Claim) : Nat × Mach :=
  let mine := m.coh.remotes.filter fun e => e.slice == slice
  let free := firstFree (mine.map RemoteEnt.entry) 0 256
  let n := match free with
    | some n => if n < 255 then n else (mine.getLast?.map RemoteEnt.entry).getD 0 % 255
    | none => 0
  let m := m.revokeOwner slice (BitVec.ofNat 9 (256 + n))
  (n, { m with coh := { m.coh with
    remotes := ⟨slice, n, k.mod, BitVec.ofNat 8 k.core⟩ :: m.coh.remotes.filter fun e => !(e.slice == slice && e.entry == n) } })

/-- The code by which a word's home names an owner, with an entry of the remote-owner table made where it has none (R88). -/
def Mach.ownerCode (m : Mach) (k : Claim) (w : Nat) : BitVec 9 × Mach :=
  if isPeer (8 * w) then
    let slice := homeSlice w
    match (List.range 255).find? fun n =>
        (m.coh.remotes.find? fun e => e.slice == slice && e.entry == n).any fun e => e.mod == k.mod && e.core.toNat == k.core with
    | some n => (BitVec.ofNat 9 (256 + n), m)
    | none =>
      let r := m.remoteEntry slice k
      (BitVec.ofNat 9 (256 + r.1), r.2)
  else (BitVec.ofNat 9 k.core, m)

/-- Makes a line entry for a word's line where it has none: the words of the line that were region-owned become line-owned
under the region's owner (R89), and every other field names none. -/
def Mach.lineFor (m : Mach) (w : Nat) : Mach :=
  match m.coh.lineOf w with
  | some _ => m
  | none =>
    let m := m.roomLine w
    let line := (List.range 8).map fun i => w / 8 * 8 + i
    let owners := line.map fun v => (m.coh.owner v).getD noOwner
    let words := m.coh.words.filterMap fun h =>
      if h.word / 8 == w / 8 then
        (if h.st == .region && (m.coh.owner h.word).isSome then some { h with st := .line }
         else if h.lost then some { h with st := .unreg } else none)
      else some h
    { m with coh := { m.coh with words := words, lines := ⟨w / 8, owners⟩ :: m.coh.lines } }

/-- Writes an owner into a word's field of its line entry (R89): the word is line-owned, or stays held (R113). -/
def Coh.setField (c : Coh) (w : Nat) (o : BitVec 9) : Coh :=
  let st := if c.state w = .held then .held else .line
  { (c.setHome w st false) with
    lines := updWhere (fun e => e.line == w / 8) (fun e => e.put w o) c.lines }

/-- Enters the owner of a word in the tables of its home, by the four steps of R89. A line entry is used although the
region has lost its entry (log 88). -/
def Mach.registerHome (m : Mach) (k : Claim) (w : Nat) : Mach :=
  let r := m.ownerCode k w
  let o := r.1
  let m := r.2
  match m.coh.lineOf w with
  | some _ => { m with coh := m.coh.setField w o }
  | none =>
    match m.coh.regionOf w with
    | none =>
      let m := m.roomRegion w
      let words := m.coh.words.filterMap fun h =>
        if h.word / 512 == w / 512 && h.st == .region then (if h.lost then some { h with st := .unreg } else none)
        else some h
      let c := { m.coh with words := words, regions := ⟨w / 512, o⟩ :: m.coh.regions }
      { m with coh := c.setHome w .region false }
    | some e =>
      if e.owner = o then { m with coh := m.coh.setHome w .region false }
      else
        let m := m.lineFor w
        { m with coh := m.coh.setField w o }

/-- The die's copies and a core's unregistered L1 copies of words are dropped. -/
def Mach.dropCopies (m : Mach) (core pa n : Nat) : Mach :=
  let hit := fun (w : Nat) => decide (pa < 8 * w + 8) && decide (8 * w < pa + n)
  { m with coh := { m.coh with
      l1 := m.coh.l1.filter fun y => !(y.core == core && !y.reg && hit y.word)
      copies := m.coh.copies.filter fun k => !(k.die == coreDie core && hit k.word) } }

/-- A word is registered to a core, which holds it with a value in its L1; an update drops the other dies' copies (R89, R92,
R102). -/
def Mach.claim (m : Mach) (k : Claim) (w : Nat) (dirty : Bool) (x : BitVec 64) : Mach :=
  let m := ((m.writeBack w false).registerHome k w).dropCopies k.core (8 * w) 8
  let fresh := !m.coh.l1.any fun y => y.core == k.core && y.word / 8 == w / 8
  let c := m.coh.setL1 ⟨k.core, k.asid, w, true, dirty, x⟩
  let shared := if fresh then c.shared.filter fun e => e != (coreDie k.core, w / 8) else c.shared
  ({ m with coh := { c with shared := shared } } : Mach).sendUpdate (homeDie w) w none

/-! Frozen frames (R446, R447) -/

/-- The number of reserve frames of 64 KiB (R439). -/
def Survival.reserveFrames (s : Survival) : Nat :=
  if s.rsvbase = 0 then 0 else s.rsvpct.toNat * hbmBytes / 100 / 65536

/-- Index of the reserve frame that holds a physical address (R439). -/
def reserveIndex (d : Dev) (pa : Nat) : Option Nat :=
  let base := d.srv.rsvbase.toNat
  if base ≤ pa && pa < base + 65536 * d.srv.reserveFrames then some ((pa - base) / 65536) else none

/-- The reserve frames that are not free: attached as second buffers, or removed because a 4 KiB frame in them is retired or
poisoned (R457). -/
def reserveUsed (d : Dev) (m : Mach) : List Nat :=
  (d.srv.retired ++ m.poisoned).filterMap (fun f => reserveIndex d (4096 * f)) ++ m.frozen.filterMap Frozen.second

/-- A write to a physical address meets a frozen frame: none when it must wait for the drain (R446, R447). -/
def Mach.frozenWrite (d : Dev) (m : Mach) (pa : Nat) : Option Mach :=
  match m.frozen.find? fun f => f.frame == pa / 65536 with
  | none => some m
  | some f =>
    match f.second with
    | some _ => some m
    | none =>
      let used := reserveUsed d m
      match firstFree used 0 (used.length + 1) with
      | none => none
      | some n =>
        if n < d.srv.reserveFrames then
          some { m with frozen := updWhere (fun g => g.frame == f.frame) (fun g => { g with second := some n }) m.frozen }
        else none

/-! Waking waits on memory (R42, R288) -/

/-- Marks a wait whose watched words lie in a space, where a write of `n` bytes at a place ends it. -/
def WaitFor.wakeBy (glb : Bool) (at_ n : Nat) (x : WaitFor) : WaitFor :=
  match x with
  | .waitw d size p reads homes unit u wake =>
    let hit := (p.space == .glb) == glb && homes.any fun h => decide (h < at_ + n) && decide (at_ < h + size)
    .waitw d size p reads homes unit u (if hit then .written else wake)
  | x => x

/-- Marks the waits of the paths of a wave that a test selects, those that still stand before their trailers included. -/
def Wave.wakeWhere (w : Wave) (p : Path → Bool) (f : WaitFor → WaitFor) : Wave :=
  let each := fun (q : Path) => if p q then { q with fin := q.fin.map f } else q
  { w with
    paths := w.paths.map each, aside := w.aside.map each, resume := w.resume.map each,
    waits := w.waits.map fun x => if p x.path then { x with what := f x.what } else x }

/-- Marks every wait on a word of memory that a write ends. -/
def Mach.wakeBy (m : Mach) (pa n : Nat) : Mach :=
  { m with waves := m.waves.map fun w => w.wakeWhere (fun _ => true) (WaitFor.wakeBy true pa n) }

/-! Words at their home -/

/-- A write to bytes of a 16-byte granule clears its capability tag (R415). -/
def Mach.clearTags (m : Mach) (pa n : Nat) : Mach :=
  { m with tags := m.tags.filter fun g => !(decide (16 * g < pa + n) && decide (pa < 16 * g + 16)) }

/-- Replaces bytes of a word: `off` and the bytes written. -/
def mergeBytes (old : BitVec 64) (off : Nat) (bs : List Byte) : BitVec 64 :=
  let o := toBytes 8 old.toNat
  BitVec.ofNat 64 (ofBytes (o.take off ++ bs ++ o.drop (off + bs.length)))

/-- Performs a write of bytes inside one word at its home (R89, R92): the earlier owner is revoked and the bytes are
merged. With a claim the word becomes registered to its core; without, its value is at the home. A write that hits a word
registered to its core completes in that L1, and sends an update where another die has read the line (R89, R102). -/
def Mach.writeWord (m : Mach) (k : Option Claim) (w off : Nat) (bs : List Byte) : Mach :=
  let old := if m.coh.lost w then 0 else m.homeValue w
  let new := mergeBytes old off bs
  let m := (m.clearTags (8 * w) 8).wakeBy (8 * w + off) bs.length
  match k with
  | none =>
    let m := m.writeBack w false
    let m := { m with mem := m.mem.setWord w new, coh := m.coh.vacate w false }
    m.sendUpdate (homeDie w) w (some new)
  | some k =>
    if m.coh.ownerCore w = some k.core then
      let die := coreDie k.core
      let m := { m with coh := m.coh.setL1 ⟨k.core, k.asid, w, true, true, new⟩ }
      if m.coh.shared.contains (die, w / 8) then m.sendUpdate die w (some new) else m
    else m.claim k w true new

/-- The words that `n` bytes at an address touch, with the offset and length in each (R109). -/
def wordPieces (pa n : Nat) : List (Nat × Nat × Nat) :=
  let w0 := pa / 8
  let cnt := (pa % 8 + n + 7) / 8
  (List.range cnt).map fun i =>
    let lo := max pa (8 * (w0 + i))
    let hi := min (pa + n) (8 * (w0 + i) + 8)
    (w0 + i, lo - 8 * (w0 + i), hi - lo)

/-- Performs a write of bytes, word by word (R109). -/
def Mach.writeBytes (m : Mach) (k : Option Claim) (pa : Nat) (bs : List Byte) : Mach :=
  (wordPieces pa bs.length).foldl
    (fun m p => m.writeWord k p.1 p.2.1 ((bs.drop (8 * p.1 + p.2.1 - pa)).take p.2.2)) m

/-- A write by the device itself, by a service or dispatch core, or by the host: it is performed at the homes, which then
know all that any die knows (R108, log 85). -/
def Mach.devWrite (m : Mach) (pa : Nat) (bs : List Byte) : Mach :=
  (wordPieces pa bs.length).foldl (fun m p =>
    let all := (List.range 5).foldl (fun v d => vecMax v (m.coh.known d)) []
    let m := match m.coh.heldOf p.1 with
      | some h => m.conflict h.core h.group
      | none => m
    let m := { m with coh := m.coh.absorb (homeDie p.1) all }
    m.writeWord none p.1 p.2.1 ((bs.drop (8 * p.1 + p.2.1 - pa)).take p.2.2)) m

/-- Bytes at their home, with forwarding from owners (R91, R112). -/
def Mach.homeBytes (m : Mach) (pa n : Nat) : List Byte :=
  ((wordPieces pa n).map fun p => ((toBytes 8 (m.homeValue p.1).toNat).drop p.2.1).take p.2.2).flatten

/-- A word of a range is lost (R93): its address. -/
def Mach.lostIn (m : Mach) (pa n : Nat) : Option Nat :=
  ((wordPieces pa n).find? fun p => m.coh.lost p.1).map fun p => 8 * p.1

/-! What a core reads -/

/-- The parts of a store in flight, each with its physical address and bytes. -/
def Store.parts (s : Store) : List (Nat × List Byte) := (s.pa, s.data) :: s.more.map fun x => (x.2.1, x.2.2)

/-- Byte `pa` as a store in flight of the core leaves it. -/
def Store.overlay (s : Store) (pa : Nat) (b : Byte) : Byte :=
  match s.op with
  | .write => s.parts.foldl (fun b x => if x.1 ≤ pa ∧ pa < x.1 + x.2.length then x.2.getD (pa - x.1) 0 else b) b
  | _ => b

/-- The copy of a word that a die holds awake (R102). -/
def Coh.copyOf (c : Coh) (die w : Nat) : Option DieCopy :=
  c.copies.find? fun k => k.die == die && k.word == w && !k.asleep

/-- A core finds a word in its L1 or as its die's copy. -/
def Coh.near (c : Coh) (core w : Nat) : Bool := (c.l1Of core w).isSome || (c.copyOf (coreDie core) w).isSome

/-- The word of a core: its L1, its die's copy until an update drops or replaces it (R102), or the home (R91). -/
def Mach.coreWord (m : Mach) (core w : Nat) : BitVec 64 :=
  match m.coh.l1Of core w with
  | some x => x.data
  | none =>
    match m.coh.copyOf (coreDie core) w with
    | some k => k.data
    | none => m.homeValue w

/-- A core receives a word that its die does not hold: from its owner, whose reply carries the owner's knowledge and marks
the line read by another die, or from the home (R91, R102). -/
def Coh.receiveWord (c : Coh) (core w : Nat) : Coh :=
  let die := coreDie core
  match c.ownerCore w with
  | some k =>
    if coreDie k = die then c
    else
      let c := c.absorb die (c.known (coreDie k))
      if c.shared.contains (coreDie k, w / 8) then c else { c with shared := (coreDie k, w / 8) :: c.shared }
  | none => if homeDie w = die then c else c.absorb die (c.known (homeDie w))

/-- A core receives the words that it does not find near. What one brings may drop a copy of another, so the words are
gone through once more for each (R102). -/
def Mach.receiveWords (m : Mach) (core : Nat) (ws : List Nat) : Mach :=
  let pass := fun (c : Coh) => ws.foldl (fun c w => if c.near core w then c else c.receiveWord core w) c
  { m with coh := (List.range (ws.length + 1)).foldl (fun c _ => pass c) m.coh }

/-- The word as the threads of a surrogate group see it: their held bytes over the committed value (R113). -/
def Mach.heldWord (m : Mach) (hold : Option (Nat × Nat)) (w : Nat) (x : BitVec 64) : BitVec 64 :=
  match hold with
  | none => x
  | some (core, g) =>
    match m.coh.held.find? fun h => h.word == w && h.core == core && h.group == g with
    | none => x
    | some h =>
      BitVec.ofNat 64 (ofBytes ((List.range 8).map fun i =>
        if h.mask.getLsbD i then (toBytes 8 h.data.toNat).getD i 0 else (toBytes 8 x.toNat).getD i 0))

/-- A store in flight is forwarded to the loads of a thread of its core: every store of the core, those of a surrogate
group to the group alone, and one that has parked to its own thread alone (R99, R113, R260, log 91). -/
def Store.forwards (s : Store) (core : Nat) (me : Nat × Nat) (hold : Option (Nat × Nat)) : Bool :=
  s.core == core && (s.record.isNone || (s.wave, s.lane) == me)
    && (!s.guarded || (match hold, s.group with
      | some (c, g), some k => c == core && g == k
      | _, _ => false))

/-- Bytes that a load of a thread, by its wave and lane, returns: stores of the core in flight over its L1, its die's copies
and the home (R91, R99, R260). -/
def Mach.loadBytes (m : Mach) (core : Nat) (me : Nat × Nat) (hold : Option (Nat × Nat)) (pa n : Nat) : List Byte :=
  let base := ((wordPieces pa n).map fun p =>
    ((toBytes 8 (m.heldWord hold p.1 (m.coreWord core p.1)).toNat).drop p.2.1).take p.2.2).flatten
  let mine := m.coh.stores.filter fun s => s.forwards core me hold
  (List.range n).map fun i => mine.foldl (fun b s => s.overlay (pa + i) b) (base.getD i 0)

/-- Bytes at their homes as the threads of a surrogate group, if any, see them (R113). -/
def Mach.heldBytes (m : Mach) (hold : Option (Nat × Nat)) (pa n : Nat) : List Byte :=
  ((wordPieces pa n).map fun p =>
    ((toBytes 8 (m.heldWord hold p.1 (m.homeValue p.1)).toNat).drop p.2.1).take p.2.2).flatten

/-- The load reaches a lost word (R93): no copy of the core or its die serves it. -/
def Mach.loadLost (m : Mach) (core pa n : Nat) : Option Nat :=
  ((wordPieces pa n).find? fun p => m.coh.lost p.1 && !m.coh.near core p.1).map fun p => 8 * p.1

/-! Translation (R396 to R402) -/

/-- Where a page is homed (R54, R397). -/
inductive Home where
  | hbm | host | peer (mod : Nat) | rep (group : Nat)
  deriving DecidableEq, Repr

/-- A translated address: physical address, home, write permission, and a fault that the home reports for every access
to it. -/
structure Xlat where
  pa   : Nat
  home : Home
  w    : Bool
  err  : Option Nat
  deriving DecidableEq, Repr

/-- Kinds of access that the walker checks. -/
inductive Access where
  | r | w | x
  deriving DecidableEq, Repr

/-- A page-table entry is malformed for its level (R396, R397). -/
def pteBad (lv : Nat) (e : Nat) : Bool :=
  let leaf := bitOf e 1
  let home := bitsOf e 6 2
  let size := if lv = 0 then (if bitOf e 5 then 16 else 1)
    else if lv = 1 then (if bitOf e 5 then 8192 else 512) else 262144
  if leaf then
    decide (2 < lv) || (lv == 2 && bitOf e 5) || bitsOf e 10 2 != 0
      || (bitOf e 9 && (home != 1 || bitsOf e 12 38 != 0))
      || ((home == 0 || home == 1) && bitsOf e 50 14 != 0)
      || (home == 3 && bitsOf e 58 6 != 0)
      || (!bitOf e 5 && bitsOf e 12 38 % size != 0)
      || (bitOf e 5 && bitsOf e 12 38 % (size / 16) != 0)
      || ((home == 0 || home == 3) && decide (hbmBytes ≤ 4096 * bitsOf e 12 38))
  else
    lv == 0 || bitsOf e 1 11 != 0 || bitsOf e 50 14 != 0 || decide (hbmBytes ≤ 4096 * bitsOf e 12 38)

/-- The walk of R396: the leaf entry and its level, or a fault code. `lv` counts the levels still to read. -/
def Mach.walk (m : Mach) (t va : Nat) : Nat → Except Nat (Nat × Nat)
  | 0 => .error 0x02
  | lv + 1 =>
    let e := (m.homeValue ((t + 8 * bitsOf va (12 + 9 * lv) 9) / 8)).toNat
    if !bitOf e 0 then .error 0x01
    else if pteBad lv e then .error 0x02
    else if bitOf e 1 then .ok (e, lv)
    else m.walk (4096 * bitsOf e 12 38) va lv

/-- Bytes mapped by a leaf entry at a level, by the index that selected it: a CONT entry maps its own part (R396). -/
def leafBytes (lv : Nat) : Nat := if lv = 0 then 4096 else if lv = 1 then 2 ^ 21 else 2 ^ 30

/-- The context of an ASID. -/
def Mach.ctx (m : Mach) (asid : BitVec 16) : Option Ctx := m.ctxs.find? fun c => c.asid == asid

/-- Changes the context of an ASID. -/
def Mach.updCtx (m : Mach) (asid : BitVec 16) (f : Ctx → Ctx) : Mach :=
  { m with ctxs := updWhere (fun c => c.asid == asid) f m.ctxs }

/-- The fabric reaches a module: through some enabled port that is linked up and whose link reaches it (R389). -/
def Dev.reaches (d : Dev) (mod : Nat) : Bool :=
  (List.range 12).any fun p => (d.att.porten &&& d.att.linkup).getLsbD p && !d.att.cut.contains (p, mod)

/-- The frame is retired, or poisoned until the next start (R457). -/
def badFrame (d : Dev) (m : Mach) (pa : Nat) : Bool :=
  d.srv.retired.contains (pa / 4096) || m.poisoned.contains (pa / 4096)

/-- The entry of a page group in the replicated-group table, as a number (R390). -/
def repEntry (d : Dev) (m : Mach) (g : Nat) : Nat := ofBytes (m.homeBytes (d.att.rgbase.toNat + 64 * g) 64)

/-- An entry whose reserved fields are not all zero is malformed and serves no module (R7, R390). -/
def repClean (n : Nat) : Bool := bitsOf n 3 13 == 0 && bitsOf n 30 2 == 0 && bitsOf n 64 192 == 0

/-- The entry of a page group in the replicated-group table is in service for this module (R390, R391). -/
def repServes (d : Dev) (m : Mach) (g : Nat) : Bool :=
  let n := repEntry d m g
  repClean n && bitOf n 0 && bitOf n (256 + d.att.modid.toNat % 256)
    && !(m.coh.repOut.contains (g, d.att.modid.toNat))

/-- The leaf entry that a die uses for a page: its TLB entry, else the walk (R399). -/
def Mach.leaf (m : Mach) (die : Nat) (c : Ctx) (va : Nat) : Except Nat (Nat × Nat) :=
  match m.coh.tlb.find? fun t => t.die == die && t.asid == c.asid && t.page == va / 4096 with
  | some t => .ok (t.entry.toNat, t.level)
  | none => m.walk c.ptroot.toNat va 5

/-- Translates a global virtual address for a context (R52, R53, R55, R396, R401). `dev` accesses of the device itself
do not check R, W and X. -/
def translate (d : Dev) (m : Mach) (die : Nat) (asid : BitVec 16) (va : BitVec 64) (acc : Access) (priv : Bool) :
    Except Nat Xlat :=
  if 2 ^ 57 ≤ va.toNat then .error 0x02
  else match m.ctx asid with
    | none => .error 0x01
    | some c =>
      match m.leaf die c va.toNat with
      | .error e => .error e
      | .ok (e, lv) =>
        let ok := priv || (match acc with | .r => bitOf e 2 | .w => bitOf e 3 | .x => bitOf e 4)
        if !ok then .error 0x02
        else
          let off := va.toNat % leafBytes lv
          let base := 4096 * bitsOf e 12 38
          let poison := bitOf e 8
          match bitsOf e 6 2 with
          | 0 =>
            let pa := base + off
            .ok ⟨pa, .hbm, bitOf e 3, if poison || badFrame d m pa then some 0x11 else none⟩
          | 1 =>
            if bitOf e 9 then
              match m.coh.ats.find? fun a => a.asid == asid && a.page == va.toNat / 4096 with
              | some a =>
                if acc == .w && !a.write then .error 0x04
                else .ok ⟨hostAddr (4096 * a.frame + va.toNat % 4096), .host, bitOf e 3 && a.write,
                  if poison then some 0x11 else none⟩
              | none =>
                if m.coh.prgFail.contains ⟨asid, va.toNat / 4096⟩ then .error 0x02
                else if m.coh.revoked.contains ⟨asid, va.toNat / 4096⟩ then .error 0x03 else .error 0x04
            else .ok ⟨hostAddr (base + off), .host, bitOf e 3, if poison then some 0x11 else none⟩
          | 2 =>
            let mod := bitsOf e 50 14
            .ok ⟨peerAddr mod (base + off), .peer mod, bitOf e 3,
              if poison then some 0x11 else if !d.reaches mod then some 0x31
              else if privateBase ≤ base + off then some 0x02 else none⟩
          | _ =>
            let g := bitsOf e 50 8
            let pa := base + off
            .ok ⟨pa, .rep g, bitOf e 3,
              if poison || badFrame d m pa then some 0x11 else if repServes d m g then none else some 0x31⟩

/-- Translates every page that `n` bytes touch: the pieces in order, or the first fault with its address. -/
def translateRange (d : Dev) (m : Mach) (die : Nat) (asid : BitVec 16) (va : BitVec 64) (n : Nat) (acc : Access)
    (priv : Bool) : Except Flt (List (Xlat × Nat)) :=
  let a0 := va.toNat
  let cnt := (a0 % 4096 + max n 1 + 4095) / 4096
  let pieces := (List.range cnt).map fun i =>
    let lo := max a0 (4096 * (a0 / 4096 + i))
    let hi := min (a0 + max n 1) (4096 * (a0 / 4096 + i) + 4096)
    (lo, hi - lo)
  pieces.foldr
    (fun p acc' =>
      if 2 ^ 57 ≤ p.1 then .error ⟨0x02, BitVec.ofNat 64 p.1⟩
      else match translate d m die asid (BitVec.ofNat 64 p.1) acc priv with
        | .error e => .error ⟨e, BitVec.ofNat 64 p.1⟩
        | .ok x =>
          match acc' with
          | .error e => .error e
          | .ok xs => .ok ((x, p.2) :: xs))
    (.ok [])

/-- A device access to a context's virtual memory: bytes read at their homes, or the fault. -/
def readVa (d : Dev) (m : Mach) (asid : BitVec 16) (va : BitVec 64) (n : Nat) (priv : Bool) :
    Except Flt (List Byte) :=
  match translateRange d m 0 asid va n .r priv with
  | .error e => .error e
  | .ok ps =>
    match ps.find? fun p => p.1.err.isSome with
    | some p => .error ⟨p.1.err.getD 0, va⟩
    | none =>
      match ps.findSome? fun p => m.lostIn p.1.pa p.2 with
      | some _ => .error ⟨0x40, va⟩
      | none => .ok ((ps.map fun p => m.homeBytes p.1.pa p.2).flatten)

/-- A device write to a context's virtual memory, performed at the homes; none when it faults. -/
def writeVa (d : Dev) (m : Mach) (asid : BitVec 16) (va : BitVec 64) (bs : List Byte) (priv : Bool) : Option Mach :=
  match translateRange d m 0 asid va bs.length .w priv with
  | .error _ => none
  | .ok ps =>
    if ps.any fun p => p.1.err.isSome then none
    else some ((ps.foldl (fun (mr : Mach × List Byte) p =>
      (mr.1.devWrite p.1.pa (mr.2.take p.2), mr.2.drop p.2)) (m, bs)).1)

/-- A 64-bit word of a context's memory read by the device; 0 when it cannot be read. -/
def readVa64 (d : Dev) (m : Mach) (asid : BitVec 16) (va : BitVec 64) : BitVec 64 :=
  match readVa d m asid va 8 true with
  | .ok bs => BitVec.ofNat 64 (ofBytes bs)
  | .error _ => 0

/-- Words of a context's memory read by the device, or none when one cannot be read. -/
def readVaWords (d : Dev) (m : Mach) (asid : BitVec 16) (va : BitVec 64) (n : Nat) : Option (List (BitVec 64)) :=
  match readVa d m asid va (8 * n) true with
  | .ok bs => some ((List.range n).map fun i => BitVec.ofNat 64 (ofBytes ((bs.drop (8 * i)).take 8)))
  | .error _ => none

end Sys2Proof.Machine
end

