-- ==== Sys2Proof/Machine/Float.lean ====
section
/-! DEFINITION. Number formats and float arithmetic: exact values, one rounding (R117 to R128, R139 to R145, R233 to
R247). -/

namespace Sys2Proof.Machine

/-- Exponent bits, fraction bits and bias of a float format (R117, R119). -/
structure FParams where
  e    : Nat
  f    : Nat
  bias : Nat
  deriving DecidableEq, Repr

/-- The parameters of each format (R117, R119). -/
def fparams : FFmt → FParams
  | .f32 => ⟨8, 23, 127⟩
  | .bf16 => ⟨8, 7, 127⟩
  | .f16 => ⟨5, 10, 15⟩
  | .n8e4 => ⟨4, 3, 8⟩
  | .n8e5 => ⟨5, 2, 16⟩
  | .n4e2 => ⟨2, 1, 2⟩

/-- Bits of a format. -/
def ffmtBits (ft : FFmt) : Nat := 1 + (fparams ft).e + (fparams ft).f

/-- A float value: `num neg m q` is m × 2^q with its sign, and m = 0 is a signed zero. -/
inductive FVal where
  | nan
  | inf (neg : Bool)
  | num (neg : Bool) (m : Nat) (q : Int)
  deriving DecidableEq, Repr

/-- The canonical NaN of a format (R118), or the NaN code of a narrow one (R119). -/
def nanCode (ft : FFmt) : Nat :=
  let p := fparams ft
  if ft.arith then (2 ^ p.e - 1) * 2 ^ p.f + 2 ^ (p.f - 1) else 2 ^ (p.e + p.f)

/-- The value of a code of an IEEE format (R117), or of a narrow code (R120). -/
def fdecode (ft : FFmt) (x : Nat) : FVal :=
  let p := fparams ft
  let f := bitsOf x 0 p.f
  let e := bitsOf x p.f p.e
  let neg := bitOf x (p.e + p.f)
  if ft.arith && e = 2 ^ p.e - 1 then (if f = 0 then .inf neg else .nan)
  else if !ft.arith && neg && e = 0 && f = 0 then .nan
  else if e = 0 then .num neg f (1 - (p.bias : Int) - p.f)
  else .num neg (2 ^ p.f + f) ((e : Int) - p.bias - p.f)

/-- A subnormal input under `.ftz` reads as zero of its sign (R117). -/
def ftzIn (ft : FFmt) (ftz : Bool) (v : FVal) : FVal :=
  match v with
  | .num neg m q => if ftz && ft.arith && decide (m < 2 ^ (fparams ft).f) then .num neg 0 q else v
  | _ => v

/-- Whether a magnitude with a remainder is rounded up: `odd` the last bit kept, `cmp` the remainder against one half
(0 none, 1 below, 2 equal, 3 above) (R117). -/
def roundsUp (rm : RMode) (neg odd : Bool) (cmp : Nat) : Bool :=
  match rm with
  | .rne => cmp == 3 || (cmp == 2 && odd)
  | .rz => false
  | .rdn => neg && cmp != 0
  | .rup => !neg && cmp != 0

/-- m ÷ 2^sh rounded to an integer magnitude; `sticky` says that the exact value is above m by less than one. -/
def roundShift (rm : RMode) (neg : Bool) (m sh : Nat) (sticky : Bool) : Nat :=
  let n := m / 2 ^ sh
  let r := m % 2 ^ sh
  let cmp :=
    if r = 0 && !sticky then 0
    else if 2 * r < 2 ^ sh then 1
    else if 2 * r = 2 ^ sh && !sticky then 2
    else if sh = 0 then 1
    else 3
  if roundsUp rm neg (n % 2 == 1) cmp then n + 1 else n

/-- m × 2^q rounded to an integer magnitude. -/
def roundMag (rm : RMode) (neg : Bool) (m : Nat) (q : Int) (sticky : Bool) : Nat :=
  match q with
  | .ofNat k => m * 2 ^ k
  | .negSucc k => roundShift rm neg m (k + 1) sticky

/-- Number of bits of a positive number. -/
def bitLen (m : Nat) : Nat := if m = 0 then 0 else Nat.log2 m + 1

/-- Rounds a nonzero magnitude m × 2^q once into an IEEE format, with overflow as R117 prescribes for the mode. -/
def fencode (ft : FFmt) (rm : RMode) (ftz neg : Bool) (m : Nat) (q : Int) (sticky : Bool) : Nat :=
  let p := fparams ft
  let sg := if neg then 2 ^ (p.e + p.f) else 0
  let ex := q + (bitLen m : Int) - 1
  let emin := 1 - (p.bias : Int)
  let qn := (if ex < emin then emin else ex) - p.f
  let n := roundMag rm neg m (q - qn) sticky
  let bits := ((qn + p.f + p.bias - 1) * (2 ^ p.f : Nat) + (n : Int)).toNat
  let top := (2 ^ p.e - 1) * 2 ^ p.f
  if top ≤ bits then
    sg + (match rm with
      | .rne => top
      | .rz => top - 1
      | .rdn => if neg then top else top - 1
      | .rup => if neg then top - 1 else top)
  else if ftz && decide (bits < 2 ^ p.f) then sg
  else sg + bits

/-- A zero of a sign in a format. -/
def fzero (ft : FFmt) (neg : Bool) : Nat := if neg then 2 ^ ((fparams ft).e + (fparams ft).f) else 0

/-- An infinity of a sign in an IEEE format. -/
def finf (ft : FFmt) (neg : Bool) : Nat := fzero ft neg + (2 ^ (fparams ft).e - 1) * 2 ^ (fparams ft).f

/-- Rounds a value into an IEEE format. -/
def fround (ft : FFmt) (rm : RMode) (ftz : Bool) (v : FVal) : Nat :=
  match v with
  | .nan => nanCode ft
  | .inf neg => finf ft neg
  | .num neg m q => if m = 0 then fzero ft neg else fencode ft rm ftz neg m q false

/-- The signed integer of a sign and a magnitude. -/
def signed (neg : Bool) (m : Nat) : Int := if neg then -(m : Int) else m

/-- Exact sum of two finite values as an integer times a power of two. -/
def exactSum (a b : Int × Int) : Int × Int :=
  let q := if a.2 ≤ b.2 then a.2 else b.2
  (a.1 * 2 ^ (a.2 - q).toNat + b.1 * 2 ^ (b.2 - q).toNat, q)

/-- The sign of an exact zero sum of two operands (R142). -/
def zeroSign (rm : RMode) (n1 n2 : Bool) : Bool := if n1 = n2 then n1 else rm == .rdn

/-- Rounds an exact sum; a zero sum takes the sign given. -/
def roundSum (ft : FFmt) (rm : RMode) (ftz : Bool) (s : Int × Int) (zneg : Bool) : Nat :=
  if s.1 = 0 then fzero ft zneg else fencode ft rm ftz (decide (s.1 < 0)) s.1.natAbs s.2 false

/-- a + b (R233). -/
def faddV (ft : FFmt) (rm : RMode) (ftz : Bool) (a b : FVal) : Nat :=
  match a, b with
  | .nan, _ | _, .nan => nanCode ft
  | .inf x, .inf y => if x = y then finf ft x else nanCode ft
  | .inf x, _ => finf ft x
  | _, .inf y => finf ft y
  | .num n1 m1 q1, .num n2 m2 q2 =>
    roundSum ft rm ftz (exactSum (signed n1 m1, q1) (signed n2 m2, q2)) (zeroSign rm n1 n2)

/-- The value with its sign changed. -/
def FVal.negate : FVal → FVal
  | .nan => .nan
  | .inf x => .inf (!x)
  | .num x m q => .num (!x) m q

/-- a × b (R233). -/
def fmulV (ft : FFmt) (rm : RMode) (ftz : Bool) (a b : FVal) : Nat :=
  match a, b with
  | .nan, _ | _, .nan => nanCode ft
  | .inf x, .inf y => finf ft (x != y)
  | .inf x, .num y m _ | .num y m _, .inf x => if m = 0 then nanCode ft else finf ft (x != y)
  | .num n1 m1 q1, .num n2 m2 q2 =>
    if m1 * m2 = 0 then fzero ft (n1 != n2) else fencode ft rm ftz (n1 != n2) (m1 * m2) (q1 + q2) false

/-- a × b + c with one rounding (R140, R142). -/
def ffmaV (ft : FFmt) (rm : RMode) (ftz : Bool) (a b c : FVal) : Nat :=
  match a, b, c with
  | .nan, _, _ | _, .nan, _ | _, _, .nan => nanCode ft
  | .num n1 m1 q1, .num n2 m2 q2, .num n3 m3 q3 =>
    roundSum ft rm ftz (exactSum (signed (n1 != n2) (m1 * m2), q1 + q2) (signed n3 m3, q3))
      (zeroSign rm (n1 != n2) n3)
  | .num _ _ _, .num _ _ _, .inf z => finf ft z
  | .inf x, .num y m _, c | .num y m _, .inf x, c =>
    if m = 0 then nanCode ft
    else match c with
      | .inf z => if z = (x != y) then finf ft z else nanCode ft
      | _ => finf ft (x != y)
  | .inf x, .inf y, c =>
    match c with
    | .inf z => if z = (x != y) then finf ft z else nanCode ft
    | _ => finf ft (x != y)

/-- a ÷ b (R233). -/
def fdivV (ft : FFmt) (rm : RMode) (ftz : Bool) (a b : FVal) : Nat :=
  match a, b with
  | .nan, _ | _, .nan => nanCode ft
  | .inf _, .inf _ => nanCode ft
  | .inf x, .num y _ _ => finf ft (x != y)
  | .num x _ _, .inf y => fzero ft (x != y)
  | .num n1 m1 q1, .num n2 m2 q2 =>
    if m2 = 0 then (if m1 = 0 then nanCode ft else finf ft (n1 != n2))
    else if m1 = 0 then fzero ft (n1 != n2)
    else
      let k := 64 + bitLen m2
      let n := m1 * 2 ^ k
      fencode ft rm ftz (n1 != n2) (n / m2) (q1 - q2 - k) (n % m2 != 0)

/-- Integer square root, by bits from `k` down. -/
def isqrtBits (n : Nat) : Nat → Nat → Nat
  | 0, r => r
  | k + 1, r => if (r + 2 ^ k) * (r + 2 ^ k) ≤ n then isqrtBits n k (r + 2 ^ k) else isqrtBits n k r

/-- Integer square root. -/
def isqrt (n : Nat) : Nat := isqrtBits n (bitLen n / 2 + 1) 0

/-- √a (R233). -/
def fsqrtV (ft : FFmt) (rm : RMode) (ftz : Bool) (a : FVal) : Nat :=
  match a with
  | .nan => nanCode ft
  | .inf x => if x then nanCode ft else finf ft false
  | .num x m q =>
    if m = 0 then fzero ft x
    else if x then nanCode ft
    else
      let odd := (q % 2 != 0)
      let m1 := if odd then 2 * m else m
      let q1 := if odd then q - 1 else q
      let n := m1 * 2 ^ 80
      let r := isqrt n
      fencode ft rm ftz false r (q1 / 2 - 40) (r * r != n)

/-- Order of two values that are not NaN, −0 below +0 when `zeros` says so. -/
def fltV (zeros : Bool) (a b : FVal) : Bool :=
  match a, b with
  | .nan, _ | _, .nan => false
  | .inf x, .inf y => x && !y
  | .inf x, _ => x
  | _, .inf y => !y
  | .num n1 m1 q1, .num n2 m2 q2 =>
    let q := if q1 ≤ q2 then q1 else q2
    let x := signed n1 m1 * 2 ^ (q1 - q).toNat
    let y := signed n2 m2 * 2 ^ (q2 - q).toNat
    decide (x < y) || (zeros && x == 0 && y == 0 && n1 && !n2)

/-- Equality of two values, with −0 equal to +0 (R235). -/
def feqV (a b : FVal) : Bool :=
  match a, b with
  | .nan, _ | _, .nan => false
  | a, b => !fltV false a b && !fltV false b a

/-- The code of a value that needs no rounding. -/
def fexact (ft : FFmt) (v : FVal) : Nat := fround ft .rne false v

/-- The lesser or greater operand (R234). -/
def fminmaxV (ft : FFmt) (greater : Bool) (a b : FVal) : Nat :=
  match a, b with
  | .nan, .nan => nanCode ft
  | .nan, b => fexact ft b
  | a, .nan => fexact ft a
  | a, b =>
    if greater then (if fltV true a b then fexact ft b else fexact ft a)
    else (if fltV true b a then fexact ft b else fexact ft a)

/-- The condition of `FCMP` (R188, R235). -/
def fcmpV (cond : FCond) (a b : FVal) : Bool :=
  let un := a == .nan || b == .nan
  match cond with
  | .eq => feqV a b
  | .ne => un || !feqV a b
  | .lt => fltV false a b
  | .le => !un && (fltV false a b || feqV a b)
  | .gt => fltV false b a
  | .ge => !un && (fltV false b a || feqV a b)
  | .un => un
  | .or => !un

/-- The class mask of a code (R236). -/
def fclassOf (ft : FFmt) (x : Nat) : Nat :=
  let p := fparams ft
  let neg := bitOf x (p.e + p.f)
  match fdecode ft x with
  | .nan => if bitOf x (p.f - 1) then 2 ^ 9 else 2 ^ 8
  | .inf n => if n then 2 ^ 0 else 2 ^ 7
  | .num _ m _ =>
    if m = 0 then (if neg then 2 ^ 3 else 2 ^ 4)
    else if m < 2 ^ p.f then (if neg then 2 ^ 2 else 2 ^ 5)
    else (if neg then 2 ^ 1 else 2 ^ 6)

/-- Rounds to an integral value in its own format (R237). -/
def frndV (ft : FFmt) (rm : RMode) (ftz : Bool) (v : FVal) : Nat :=
  match v with
  | .num neg m q =>
    let n := roundMag rm neg m q false
    if n = 0 then fzero ft neg else fencode ft rm ftz neg n 0 false
  | v => fexact ft v

/-- Rounds to an integer; none of a NaN. Infinities give `lim` of their sign (R243). -/
def fintV (rm : RMode) (lo hi : Int) (v : FVal) : Int :=
  match v with
  | .nan => 0
  | .inf x => if x then lo else hi
  | .num neg m q =>
    let n := signed neg (roundMag rm neg m q false)
    if n < lo then lo else if hi < n then hi else n

/-- Rounds an integer into a format (R243). -/
def fofInt (ft : FFmt) (rm : RMode) (n : Int) : Nat :=
  if n = 0 then 0 else fencode ft rm false (decide (n < 0)) n.natAbs 0 false

/-! Narrow targets (R122) -/

/-- Largest finite magnitude of a narrow format, as its code. -/
def narrowMax (ft : FFmt) : Nat := 2 ^ ((fparams ft).e + (fparams ft).f) - 1

/-- Conversion of a value into a narrow float code with block scale `s` (R122). -/
def fnarrow (ft : FFmt) (rm : RMode) (nanov : Bool) (s : Nat) (v : FVal) : Nat :=
  let p := fparams ft
  let sg := fun (neg : Bool) => if neg then 2 ^ (p.e + p.f) else 0
  if s = 0xFF then nanCode ft
  else match v with
    | .nan => nanCode ft
    | .inf neg => if nanov then nanCode ft else sg neg + narrowMax ft
    | .num neg m q0 =>
      if m = 0 then 0
      else
        let q1 := q0 + 127 - s
        let ex := q1 + (bitLen m : Int) - 1
        let emin := 1 - (p.bias : Int)
        let qn := (if ex < emin then emin else ex) - p.f
        let n := roundMag rm neg m (q1 - qn) false
        if n = 0 then 0
        else
          let code := ((qn + p.f + p.bias - 1) * (2 ^ p.f : Nat) + (n : Int)).toNat
          if narrowMax ft < code then (if nanov then nanCode ft else sg neg + narrowMax ft)
          else sg neg + code

/-- Conversion of a value into s8 or s4 with block scale `s` (R122): an integer in range. -/
def fnarrowInt (bits : Nat) (rm : RMode) (s : Nat) (v : FVal) : Int :=
  if s = 0xFF then 0
  else
    let hi : Int := 2 ^ (bits - 1) - 1
    let lo : Int := -(2 ^ (bits - 1))
    match v with
    | .num neg m q => fintV rm lo hi (.num neg m (q + 127 - s))
    | v => fintV rm lo hi v

/-- The value of an element of a format with block scale `s` (R120, R121). -/
def elemVal (ef : EFmt) (s x : Nat) : FVal :=
  if s = 0xFF then .nan
  else
    let scale := fun (v : FVal) => match v with
      | .num neg m q => FVal.num neg m (q + s - 127)
      | v => v
    match ef with
    | .n4e2 => scale (fdecode .n4e2 x)
    | .n8e4 => scale (fdecode .n8e4 x)
    | .n8e5 => scale (fdecode .n8e5 x)
    | .s4 => let n := signedOf 4 x; scale (.num (decide (n < 0)) n.natAbs 0)
    | .s8 => let n := signedOf 8 x; scale (.num (decide (n < 0)) n.natAbs 0)
    | .bf16 => scale (fdecode .bf16 x)

/-- Bits of an element (R121, R125). -/
def efmtBits : EFmt → Nat
  | .n4e2 | .s4 => 4
  | .n8e4 | .n8e5 | .s8 => 8
  | .bf16 => 16

/-- The narrow float format of an element format. -/
def efmtF : EFmt → FFmt
  | .n4e2 => .n4e2
  | .n8e4 => .n8e4
  | .n8e5 => .n8e5
  | _ => .bf16

/-- Conversion of a value into an element code with block scale `s`, uncompanded (R122, R245). -/
def elemCode (ef : EFmt) (rm : RMode) (nanov : Bool) (s : Nat) (v : FVal) : Nat :=
  match ef with
  | .n4e2 | .n8e4 | .n8e5 => fnarrow (efmtF ef) rm nanov s v
  | .s4 => wrapTo 4 (fnarrowInt 4 rm s v)
  | .s8 => wrapTo 8 (fnarrowInt 8 rm s v)
  | .bf16 =>
    if s = 0xFF then nanCode .bf16
    else match v with
      | .num neg m q => fround .bf16 rm false (.num neg m (q + 127 - s))
      | v => fround .bf16 rm false v

/-- Least integer not below log2 of m × 2^q ÷ (n × 2^p), for nonzero m and n. -/
def ceilLog2 (m : Nat) (q : Int) (n : Nat) (p : Int) : Int :=
  let k : Int := q - p + (bitLen m : Int) - (bitLen n : Int)
  let le := fun (e : Int) =>
    let d := q - p - e
    if 0 ≤ d then decide (m * 2 ^ d.toNat ≤ n) else decide (m ≤ n * 2 ^ (-d).toNat)
  if le (k - 1) then k - 1 else if le k then k else k + 1

/-- Largest finite value of an element format as m × 2^q (R247). -/
def elemMax : EFmt → Nat × Int
  | .n4e2 => (3, 0)
  | .n8e4 => (240, 0)
  | .n8e5 => (57344, 0)
  | .s4 => (7, 0)
  | .s8 => (127, 0)
  | .bf16 => (255, 120)

/-- The smallest scale code under which a magnitude does not overflow (R247). -/
def blockScale (ef : EFmt) (v : FVal) : Nat :=
  match v with
  | .nan => 0xFF
  | .inf _ => 254
  | .num _ m q =>
    if m = 0 then 127
    else (127 + ceilLog2 m q (elemMax ef).1 (elemMax ef).2).toNat

/-! Reciprocal approximations (R144, R145) -/

/-- Quotient rounded to nearest, ties to even. -/
def rneDiv (a b : Nat) : Nat :=
  let q := a / b
  let r := a % b
  if 2 * r > b || (2 * r = b && q % 2 = 1) then q + 1 else q

/-- Normalised significand of a nonzero FP32 value: fraction field and exponent. -/
def normalise (m : Nat) (q : Int) : Nat × Int :=
  let e := q + (bitLen m : Int) - 1
  (m * 2 ^ (24 - bitLen m) - 2 ^ 23, e)

/-- Places ±m × 2^q in FP32: rounded only where it falls below the normal range (R144). -/
def place32 (ftz neg : Bool) (m : Nat) (q : Int) : Nat := fencode .f32 .rne ftz neg m q false

/-- `FRCPA` (R144). -/
def frcpaV (ftz : Bool) (v : FVal) : Nat :=
  match v with
  | .nan => nanCode .f32
  | .inf neg => fzero .f32 neg
  | .num neg m q =>
    if m = 0 then finf .f32 neg
    else
      let fe := normalise m q
      let i := fe.1 / 2 ^ 16
      let t := fe.1 % 2 ^ 16
      let a := 128 + i
      let s := rneDiv (2 ^ 30) a - t * rneDiv (2 ^ 30) (a * (a + 1)) / 2 ^ 16
      if s = 2 ^ 23 then place32 ftz neg 1 (-fe.2) else place32 ftz neg s (-fe.2 - 1 - 22)

/-- Nearest integer to 2^23 ÷ √(n ÷ 128), to 2^-60 (R145). -/
def rsqrtFix (n : Nat) : Nat := isqrt (2 ^ 46 * 128 * 2 ^ 128 / n)

/-- `FRSQA` (R145). The roots are taken to 64 more bits before they are rounded to the nearest integer. -/
def frsqaV (ftz : Bool) (v : FVal) : Nat :=
  match v with
  | .nan => nanCode .f32
  | .inf neg => if neg then nanCode .f32 else 0
  | .num neg m q =>
    if m = 0 then finf .f32 neg
    else if neg then nanCode .f32
    else
      let fe := normalise m q
      let i := fe.1 / 2 ^ 16
      let t := fe.1 % 2 ^ 16
      let p := (fe.2 % 2).toNat
      let ra := rsqrtFix ((128 + i) * 2 ^ p)
      let rc := rsqrtFix ((129 + i) * 2 ^ p)
      let k0 := (ra + 2 ^ 63) / 2 ^ 64
      let k1 := (ra - rc + 2 ^ 63) / 2 ^ 64
      let s := k0 - t * k1 / 2 ^ 16
      let h := -((fe.2 - p) / 2)
      if s = 2 ^ 23 then place32 ftz false 1 h else place32 ftz false s (h - 1 - 22)

/-! Functions rounded once from the exact real (R239): fixed point with `fixP` fraction bits, far past the precision at
which an FP32 result could be decided wrongly. -/

/-- Fraction bits of the fixed point. -/
def fixP : Nat := 640

/-- Σ x^k ÷ k! in fixed point: `t` the last term, `k` its index. -/
def expSum (x : Nat) : Nat → Nat → Nat → Nat → Nat
  | 0, _, _, acc => acc
  | n + 1, k, t, acc =>
    let t' := t * x / 2 ^ fixP / (k + 1)
    expSum x n (k + 1) t' (acc + t')

/-- e^x in fixed point, for 0 ≤ x < 1. -/
def expFix (x : Nat) : Nat := expSum x 128 0 (2 ^ fixP) (2 ^ fixP)

/-- Σ z^(2k+1) ÷ (2k+1) in fixed point: `z2` is z², `t` the last power. -/
def atanhSum (z2 : Nat) : Nat → Nat → Nat → Nat → Nat
  | 0, _, _, acc => acc
  | n + 1, k, t, acc => atanhSum z2 n (k + 2) (t * z2 / 2 ^ fixP) (acc + t / k)

/-- artanh of z in fixed point, for 0 ≤ z ≤ 1/3. -/
def atanhFix (z : Nat) : Nat := atanhSum (z * z / 2 ^ fixP) 210 1 z 0

/-- ln 2 in fixed point. -/
def ln2Fix : Nat := 2 * atanhFix (2 ^ fixP / 3)

/-- Σ (−1)^k ÷ ((2k+1) n^(2k+1)) in fixed point. -/
def atanInvSum (n2 : Nat) : Nat → Nat → Nat → Bool → Int → Int
  | 0, _, _, _, acc => acc
  | f + 1, k, t, neg, acc => atanInvSum n2 f (k + 2) (t / n2) (!neg) (acc + signed neg (t / k))

/-- π in fixed point, by Machin's formula. -/
def piFix : Nat :=
  (16 * atanInvSum 25 144 1 (2 ^ fixP / 5) false 0 - 4 * atanInvSum 57121 48 1 (2 ^ fixP / 239) false 0).toNat

/-- Alternating series of sine (`k` odd) or cosine (`k` even) in fixed point: `t` the last term, `k` its index. -/
def trigSum (x2 : Nat) : Nat → Nat → Nat → Bool → Int → Int
  | 0, _, _, _, acc => acc
  | n + 1, k, t, neg, acc =>
    let t' := t * x2 / 2 ^ fixP / ((k + 1) * (k + 2))
    trigSum x2 n (k + 2) t' (!neg) (acc + signed neg t')

/-- sin x in fixed point, for 0 ≤ x ≤ π/4. -/
def sinFix (x : Nat) : Nat := (trigSum (x * x / 2 ^ fixP) 64 1 x true x).toNat

/-- cos x in fixed point, for 0 ≤ x ≤ π/4. -/
def cosFix (x : Nat) : Nat := (trigSum (x * x / 2 ^ fixP) 64 0 (2 ^ fixP) true (2 ^ fixP : Nat)).toNat

/-- Rounds a positive real known in fixed point that no FP32 format boundary equals; its last bits are dropped. -/
def roundFix (rm : RMode) (ftz neg : Bool) (x : Nat) (q : Int) : Nat :=
  fencode .f32 rm ftz neg (x / 2 ^ 32) (q + 32 - fixP) true

/-- 2^a (R239). -/
def fexp2V (rm : RMode) (ftz : Bool) (v : FVal) : Nat :=
  match v with
  | .nan => nanCode .f32
  | .inf neg => if neg then 0 else finf .f32 false
  | .num neg m q =>
    if m = 0 then 0x3F800000
    else
      let x := if 0 ≤ q then m * 2 ^ q.toNat else m / 2 ^ (-q).toNat
      if 256 ≤ x then
        (if neg then fencode .f32 rm ftz false 1 (-512) true else fencode .f32 rm ftz false 1 512 true)
      else
        let fr := if 0 ≤ q then 0 else m % 2 ^ (-q).toNat
        if fr = 0 then fencode .f32 rm ftz false 1 (signed neg x) false
        else
          let k : Int := if neg then -(x : Int) - 1 else x
          let f := fr * 2 ^ (fixP - (-q).toNat)
          let f := if neg then 2 ^ fixP - f else f
          roundFix rm ftz false (expFix (f * ln2Fix / 2 ^ fixP)) k

/-- log2 a (R239). -/
def flog2V (rm : RMode) (ftz : Bool) (v : FVal) : Nat :=
  match v with
  | .nan => nanCode .f32
  | .inf neg => if neg then nanCode .f32 else finf .f32 false
  | .num neg m q =>
    if m = 0 then finf .f32 true
    else if neg then nanCode .f32
    else
      let e := q + (bitLen m : Int) - 1
      if m = 2 ^ (bitLen m - 1) then (if e = 0 then 0 else fencode .f32 rm ftz (decide (e < 0)) e.natAbs 0 false)
      else
        let y := m * 2 ^ (24 - bitLen m)
        let big := decide (3 * 2 ^ 22 ≤ y)
        let e1 := if big then e + 1 else e
        let one := if big then 2 ^ 24 else 2 ^ 23
        let d := if big then one - y else y - one
        let z := d * 2 ^ fixP / (y + one)
        let l := 2 * atanhFix z * 2 ^ fixP / ln2Fix
        let r : Int := e1 * (2 ^ fixP : Nat) + signed big l
        roundFix rm ftz (decide (r < 0)) r.natAbs 0

/-- sin(π r) for 0 < r < 1/2 given as n ÷ 2^k. -/
def sinHalf (n k : Nat) : Nat :=
  let r := n * 2 ^ (fixP - k)
  if 4 * n ≤ 2 ^ k then sinFix (r * piFix / 2 ^ fixP) else cosFix ((2 ^ fixP / 2 - r) * piFix / 2 ^ fixP)

/-- sin(π a) for a = n ÷ 2^k with 0 ≤ n < 2^(k+1): sign and magnitude, or an exact value −1, 0 or 1. -/
def sinTurn (n k : Nat) : Bool × (Nat ⊕ Nat) :=
  let neg := decide (2 ^ k ≤ n)
  let n := n % 2 ^ k
  if n = 0 then (neg, .inl 0)
  else if 2 * n = 2 ^ k then (neg, .inl 1)
  else (neg, .inr (if 2 * n < 2 ^ k then sinHalf n k else sinHalf (2 ^ k - n) k))

/-- sin(π a) (R239). -/
def fsinV (rm : RMode) (ftz : Bool) (v : FVal) : Nat :=
  match v with
  | .nan | .inf _ => nanCode .f32
  | .num neg m q =>
    let k := (-q).toNat
    let n := (if 0 ≤ q then m * 2 ^ q.toNat else m) % 2 ^ (k + 1)
    match sinTurn n k with
    | (_, .inl 0) => fzero .f32 neg
    | (s, .inl _) => fencode .f32 rm ftz (neg != s) 1 0 false
    | (s, .inr x) => roundFix rm ftz (neg != s) x 0

/-- cos(π a) = sin(π (a + 1/2)) (R239). -/
def fcosV (rm : RMode) (ftz : Bool) (v : FVal) : Nat :=
  match v with
  | .nan | .inf _ => nanCode .f32
  | .num _ m q =>
    let k := max (-q).toNat 1
    let n := (if 0 ≤ q then m * 2 ^ (q.toNat + k) else m * 2 ^ (k - (-q).toNat)) + 2 ^ (k - 1)
    match sinTurn (n % 2 ^ (k + 1)) k with
    | (_, .inl 0) => 0
    | (s, .inl _) => fencode .f32 rm ftz s 1 0 false
    | (s, .inr x) => roundFix rm ftz s x 0

/-- tanh a (R239). -/
def ftanhV (rm : RMode) (ftz : Bool) (v : FVal) : Nat :=
  match v with
  | .nan => nanCode .f32
  | .inf neg => fencode .f32 rm ftz neg 1 0 false
  | .num neg m q =>
    if m = 0 then fzero .f32 neg
    else
      let x := if 0 ≤ q then m * 2 ^ q.toNat else m / 2 ^ (-q).toNat
      if 64 ≤ x then fencode .f32 rm ftz neg (2 ^ 200 - 1) (-200) true
      else
        let a2 := if 0 ≤ q then 2 * m * 2 ^ (q.toNat + fixP) else 2 * m * 2 ^ (fixP - (-q).toNat)
        let k := a2 / ln2Fix
        let r := a2 - k * ln2Fix
        let ex := 2 ^ fixP * 2 ^ fixP / expFix r / 2 ^ k
        roundFix rm ftz neg ((2 ^ fixP - ex) * 2 ^ fixP / (2 ^ fixP + ex)) 0

/-! Companding (R126 to R128) -/

/-- Entry `i` of a table: B, Y and S. -/
def ctEntry (t : List Byte) (i : Nat) : Nat × Nat × Nat :=
  let n := ofBytes ((t.drop (8 * i)).take 8)
  (bitsOf n 0 16, bitsOf n 16 16, bitsOf n 32 16)

/-- The start of segment `i`; B(16) is 0x1_0000. -/
def ctB (t : List Byte) (i : Nat) : Nat := if i = 16 then 0x10000 else (ctEntry t i).1

/-- A table is valid (R126). -/
def ctValid (t : List Byte) : Bool :=
  t.length == 128 && (ctEntry t 0).1 == 0 && (ctEntry t 0).2.1 == 0
    && (List.range 15).all (fun i => decide ((ctEntry t i).1 < (ctEntry t (i + 1)).1)
          && decide ((ctEntry t i).2.1 ≤ (ctEntry t (i + 1)).2.1))
    && (List.range 16).all (fun i => (ctEntry t i).2.2 != 0 && bitsOf (ofBytes ((t.drop (8 * i)).take 8)) 48 16 == 0)

/-- Largest index at which a monotone reading is at most `x`. -/
def ctIndex (f : Nat → Nat) (x : Nat) : Nat := maxNat ((List.range 16).filter fun i => decide (f i ≤ x))

/-- Rounds n ÷ 2^sh to an integer with its sign. -/
def roundInt (rm : RMode) (n : Int) (sh : Nat) : Int :=
  signed (decide (n < 0)) (roundShift rm (decide (n < 0)) n.natAbs sh false)

/-- The forward curve into s8 or s4 (R127). -/
def compand (t : List Byte) (mx : Nat) (rm : RMode) (s : Nat) (v : FVal) : Int :=
  let go := fun (neg : Bool) (u : Nat) =>
    let i := ctIndex (fun i => (ctEntry t i).1) u
    let e := ctEntry t i
    let y := min (e.2.1 + (u - e.1) * e.2.2 / 4096) 0xFFFF
    let c := roundInt rm (signed neg (y * mx)) 16
    if c < -(mx : Int) then -(mx : Int) else if (mx : Int) < c then mx else c
  match v with
  | .nan => 0
  | .inf neg => go neg 0xFFFF
  | .num neg m q =>
    let e := q + 127 - s + 16
    go neg (min (if 0 ≤ e then m * 2 ^ (min e.toNat 400) else m / 2 ^ (-e).toNat) 0xFFFF)

/-- The 12-bit aligned magnitude of a companded code (R128). -/
def expand (t : List Byte) (mx : Nat) (c : Int) : Nat :=
  let mg := min c.natAbs mx
  let yc := min (rneDiv (mg * 2 ^ 16) mx) 0xFFFF
  let i := ctIndex (fun i => (ctEntry t i).2.1) yc
  let e := ctEntry t i
  let u := min (e.1 + (yc - e.2.1) * 4096 / e.2.2) (ctB t (i + 1) - 1)
  min (rneDiv u 16) 4095

/-! FP32 shorthands on bit patterns -/

/-- FP32 addition of bit patterns (R268, R78). -/
def fadd32 (rm : RMode) (a b : Nat) : Nat := faddV .f32 rm false (fdecode .f32 a) (fdecode .f32 b)

/-- Magnitude of a value. -/
def FVal.abs : FVal → FVal
  | .nan => .nan
  | .inf _ => .inf false
  | .num _ m q => .num false m q

end Sys2Proof.Machine
end

