-- ==== Sys2Proof/Machine/Ops.lean ====
section
/-! DEFINITION. The shared operations: look-ups, error records, queues, taking a fault (the parked record and its task),
killing a context, and stores performed at their homes. -/

namespace Sys2Proof.Machine

/-! Look-ups -/

/-- A wave of a core by `%wave`. -/
def Mach.wave (m : Mach) (core id : Nat) : Option Wave := m.waves.find? fun w => w.core == core && w.id == id

/-- Changes one wave. -/
def Mach.updWave (m : Mach) (core id : Nat) (f : Wave → Wave) : Mach :=
  { m with waves := updWhere (fun w => w.core == core && w.id == id) f m.waves }

/-- A group of a core by `%group`. -/
def Mach.group (m : Mach) (core id : Nat) : Option Group := m.groups.find? fun g => g.core == core && g.id == id

/-- Changes one group. -/
def Mach.updGroup (m : Mach) (core id : Nat) (f : Group → Group) : Mach :=
  { m with groups := updWhere (fun g => g.core == core && g.id == id) f m.groups }

/-- Changes one lane of a wave. -/
def Wave.updLane (w : Wave) (l : Nat) (f : Lane → Lane) : Wave := { w with lanes := updAt w.lanes l f }

/-- Changes the lanes of a mask. -/
def Wave.updLanes (w : Wave) (mask : BitVec 64) (f : Lane → Lane) : Wave :=
  { w with lanes := w.lanes.mapIdx fun l x => if mask.getLsbD l then f x else x }

/-- The lanes of a wave that have not ended. -/
def Wave.alive (w : Wave) : BitVec 64 :=
  maskOf ((List.range w.lanes.length).filter fun l =>
    match (w.lanes[l]?).map Lane.st with
    | some .empty | some .ended | none => false
    | _ => true)

/-- The first group of a live lane of the wave. -/
def Wave.anyGroup (w : Wave) : Option Nat :=
  (w.lanes.find? fun l => l.st != .empty && l.st != .ended && l.group.isSome).bind Lane.group

/-- A fresh free value, and the machine with the counter advanced (log 4). -/
def Mach.fresh (m : Mach) : BitVec 64 × Mach := (Config.freeWord m.freeCount, { m with freeCount := m.freeCount + 1 })

/-- The next choice among `n`, from the list of choices; 0 when it is empty (log 3). -/
def Mach.choose (m : Mach) (n : Nat) : Nat × Mach :=
  match m.choices with
  | [] => (0, m)
  | x :: xs => (if n = 0 then 0 else x % n, { m with choices := xs })

/-- Advances `%clock` and the module's microseconds by one core cycle at the current clock in MHz (R5, R166, R436). -/
def Mach.tick (clk : Nat) (m : Mach) : Mach :=
  let f := m.usFrac + 1
  if clk ≤ f then { m with clock := m.clock + 1, usec := m.usec + 1, usFrac := 0 }
  else { m with clock := m.clock + 1, usFrac := f }

/-! Error records (R454, R455) -/

/-- An error record without SEQ and TIME (R454). -/
structure ErrRec where
  source   : Nat
  severity : Nat
  action   : Nat
  die      : Nat
  loc      : Nat
  addr     : Nat
  asid     : BitVec 16
  code     : Nat
  retries  : Nat
  synd     : Nat
  deriving DecidableEq, Repr

/-- The ring is present: ERRBASE, ERRCAP from 6 to 20, and interface 5 agreed (R439, R454). -/
def Dev.errRing (d : Dev) : Bool :=
  d.srv.errbase != 0 && decide (6 ≤ d.srv.errcap.toNat) && decide (d.srv.errcap.toNat ≤ 20)
    && decide (bitsOf d.att.ifneg.toNat 20 4 ≠ 0)

/-- The 512 bits of an error record (R454). -/
def errBits (i time : Nat) (r : ErrRec) : Nat :=
  i + 2 ^ 32 * r.source + 2 ^ 36 * r.severity + 2 ^ 38 * r.action + 2 ^ 42 * r.die + 2 ^ 48 * r.loc
    + 2 ^ 64 * r.addr + 2 ^ 128 * r.asid.toNat + 2 ^ 144 * r.code + 2 ^ 152 * r.retries + 2 ^ 160 * r.synd
    + 2 ^ 192 * (time % 2 ^ 64)

/-- Writes an error record, or counts it as dropped (R454). -/
def writeErr (d : Dev) (r : ErrRec) (m : Mach) : Mach :=
  if d.errRing then
    let i := m.errnext.toNat
    let a := d.srv.errbase.toNat + 64 * (i % 2 ^ d.srv.errcap.toNat)
    { (m.devWrite a (toBytes 64 (errBits i m.usec r))) with errnext := m.errnext + 1 }
  else if m.errdrop = 0xFFFF then m
  else { m with errdrop := m.errdrop + 1 }

/-! Queue headers (R374, R375, R381) -/

/-- A queue header as read. -/
structure QHdr where
  head  : Nat
  tail  : Nat
  cap   : Nat
  host  : Bool
  kind  : Nat
  ring  : BitVec 64
  clean : Bool
  deriving DecidableEq, Repr

/-- The fields of a header's 64 bytes (R374). -/
def hdrOf (n : Nat) : QHdr :=
  { head := bitsOf n 0 32, tail := bitsOf n 32 32, cap := bitsOf n 64 32, host := bitOf n 96, kind := bitsOf n 97 2,
    ring := BitVec.ofNat 64 (bitsOf n 128 64), clean := bitsOf n 99 29 == 0 && bitsOf n 216 296 == 0 }

/-- Reads a header in a context, by the device. -/
def readHdr (d : Dev) (m : Mach) (asid : BitVec 16) (q : BitVec 64) : Option QHdr :=
  if q.toNat % 64 ≠ 0 then none
  else match readVa d m asid q 64 true with
    | .ok bs => some (hdrOf (ofBytes bs))
    | .error _ => none

/-- CAPACITY out of range or KIND 3 (R294). -/
def QHdr.bad (h : QHdr) : Bool := h.cap == 0 || decide (2 ^ 31 < h.cap) || h.kind == 3

/-- Entries between HEAD and TAIL. -/
def QHdr.count (h : QHdr) : Nat := (h.tail + 2 ^ 32 - h.head) % 2 ^ 32

/-- Address of the slot of an index (R294, R374). -/
def QHdr.slotVa (h : QHdr) (idx : Nat) : BitVec 64 := h.ring + BitVec.ofNat 64 (32 * (idx % h.cap))

/-- Writes a header field of 4 bytes at byte `off`. -/
def setHdr (d : Dev) (m : Mach) (asid : BitVec 16) (q : BitVec 64) (off v : Nat) : Mach :=
  (writeVa d m asid (q + BitVec.ofNat 64 off) (toBytes 4 v) true).getD m

/-- Enqueues one 32-byte entry at TAIL: the index and the machine, or none when the slot cannot be written. -/
def enqueueAt (d : Dev) (m : Mach) (asid : BitVec 16) (q : BitVec 64) (h : QHdr) (entry : List Byte) :
    Option (Nat × Mach) :=
  match writeVa d m asid (h.slotVa h.tail) entry true with
  | none => none
  | some m => some (h.tail, setHdr d m asid q 4 ((h.tail + 1) % 2 ^ 32))

/-! The queue table (R378) -/

/-- Reads entry `n` of the queue table. -/
def queueEntry (d : Dev) (m : Mach) (n : Nat) : Nat := ofBytes (m.homeBytes (d.att.qtbase.toNat + 32 * n) 32)

/-- Writes QSTAT of a queue, in its entry too. -/
def setQstat (d : Dev) (n v : Nat) (m : Mach) : Mach :=
  let m := { m with disp := { m.disp with queues := updWhere (fun (q : QReg) => q.n == n) (fun q => { q with qstat := v }) m.disp.queues } }
  if bitsOf (queueEntry d m n) 128 8 = v then m
  else m.devWrite (d.att.qtbase.toNat + 32 * n + 16) (toBytes 1 v)

/-! Fault table (R156, R386) -/

/-- Default priorities of the fault codes (R156). -/
def defaultPrio (code : Nat) : Nat :=
  match code with
  | 0x01 => 5 | 0x02 => 6 | 0x03 => 5 | 0x04 => 4 | 0x10 => 7 | 0x11 => 7 | 0x20 => 3 | 0x21 => 3 | 0x30 => 6
  | 0x31 => 6 | 0x40 => 7 | 0x41 => 2 | 0x50 => 6 | 0x51 => 6 | 0x53 => 6 | 0x54 => 6 | 0x60 => 5 | 0x61 => 5
  | 0x62 => 5 | 0x70 => 7 | 0x71 => 7 | 0x72 => 4 | 0x80 => 6 | 0x81 => 6 | _ => 7

/-- An entry of the fault table: queue, launch record, priority field, budget, deadline. -/
structure FEntry where
  queue    : BitVec 64
  launch   : BitVec 64
  prio     : Nat
  budget   : Nat
  deadline : Nat
  deriving DecidableEq, Repr

/-- Reads entry `code` of a context's fault table, a word at a time (R386, R388). -/
def faultEntry (d : Dev) (m : Mach) (asid : BitVec 16) (tab : BitVec 64) (code : Nat) : FEntry :=
  let a := tab + BitVec.ofNat 64 (64 + 32 * code)
  let w2 := (readVa64 d m asid (a + 16)).toNat
  let w3 := (readVa64 d m asid (a + 24)).toNat
  { queue := readVa64 d m asid a, launch := readVa64 d m asid (a + 8), prio := bitsOf w2 0 4,
    budget := bitsOf w2 32 32, deadline := bitsOf w3 0 32 }

/-- The priority of a fault's first task: the raising word's, the table's, or the code's default (R153, R340). -/
def taskPrio (e : FEntry) (code : Nat) (above : Option Nat) : Nat :=
  match above with
  | some p => p
  | none => if e.prio = 0xF then defaultPrio code else e.prio

/-- The 32-byte task entry of a fault (R153). -/
def taskEntry (launch handle : BitVec 64) (code prio depth budget deadline : Nat) : List Byte :=
  toBytes 32 (launch.toNat + 2 ^ 64 * handle.toNat + 2 ^ 128 * code + 2 ^ 136 * prio + 2 ^ 139 * depth
    + 2 ^ 144 * budget + 2 ^ 176 * deadline)

/-! Parked records (R148 to R154, R387) -/

/-- What a fault's record says of the unit that met it. -/
structure ParkInfo where
  asid   : BitVec 16
  core   : Nat
  group  : Nat
  wave   : Nat
  depth  : Option Nat
  code   : Nat
  prio   : Option Nat
  addr   : BitVec 64
  lanes  : BitVec 64
  kind   : Nat
  tag    : Nat
  tail   : Nat
  deriving DecidableEq, Repr

/-- The 2,048 bits of a record as the device writes it (R148): `kind` holds bits 4:0, `tail` bits 288 upward. -/
def recordBits (d : Dev) (i : ParkInfo) (depth prio : Nat) (stateh : BitVec 32) : Nat :=
  i.kind + 2 ^ 5 * depth + 2 ^ 16 * i.code + 2 ^ 24 * prio + 2 ^ 32 * i.asid.toNat
    + 2 ^ 48 * d.att.modid.toNat + 2 ^ 64 * i.core + 2 ^ 72 * i.group + 2 ^ 81 * i.wave + 2 ^ 96 * i.addr.toNat
    + 2 ^ 160 * stateh.toNat + 2 ^ 192 * i.lanes.toNat + 2 ^ 256 * i.tag + 2 ^ 288 * i.tail

/-- Fields of a record read back from memory: bits `lo .. lo + n - 1`. -/
def recField (d : Dev) (m : Mach) (asid : BitVec 16) (h : BitVec 64) (lo n : Nat) : Nat :=
  match readVa d m asid h 256 true with
  | .ok bs => bitsOf (ofBytes bs) lo n
  | .error _ => 0

/-- Writes STATE of a record: 0 pending, 1 taken, 2 disposed (R148, R154). -/
def setRecState (d : Dev) (m : Mach) (asid : BitVec 16) (h : BitVec 64) (st : Nat) : Mach :=
  match readVa d m asid h 2 true with
  | .ok bs =>
    let n := ofBytes bs
    (writeVa d m asid h (toBytes 2 (n - 2 ^ 7 * bitsOf n 7 2 + 2 ^ 7 * st)) true).getD m
  | .error _ => m

/-- The entry of the parked-record table for a handle. -/
def Mach.parkedAt (m : Mach) (asid : BitVec 16) (h : BitVec 64) : Option Parked :=
  m.disp.parked.find? fun p => p.asid == asid && p.handle == h

/-- Changes the table entry of a handle. -/
def Mach.updParked (m : Mach) (asid : BitVec 16) (h : BitVec 64) (f : Parked → Parked) : Mach :=
  { m with disp := { m.disp with parked := updWhere (fun p => p.asid == asid && p.handle == h) f m.disp.parked } }

/-- Drops the table entry of a handle: the record's space returns to the parking area (R154). -/
def Mach.dropParked (m : Mach) (asid : BitVec 16) (h : BitVec 64) : Mach :=
  { m with disp := { m.disp with parked := m.disp.parked.filter fun p => !(p.asid == asid && p.handle == h) } }

/-- The record number a fault takes: ordinary at depth 0, ordinary or else reserved above (R159, R387). The choice among
the free ones is the device's. -/
def freeRecord (m : Mach) (asid : BitVec 16) (base : BitVec 64) (count depth pick : Nat) : Option Nat :=
  let used := (m.disp.parked.filter fun p => p.asid == asid).map fun p => (p.handle.toNat - base.toNat) / 256
  let start := if count = 0 then 0 else pick % count
  let ord := match firstFree used start (used.length + 1) with
    | some k => if k < count then some k else firstFree used 0 (used.length + 1)
    | none => none
  match ord with
  | some k => if k < count then some k
    else if depth = 0 then none
    else match firstFree used count (used.length + 1) with
      | some r => if r < count + 1024 then some r else none
      | none => none
  | none => none

/-! Withdrawing fault tasks (R158) -/

/-- Withdraws a task that has not been taken: LAUNCH 0 into its slot, or, where dispatch has dequeued it, its bind records
withdrawn. -/
def withdrawTask (d : Dev) (m : Mach) (t : FTask) : Mach :=
  let dequeued := m.disp.tasks.any fun k => k.ftask == some t.id
  let m1 := match (if dequeued then none else t.slot) with
    | none => m
    | some idx =>
      match readHdr d m t.asid t.queue with
      | some h => (writeVa d m t.asid (h.slotVa idx) (toBytes 8 0) true).getD m
      | none => m
  { m1 with disp := { m1.disp with
      ftasks := m1.disp.ftasks.filter fun x => x.id != t.id
      slots := m1.disp.slots.map fun s =>
        if s.state = 0 && s.kind = 1 && (m1.disp.tasks.any fun k => k.id == s.taskref && k.ftask == some t.id) then
          { s with state := 2 } else s
      tasks := m1.disp.tasks.filter fun k => k.ftask != some t.id } }

/-- Withdraws every untaken task that names a record. -/
def withdrawFor (d : Dev) (m : Mach) (asid : BitVec 16) (h : BitVec 64) : Mach :=
  (m.disp.ftasks.filter fun t => t.asid == asid && t.handle == h && !t.taken).foldl (withdrawTask d) m

/-! Killing a context (R93, R115, R393, R406) -/

/-- Decides each word that a context's threads left registered and written: lost, or written back whole (R93). -/
def loseWords (asid : BitVec 16) : List L1Word → Mach → Mach
  | [], m => m
  | x :: xs, m =>
    let m1 :=
      if x.reg && x.asid == asid then
        if x.dirty then
          let lost := Config.freeBool m.freeCount
          let m2 := { m with freeCount := m.freeCount + 1 }
          if lost then { m2 with coh := (m2.coh.vacate x.word true).dropL1 x.core x.word }
          else m2.writeBack x.word false
        else m.writeBack x.word false
      else m
    loseWords asid xs m1

/-- The code of a context state (R394). -/
def CState.code : CState → Nat
  | .nonresident => 0
  | .resident => 1
  | .draining => 2
  | .saving => 3
  | .saved => 4
  | .killed => 5

/-- The save-area header and kill report that a kill writes at its physical address (R406). -/
def killReport (c : Ctx) (cause : Nat) (entries : List (Nat × Nat × Nat)) (m : Mach) : Mach :=
  let es := entries.take 4096
  let hdr := toBytes 16 (0x56534358 + 2 ^ 32 + 2 ^ 48 * c.asid.toNat + 2 ^ 64 * 2) ++ toBytes 4 0
    ++ toBytes 8 (36864) ++ toBytes 228 0 ++ toBytes 3 (cause + 2 ^ 8 * (min entries.length 4096))
    ++ List.replicate 3837 0
  let body := (es.map fun e => toBytes 8 (e.1 + 2 ^ 8 * e.2.1 + 2 ^ 16 * e.2.2 + 2 ^ 24 * c.asid.toNat)).flatten
  (m.devWrite c.savearea.toNat hdr).devWrite (c.savearea.toNat + 4096) body

/-- Bit 63 of every join counter that the context's live tasks name (R420). -/
def killCounters (asid : BitVec 16) (m : Mach) : Mach :=
  (m.disp.tasks.filter fun t => t.asid == asid && t.jctr != 0 && !t.ended).foldl
    (fun m t =>
      let x := m.homeValue (t.jctr.toNat / 8)
      m.devWrite (t.jctr.toNat / 8 * 8) (toBytes 8 (x ||| 0x8000000000000000).toNat)) m

/-- Thaws a frozen frame. With a second buffer the storage is swapped: the reserve frame's address takes the frozen bytes
(R448). -/
def thawFrame (d : Dev) (f : Frozen) (m : Mach) : Mach :=
  let lo := fun (n : Nat) => d.srv.rsvbase.toNat + 65536 * n
  let mem := match f.second with
    | some n => (m.mem.clear (lo n) 65536).put (lo n) (f.content.offsets (65536 * f.frame) 65536)
    | none => m.mem
  { m with mem := mem, frozen := m.frozen.filter fun g => g.frame != f.frame }

/-- Thaws the frozen frames of a context (R448, R449). -/
def thawAll (d : Dev) (asid : BitVec 16) (m : Mach) : Mach :=
  (m.frozen.filter fun f => f.asid == asid).foldl (fun m f => thawFrame d f m) m

/-- Aborts the generation of a context that is cutting or draining, with its error record (R449). -/
def abortSnap (d : Dev) (asid : BitVec 16) (m : Mach) : Mach :=
  match m.ctx asid with
  | none => m
  | some c =>
    if c.snap.sstate = .idle then m
    else
      let m1 := thawAll d asid (m.updCtx asid fun c =>
        { c with snap := { c.snap with sstate := .idle, aborts := min 0xFFFF (c.snap.aborts + 1) } })
      writeErr d ⟨9, 2, 6, 0, 0, d.srv.partner.toNat, asid, 0, 0, 0⟩ m1

/-- The waves of a context whose fence or ordering access waits at the arbiter (R115). -/
def abandonedFences (asid : BitVec 16) (m : Mach) : List (Nat × Nat × Nat) :=
  let saved := ((m.ctx asid).map Ctx.waves).getD []
  ((saved ++ m.waves).filter fun w => w.asid == asid && m.coh.fences.any fun f => f.core == w.core && f.wave == w.id).map
    fun w => (0x83, w.core % 256, w.id)

/-- Writes CSTATE and FROZEN into the descriptor of a context (R394). -/
def noteCState (d : Dev) (asid : BitVec 16) (m : Mach) : Mach :=
  match m.ctx asid with
  | none => m
  | some c =>
    m.devWrite (d.ctl.ctxbase.toNat + 128 * c.idx + 64) (toBytes 1 (c.cstate.code + (if c.frozen then 8 else 0)))

/-- Takes what a context runs, waits for and has in flight out of the machine. -/
def clearCtx (c : Ctx) (m : Mach) : Mach :=
  let asid := c.asid
  let ws := c.waves ++ m.waves.filter fun w => w.asid == asid
  let gs := c.groups ++ m.groups.filter fun g => g.asid == asid
  let mineW := fun (core wave : Nat) => ws.any fun w => w.core == core && w.id == wave
  let mineG := fun (core g : Nat) => gs.any fun x => x.core == core && x.id == g
  let gone := (m.coh.held.filter fun h => mineG h.core h.group).map HeldWord.word
  let coh := { gone.foldl Coh.unhold m.coh with
    stores := m.coh.stores.filter fun s => s.asid != asid
    held := m.coh.held.filter fun h => !mineG h.core h.group
    fences := m.coh.fences.filter fun f => !mineW f.core f.wave
    checks := m.coh.checks.filter fun k => k.asid != asid
    reqs := m.coh.reqs.filter fun r => r.asid != asid
    revoked := m.coh.revoked.filter fun r => r.asid != asid
    remote := m.coh.remote.filter fun r => r.asid != asid }
  let disp := { m.disp with
    parked := m.disp.parked.filter fun p => p.asid != asid
    ftasks := m.disp.ftasks.filter fun t => t.asid != asid
    tasks := m.disp.tasks.filter fun t => t.asid != asid
    slots := m.disp.slots.filter fun s => s.asid != asid }
  { m with
    coh := coh, disp := disp
    latch := m.latch.filter fun s => match s with
      | .path core wave _ | .probe core wave _ => !mineW core wave
      | _ => true
    waves := m.waves.filter fun w => w.asid != asid
    groups := m.groups.filter fun g => g.asid != asid }

/-- Kills a context by containment (R115, R393, R406): `cause` is KCAUSE. -/
def killCtx (d : Dev) (cause : Nat) (asid : BitVec 16) (m : Mach) : Mach :=
  match m.ctx asid with
  | none => m
  | some c =>
    let report := abandonedFences asid m
    let m := abortSnap d asid m
    let m := killCounters asid m
    let m := (m.disp.parked.filter fun p => p.asid == asid).foldl (fun m p => setRecState d m asid p.handle 2) m
    let m := (m.disp.ftasks.filter fun t => t.asid == asid && !t.taken).foldl (withdrawTask d) m
    let m := clearCtx c (loseWords asid m.coh.l1 m)
    let m := m.updCtx asid fun c =>
      { c with cstate := .killed, groups := [], waves := [], killCause := cause, killList := report,
               snap := { c.snap with armed := false } }
    let m := (m.disp.queues.filter fun q => q.asid == asid).foldl (fun m q => setQstat d q.n 4 m) m
    killReport c cause report (noteCState d asid m)

/-! Taking a fault: the one shared operation (R48, R146 to R159) -/

/-- A queue that can take fault tasks, with its header (R155). -/
def usableQueue (d : Dev) (m : Mach) (asid : BitVec 16) (q : BitVec 64) : Option (BitVec 64 × QHdr) :=
  if q = 0 then none
  else match readHdr d m asid q with
    | none => none
    | some h => if h.bad || h.kind != 0 || !h.clean || h.host then none else some (q, h)

/-- The queue on which a fault task is enqueued: the handler's, else the fallback (R155). -/
def pickQueue (d : Dev) (m : Mach) (asid : BitVec 16) (q fallback : BitVec 64) : Option (BitVec 64 × QHdr) :=
  match usableQueue d m asid q with
  | some r => some r
  | none => usableQueue d m asid fallback

/-- A fault task offered to a queue: it is held where the queue is full or earlier tasks are held for it (R159), and enqueued
otherwise; none where its slot cannot be written. -/
def offerTo (d : Dev) (asid : BitVec 16) (t : FTask) (held : BitVec 64 → Bool) (m : Mach) (x : BitVec 64 × QHdr) :
    Option (FTask × Mach) :=
  if x.2.cap ≤ x.2.count || held x.1 then some ({ t with queue := x.1, slot := none }, m)
  else (enqueueAt d m asid x.1 x.2 (taskEntry t.launch t.handle t.code t.prio t.depth t.budget t.deadUs)).map fun r =>
    ({ t with queue := x.1, slot := some r.1 }, r.2)

/-- A fault task offered to its queue, or to the fallback queue where its own fails (R155). -/
def offerTask (d : Dev) (asid : BitVec 16) (t : FTask) (fb : BitVec 64) (held : BitVec 64 → Bool) (m : Mach) :
    Option (FTask × Mach) :=
  match pickQueue d m asid t.queue fb with
  | none => none
  | some x => match offerTo d asid t held m x with
    | some r => some r
    | none => if x.1 = fb then none else (usableQueue d m asid fb).bind (offerTo d asid t held m)

/-- A task of a context is held for a queue. -/
def Mach.heldFor (m : Mach) (asid : BitVec 16) (q : BitVec 64) : Bool :=
  m.disp.ftasks.any fun t => t.asid == asid && t.queue == q && t.slot.isNone && !t.taken

/-- Enqueues a fault task: in its queue, held in the stockpot when the queue is full or holds tasks back (R159), or the context
is killed when no queue takes it (R155). The deadline of a held task counts from here, not from its delivery (log 101). -/
def enqueueFault (d : Dev) (m : Mach) (asid : BitVec 16) (t : FTask) : Mach :=
  match m.ctx asid with
  | none => m
  | some c =>
    let id := m.disp.nextId
    let t := { t with id := id, deadAbs := if t.deadUs = 0 then 0 else m.usec + t.deadUs }
    match offerTask d asid t (readVa64 d m asid c.faulttab) (m.heldFor asid) m with
    | none => killCtx d 0x82 asid m
    | some (t, m) => { m with disp := { m.disp with ftasks := m.disp.ftasks ++ [t], nextId := id + 1 } }

/-- Asks the host for a page that an access parked on (R401). -/
def pageRequest (asid : BitVec 16) (code : Nat) (addr : BitVec 64) (m : Mach) : Mach :=
  if code = 0x04 then
    let page := addr.toNat / 4096
    if m.coh.reqs.any fun r => r.asid == asid && r.page == page then m
    else
      let sent := decide ((m.coh.reqs.filter PageReq.sent).length < 256)
      { m with coh := { m.coh with reqs := m.coh.reqs ++ [⟨asid, page, sent⟩] } }
  else if code = 0x02 then
    { m with coh := { m.coh with prgFail := m.coh.prgFail.filter fun r =>
        !(r.asid == asid && r.page == addr.toNat / 4096) } }
  else m

/-- The parked unit that waits on the record at a handle (R152). -/
def parkedUnit (i : ParkInfo) (unit : PUnit) (pcs : List (Nat × BitVec 64)) (depth : Nat) (handle : BitVec 64) (last : Nat) :
    Parked :=
  ⟨handle, i.asid, unit, i.code, depth, false, last, 0, pcs, [], [], BitVec.ofNat 64 i.tail, BitVec.ofNat 64 (i.tail / 2 ^ 128)⟩

/-- The task that hands the record at a handle to the handler of its code (R153 to R155). -/
def faultTask (i : ParkInfo) (e : FEntry) (prio depth : Nat) (handle : BitVec 64) : FTask :=
  ⟨0, handle, i.asid, e.queue, e.launch, i.code, prio, depth, e.budget, e.deadline, 0, none, false, coreDie i.core⟩

/-- Parks the unit on the record at a handle: writes the record, marks the unit, and enqueues the handler's task unless the
code's entry names no queue (R152 to R155). -/
def parkFault (d : Dev) (m : Mach) (i : ParkInfo) (unit : PUnit) (pcs : List (Nat × BitVec 64))
    (mark : BitVec 64 → Mach → Mach) (e : FEntry) (depth : Nat) (handle : BitVec 64) : Mach :=
  match writeVa d { m with freeCount := m.freeCount + 1 } i.asid handle
      (toBytes 256 (recordBits d i depth (taskPrio e i.code i.prio) (Config.stateHandle m.freeCount))) true with
  | none => killCtx d 0x82 i.asid m
  | some m2 =>
    let m3 := { m2 with disp := { m2.disp with
      parked := parkedUnit i unit pcs depth handle m2.disp.nextId :: m2.disp.parked } }
    let m4 := pageRequest i.asid i.code i.addr (mark handle m3)
    if e.queue = 0 then m4
    else enqueueFault d m4 i.asid (faultTask i e (taskPrio e i.code i.prio) depth handle)

/-- Takes a fault (R146 to R159): writes the parked record of the unit into a free record of the parking area, gives the
unit its handle through `mark`, and enqueues the fault task. Without a free record, above depth 3, or without a handler
where the default is to kill, the context is killed by containment. -/
def takeFault (d : Dev) (m : Mach) (i : ParkInfo) (unit : PUnit) (pcs : List (Nat × BitVec 64))
    (mark : BitVec 64 → Mach → Mach) : Mach :=
  match m.ctx i.asid with
  | none => m
  | some c =>
    let e := faultEntry d m i.asid c.faulttab i.code
    let depth := match i.depth with
      | none => 0
      | some n => n + 1
    if 3 < depth then killCtx d 0x82 i.asid m
    else if e.queue = 0 && i.code != 0x04 && i.code != 0x41 then killCtx d 0x82 i.asid m
    else
      let base := readVa64 d m i.asid (c.faulttab + 8)
      let count := bitsOf (readVa64 d m i.asid (c.faulttab + 16)).toNat 0 32
      let (pick, m) := m.choose count
      match freeRecord m i.asid base count depth pick with
      | none => killCtx d 0x82 i.asid m
      | some k => parkFault d m i unit pcs mark e depth (base + BitVec.ofNat 64 (256 * k))

/-! Stores in flight performed at their homes (R92, R106, R107, R147) -/

/-- A store record (R152). -/
def storeInfo (m : Mach) (s : Store) (code : Nat) : ParkInfo :=
  let gone := match m.wave s.core s.wave with
    | some w => w.ended
    | none => true
  { asid := s.asid, core := s.core, group := s.group.getD 0x1FF, wave := s.wave, depth := s.depth, code := code,
    prio := none, addr := s.va, lanes := s.lanes, kind := 8 + (if gone then 16 else 0),
    tag := s.tag % 2 ^ 16,
    tail := s.pc.toNat + 2 ^ 64 * s.tid.toNat + 2 ^ 96 * ofBytes s.data + 2 ^ 224 * s.data.length
      + 2 ^ 229 * s.order }

/-- Parks a store whose home has reported a fault (R147, R155). -/
def parkStore (d : Dev) (s : Store) (code : Nat) (m : Mach) : Mach :=
  takeFault d m (storeInfo m s code) (.store s.tag) [] fun h m =>
    { m with coh := { m.coh with
        stores := updWhere (fun x => x.tag == s.tag) (fun x => { x with record := some h }) m.coh.stores } }

/-- The exact integer that a type reads from a number (R203). -/
def intOf (ty : Ty) (n : Nat) : Int := if ty.signed then signedOf ty.bits n else (n % 2 ^ ty.bits : Nat)

/-- The new value of an atomic but the float add (R268). -/
def atomInt (op : AtomOp) (ty : Ty) (old b : Nat) : Nat :=
  let n := ty.bits
  let o := intOf ty old
  let x := intOf ty b
  match op with
  | .add => wrapTo n (o + x)
  | .and => (old % 2 ^ n) &&& (b % 2 ^ n)
  | .or => (old % 2 ^ n) ||| (b % 2 ^ n)
  | .xor => (old % 2 ^ n) ^^^ (b % 2 ^ n)
  | .min => wrapTo n (if o ≤ x then o else x)
  | .max => wrapTo n (if o ≤ x then x else o)
  | _ => b % 2 ^ n

/-- Bytes of a replicated page with every numbered store applied, as the sequencer sees them (R106). -/
def Mach.repBytes (m : Mach) (pa n : Nat) : List Byte :=
  let b := m.mem.readN pa n
  (List.range n).map fun i => m.coh.reps.foldl (fun x r =>
    if r.pa ≤ pa + i ∧ pa + i < r.pa + r.data.length then r.data.getD (pa + i - r.pa) 0 else x) (b.getD i 0)

/-- A page group's next store number at its sequencer (R106). -/
def Coh.nextRep (c : Coh) (g : Nat) : Nat :=
  match c.repNext.find? fun e => e.1 == g with
  | some e => e.2
  | none => 0

/-- On the home module, PEND of a page group's entry is the count of its numbered stores that are not acknowledged
(R390). -/
def repPend (d : Dev) (g : Nat) (m : Mach) : Mach :=
  if bitsOf (repEntry d m g) 16 14 = d.att.modid.toNat then
    m.devWrite (d.att.rgbase.toNat + 64 * g + 4) (toBytes 4 (m.coh.reps.filter fun r => r.group == g).length)
  else m

/-- Numbers a store to a replicated page at the sequencer (R106). -/
def sequenceStore (d : Dev) (core wave lane g pa : Nat) (bs : List Byte) (m : Mach) : Mach :=
  let n := m.coh.nextRep g
  repPend d g { m with coh := { m.coh with
      reps := m.coh.reps ++ [⟨core, wave, lane, g, n, pa, bs, []⟩]
      repNext := (g, n + 1) :: m.coh.repNext.filter fun e => e.1 != g } }

/-- The words that a surrogate group holds. -/
def Coh.heldCount (c : Coh) (core g : Nat) : Nat :=
  (c.held.filter fun h => h.core == core && h.group == g).length

/-- A wave has a lane of a path in a group. -/
def Wave.pathIn (w : Wave) (group : Nat) (p : Path) : Bool :=
  (lanesOf w.width p.mask).any fun l => (w.lanes[l]?).any fun x => x.group == some group

/-- Marks the waits on global words of a surrogate group that a store of the group ends: it sees its held values (R113,
R288). -/
def Mach.wakeHeld (m : Mach) (core group pa n : Nat) : Mach :=
  { m with waves := m.waves.map fun w =>
      if w.core = core && w.guarded then w.wakeWhere (w.pathIn group) (WaitFor.wakeBy true pa n) else w }

/-- The home sets a word to held: its line entry records the committed owner, or none where the committed value is at the
home, and an update drops the other dies' copies (R87, R102, R113). -/
def Mach.hold (m : Mach) (w : Nat) : Mach :=
  let o := (m.coh.owner w).getD noOwner
  let m := m.lineFor w
  let c := m.coh.setHome w .held (m.coh.lost w)
  let lines := updWhere (fun e => e.line == w / 8) (fun e => e.put w o) c.lines
  ({ m with coh := { c with lines := lines } } : Mach).sendUpdate (homeDie w) w none

/-- A surrogate group's store inside one word: held, refused because another group holds the word, or over the holding
budget (R113, R344). -/
def holdWord (core g : Nat) (w off : Nat) (bs : List Byte) (m : Mach) : Mach :=
  match m.group core g with
  | none => m
  | some gr =>
    if gr.overBud then m
    else
      let m := m.wakeHeld core g (8 * w + off) bs.length
      match m.coh.heldOf w with
      | some h =>
        if h.core = core && h.group = g then
          let data := mergeBytes h.data off bs
          let mask := h.mask ||| BitVec.ofNat 8 ((2 ^ bs.length - 1) * 2 ^ off)
          let held := updWhere (fun (x : HeldWord) => x.word == w) (fun x => { x with data := data, mask := mask }) m.coh.held
          { m with coh := { m.coh with held := held } }
        else (m.conflict core g).conflict h.core h.group
      | none =>
        if 32768 ≤ m.coh.heldCount core g then m.updGroup core g fun x => { x with overBud := true }
        else
          let x : HeldWord := ⟨core, g, w, mergeBytes 0 off bs, BitVec.ofNat 8 ((2 ^ bs.length - 1) * 2 ^ off)⟩
          let m := m.hold w
          { m with coh := { m.coh with held := x :: m.coh.held } }

/-- A surrogate group's store, word by word. -/
def holdBytes (core g pa : Nat) (bs : List Byte) (m : Mach) : Mach :=
  (wordPieces pa bs.length).foldl (fun m p =>
    holdWord core g p.1 p.2.1 ((bs.drop (8 * p.1 + p.2.1 - pa)).take p.2.2) m) m

/-- A store by an agent that is no surrogate group marks the group that holds a word conflicted (R113). -/
def conflictAt (pa n : Nat) (m : Mach) : Mach :=
  (wordPieces pa n).foldl (fun m p =>
    match m.coh.heldOf p.1 with
    | some h => m.conflict h.core h.group
    | none => m) m

/-- The translation of a store in flight at its home. -/
def storeHome (d : Dev) (m : Mach) (s : Store) : Except Nat Xlat :=
  translate d m (coreDie s.core) s.asid s.va .w true

/-- The bytes that a store in flight leaves at its home: its own, or for an atomic those its operation makes of the old
ones (R107, R268). -/
def Store.newBytes (s : Store) (old : List Byte) : List Byte :=
  match s.op with
  | .write => s.data
  | .atom .fadd _ b => toBytes 4 (fadd32 .rne (ofBytes old) (b.setWidth 32).toNat)
  | .atom op ty b => toBytes (ty.bits / 8) (atomInt op ty (ofBytes old) b.toNat)

/-- The parts of a store in flight, each with its virtual address, physical address and bytes. -/
def Store.pieces (s : Store) : List (BitVec 64 × Nat × List Byte) := (s.va, s.pa, s.data) :: s.more

/-- Two stores in flight touch one word. -/
def Store.touches (s x : Store) : Bool :=
  s.parts.any fun a => x.parts.any fun b =>
    decide (a.1 / 8 * 8 < b.1 + b.2.length) && decide (b.1 / 8 * 8 < a.1 + a.2.length)

/-- The host-line agent holds a host line modified after a write to it on a CXL attachment (R403). -/
def Mach.ownHostLine (d : Dev) (pa : Nat) (m : Mach) : Mach :=
  if isHost pa && d.att.mode == 1 then
    { m with coh := { m.coh with hostLines := (pa / 64, true) :: m.coh.hostLines.filter fun l => l.1 != pa / 64 } }
  else m

/-- A store to a host page of a PCIe-only attachment is not registered, nor one with the hint home, nor an atomic (R105,
R107, R262). -/
def Store.atHome (d : Dev) (s : Store) (pa : Nat) : Bool :=
  (isHost pa && d.att.mode != 1) || s.toHome || s.op != .write

/-- The AtomicOp that carries an `ATOM` over PCIe: 0 FetchAdd, 1 Swap, or none (R81, R271). -/
def atomicOpOf : AtomOp → Option Nat
  | .add => some 0
  | .xchg => some 1
  | _ => none

/-- The root complex does not complete the AtomicOp of an atomic in flight (R81). -/
def Store.rootRefuses (s : Store) : Bool :=
  match s.op with
  | .write => false
  | .atom op _ _ => !Config.rootAtomic ((atomicOpOf op).getD 0) s.data.length

/-- Performs one part of a store, or an atomic without return, at its home. The home first learns what the storing die knew,
and the acknowledgement carries back to another die what the home knows (R92, R102). -/
def performPart (d : Dev) (s : Store) (x : Xlat) (pa : Nat) (bs : List Byte) (m : Mach) : Mach :=
  let n := bs.length
  match x.home with
  | .rep g =>
    let new := if s.op == .write then bs else s.newBytes (m.repBytes pa n)
    sequenceStore d s.core s.wave s.lane g pa new m
  | _ =>
    if s.guarded then
      match s.group with
      | some g => holdBytes s.core g pa bs m
      | none => m
    else
      let home := s.atHome d pa
      let hit := !home && (wordPieces pa n).all fun p => m.coh.ownerCore p.1 == some s.core
      let die := homeDie (pa / 8)
      let m := conflictAt pa n m
      let m := if hit then m else { m with coh := m.coh.absorb die s.stamp }
      let new := if s.op == .write then bs else s.newBytes (m.homeBytes pa n)
      let m := m.writeBytes (if home then none else some ⟨s.core, s.asid, d.att.modid⟩) pa new
      let m := m.ownHostLine d pa
      let m := if home then m.dropCopies s.core pa n else m
      if hit || die = coreDie s.core then m
      else
        let ack : DieValue := ⟨die, coreDie s.core, .ack s.core s.wave s.lanes, m.coh.known die⟩
        { m with coh := { m.coh with values := m.coh.values ++ [ack] } }

/-- Performs a store, or an atomic without return, at its homes, and drops it from flight: R89 and R92 for a store, R107
for an atomic, R106 for a replicated page, R113 for a surrogate group, R446 for a frozen frame. Its parts are performed as
one unit (R111): where a home reports a fault of any, the store parks with none performed, and where one meets a frozen
frame that takes no write, the store waits. A lost word of an atomic parks the store, too (log 89). -/
def performStore (d : Dev) (s : Store) (m : Mach) : Mach :=
  let xs := s.pieces.map fun p => (translate d m (coreDie s.core) s.asid p.1 .w true, p.2)
  let gone := fun (m : Mach) => { m with coh := { m.coh with
    stores := m.coh.stores.filter fun x => x.tag != s.tag
    remote := m.coh.remote.filter fun r => r.store != s.tag } }
  let err := xs.findSome? fun p => match p.1 with
    | .ok x => if x.err.isNone && x.home == .host && d.att.mode != 1 && s.rootRefuses then some 0x02 else x.err
    | .error _ => none
  let plain := xs.filterMap fun p => match p.1 with
    | .ok ⟨_, .rep _, _, _⟩ | .error _ => none
    | .ok x => some (x, p.2)
  match err with
  | some e => parkStore d s e m
  | none =>
    if s.op != .write && plain.any fun p => (m.lostIn p.2.1 p.2.2.length).isSome then parkStore d s 0x40 m
    else
      let ready := if s.guarded then some m
        else plain.foldl (fun (o : Option Mach) p => o.bind fun m => Mach.frozenWrite d m p.2.1) (some m)
      match ready with
      | none => m
      | some m => gone (xs.foldl (fun m p => match p.1 with
          | .ok x => performPart d s x p.2.1 p.2.2 m
          | .error _ => m) m)

/-- No earlier store in flight of the same core touches a word of a store that is still to be performed: stores to one word
keep their order. A parked store holds back those of its own thread (log 91). -/
def Mach.storeClear (m : Mach) (s : Store) : Bool :=
  (m.coh.stores.any fun x => x.tag == s.tag && x.record.isNone)
    && (m.coh.stores.takeWhile fun x => x.tag != s.tag).all fun x =>
      x.core != s.core || !x.touches s || (x.record.isSome && !(x.wave == s.wave && x.lane == s.lane))

/-- Performs the store of a tag, once no earlier one to its words stands before it. -/
def performTag (d : Dev) (tag : Nat) (m : Mach) : Mach :=
  match m.coh.stores.find? fun x => x.tag == tag with
  | some s => if m.storeClear s then performStore d s m else m
  | none => m

/-- The stores that a test selects, and before each the stores of its core to its words. -/
def selectStores (p : Store → Bool) : List Store → List Store
  | [] => []
  | x :: xs =>
    let rest := selectStores p xs
    if x.record.isNone && (p x || rest.any fun y => y.core == x.core && x.touches y) then x :: rest else rest

/-- Performs, in order, the stores in flight that satisfy a test, after the earlier ones of the core to the same words. -/
def drainStores (d : Dev) (p : Store → Bool) (m : Mach) : Mach :=
  ((selectStores p m.coh.stores).map Store.tag).foldl (fun m t => performTag d t m) m

/-- Stores of a lane mask of a wave that are still in flight, parked ones included. -/
def Mach.storesOf (m : Mach) (core wave : Nat) (mask : BitVec 64) : List Store :=
  m.coh.stores.filter fun s => s.core == core && s.wave == wave && (s.lanes &&& mask) != 0

/-- The core of the store that an acknowledgement in flight answers, its wave and its lanes. -/
def DieValue.acks (v : DieValue) : Option (Nat × Nat × BitVec 64) :=
  match v.what with
  | .ack core wave lanes => some (core, wave, lanes)
  | .fill _ _ => none

/-- Acknowledgements of a lane mask of a wave that its die has not received (R92, R95, R102). -/
def Mach.acksOpen (m : Mach) (core wave : Nat) (mask : BitVec 64) : Bool :=
  m.coh.values.any fun v => v.acks.any fun k => k.1 == core && k.2.1 == wave && (k.2.2 &&& mask) != 0

/-- The die of a core receives the acknowledgements of the core's stores: it applies the writes they count, and knows what
the homes knew (R95, R102). -/
def Mach.receiveAcks (core : Nat) (m : Mach) : Mach :=
  let mine := fun (v : DieValue) => v.acks.any fun k => k.1 == core
  let c := (m.coh.values.filter mine).foldl (fun (c : Coh) v => c.absorb v.dst v.stamp) m.coh
  { m with coh := { c with values := c.values.filter fun v => !mine v } }

end Sys2Proof.Machine
end

