-- ==== Sys2Proof/Machine/Operands.lean ====
section
/-! DEFINITION. Operand forms: the issuing path and its lanes, reading and writing operands of every class, special
registers, queue windows and allotments (R35, R38, R56, R163 to R166, R230). -/

namespace Sys2Proof.Machine

/-- A lane of a wave that holds nothing. -/
def noLane : Lane :=
  { st := .empty, tid := 0, group := none, pc := 0, target := false, stack := [], v := [], c := [], e := [], p := [],
    lq := [], sq := [], arrived := [] }

/-- A lane of a wave. -/
def Wave.lane (w : Wave) (l : Nat) : Lane := w.lanes.getD l noLane

/-- The wave can issue: it holds a slot, has not ended and is neither parked nor evicted. -/
def Wave.live (w : Wave) : Bool := w.slot.isSome && w.parked.isNone && !w.evicted && !w.ended

/-- The path whose word is being performed: an issuing one, or a set-aside one whose word is tried. -/
def Mach.curPath (m : Mach) : Option (Wave × Path) :=
  match m.cur with
  | some (.path core id mask) =>
    match m.wave core id with
    | some w => if w.live then (w.paths.find? fun p => p.mask == mask).map fun p => (w, p) else none
    | none => none
  | some (.probe core id mask) =>
    match m.wave core id with
    | some w => if w.live then (w.aside.find? fun p => p.mask == mask).map fun p => (w, p) else none
    | none => none
  | _ => none

/-- The word is only tried, to learn whether the interlock of a set-aside path has cleared (R24). -/
def Mach.probing (m : Mach) : Bool :=
  match m.cur with
  | some (.probe _ _ _) => true
  | _ => false

/-- The value of a predicate in a lane; `p7` reads true (R56). -/
def Lane.pred (x : Lane) (n : Nat) : Bool := n == 7 || x.p.getD n false

/-- The lanes of a mask in which a guard holds, ascending (R163). -/
def guardLanes (w : Wave) (mask : BitVec 64) (g : Guard) : List Nat :=
  (lanesOf w.width mask).filter fun l => (w.lane l).pred g.pred.val != g.neg

/-- An issue of a word: the wave and path that issue it, and the lanes in which its guard holds. -/
structure Io where
  w   : Wave
  p   : Path
  act : List Nat
  deriving DecidableEq, Repr

/-- The group of the issuing lanes: that of the lowest one. -/
def Io.group (io : Io) : Option Nat :=
  match io.act with
  | [] => none
  | l :: _ => (io.w.lane l).group

/-- The lowest lane that acts. -/
def Io.lead (io : Io) : Nat := io.act.headD 0

/-! Special registers (R4, R17, R32, R49, R51, R160, R166, R175, R317) -/

/-- Digits that a form records (R132). -/
def AForm.code : AForm → Nat
  | .none => 0
  | .outer => 1
  | .conv => 2

/-- `%guard` of a group (R317). -/
def guardReg (g : Group) : Nat :=
  sumNat (g.accs.mapIdx fun n a =>
    (if a.val.g = 0 then 2 ^ n else 0)
      + (if a.val.g != 0 && a.val.form == .outer then 2 ^ (16 + n) else 0)
      + (if a.val.g != 0 && a.val.form == .conv then 2 ^ (32 + n) else 0)
      + (if a.val.nr != 0 || a.val.nc != 0 then 2 ^ (48 + n) else 0))

/-- The waves that a gang list names (R32). -/
def gangMembers (gang : BitVec 64) : List Nat :=
  (List.range (bitsOf gang.toNat 48 3)).map fun i => bitsOf gang.toNat (8 * i) 8

/-- `%kstat`: the mask of the gang's last sequence (R160). -/
def kstatReg (g : Group) (w : Wave) : Nat :=
  match g.seqs.find? fun q => q.gang.contains w.id && q.gang == gangMembers w.gang with
  | none => 0
  | some q => q.mask.toNat + 2 ^ 32 * q.acc + (if q.active then 2 ^ 36 else 0)

/-- The group of a lane. -/
def Mach.laneGroup (m : Mach) (w : Wave) (l : Nat) : Option Group := (w.lane l).group.bind (m.group w.core)

/-- `%ctx` (R49). -/
def ctxReg (m : Mach) (w : Wave) : Nat :=
  w.asid.toNat
    + (match m.ctx w.asid with
       | some c => if c.cstate == .draining then 2 ^ 16 else 0
       | none => 0)
    + (if w.guarded then 2 ^ 17 else 0) + (if w.shadow then 2 ^ 18 else 0)

/-- The value of special register 712 + r in a lane (R166). -/
def srVal (d : Dev) (m : Mach) (w : Wave) (l r : Nat) : Nat :=
  match r with
  | 0 => (w.lane l).tid.toNat
  | 1 => l
  | 2 => w.id
  | 3 => (w.lane l).group.getD 0x1FF
  | 4 => w.gang.toNat
  | 5 => w.core
  | 6 => coreDie w.core
  | 7 => d.att.modid.toNat
  | 8 => w.width
  | 9 => if w.guarded then w.tol.toNat else 0
  | 10 => match m.laneGroup w l with
    | some g => guardReg g
    | none => 0
  | 11 => match m.laneGroup w l with
    | some g => kstatReg g w
    | none => 0
  | 12 => m.clock.toNat
  | 13 => w.memdef.toNat
  | 14 => w.step.toNat
  | 15 => w.prio.toNat
  | 16 => ctxReg m w
  | _ => 0

/-! Reading (R164, R165) -/

/-- `k` consecutive 32-bit registers, low word first. -/
def regWords (xs : List Word) (n k : Nat) : Nat :=
  sumNat ((List.range k).map fun i => 2 ^ (32 * i) * (xs.getD (n + i) 0).toNat)

/-- The first `k` entries of a load queue that are filled, low word first. -/
def queueWords (q : List (Option Word)) (k : Nat) : Nat :=
  sumNat ((List.range k).map fun i => 2 ^ (32 * i) * ((q.getD i none).getD 0).toNat)

/-- An operand of a width in a lane, as a number. Inline constants are sign-extended to the width. -/
def readOp (d : Dev) (m : Mach) (w : Wave) (l bits : Nat) (o : Opnd) : Nat :=
  match o with
  | .v n => regWords (w.lane l).v n.val (bits / 32)
  | .c n => regWords (w.lane l).c n.val (bits / 32)
  | .e n => regWords (w.lane l).e n.val (bits / 32)
  | .q n => queueWords ((w.lane l).lq.getD n.val []) (bits / 32)
  | .s n =>
    if bits = 128 then (w.s.getD n.val 0).toNat + 2 ^ 64 * (w.s.getD (n.val + 1) 0).toNat
    else (w.s.getD n.val 0).toNat % 2 ^ bits
  | .p n => if (w.lane l).pred n.val then 1 else 0
  | .sr r => srVal d m w l r.val % 2 ^ bits
  | .imm n => wrapTo bits ((n.val : Int) - 128)

/-- An integer operand of a type in a lane (R203). -/
def readInt (d : Dev) (m : Mach) (w : Wave) (l : Nat) (ty : Ty) (o : Opnd) : Int :=
  intOf ty (readOp d m w l ty.regBits o)

/-- A wave-uniform operand, from the lowest acting lane (R331). -/
def readUni (d : Dev) (m : Mach) (io : Io) (bits : Nat) (o : Opnd) : Nat := readOp d m io.w io.lead bits o

/-- The code of a small integer in a float format: exact, or by R122 for a narrow one (R165). -/
def constCode (ft : FFmt) (n : Int) : Nat :=
  if ft.arith then fofInt ft .rne n else fnarrow ft .rne false 127 (.num (decide (n < 0)) n.natAbs 0)

/-- A float operand of a format in a lane, as its code (R230). -/
def readFloat (d : Dev) (m : Mach) (w : Wave) (l : Nat) (ft : FFmt) (o : Opnd) : Nat :=
  match o with
  | .imm n => constCode ft ((n.val : Int) - 128)
  | o => readOp d m w l 32 o % 2 ^ ffmtBits ft

/-- A packed pair of a format in a lane (R165, R241). -/
def readPair (d : Dev) (m : Mach) (w : Wave) (l : Nat) (ft : FFmt) (o : Opnd) : Nat × Nat :=
  match o with
  | .imm n => let c := constCode ft ((n.val : Int) - 128); (c, c)
  | o => let x := readOp d m w l 32 o; (bitsOf x 0 16, bitsOf x 16 16)

/-! Writing (R164, R165) -/

/-- The register writes that put a number of a width into a destination, for one lane. An s register takes all 64 bits
of the number. -/
def destWrites (l bits : Nat) (o : Opnd) (x : Nat) : List RegWrite :=
  let parts := fun (f : Nat → Dest) (n : Nat) =>
    (List.range (bits / 32)).map fun i => (⟨l, f (n + i), BitVec.ofNat 64 (bitsOf x (32 * i) 32)⟩ : RegWrite)
  match o with
  | .v n => parts .v n.val
  | .c n => parts .c n.val
  | .e n => parts .e n.val
  | .q n => (List.range (bits / 32)).map fun i => ⟨l, .q n.val, BitVec.ofNat 64 (bitsOf x (32 * i) 32)⟩
  | .s n =>
    if bits = 128 then [⟨l, .s n.val, BitVec.ofNat 64 x⟩, ⟨l, .s (n.val + 1), BitVec.ofNat 64 (x / 2 ^ 64)⟩]
    else [⟨l, .s n.val, BitVec.ofNat 64 x⟩]
  | .p n => [⟨l, .p n.val, BitVec.ofNat 64 x⟩]
  | _ => []

/-- The writes of one destination from the results of lanes in ascending order: a scalar takes the lowest lane's. -/
def laneOuts (bits : Nat) (o : Opnd) (xs : List (Nat × Nat)) : List RegWrite :=
  match o with
  | .s _ => match xs with
    | [] => []
    | x :: _ => destWrites x.1 bits o x.2
  | _ => (xs.map fun x => destWrites x.1 bits o x.2).flatten

/-- The writes of a predicate from the results of lanes. -/
def predOuts (n : Nat) (xs : List (Nat × Bool)) : List RegWrite :=
  xs.map fun x => ⟨x.1, .p n, if x.2 then 1 else 0⟩

/-- An integer result of a type at a destination: extended from the type's width (R203). -/
def intRes (ty : Ty) (x : Int) : Nat := wrapTo 64 (intOf ty (wrapTo ty.bits x))

/-- One write to a lane. A write to `p7` is discarded (R164); a queue destination pushes (R38). -/
def Lane.put (x : Lane) (dst : Dest) (val : BitVec 64) : Lane :=
  match dst with
  | .v n => { x with v := x.v.set n (val.setWidth 32) }
  | .c n => { x with c := x.c.set n (val.setWidth 32) }
  | .e n => { x with e := x.e.set n (val.setWidth 32) }
  | .q n => { x with sq := updAt x.sq n fun q => q ++ [val.setWidth 32] }
  | .p n => if n = 7 then x else { x with p := x.p.set n (val.getLsbD 0) }
  | .s _ => x

/-- One write to a wave. -/
def Wave.put (w : Wave) (r : RegWrite) : Wave :=
  match r.dst with
  | .s n => { w with s := w.s.set n r.val }
  | dst => w.updLane r.lane fun x => x.put dst r.val

/-- Writes in order. -/
def Wave.puts (w : Wave) (rs : List RegWrite) : Wave := rs.foldl Wave.put w

/-! Allotments (R35) -/

/-- Registers 32 bits wide that a width takes. -/
def wordsOf (bits : Nat) : Nat := max 1 (bits / 32)

/-- An operand names a register above its class's allotment. Queue registers exist beside a shadow wave only (R37). -/
def unallotted (w : Wave) (l : Nat) (o : Opnd × Nat) : Bool :=
  let x := w.lane l
  match o.1 with
  | .v n => decide (x.v.length < n.val + wordsOf o.2)
  | .c n => decide (x.c.length < n.val + wordsOf o.2)
  | .e _ => false
  | .q _ => !w.shadow && w.partner.isNone
  | .s n => decide (w.s.length < n.val + (if o.2 = 128 then 2 else 1))
  | .p n => n != 7 && decide (x.p.length ≤ n.val)
  | .sr _ | .imm _ => false

/-- A predicate above the allotment. -/
def unallottedP (w : Wave) (l n : Nat) : Bool := n != 7 && decide ((w.lane l).p.length ≤ n)

/-! Queue windows (R38, R165) -/

/-- Entries that the sources of a word pop from queue n. Sources that name the same queue pop once. -/
def popsOf (srcs : List (Opnd × Nat)) (n : Nat) : Nat :=
  maxNat (srcs.map fun o => match o.1 with
    | .q k => if k.val = n then wordsOf o.2 else 0
    | _ => 0)

/-- Entries that the destinations of a word push onto queue n. -/
def pushesOf (dsts : List (Opnd × Nat)) (n : Nat) : Nat :=
  sumNat (dsts.map fun o => match o.1 with
    | .q k => if k.val = n then wordsOf o.2 else 0
    | _ => 0)

/-- A word waits on the queue window: an acting lane's load queue lacks a filled entry, or its store queue room. -/
def queueStall (w : Wave) (act : List Nat) (srcs dsts : List (Opnd × Nat)) : Bool :=
  act.any fun l =>
    let x := w.lane l
    (List.range 12).any fun n =>
      let k := popsOf srcs n
      let q := x.lq.getD n []
      decide (q.length < k) || (q.take k).any Option.isNone
        || decide (16 < (x.sq.getD n []).length + pushesOf dsts n)

/-- A load queue named as a source is empty, and the shadow wave that fills it has exited: its number (R40). -/
def queueDead (m : Mach) (w : Wave) (act : List Nat) (srcs : List (Opnd × Nat)) : Option (Nat × List Nat) :=
  let gone := match w.partner with
    | some id => match m.wave w.core id with
      | some s => s.ended
      | none => true
    | none => false
  if !gone then none
  else ((List.range 12).find? fun n =>
      act.any fun l => decide (((w.lane l).lq.getD n []).length < popsOf srcs n)).map fun n =>
    (n, act.filter fun l => decide (((w.lane l).lq.getD n []).length < popsOf srcs n))

/-- Pops the entries that a word's sources took. -/
def Wave.popQueues (w : Wave) (act : List Nat) (srcs : List (Opnd × Nat)) : Wave :=
  w.updLanes (maskOf act) fun x => { x with lq := x.lq.mapIdx fun n q => q.drop (popsOf srcs n) }

end Sys2Proof.Machine
end

