-- ==== Sys2Proof/Machine/Flags.lean ====
section
/-! DEFINITION. Predicates as results: integer conditions, carries and borrows, and the counts of bits (R188, R206,
R211, R216, R217). The machine keeps no other flags (R118). -/

namespace Sys2Proof.Machine

/-- The condition of `CMP` on two integers (R188, R216). -/
def condHolds (c : Cond) (a b : Int) : Bool :=
  match c with
  | .eq => a == b
  | .ne => a != b
  | .lt => decide (a < b)
  | .le => decide (a ≤ b)
  | .gt => decide (b < a)
  | .ge => decide (b ≤ a)

/-- Sum with carry in, and carry out (R206). -/
def addCarry (n : Nat) (a b : Nat) (cin : Bool) : Nat × Bool :=
  let s := a + b + (if cin then 1 else 0)
  (s % 2 ^ n, decide (2 ^ n ≤ s))

/-- Difference with borrow in, and borrow out (R206). -/
def subBorrow (n : Nat) (a b : Nat) (bin : Bool) : Nat × Bool :=
  let s : Int := (a : Int) - b - (if bin then 1 else 0)
  (wrapTo n s, decide (s < 0))

/-- Number of one bits among the low n (R211). -/
def popCount (n a : Nat) : Nat := ((List.range n).filter fun i => bitOf a i).length

/-- Zero bits above the highest one bit of n (R211). -/
def countLead (n a : Nat) : Nat := n - bitLen (a % 2 ^ n)

/-- Zero bits below the lowest one bit of n (R211). -/
def countTrail (n a : Nat) : Nat := ((List.range n).find? fun i => bitOf a i).getD n

/-- The n bits in reverse order (R211). -/
def bitReverse (n a : Nat) : Nat := sumNat ((List.range n).map fun i => if bitOf a (n - 1 - i) then 2 ^ i else 0)

end Sys2Proof.Machine
end

