-- ==== Sys2Proof/Machine/Issue.lean ====
section
/-! DEFINITION. Issuing a word: the faults that precede its effect, interlocks, lookahead windows, per-lane faults, the
advance of its path, and the single-step trap (R11, R18, R21 to R24, R38, R48, R51, R163, R168, R169, R189, R190,
R263). -/

namespace Sys2Proof.Machine

/-- What the encoding of a word says of its issue: its guard, its lookahead when it is long-latency, the operands it
reads and writes with their widths, the predicates it names, further operands that an outstanding result may stand in
(R21), an encoding breach that depends on the wave, and whether it
waits for the path's earlier accesses to be performed. `denied` is the address that fault 0x51 records of a word that its
wave may not issue (R190). -/
structure WordInfo where
  instr : Instr
  guard : Guard
  la    : Option Nat
  srcs  : List (Opnd × Nat)
  dsts  : List (Opnd × Nat)
  preds : List Nat
  touch : List (Opnd × Nat)
  bad   : Bool
  rel   : Bool
  denied : Option (BitVec 64) := none
  deriving DecidableEq, Repr

/-- Words that the issue unit counts toward the limit of R18. -/
def WordInfo.len (i : WordInfo) : Nat := if (prefixIn i.instr).isSome then 2 else 1

/-- The effect of a word: the machine with its accesses performed, its register writes, the lanes that fault (R11), a
fault of the whole word with the lanes and the PCF it records, an interlock, the wait it starts as a segment-final instruction, the
outstanding operation whose home has met a fault, the accumulators that its lookahead window holds back, and the tiles and
accumulators that an interlock waits on. -/
structure Eff where
  m     : Mach
  outs  : List RegWrite
  flts  : List (Nat × Flt)
  whole : Option Flt
  named : List Nat
  after : Bool
  prio  : Option Nat
  stall : Bool
  fin   : Option WaitFor
  defer : Option (Flt × List DefItem)
  accs  : Option (Nat × List Nat)
  lock  : Option Interlock
  deriving DecidableEq, Repr

/-- An effect that only writes registers. -/
def Eff.ok (m : Mach) (outs : List RegWrite) : Eff :=
  { m := m, outs := outs, flts := [], whole := none, named := [], after := false, prio := none, stall := false, fin := none,
    defer := none, accs := none, lock := none }

/-- A fault of the whole word. -/
def Eff.fault (m : Mach) (code : Nat) (addr : BitVec 64) : Eff := { Eff.ok m [] with whole := some ⟨code, addr⟩ }

/-- An interlock: the word does not issue, and its path waits. -/
def Eff.wait (m : Mach) : Eff := { Eff.ok m [] with stall := true }

/-- An interlock on tiles of the path's group (R66, R67). -/
def Eff.waitTiles (m : Mach) (ts : List Nat) : Eff := { Eff.wait m with lock := some ⟨ts, [], false⟩ }

/-- An interlock on a sequence that uses an accumulator of the path's group (R155, R318). -/
def Eff.waitAcc (m : Mach) (k : Nat) : Eff := { Eff.wait m with lock := some ⟨[], [k], false⟩ }

/-! Registers that operands share -/

/-- Class and first and last register of an operand. -/
def opndSpan (o : Opnd × Nat) : Nat × Nat × Nat :=
  match o.1 with
  | .v n => (0, n.val, n.val + wordsOf o.2)
  | .c n => (1, n.val, n.val + wordsOf o.2)
  | .e n => (2, n.val, n.val + wordsOf o.2)
  | .q n => (3, n.val, n.val + 1)
  | .s n => (4, n.val, n.val + (if o.2 = 128 then 2 else 1))
  | .p n => (5, n.val, n.val + 1)
  | .sr n => (6, n.val, n.val)
  | .imm n => (7, n.val, n.val)

/-- Two operands share a register. -/
def opndMeets (a b : Opnd × Nat) : Bool :=
  let x := opndSpan a
  let y := opndSpan b
  x.1 == y.1 && decide (x.2.1 < y.2.2) && decide (y.2.1 < x.2.2)

/-- The destinations of an outstanding operation. -/
def DefKind.dests : DefKind → List (Opnd × Nat)
  | .load sz dst => [(dst, sz.regBits)]
  | .pair dst | .block dst => [(dst, 128)]
  | .atom _ ty _ dst => [(dst, ty.regBits)]
  | .cas bytes _ _ dst => [(dst, max 32 (8 * bytes))]
  | .mx _ _ _ _ dst => [(dst, 32)]
  | .cmp p _ _ _ | .bit p => [(.p p, 1)]
  | .enq d _ _ _ => [(.p d, 1)]
  | .qinfo _ dst => [(dst, 32)]
  | .deq s4 pr => [(.s (Fin.ofNat 64 (4 * s4.val)), 128), (.s (Fin.ofNat 64 (4 * s4.val + 2)), 128), (.p pr, 1)]
  | _ => []

/-! Paths -/

/-- Changes the issuing path of a mask. -/
def Mach.updPath (m : Mach) (core wave : Nat) (mask : BitVec 64) (f : Path → Path) : Mach :=
  m.updWave core wave fun w => { w with paths := updWhere (fun p => p.mask == mask) f w.paths }

/-- A register that no lane owns. -/
def Dest.scalar : Dest → Bool
  | .s _ => true
  | _ => false

/-- The results of a long-latency word have landed: an outstanding operation issued before it no longer writes them
(R168). -/
def Wave.supersede (w : Wave) (born : Nat) (outs : List RegWrite) : Wave :=
  { w with deferred := w.deferred.map fun x =>
      if x.born < born then
        { x with items := x.items.map fun i =>
            { i with newer := i.newer ++ (outs.filter fun o => o.lane == i.lane || o.dst.scalar).map RegWrite.dst } }
      else x }

/-- Writes the results of windows, in program order. -/
def Wave.land (w : Wave) (xs : List Window) : Wave := xs.foldl (fun w x => (w.puts x.writes).supersede x.born x.writes) w

/-- Writes the results of the windows that have ended. -/
def settleWindows (w : Wave) (p : Path) : Wave × Path :=
  (w.land (p.windows.filter fun x => x.left == 0), { p with windows := p.windows.filter fun x => x.left != 0 })

/-- Writes the results of every window of a path, ended or not (R20, R168: the window ends at the trailer). -/
def closeWindows (w : Wave) (p : Path) : Wave × Path := (w.land p.windows, { p with windows := [] })

/-- Settles the ended windows of the path that issues. -/
def settlePath (m : Mach) (w : Wave) (p : Path) : Mach :=
  let r := settleWindows w p
  m.updWave w.core w.id fun _ => { r.1 with paths := updWhere (fun q => q.mask == p.mask) (fun _ => r.2) w.paths }

/-- Closes every window of the path that issues. -/
def closePath (m : Mach) (w : Wave) (p : Path) : Mach :=
  let r := closeWindows w p
  m.updWave w.core w.id fun _ => { r.1 with paths := updWhere (fun q => q.mask == p.mask) (fun _ => r.2) w.paths }

/-! Parking a wave (R48, R148, R149, R458) -/

/-- Where a lane of a wave stands: at its path's word, or at its own address. -/
def Wave.lanePc (w : Wave) (l : Nat) : BitVec 64 :=
  let ps := w.paths ++ w.aside ++ w.resume ++ w.waits.map Waiting.path
  match ps.find? fun p => p.mask.getLsbD l with
  | some p => p.pc
  | none => (w.lane l).pc

/-- Drops the latch entries of a wave. -/
def Mach.unlatch (m : Mach) (core wave : Nat) : Mach :=
  { m with latch := m.latch.filter fun s => match s with
      | .path c w _ | .probe c w _ => !(c == core && w == wave)
      | _ => true }

/-- Settles the ended windows of every path of a wave: their results have landed when it parks. -/
def Wave.settled (w : Wave) : Wave :=
  let ps := w.paths ++ w.aside ++ w.resume ++ w.waits.map Waiting.path
  let ended := (ps.map fun p => p.windows.filter fun x => x.left == 0).flatten
  let cut := fun (p : Path) => { p with windows := p.windows.filter fun x => x.left != 0 }
  { (w.land ended) with
    paths := w.paths.map cut, aside := w.aside.map cut, resume := w.resume.map cut,
    waits := w.waits.map fun x => { x with path := cut x.path } }

/-- The paths of a lane mask wait at no interlock. -/
def Wave.unlock (w : Wave) (mask : BitVec 64) : Wave :=
  let free := updWhere (fun p : Path => p.mask == mask) fun p => { p with stall := 0, lock := none, retry := false }
  { w with paths := free w.paths, aside := free w.aside, resume := free w.resume }

/-- Parks a wave: `mask` the lanes that stand at the word, `maskf` those of the faulting path, `pcf` and `segw` where it
stands, `lanes` the lanes the record names. -/
def parkWave (d : Dev) (m : Mach) (w : Wave) (mask maskf : BitVec 64) (pcf : BitVec 64) (segw : Nat)
    (lanes : BitVec 64) (f : Flt) (prio : Option Nat) : Mach :=
  let other := w.paths.find? fun q => q.mask != mask
  let pco := match other with
    | some q => q.pc
    | none => 0
  let masko := match other with
    | some q => q.mask
    | none => 0
  let group := match (lanesOf w.width lanes).head? with
    | some l => ((w.lane l).group).getD 0x1FF
    | none => (w.anyGroup).getD 0x1FF
  let info : ParkInfo :=
    { asid := w.asid, core := w.core, group := group, wave := w.id,
      depth := if w.record.isSome then some w.depth else none, code := f.code, prio := prio, addr := f.addr,
      lanes := lanes, kind := 0, tag := 0,
      tail := pcf.toNat + 2 ^ 64 * maskf.toNat + 2 ^ 128 * pco.toNat + 2 ^ 192 * masko.toNat
        + 2 ^ 256 * w.alive.toNat + 2 ^ 320 * segw }
  let pcs := (List.range w.lanes.length).map fun l => (l, if mask.getLsbD l then pcf else w.lanePc l)
  takeFault d m info (.wave w.core w.id) pcs fun h m =>
    let mine := fun (g : Group) => g.core == w.core && g.dissolve.any fun x => x.1 == w.id
    let m := { m with groups := updWhere mine (fun g => { g with dissolve := none }) m.groups }
    (m.unlatch w.core w.id).updWave w.core w.id fun w => { (w.settled.unlock mask) with parked := some h, slot := none }

/-- Marks the record of a wave that stands at the word after the raising one (R306, R340). -/
def markBack (core wave : Nat) (m : Mach) : Mach :=
  match m.wave core wave with
  | some w => match w.parked with
    | some h => m.updParked w.asid h fun p => { p with back := true }
    | none => m
  | none => m

/-- Parks the wave of an issuing path at its word. -/
def parkAt (d : Dev) (m : Mach) (w : Wave) (p : Path) (lanes : BitVec 64) (f : Flt) : Mach :=
  parkWave d m w p.mask p.mask p.pc p.seg lanes f none

/-- The lanes that the record of a whole word's fault names (R458). -/
def Io.faultLanes (io : Io) : BitVec 64 := if io.act.isEmpty then io.p.mask else maskOf io.act

/-! Faults before the effect -/

/-- The operands that a word names, its predicates and its guard among them. -/
def WordInfo.names (info : WordInfo) : List (Opnd × Nat) :=
  info.srcs ++ info.dsts ++ info.touch
    ++ ((info.guard.pred.val :: info.preds).filter fun n => n != 7).map fun n => (Opnd.p (Fin.ofNat 8 n), 1)

/-- A word must wait for an outstanding operation of its path: it waits for the path's earlier accesses to be performed, or
stands beyond the operation's window and names its destination (R21, R263). -/
def Deferred.needed (x : Deferred) (io : Io) (info : WordInfo) : Bool :=
  (x.mask &&& io.p.mask) != 0
    && (info.rel || (x.left == 0 && x.items.any fun i => i.kind.dests.any fun a => info.names.any (opndMeets a)))

/-- A lane of an outstanding operation lies on the issuing path, and the fault has been reported or must be raised at
this word (R263). -/
def Deferred.due (x : Deferred) (io : Io) (info : WordInfo) : Bool :=
  !x.raised && !x.again && ((x.reported && (x.mask &&& io.p.mask) != 0) || x.needed io info)

/-- A word waits for an operation that `PRETRY` has reissued and that is still to be performed (R21, R263). -/
def Io.retryWait (io : Io) (info : WordInfo) : Bool := io.w.deferred.any fun x => x.again && x.needed io info

/-- The lanes that faulted in an outstanding operation (R458). -/
def Deferred.lanes (x : Deferred) : BitVec 64 := maskOf ((x.items.filter DefItem.bad).map DefItem.lane)

/-- The deferred fault that the issuing path raises at this word. -/
def Io.deferred (io : Io) (info : WordInfo) : Option Deferred := io.w.deferred.find? fun x => x.due io info

/-- Marks an outstanding operation as the fault of the wave's record. -/
def raiseDeferred (m : Mach) (w : Wave) (x : Deferred) : Mach :=
  m.updWave w.core w.id fun w => { w with deferred := updWhere (fun y => y == x) (fun y => { y with raised := true }) w.deferred }

/-- Some operand is a queue register. -/
def namesQueue (ops : List (Opnd × Nat)) : Bool :=
  ops.any fun o => match o.1 with
    | .q _ => true
    | _ => false

/-- The offending word of an illegal encoding that depends on the path or the wave: a word past the 24th (R18), a word
after a segment-final one (R23), a queue operand in a shadow wave (R38), or a breach that the word's entry names. -/
def Io.illegal (io : Io) (info : WordInfo) : Option (BitVec 64) :=
  let own := BitVec.ofNat 64 ((instrWord info.instr).getD 0)
  let first := match prefixIn info.instr with
    | some p => BitVec.ofNat 64 (prefixWord p)
    | none => own
  if 24 ≤ io.p.seg || io.p.fin.isSome then some first
  else if 24 < io.p.seg + info.len || info.bad || (io.w.shadow && namesQueue (info.srcs ++ info.dsts)) then some own
  else none

/-- The lanes that name a register above their allotment: every lane of the path where the guard is one, and else the
acting lanes that name one as an operand (R35). -/
def Io.overAllot (io : Io) (info : WordInfo) : List Nat :=
  (lanesOf io.w.width io.p.mask).filter fun l =>
    unallottedP io.w l info.guard.pred.val
      || (io.act.contains l && ((info.srcs ++ info.dsts).any (unallotted io.w l) || info.preds.any (unallottedP io.w l)))

/-! The word -/

/-- Entries of a window that a later write of a long-latency word replaces (R168). -/
def Window.without (x : Window) (outs : List RegWrite) : Window :=
  { x with writes := x.writes.filter fun r => !(outs.any fun o => o.dst == r.dst && (o.lane == r.lane ||
      (match o.dst with
       | .s _ => true
       | _ => false))) }

/-- Keeps the writes of a window for the lanes of a mask, and those to scalars. -/
def Window.only (x : Window) (mask : BitVec 64) : Window :=
  { x with writes := x.writes.filter fun r => mask.getLsbD r.lane || (match r.dst with
      | .s _ => true
      | _ => false) }

/-- The windows of a path after a word: one word less to issue in each, and the word's own window when its lookahead is
not zero (R168). -/
def nextWindows (born : Nat) (p : Path) (info : WordInfo) (e : Eff) : List Window :=
  let old := p.windows.map fun x => { x with left := x.left - 1 }
  match info.la with
  | none => old
  | some n =>
    let old := old.map fun x => if n ≤ x.left then x.without e.outs else x
    if n = 0 then old
    else old ++ [⟨n, born, e.outs, e.accs.map Prod.fst, (e.accs.map Prod.snd).getD [], []⟩]

/-- Whether a word's results take effect at once, and not at the end of a window. -/
def WordInfo.atOnce (info : WordInfo) : Bool :=
  match info.la with
  | none => true
  | some n => n == 0

/-- The segment-final words (R23). -/
def segFinal : Instr → Bool
  | .waitw .. | .pollb .. | .nap .. | .yield .. | .bar .. | .barw .. | .twait .. | .cupwt .. | .grow .. => true
  | _ => false

/-- What a path waits for after a word: a segment-final word that waits for nothing is done (R23). -/
def finAfter (info : WordInfo) (e : Eff) : Option WaitFor :=
  match e.fin with
  | some f => some f
  | none => if segFinal info.instr then some .done else none

/-- The path after a word that it has issued (R18, R23, R168). -/
def Path.advance (born : Nat) (p : Path) (info : WordInfo) (e : Eff) : Path :=
  { p with pc := p.pc + BitVec.ofNat 64 (8 * info.len), seg := p.seg + info.len, fin := finAfter info e, stall := 0, lock := none,
           retry := false, windows := nextWindows born p info e }

/-- The scalars that an operation writes. -/
def DefKind.scalars (k : DefKind) : List Dest :=
  (k.dests.map fun a => match a.1 with
    | .s n => [Dest.s n.val, Dest.s (n.val + 1)]
    | _ => []).flatten

/-- An outstanding operation whose home has met a fault (R263). A scalar destination takes the result of the lowest acting
lane alone (R164). -/
def deferOf (w : Wave) (io : Io) (info : WordInfo) (e : Eff) : List Deferred :=
  match e.defer with
  | none => []
  | some (f, items) =>
    let items := items.map fun i => if i.lane = io.lead then i else { i with newer := i.newer ++ i.kind.scalars }
    [⟨maskOf (items.map DefItem.lane), f, io.p.pc, items, info.la.getD 0, false, false, false, w.issueNo⟩]

/-- One word less in the window of every outstanding operation of a path. -/
def tickDeferred (mask : BitVec 64) (xs : List Deferred) : List Deferred :=
  xs.map fun x => if (x.mask &&& mask) != 0 then { x with left := x.left - 1 } else x

/-- The lanes of an outstanding operation that a test selects, as an operation of their own. -/
def Deferred.part (x : Deferred) (f : Nat → Bool) (left : Nat) : List Deferred :=
  let items := x.items.filter fun i => f i.lane
  if items.isEmpty then [] else [{ x with items := items, mask := maskOf (items.map DefItem.lane), left := left }]

/-- The operation is one of its whole path: a queue word. -/
def Deferred.shared (x : Deferred) : Bool := x.items.any fun i => match i.kind with
  | .bit _ | .enq _ _ _ _ | .deq _ _ => true
  | _ => false

/-- Splits the outstanding operations of a path whose lanes part at a word: those lanes that have completed the word have one
word less to issue (R169). An operation of the whole path stays one. -/
def splitDeferred (mask good : BitVec 64) (xs : List Deferred) : List Deferred :=
  (xs.map fun x => if (x.mask &&& mask) = 0 then [x]
    else if x.shared then [{ x with left := x.left - 1 }]
    else x.part good.getLsbD (x.left - 1) ++ x.part (fun l => !good.getLsbD l) x.left).flatten

/-- The writes of a word in which a lane met a fault: a scalar takes the result of the lowest acting lane, or none
(R11, R164). -/
def Eff.landing (e : Eff) (lead : Nat) : List RegWrite :=
  if e.flts.isEmpty && e.defer.isNone then e.outs else e.outs.filter fun o => !o.dst.scalar || o.lane == lead

/-- The wave after a word of a path that no lane faulted in: queues popped, results written or held back, the path
advanced, the count of R341 one higher. -/
def Wave.issued (w : Wave) (io : Io) (info : WordInfo) (e : Eff) : Wave :=
  let w := w.popQueues io.act info.srcs
  let w := if info.atOnce then w.puts e.outs else w
  let w := if info.la = some 0 then w.supersede w.issueNo e.outs else w
  { w with
    paths := updWhere (fun p => p.mask == io.p.mask) (fun p => p.advance w.issueNo info e) w.paths
    deferred := tickDeferred io.p.mask w.deferred ++ deferOf w io info e
    issueNo := w.issueNo + 1
    ckCount := match info.instr with
      | .ckpt _ _ => w.ckCount
      | _ => min 33 (w.ckCount + 1) }

/-- The wave after a word in which some lanes faulted: the other lanes have completed it and go on after it when the
wave resumes; the faulting lanes stand at it (R11, R48). -/
def Wave.issuedPart (w : Wave) (io : Io) (info : WordInfo) (e : Eff) (bad : BitVec 64) : Wave :=
  let good := io.p.mask &&& ~~~bad
  let w := w.popQueues (io.act.filter fun l => good.getLsbD l) info.srcs
  let w := if info.atOnce then w.puts e.outs else w
  let w := if info.la = some 0 then w.supersede w.issueNo e.outs else w
  let rest := { io.p.advance w.issueNo info e with
    mask := good, windows := (nextWindows w.issueNo io.p info e).map fun x => x.only good }
  let stay := { io.p with mask := bad, windows := io.p.windows.map fun x => x.only bad }
  { w with
    paths := updWhere (fun p => p.mask == io.p.mask) (fun _ => stay) w.paths
    resume := if good = 0 then w.resume else w.resume ++ [rest]
    deferred := splitDeferred io.p.mask good w.deferred ++ deferOf w io info e
    issueNo := w.issueNo + 1
    ckCount := if good = 0 then w.ckCount else min 33 (w.ckCount + 1) }

/-- The single-step trap after an issue unit: the wave parks with PCF at the next word, or, where the fault table names
no queue, STEP is cleared and the wave goes on (R51, R156). -/
def stepTrap (d : Dev) (m : Mach) (core wave : Nat) (mask : BitVec 64) (pc : BitVec 64) (seg : Nat) : Mach :=
  match m.wave core wave with
  | none => m
  | some w =>
    let tab := match m.ctx w.asid with
      | some c => c.faulttab
      | none => 0
    if (faultEntry d m w.asid tab 0x70).queue = 0 then
      m.updWave core wave fun w => { w with step := w.step &&& ~~~1 }
    else parkWave d m w mask mask pc seg mask ⟨0x70, 0⟩ none

/-- Puts the effect of a word into the machine. -/
def finishWord (d : Dev) (io : Io) (info : WordInfo) (e : Eff) : Mach :=
  let e := { e with outs := e.landing io.lead }
  match e.flts with
  | [] =>
    let m := e.m.updWave io.w.core io.w.id fun w => w.issued io info e
    if io.w.step.getLsbD 0 then
      stepTrap d m io.w.core io.w.id io.p.mask (io.p.pc + BitVec.ofNat 64 (8 * info.len)) (io.p.seg + info.len)
    else m
  | (_, f) :: _ =>
    let bad := maskOf (e.flts.map Prod.fst)
    let m := e.m.updWave io.w.core io.w.id fun w => w.issuedPart io info e bad
    match m.wave io.w.core io.w.id with
    | none => m
    | some w => parkWave d m w bad io.p.mask io.p.pc io.p.seg bad f none

/-- The path waits at an interlock (R24); the cycles of its wait are counted as they pass. -/
def stallPath (m : Mach) (io : Io) (lock : Option Interlock) : Mach :=
  m.updPath io.w.core io.w.id io.p.mask fun p => { p with stall := max 1 p.stall, lock := lock, retry := false }

/-- What the path waited on at its interlock has gone: a tile of it was abandoned, or a sequence that it read was killed
(R67, R155). -/
def Io.gone (io : Io) : Bool := io.p.lock.any Interlock.gone

/-- A wave's unanswered entries leave the rendezvous latches of its core. -/
def Mach.leaveLatch (m : Mach) (core wave : Nat) : Mach :=
  { m with groups := m.groups.map fun g =>
      if g.core = core then { g with latch := g.latch.filter fun e => e.wave != wave || e.out.isSome } else g }

/-- The faults of a word that precede its effect, with the machine that parks its wave; none when there is none. -/
def preFault (d : Dev) (m : Mach) (io : Io) (info : WordInfo) : Option Mach :=
  match io.deferred info with
  | some x => some (parkAt d (raiseDeferred m io.w x) io.w io.p x.lanes x.flt)
  | none =>
    if io.gone then some (parkAt d (m.leaveLatch io.w.core io.w.id) io.w io.p io.faultLanes ⟨0x60, 0⟩)
    else match io.illegal info with
    | some word => some (parkAt d m io.w io.p io.faultLanes ⟨0x50, word⟩)
    | none =>
      match info.denied with
      | some a => some (parkAt d m io.w io.p io.faultLanes ⟨0x51, a⟩)
      | none =>
        match io.overAllot info with
        | l :: ls => some (finishWord d io info { Eff.ok m [] with flts := (l :: ls).map fun l => (l, ⟨0x54, 0⟩) })
        | [] => match queueDead m io.w io.act info.srcs with
          | some (n, _) => some (parkAt d m io.w io.p io.faultLanes ⟨0x60, BitVec.ofNat 64 n⟩)
          | none => none

/-- The issue of a word after the faults and the queue interlock that precede its effect. -/
def runBody (d : Dev) (io : Io) (info : WordInfo) (e : Eff) : Mach :=
  if e.stall then stallPath e.m io e.lock
  else match e.whole with
    | some f =>
      let lanes := if e.named.isEmpty then io.faultLanes else maskOf e.named
      if e.after then
        let m := e.m.updWave io.w.core io.w.id fun w => w.issued io info (Eff.ok e.m [])
        match m.wave io.w.core io.w.id with
        | none => m
        | some w => markBack w.core w.id
            (parkWave d m w io.p.mask io.p.mask (io.p.pc + 8) (io.p.seg + 1) lanes f e.prio)
      else parkWave d e.m io.w io.p.mask io.p.mask io.p.pc io.p.seg lanes f e.prio
    | none => finishWord d io info e

/-- Issues a word on the path that `cur` selects. A word that no path issues does nothing (R189). -/
def performWord (d : Dev) (m : Mach) (info : WordInfo) (body : Mach → Io → Eff) : Mach :=
  match m.curPath with
  | none => m
  | some (w0, p0) =>
    let m := settlePath m w0 p0
    match m.curPath with
    | none => m
    | some (w, p) =>
      let io : Io := ⟨w, p, guardLanes w p.mask info.guard⟩
      match preFault d m io info with
      | some m => m
      | none =>
        if io.retryWait info || queueStall w io.act info.srcs info.dsts then stallPath m io none
        else runBody d io info (body m io)

/-- A set-aside path rejoins path choice (R24). -/
def rejoinPath (m : Mach) (w : Wave) (p : Path) : Mach :=
  m.updWave w.core w.id fun w =>
    { w with aside := w.aside.filter fun q => q.mask != p.mask, resume := w.resume ++ [{ p with retry := false }] }

/-- The word of a set-aside path is tried: where its interlock holds, nothing changes; where it has cleared, the path rejoins
path choice and will issue the word (R24). -/
def probeWord (m : Mach) (info : WordInfo) (body : Mach → Io → Eff) (faults : Mach → Io → Bool) : Mach :=
  match m.curPath with
  | none => m
  | some (w, p) =>
    let r := settleWindows w p
    let io : Io := ⟨r.1, r.2, guardLanes w p.mask info.guard⟩
    let waits := !faults m io && (io.retryWait info || queueStall r.1 io.act info.srcs info.dsts || (body m io).stall)
    if waits then m else rejoinPath m w p

/-- A word on the path that `cur` selects: it is issued, or for a set-aside path tried. -/
def issueWord (d : Dev) (m : Mach) (info : WordInfo) (body : Mach → Io → Eff) : Mach :=
  if m.probing then probeWord m info body fun m io => (preFault d m io info).isSome
  else performWord d m info body

/-- Changes the machine of a state and nothing else. -/
def State.withMach (s : State) (f : Dev → Mach → Mach) : State := { s with mach := f s.dev s.mach }

/-- The outcome of a compute word. -/
def runWord (info : WordInfo) (body : Dev → Mach → Io → Eff) (s : State) : Host.Outcome State Fault Refusal :=
  .next (s.withMach fun d m => issueWord d m info (body d))

/-- A word that reads and writes registers, without lookahead. -/
def shortInfo (i : Instr) (g : Guard) (srcs dsts : List (Opnd × Nat)) (preds : List Nat) : WordInfo :=
  { instr := i, guard := g, la := none, srcs := srcs, dsts := dsts, preds := preds, touch := [], bad := false, rel := false }

/-- A long-latency word with its lookahead. -/
def longInfo (i : Instr) (g : Guard) (la : Fin 16) (srcs dsts : List (Opnd × Nat)) : WordInfo :=
  { instr := i, guard := g, la := some la.val, srcs := srcs, dsts := dsts, preds := [], touch := [], bad := false, rel := false }

/-- A word whose effect is one value a lane. `bits` is the width of the destination. -/
def laneWord (info : WordInfo) (d : Opnd) (bits : Nat) (f : Dev → Mach → Wave → Nat → Nat) (s : State) :
    Host.Outcome State Fault Refusal :=
  runWord info (fun dv m io => Eff.ok m (laneOuts bits d (io.act.map fun l => (l, f dv m io.w l)))) s

/-- A word whose effect is one predicate a lane. -/
def predWord (info : WordInfo) (p : Nat) (f : Dev → Mach → Wave → Nat → Bool) (s : State) :
    Host.Outcome State Fault Refusal :=
  runWord info (fun dv m io => Eff.ok m (predOuts p (io.act.map fun l => (l, f dv m io.w l)))) s

end Sys2Proof.Machine
end

