-- ==== Sys2Proof/Machine/Integer.lean ====
section
/-! DEFINITION. Integer, predicate and move instructions (R203 to R217). -/

namespace Sys2Proof.Machine

/-- The register width of an integer type. -/
def rb (ty : Ty) : Nat := ty.regBits

/-- A word of two integer sources of one type, and its result. -/
def intWord2 (i : Instr) (g : Guard) (ty : Ty) (d a b : Opnd) (f : Int → Int → Int) (s : State) :
    Host.Outcome State Fault Refusal :=
  laneWord (shortInfo i g [(a, rb ty), (b, rb ty)] [(d, rb ty)] []) d (rb ty)
    (fun dv m w l => intRes ty (f (readInt dv m w l ty a) (readInt dv m w l ty b))) s

/-- A word of one integer source, and its result. -/
def intWord1 (i : Instr) (g : Guard) (ty : Ty) (d a : Opnd) (f : Int → Int) (s : State) :
    Host.Outcome State Fault Refusal :=
  laneWord (shortInfo i g [(a, rb ty)] [(d, rb ty)] []) d (rb ty)
    (fun dv m w l => intRes ty (f (readInt dv m w l ty a))) s

/-- A word of two sources read as n-bit strings, and its result. -/
def bitWord2 (i : Instr) (g : Guard) (ty : Ty) (d a b : Opnd) (bb : Nat) (f : Nat → Nat → Nat → Nat) (s : State) :
    Host.Outcome State Fault Refusal :=
  laneWord (shortInfo i g [(a, rb ty), (b, bb)] [(d, rb ty)] []) d (rb ty)
    (fun dv m w l => f ty.bits (readOp dv m w l (rb ty) a) (readOp dv m w l bb b)) s

/-- A word of one source read as an n-bit string, and its result. -/
def bitWord1 (i : Instr) (g : Guard) (ty : Ty) (d a : Opnd) (f : Nat → Nat → Nat) (s : State) :
    Host.Outcome State Fault Refusal :=
  laneWord (shortInfo i g [(a, rb ty)] [(d, rb ty)] []) d (rb ty)
    (fun dv m w l => f ty.bits (readOp dv m w l (rb ty) a)) s

/-- `ADDC` and `SUBB`: a result and the predicate that carries in and out (R206). -/
def carryWord (i : Instr) (g : Guard) (ty : Ty) (d a b : Opnd) (pc : Fin 7)
    (f : Nat → Nat → Nat → Bool → Nat × Bool) (s : State) : Host.Outcome State Fault Refusal :=
  runWord (shortInfo i g [(a, rb ty), (b, rb ty)] [(d, rb ty)] [pc.val])
    (fun dv m io =>
      let r := io.act.map fun l =>
        (l, f ty.bits (readOp dv m io.w l (rb ty) a) (readOp dv m io.w l (rb ty) b) ((io.w.lane l).pred pc.val))
      Eff.ok m (laneOuts (rb ty) d (r.map fun x => (x.1, x.2.1)) ++ predOuts pc.val (r.map fun x => (x.1, x.2.2)))) s

/-- Quotient and remainder of R208, with whether the lane traps. -/
def divRem (ty : Ty) (a b : Int) : Int × Int × Bool :=
  if b = 0 then (-1, a, true)
  else if ty.signed && a == -(2 ^ (ty.bits - 1)) && b == -1 then (a, 0, true)
  else (a.tdiv b, a.tmod b, false)

/-- `DIV` and `REM` (R208). -/
def divWord (i : Instr) (g : Guard) (la : Fin 16) (ty : Ty) (trap : Bool) (d a b : Opnd)
    (f : Int × Int × Bool → Int) (s : State) : Host.Outcome State Fault Refusal :=
  runWord (longInfo i g la [(a, rb ty), (b, rb ty)] [(d, rb ty)])
    (fun dv m io =>
      let r := io.act.map fun l => (l, divRem ty (readInt dv m io.w l ty a) (readInt dv m io.w l ty b))
      let bad := r.filter fun x => trap && x.2.2.2
      let good := r.filter fun x => !(trap && x.2.2.2)
      { Eff.ok m (laneOuts (rb ty) d (good.map fun x => (x.1, intRes ty (f x.2)))) with
        flts := bad.map fun x => (x.1, ⟨0x20, 0⟩) }) s

/-- A predicate operation on two predicates (R217). -/
def predOp (i : Instr) (g : Guard) (d a b : Fin 8) (f : Bool → Bool → Bool) (s : State) :
    Host.Outcome State Fault Refusal :=
  predWord (shortInfo i g [] [] [d.val, a.val, b.val]) d.val
    (fun _ _ w l => f ((w.lane l).pred a.val) ((w.lane l).pred b.val)) s

/-- `ADD` (R206). -/
def execAdd (g : Guard) (ty : Ty) (d a b : Opnd) (s : State) : Host.Outcome State Fault Refusal :=
  intWord2 (.add g ty d a b) g ty d a b (fun x y => x + y) s

/-- `ADDC` (R206). -/
def execAddc (g : Guard) (ty : Ty) (d a b : Opnd) (pc : Fin 7) (s : State) : Host.Outcome State Fault Refusal :=
  carryWord (.addc g ty d a b pc) g ty d a b pc addCarry s

/-- `SUB` (R206). -/
def execSub (g : Guard) (ty : Ty) (d a b : Opnd) (s : State) : Host.Outcome State Fault Refusal :=
  intWord2 (.sub g ty d a b) g ty d a b (fun x y => x - y) s

/-- `SUBB` (R206). -/
def execSubb (g : Guard) (ty : Ty) (d a b : Opnd) (pc : Fin 7) (s : State) : Host.Outcome State Fault Refusal :=
  carryWord (.subb g ty d a b pc) g ty d a b pc subBorrow s

/-- `MUL` (R207). -/
def execMul (g : Guard) (ty : Ty) (d a b : Opnd) (s : State) : Host.Outcome State Fault Refusal :=
  intWord2 (.mul g ty d a b) g ty d a b (fun x y => x * y) s

/-- `MULH` (R207). -/
def execMulh (g : Guard) (ty : Ty) (d a b : Opnd) (s : State) : Host.Outcome State Fault Refusal :=
  intWord2 (.mulh g ty d a b) g ty d a b (fun x y => x * y / 2 ^ ty.bits) s

/-- `MAD` (R207). -/
def execMad (g : Guard) (ty : Ty) (d a b c : Opnd) (s : State) : Host.Outcome State Fault Refusal :=
  laneWord (shortInfo (.mad g ty d a b c) g [(a, rb ty), (b, rb ty), (c, rb ty)] [(d, rb ty)] []) d (rb ty)
    (fun dv m w l => intRes ty (readInt dv m w l ty a * readInt dv m w l ty b + readInt dv m w l ty c)) s

/-- `DIV` (R208). -/
def execDiv (g : Guard) (la : Fin 16) (ty : Ty) (trap : Bool) (d a b : Opnd) (s : State) : Host.Outcome State Fault Refusal :=
  divWord (.div g la ty trap d a b) g la ty trap d a b Prod.fst s

/-- `REM` (R208). -/
def execRem (g : Guard) (la : Fin 16) (ty : Ty) (trap : Bool) (d a b : Opnd) (s : State) : Host.Outcome State Fault Refusal :=
  divWord (.rem g la ty trap d a b) g la ty trap d a b (fun x => x.2.1) s

/-- `MIN` (R209). -/
def execMin (g : Guard) (ty : Ty) (d a b : Opnd) (s : State) : Host.Outcome State Fault Refusal :=
  intWord2 (.min g ty d a b) g ty d a b (fun x y => if x ≤ y then x else y) s

/-- `MAX` (R209). -/
def execMax (g : Guard) (ty : Ty) (d a b : Opnd) (s : State) : Host.Outcome State Fault Refusal :=
  intWord2 (.max g ty d a b) g ty d a b (fun x y => if x ≤ y then y else x) s

/-- `ABS` (R209). -/
def execAbs (g : Guard) (ty : Ty) (d a : Opnd) (s : State) : Host.Outcome State Fault Refusal :=
  intWord1 (.abs g ty d a) g ty d a (fun x => x.natAbs) s

/-- `NEG` (R209). -/
def execNeg (g : Guard) (ty : Ty) (d a : Opnd) (s : State) : Host.Outcome State Fault Refusal :=
  intWord1 (.neg g ty d a) g ty d a (fun x => -x) s

/-- `AND` (R210). -/
def execAnd (g : Guard) (ty : Ty) (d a b : Opnd) (s : State) : Host.Outcome State Fault Refusal :=
  bitWord2 (.and g ty d a b) g ty d a b (rb ty) (fun _ x y => x &&& y) s

/-- `OR` (R210). -/
def execOr (g : Guard) (ty : Ty) (d a b : Opnd) (s : State) : Host.Outcome State Fault Refusal :=
  bitWord2 (.or g ty d a b) g ty d a b (rb ty) (fun _ x y => x ||| y) s

/-- `XOR` (R210). -/
def execXor (g : Guard) (ty : Ty) (d a b : Opnd) (s : State) : Host.Outcome State Fault Refusal :=
  bitWord2 (.xor g ty d a b) g ty d a b (rb ty) (fun _ x y => x ^^^ y) s

/-- `ANDN` (R210). -/
def execAndn (g : Guard) (ty : Ty) (d a b : Opnd) (s : State) : Host.Outcome State Fault Refusal :=
  bitWord2 (.andn g ty d a b) g ty d a b (rb ty) (fun n x y => x &&& (2 ^ n - 1 - y)) s

/-- `SHL` (R210). -/
def execShl (g : Guard) (ty : Ty) (d a b : Opnd) (s : State) : Host.Outcome State Fault Refusal :=
  bitWord2 (.shl g ty d a b) g ty d a b 32 (fun n x y => x * 2 ^ (y % n) % 2 ^ n) s

/-- `SHR` (R210). -/
def execShr (g : Guard) (ty : Ty) (d a b : Opnd) (s : State) : Host.Outcome State Fault Refusal :=
  bitWord2 (.shr g ty d a b) g ty d a b 32 (fun n x y => x / 2 ^ (y % n)) s

/-- `SAR` (R210). -/
def execSar (g : Guard) (ty : Ty) (d a b : Opnd) (s : State) : Host.Outcome State Fault Refusal :=
  bitWord2 (.sar g ty d a b) g ty d a b 32 (fun n x y => wrapTo n (signedOf n x / 2 ^ (y % n))) s

/-- `ROTL` (R210). -/
def execRotl (g : Guard) (ty : Ty) (d a b : Opnd) (s : State) : Host.Outcome State Fault Refusal :=
  bitWord2 (.rotl g ty d a b) g ty d a b 32
    (fun n x y => x * 2 ^ (y % n) % 2 ^ n + x / 2 ^ (n - y % n)) s

/-- `POPC` (R211). -/
def execPopc (g : Guard) (ty : Ty) (d a : Opnd) (s : State) : Host.Outcome State Fault Refusal :=
  bitWord1 (.popc g ty d a) g ty d a popCount s

/-- `CLZ` (R211). -/
def execClz (g : Guard) (ty : Ty) (d a : Opnd) (s : State) : Host.Outcome State Fault Refusal :=
  bitWord1 (.clz g ty d a) g ty d a countLead s

/-- `CTZ` (R211). -/
def execCtz (g : Guard) (ty : Ty) (d a : Opnd) (s : State) : Host.Outcome State Fault Refusal :=
  bitWord1 (.ctz g ty d a) g ty d a countTrail s

/-- `BREV` (R211). -/
def execBrev (g : Guard) (ty : Ty) (d a : Opnd) (s : State) : Host.Outcome State Fault Refusal :=
  bitWord1 (.brev g ty d a) g ty d a bitReverse s

/-- `BFX` (R212). -/
def execBfx (g : Guard) (ty : Ty) (pos len1 : Fin 64) (d a : Opnd) (s : State) : Host.Outcome State Fault Refusal :=
  bitWord1 (.bfx g ty pos len1 d a) g ty d a
    (fun n x =>
      let f := bitsOf x pos.val (len1.val + 1)
      if ty.signed then intRes ty (wrapTo n (signedOf (len1.val + 1) f)) else f) s

/-- `BFI` (R212). -/
def execBfi (g : Guard) (ty : Ty) (pos len1 : Fin 64) (d a b : Opnd) (s : State) : Host.Outcome State Fault Refusal :=
  bitWord2 (.bfi g ty pos len1 d a b) g ty d a b (rb ty)
    (fun _ x y => x - 2 ^ pos.val * bitsOf x pos.val (len1.val + 1) + 2 ^ pos.val * bitsOf y 0 (len1.val + 1)) s

/-- `SEL` (R213). -/
def execSel (g : Guard) (ty : Ty) (d a b : Opnd) (pc : Fin 8) (s : State) : Host.Outcome State Fault Refusal :=
  laneWord (shortInfo (.sel g ty d a b pc) g [(a, rb ty), (b, rb ty)] [(d, rb ty)] [pc.val]) d (rb ty)
    (fun dv m w l => if (w.lane l).pred pc.val then readOp dv m w l (rb ty) a else readOp dv m w l (rb ty) b) s

/-- `CMP` (R216). -/
def execCmp (g : Guard) (ty : Ty) (cond : Cond) (d : Fin 8) (a b : Opnd) (s : State) : Host.Outcome State Fault Refusal :=
  predWord (shortInfo (.cmp g ty cond d a b) g [(a, rb ty), (b, rb ty)] [] [d.val]) d.val
    (fun dv m w l => condHolds cond (readInt dv m w l ty a) (readInt dv m w l ty b)) s

/-- `PAND` (R217). -/
def execPand (g : Guard) (d a b : Fin 8) (s : State) : Host.Outcome State Fault Refusal :=
  predOp (.pand g d a b) g d a b (fun x y => x && y) s

/-- `POR` (R217). -/
def execPor (g : Guard) (d a b : Fin 8) (s : State) : Host.Outcome State Fault Refusal :=
  predOp (.por g d a b) g d a b (fun x y => x || y) s

/-- `PXOR` (R217). -/
def execPxor (g : Guard) (d a b : Fin 8) (s : State) : Host.Outcome State Fault Refusal :=
  predOp (.pxor g d a b) g d a b (fun x y => x != y) s

/-- `PNOT` (R217). -/
def execPnot (g : Guard) (d a : Fin 8) (s : State) : Host.Outcome State Fault Refusal :=
  predOp (.pnot g d a) g d a a (fun x _ => !x) s

/-- `MOV` (R213). -/
def execMov (g : Guard) (ty : Ty) (d a : Opnd) (s : State) : Host.Outcome State Fault Refusal :=
  bitWord1 (.mov g ty d a) g ty d a (fun _ x => x) s

/-- `MOVI` (R213). -/
def execMovi (g : Guard) (d : Opnd) (imm : BitVec 26) (s : State) : Host.Outcome State Fault Refusal :=
  laneWord (shortInfo (.movi g d imm) g [] [(d, 32)] []) d 32 (fun _ _ _ _ => wrapTo 64 imm.toInt) s

/-- Width of the destination of `MOVH` (R213). -/
def movhBits : Opnd → Nat
  | .s _ => 64
  | _ => 32

/-- `MOVH` (R213). -/
def execMovh (g : Guard) (d : Opnd) (imm : BitVec 16) (pos : Fin 4) (s : State) : Host.Outcome State Fault Refusal :=
  laneWord (shortInfo (.movh g d imm pos) g [(d, movhBits d)] [(d, movhBits d)] []) d (movhBits d)
    (fun dv m w l =>
      let x := readOp dv m w l (movhBits d) d
      x - 2 ^ (16 * pos.val) * bitsOf x (16 * pos.val) 16 + 2 ^ (16 * pos.val) * imm.toNat) s

/-- Widths of a and d, and of b, of `LEA` (R214). -/
def leaBits : Ty → Nat × Nat
  | .b64 => (64, 64)
  | .b32 => (32, 32)
  | _ => (64, 32)

/-- `LEA` (R214). -/
def execLea (g : Guard) (ty : Ty) (d a b : Opnd) (sh : Fin 16) (s : State) : Host.Outcome State Fault Refusal :=
  laneWord (shortInfo (.lea g ty d a b sh) g [(a, (leaBits ty).1), (b, (leaBits ty).2)] [(d, (leaBits ty).1)] []) d
    (leaBits ty).1
    (fun dv m w l =>
      let x : Int := readOp dv m w l (leaBits ty).1 a
      let y := readOp dv m w l (leaBits ty).2 b
      wrapTo (leaBits ty).1 (x + (if ty = .s32 then signedOf 32 y else (y : Int)) * 2 ^ sh.val)) s

/-- An integer clamped to the range of a type (R215). -/
def clampTo (ty : Ty) (x : Int) : Int :=
  let lo : Int := if ty.signed then -(2 ^ (ty.bits - 1)) else 0
  let hi : Int := if ty.signed then 2 ^ (ty.bits - 1) - 1 else 2 ^ ty.bits - 1
  if x < lo then lo else if hi < x then hi else x

/-- `CVTI` (R215). -/
def execCvti (g : Guard) (dt sty : Ty) (sat : Bool) (d a : Opnd) (s : State) : Host.Outcome State Fault Refusal :=
  laneWord (shortInfo (.cvti g dt sty sat d a) g [(a, rb sty)] [(d, rb dt)] []) d (rb dt)
    (fun dv m w l =>
      let x := readInt dv m w l sty a
      intRes dt (if sat then clampTo dt x else x)) s

end Sys2Proof.Machine
end

