-- ==== Sys2Proof/Machine/Lanes.lean ====
section
/-! DEFINITION. Lane instructions (R141, R224 to R229). -/

namespace Sys2Proof.Machine

/-- Width of a sub-group in a wave of width W (R178, R224). -/
def subWidth (w : Nat) : SubW → Nat
  | .w => w
  | .w2 => 2
  | .w4 => 4
  | .w8 => 8
  | .w16 => 16
  | .w32 => 32

/-- The acting lanes of the sub-group of a lane. -/
def Io.subLanes (io : Io) (s l : Nat) : List Nat := io.act.filter fun k => k / s == l / s

/-- A lane word: a sub-group wider than the wave is an illegal encoding (R178). -/
def subInfo (i : Instr) (g : Guard) (sub : SubW) (srcs dsts : List (Opnd × Nat)) (preds : List Nat) (m : Mach) :
    WordInfo :=
  { shortInfo i g srcs dsts preds with
    bad := match m.curPath with
      | some (w, _) => decide (w.width < subWidth w.width sub)
      | none => false }

/-- A lane word whose result in a lane depends on the sub-group's width and the issue. -/
def subWord (i : Instr) (g : Guard) (sub : SubW) (srcs : List (Opnd × Nat)) (preds : List Nat) (d : Opnd) (bits : Nat)
    (f : Dev → Mach → Io → Nat → Nat → Nat) (s : State) : Host.Outcome State Fault Refusal :=
  runWord (subInfo i g sub srcs (if d.isP then [] else [(d, bits)])
      (preds ++ (match d with
        | .p n => [n.val]
        | _ => [])) s.mach)
    (fun dv m io => Eff.ok m (laneOuts bits d (io.act.map fun l => (l, f dv m io (subWidth io.w.width sub) l)))) s

/-- The source lane of `SHFL` (R226). -/
def shflSrc (mode : ShflMode) (s l b : Nat) : Nat :=
  let base := l - l % s
  let j := l % s
  let k := b % s
  match mode with
  | .index => base + k
  | .up => base + emodNat ((j : Int) - k) s
  | .down => base + (j + k) % s
  | .xor => base + (j ^^^ k)

/-- `SHFL` (R226). -/
def execShfl (g : Guard) (mode : ShflMode) (ty : Ty) (sub : SubW) (d a b : Opnd) (s : State) :
    Host.Outcome State Fault Refusal :=
  subWord (.shfl g mode ty sub d a b) g sub [(a, rb ty), (b, 32)] [] d (rb ty)
    (fun dv m io sw l =>
      let src := shflSrc mode sw l (readOp dv m io.w l 32 b)
      readOp dv m io.w (if io.act.contains src then src else l) (rb ty) a) s

/-- A number whose bit m mod s is set for each listed lane m. -/
def laneBits (s : Nat) (ls : List Nat) : Nat := sumNat (ls.map fun l => 2 ^ (l % s))

/-- `VOTE` (R227). -/
def execVote (g : Guard) (mode : VoteMode) (sub : SubW) (d : Opnd) (a : Fin 8) (s : State) :
    Host.Outcome State Fault Refusal :=
  subWord (.vote g mode sub d a) g sub [] [a.val] d 64
    (fun _ _ io sw l =>
      let ls := io.subLanes sw l
      let yes := ls.filter fun k => (io.w.lane k).pred a.val
      match mode with
      | .all => if yes.length = ls.length then 1 else 0
      | .any => if yes.isEmpty then 0 else 1
      | .ballot => laneBits sw yes
      | .uni => if yes.length = ls.length || yes.isEmpty then 1 else 0) s

/-- The tree of R141 over 2^k lanes from lane b: none when no lane is active. -/
def redTree (op : Nat → Nat → Nat) (val : Nat → Option Nat) : Nat → Nat → Option Nat
  | 0, b => val b
  | k + 1, b =>
    match redTree op val k b, redTree op val k (b + 2 ^ k) with
    | none, c => c
    | some a, none => some a
    | some a, some c => some (op a c)

/-- The scan of R141: the blocks of n lanes from lane b, largest power of two first, 2^k the largest that may come. -/
def scanTree (op : Nat → Nat → Nat) (val : Nat → Option Nat) : Nat → Nat → Nat → Option Nat → Option Nat
  | 0, b, n, acc =>
    if n = 0 then acc else match acc, val b with
      | none, c => c
      | some a, none => some a
      | some a, some c => some (op a c)
  | k + 1, b, n, acc =>
    if 2 ^ (k + 1) ≤ n then
      let acc' := match acc, redTree op val (k + 1) b with
        | none, c => c
        | some a, none => some a
        | some a, some c => some (op a c)
      scanTree op val k (b + 2 ^ (k + 1)) (n - 2 ^ (k + 1)) acc'
    else scanTree op val k b n acc

/-- The combining operation of a reduction on codes of its type (R228). -/
def redStep (op : RedOp) (x y : Nat) : Nat :=
  let vi := fun (ty : Ty) (f : Int → Int → Int) => intRes ty (f (intOf ty x) (intOf ty y))
  match op with
  | .add ty => vi ty fun a b => a + b
  | .min ty => vi ty fun a b => if a ≤ b then a else b
  | .max ty => vi ty fun a b => if a ≤ b then b else a
  | .and _ => x &&& y
  | .or _ => x ||| y
  | .xor _ => x ^^^ y
  | .fadd rm => faddV .f32 rm false (fdecode .f32 x) (fdecode .f32 y)
  | .fmin => fminmaxV .f32 false (fdecode .f32 x) (fdecode .f32 y)
  | .fmax => fminmaxV .f32 true (fdecode .f32 x) (fdecode .f32 y)

/-- A lane's value as it enters a reduction: extended from its type, or an FP32 code. -/
def redRead (dv : Dev) (m : Mach) (w : Wave) (l : Nat) (op : RedOp) (a : Opnd) : Nat :=
  match op with
  | .add ty | .min ty | .max ty | .and ty | .or ty | .xor ty => intRes ty (readInt dv m w l ty a)
  | _ => readFloat dv m w l .f32 a

/-- The result of a reduction: a NaN is the canonical one (R118). -/
def redFinal (op : RedOp) (x : Nat) : Nat :=
  match op with
  | .fadd _ | .fmin | .fmax => if fdecode .f32 x = .nan then nanCode .f32 else x
  | _ => x

/-- `LRED` (R228). -/
def execLred (g : Guard) (op : RedOp) (sub : SubW) (d a : Opnd) (s : State) : Host.Outcome State Fault Refusal :=
  subWord (.lred g op sub d a) g sub [(a, op.bits)] [] d op.bits
    (fun dv m io sw l =>
      let val := fun k => if io.act.contains k then some (redRead dv m io.w k op a) else none
      redFinal op ((redTree (redStep op) val (Nat.log2 sw) (l - l % sw)).getD 0)) s

/-- `LSCAN` (R228). -/
def execLscan (g : Guard) (op : RedOp) (sub : SubW) (d a : Opnd) (s : State) : Host.Outcome State Fault Refusal :=
  subWord (.lscan g op sub d a) g sub [(a, op.bits)] [] d op.bits
    (fun dv m io sw l =>
      let val := fun k => if io.act.contains k then some (redRead dv m io.w k op a) else none
      redFinal op ((scanTree (redStep op) val (Nat.log2 sw) (l - l % sw) (l % sw + 1) none).getD 0)) s

/-- `MATCH` (R229). -/
def execMatchL (g : Guard) (all : Bool) (ty : Ty) (sub : SubW) (d a : Opnd) (s : State) :
    Host.Outcome State Fault Refusal :=
  subWord (.matchL g all ty sub d a) g sub [(a, rb ty)] [] d 64
    (fun dv m io sw l =>
      let ls := io.subLanes sw l
      let same := ls.filter fun k => readOp dv m io.w k (rb ty) a == readOp dv m io.w l (rb ty) a
      if all then (if same.length = ls.length then 1 else 0) else laneBits sw same) s

end Sys2Proof.Machine
end

