-- ==== Sys2Proof/Machine/FloatOps.lean ====
section
/-! DEFINITION. Float arithmetic and conversions (R230 to R243), and the paired word (R170 to R172). -/

namespace Sys2Proof.Machine

/-- A float operand as a value, under `.ftz` (R117, R230). -/
def readF (d : Dev) (m : Mach) (w : Wave) (l : Nat) (ft : FFmt) (ftz : Bool) (o : Opnd) : FVal :=
  ftzIn ft ftz (fdecode ft (readFloat d m w l ft o))

/-- A word of two float sources, and its result. -/
def floatWord2 (i : Instr) (g : Guard) (ft : FFmt) (ftz : Bool) (d a b : Opnd) (f : FVal → FVal → Nat) (s : State) :
    Host.Outcome State Fault Refusal :=
  laneWord (shortInfo i g [(a, 32), (b, 32)] [(d, 32)] []) d 32
    (fun dv m w l => f (readF dv m w l ft ftz a) (readF dv m w l ft ftz b)) s

/-- A long-latency word of one float source, and its result. -/
def floatWordL (i : Instr) (g : Guard) (la : Fin 16) (ft : FFmt) (ftz : Bool) (d a : Opnd) (f : FVal → Nat)
    (s : State) : Host.Outcome State Fault Refusal :=
  laneWord (longInfo i g la [(a, 32)] [(d, 32)]) d 32 (fun dv m w l => f (readF dv m w l ft ftz a)) s

/-- `FADD` (R233). -/
def execFadd (g : Guard) (ft : FFmt) (rm : RMode) (ftz : Bool) (d a b : Opnd) (s : State) : Host.Outcome State Fault Refusal :=
  floatWord2 (.fadd g ft rm ftz d a b) g ft ftz d a b (faddV ft rm ftz) s

/-- `FSUB` (R233). -/
def execFsub (g : Guard) (ft : FFmt) (rm : RMode) (ftz : Bool) (d a b : Opnd) (s : State) : Host.Outcome State Fault Refusal :=
  floatWord2 (.fsub g ft rm ftz d a b) g ft ftz d a b (fun x y => faddV ft rm ftz x y.negate) s

/-- `FMUL` (R233). -/
def execFmul (g : Guard) (ft : FFmt) (rm : RMode) (ftz : Bool) (d a b : Opnd) (s : State) : Host.Outcome State Fault Refusal :=
  floatWord2 (.fmul g ft rm ftz d a b) g ft ftz d a b (fmulV ft rm ftz) s

/-- `FFMA` (R240). -/
def execFfma (g : Guard) (rm : RMode) (ftz : Bool) (d a b c : Opnd) (s : State) : Host.Outcome State Fault Refusal :=
  laneWord (shortInfo (.ffma g rm ftz d a b c) g [(a, 32), (b, 32), (c, 32)] [(d, 32)] []) d 32
    (fun dv m w l => ffmaV .f32 rm ftz (readF dv m w l .f32 ftz a) (readF dv m w l .f32 ftz b) (readF dv m w l .f32 ftz c)) s

/-- `HFMA2` (R241). -/
def execHfma2 (g : Guard) (half : Bool) (rm : RMode) (ftz : Bool) (d a b c : Opnd) (s : State) :
    Host.Outcome State Fault Refusal :=
  laneWord (shortInfo (.hfma2 g half rm ftz d a b c) g [(a, 32), (b, 32), (c, 32)] [(d, 32)] []) d 32
    (fun dv m w l =>
      let ft : FFmt := if half then .f16 else .bf16
      let x := readPair dv m w l ft a
      let y := readPair dv m w l ft b
      let z := readPair dv m w l ft c
      let v := fun (n : Nat) => ftzIn ft ftz (fdecode ft n)
      ffmaV ft rm ftz (v x.1) (v y.1) (v z.1) + 65536 * ffmaV ft rm ftz (v x.2) (v y.2) (v z.2)) s

/-- `FMIN` (R234). -/
def execFmin (g : Guard) (ft : FFmt) (ftz : Bool) (d a b : Opnd) (s : State) : Host.Outcome State Fault Refusal :=
  floatWord2 (.fmin g ft ftz d a b) g ft ftz d a b (fminmaxV ft false) s

/-- `FMAX` (R234). -/
def execFmax (g : Guard) (ft : FFmt) (ftz : Bool) (d a b : Opnd) (s : State) : Host.Outcome State Fault Refusal :=
  floatWord2 (.fmax g ft ftz d a b) g ft ftz d a b (fminmaxV ft true) s

/-- `FCMP` (R235). -/
def execFcmp (g : Guard) (ft : FFmt) (cond : FCond) (ftz : Bool) (d : Fin 8) (a b : Opnd) (s : State) : Host.Outcome State Fault Refusal :=
  predWord (shortInfo (.fcmp g ft cond ftz d a b) g [(a, 32), (b, 32)] [] [d.val]) d.val
    (fun dv m w l => fcmpV cond (readF dv m w l ft ftz a) (readF dv m w l ft ftz b)) s

/-- `FCLASS` (R236). -/
def execFclass (g : Guard) (ft : FFmt) (d a : Opnd) (s : State) : Host.Outcome State Fault Refusal :=
  laneWord (shortInfo (.fclass g ft d a) g [(a, 32)] [(d, 32)] []) d 32 (fun dv m w l => fclassOf ft (readFloat dv m w l ft a)) s

/-- `FRCPA` (R144, R238). -/
def execFrcpa (g : Guard) (la : Fin 16) (ftz : Bool) (d a : Opnd) (s : State) : Host.Outcome State Fault Refusal :=
  floatWordL (.frcpa g la ftz d a) g la .f32 ftz d a (frcpaV ftz) s

/-- `FRSQA` (R145, R238). -/
def execFrsqa (g : Guard) (la : Fin 16) (ftz : Bool) (d a : Opnd) (s : State) : Host.Outcome State Fault Refusal :=
  floatWordL (.frsqa g la ftz d a) g la .f32 ftz d a (frsqaV ftz) s

/-- `FSQRT` (R233). -/
def execFsqrt (g : Guard) (la : Fin 16) (ft : FFmt) (rm : RMode) (ftz : Bool) (d a : Opnd) (s : State) : Host.Outcome State Fault Refusal :=
  floatWordL (.fsqrt g la ft rm ftz d a) g la ft ftz d a (fsqrtV ft rm ftz) s

/-- `FDIV` (R233). -/
def execFdiv (g : Guard) (la : Fin 16) (ft : FFmt) (rm : RMode) (ftz : Bool) (d a b : Opnd) (s : State) : Host.Outcome State Fault Refusal :=
  laneWord (longInfo (.fdiv g la ft rm ftz d a b) g la [(a, 32), (b, 32)] [(d, 32)]) d 32
    (fun dv m w l => fdivV ft rm ftz (readF dv m w l ft ftz a) (readF dv m w l ft ftz b)) s

/-- `FEXP2` (R239). -/
def execFexp2 (g : Guard) (la : Fin 16) (rm : RMode) (ftz : Bool) (d a : Opnd) (s : State) : Host.Outcome State Fault Refusal :=
  floatWordL (.fexp2 g la rm ftz d a) g la .f32 ftz d a (fexp2V rm ftz) s

/-- `FLOG2` (R239). -/
def execFlog2 (g : Guard) (la : Fin 16) (rm : RMode) (ftz : Bool) (d a : Opnd) (s : State) : Host.Outcome State Fault Refusal :=
  floatWordL (.flog2 g la rm ftz d a) g la .f32 ftz d a (flog2V rm ftz) s

/-- `FSIN` (R239). -/
def execFsin (g : Guard) (la : Fin 16) (rm : RMode) (ftz : Bool) (d a : Opnd) (s : State) : Host.Outcome State Fault Refusal :=
  floatWordL (.fsin g la rm ftz d a) g la .f32 ftz d a (fsinV rm ftz) s

/-- `FCOS` (R239). -/
def execFcos (g : Guard) (la : Fin 16) (rm : RMode) (ftz : Bool) (d a : Opnd) (s : State) : Host.Outcome State Fault Refusal :=
  floatWordL (.fcos g la rm ftz d a) g la .f32 ftz d a (fcosV rm ftz) s

/-- `FTANH` (R239). -/
def execFtanh (g : Guard) (la : Fin 16) (rm : RMode) (ftz : Bool) (d a : Opnd) (s : State) : Host.Outcome State Fault Refusal :=
  floatWordL (.ftanh g la rm ftz d a) g la .f32 ftz d a (ftanhV rm ftz) s

/-- The value that `CVTF` converts: an element code carries the block scale when it is narrow (R242). -/
def cvtSource (ft : FFmt) (ftz : Bool) (sc x : Nat) : FVal :=
  if ft.arith then ftzIn ft ftz (fdecode ft x)
  else if sc = 0xFF then .nan
  else match fdecode ft x with
    | .num neg m q => .num neg m (q + sc - 127)
    | v => v

/-- `CVTF` (R242). -/
def execCvtf (g : Guard) (dt sf : FFmt) (rm : RMode) (ftz nan : Bool) (d a : Opnd) (b : Option Opnd) (s : State) :
    Host.Outcome State Fault Refusal :=
  laneWord (shortInfo (.cvtf g dt sf rm ftz nan d a b) g ((a, 32) :: (match b with
      | some o => [(o, 32)]
      | none => [])) [(d, 32)] []) d 32
    (fun dv m w l =>
      let sc := match b with
        | some o => readOp dv m w l 32 o % 256
        | none => 127
      let x := cvtSource sf ftz sc (readFloat dv m w l sf a)
      if dt.arith then fround dt rm ftz x else fnarrow dt rm nan sc x) s

/-- Lowest and highest value of an integer type. -/
def tyRange (ty : Ty) : Int × Int :=
  if ty.signed then (-(2 ^ (ty.bits - 1)), 2 ^ (ty.bits - 1) - 1) else (0, 2 ^ ty.bits - 1)

/-- `CVTFI` (R243). -/
def execCvtfi (g : Guard) (ty : Ty) (ft : FFmt) (rm : RMode) (ftz : Bool) (d a : Opnd) (s : State) :
    Host.Outcome State Fault Refusal :=
  laneWord (shortInfo (.cvtfi g ty ft rm ftz d a) g [(a, 32)] [(d, rb ty)] []) d (rb ty)
    (fun dv m w l => intRes ty (fintV rm (tyRange ty).1 (tyRange ty).2 (readF dv m w l ft ftz a))) s

/-- `CVTIF` (R243). -/
def execCvtif (g : Guard) (ft : FFmt) (ty : Ty) (rm : RMode) (d a : Opnd) (s : State) :
    Host.Outcome State Fault Refusal :=
  laneWord (shortInfo (.cvtif g ft ty rm d a) g [(a, rb ty)] [(d, 32)] []) d 32
    (fun dv m w l => fofInt ft rm (readInt dv m w l ty a)) s

/-- `FRND` (R237). -/
def execFrnd (g : Guard) (ft : FFmt) (rm : RMode) (ftz : Bool) (d a : Opnd) (s : State) :
    Host.Outcome State Fault Refusal :=
  laneWord (shortInfo (.frnd g ft rm ftz d a) g [(a, 32)] [(d, 32)] []) d 32
    (fun dv m w l => frndV ft rm ftz (readF dv m w l ft ftz a)) s

/-! The paired word -/

/-- Type of a half's `ADD` or `SUB` (R171). -/
def halfTy (n : Fin 3) : Ty :=
  match n with
  | 0 => .s32
  | 1 => .z32
  | _ => .b32

/-- The result of a half on its 32-bit operands (R170, R171). -/
def halfResult (op : HalfOp) (x y : Nat) : Nat :=
  let vi := fun (ty : Ty) (f : Int → Int → Int) => intRes ty (f (intOf ty x) (intOf ty y))
  let fv := fun (ftz : Bool) (n : Nat) => ftzIn .f32 ftz (fdecode .f32 n)
  match op with
  | .nop => 0
  | .add t => vi (halfTy t) fun a b => a + b
  | .sub t => vi (halfTy t) fun a b => a - b
  | .and => x &&& y
  | .or => x ||| y
  | .xor => x ^^^ y
  | .shl => x * 2 ^ (y % 32) % 2 ^ 32
  | .shr => x / 2 ^ (y % 32)
  | .mov => y
  | .min z => vi (if z then .z32 else .s32) fun a b => if a ≤ b then a else b
  | .max z => vi (if z then .z32 else .s32) fun a b => if a ≤ b then b else a
  | .fadd rm ftz => faddV .f32 rm ftz (fv ftz x) (fv ftz y)
  | .fmul rm ftz => fmulV .f32 rm ftz (fv ftz x) (fv ftz y)
  | .fmin ftz => fminmaxV .f32 false (fv ftz x) (fv ftz y)
  | .fmax ftz => fminmaxV .f32 true (fv ftz x) (fv ftz y)

/-- The lanes in which a half acts: its own guard, and not a half-NOP. -/
def Io.halfLanes (io : Io) (h : Half) : List Nat :=
  if h.op = .nop then [] else io.act.filter fun l => (io.w.lane l).pred h.g.val

/-- The writes of a half. -/
def halfOuts (dv : Dev) (m : Mach) (io : Io) (h : Half) : List RegWrite :=
  laneOuts 32 h.d ((io.halfLanes h).map fun l =>
    (l, halfResult h.op (readOp dv m io.w l 32 h.d) (readOp dv m io.w l 32 h.s)))

/-- Operands that a half reads, with their widths. -/
def halfSrcs (h : Half) : List (Opnd × Nat) := h.reads.map fun o => (o, 32)

/-- Destination of a half. -/
def halfDst (h : Half) : List (Opnd × Nat) := if h.op = .nop then [] else [(h.d, 32)]

/-- Some operand of a half is unallotted, or its queues make it wait, in the lanes in which it acts. -/
def Io.halfStall (io : Io) (h : Half) : Bool := queueStall io.w (io.halfLanes h) (halfSrcs h) (halfDst h)

/-- Lanes in which a half names an unallotted register (R35). -/
def Io.halfOver (io : Io) (h : Half) : List Nat :=
  io.act.filter fun l =>
    (h.op != .nop && unallottedP io.w l h.g.val)
      || ((io.halfLanes h).contains l && (halfSrcs h ++ halfDst h).any (unallotted io.w l))

/-- A half pops from a queue that its shadow wave has left empty: the queue's number (R40). -/
def Io.halfDead (m : Mach) (io : Io) (h : Half) : Option Nat := (queueDead m io.w (io.halfLanes h) (halfSrcs h)).map Prod.fst

/-- The operands of a half, its guard among them. -/
def halfNames (h : Half) : List (Opnd × Nat) := (.p (Fin.ofNat 8 h.g.val), 1) :: (halfSrcs h ++ halfDst h)

/-- `PAIRED_WORD`: both halves read before either writes; each acts under its own guard (R170). Queue entries pop in the
lanes in which the half that names them acts. -/
def execPairedWord (u h : Half) (s : State) : Host.Outcome State Fault Refusal :=
  runWord { shortInfo (.pairedWord u h) ⟨7, false⟩ [] [] [] with
      touch := halfNames u ++ halfNames h }
    (fun dv m io =>
      let qs := fun (k : Half) => namesQueue (halfSrcs k ++ halfDst k)
      if io.w.shadow && (qs u || qs h) then
        Eff.fault m 0x50 (BitVec.ofNat 64 ((instrWord (.pairedWord u h)).getD 0))
      else
        let above := io.halfOver u ++ io.halfOver h
        let bad := io.act.filter above.contains
        let io := { io with act := io.act.filter fun l => !above.contains l }
        match (io.halfDead m u).or (io.halfDead m h) with
        | some n => if bad.isEmpty then Eff.fault m 0x60 (BitVec.ofNat 64 n)
          else { Eff.ok m [] with flts := bad.map fun l => (l, ⟨0x54, 0⟩) }
        | none =>
          if bad.isEmpty && (io.halfStall u || io.halfStall h) then Eff.wait m
          else
            let pop := fun (k : Half) (m : Mach) =>
              m.updWave io.w.core io.w.id fun w => w.popQueues (io.halfLanes k) (halfSrcs k)
            { Eff.ok (pop u (pop h m)) (halfOuts dv m io u ++ halfOuts dv m io h) with
              flts := bad.map fun l => (l, ⟨0x54, 0⟩) }) s

end Sys2Proof.Machine
end

