-- ==== Sys2Proof/Machine/Access.lean ====
section
/-! DEFINITION. Accesses of compute words: the prefix or the defaults in force, addresses and their checks, ordering, and
loads, stores and atomics in the three spaces (R52 to R64, R86 to R114, R174, R175, R257 to R264). -/

namespace Sys2Proof.Machine

/-! The prefix in force (R174, R175) -/

/-- The fields of `%memdef` (R175). -/
def memdefPrefix (x : BitVec 64) : Prefix :=
  let n := x.toNat
  { order := (orderOf (bitsOf n 0 3)).getD .rlx, scope := (scopeOf (bitsOf n 3 3)).getD .wave,
    space := (spaceOf (bitsOf n 6 2)).getD .glb, policy := Fin.ofNat 4 (bitsOf n 8 2),
    hint := (hintOf (bitsOf n 10 2)).getD .none, code := false }

/-- What a memory word accepts: its orders, the space its opcode names, and the spaces it can use. -/
structure MemKind where
  orders : List Order
  own    : Option Space
  spaces : List Space
  deriving DecidableEq, Repr

/-- Reduces an order to the part that a word accepts (R174). -/
def reduceOrder (orders : List Order) (o : Order) : Order :=
  if orders.contains o then o
  else if o == .acqrel then
    (if orders.contains .acq then .acq else if orders.contains .rel then .rel else .rlx)
  else .rlx

/-- The prefix in force for a word: its own, or `%memdef` with the adjustments of R174. -/
def forcePrefix (k : MemKind) (pre : Option Prefix) (w : Wave) : Prefix :=
  match pre with
  | some p => { p with space := k.own.getD p.space }
  | none =>
    let p := memdefPrefix w.memdef
    { p with order := reduceOrder k.orders p.order,
             space := k.own.getD (if k.spaces == [.glb] then .glb else p.space) }

/-- A space that the word cannot use is an illegal encoding (R256), the reserved code of `%memdef` too (R52). -/
def badSpace (k : MemKind) (pre : Option Prefix) (m : Mach) : Bool :=
  match m.curPath with
  | none => false
  | some (w, _) => !k.spaces.contains (forcePrefix k pre w).space
      || (pre.isNone && k.own.isNone && k.spaces != [.glb] && (spaceOf (bitsOf w.memdef.toNat 6 2)).isNone)

/-- The order acquires. -/
def acquires : Order → Bool
  | .acq | .acqrel | .sc => true
  | _ => false

/-- The order releases. -/
def releases : Order → Bool
  | .rel | .acqrel | .sc => true
  | _ => false

/-- Scopes of die and wider (R95, R96). -/
def wideScope : Scope → Bool
  | .die | .pkg | .sys => true
  | _ => false

/-- Scopes of package and wider (R101). -/
def arbited : Scope → Bool
  | .pkg | .sys => true
  | _ => false

/-! Group storage -/

/-- The bytes of the engine rings at the top of the scratchpad (R61, R281). -/
def Group.ringBytes (g : Group) : Nat := 32 * (g.alloc.cring + g.alloc.lring)

/-- The bytes of a space of a group. -/
def Group.bytes (g : Group) (sp : Space) (off n : Nat) : List Byte :=
  if sp == .spad then localReadN g.gen 1 g.spad off n else localReadN g.gen 2 g.ostore off n

/-- Writes bytes of a space of a group. -/
def Group.put (g : Group) (sp : Space) (off : Nat) (bs : List Byte) : Group :=
  if sp == .spad then { g with spad := localWriteN g.spad off bs } else { g with ostore := localWriteN g.ostore off bs }

/-- Marks the waits on scratchpad words of a group that a write ends (R288). -/
def Mach.wakeLocal (m : Mach) (core group off n : Nat) : Mach :=
  { m with waves := m.waves.map fun w =>
      if w.core = core then w.wakeWhere (w.pathIn group) (WaitFor.wakeBy false off n) else w }

/-- Writes bytes of a space of a group, and wakes the waits on them. -/
def Mach.putLocal (m : Mach) (core group : Nat) (sp : Space) (off : Nat) (bs : List Byte) : Mach :=
  let m := m.updGroup core group fun g => g.put sp off bs
  if sp == .spad then m.wakeLocal core group off bs.length else m

/-- A range of a group's space is inside its allotment, outside the rings, and aligned when asked (R53, R61). -/
def Group.inside (g : Group) (sp : Space) (off : Int) (n : Nat) (align : Bool) : Bool :=
  let size := if sp == .spad then 32768 * g.alloc.spad - g.ringBytes else 262144 * g.alloc.ostore
  decide (0 ≤ off) && decide (off + n ≤ size) && (!align || off % n == 0)

/-! Addresses -/

/-- The address of a lane: a 64-bit global address, or an offset as an exact integer (R258). -/
def laneAddr (d : Dev) (m : Mach) (w : Wave) (l : Nat) (sp : Space) (a : Opnd) (off : Int) : Int :=
  match sp with
  | .glb => ((readOp d m w l 64 a : Int) + off) % 2 ^ 64
  | _ => (readOp d m w l 32 a : Int) + off

/-- The low 64 bits of an address. -/
def addr64 (x : Int) : BitVec 64 := BitVec.ofNat 64 (wrapTo 64 x)

/-- Where a lane's checked access lies: pieces of physical memory, or an offset in its group's storage. -/
inductive Where where
  | mem (ps : List (Xlat × Nat))
  | local (core group : Nat) (sp : Space) (off : Nat)
  deriving DecidableEq, Repr

/-- The precise checks of an access (R29, R53, R55, R61, R258). -/
def checkAcc (d : Dev) (m : Mach) (w : Wave) (l : Nat) (sp : Space) (addr : Int) (n : Nat) (acc : Access)
    (align : Bool) : Except Flt Where :=
  match sp with
  | .glb =>
    if align && addr % n != 0 then .error ⟨0x02, addr64 addr⟩
    else match translateRange d m (coreDie w.core) w.asid (addr64 addr) n acc false with
      | .error f => .error f
      | .ok ps => .ok (.mem ps)
  | sp =>
    match m.laneGroup w l with
    | none => .error ⟨0x02, addr64 addr⟩
    | some g => if g.inside sp addr n true then .ok (.local w.core g.id sp addr.toNat) else .error ⟨0x02, addr64 addr⟩

/-- A failing transfer that an access to a piece meets (R456). -/
def failingIn (m : Mach) (core : Nat) (p : Xlat × Nat) : Option (Nat × Nat × Nat) :=
  m.failing.find? fun f => f.1 == core && decide (f.2.2 < p.1.pa + p.2) && decide (p.1.pa < f.2.2 + 32)

/-- The failing transfers that an access has met are its own. -/
def meetFailing (core : Nat) (ps : List (Xlat × Nat)) (m : Mach) : Mach :=
  ps.foldl (fun m p => match failingIn m core p with
    | some f => { m with failing := m.failing.erase f }
    | none => m) m

/-- The pieces of an access, each with its offset from the first byte. -/
def withOffs (ps : List (Xlat × Nat)) : List (Nat × Xlat × Nat) :=
  (ps.foldl (fun (r : List (Nat × Xlat × Nat) × Nat) p => (r.1 ++ [(r.2, p)], r.2 + p.2)) ([], 0)).1

/-- The fault that the homes of a global access report, with the first address it meets (R148): a failing transfer, an error
response of a page, or a lost word (R93, R263, R456). -/
def homeFault (m : Mach) (core : Nat) (va : BitVec 64) (ps : List (Xlat × Nat)) (l1 : Bool) : Option Flt :=
  match (withOffs ps).find? fun p => p.2.1.err.isSome with
  | some (o, p) => match failingIn m core p with
    | some f => some ⟨f.2.1, va + BitVec.ofNat 64 (o + (f.2.2 - p.1.pa))⟩
    | none => some ⟨p.1.err.getD 0, va + BitVec.ofNat 64 o⟩
  | none =>
    match (withOffs ps).findSome? fun p =>
        (if l1 then m.loadLost core p.2.1.pa p.2.2 else m.lostIn p.2.1.pa p.2.2).map fun a =>
          (va.toNat + p.1) / 8 * 8 + (a - p.2.1.pa / 8 * 8) with
    | some k => some ⟨0x40, BitVec.ofNat 64 k⟩
    | none => none

/-! Ordering -/

/-- The surrogate group that a lane's loads see the held words of (R113). -/
def holder (w : Wave) (l : Nat) : Option (Nat × Nat) :=
  if w.guarded then (w.lane l).group.map fun g => (w.core, g) else none

/-- An acquire: the sweep of the core's L1 at die scope or wider (R96). -/
def acquireAt (core : Nat) (o : Order) (sc : Scope) (m : Mach) : Mach :=
  if acquires o && wideScope sc then { m with coh := m.coh.sweep core } else m

/-- Some store of the lanes has not been performed; or of the core, but for those parked, whose values the lanes may have
read; or, at package scope or wider, an acknowledgement of the lanes is not received; or, at system scope, a numbered
store is not applied on every module (R95, R104, R106). -/
def storesOpen (m : Mach) (core wave : Nat) (mask : BitVec 64) (sc : Scope) : Bool :=
  !(m.storesOf core wave mask).isEmpty
    || (m.coh.stores.any fun s => s.core == core && s.record.isNone)
    || (arbited sc && m.acksOpen core wave mask)
    || (sc == .sys && !m.coh.reps.isEmpty)

/-- A release: at die scope or wider the earlier stores of the core are performed at their homes, those of other waves too,
whose values its threads may have read; at package scope or wider their acknowledgements are received (R95). -/
def releaseAt (d : Dev) (core : Nat) (o : Order) (sc : Scope) (m : Mach) : Mach :=
  if releases o && wideScope sc then
    let m := drainStores d (fun s => s.core == core) m
    if arbited sc then m.receiveAcks core else m
  else m

/-- The release has completed. -/
def releaseDone (m : Mach) (core wave : Nat) (mask : BitVec 64) (o : Order) (sc : Scope) : Bool :=
  !(releases o && wideScope sc) || !storesOpen m core wave mask sc

/-- The die of a core has applied the writes that the fence arbiter counted (R101). -/
def Coh.caughtUp (c : Coh) (core : Nat) (counts : List Nat) : Bool := vecLe counts (c.appliedV.getD (coreDie core) [])

/-- A fence of the path has not completed: later memory words wait for it (R272). -/
def fencePending (m : Mach) (io : Io) : Bool :=
  m.coh.fences.any fun f => f.core == io.w.core && f.wave == io.w.id && f.pc.isNone && (f.mask &&& io.p.mask) != 0

/-- The waiting entry of an ordering access of the path. -/
def Fence.waits (f : Fence) (io : Io) : Bool :=
  f.core == io.w.core && f.wave == io.w.id && f.pc.isSome && (f.mask &&& io.p.mask) != 0

/-- The path's ordering access waits no longer. -/
def Mach.endOrder (m : Mach) (io : Io) : Mach :=
  { m with coh := { m.coh with fences := m.coh.fences.filter fun f => !f.waits io } }

/-- The path's ordering access waits, with the counts of its place in the arbiter's order if it has one (R101, R115). -/
def Mach.waitOrder (m : Mach) (io : Io) (p : Prefix) (counts : Option (List Nat)) : Mach :=
  let m := m.endOrder io
  { m with coh := { m.coh with fences := m.coh.fences ++
    [⟨io.w.core, io.w.id, io.p.mask, p.order, p.scope, p.code, some io.p.pc, counts⟩] } }

/-- Forgets the words that a wave has fetched ahead (R347, R359). -/
def Mach.refetch (m : Mach) (core wave : Nat) : Mach := m.updWave core wave fun w => { w with fetched := [] }

/-- The acquire of an ordering access: the sweep, and with the code bit the words fetched ahead are dropped (R96, R359). -/
def acquireWord (io : Io) (p : Prefix) (m : Mach) : Mach :=
  let m := acquireAt io.w.core p.order p.scope m
  if p.code && acquires p.order then m.refetch io.w.core io.w.id else m

/-- What a memory word waits for before its access: the fences before it, the release of its order (R95), and for a
sequentially consistent access at package scope or wider its place in the arbiter's order (R101). The machine, and whether
the word must wait; where it need not, its acquire has been made. -/
def orderBefore (d : Dev) (m : Mach) (io : Io) (p : Prefix) : Mach × Bool :=
  if fencePending m io then (m, true)
  else if io.act.isEmpty then (m, false)
  else
    let m := releaseAt d io.w.core p.order p.scope m
    if !releaseDone m io.w.core io.w.id (maskOf io.act) p.order p.scope then (m.waitOrder io p none, true)
    else if p.order == .sc && arbited p.scope then
      let counts := ((m.coh.fences.find? fun f => f.waits io && f.pc == some io.p.pc).bind Fence.counts).getD m.coh.issued
      if m.coh.caughtUp io.w.core counts then (acquireWord io p (m.endOrder io), false)
      else (m.waitOrder io p (some counts), true)
    else (acquireWord io p (m.endOrder io), false)

/-! Loads -/

/-- The page is replicated. -/
def Xlat.rep (x : Xlat) : Bool :=
  match x.home with
  | .rep _ => true
  | _ => false

/-- A store in flight touches a word of some piece. -/
def Store.meets (s : Store) (ps : List (Xlat × Nat)) : Bool :=
  s.parts.any fun a => ps.any fun p =>
    decide (a.1 / 8 * 8 < p.1.pa + p.2) && decide (p.1.pa / 8 * 8 < a.1 + a.2.length)

/-- A load of a replicated word waits while its thread has a numbered store to it that is not applied here (R106). -/
def repWait (d : Dev) (m : Mach) (w : Wave) (l : Nat) (ps : List (Xlat × Nat)) : Bool :=
  ps.any fun p => p.1.rep &&
    m.coh.reps.any fun r => r.core == w.core && r.wave == w.id && r.lane == l && !r.acked.contains d.att.modid.toNat
      && decide (r.pa / 8 * 8 < p.1.pa + p.2) && decide (p.1.pa / 8 * 8 < r.pa + r.data.length)

/-- The words of some pieces. -/
def pieceWords (ps : List (Xlat × Nat)) : List Nat := (ps.map fun p => (wordPieces p.1.pa p.2).map Prod.fst).flatten

/-- A page of the host on a PCIe-only attachment: it is uncached (R81, R105). -/
def uncached (d : Dev) (x : Xlat) : Bool := x.home == .host && d.att.mode != 1

/-- Registers words to a core without writing them, and fetches their values into its L1 (R89, R277). Held words, and pages
that no store registers, are left. -/
def registerWords (d : Dev) (w : Wave) (ps : List (Xlat × Nat)) (m : Mach) : Mach :=
  ps.foldl (fun m p =>
    if !p.1.w || p.1.rep || uncached d p.1 then m
    else (wordPieces p.1.pa p.2).foldl (fun m q =>
      if m.coh.lost q.1 || (m.coh.heldOf q.1).isSome || m.coh.ownerCore q.1 == some w.core then m
      else
        let m := { m with coh := m.coh.receiveWord w.core q.1 }
        let m := m.claim ⟨w.core, w.asid, d.att.modid⟩ q.1 false (m.homeValue q.1)
        { m with coh := m.coh.absorb (coreDie w.core) (m.coh.known (homeDie q.1)) }) m) m

/-- The bytes that a lane's load returns (R91, R260): of a replicated page those of the local replica (R106). -/
def loadFrom (m : Mach) (w : Wave) (l : Nat) (at_ : Where) (n : Nat) : List Byte :=
  match at_ with
  | .mem ps => (ps.map fun p =>
      if p.1.rep then m.homeBytes p.1.pa p.2 else m.loadBytes w.core (w.id, l) (holder w l) p.1.pa p.2).flatten
  | .local core g sp off => match m.group core g with
    | some gr => gr.bytes sp off n
    | none => []

/-- What a lane's load meets: bytes, a precise fault, or a fault reported by the home (R263). -/
inductive LoadRes where
  | bytes (bs : List Byte)
  | precise (f : Flt)
  | deferred (f : Flt)
  | wait
  deriving DecidableEq, Repr

/-- The error record of an access that gets no response in time (R455): to another module, or to the host. -/
def timeoutRec (asid : BitVec 16) (x : Xlat) : ErrRec :=
  match x.home with
  | .peer mod => ⟨4, 2, 0, 0, 0, mod, asid, 0x30, 0, 0⟩
  | _ => ⟨5, 2, 0, 0, 0, x.pa - hostAddr 0, asid, 0x30, 0, 0⟩

/-- An access that leaves the module gets no response within the link timeout (R82, R389): a choice (log 3), with its error
record. -/
def noResponse (d : Dev) (asid : BitVec 16) (ps : List (Xlat × Nat)) (m : Mach) : Bool × Mach :=
  match ps.find? fun p => isHost p.1.pa || isPeer p.1.pa with
  | none => (false, m)
  | some p =>
    let r := m.choose 2
    if r.1 = 1 then (true, writeErr d (timeoutRec asid p.1) r.2) else (false, r.2)

/-- A load of one lane. Its own atomics in flight to the words, which no forwarding shows it, come first, and for a
replicated page its own stores (R98, R106). -/
def loadLane (d : Dev) (m : Mach) (w : Wave) (l : Nat) (sp : Space) (addr : Int) (n : Nat) (align : Bool) :
    LoadRes × Mach :=
  match checkAcc d m w l sp addr n .r align with
  | .error f => (.precise f, m)
  | .ok (.mem ps) =>
    let first := fun (s : Store) => s.core == w.core && s.wave == w.id && s.lane == l && s.meets ps
      && (s.op != .write || ps.any fun p => p.1.rep)
    let m := drainStores d first m
    if m.coh.stores.any first || repWait d m w l ps then (.wait, m)
    else match homeFault m w.core (addr64 addr) ps true with
      | some f => (.deferred f, meetFailing w.core ps m)
      | none =>
        let ws := pieceWords ps
        let far := if ws.all (m.coh.near w.core) then (false, m) else noResponse d w.asid ps m
        if far.1 then (.deferred ⟨0x30, addr64 addr⟩, far.2)
        else
          let m := far.2.receiveWords w.core ws
          (.bytes (loadFrom m w l (.mem ps) n), m)
  | .ok x => (.bytes (loadFrom m w l x n), m)

/-- A load of one lane of global memory made at its homes (R110, R111, R254): no copy serves it, the core's stores in flight
to the words come first, and of a replicated page it reads the sequencer's value (R271). -/
def homeLane (d : Dev) (m : Mach) (w : Wave) (l : Nat) (addr : Int) (n : Nat) (align : Bool) : LoadRes × Mach :=
  match checkAcc d m w l .glb addr n .r align with
  | .error f => (.precise f, m)
  | .ok (.local _ _ _ _) => (.bytes [], m)
  | .ok (.mem ps) =>
    let first := fun (s : Store) => s.core == w.core && s.meets ps
    let m := drainStores d first m
    if m.coh.stores.any fun s => first s && (s.record.isNone || (s.wave == w.id && s.lane == l)) then (.wait, m)
    else match homeFault m w.core (addr64 addr) ps false with
      | some f => (.deferred f, meetFailing w.core ps m)
      | none =>
        let far := noResponse d w.asid ps m
        if far.1 then (.deferred ⟨0x30, addr64 addr⟩, far.2)
        else
          let m := far.2
          let m := { m with coh := (pieceWords ps).foldl (fun c x => c.receiveWord w.core x) m.coh }
          (.bytes (ps.map fun (p : Xlat × Nat) =>
            if p.1.rep then m.repBytes p.1.pa p.2 else m.heldBytes (holder w l) p.1.pa p.2).flatten, m)

/-- The register value of loaded bytes, extended (R257). -/
def extendSz (sz : Sz) (bs : List Byte) : Nat :=
  let x := ofBytes bs
  match sz with
  | .s8 => wrapTo 64 (signedOf 8 x)
  | .s16 => wrapTo 64 (signedOf 16 x)
  | .s32 => wrapTo 64 (signedOf 32 x)
  | _ => x

/-- What the lanes of a load have met so far. -/
structure Gather where
  m    : Mach
  vals : List (Nat × List Byte)
  flts : List (Nat × Flt)
  dfl  : List (Nat × BitVec 64 × Flt)
  wait : Bool
  deriving DecidableEq, Repr

/-- Makes a load in each lane in turn. -/
def gatherBy (load : Mach → Nat → LoadRes × Mach) (addr : Nat → Int) (ls : List Nat) (m : Mach) : Gather :=
  ls.foldl (fun g l =>
    match load g.m l with
    | (.bytes bs, m) => { g with m := m, vals := g.vals ++ [(l, bs)] }
    | (.precise f, m) => { g with m := m, flts := g.flts ++ [(l, f)] }
    | (.deferred f, m) => { g with m := m, dfl := g.dfl ++ [(l, addr64 (addr l), f)] }
    | (.wait, m) => { g with m := m, wait := true }) ⟨m, [], [], [], false⟩

/-- Loads `n` bytes in each lane in turn, at addresses that a function gives. -/
def gatherLoads (d : Dev) (w : Wave) (sp : Space) (n : Nat) (align : Bool) (addr : Nat → Int) (ls : List Nat)
    (m : Mach) : Gather :=
  gatherBy (fun m l => loadLane d m w l sp (addr l) n align) addr ls m

/-- A lane that faulted, of an outstanding operation: its pending-result slot reads as zero (R263). -/
def defItem (l : Nat) (va : BitVec 64) (kind : DefKind) : DefItem := ⟨l, true, va, kind, List.replicate 16 0, []⟩

/-- The outstanding operation of the lanes whose home reported a fault (R263). -/
def deferItems (xs : List (Nat × BitVec 64 × Flt)) (kind : Nat → DefKind) : Option (Flt × List DefItem) :=
  match xs with
  | [] => none
  | (_, _, f) :: _ => some (f, xs.map fun x => defItem x.1 x.2.1 (kind x.1))

/-- The effect of a load: lanes that loaded write, lanes that met a precise fault fault, and the others leave the load
outstanding. -/
def loadEff (g : Gather) (sz : Sz) (dst : Opnd) : Eff :=
  if g.wait then Eff.wait g.m
  else
    { Eff.ok g.m (laneOuts sz.regBits dst (g.vals.map fun x => (x.1, extendSz sz x.2))) with
      flts := g.flts, defer := deferItems g.dfl fun _ => .load sz dst }

/-! Stores -/

/-- A lane's store as it goes into flight, of one part (R92, R147). Under the policy no-allocate it is performed at the home,
as it may allocate no line of the L1 (R173, log 92). -/
def newStore (io : Io) (l : Nat) (va : BitVec 64) (pa : Nat) (bs : List Byte) (op : StoreOp) (p : Prefix) (m : Mach) : Store :=
  { tag := m.coh.nextTag, core := io.w.core, wave := io.w.id, lane := l, lanes := BitVec.ofNat 64 (2 ^ l), tid := (io.w.lane l).tid,
    group := (io.w.lane l).group, asid := io.w.asid, pc := io.p.pc, va := va, pa := pa, data := bs, op := op,
    order := orderCode p.order, toHome := p.hint == .home || p.policy == 2, depth := if io.w.record.isSome then some io.w.depth else none,
    more := [], stamp := m.coh.known (coreDie io.w.core), guarded := io.w.guarded, record := none }

/-- Puts a store in flight (R92, R147), and into the list of accesses that wait for a response from outside the module
(R82). -/
def pushStore (s : Store) (homes : List Home) (m : Mach) : Mach :=
  let m := { m with coh := { m.coh with stores := m.coh.stores ++ [s], nextTag := m.coh.nextTag + 1 } }
  let away := homes.findSome? fun h => match h with
    | .peer mod => some (some mod)
    | .host => some none
    | _ => none
  match away with
  | some mod => { m with coh := { m.coh with remote := m.coh.remote ++ [⟨s.tag, mod, s.asid, m.usec, false⟩] } }
  | none => m

/-- A surrogate group's access that is not performed: it marks the group conflicted (R114). -/
def surrogateConflict (m : Mach) (w : Wave) (l : Nat) : Mach :=
  match (w.lane l).group with
  | some g => m.conflict w.core g
  | none => m

/-- A checked store of a lane: into group storage at once, into flight for memory; a surrogate group's store outside HBM
is not performed (R114). -/
def storeAt (io : Io) (l : Nat) (va : BitVec 64) (at_ : Where) (bs : List Byte) (op : StoreOp) (p : Prefix)
    (m : Mach) : Mach :=
  match at_ with
  | .local core g sp off => m.putLocal core g sp off bs
  | .mem ps =>
    if io.w.guarded && ps.any fun x => x.1.home != .hbm then surrogateConflict m io.w l
    else (ps.foldl (fun (r : Mach × Nat) x =>
      (pushStore (newStore io l (va + BitVec.ofNat 64 r.2) x.1.pa ((bs.drop r.2).take x.2) op p r.1) [x.1.home] r.1,
        r.2 + x.2)) (m, 0)).1

/-- The checked parts of a store of some lanes that its homes perform as one unit go into flight together (R111, R249): each
with its virtual address, its pieces and its bytes. -/
def storeUnit (io : Io) (ls : List Nat) (parts : List (BitVec 64 × List (Xlat × Nat) × List Byte)) (p : Prefix) (m : Mach) :
    Mach :=
  let xs := (parts.map fun t => (t.2.1.foldl (fun (r : List (BitVec 64 × Xlat × List Byte) × Nat) x =>
    (r.1 ++ [(t.1 + BitVec.ofNat 64 r.2, x.1, (t.2.2.drop r.2).take x.2)], r.2 + x.2)) ([], 0)).1).flatten
  let l := ls.headD 0
  match xs with
  | [] => m
  | x :: rest =>
    if io.w.guarded && xs.any fun y => y.2.1.home != .hbm then surrogateConflict m io.w l
    else pushStore { newStore io l x.1 x.2.1.pa x.2.2 .write p m with
        lanes := maskOf ls, more := rest.map fun y => (y.1, y.2.1.pa, y.2.2) }
      (xs.map fun y => y.2.1.home) m

/-- Stores of lanes in ascending order (R261), at addresses and with bytes that functions give. -/
def storeLanes (d : Dev) (io : Io) (sp : Space) (n : Nat) (align : Bool) (addr : Nat → Int) (data : Nat → List Byte)
    (p : Prefix) (m : Mach) : Eff :=
  let r := io.act.foldl (fun (r : Mach × List (Nat × Flt)) l =>
    match checkAcc d r.1 io.w l sp (addr l) n .w align with
    | .error f => (r.1, r.2 ++ [(l, f)])
    | .ok at_ => (storeAt io l (addr64 (addr l)) at_ (data l) .write p r.1, r.2)) (m, [])
  { Eff.ok r.1 [] with flts := r.2 }

/-! Atomics (R107, R268 to R271) -/

/-- What an atomic of a lane meets: the old bytes, a precise fault, a fault of the home, or a wait for a frozen frame. -/
inductive AtomRes where
  | old (bs : List Byte)
  | precise (f : Flt)
  | deferred (f : Flt)
  | wait
  deriving DecidableEq, Repr

/-- An operation that a PCIe-only attachment cannot send as an AtomicOp (R81, R271). -/
def pcieRefuses (d : Dev) (ps : List (Xlat × Nat)) (atomicOp : Bool) : Bool :=
  d.att.mode != 1 && !atomicOp && ps.any fun p => p.1.home == .host

/-- An atomic that the root complex of a PCIe-only attachment does not complete (R81, R459). -/
def rootRefuses (d : Dev) (ps : List (Xlat × Nat)) (kind n : Nat) : Bool :=
  ps.any fun p => uncached d p.1 && !Config.rootAtomic kind n

/-- Performs an atomic of a lane at the home of `n` bytes: `f` gives the bytes written, if any. The home learns what the
core's die knows (R102). -/
def atomicHome (d : Dev) (w : Wave) (l : Nat) (x : Xlat) (n : Nat) (f : List Byte → Option (List Byte)) (m : Mach) :
    Option (List Byte × Mach) :=
  match x.home with
  | .rep g =>
    let old := m.repBytes x.pa n
    match f old with
    | some new => some (old, sequenceStore d w.core w.id l g x.pa new m)
    | none => some (old, m)
  | _ =>
    match Mach.frozenWrite d m x.pa with
    | none => none
    | some m =>
      let m := { m with coh := m.coh.absorb (homeDie (x.pa / 8)) (m.coh.known (coreDie w.core)) }
      let old := m.homeBytes x.pa n
      let done : Mach := match f old with
        | some new => ((conflictAt x.pa n m).writeBytes none x.pa new).ownHostLine d x.pa
        | none => (wordPieces x.pa n).foldl (fun m p => m.writeBack p.1 false) m
      some (old, done.dropCopies w.core x.pa n)

/-- An atomic of one lane, on its space: `kind` says which AtomicOp carries it over PCIe, if any. Stores in flight of the
core to the words come first. -/
def atomicLane (d : Dev) (io : Io) (l : Nat) (sp : Space) (addr : Int) (n : Nat) (kind : Option Nat)
    (f : List Byte → Option (List Byte)) (m : Mach) : AtomRes × Mach :=
  match checkAcc d m io.w l sp addr n .w true with
  | .error e => (.precise e, m)
  | .ok (.local core g s off) =>
    match m.group core g with
    | none => (.precise ⟨0x02, addr64 addr⟩, m)
    | some gr =>
      let old := gr.bytes s off n
      (.old old, match f old with
        | some new => m.putLocal core g s off new
        | none => m)
  | .ok (.mem ps) =>
    if io.w.guarded then (.old (List.replicate n 0), surrogateConflict m io.w l)
    else if pcieRefuses d ps kind.isSome then (.precise ⟨0x02, addr64 addr⟩, m)
    else
      let first := fun (s : Store) => s.core == io.w.core && s.meets ps
      let m := drainStores d first m
      if m.coh.stores.any fun s => first s && (s.record.isNone || (s.wave == io.w.id && s.lane == l)) then (.wait, m)
      else if rootRefuses d ps (kind.getD 0) n then (.deferred ⟨0x02, addr64 addr⟩, m)
      else match homeFault m io.w.core (addr64 addr) ps false with
        | some e => (.deferred e, meetFailing io.w.core ps m)
        | none =>
          let far := noResponse d io.w.asid ps m
          if far.1 then (.deferred ⟨0x30, addr64 addr⟩, far.2)
          else match ps with
            | [] => (.wait, far.2)
            | p :: _ =>
              match atomicHome d io.w l p.1 n f far.2 with
              | none => (.wait, far.2)
              | some (old, m) => (.old old, m.receiveWords io.w.core (pieceWords ps))

/-- Atomics of lanes in ascending order (R261): old bytes, and what the lanes met. -/
def atomicLanes (d : Dev) (io : Io) (sp : Space) (n : Nat) (kind : Option Nat) (addr : Nat → Int)
    (f : Nat → List Byte → Option (List Byte)) (m : Mach) : Gather :=
  io.act.foldl (fun g l =>
    if g.wait then g
    else match atomicLane d io l sp (addr l) n kind (f l) g.m with
      | (.old bs, m) => { g with m := m, vals := g.vals ++ [(l, bs)] }
      | (.precise e, m) => { g with m := m, flts := g.flts ++ [(l, e)] }
      | (.deferred e, m) => { g with m := m, dfl := g.dfl ++ [(l, addr64 (addr l), e)] }
      | (.wait, m) => { g with m := m, wait := true }) ⟨m, [], [], [], false⟩

/-! Tiles as operands (R64, R67, R264) -/

/-- The entry of a tile that a group owns. -/
def Group.tile (g : Group) (t : Nat) : Option Tile := (g.tiles.find? fun x => x.1 == t).map Prod.snd

/-- Changes a tile's entry. -/
def Group.updTile (g : Group) (t : Nat) (f : Tile → Tile) : Group :=
  { g with tiles := g.tiles.map fun x => if x.1 = t then (t, f x.2) else x }

/-- The fields of a tile descriptor (R64). -/
structure TDesc where
  base   : Nat
  region : Nat
  esize  : Nat
  rows   : Nat
  cols   : Nat
  pitch  : Nat
  bare   : Bool
  deriving DecidableEq, Repr

/-- Reads a descriptor; the pitch is in bytes, and `rows` and `cols` are the counts less one (R64). -/
def tdesc (x : BitVec 64) : TDesc :=
  let n := x.toNat
  let width := (bitsOf n 27 8 + 1) * 2 ^ bitsOf n 17 2
  { base := 64 * bitsOf n 0 16, region := bitsOf n 16 1, esize := bitsOf n 17 2, rows := bitsOf n 19 8,
    cols := bitsOf n 27 8, pitch := if bitsOf n 35 12 = 0 then (width + 7) / 8 * 8 else 8 * bitsOf n 35 12,
    bare := bitOf n 47 }

/-- Bytes of a row. -/
def TDesc.width (t : TDesc) : Nat := (t.cols + 1) * 2 ^ t.esize

/-- Bytes of a tile's span (R64). -/
def TDesc.span (t : TDesc) : Nat := t.rows * t.pitch + t.width

/-- The space of a tile's region. -/
def TDesc.space (t : TDesc) : Space := if t.region = 0 then .spad else .ostore

/-- What a consumer of a tile meets: the tile, a wait, or fault 0x60 of an abandoned one (R67). -/
inductive TileUse where
  | use (t : Tile)
  | wait
  | gone
  deriving DecidableEq, Repr

/-- The tile as its consumers meet it. -/
def Tile.consume (t : Tile) : TileUse :=
  if t.state == .ready then .use t
  else if t.state == .empty && t.abandoned then .gone
  else .wait

end Sys2Proof.Machine
end

