-- ==== Sys2Proof/Machine/Memops.lean ====
section
/-! DEFINITION. Loads, stores, queue loads and stores, atomics, fences and region instructions (R256 to R278). -/

namespace Sys2Proof.Machine

/-- Words that load from the global space (R174). -/
def globLoad : MemKind := ⟨loadOrders, none, [.glb]⟩
/-- Words that store to the global space. -/
def globStore : MemKind := ⟨storeOrders, none, [.glb]⟩
/-- Words that load from a space of their own. -/
def ownLoad (sp : Space) : MemKind := ⟨loadOrders, some sp, [sp]⟩
/-- Words that store to a space of their own. -/
def ownStore (sp : Space) : MemKind := ⟨storeOrders, some sp, [sp]⟩
/-- Atomics on the global space or scratchpad. -/
def anyAtom : MemKind := ⟨atomOrders, none, [.glb, .spad]⟩
/-- Atomics on the global space. -/
def globAtom : MemKind := ⟨atomOrders, none, [.glb]⟩

/-- A memory word's issue: its operands, the spaces it can use, and whether its order releases. -/
def memInfo (i : Instr) (g : Guard) (la : Option Nat) (k : MemKind) (pre : Option Prefix) (srcs dsts : List (Opnd × Nat))
    (m : Mach) : WordInfo :=
  { instr := i, guard := g, la := la, srcs := srcs, dsts := dsts, preds := [], touch := [],
    bad := badSpace k pre m,
    rel := match m.curPath with
      | some (w, _) => releases (forcePrefix k pre w).order
      | none => false }

/-- A memory word: its effect runs once the fences and the release before it have completed. -/
def memWord (k : MemKind) (pre : Option Prefix) (info : WordInfo) (body : Dev → Mach → Io → Prefix → Eff) (s : State) :
    Host.Outcome State Fault Refusal :=
  runWord info (fun d m io =>
    let p := forcePrefix k pre io.w
    match orderBefore d m io p with
    | (m, true) => Eff.wait m
    | (m, false) => body d m io p) s

/-- The bytes of a store's data operand (R257). -/
def storeData (d : Dev) (m : Mach) (w : Wave) (sz : Sz) (b : Opnd) (l : Nat) : List Byte :=
  toBytes sz.bytes (readOp d m w l sz.regBits b)

/-- Registers the words that a load with the hint own touches (R262), but not under the policy no-allocate (R173, log 92). -/
def ownHint (d : Dev) (p : Prefix) (io : Io) (n : Nat) (addr : Nat → Int) (m : Mach) : Mach :=
  if p.hint == .own && p.policy != 2 && p.space == .glb && !io.w.guarded then
    io.act.foldl (fun m l => match translateRange d m (coreDie io.w.core) io.w.asid (addr64 (addr l)) n .r false with
      | .ok ps => registerWords d io.w ps m
      | .error _ => m) m
  else m

/-- `LD` (R256 to R263). -/
def execLd (g : Guard) (la : Fin 16) (pre : Option Prefix) (sz : Sz) (off : BitVec 12) (d a : Opnd) (s : State) :
    Host.Outcome State Fault Refusal :=
  memWord globLoad pre
    (memInfo (.ld g la pre sz off d a) g (some la.val) globLoad pre [(a, 64)] [(d, sz.regBits)] s.mach)
    (fun dv m io p =>
      let addr := fun l => laneAddr dv m io.w l .glb a off.toInt
      let r := gatherLoads dv io.w .glb sz.bytes false addr io.act m
      loadEff { r with m := ownHint dv p io sz.bytes addr r.m } sz d) s

/-- `ST` (R256 to R262). -/
def execSt (g : Guard) (pre : Option Prefix) (sz : Sz) (off : BitVec 12) (a b : Opnd) (s : State) :
    Host.Outcome State Fault Refusal :=
  memWord globStore pre
    (memInfo (.st g pre sz off a b) g none globStore pre [(a, 64), (b, sz.regBits)] [] s.mach)
    (fun dv m io p =>
      storeLanes dv io .glb sz.bytes false (fun l => laneAddr dv m io.w l .glb a off.toInt)
        (storeData dv m io.w sz b) p m) s

/-- The tile of a tile form, once the group owns it with the region and element size the form needs (R264). -/
def tileOperand (m : Mach) (io : Io) (sp : Space) (t : Fin 64) : Option Tile :=
  match io.group.bind (m.group io.w.core) with
  | none => none
  | some g => match g.tile t.val with
    | none => none
    | some x =>
      let td := tdesc x.desc
      if td.esize = 3 && !td.bare && td.space == sp then some x else none

/-- Offsets of the lanes of a word in scratchpad or operand store with whether each lies outside its tile's shape, or the
word's interlock or fault. -/
def formAddr (d : Dev) (m : Mach) (io : Io) (sp : Space) (form : MForm) (a : Opnd) : Except Eff (Nat → Int × Bool) :=
  match form with
  | .off o => .ok fun l => (laneAddr d m io.w l sp a o.toInt, false)
  | .tile dir t =>
    if io.act.isEmpty then .error (Eff.ok m [])
    else match tileOperand m io sp t with
      | none => .error (Eff.fault m 0x02 0)
      | some x =>
        match x.consume with
        | .wait => .error (Eff.waitTiles m [t.val])
        | .gone => .error (Eff.fault m 0x60 0)
        | .use x =>
          let td := tdesc x.desc
          let i := readUni d m io 32 a
          .ok fun l =>
            let r := if dir then l else i
            let c := if dir then i else l
            (td.base + r * td.pitch + 8 * c, decide (td.rows < r) || decide (td.cols < c))

/-- The sources that a form reads: an offset, or a tile index. -/
def formSrc (a : Opnd) : List (Opnd × Nat) := [(a, 32)]

/-- A load from the group's storage. -/
def localLoad (sp : Space) (i : Instr) (g : Guard) (la : Fin 16) (pre : Option Prefix) (sz : Sz) (form : MForm)
    (d a : Opnd) (s : State) : Host.Outcome State Fault Refusal :=
  memWord (ownLoad sp) pre
    (memInfo i g (some la.val) (ownLoad sp) pre (formSrc a) [(d, sz.regBits)] s.mach)
    (fun dv m io _ => match formAddr dv m io sp form a with
      | .error e => e
      | .ok f =>
        let out := io.act.filter fun l => (f l).2
        let r := gatherLoads dv io.w sp sz.bytes true (fun l => (f l).1) (io.act.filter fun l => !(f l).2) m
        loadEff { r with flts := (io.act.filterMap fun l =>
          if out.contains l then some (l, ⟨0x02, addr64 (f l).1⟩) else r.flts.find? fun x => x.1 == l) } sz d) s

/-- A store to the group's storage. -/
def localStore (sp : Space) (i : Instr) (g : Guard) (pre : Option Prefix) (sz : Sz) (form : MForm) (a b : Opnd)
    (s : State) : Host.Outcome State Fault Refusal :=
  memWord (ownStore sp) pre
    (memInfo i g none (ownStore sp) pre (formSrc a ++ [(b, sz.regBits)]) [] s.mach)
    (fun dv m io p => match formAddr dv m io sp form a with
      | .error e => e
      | .ok f =>
        let e := storeLanes dv { io with act := io.act.filter fun l => !(f l).2 } sp sz.bytes true (fun l => (f l).1)
          (storeData dv m io.w sz b) p m
        { e with flts := (io.act.filterMap fun l =>
          if (f l).2 then some (l, ⟨0x02, addr64 (f l).1⟩) else e.flts.find? fun x => x.1 == l) }) s

/-- `LDS` (R256 to R264). -/
def execLds (g : Guard) (la : Fin 16) (pre : Option Prefix) (sz : Sz) (form : MForm) (d a : Opnd) (s : State) :
    Host.Outcome State Fault Refusal :=
  localLoad .spad (.lds g la pre sz form d a) g la pre sz form d a s

/-- `STS` (R256 to R264). -/
def execSts (g : Guard) (pre : Option Prefix) (sz : Sz) (form : MForm) (a b : Opnd) (s : State) :
    Host.Outcome State Fault Refusal :=
  localStore .spad (.sts g pre sz form a b) g pre sz form a b s

/-- `LDB` (R256 to R264). -/
def execLdb (g : Guard) (la : Fin 16) (pre : Option Prefix) (sz : Sz) (form : MForm) (d a : Opnd) (s : State) :
    Host.Outcome State Fault Refusal :=
  localLoad .ostore (.ldb g la pre sz form d a) g la pre sz form d a s

/-- `STB` (R256 to R264). -/
def execStb (g : Guard) (pre : Option Prefix) (sz : Sz) (form : MForm) (a b : Opnd) (s : State) :
    Host.Outcome State Fault Refusal :=
  localStore .ostore (.stb g pre sz form a b) g pre sz form a b s

/-! Queue loads and stores (R38, R40, R266) -/

/-- Entries that a size moves (R266). -/
def szEntries (sz : Sz) : Nat := max 1 (sz.regBits / 32)

/-- The compute wave of a shadow wave. -/
def partnerOf (m : Mach) (w : Wave) : Option Wave := w.partner.bind (m.wave w.core)

/-- Pushes entries onto a lane's load queue of a wave. -/
def pushLoadQueue (core wave l q : Nat) (xs : List (Option Word)) (m : Mach) : Mach :=
  m.updWave core wave fun w => w.updLane l fun x => { x with lq := updAt x.lq q fun e => e ++ xs }

/-- The entries of loaded bytes, low word first. -/
def queueEntries (sz : Sz) (bs : List Byte) : List (Option Word) :=
  (List.range (szEntries sz)).map fun i => some (BitVec.ofNat 32 (bitsOf (extendSz sz bs) (32 * i) 32))

/-- `LDQ` (R266): legal in a shadow wave only. When the compute wave has exited, the values are discarded (R40). -/
def execLdq (g : Guard) (pre : Option Prefix) (sz : Sz) (off : BitVec 12) (q : Fin 12) (a : Opnd) (s : State) :
    Host.Outcome State Fault Refusal :=
  let info := memInfo (.ldq g pre sz off q a) g none globLoad pre [(a, 64)] [] s.mach
  memWord globLoad pre
    { info with bad := info.bad || (match s.mach.curPath with
        | some (w, _) => !w.shadow
        | none => false) }
    (fun dv m io p =>
      let addr := fun l => laneAddr dv m io.w l .glb a off.toInt
      let room := fun l => match partnerOf m io.w with
        | some c => c.ended || decide (((c.lane l).lq.getD q.val []).length + szEntries sz ≤ 16)
        | none => true
      if !(io.act.all room) then Eff.wait m
      else
        let r := gatherLoads dv io.w .glb sz.bytes false addr io.act m
        if r.wait then Eff.wait r.m
        else
          let live := match partnerOf m io.w with
            | some c => !c.ended
            | none => false
          let push := fun (m : Mach) (x : Nat × List (Option Word)) =>
            if live then pushLoadQueue io.w.core (io.w.partner.getD 0) x.1 q.val x.2 m else m
          let m := (r.vals.map fun x => (x.1, queueEntries sz x.2)).foldl push (ownHint dv p io sz.bytes addr r.m)
          let m := (r.dfl.map fun x => (x.1, List.replicate (szEntries sz) none)).foldl push m
          { Eff.ok m [] with flts := r.flts, defer := deferItems r.dfl fun _ => .ldq sz q }) s

/-- `STQ` (R40, R266): legal in a shadow wave only. -/
def execStq (g : Guard) (pre : Option Prefix) (sz : Sz) (off : BitVec 12) (a : Opnd) (q : Fin 12) (s : State) :
    Host.Outcome State Fault Refusal :=
  let info := memInfo (.stq g pre sz off a q) g none globStore pre [(a, 64)] [] s.mach
  memWord globStore pre
    { info with bad := info.bad || (match s.mach.curPath with
        | some (w, _) => !w.shadow
        | none => false) }
    (fun dv m io p =>
      let entries := fun l => match partnerOf m io.w with
        | some c => (c.lane l).sq.getD q.val []
        | none => []
      let gone := match partnerOf m io.w with
        | some c => c.ended
        | none => true
      if io.act.any fun l => decide ((entries l).length < szEntries sz) then
        (if gone then Eff.fault m 0x60 (BitVec.ofNat 64 q.val) else Eff.wait m)
      else
        let value := fun l => regWords (entries l) 0 (szEntries sz)
        let e := storeLanes dv io .glb sz.bytes false (fun l => laneAddr dv m io.w l .glb a off.toInt)
          (fun l => toBytes sz.bytes (value l)) p m
        let took := io.act.filter fun l => !(e.flts.any fun f => f.1 == l)
        { e with m := e.m.updWave io.w.core (io.w.partner.getD 0) fun c =>
            c.updLanes (maskOf took) fun x => { x with sq := updAt x.sq q.val fun y => y.drop (szEntries sz) } }) s

/-- Brings a word into a core's L1 as an unregistered copy (R91), unless the core holds it or it is lost, or it is a host word
of a PCIe-only attachment, which is uncached (R81, R105). -/
def fillCopy (d : Dev) (core : Nat) (asid : BitVec 16) (w : Nat) (m : Mach) : Mach :=
  if (m.coh.l1Of core w).isSome || m.coh.lost w || (isHost (8 * w) && d.att.mode != 1) then m
  else { m with coh := m.coh.setL1 ⟨core, asid, w, false, false, m.coreWord core w⟩ }

/-- `PREF` (R267): the line arrives as unregistered copies, or registered with the hint own; it never faults. -/
def execPref (g : Guard) (pre : Option Prefix) (off : BitVec 12) (a : Opnd) (s : State) :
    Host.Outcome State Fault Refusal :=
  let k : MemKind := ⟨[.rlx], none, [.glb]⟩
  runWord (memInfo (.pref g pre off a) g none k pre [(a, 64)] [] s.mach)
    (fun dv m io =>
      let p := forcePrefix k pre io.w
      Eff.ok (io.act.foldl (fun m l =>
        let va := (addr64 (laneAddr dv m io.w l .glb a off.toInt)) &&& ~~~63
        match translate dv m (coreDie io.w.core) io.w.asid va .r false with
        | .error _ => m
        | .ok x =>
          if x.err.isSome || p.policy == 2 then m
          else
            let m := if p.hint == .own && !io.w.guarded then registerWords dv io.w [(x, 64)] m else m
            let ws := (wordPieces x.pa 64).map Prod.fst
            ws.foldl (fun m q => fillCopy dv io.w.core io.w.asid q m) (m.receiveWords io.w.core ws)) m) []) s

/-! Atomics -/

/-- The effect of a value-returning atomic on its destination. -/
def atomEff (g : Gather) (bits : Nat) (dst : Opnd) (val : List Byte → Nat) (kind : Nat → DefKind) : Eff :=
  if g.wait then Eff.wait g.m
  else
    { Eff.ok g.m (laneOuts bits dst (g.vals.map fun x => (x.1, val x.2))) with
      flts := g.flts, defer := deferItems g.dfl kind }

/-- The bytes an `ATOM` writes (R268). -/
def atomNew (op : AtomOp) (ty : Ty) (b : Nat) (old : List Byte) : List Byte :=
  match op with
  | .fadd => toBytes 4 (fadd32 .rne (ofBytes old) (b % 2 ^ 32))
  | op => toBytes (ty.bits / 8) (atomInt op ty (ofBytes old) b)

/-- `ATOM` without return: a store in flight that its home performs (R147, R268). In scratchpad the bank performs it. -/
def atomNoReturn (d : Dev) (io : Io) (p : Prefix) (op : AtomOp) (ty : Ty) (a b : Opnd) (m : Mach) : Eff :=
  let n := ty.bits / 8
  let r := io.act.foldl (fun (r : Mach × List (Nat × Flt)) l =>
    let addr := laneAddr d m io.w l p.space a 0
    let x := readOp d m io.w l ty.regBits b
    match checkAcc d r.1 io.w l p.space addr n .w true with
    | .error f => (r.1, r.2 ++ [(l, f)])
    | .ok (.local core g sp off) => match r.1.group core g with
      | some gr => (r.1.putLocal core g sp off (atomNew op ty x (gr.bytes sp off n)), r.2)
      | none => r
    | .ok (.mem ps) =>
      if io.w.guarded then (surrogateConflict r.1 io.w l, r.2)
      else if pcieRefuses d ps (atomicOpOf op).isSome then (r.1, r.2 ++ [(l, ⟨0x02, addr64 addr⟩)])
      else (storeAt io l (addr64 addr) (.mem ps) (toBytes n x) (.atom op ty (BitVec.ofNat 64 x)) p r.1, r.2)) (m, [])
  { Eff.ok r.1 [] with flts := r.2 }

/-- `ATOM` (R261, R268, R271). -/
def execAtom (g : Guard) (la : Fin 16) (pre : Option Prefix) (op : AtomOp) (ty : Ty) (d : Option Opnd) (a b : Opnd)
    (s : State) : Host.Outcome State Fault Refusal :=
  let bits := fun (w : Wave) => if (forcePrefix anyAtom pre w).space == .glb then 64 else 32
  let abits := match s.mach.curPath with
    | some (w, _) => bits w
    | none => 64
  let dsts := match d with
    | some o => [(o, rb ty)]
    | none => []
  let info := memInfo (.atom g la pre op ty d a b) g (d.map fun _ => la.val) anyAtom pre [(a, abits), (b, rb ty)] dsts s.mach
  memWord anyAtom pre { info with bad := info.bad || !a.aligned abits }
    (fun dv m io p =>
      match d with
      | none => atomNoReturn dv io p op ty a b m
      | some o =>
        let x := fun l => readOp dv m io.w l (rb ty) b
        let r := atomicLanes dv io p.space (ty.bits / 8) (atomicOpOf op) (fun l => laneAddr dv m io.w l p.space a 0)
          (fun l old => some (atomNew op ty (x l) old)) m
        atomEff r (rb ty) o ofBytes fun l => .atom op ty (BitVec.ofNat 64 (x l)) o) s

/-- `CAS` (R269). -/
def execCas (g : Guard) (la : Fin 16) (pre : Option Prefix) (ty : Ty) (d a b c : Opnd) (s : State) :
    Host.Outcome State Fault Refusal :=
  let abits := match s.mach.curPath with
    | some (w, _) => if (forcePrefix anyAtom pre w).space == .glb then 64 else 32
    | none => 64
  let info := memInfo (.cas g la pre ty d a b c) g (some la.val) anyAtom pre [(a, abits), (b, rb ty), (c, rb ty)]
    [(d, rb ty)] s.mach
  memWord anyAtom pre { info with bad := info.bad || !a.aligned abits }
    (fun dv m io p =>
      let n := ty.bits / 8
      let x := fun l => readOp dv m io.w l (rb ty) b
      let y := fun l => readOp dv m io.w l (rb ty) c
      let r := atomicLanes dv io p.space n (some 2) (fun l => laneAddr dv m io.w l p.space a 0)
        (fun l old => if ofBytes old = x l then some (toBytes n (y l)) else none) m
      atomEff r (rb ty) d ofBytes fun l => .cas n (BitVec.ofNat 128 (x l)) (BitVec.ofNat 128 (y l)) d) s

/-- `CAS128` (R110, R269). -/
def execCas128 (g : Guard) (la : Fin 16) (pre : Option Prefix) (d a b c : Opnd) (s : State) :
    Host.Outcome State Fault Refusal :=
  memWord globAtom pre
    (memInfo (.cas128 g la pre d a b c) g (some la.val) globAtom pre [(a, 64), (b, 128), (c, 128)] [(d, 128)] s.mach)
    (fun dv m io _ =>
      let x := fun l => readOp dv m io.w l 128 b
      let y := fun l => readOp dv m io.w l 128 c
      let r := atomicLanes dv io .glb 16 (some 2) (fun l => laneAddr dv m io.w l .glb a 0)
        (fun l old => if ofBytes old = x l then some (toBytes 16 (y l)) else none) m
      atomEff r 128 d ofBytes fun l => .cas 16 (BitVec.ofNat 128 (x l)) (BitVec.ofNat 128 (y l)) d) s

/-- A lane's aligned 16-byte access that meets a page of a PCIe-only attachment, which faults (R271). -/
def pcie128 (d : Dev) (m : Mach) (w : Wave) (addr : Int) (acc : Access) (l : Nat) : Bool :=
  match checkAcc d m w l .glb addr 16 acc true with
  | .ok (.mem ps) => pcieRefuses d ps false
  | _ => false

/-- `LD128A` (R110, R270): one access to the pair, made at its home. -/
def execLd128a (g : Guard) (la : Fin 16) (pre : Option Prefix) (off : BitVec 12) (d a : Opnd) (s : State) :
    Host.Outcome State Fault Refusal :=
  memWord globLoad pre
    (memInfo (.ld128a g la pre off d a) g (some la.val) globLoad pre [(a, 64)] [(d, 128)] s.mach)
    (fun dv m io p =>
      let addr := fun l => laneAddr dv m io.w l .glb a off.toInt
      let r := gatherBy (fun m l => if pcie128 dv m io.w (addr l) .r l then (.precise ⟨0x02, addr64 (addr l)⟩, m)
        else homeLane dv m io.w l (addr l) 16 true) addr io.act m
      { loadEff { r with m := ownHint dv p io 16 addr r.m } .b128 d with defer := deferItems r.dfl fun _ => .pair d }) s

/-- `ST128A` (R110, R270). -/
def execSt128a (g : Guard) (pre : Option Prefix) (off : BitVec 12) (a b : Opnd) (s : State) :
    Host.Outcome State Fault Refusal :=
  memWord globStore pre
    (memInfo (.st128a g pre off a b) g none globStore pre [(a, 64), (b, 128)] [] s.mach)
    (fun dv m io p =>
      let addr := fun l => laneAddr dv m io.w l .glb a off.toInt
      let no := io.act.filter fun l => pcie128 dv m io.w (addr l) .w l
      let e := storeLanes dv { io with act := io.act.filter fun l => !no.contains l } .glb 16 true addr
        (storeData dv m io.w .b128 b) p m
      { e with flts := io.act.filterMap fun l =>
          if no.contains l then some (l, ⟨0x02, addr64 (addr l)⟩) else e.flts.find? fun x => x.1 == l }) s

/-! Fences and regions -/

/-- `FENCE` (R95, R96, R101, R272): a fence that cannot complete at once, or that the arbiter serialises, waits at
`Coh.fences`, and later memory words of the path wait for it. In a surrogate group a fence at package or system scope is
not performed, and marks the group of each of its threads (R114). -/
def execFence (g : Guard) (pre : Prefix) (s : State) : Host.Outcome State Fault Refusal :=
  runWord { shortInfo (.fence g pre) g [] [] [] with rel := releases pre.order }
    (fun d m io =>
      if io.act.isEmpty then Eff.ok m []
      else if fencePending m io then Eff.wait m
      else if io.w.guarded && arbited pre.scope then
        Eff.ok (io.act.foldl (fun m l => surrogateConflict m io.w l) m) []
      else
        let m := releaseAt d io.w.core pre.order pre.scope m
        if releaseDone m io.w.core io.w.id (maskOf io.act) pre.order pre.scope
            && !(pre.order == .sc && arbited pre.scope) then
          Eff.ok (acquireWord io pre m) []
        else
          Eff.ok { m with coh := { m.coh with
            fences := m.coh.fences ++ [⟨io.w.core, io.w.id, io.p.mask, pre.order, pre.scope, pre.code, none, none⟩] } } []) s

/-- The mapped pieces of a byte range, page by page: unmapped pages are skipped (R274). -/
def mappedPieces (d : Dev) (m : Mach) (w : Wave) (a n : Nat) : List (Xlat × Nat) :=
  let lo := a / 8 * 8
  let hi := if n = 0 then lo else (a + n + 7) / 8 * 8
  let cnt := if n = 0 then 0 else (hi - 1) / 4096 - lo / 4096 + 1
  ((List.range cnt).map fun i =>
    let x := max lo (4096 * (lo / 4096 + i))
    let y := min hi (4096 * (lo / 4096 + i) + 4096)
    match translate d m (coreDie w.core) w.asid (BitVec.ofNat 64 x) .r true with
    | .ok t => if x < 2 ^ 57 then [(t, y - x)] else []
    | .error _ => []).flatten

/-- A word number lies in some piece. -/
def inPieces (ps : List (Xlat × Nat)) (w : Nat) : Bool :=
  ps.any fun p => decide (p.1.pa ≤ 8 * w) && decide (8 * w < p.1.pa + p.2)

/-- A 64-byte line has a word in some piece. -/
def lineIn (ps : List (Xlat × Nat)) (line : Nat) : Bool := (List.range 8).any fun i => inPieces ps (8 * line + i)

/-- A region word: its two operands, read once for the path. -/
def regionWord (i : Instr) (g : Guard) (k : MemKind) (pre : Option Prefix) (a b : Opnd)
    (body : Dev → Mach → Io → Prefix → Nat → Nat → Eff) (s : State) : Host.Outcome State Fault Refusal :=
  memWord k pre (memInfo i g none k pre [(a, 64), (b, 64)] [] s.mach)
    (fun d m io p => if io.act.isEmpty then Eff.ok m []
      else body d m io p (readUni d m io 64 a) (readUni d m io 64 b)) s

/-- Performs the stores in flight of a path to a range of pieces. -/
def drainRange (d : Dev) (io : Io) (ps : List (Xlat × Nat)) (m : Mach) : Mach :=
  drainStores d (fun s => s.core == io.w.core && s.wave == io.w.id && (s.lanes &&& io.p.mask) != 0 && s.meets ps) m

/-- Stores of a path to a range of pieces are still in flight. -/
def rangeOpen (io : Io) (ps : List (Xlat × Nat)) (m : Mach) : Bool :=
  m.coh.stores.any fun s => s.core == io.w.core && s.wave == io.w.id && (s.lanes &&& io.p.mask) != 0 && s.meets ps

/-- Words that `INVR` keeps: an acquire of the region sweeps only the region (R96), so the word's own order is not the
sweep of the whole L1. -/
def regionSweep (core : Nat) (ps : List (Xlat × Nat)) (m : Mach) : Mach :=
  { m with coh := { m.coh with l1 := m.coh.l1.filter fun y => y.core != core || y.reg || !inPieces ps y.word } }

/-- `INVR` (R274, R275). -/
def execInvr (g : Guard) (pre : Option Prefix) (a b : Opnd) (s : State) : Host.Outcome State Fault Refusal :=
  let k : MemKind := ⟨[.rlx, .acq], none, [.glb]⟩
  runWord (memInfo (.invr g pre a b) g none k pre [(a, 64), (b, 64)] [] s.mach)
    (fun d m io =>
      if io.act.isEmpty then Eff.ok m []
      else if fencePending m io then Eff.wait m
      else
        let p := forcePrefix k pre io.w
        let m := if p.code && acquires p.order then m.refetch io.w.core io.w.id else m
        Eff.ok (regionSweep io.w.core (mappedPieces d m io.w (readUni d m io 64 a) (readUni d m io 64 b)) m) []) s

/-- `WBR` (R274, R276). -/
def execWbr (g : Guard) (pre : Option Prefix) (a b : Opnd) (s : State) : Host.Outcome State Fault Refusal :=
  regionWord (.wbr g pre a b) g ⟨[.rlx, .rel], none, [.glb]⟩ pre a b
    (fun d m io _ x n =>
      let ps := mappedPieces d m io.w x n
      let m := drainRange d io ps m
      let ws := (m.coh.l1.filter fun y => y.core == io.w.core && y.reg && inPieces ps y.word).map L1Word.word
      Eff.ok (m.writeBackAll ws true) []) s

/-- `REGW` (R274, R277). -/
def execRegw (g : Guard) (pre : Option Prefix) (a b : Opnd) (s : State) : Host.Outcome State Fault Refusal :=
  regionWord (.regw g pre a b) g ⟨[.rlx], none, [.glb]⟩ pre a b
    (fun d m io _ x n =>
      if n = 0 then Eff.ok m []
      else
        let lo := x / 8 * 8
        match translateRange d m (coreDie io.w.core) io.w.asid (BitVec.ofNat 64 lo) ((x + n + 7) / 8 * 8 - lo) .w false with
        | .error f => Eff.fault m f.code f.addr
        | .ok ps => if io.w.guarded then Eff.ok m [] else Eff.ok (registerWords d io.w ps (drainRange d io ps m)) []) s

/-- `ICINV` (R274, R278). -/
def execIcinv (g : Guard) (pre : Option Prefix) (a b : Opnd) (s : State) : Host.Outcome State Fault Refusal :=
  regionWord (.icinv g pre a b) g ⟨[.rlx], none, [.glb]⟩ pre a b
    (fun d m io _ x n =>
      let ps := mappedPieces d m io.w x n
      let m := drainRange d io ps m
      if rangeOpen io ps m then Eff.wait m
      else Eff.ok { m with coh := { m.coh with icache := m.coh.icache.filter fun y => !lineIn ps (y.pa / 64) } } []) s

end Sys2Proof.Machine
end

