-- ==== Sys2Proof/Machine/Narrow.lean ====
section
/-! DEFINITION. Packed dot products, quantizing, packing, described blocks, MX pairs and companding tables (R83, R84, R111,
R123 to R128, R244 to R255). -/

namespace Sys2Proof.Machine

/-- The values of n packed elements of a width (R244). -/
def packed (bits n : Nat) (val : Nat → FVal) (x : Nat) : List FVal :=
  (List.range n).map fun i => val (bitsOf x (bits * i) bits)

/-- An exact value as an integer times a power of two; 0 of a NaN or infinity. -/
def exactOf : FVal → Int × Int
  | .num neg m q => (signed neg m, q)
  | _ => (0, 0)

/-- A dot product of elements plus c, rounded once (R244). -/
def dotV (rm : RMode) (xs ys : List FVal) (c : FVal) : Nat :=
  if xs.contains .nan || ys.contains .nan || c == .nan then nanCode .f32
  else match c with
    | .num n3 m3 q3 =>
      let t := (List.zip xs ys).foldl (fun acc p =>
        exactSum acc ((exactOf p.1).1 * (exactOf p.2).1, (exactOf p.1).2 + (exactOf p.2).2)) (0, 0)
      roundSum .f32 rm false (exactSum t (signed n3 m3, q3)) (if t.1 = 0 then zeroSign rm false n3 else rm == .rdn)
    | c => fround .f32 rm false c

/-- The value of a `DOT4` element (R244). -/
def dot4Val (f : Fin 4) (x : Nat) : FVal := if f = 0 then elemVal .s4 127 x else elemVal .n4e2 127 x

/-- The value of a `DOT8` element (R244). -/
def dot8Val (f : Fin 4) (x : Nat) : FVal :=
  if f = 0 then elemVal .s8 127 x else if f = 1 then elemVal .n8e4 127 x else elemVal .n8e5 127 x

/-- A dot-product word. -/
def dotWord (i : Instr) (g : Guard) (rm : RMode) (d a b c : Opnd) (bits n : Nat) (va vb : Nat → FVal) (s : State) :
    Host.Outcome State Fault Refusal :=
  laneWord (shortInfo i g [(a, 32), (b, 32), (c, 32)] [(d, 32)] []) d 32
    (fun dv m w l => dotV rm (packed bits n va (readOp dv m w l 32 a)) (packed bits n vb (readOp dv m w l 32 b))
      (readF dv m w l .f32 false c)) s

/-- `DOT4` (R244). -/
def execDot4 (g : Guard) (fa fb : Fin 4) (rm : RMode) (d a b c : Opnd) (s : State) : Host.Outcome State Fault Refusal :=
  dotWord (.dot4 g fa fb rm d a b c) g rm d a b c 4 8 (dot4Val fa) (dot4Val fb) s

/-- `DOT8` (R244). -/
def execDot8 (g : Guard) (fa fb : Fin 4) (rm : RMode) (d a b c : Opnd) (s : State) : Host.Outcome State Fault Refusal :=
  dotWord (.dot8 g fa fb rm d a b c) g rm d a b c 8 4 (dot8Val fa) (dot8Val fb) s

/-! Quantizing -/

/-- Companding table `tab` of the wave's context, if it is loaded (R126, R254). -/
def ctabOf (m : Mach) (w : Wave) (tab : Fin 4) : Option (List Byte) :=
  match m.ctx w.asid with
  | some c => (c.ctabs.getD (tab.val - 1) none)
  | none => none

/-- Greatest magnitude of a companded format (R127). -/
def compandMax (ef : EFmt) : Nat := if ef == .s4 then 7 else 127

/-- The code that `QNT` writes, or none when its table is not loaded (R245). -/
def qntCode (m : Mach) (w : Wave) (ef : EFmt) (rm : RMode) (nan : Bool) (tab : Fin 4) (sc : Nat) (v : FVal) :
    Option Nat :=
  if tab = 0 then some (elemCode ef rm nan sc v)
  else match ctabOf m w tab with
    | none => none
    | some t => some (if sc = 0xFF then 0 else wrapTo (efmtBits ef) (compand t (compandMax ef) rm sc v))

/-- `QNT` (R245). -/
def execQnt (g : Guard) (ef : EFmt) (rm : RMode) (nan : Bool) (tab : Fin 4) (d a b : Opnd) (s : State) :
    Host.Outcome State Fault Refusal :=
  runWord (shortInfo (.qnt g ef rm nan tab d a b) g [(a, 32), (b, 32)] [(d, 32)] [])
    (fun dv m io =>
      let r := io.act.map fun l =>
        (l, qntCode m io.w ef rm nan tab (readOp dv m io.w l 32 b % 256) (readF dv m io.w l .f32 false a))
      { Eff.ok m (laneOuts 32 d (r.filterMap fun x => x.2.map fun c => (x.1, c))) with
        flts := (r.filter fun x => x.2.isNone).map fun x => (x.1, ⟨0x20, 0⟩) }) s

/-- A narrow operand of an element format in a lane, as its code (R165, R230). -/
def readElem (dv : Dev) (m : Mach) (w : Wave) (l : Nat) (ef : EFmt) (o : Opnd) : Nat :=
  match o with
  | .imm n =>
    let x : Int := (n.val : Int) - 128
    elemCode ef .rne false 127 (.num (decide (x < 0)) x.natAbs 0)
  | o => readOp dv m w l 32 o % 2 ^ efmtBits ef

/-- The value that `DQNT` writes, or none when its table is not loaded (R246). A companded code 0 has the sign +
(log 97). -/
def dqntVal (m : Mach) (w : Wave) (ef : EFmt) (tab : Fin 4) (sc x : Nat) : Option Nat :=
  if tab = 0 then some (fround .f32 .rne false (elemVal ef sc x))
  else match ctabOf m w tab with
    | none => none
    | some t =>
      if sc = 0xFF then some (nanCode .f32)
      else
        let c := signedOf (efmtBits ef) x
        some (fround .f32 .rne false (.num (decide (c < 0)) (expand t (compandMax ef) c) ((sc : Int) - 127 - 12)))

/-- `DQNT` (R246). -/
def execDqnt (g : Guard) (ef : EFmt) (tab : Fin 4) (d a b : Opnd) (s : State) : Host.Outcome State Fault Refusal :=
  runWord (shortInfo (.dqnt g ef tab d a b) g [(a, 32), (b, 32)] [(d, 32)] [])
    (fun dv m io =>
      let r := io.act.map fun l =>
        (l, dqntVal m io.w ef tab (readOp dv m io.w l 32 b % 256) (readElem dv m io.w l ef a))
      { Eff.ok m (laneOuts 32 d (r.filterMap fun x => x.2.map fun c => (x.1, c))) with
        flts := (r.filter fun x => x.2.isNone).map fun x => (x.1, ⟨0x20, 0⟩) }) s

/-- `BSCL` (R247). -/
def execBscl (g : Guard) (ef : EFmt) (d a : Opnd) (s : State) : Host.Outcome State Fault Refusal :=
  laneWord (shortInfo (.bscl g ef d a) g [(a, 32)] [(d, 32)] []) d 32
    (fun dv m w l => blockScale ef (readF dv m w l .f32 false a).abs) s

/-- Bits of a packing element (R248). -/
def eszBits (e : Fin 3) : Nat := 4 * 2 ^ e.val

/-- `PKB` (R248). -/
def execPkb (g : Guard) (esz : Fin 3) (pos : Fin 16) (d a : Opnd) (s : State) : Host.Outcome State Fault Refusal :=
  laneWord (shortInfo (.pkb g esz pos d a) g [(a, 32), (d, 32)] [(d, 32)] []) d 32
    (fun dv m w l =>
      let x := readOp dv m w l 32 d
      let lo := eszBits esz * pos.val
      x - 2 ^ lo * bitsOf x lo (eszBits esz) + 2 ^ lo * bitsOf (readOp dv m w l 32 a) 0 (eszBits esz)) s

/-- `UPKB` (R248). -/
def execUpkb (g : Guard) (esz : Fin 3) (pos : Fin 16) (d a : Opnd) (s : State) : Host.Outcome State Fault Refusal :=
  laneWord (shortInfo (.upkb g esz pos d a) g [(a, 32)] [(d, 32)] []) d 32
    (fun dv m w l => bitsOf (readOp dv m w l 32 a) (eszBits esz * pos.val) (eszBits esz)) s

/-! Described blocks (R83, R123, R124, R249) -/

/-- A block's header is malformed (R124): its first byte, and the tables that the context has loaded. -/
def blockBad (m : Mach) (asid : BitVec 16) (h : Nat) : Bool :=
  let tab := bitsOf h 4 2
  let loaded := match m.ctx asid with
    | some c => (c.ctabs.getD (tab - 1) none).isSome
    | none => false
  decide (5 < bitsOf h 0 4) || bitsOf h 6 2 != 0
    || (tab != 0 && bitsOf h 0 4 != 3 && bitsOf h 0 4 != 4) || (tab != 0 && !loaded)

/-- The fault of an all-or-nothing word: the lanes that faulted, and the lowest one's fault (R11). -/
def Eff.allFault (m : Mach) (fs : List (Nat × Flt)) : Eff :=
  match fs with
  | [] => Eff.ok m []
  | (_, f) :: _ => { Eff.fault m f.code f.addr with named := fs.map Prod.fst }

/-- Block kinds: global or scratchpad (R174, R249). -/
def blockLoad : MemKind := ⟨loadOrders, none, [.glb, .spad]⟩
/-- Block kinds: global or scratchpad. -/
def blockStore : MemKind := ⟨storeOrders, none, [.glb, .spad]⟩

/-- Width of a block's address operand. -/
def blockBits (k : MemKind) (pre : Option Prefix) (m : Mach) : Nat :=
  match m.curPath with
  | some (w, _) => if (forcePrefix k pre w).space == .glb then 64 else 32
  | none => 64

/-- `BLKLD` (R249): all-or-nothing. -/
def execBlkld (g : Guard) (la : Fin 16) (pre : Option Prefix) (d a : Opnd) (s : State) :
    Host.Outcome State Fault Refusal :=
  let ab := blockBits blockLoad pre s.mach
  let info := memInfo (.blkld g la pre d a) g (some la.val) blockLoad pre [(a, ab)] [(d, 128)] s.mach
  memWord blockLoad pre { info with bad := info.bad || !a.aligned ab }
    (fun dv m io p =>
      let base := fun l => laneAddr dv m io.w l p.space a 0
      let owned := fun (m : Mach) => ownHint dv p io 64 base m
      let off := io.act.filter fun l => base l % 64 != 0
      let q := fun l => base l + 16 * (l % 4 : Nat)
      let head := gatherLoads dv io.w p.space 1 false base (io.act.filter fun l => !off.contains l) m
      let r := gatherLoads dv io.w p.space 16 true q (io.act.filter fun l => !off.contains l) head.m
      let bad := (head.vals.filter fun x => blockBad m io.w.asid (ofBytes x.2)).map Prod.fst
      let flts := io.act.filterMap fun l =>
        if off.contains l then some (l, (⟨0x02, addr64 (base l)⟩ : Flt))
        else match (head.flts ++ r.flts).find? fun x => x.1 == l with
          | some x => some x
          | none => if bad.contains l then some (l, ⟨0x20, addr64 (base l)⟩) else none
      if head.wait || r.wait then Eff.wait r.m
      else if !flts.isEmpty then Eff.allFault m flts
      else match r.dfl ++ head.dfl with
        | [] => Eff.ok (owned r.m) (laneOuts 128 d (r.vals.map fun x => (x.1, ofBytes x.2)))
        | (_, _, f) :: _ =>
          let items := io.act.map fun l =>
            let hit := (r.dfl ++ head.dfl).any fun x => x.1 == l
            let bs := match r.vals.find? fun x => x.1 == l with
              | some x => x.2
              | none => []
            ({ defItem l (addr64 (q l)) (.block d) with bad := hit, slot := if hit then List.replicate 16 0 else bs } : DefItem)
          { Eff.ok r.m [] with defer := some (f, items) }) s

/-- `BLKST` (R249): all-or-nothing, so the lanes' quarters go into flight as one unit. -/
def execBlkst (g : Guard) (pre : Option Prefix) (a b : Opnd) (s : State) : Host.Outcome State Fault Refusal :=
  let ab := blockBits blockStore pre s.mach
  let info := memInfo (.blkst g pre a b) g none blockStore pre [(a, ab), (b, 128)] [] s.mach
  memWord blockStore pre { info with bad := info.bad || !a.aligned ab }
    (fun dv m io p =>
      let base := fun l => laneAddr dv m io.w l p.space a 0
      let q := fun l => base l + 16 * (l % 4 : Nat)
      let data := storeData dv m io.w .b128 b
      let flts := io.act.filterMap fun l =>
        if base l % 64 != 0 then some (l, (⟨0x02, addr64 (base l)⟩ : Flt))
        else if l % 4 = 0 && blockBad m io.w.asid (ofBytes ((data l).take 1)) then some (l, ⟨0x20, addr64 (base l)⟩)
        else match checkAcc dv m io.w l p.space (q l) 16 .w true with
          | .error f => some (l, f)
          | .ok _ => none
      if !flts.isEmpty then Eff.allFault m flts
      else if io.w.guarded || p.space != .glb then storeLanes dv io p.space 16 true q data p m
      else
        let part := fun l => match checkAcc dv m io.w l p.space (q l) 16 .w true with
          | .ok (.mem ps) => (addr64 (q l), ps, data l)
          | _ => (addr64 (q l), [], [])
        Eff.ok (storeUnit io io.act (io.act.map part) p m) []) s

/-! MX pairs (R84, R111, R250 to R253) -/

/-- The sub-groups of 32 lanes with an acting lane: the acting lanes of each. -/
def mxGroups (io : Io) : List (List Nat) :=
  ([0, 1].map fun h => io.act.filter fun l => l / 32 == h).filter fun ls => !ls.isEmpty

/-- Bytes of an MX block's elements. -/
def mxBytes (ef : EFmt) : Nat := 4 * efmtBits ef

/-- A wave of 16 lanes has no MX words (R251). -/
def mxBad (m : Mach) : Bool :=
  match m.curPath with
  | some (w, _) => w.width == 16
  | none => false

/-- The value of element k of a block (R252). -/
def mxValue (ef : EFmt) (rm : RMode) (sc : Nat) (bs : List Byte) (k : Nat) : Nat :=
  fround .f32 rm false (elemVal ef sc (bitsOf (ofBytes bs) (k * efmtBits ef) (efmtBits ef)))

/-- Both parts of a block, read at their homes at one point (R111): element bytes and scale, a precise fault, or a deferred
one. -/
def mxRead (d : Dev) (w : Wave) (l : Nat) (e sc : BitVec 64) (n : Nat) (m : Mach) : LoadRes × Nat × Mach :=
  match homeLane d m w l sc.toNat 1 false with
  | (.bytes b, m) =>
    let r := homeLane d m w l e.toNat n false
    (r.1, ofBytes b, r.2)
  | (r, m) => (r, 0, m)

/-- `MXLD` (R250 to R252): all-or-nothing within a sub-group. -/
def execMxld (g : Guard) (la : Fin 16) (pre : Option Prefix) (ef : EFmt) (rm : RMode) (d a b : Opnd) (s : State) :
    Host.Outcome State Fault Refusal :=
  let info := memInfo (.mxld g la pre ef rm d a b) g (some la.val) globLoad pre [(a, 64), (b, 64)] [(d, 32)] s.mach
  memWord globLoad pre { info with bad := info.bad || mxBad s.mach }
    (fun dv m io p =>
      let step := fun (r : Eff × List (Nat × Nat)) (ls : List Nat) =>
        let l0 := ls.headD 0
        let e := BitVec.ofNat 64 (readOp dv m io.w l0 64 a)
        let sc := BitVec.ofNat 64 (readOp dv m io.w l0 64 b)
        if e.toNat % mxBytes ef != 0 then ({ r.1 with flts := r.1.flts ++ ls.map fun l => (l, ⟨0x02, e⟩) }, r.2)
        else match mxRead dv io.w l0 e sc (mxBytes ef) r.1.m with
          | (.bytes bs, k, m) =>
            let one := { io with act := [l0] }
            let m := ownHint dv p one 1 (fun _ => sc.toNat) (ownHint dv p one (mxBytes ef) (fun _ => e.toNat) m)
            ({ r.1 with m := m }, r.2 ++ ls.map fun l => (l, mxValue ef rm k bs (l % 32)))
          | (.precise f, _, m) => ({ r.1 with m := m, flts := r.1.flts ++ ls.map fun l => (l, f) }, r.2)
          | (.deferred f, _, m) =>
            let items := ls.map fun l => defItem l e (.mx ef rm e sc d)
            ({ r.1 with m := m, defer := some (match r.1.defer with
                | none => (f, items)
                | some x => (x.1, x.2 ++ items)) }, r.2)
          | (.wait, _, m) => ({ r.1 with m := m, stall := true }, r.2)
      let r := (mxGroups io).foldl step (Eff.ok m [], [])
      { r.1 with outs := laneOuts 32 d r.2 }) s

/-- The codes and scale that `MXST` writes (R253): `x` the values of the acting lanes of the sub-group. -/
def mxCodes (ef : EFmt) (rm : RMode) (nan : Bool) (x : Nat → Option FVal) : Nat × Nat :=
  let finite := (List.range 32).filterMap fun k => match x k with
    | some (.num _ m q) => some (FVal.num false m q)
    | _ => none
  let mx := finite.foldl (fun acc v => if fltV false acc v then v else acc) (.num false 0 0)
  let sc := blockScale ef mx
  let code := fun k => match x k with
    | some v => elemCode ef rm nan sc v
    | none => 0
  (sumNat ((List.range 32).map fun k => 2 ^ (k * efmtBits ef) * code k), sc)

/-- `MXST` (R250, R251, R253): both parts go into flight as one unit (R111). -/
def execMxst (g : Guard) (pre : Option Prefix) (ef : EFmt) (rm : RMode) (nan : Bool) (x a b : Opnd) (s : State) :
    Host.Outcome State Fault Refusal :=
  let info := memInfo (.mxst g pre ef rm nan x a b) g none globStore pre [(x, 32), (a, 64), (b, 64)] [] s.mach
  memWord globStore pre { info with bad := info.bad || mxBad s.mach }
    (fun dv m io p =>
      let step := fun (r : Eff) (ls : List Nat) =>
        let l0 := ls.headD 0
        let e := BitVec.ofNat 64 (readOp dv m io.w l0 64 a)
        let sc := BitVec.ofNat 64 (readOp dv m io.w l0 64 b)
        let v := fun k => (ls.find? fun l => l % 32 == k).map fun l => readF dv m io.w l .f32 false x
        let c := mxCodes ef rm nan v
        if e.toNat % mxBytes ef != 0 then { r with flts := r.flts ++ ls.map fun l => (l, ⟨0x02, e⟩) }
        else match checkAcc dv r.m io.w l0 .glb e.toNat (mxBytes ef) .w false,
            checkAcc dv r.m io.w l0 .glb sc.toNat 1 .w false with
          | .error f, _ | _, .error f => { r with flts := r.flts ++ ls.map fun l => (l, f) }
          | .ok x1, .ok x2 =>
            let at_ := fun (x : Where) => match x with
              | .mem ps => ps
              | .local _ _ _ _ => []
            { r with m := storeUnit io ls [(e, at_ x1, toBytes (mxBytes ef) c.1), (sc, at_ x2, toBytes 1 c.2)] p r.m }
      (mxGroups io).foldl step (Eff.ok m [])) s

/-! Companding tables -/

/-- `CTAB` (R126, R254): once per wave. -/
def execCtab (g : Guard) (pre : Option Prefix) (tab : Fin 4) (a : Opnd) (s : State) :
    Host.Outcome State Fault Refusal :=
  let k : MemKind := ⟨[.rlx], none, [.glb]⟩
  memWord k pre (memInfo (.ctab g pre tab a) g none k pre [(a, 64)] [] s.mach)
    (fun d m io _ =>
      if io.act.isEmpty then Eff.ok m []
      else
        let va := BitVec.ofNat 64 (readUni d m io 64 a)
        if va.toNat % 8 != 0 then Eff.fault m 0x02 va
        else match homeLane d m io.w io.lead va.toNat 128 false with
          | (.bytes t, m) =>
            if ctValid t then
              Eff.ok (m.updCtx io.w.asid fun c => { c with ctabs := c.ctabs.set (tab.val - 1) (some t) }) []
            else Eff.fault m 0x20 va
          | (.precise f, m) => Eff.fault m f.code f.addr
          | (.deferred f, m) => { Eff.ok m [] with
              defer := some (f, [defItem io.lead va (.table tab)]) }
          | (.wait, m) => Eff.wait m) s

end Sys2Proof.Machine
end

