-- ==== Sys2Proof/Machine/Tiles.lean ====
section
/-! DEFINITION. The tile table and its words, and the submission of engine commands (R64 to R76, R80, R301 to R316). -/

namespace Sys2Proof.Machine

/-! Words that need a group (R29, R301, R302) -/

/-- Fault 0x50 of a word that its operands' values make malformed; ADDRESS holds the word (R189). -/
def illegalWord (m : Mach) (i : Instr) : Eff := Eff.fault m 0x50 (BitVec.ofNat 64 ((instrWord i).getD 0))

/-- The group of a path word, or fault 0x02 of the threads that belong to none (R29). -/
def pathGroup (m : Mach) (io : Io) : Except Eff Group :=
  match io.act.filter fun l => (m.laneGroup io.w l).isNone with
  | [] => match io.group.bind (m.group io.w.core) with
    | some g => .ok g
    | none => .error (Eff.fault m 0x02 0)
  | ls => .error { Eff.fault m 0x02 0 with named := ls }

/-- A word that acts once for a path in which its guard holds, on the group of the path. -/
def groupWord (info : WordInfo) (body : Dev → Mach → Io → Group → Eff) (s : State) :
    Host.Outcome State Fault Refusal :=
  runWord info (fun d m io =>
    if io.act.isEmpty then Eff.ok m []
    else match pathGroup m io with
      | .error e => e
      | .ok g => body d m io g) s

/-- A word on a tile that the group owns (R302). -/
def tileWord (info : WordInfo) (t : Fin 64) (body : Dev → Mach → Io → Group → Tile → Eff) (s : State) :
    Host.Outcome State Fault Refusal :=
  groupWord info (fun d m io g => match g.tile t.val with
    | none => Eff.fault m 0x02 0
    | some x => body d m io g x) s

/-! Product descriptors (R320, R324) -/

/-- The fields of a product descriptor. -/
structure PDesc where
  form  : Nat
  kinda : Nat
  kindb : Nat
  efa   : Nat
  efb   : Nat
  align : Nat
  sca   : Nat
  scb   : Nat
  k0    : Nat
  nk    : Nat
  nu    : Nat
  pair  : Bool
  sct   : Nat
  deriving DecidableEq, Repr

/-- Reads a product descriptor. -/
def pdesc (a : BitVec 64) : PDesc :=
  let n := a.toNat
  { form := bitsOf n 0 2, kinda := bitsOf n 2 2, kindb := bitsOf n 4 2, efa := bitsOf n 6 3, efb := bitsOf n 9 3,
    align := bitsOf n 12 2, sca := bitsOf n 14 8, scb := bitsOf n 22 8, k0 := bitsOf n 30 8, nk := bitsOf n 38 8,
    nu := bitsOf n 46 3, pair := bitOf n 49, sct := bitsOf n 50 6 }

/-- The accumulators of a sequence (R324). -/
def seqAccs (n : Nat) (desc : BitVec 64) : List Nat :=
  let p := pdesc desc
  ((List.range (p.nu + 1)).map fun m => if p.pair then [n + 2 * m, n + 2 * m + 1] else [n + 2 * m]).flatten

/-- A sequence uses an accumulator. -/
def KSeq.uses (q : KSeq) (k : Nat) : Bool := (seqAccs q.acc q.desc).contains k

/-! Readers of a tile (R66, R304, R309) -/

/-- The scale tile of a product descriptor, when an operand is of kind 2 (R320). -/
def sctOf (desc : BitVec 64) : Option Nat :=
  if bitsOf desc.toNat 2 2 = 2 || bitsOf desc.toNat 4 2 = 2 then some (bitsOf desc.toNat 50 6) else none

/-- A pending step reads a tile. -/
def KStep.reads (k : KStep) (t : Nat) : Bool := k.ta == t || k.tb == t || sctOf k.desc == some t

/-- A sequence in progress reads a tile. -/
def KSeq.reads (q : KSeq) (t : Nat) : Bool := q.active && (q.ta == t || q.tb == t || sctOf q.desc == some t)

/-- Some instruction or sequence that reads a tile has neither completed nor parked (R304, R309). -/
def Group.readers (g : Group) (t : Nat) : Bool :=
  g.accs.any (fun a => a.pend.any fun k => !k.again && k.reads t)
    || g.seqs.any fun q => q.reads t && q.parked.isNone && !q.again

/-- A command's read ranges meet a tile's span. -/
def Cmd.readsSpan (c : Cmd) (x : Tile) : Bool :=
  let td := tdesc x.desc
  !td.bare && c.ranges.any fun r => !r.write && r.space == td.region + 1 && decide (r.lo < td.base + td.span)
    && decide ((td.base : Int) < r.lo + r.len)

/-- Some instruction, sequence or command that read a tile before its drain has not completed (R66). -/
def drainHeld (m : Mach) (g : Group) (t : Nat) (x : Tile) : Bool :=
  g.accs.any (fun a => a.pend.any fun k => k.reads t) || g.seqs.any (fun q => q.reads t)
    || g.cmds.any (fun c => !c.complete && decide (c.order < x.drainOrd) && c.readsSpan x)
    || m.waves.any fun w => w.core == g.core && w.deferred.any fun f => f.items.any fun i => match i.kind with
        | .kstep gi _ k => gi == g.id && k.reads t
        | _ => false

/-! Tile states (R65 to R69) -/

/-- Changes a tile of a group. -/
def Mach.updTile (m : Mach) (core group t : Nat) (f : Tile → Tile) : Mach := m.updGroup core group fun g => g.updTile t f

/-- The state by the cup rule (R66). -/
def Tile.ruled (x : Tile) : Tile :=
  { x with state := if x.arrived = x.expect then (if x.expect = 0 then .empty else .ready) else .filling }

/-- The scope of the commands credited to a cup; core scope when none is named (R69). -/
def Tile.cupScope (x : Tile) : Scope := (scopeOf x.scope).getD .core

/-- Changes the paths of the waves of a core that have a lane in a group, those set aside or that resume included. -/
def Mach.pathsIn (m : Mach) (core group : Nat) (f : Path → Path) : Mach :=
  { m with waves := m.waves.map fun w =>
      if w.core = core then
        let each := fun (p : Path) => if w.pathIn group p then f p else p
        { w with paths := w.paths.map each, aside := w.aside.map each, resume := w.resume.map each }
      else w }

/-- What a path waits on at its interlock has gone, where a test holds of it. -/
def Path.lose (f : Interlock → Bool) (p : Path) : Path :=
  { p with lock := p.lock.map fun k => if f k then { k with gone := true } else k }

/-- Notes the first outcome that a wait on a tile meets (R67, R306). -/
def WaitFor.see (t : Nat) (o : TileSeen) : WaitFor → WaitFor
  | .tile k cup named none => if k = t then .tile k cup named (some o) else .tile k cup named none
  | x => x

/-- Notes the first outcome that the waits of a group's paths on a tile meet. -/
def seeTile (core group t : Nat) (o : TileSeen) (m : Mach) : Mach :=
  { m with waves := m.waves.map fun w =>
      if w.core = core then
        { w with waits := w.waits.map fun x => if w.pathIn group x.path then { x with what := x.what.see t o } else x }
      else w }

/-- After a change of a tile: the waits on it see that it is ready, with the scope that its commands name now. -/
def noteReady (core group t : Nat) (m : Mach) : Mach :=
  match (m.group core group).bind fun g => g.tile t with
  | some x => if x.state == .ready then seeTile core group t (.ready x.cupScope) m else m
  | none => m

/-- Credits bytes to a cup (R68, R69). -/
def creditTile (core group t n : Nat) (m : Mach) : Mach :=
  noteReady core group t (m.updTile core group t fun x =>
    let x := { x with arrived := x.arrived + n, reserved := x.reserved - n }
    if x.state == .filling && x.arrived == x.expect && x.expect != 0 then { x with state := .ready } else x)

/-- A killed segment's cup (R66): the paths that wait or are interlocked on it lose it (R67). -/
def abandonTile (core group t : Nat) (m : Mach) : Mach :=
  match (m.group core group).bind fun g => g.tile t with
  | none => m
  | some x =>
    if x.state == .filling || x.state == .ready then
      (seeTile core group t .gone (m.updTile core group t fun x =>
        { x with state := .empty, expect := 0, arrived := 0, reserved := 0, scope := 0, abandoned := true, parked := 0 })).pathsIn
        core group (Path.lose fun k => k.tiles.contains t)
    else m

/-- The code of a tile state (R65). -/
def TState.code : TState → Nat
  | .empty => 1
  | .filling => 2
  | .ready => 3
  | .draining => 4

/-- The status word (R65). -/
def Tile.status (x : Tile) : Nat :=
  x.state.code + (if x.abandoned then 8 else 0) + 2 ^ 4 * min x.parked 63 + 2 ^ 10 * x.expect + 2 ^ 34 * x.arrived

/-! Tile and cup words (R304 to R308) -/

/-- The bytes of a space that a group is allotted (R58, R62). -/
def Group.allotted (g : Group) (sp : Space) : Nat := if sp == .spad then 32768 * g.alloc.spad else 262144 * g.alloc.ostore

/-- A descriptor that breaks R64. -/
def tdescBad (a : BitVec 64) : Bool :=
  let n := a.toNat
  let td := tdesc a
  bitsOf n 48 16 != 0 || (if td.bare then bitsOf n 0 47 != 0 else decide (td.pitch < td.width))

/-- `TSET` (R64, R66, R304). -/
def execTset (g : Guard) (t : Fin 64) (a : Opnd) (s : State) : Host.Outcome State Fault Refusal :=
  groupWord (shortInfo (.tset g t a) g [(a, 64)] [] [])
    (fun d m io gr =>
      let x := BitVec.ofNat 64 (readUni d m io 64 a)
      let td := tdesc x
      if tdescBad x then illegalWord m (.tset g t a)
      else if m.groups.any fun o => o.core == gr.core && o.id != gr.id && (o.tile t.val).isSome then Eff.fault m 0x02 0
      else if (gr.tile t.val).isNone && decide (gr.alloc.tiles ≤ gr.tiles.length) then Eff.fault m 0x02 0
      else if !td.bare && decide (gr.allotted td.space < td.base + td.span) then Eff.fault m 0x02 (BitVec.ofNat 64 td.base)
      else
        let fresh : Tile := ⟨x, .empty, false, 0, 0, 0, 0, 0, 0⟩
        match gr.tile t.val with
        | none => Eff.ok (m.updGroup gr.core gr.id fun y => { y with tiles := y.tiles ++ [(t.val, fresh)] }) []
        | some o =>
          if o.state == .filling || o.state == .draining || gr.readers t.val then Eff.waitTiles m [t.val]
          else Eff.ok (m.updTile gr.core gr.id t.val fun _ => fresh) []) s

/-- The status word of a tile in every acting lane (R305). -/
def statusWord (i : Instr) (g : Guard) (t : Fin 64) (d : Opnd) (s : State) : Host.Outcome State Fault Refusal :=
  tileWord (shortInfo i g [] [(d, 64)] []) t
    (fun _ m io _ x => Eff.ok m (laneOuts 64 d (io.act.map fun l => (l, x.status)))) s

/-- `TSTATE` (R305). -/
def execTstate (g : Guard) (t : Fin 64) (d : Opnd) (s : State) : Host.Outcome State Fault Refusal :=
  statusWord (.tstate g t d) g t d s

/-- `CUPQRY` (R305). -/
def execCupqry (g : Guard) (t : Fin 64) (d : Opnd) (s : State) : Host.Outcome State Fault Refusal :=
  statusWord (.cupqry g t d) g t d s

/-- A wait on a tile (R67, R306). -/
def tileWaitWord (i : Instr) (g : Guard) (t : Fin 64) (cup : Bool) (s : State) : Host.Outcome State Fault Refusal :=
  tileWord (shortInfo i g [] [] []) t
    (fun _ m io _ x =>
      if !cup && (tdesc x.desc).bare then Eff.fault m 0x02 0
      else if x.state == .ready then Eff.ok (acquireAt io.w.core .acq x.cupScope m) []
      else if x.state == .empty && x.abandoned then { Eff.fault m 0x60 0 with after := true }
      else { Eff.ok m [] with fin := some (.tile t.val cup io.faultLanes none) }) s

/-- `TWAIT` (R306). -/
def execTwait (g : Guard) (t : Fin 64) (s : State) : Host.Outcome State Fault Refusal :=
  tileWaitWord (.twait g t) g t false s

/-- `CUPWT` (R306). -/
def execCupwt (g : Guard) (t : Fin 64) (s : State) : Host.Outcome State Fault Refusal :=
  tileWaitWord (.cupwt g t) g t true s

/-- `TDRAIN` (R66, R307). -/
def execTdrain (g : Guard) (t : Fin 64) (s : State) : Host.Outcome State Fault Refusal :=
  tileWord (shortInfo (.tdrain g t) g [] [] []) t
    (fun _ m _ gr x =>
      if x.state == .ready then
        Eff.ok (m.updTile gr.core gr.id t.val fun x =>
          { x with state := .draining, drainOrd := gr.copyNext + gr.ladlNext }) []
      else if x.state == .draining then Eff.ok m []
      else Eff.waitTiles m [t.val]) s

/-- `TFREE` (R66, R307). -/
def execTfree (g : Guard) (t : Fin 64) (s : State) : Host.Outcome State Fault Refusal :=
  tileWord (shortInfo (.tfree g t) g [] [] []) t
    (fun _ m _ gr x =>
      if x.state == .filling || x.state == .draining || (x.state == .ready && gr.readers t.val) then Eff.waitTiles m [t.val]
      else Eff.ok (m.updGroup gr.core gr.id fun y => { y with tiles := y.tiles.filter fun p => p.1 != t.val }) []) s

/-- `CUPSET` (R66, R308). -/
def execCupset (g : Guard) (add : Bool) (t : Fin 64) (a : Opnd) (s : State) : Host.Outcome State Fault Refusal :=
  tileWord (shortInfo (.cupset g add t a) g [(a, 32)] [] []) t
    (fun d m io gr x =>
      let v := readUni d m io 32 a
      let e := if add then x.expect + v else v
      if x.state == .draining then Eff.waitTiles m [t.val]
      else if e < x.arrived + x.reserved || 2 ^ 24 - 1 < e then Eff.fault m 0x61 0
      else Eff.ok (noteReady gr.core gr.id t.val
        (m.updTile gr.core gr.id t.val fun x => { x with expect := e, abandoned := false }.ruled)) []) s

/-- The event in which a draining tile becomes empty (R66). -/
def execTileDrained (core t : Nat) (s : State) : Host.Outcome State Fault Refusal :=
  .next (s.withMach fun _ m =>
    match m.groups.find? fun g => g.core == core && (g.tile t).isSome with
    | none => m
    | some g => match g.tile t with
      | none => m
      | some x =>
        if x.state == .draining && !drainHeld m g t x then
          m.updTile core g.id t fun x => { x with state := .empty, expect := 0, arrived := 0, reserved := 0, scope := 0 }
        else m)

/-! Engine commands (R310 to R315) -/

/-- The number that 64-bit words hold, the first lowest. -/
def ofWords (ws : List (BitVec 64)) : Nat := ws.foldr (fun w n => w.toNat + 2 ^ 64 * n) 0

/-- An outer dimension of a box: extent, source stride and destination stride (R312). -/
structure BoxDim where
  ext : Nat
  ss  : Int
  ds  : Int
  deriving DecidableEq, Repr

/-- The fields common to both commands (R311, R314). -/
structure CmdHead where
  kind  : Nat
  dsp   : Nat
  scope : Nat
  cupen : Bool
  cup   : Nat
  cren  : Bool
  tag   : Nat
  deriving DecidableEq, Repr

/-- Reads the common fields. -/
def cmdHead (ws : List (BitVec 64)) : CmdHead :=
  let n := ofWords ws
  { kind := bitsOf n 128 2, dsp := bitsOf n 132 2, scope := bitsOf n 141 3, cupen := bitOf n 144,
    cup := bitsOf n 145 6, cren := bitOf n 151, tag := bitsOf n 152 16 }

/-- The outer dimensions of a copy, from its extension block; every extent 1 without one (R311, R312). -/
def boxDims (ws block : List (BitVec 64)) : List BoxDim :=
  if block.isEmpty then []
  else (List.range (bitsOf (ofWords ws) 134 3 - 1)).map fun i =>
    let n := ofWords block
    ⟨bitsOf n (96 * i) 32, signedOf 32 (bitsOf n (96 * i + 32) 32), signedOf 32 (bitsOf n (96 * i + 64) 32)⟩

/-- A copy's inner extent, source, destination, spaces and segment size (R311). -/
structure Copy where
  src  : Nat
  dst  : Nat
  ssp  : Nat
  dsp  : Nat
  seg  : Nat
  excl : Bool
  len0 : Nat
  dims : List BoxDim
  deriving DecidableEq, Repr

/-- Segment size codes (R311). -/
def segBytes : Nat → Nat
  | 1 => 64
  | 2 => 128
  | 3 => 256
  | 4 => 512
  | _ => 1024

/-- Reads a copy command. -/
def copyOf (ws block : List (BitVec 64)) : Copy :=
  let n := ofWords ws
  { src := bitsOf n 0 64, dst := bitsOf n 64 64, ssp := bitsOf n 130 2, dsp := bitsOf n 132 2,
    seg := segBytes (bitsOf n 137 3), excl := bitOf n 140, len0 := bitsOf n 192 32, dims := boxDims ws block }

/-- Bytes of a box. -/
def Copy.bytes (c : Copy) : Nat := c.dims.foldl (fun x b => x * b.ext) c.len0

/-- Offset of byte k of a box in box order from the first byte, by the stride that a function picks (R75, R311). -/
def boxOff (len0 : Nat) (dims : List BoxDim) (f : BoxDim → Int) (k : Nat) : Int :=
  (dims.foldl (fun (r : Int × Nat) b => (r.1 + (r.2 % b.ext : Nat) * f b, r.2 / b.ext))
    ((k % len0 : Nat), k / len0)).1

/-- The bounding range of a box from a base, by the stride that a function picks (R72). -/
def boxRange (write : Bool) (space : Nat) (base : Nat) (len0 : Nat) (dims : List BoxDim) (f : BoxDim → Int) : Range :=
  let step := fun (b : BoxDim) => ((b.ext : Int) - 1) * f b
  let lo := dims.foldl (fun x b => x + min 0 (step b)) (base : Int)
  let hi := dims.foldl (fun x b => x + max 0 (step b)) ((base : Int) + len0)
  ⟨write, space, lo, (hi - lo).toNat⟩

/-- A ladle command's parameters (R78, R314). -/
structure Ladle where
  dst      : Nat
  dsp      : Nat
  mode     : Nat
  bf16     : Bool
  weighted : Bool
  bags     : Nat
  cols     : Nat
  table    : Nat
  rowcnt   : Nat
  rowpitch : Nat
  ilist    : Nat
  olist    : Nat
  wlist    : Nat
  outpitch : Nat
  nidx     : Nat
  deriving DecidableEq, Repr

/-- Reads a ladle command and its parameter block. -/
def ladleOf (ws block : List (BitVec 64)) : Ladle :=
  let n := ofWords ws
  let b := ofWords block
  { dst := bitsOf n 64 64, dsp := bitsOf n 132 2, mode := bitsOf n 134 2, bf16 := bitOf n 136, weighted := bitOf n 137,
    bags := bitsOf n 192 16, cols := bitsOf n 208 10 + 1, table := bitsOf b 0 64, rowcnt := bitsOf b 64 32,
    rowpitch := bitsOf b 96 32, ilist := bitsOf b 128 64, olist := bitsOf b 192 64, wlist := bitsOf b 256 64,
    outpitch := bitsOf b 320 32, nidx := bitsOf b 352 32 }

/-- The completion ring that a block names (R312, R314). -/
def cringOf (block : List (BitVec 64)) : BitVec 64 := block.getD 6 0

/-- Fields common to both commands that are malformed. -/
def headBad (ws : List (BitVec 64)) : Bool :=
  let n := ofWords ws
  let h := cmdHead ws
  h.dsp == 3 || h.scope == 0 || h.scope == 6 || (!h.cupen && h.cup != 0) || bitsOf n 168 24 != 0

/-- A malformed copy command (R311). -/
def copyBad (ws : List (BitVec 64)) : Bool :=
  let n := ofWords ws
  let c := copyOf ws []
  let dims := bitsOf n 134 3
  headBad ws || bitsOf n 128 2 != 0 || c.ssp == 3 || dims == 0 || decide (5 < dims)
    || decide (4 < bitsOf n 137 3) || (c.excl && (c.dsp == 0 || c.ssp != 0)) || c.len0 == 0
    || bitsOf n 240 16 != 0 || (bitsOf n 224 16 != 0 && dims == 1 && !(cmdHead ws).cren)

/-- A copy uses an extension block (R311). -/
def copyExt (ws : List (BitVec 64)) : Bool := decide (1 < bitsOf (ofWords ws) 134 3) || (cmdHead ws).cren

/-- A CRING field that is malformed (R312, R314). -/
def cringBad (ws block : List (BitVec 64)) : Bool :=
  (cringOf block).toNat % 16 != 0 || (!(cmdHead ws).cren && cringOf block != 0)

/-- A malformed extension block (R312). -/
def extBad (ws block : List (BitVec 64)) : Bool :=
  let dims := bitsOf (ofWords ws) 134 3
  let b := ofWords block
  (List.range 4).any (fun i => bitsOf b (96 * i) 32 == 0 || (decide (dims ≤ i + 1) && bitsOf b (96 * i) 32 != 1))
    || bitsOf b 448 64 != 0 || cringBad ws block

/-- A malformed ladle command (R314). -/
def ladleBad (ws : List (BitVec 64)) : Bool :=
  let n := ofWords ws
  headBad ws || bitsOf n 128 2 != 1 || decide (1 < bitsOf n 130 2) || bitsOf n 134 2 == 3
    || (bitOf n 137 && bitsOf n 134 2 == 2) || bitsOf n 138 3 != 0 || bitsOf n 192 16 == 0 || bitsOf n 218 38 != 0
    || bitsOf n 0 64 % 64 != 0

/-- A malformed parameter block (R314). -/
def paramBad (ws block : List (BitVec 64)) : Bool :=
  let c := ladleOf ws block
  let z := if c.bf16 then 2 else 4
  decide (c.rowpitch < z * c.cols) || c.rowpitch % z != 0 || c.ilist % 4 != 0 || c.olist % 4 != 0 || c.wlist % 4 != 0
    || (!c.weighted && c.wlist != 0) || c.outpitch % 4 != 0 || decide (c.outpitch < 4 * c.cols)
    || bitsOf (ofWords block) 448 64 != 0 || cringBad ws block

/-- The footprint of a copy (R72). -/
def copyRanges (c : Copy) : List Range :=
  [boxRange false c.ssp c.src c.len0 c.dims BoxDim.ss, boxRange true c.dsp c.dst c.len0 c.dims BoxDim.ds]

/-- The footprint of a ladle command (R72, R315). -/
def ladleRanges (c : Ladle) : List Range :=
  let rd := fun (lo n : Nat) => if n = 0 then [] else [(⟨false, 0, lo, n⟩ : Range)]
  rd c.table (c.rowcnt * c.rowpitch) ++ rd c.ilist (4 * c.nidx) ++ rd c.olist (4 * (c.bags + 1))
    ++ (if c.weighted then rd c.wlist (4 * c.nidx) else [])
    ++ [⟨true, c.dsp, c.dst, (c.bags - 1) * c.outpitch + 4 * c.cols⟩]

/-- A range inside the span of a region tile of the group stands for the whole span (R72). -/
def widenRange (g : Group) (r : Range) : Range :=
  if r.space = 0 then r
  else match g.tiles.find? fun x =>
      let td := tdesc x.2.desc
      !td.bare && td.region + 1 == r.space && decide ((td.base : Int) ≤ r.lo)
        && decide (r.lo + r.len ≤ td.base + td.span) with
    | some x => let td := tdesc x.2.desc; { r with lo := td.base, len := td.span }
    | none => r

/-- Two ranges are in one space and share a byte (R72). -/
def Range.meets (a b : Range) : Bool :=
  a.space == b.space && decide (a.lo < b.lo + b.len) && decide (b.lo < a.lo + a.len)

/-- A later command depends on an earlier one by their footprints (R73). -/
def Cmd.after (b a : Cmd) : Bool :=
  a.ranges.any fun x => b.ranges.any fun y => (x.write || y.write) && x.meets y

/-- The commands that a command waits for (R73). -/
def Group.waitsOn (g : Group) (c : Cmd) : List Cmd :=
  g.cmds.filter fun a => decide (a.order < c.order) && !a.complete && c.after a

/-- The entries of a ring in use: those from the first unfinished command on (R70). -/
def Group.ringUsed (g : Group) (ladle : Bool) : Nat :=
  ((g.cmds.filter fun c => c.ladle == ladle).dropWhile fun c => c.complete).length

/-- Bytes that a command credits to its cup. -/
def cmdBytes (ladle : Bool) (ws block : List (BitVec 64)) : Nat :=
  if ladle then 4 * (ladleOf ws block).bags * (ladleOf ws block).cols else (copyOf ws block).bytes

/-- Segments of a command (R75, R315). -/
def cmdSegs (ladle : Bool) (ws block : List (BitVec 64)) : Nat :=
  if ladle then (ladleOf ws block).bags
  else let c := copyOf ws block; (c.bytes + c.seg - 1) / c.seg

/-- Accepts a command: its ring entry, its cup posting and its footprint take effect (R70, R72). A completed command
that no longer holds an entry is forgotten. -/
def acceptCmd (wave : Nat) (ladle : Bool) (ws block : List (BitVec 64)) (m : Mach) (g : Group) : Mach :=
  let h := cmdHead ws
  let n := cmdBytes ladle ws block
  let ranges := if ladle then ladleRanges (ladleOf ws block) else copyRanges (copyOf ws block)
  let c : Cmd :=
    { ladle := ladle, idx := if ladle then g.ladlNext else g.copyNext, order := g.copyNext + g.ladlNext, wave := wave,
      words := ws, block := block, total := cmdSegs ladle ws block, segs := [], ranges := ranges.map (widenRange g),
      retried := false, killed := false, complete := false, lastFlt := 0, credited := 0 }
  let m := if h.cupen then
      m.updTile g.core g.id h.cup fun x =>
        { x with state := .filling, expect := x.expect + n, abandoned := false,
                 scope := max x.scope (if h.scope = 7 then 2 else h.scope) }
    else m
  m.updGroup g.core g.id fun y =>
    { y with cmds := y.cmds ++ [c], copyNext := y.copyNext + (if ladle then 0 else 1),
             ladlNext := y.ladlNext + (if ladle then 1 else 0) }

/-- Posts a checked command: the cup's owner, the ring's room, and the cup rule (R66, R70, R310). -/
def postCmd (wave : Nat) (ladle : Bool) (ws block : List (BitVec 64)) (m : Mach) (g : Group) : Eff :=
  let h := cmdHead ws
  let n := cmdBytes ladle ws block
  if h.cupen && (g.tile h.cup).isNone then Eff.fault m 0x02 0
  else if h.cupen && decide (2 ^ 24 - 1 < n) then Eff.fault m 0x61 0
  else if (if ladle then g.alloc.lring else g.alloc.cring) ≤ g.ringUsed ladle then Eff.wait m
  else match (if h.cupen then g.tile h.cup else none) with
    | none => Eff.ok (acceptCmd wave ladle ws block m g) []
    | some x =>
      if x.state == .draining then Eff.wait m
      else if 2 ^ 24 - 1 < x.expect + n then Eff.fault m 0x61 0
      else Eff.ok (acceptCmd wave ladle ws block m g) []

/-- The command words in s(n) to s(n + 3) (R310). -/
def cmdWords (d : Dev) (m : Mach) (io : Io) (s4 : Fin 16) : List (BitVec 64) :=
  (List.range 4).map fun k => BitVec.ofNat 64 (readUni d m io 64 (.s (Fin.ofNat 64 (4 * s4.val + k))))

/-- The operands of a word that reads s(n) to s(n + 3). -/
def fourRegs (s4 : Fin 16) : List (Opnd × Nat) :=
  [(.s (Fin.ofNat 64 (4 * s4.val)), 128), (.s (Fin.ofNat 64 (4 * s4.val + 2)), 128)]

/-- Sixty-four bytes of a group's scratchpad as eight words. -/
def spadWords (g : Group) (off : Nat) : List (BitVec 64) :=
  let bs := g.bytes .spad off 64
  (List.range 8).map fun i => BitVec.ofNat 64 (ofBytes ((bs.drop (8 * i)).take 8))

/-- `XQ` (R70, R310 to R312). -/
def execXq (g : Guard) (s4 : Fin 16) (s : State) : Host.Outcome State Fault Refusal :=
  groupWord (shortInfo (.xq g s4) g (fourRegs s4) [] [])
    (fun d m io gr =>
      let ws := cmdWords d m io s4
      if fencePending m io then Eff.wait m
      else if gr.alloc.cring = 0 then Eff.fault m 0x02 0
      else if copyBad ws then illegalWord m (.xq g s4)
      else if !copyExt ws then postCmd io.w.id false ws [] m gr
      else
        let off := 64 * bitsOf (ofWords ws) 224 16
        if !gr.inside .spad off 64 true then Eff.fault m 0x02 (BitVec.ofNat 64 off)
        else if extBad ws (spadWords gr off) then illegalWord m (.xq g s4)
        else postCmd io.w.id false ws (spadWords gr off) m gr) s

/-- `LQ` (R70, R310, R314, R315). -/
def execLq (g : Guard) (s4 : Fin 16) (s : State) : Host.Outcome State Fault Refusal :=
  groupWord (shortInfo (.lq g s4) g (fourRegs s4) [] [])
    (fun d m io gr =>
      let ws := cmdWords d m io s4
      if fencePending m io then Eff.wait m
      else if gr.alloc.lring = 0 then Eff.fault m 0x02 0
      else if ladleBad ws then illegalWord m (.lq g s4)
      else
        let sp : Space := if bitsOf (ofWords ws) 130 2 = 0 then .glb else .spad
        match loadLane d m io.w io.lead sp (bitsOf (ofWords ws) 0 64) 64 true with
        | (.precise f, m) | (.deferred f, m) => Eff.fault m f.code f.addr
        | (.wait, m) => Eff.wait m
        | (.bytes bs, m) =>
          let block := (List.range 8).map fun i => BitVec.ofNat 64 (ofBytes ((bs.drop (8 * i)).take 8))
          if paramBad ws block then illegalWord m (.lq g s4) else postCmd io.w.id true ws block m gr) s

/-! Engine accesses to memory (R77, R82, R106, R112) -/

/-- What an engine access meets. -/
inductive EngRes where
  | bytes (bs : List Byte)
  | fault (f : Flt)
  | wait
  deriving DecidableEq, Repr

/-- A numbered store of a wave to the words of some replicated pieces is not applied here (R106). -/
def repOpen (d : Dev) (m : Mach) (core wave : Nat) (ps : List (Xlat × Nat)) : Bool :=
  ps.any fun p => p.1.rep &&
    m.coh.reps.any fun r => r.core == core && r.wave == wave && !r.acked.contains d.att.modid.toNat
      && decide (r.pa / 8 * 8 < p.1.pa + p.2) && decide (p.1.pa / 8 * 8 < r.pa + r.data.length)

/-- The pieces of memory that an engine of a group accesses for a wave, once the stores in flight of the core to them are
performed, and those of the wave to replicated pages applied here (R106, R112); or what it meets in their place. -/
def engineReach (d : Dev) (g : Group) (wave : Nat) (a : BitVec 64) (n : Nat) (acc : Access) (m : Mach) :
    Except EngRes (List (Xlat × Nat)) × Mach :=
  match translateRange d m (coreDie g.core) g.asid a n acc false with
  | .error f => (.error (.fault f), m)
  | .ok ps =>
    let m := drainStores d (fun s => s.core == g.core && s.meets ps) m
    if (m.coh.stores.any fun s => s.core == g.core && s.meets ps && (s.record.isNone || s.wave == wave))
        || repOpen d m g.core wave ps then (.error .wait, m)
    else match homeFault m g.core a (if acc == .r then ps else ps.filter fun p => p.1.err.isSome) false with
      | some f => (.error (.fault f), meetFailing g.core ps m)
      | none =>
        let far := noResponse d g.asid ps m
        if far.1 then (.error (.fault ⟨0x30, a⟩), far.2) else (.ok ps, far.2)

/-- The words of memory that an engine of a surrogate group sees as its group does (R112, R113). -/
def Group.holder (g : Group) : Option (Nat × Nat) := if g.guarded then some (g.core, g.id) else none

/-- Performs an engine's write at its home (R112): the home learns what the core's die knows, and the die what the home knows
then (R102); no copy of the core keeps an older value. -/
def Mach.homeStore (d : Dev) (core pa : Nat) (bs : List Byte) (m : Mach) : Mach :=
  let die := homeDie (pa / 8)
  let m := conflictAt pa bs.length m
  let m := { m with coh := m.coh.absorb die (m.coh.known (coreDie core)) }
  let m := ((m.writeBytes none pa bs).ownHostLine d pa).dropCopies core pa bs.length
  { m with coh := m.coh.absorb (coreDie core) (m.coh.known die) }

/-- Performs one piece of an engine's write. The write of a surrogate group's engine is provisional as its stores are
(R113, R114, log 93). -/
def enginePut (d : Dev) (g : Group) (wave : Nat) (x : Xlat) (bs : List Byte) (m : Mach) : Mach :=
  if g.guarded then
    if x.home == .hbm then holdBytes g.core g.id x.pa bs m else m.conflict g.core g.id
  else match x.home with
    | .rep k => sequenceStore d g.core wave 0 k x.pa bs m
    | _ => m.homeStore d g.core x.pa bs

/-- The frozen frames that pieces of a write meet take it, each in its second buffer; none where one must wait (R446). -/
def frozenPieces (d : Dev) (g : Group) (ps : List (Xlat × Nat)) (m : Mach) : Option Mach :=
  if g.guarded then some m
  else ps.foldl (fun o p => if p.1.rep then o else o.bind fun m => Mach.frozenWrite d m p.1.pa) (some m)

/-- An engine's write to memory for a wave. -/
def engineStore (d : Dev) (g : Group) (wave : Nat) (a : BitVec 64) (bs : List Byte) (m : Mach) : EngRes × Mach :=
  match engineReach d g wave a bs.length .w m with
  | (.error r, m) => (r, m)
  | (.ok ps, m) => match frozenPieces d g ps m with
    | none => (.wait, m)
    | some m => (.bytes [], (ps.foldl (fun (r : Mach × Nat) p =>
        (enginePut d g wave p.1 ((bs.drop r.2).take p.2) r.1, r.2 + p.2)) (m, 0)).1)

/-! Check-in (R77, R316) -/

/-- `CHKI` (R77, R316): the write-back of an exclusive check-out is a release at the scope of `%memdef`. -/
def execChki (g : Guard) (t : Fin 64) (a b : Opnd) (s : State) : Host.Outcome State Fault Refusal :=
  tileWord { shortInfo (.chki g t a b) g [(a, 64), (b, 64)] [] [] with rel := true } t
    (fun d m io gr x =>
      let lo := readUni d m io 64 a
      let n := readUni d m io 64 b
      let mine := m.coh.checks.filter fun k => k.core == gr.core && k.group == gr.id && decide (k.lo < lo + n)
        && decide (lo < k.lo + k.len)
      let cut := mine.any fun k => decide (k.lo < lo) || decide (lo + n < k.lo + k.len)
      let excl := mine.any CheckOut.excl
      let td := tdesc x.desc
      if x.state == .filling || x.state == .draining then Eff.waitTiles m [t.val]
      else if mine.isEmpty || cut || (excl && (lo % 8 != 0 || n % 8 != 0 || decide (td.span < n) || td.bare)) then
        Eff.fault m 0x02 (BitVec.ofNat 64 lo)
      else
        let drop := fun (m : Mach) =>
          { m with coh := { m.coh with checks := m.coh.checks.filter fun k => !mine.contains k } }
        if !excl then Eff.ok (drop m) []
        else match orderBefore d m io { memdefPrefix io.w.memdef with order := .rel } with
          | (m, true) => Eff.wait m
          | (m, false) => match engineStore d gr io.w.id (BitVec.ofNat 64 lo) (gr.bytes td.space td.base n) m with
            | (.fault f, m) => Eff.fault m f.code f.addr
            | (.wait, m) => Eff.wait m
            | (.bytes _, m) => Eff.ok (drop m) []) s

end Sys2Proof.Machine
end

