-- ==== Sys2Proof/Machine/Engines.lean ====
section
/-! DEFINITION. The copy engine and the ladles: segments, pieces, bags, credit, parking, completion and killing (R68 to R80,
R112, R151, R309 to R315, R339). -/

namespace Sys2Proof.Machine

/-! Commands and segments -/

/-- A command of a group by its ring and ring index. -/
def Group.cmd (g : Group) (ladle : Bool) (idx : Nat) : Option Cmd :=
  g.cmds.find? fun c => c.ladle == ladle && c.idx == idx

/-- Changes a command, by its acceptance order. -/
def Group.updCmd (g : Group) (order : Nat) (f : Cmd → Cmd) : Group :=
  { g with cmds := updWhere (fun c => c.order == order) f g.cmds }

/-- Changes a segment of a command. -/
def Cmd.updSeg (c : Cmd) (no : Nat) (f : Seg → Seg) : Cmd := { c with segs := updWhere (fun x => x.no == no) f c.segs }

/-- Changes a segment. -/
def Mach.updSeg (m : Mach) (core group order no : Nat) (f : Seg → Seg) : Mach :=
  m.updGroup core group fun g => g.updCmd order fun c => c.updSeg no f

/-- The cup that a command credits. -/
def Cmd.cup (c : Cmd) : Option Nat := if (cmdHead c.words).cupen then some (cmdHead c.words).cup else none

/-- A segment of a copy as it begins (R75, R151). -/
def copySeg (c : Cmd) (no : Nat) : Seg :=
  let x := copyOf c.words c.block
  let k := no * x.seg
  { no := no, state := .pending, doneB := 0, src := addr64 (x.src + boxOff x.len0 x.dims BoxDim.ss k),
    dst := addr64 (x.dst + boxOff x.len0 x.dims BoxDim.ds k), ssp := x.ssp, dsp := x.dsp,
    len := min x.seg (x.bytes - k), reserved := false, known := true, sent := 0 }

/-- A bag as it begins. Its source, the address of its first index entry, is known once off(b) is read (R151); until then it
stands as that of the index list, which is the model's choice (log 95). -/
def bagSeg (c : Cmd) (no : Nat) : Seg :=
  let x := ladleOf c.words c.block
  { no := no, state := .pending, doneB := 0, src := addr64 x.ilist, dst := addr64 (x.dst + no * x.outpitch), ssp := 0,
    dsp := x.dsp, len := 4 * x.cols, reserved := false, known := false, sent := 0 }

/-- A segment of the command is being written, has parked, or goes on after a resume. -/
def Cmd.active (c : Cmd) : Bool :=
  c.segs.any fun x => match x.state with
    | .pending | .running | .parked _ => true
    | .done | .killed => false

/-- The segment that an engine takes up: pending after a resume, or not begun. -/
def Cmd.takeSeg (c : Cmd) (no : Nat) : Option (Seg × Cmd) :=
  match c.segs.find? fun x => x.no == no with
  | some x => if x.state == .pending then some (x, c) else none
  | none =>
    if no < c.total && !c.complete then
      let x := if c.ladle then bagSeg c no else copySeg c no
      some (x, { c with segs := c.segs ++ [x] })
    else none

/-- The engine may begin a segment of a command: nothing it depends on is unfinished, and no earlier reader of its cup's
tile is still reading (R73, R309). A killed command goes on with a segment that parked while it was being written (log 95). -/
def Group.mayBegin (g : Group) (c : Cmd) : Bool :=
  (!c.complete || c.killed) && (g.waitsOn c).isEmpty && (match c.cup with
    | some t => !g.readers t
    | none => true)

/-! Turns (R71) -/

/-- The engine that serves a ring of a core's group, by number: the core's copy engine, or ladle (c mod 64) div 16 of its
die (R71). -/
def engineOf (ladle : Bool) (core : Nat) : Nat := if ladle then 256 + 4 * coreDie core + core % 64 / 16 else core

/-- The group has a segment that its engine may begin. -/
def Group.canBegin (g : Group) (ladle : Bool) : Bool :=
  g.cmds.any fun c => c.ladle == ladle && g.mayBegin c
    && ((!c.complete && decide (c.segs.length < c.total)) || c.segs.any fun x => x.state == .pending)

/-- The place of a group among those that one engine serves. -/
def groupRank (core group : Nat) : Nat := 512 * core + group

/-- The context-save engine takes the context (R405). -/
def Mach.saves (m : Mach) (asid : BitVec 16) : Bool :=
  match m.ctx asid with
  | some c => c.cstate == .saving
  | none => false

/-- The engine serves the group next: of the groups for which it can begin a segment, the first after the one it served last
(R71), and of a context that is being saved none (R405). -/
def Mach.turnOf (m : Mach) (ladle : Bool) (core group : Nat) : Bool :=
  let e := engineOf ladle core
  let last := match m.turns.find? fun t => t.1 == e with
    | some t => groupRank t.2.1 t.2.2 + 1
    | none => 0
  let dist := fun (n : Nat) => (n + 131072 - last) % 131072
  m.groups.all fun x => !(engineOf ladle x.core == e && x.canBegin ladle && !m.saves x.asid)
    || decide (dist (groupRank core group) ≤ dist (groupRank x.core x.id))

/-- The engine has served a group. -/
def Mach.serve (m : Mach) (ladle : Bool) (core group : Nat) : Mach :=
  let e := engineOf ladle core
  { m with turns := (e, core, group) :: m.turns.filter fun t => t.1 != e }

/-! Completion (R74, R80, R313) -/

/-- Writes the completion record of a command, or sets BADHDR (R80, R313). A ring that cannot be written gets none. -/
def completionRecord (d : Dev) (g : Group) (c : Cmd) (m : Mach) : Mach :=
  let h := cmdHead c.words
  let ring := cringOf c.block
  if !h.cren then m
  else match readVa d m g.asid ring 16 true with
    | .error _ => m
    | .ok bs =>
      let n := ofBytes bs
      let cap := bitsOf n 32 32
      let i := bitsOf n 0 32
      if cap = 0 || 2 ^ 20 < cap || cap != 2 ^ Nat.log2 cap then
        (writeVa d m g.asid (ring + 8) [BitVec.ofNat 8 (bitsOf n 64 8 ||| 1)] true).getD m
      else
        let status := if c.killed then 2 else if c.retried then 1 else 0
        let r := h.tag + 2 ^ 16 * status + 2 ^ 20 * c.lastFlt + (if c.ladle then 2 ^ 28 else 0) + 2 ^ 32 * c.credited
          + 2 ^ 64 * i
        let m := (writeVa d m g.asid ring (toBytes 4 (i + 1)) true).getD m
        (writeVa d m g.asid (ring + BitVec.ofNat 64 (16 + 16 * (i % cap))) (toBytes 16 r) true).getD m

/-- Forgets the finished commands that hold no ring entry any more and have no segment still active. -/
def Group.prune (g : Group) : Group :=
  let keep := fun (ladle : Bool) => ((g.cmds.filter fun c => c.ladle == ladle).dropWhile fun c =>
    c.complete && !c.active).map Cmd.order
  { g with cmds := g.cmds.filter fun c => (keep c.ladle).contains c.order }

/-- Writes the record of a command that has ended, once its last write is performed: no segment of it is active any more
(R80). -/
def finishCmd (d : Dev) (core group order : Nat) (m : Mach) : Mach :=
  match m.group core group with
  | none => m
  | some g => match g.cmds.find? fun c => c.order == order with
    | none => m
    | some c =>
      if c.complete && !c.active then (completionRecord d g c m).updGroup core group Group.prune else m

/-- Ends a command: complete for the dependences of R73, its ring entry free in order, and its record written after its last
write (R70, R74, R80). -/
def endCmd (d : Dev) (core group order : Nat) (killed : Bool) (m : Mach) : Mach :=
  finishCmd d core group order
    (m.updGroup core group fun g => g.updCmd order fun c => { c with complete := true, killed := killed })

/-- A segment has delivered all its bytes: it is done, and its command when every segment is (R74). -/
def endSeg (d : Dev) (core group order no : Nat) (m : Mach) : Mach :=
  let m := m.updSeg core group order no fun x => { x with state := .done }
  match (m.group core group).bind fun g => g.cmds.find? fun c => c.order == order with
  | none => m
  | some c =>
    if c.complete then finishCmd d core group order m
    else if c.segs.length == c.total && c.segs.all fun x => x.state == .done then endCmd d core group order false m
    else m

/-! Parking (R79, R151) -/

/-- Parks a segment, with the cup's count of parked segments (R79). A segment of a killed command, which credits nothing any
more, parks too but is not counted (R74; the model's choice, log 95). -/
def parkSeg (d : Dev) (g : Group) (c : Cmd) (x : Seg) (f : Flt) (m : Mach) : Mach :=
  let info : ParkInfo :=
    { asid := g.asid, core := g.core, group := g.id, wave := c.wave, depth := if g.handler then some g.depth else none,
      code := f.code, prio := none, addr := f.addr, lanes := 0, kind := 2 + (if c.ladle then 4 else 0), tag := 0,
      tail := x.src.toNat + 2 ^ 64 * x.dst.toNat + 2 ^ 128 * (x.ssp % 4) + 2 ^ 130 * (x.dsp % 4) + 2 ^ 136 * x.len
        + 2 ^ 149 * x.doneB + 2 ^ 162 * c.cup.getD 0 + 2 ^ 192 * (c.idx % 2 ^ 32) + 2 ^ 224 * (x.no % 2 ^ 16) }
  let m := m.updGroup g.core g.id fun y =>
    let y := y.updCmd c.order fun c => { c with lastFlt := f.code }
    match c.cup with
    | some t => if c.killed then y else y.updTile t fun z => { z with parked := z.parked + 1 }
    | none => y
  takeFault d m info (.seg g.core g.id c.order x.no) [] fun h m =>
    m.updSeg g.core g.id c.order x.no fun y => { y with state := .parked h }

/-! Data (R112) -/

/-- The space of the group's storage that a space code above 0 names (R52). -/
def engSpace (sp : Nat) : Space := if sp = 1 then .spad else .ostore

/-- The first byte of a range of a group's storage that lies outside what an engine's transfer reaches: the allotment without
the rings (R53; that a transfer into a ring faults is the model's choice, log 95). -/
def Group.outside (g : Group) (sp : Space) (a : BitVec 64) : BitVec 64 :=
  let size := if sp == .spad then 32768 * g.alloc.spad - g.ringBytes else 262144 * g.alloc.ostore
  if a.toNat < size then BitVec.ofNat 64 size else a

/-- An engine's read of a space for a wave of a group. -/
def engineRead (d : Dev) (g : Group) (wave sp : Nat) (a : BitVec 64) (n : Nat) (m : Mach) : EngRes × Mach :=
  if sp = 0 then
    match engineReach d g wave a n .r m with
    | (.error r, m) => (r, m)
    | (.ok ps, m) =>
      let m := { m with coh := (pieceWords ps).foldl (fun c x => c.receiveWord g.core x) m.coh }
      (.bytes (ps.map fun (p : Xlat × Nat) =>
        if p.1.rep then m.homeBytes p.1.pa p.2 else m.heldBytes g.holder p.1.pa p.2).flatten, m)
  else
    match m.group g.core g.id with
    | none => (.wait, m)
    | some gr => if gr.inside (engSpace sp) a.toNat n false then (.bytes (gr.bytes (engSpace sp) a.toNat n), m)
      else (.fault ⟨0x02, gr.outside (engSpace sp) a⟩, m)

/-- An engine's write to a space for a wave of a group. -/
def engineWrite (d : Dev) (g : Group) (wave sp : Nat) (a : BitVec 64) (bs : List Byte) (m : Mach) : EngRes × Mach :=
  if sp = 0 then engineStore d g wave a bs m
  else
    match m.group g.core g.id with
    | none => (.wait, m)
    | some gr => if gr.inside (engSpace sp) a.toNat bs.length false then
        (.bytes [], m.putLocal g.core g.id (engSpace sp) a.toNat bs)
      else (.fault ⟨0x02, gr.outside (engSpace sp) a⟩, m)

/-- A write of the command at system scope to a replicated page is not applied on every module: its credit, which releases
it, waits (R69, R95, R106). -/
def creditWaits (m : Mach) (g : Group) (c : Cmd) : Bool :=
  scopeOf (cmdHead c.words).scope == some .sys
    && m.coh.reps.any fun r => r.core == g.core && r.wave == c.wave

/-- Counts bytes that a segment has written: its own count, the command's and the cup's, and the segment's end (R68, R74). A
killed command's segment credits nothing. -/
def creditSeg (d : Dev) (g : Group) (c : Cmd) (x : Seg) (n : Nat) (m : Mach) : Mach :=
  let m := m.updSeg g.core g.id c.order x.no fun y => { y with doneB := y.doneB + n, sent := 0 }
  let m := if c.killed then m else
    (match c.cup with
     | some t => creditTile g.core g.id t n m
     | none => m).updGroup g.core g.id fun g => g.updCmd c.order fun c => { c with credited := c.credited + n }
  if x.doneB + n < x.len then m else endSeg d g.core g.id c.order x.no m

/-- Bytes of a segment have been written: they are credited now, or once they are performed on every module. -/
def sentSeg (d : Dev) (g : Group) (c : Cmd) (x : Seg) (n : Nat) (m : Mach) : Mach :=
  if creditWaits m g c then m.updSeg g.core g.id c.order x.no fun y => { y with sent := n }
  else creditSeg d g c x n m

/-! Reservations and check-outs (R68, R76) -/

/-- Reserves bytes of a segment against its cup: none when they do not fit (R68). -/
def reserveSeg (g : Group) (c : Cmd) (x : Seg) (m : Mach) : Option Mach :=
  match c.cup.bind g.tile, c.cup with
  | some z, some t =>
    let n := x.len - x.doneB
    if x.reserved then some m
    else if z.expect < z.arrived + z.reserved + n then none
    else some ((m.updTile g.core g.id t fun z => { z with reserved := z.reserved + n }).updSeg g.core g.id c.order x.no
      fun y => { y with reserved := true })
  | _, _ => some m

/-- Two check-outs conflict (R76). -/
def CheckOut.clashes (a b : CheckOut) : Bool :=
  (a.excl || b.excl) && !(a.core == b.core && a.group == b.group) && decide (a.pa < b.pa + b.len)
    && decide (b.pa < a.pa + a.len)

/-- The slice whose range table holds a check-out: the home of its 4 KiB region, the host-line agent for a host page, or the
peer's home slice (R76). -/
def CheckOut.slice (a : CheckOut) : Nat := homeSlice (a.pa / 8)

/-- The check-outs that a copy's segment needs: for each 4 KiB region that its source bytes touch, the part of the
command's bounding source range in it (R76). A region that cannot be translated faults at the segment's first byte in it
(R79). -/
def segChecks (d : Dev) (g : Group) (c : Cmd) (x : Seg) (m : Mach) : Except Flt (List CheckOut) :=
  let cp := copyOf c.words c.block
  if x.ssp != 0 || x.dsp == 0 then .ok []
  else
    let r := boxRange false 0 cp.src cp.len0 cp.dims BoxDim.ss
    let k0 := x.no * cp.seg
    let at_ := (List.range x.len).map fun (k : Nat) => wrapTo 64 ((x.src.toNat : Int)
      + boxOff cp.len0 cp.dims BoxDim.ss (k0 + k) - boxOff cp.len0 cp.dims BoxDim.ss k0)
    let regions := (at_.map (· / 4096)).eraseDups
    regions.foldl (fun acc p => match acc with
      | .error f => .error f
      | .ok xs =>
        let first := BitVec.ofNat 64 ((at_.find? fun a => a / 4096 == p).getD 0)
        let lo : Nat := max (4096 * p) r.lo.toNat
        let hi : Nat := if r.lo + r.len ≤ 4096 * p then 4096 * p + 4096 else min (4096 * p + 4096) (r.lo + r.len).toNat
        match translate d m (coreDie g.core) g.asid first .r false with
        | .error e => .error ⟨e, first⟩
        | .ok t => .ok (xs ++ [⟨g.core, g.id, g.asid, lo, hi - lo, t.pa - first.toNat % 4096 + lo % 4096, cp.excl, c.words,
            c.block⟩])) (.ok [])

/-- Takes check-outs at their range tables, of 256 entries each: the first that conflicts, or the machine (R76). -/
def checkOut (xs : List CheckOut) (m : Mach) : Except CheckOut Mach :=
  xs.foldl (fun acc k => match acc with
    | .error e => .error e
    | .ok m =>
      let same := fun (o : CheckOut) => o.core == k.core && o.group == k.group && o.lo == k.lo && o.len == k.len
      if m.coh.checks.any fun o => o.clashes k then .error k
      else if m.coh.checks.any fun o => same o && (o.excl || !k.excl) then .ok m
      else if 256 ≤ (m.coh.checks.filter fun o => o.slice == k.slice).length then .error k
      else .ok { m with coh := { m.coh with checks := m.coh.checks.filter (fun o => !same o) ++ [k] } }) (.ok m)

/-! Dispositions of a segment (R66, R68, R74, R155) -/

/-- Reads the patched fields of a segment's record (R151, R339). A bag whose source was not known keeps it so, unless the
record names another one. -/
def patchSeg (d : Dev) (m : Mach) (asid : BitVec 16) (h : BitVec 64) (x : Seg) : Seg :=
  let src := BitVec.ofNat 64 (recField d m asid h 288 64)
  { x with src := src, dst := BitVec.ofNat 64 (recField d m asid h 352 64), known := x.known || src != x.src,
           ssp := recField d m asid h 416 2, dsp := recField d m asid h 418 2 }

/-- A cup when a parked segment that credits it goes on: `n` delivered bytes are subtracted (R66, R68). -/
def Tile.unpark (n : Nat) (z : Tile) : Tile :=
  let z := { z with parked := z.parked - 1, arrived := z.arrived - n, reserved := z.reserved + n }
  if z.state == .ready && decide (z.arrived < z.expect) then { z with state := .filling } else z

/-- `PRESUME` or `PRETRY` of a parked segment. -/
def resumeSeg (d : Dev) (core group order no : Nat) (h : BitVec 64) (again : Bool) (m : Mach) : Mach :=
  match m.group core group with
  | none => m
  | some g => match g.cmds.find? fun c => c.order == order with
    | none => m
    | some c => match c.segs.find? fun x => x.no == no with
      | none => m
      | some x =>
        let done := if again then 0 else x.doneB
        let m := match c.cup with
          | some t => if c.killed then m else m.updTile core group t (Tile.unpark (x.doneB - done))
          | none => m
        m.updGroup core group fun g => g.updCmd order fun c =>
          { (c.updSeg no fun x => { patchSeg d m g.asid h x with state := .pending, doneB := done }) with
            retried := true, credited := c.credited - (x.doneB - done) }

/-- Sets the record of a segment disposed and withdraws its untaken task (R74). -/
def cancelRecord (d : Dev) (asid : BitVec 16) (h : BitVec 64) (m : Mach) : Mach :=
  ((setRecState d (withdrawFor d m asid h) asid h 2)).dropParked asid h

/-- Kills a command (R66, R74): its undelivered segments are cancelled, and the records of those that have parked; those
writing go on without credit. -/
def killCmd (d : Dev) (core group order : Nat) (m : Mach) : Mach :=
  match m.group core group with
  | none => m
  | some g => match g.cmds.find? fun c => c.order == order with
    | none => m
    | some c =>
      if c.complete && !c.killed then m
      else
        let m := c.segs.foldl (fun m x => match x.state with
          | .parked h => cancelRecord d g.asid h m
          | _ => m) m
        let m := m.updGroup core group fun g => g.updCmd order fun c =>
          { c with segs := c.segs.map fun x => if x.state == .running || x.state == .done then x
              else { x with state := .killed } }
        let m := match c.cup with
          | some t => if c.complete then m else abandonTile core group t m
          | none => m
        endCmd d core group order true m

/-! The engines' moves -/

/-- A segment parked with 0x41 whose entry names no handler is retried once nothing conflicts with it (R76, R156). -/
def selfRetry (d : Dev) (g : Group) (c : Cmd) (no : Nat) (m : Mach) : Mach :=
  match c.segs.find? fun x => x.no == no with
  | none => m
  | some x => match x.state with
    | .parked h =>
      let tab := match m.ctx g.asid with
        | some c => c.faulttab
        | none => 0
      if ((m.parkedAt g.asid h).map Parked.code) == some 0x41 && (faultEntry d m g.asid tab 0x41).queue == 0 then
        match segChecks d g c x m with
        | .error _ => m
        | .ok ks => match checkOut ks m with
          | .error _ => m
          | .ok _ => cancelRecord d g.asid h (resumeSeg d g.core g.id c.order no h true m)
      else m
    | _ => m

/-- A copy's engine begins a segment that it has taken up: the check-outs, then the reservation (R68, R76, R79, R339). -/
def beginSeg (d : Dev) (g : Group) (c : Cmd) (x : Seg) (m : Mach) : Mach :=
  if x.ssp = 3 || x.dsp = 3 then parkSeg d g c x ⟨0x02, if x.ssp = 3 then x.src else x.dst⟩ m
  else match segChecks d g c x m with
    | .error f => parkSeg d g c x f m
    | .ok ks => match checkOut ks m with
      | .error k => parkSeg d g c x ⟨0x41, BitVec.ofNat 64 k.lo⟩ m
      | .ok m => match (if c.killed then some m else reserveSeg g c x m) with
        | none => parkSeg d g c x ⟨0x61, x.dst⟩ m
        | some m => m.updSeg g.core g.id c.order x.no fun y => { y with state := .running }

/-- The event in which the copy engine begins a segment, in its group's turn (R71, R73, R75, R76, R79). -/
def execCopySegment (core group cmd seg : Nat) (s : State) : Host.Outcome State Fault Refusal :=
  .next (s.withMach fun d m =>
    match (m.group core group).bind fun g => (g.cmd false cmd).map fun c => (g, c) with
    | none => m
    | some (g0, c0) =>
      let m' := selfRetry d g0 c0 seg m
      match (m'.group core group).bind fun g => (g.cmd false cmd).map fun c => (g, c) with
      | none => m
      | some (g, c) =>
        if !g.mayBegin c || m'.saves g.asid || !m'.turnOf false core group then m
        else match c.takeSeg seg with
          | none => m
          | some (x, c) =>
            beginSeg d g c x ((m'.serve false core group).updGroup core group fun g => g.updCmd c.order fun _ => c))

/-- The event in which a running copy segment writes its next piece, of at most 256 bytes and inside one 256-byte block
of the destination, and credits its cup (R68, R69, R75). -/
def execCopyPieceWrite (core group cmd seg : Nat) (s : State) : Host.Outcome State Fault Refusal :=
  .next (s.withMach fun d m =>
    match m.group core group with
    | none => m
    | some g => match g.cmd false cmd with
      | none => m
      | some c => match c.segs.find? fun x => x.no == seg && x.state == .running with
        | none => m
        | some x =>
          if x.sent ≠ 0 then (if creditWaits m g c then m else creditSeg d g c x x.sent m)
          else if m.saves g.asid then m
          else
            let cp := copyOf c.words c.block
            let k0 := seg * cp.seg
            let k := k0 + x.doneB
            let from_ := fun (base : BitVec 64) (f : BoxDim → Int) =>
              addr64 ((base.toNat : Int) + boxOff cp.len0 cp.dims f k - boxOff cp.len0 cp.dims f k0)
            let a := from_ x.src BoxDim.ss
            let b := from_ x.dst BoxDim.ds
            let n := min (min (cp.len0 - k % cp.len0) (x.len - x.doneB)) (256 - b.toNat % 256)
            match engineRead d g c.wave x.ssp a n m with
            | (.fault f, m) => parkSeg d g c x f m
            | (.wait, m) => m
            | (.bytes bs, m) => match engineWrite d g c.wave x.dsp b bs m with
              | (.fault f, m) => parkSeg d g c x f m
              | (.wait, m) => m
              | (.bytes _, m) => sentSeg d g c x n m)

/-! The ladle (R78, R315) -/

/-- A value as the FP32 code that a result of it takes, a NaN made canonical (R118). -/
def canonical (x : FVal) : Nat := fround .f32 .rne false x

/-- Column values of a table row, exact in FP32 (R78). -/
def rowValues (bf16 : Bool) (cols : Nat) (bs : List Byte) : List Nat :=
  (List.range cols).map fun j =>
    if bf16 then canonical (fdecode .bf16 (ofBytes ((bs.drop (2 * j)).take 2)))
    else canonical (fdecode .f32 (ofBytes ((bs.drop (4 * j)).take 4)))

/-- One step of a bag: a row joins the pooled values (R78). -/
def poolRow (mode : Nat) (weight : Option Nat) (first : Bool) (acc row : List Nat) : List Nat :=
  List.zipWith (fun a x =>
    if mode = 2 then (if first then x else fminmaxV .f32 true (fdecode .f32 a) (fdecode .f32 x))
    else match weight with
      | some w => ffmaV .f32 .rne false (fdecode .f32 w) (fdecode .f32 x) (fdecode .f32 a)
      | none => fadd32 .rne a x) acc row

/-- What reading for a bag meets in place of a value. -/
inductive BagStop where
  | fault (f : Flt)
  | wait
  deriving DecidableEq, Repr

/-- A value that a ladle reads for a bag. -/
def bagRead (d : Dev) (g : Group) (wave sp : Nat) (a : BitVec 64) (n : Nat) (m : Mach) :
    Except BagStop (List Byte) × Mach :=
  match engineRead d g wave sp a n m with
  | (.bytes bs, m) => (.ok bs, m)
  | (.fault f, m) => (.error (.fault f), m)
  | (.wait, m) => (.error .wait, m)

/-- Pools the rows of list positions `i`, `i + 1`, …, whose indices stand from `src` on in a space: the values, or what
reading meets, with the machine. -/
def poolRows (d : Dev) (g : Group) (wave : Nat) (x : Ladle) (ssp : Nat) (src : BitVec 64) (first i : Nat) (acc : List Nat)
    (m : Mach) : Nat → Except BagStop (List Nat) × Mach
  | 0 => (.ok acc, m)
  | n + 1 =>
    let ia := src + BitVec.ofNat 64 (4 * (i - first))
    match bagRead d g wave ssp ia 4 m with
    | (.error e, m) => (.error e, m)
    | (.ok ib, m) =>
      let idx := ofBytes ib
      if x.rowcnt ≤ idx then (.error (.fault ⟨0x02, ia⟩), m)
      else
        let z := if x.bf16 then 2 else 4
        match bagRead d g wave 0 (BitVec.ofNat 64 (x.table + idx * x.rowpitch)) (z * x.cols) m with
        | (.error e, m) => (.error e, m)
        | (.ok rb, m) =>
          let row := rowValues x.bf16 x.cols rb
          if x.weighted then
            match bagRead d g wave 0 (BitVec.ofNat 64 (x.wlist + 4 * i)) 4 m with
            | (.error e, m) => (.error e, m)
            | (.ok wb, m) =>
              poolRows d g wave x ssp src first (i + 1) (poolRow x.mode (some (ofBytes wb)) (i == first) acc row) m n
          else poolRows d g wave x ssp src first (i + 1) (poolRow x.mode none (i == first) acc row) m n

/-- A list position that the offsets list gives, at an index. -/
def bagOffset (d : Dev) (g : Group) (wave : Nat) (x : Ladle) (b : Nat) (m : Mach) : Except BagStop Nat × Mach :=
  match bagRead d g wave 0 (BitVec.ofNat 64 (x.olist + 4 * b)) 4 m with
  | (.ok bs, m) => (.ok (ofBytes bs), m)
  | (.error e, m) => (.error e, m)

/-- A bag's offsets checked in the order of R315: the fault, if any. -/
def bagCheck (x : Ladle) (b o0 o1 : Nat) : Option Flt :=
  if x.nidx < o0 then some ⟨0x02, BitVec.ofNat 64 (x.olist + 4 * b)⟩
  else if x.nidx < o1 || o1 < o0 then some ⟨0x02, BitVec.ofNat 64 (x.olist + 4 * (b + 1))⟩
  else none

/-- The pooled values of a bag: in mode mean they are divided by the count (R78). -/
def bagMean (x : Ladle) (n : Nat) (acc : List Nat) : List Nat :=
  if x.mode = 1 && n != 0 then
    acc.map fun a => fdivV .f32 .rne false (fdecode .f32 a) (fdecode .f32 (fofInt .f32 .rne n))
  else acc

/-- A bag parks on a fault, or waits. -/
def stopBag (d : Dev) (g : Group) (c : Cmd) (x : Seg) (e : BagStop) (m : Mach) : Mach :=
  match e with
  | .fault f => parkSeg d g c x f m
  | .wait => m

/-- A ladle pools a bag from its first list position on, and writes its row (R68, R78). -/
def runBag (d : Dev) (g : Group) (c : Cmd) (x : Seg) (o0 o1 : Nat) (m : Mach) : Mach :=
  let l := ladleOf c.words c.block
  match poolRows d g c.wave l x.ssp x.src o0 o0 (List.replicate l.cols 0) m (o1 - o0) with
  | (.error e, m) => stopBag d g c x e m
  | (.ok acc, m) => match (if c.killed then some m else reserveSeg g c x m) with
    | none => parkSeg d g c x ⟨0x61, x.dst⟩ m
    | some m => match engineWrite d g c.wave x.dsp x.dst (((bagMean l (o1 - o0) acc).map (toBytes 4)).flatten) m with
      | (.fault f, m) => parkSeg d g c x f m
      | (.wait, m) => m
      | (.bytes _, m) => sentSeg d g c x x.len m

/-- A ladle reads a bag's offsets, which give its source where no record has patched it, and runs it. -/
def startBag (d : Dev) (g : Group) (c : Cmd) (x : Seg) (m : Mach) : Mach :=
  let l := ladleOf c.words c.block
  match bagOffset d g c.wave l x.no m with
  | (.error e, m) => stopBag d g c x e m
  | (.ok o0, m) =>
    let x := if x.known then x else { x with src := addr64 (l.ilist + 4 * o0), known := true }
    let m := m.updSeg g.core g.id c.order x.no fun _ => x
    match bagOffset d g c.wave l (x.no + 1) m with
    | (.error e, m) => stopBag d g c x e m
    | (.ok o1, m) => match bagCheck l x.no o0 o1 with
      | some f => parkSeg d g c x f m
      | none => runBag d g c x o0 o1 m

/-- The event in which a ladle serves one bag, in its group's turn (R71, R78, R79, R315, R339). -/
def execLadleBag (core group cmd bag : Nat) (s : State) : Host.Outcome State Fault Refusal :=
  .next (s.withMach fun d m =>
    match (m.group core group).bind fun g => (g.cmd true cmd).map fun c => (g, c) with
    | none => m
    | some (g, c) =>
      if !g.mayBegin c || m.saves g.asid || !m.turnOf true core group then m
      else match c.takeSeg bag with
        | none => m
        | some (x, c) =>
          let m := (m.serve true core group).updGroup core group fun g => g.updCmd c.order fun _ => c
          if x.sent ≠ 0 then (if creditWaits m g c then m else creditSeg d g c x x.sent m)
          else if x.ssp = 3 || x.dsp = 3 then parkSeg d g c x ⟨0x02, if x.ssp = 3 then x.src else x.dst⟩ m
          else startBag d g c x m)

/-! A group's commands as it dissolves (R30) -/

/-- A command is settled: complete, with nothing left to run but parked segments, or waiting only on settled commands. -/
def Group.settledCmd (g : Group) (c : Cmd) : Nat → Bool
  | 0 => false
  | fuel + 1 =>
    ((c.complete || c.segs.length == c.total) && c.segs.all fun x => match x.state with
        | .done | .parked _ | .killed => true
        | .pending | .running => false)
      || (!(g.waitsOn c).isEmpty && (g.waitsOn c).all fun a => g.settledCmd a fuel)

/-- Every command of the group is settled (R30 step 1). -/
def Group.settled (g : Group) : Bool := g.cmds.all fun c => g.settledCmd c (g.cmds.length + 1)

/-- Some tile is not empty, or some command has not completed (R30 step 2). -/
def Group.unclean (g : Group) : Bool :=
  g.tiles.any (fun t => t.2.state != .empty) || g.cmds.any fun c => !c.complete

/-- The bytes of an exclusive check-out as the group's storage holds them: each source byte's copy, by the command's
box. -/
def CheckOut.pieces (k : CheckOut) : List (Nat × Nat) :=
  let cp := copyOf k.words k.block
  (List.range cp.bytes).filterMap fun i =>
    let a := wrapTo 64 ((cp.src : Int) + boxOff cp.len0 cp.dims BoxDim.ss i)
    if k.lo ≤ a ∧ a < k.lo + k.len then
      some (a, wrapTo 64 ((cp.dst : Int) + boxOff cp.len0 cp.dims BoxDim.ds i))
    else none

/-- Checks in every check-out that a dissolving group holds, with exclusive data written back (R77): none while a write must
wait. A byte whose home reports a fault is not written (log 95). -/
def checkInAll (d : Dev) (g : Group) (m : Mach) : Option Mach :=
  let mine := m.coh.checks.filter fun k => k.core == g.core && k.group == g.id
  let put := fun (sp : Space) (o : Option Mach) (p : Nat × Nat) => o.bind fun m =>
    match engineStore d g 256 (BitVec.ofNat 64 p.1) (g.bytes sp p.2 1) m with
    | (.wait, _) => none
    | (_, m) => some m
  let done := mine.foldl (fun o k =>
    if !k.excl then o
    else k.pieces.foldl (put (engSpace (copyOf k.words k.block).dsp)) o) (some m)
  done.map fun m => { m with coh := { m.coh with checks := m.coh.checks.filter fun k => !mine.contains k } }

end Sys2Proof.Machine
end

