-- ==== Sys2Proof/Machine/Groups.lean ====
section
/-! DEFINITION. Groups, barriers, gangs, the dissolution of a group, the end of a wave, and the rounds of snapshot arrivals
(R29 to R34, R113, R281 to R287, R343, R382, R420, R441, R444). -/

namespace Sys2Proof.Machine

/-! Membership (R29) -/

/-- The thread holds a lane and has not ended. -/
def Lane.live (x : Lane) : Bool := x.st != .empty && x.st != .ended

/-- The lanes of a wave that belong to a group. -/
def Wave.lanesIn (w : Wave) (g : Nat) : List Nat :=
  (List.range w.lanes.length).filter fun l => (w.lane l).live && (w.lane l).group == some g

/-- The members of a group, by wave and lane. -/
def Mach.members (m : Mach) (core g : Nat) : List (Nat × Nat) :=
  ((m.waves.filter fun w => w.core == core).map fun w => (w.lanesIn g).map fun l => (w.id, l)).flatten

/-! Barriers (R31, R286) -/

/-- An arrival: the barrier, and the phase that it counts toward. -/
def Barrier.arrive (b : Barrier) (t : Nat × Nat) : Barrier × Nat :=
  if b.members.contains t && !b.arrived.contains t then ({ b with arrived := b.arrived ++ [t] }, b.phase)
  else ({ b with early := b.early ++ [t] }, b.phase + 1)

/-- A member that leaves counts as arrived in the phase in progress. -/
def Barrier.leave (b : Barrier) (t : Nat × Nat) : Barrier :=
  if b.members.contains t && !b.arrived.contains t then { b with arrived := b.arrived ++ [t] }
  else { b with early := b.early.filter fun x => x != t }

/-- Ends the phases that are complete. -/
def Barrier.settle (now : List (Nat × Nat)) : Nat → Barrier → Barrier
  | 0, b => b
  | n + 1, b =>
    if !b.members.isEmpty && b.members.all b.arrived.contains then
      Barrier.settle now n { phase := b.phase + 1, members := now, arrived := b.early, early := [] }
    else b

/-- The part of a path that a lane mask keeps. -/
def Path.part (p : Path) (mask : BitVec 64) : Path :=
  { p with mask := mask, windows := p.windows.map fun x => x.only mask }

/-- Releases the threads of a wave that wait at barriers of a group whose phase has ended. -/
def Wave.releaseBars (w : Wave) (g : Group) : Wave :=
  let free := fun (b : Nat) (l : Nat × Nat) =>
    (w.lane l.1).group == some g.id && decide (l.2 < ((g.bars[b]?).map Barrier.phase).getD 0)
  let go := w.waits.map fun x => match x.what with
    | .barrier b ls =>
      let out := maskOf ((ls.filter (free b)).map Prod.fst)
      let rest := ls.filter fun l => !free b l
      (if rest.isEmpty then [] else [(⟨x.path.part (maskOf (rest.map Prod.fst)), .barrier b rest⟩ : Waiting)],
       if out = 0 then [] else [{ x.path.part out with fin := none }])
    | _ => ([x], [])
  { w with waits := (go.map Prod.fst).flatten, resume := w.resume ++ (go.map Prod.snd).flatten }

/-- Ends the complete phases of a group's barriers and releases the waits on them. -/
def settleBars (core group : Nat) (m : Mach) : Mach :=
  let now := m.members core group
  let m := m.updGroup core group fun g => { g with bars := g.bars.map (Barrier.settle now 3) }
  match m.group core group with
  | none => m
  | some g => { m with waves := m.waves.map fun w => if w.core = core then w.releaseBars g else w }

/-! Gangs (R32 to R34, R285) -/

/-- The members of a gang that lists a wave find their list broken: their latched entries vanish, and their `KMMA`
raises 0x53. -/
def breakGang (core wave : Nat) (m : Mach) : Mach :=
  { m with
    waves := m.waves.map fun w =>
      if w.core = core && (gangMembers w.gang).contains wave then { w with gangDead := true } else w
    groups := m.groups.map fun g =>
      if g.core = core then { g with latch := g.latch.filter fun e => e.out.isSome || !(gangMembers e.gang).contains wave }
      else g }

/-- A thread changes group: its wave's gang list is cleared at the same step (R285). -/
def clearGang (core wave : Nat) (m : Mach) : Mach :=
  (breakGang core wave m).updWave core wave fun w => { w with gang := 0, gangDead := false }

/-! Rounds of snapshot arrivals (R441, R444) -/

/-- The code of a snapshot state. -/
def SState.code : SState → Nat
  | .idle => 0
  | .cutting => 1
  | .draining => 2
  | .committing => 3

/-- Writes the status part of a context's snapshot configuration (R441). -/
def snapStatus (d : Dev) (asid : BitVec 16) (m : Mach) : Mach :=
  match m.ctx asid with
  | none => m
  | some c =>
    let x := c.snap
    let n := (if x.armed then 1 else 0) + 2 * x.armerr + 2 ^ 4 * x.sstate.code + (if x.feedsafe then 2 ^ 6 else 0)
      + (if x.partnered then 2 ^ 7 else 0) + 2 ^ 32 * x.lastgen + 2 ^ 64 * x.pgen + 2 ^ 96 * x.cuts
      + 2 ^ 128 * min x.skipcad 0xFFFF + 2 ^ 144 * min x.skipbusy 0xFFFF + 2 ^ 160 * min x.aborts 0xFFFF
      + 2 ^ 192 * x.tcut
    (writeVa d m asid (c.snapcfg + 64) (toBytes 64 n) true).getD m

/-- Changes a context's snapshot part. -/
def Mach.updSnap (m : Mach) (asid : BitVec 16) (f : Snap → Snap) : Mach :=
  m.updCtx asid fun c => { c with snap := f c.snap }

/-- Ends a round: no wave's arrival is pending any more. -/
def closeRound (asid : BitVec 16) (m : Mach) : Mach :=
  let m := m.updSnap asid fun x => { x with begun := false, round := false }
  { m with
    waves := m.waves.map fun w => if w.asid = asid then { w with snapped := false } else w
    groups := m.groups.map fun g => if g.asid = asid then { g with snapIn := false } else g }

/-- After an arrival or a dissolution: a round in which every counted group has arrived becomes a pending cut, or is
closed and counted (R444). -/
def snapRound (d : Dev) (asid : BitVec 16) (m : Mach) : Mach :=
  match m.ctx asid with
  | none => m
  | some c =>
    let x := c.snap
    let counted := m.groups.filter fun g => g.asid == asid && !g.handler && !g.guarded
    if !x.armed || !x.begun || x.round || counted.any fun g => !g.snapIn then m
    else if x.sstate != .idle then
      snapStatus d asid ((closeRound asid m).updSnap asid fun x => { x with skipbusy := min 0xFFFF (x.skipbusy + 1) })
    else if !x.cutSince || x.tcut + 1000000 * (if x.cadence = 0 then 60 else x.cadence) ≤ m.usec then
      m.updSnap asid fun x => { x with round := true }
    else snapStatus d asid ((closeRound asid m).updSnap asid fun x => { x with skipcad := min 0xFFFF (x.skipcad + 1) })

/-! The end of a guarded tile (R113, R343, R382) -/

/-- Word `n` of a task's launch record. -/
def Task.word (t : Task) (n : Nat) : BitVec 64 := t.lr.getD n 0

/-- A field of a task's launch record: `n` bits from bit `lo`. -/
def Task.field (t : Task) (lo n : Nat) : Nat := bitsOf (ofWords t.lr) lo n

/-- A task by its identity. -/
def Mach.task (m : Mach) (id : Nat) : Option Task := m.disp.tasks.find? fun t => t.id == id

/-- Changes a task. -/
def Mach.updTask (m : Mach) (id : Nat) (f : Task → Task) : Mach :=
  { m with disp := { m.disp with tasks := updWhere (fun t => t.id == id) f m.disp.tasks } }

/-- Adds 1 to a 32-bit counter of a launch status block, by an atomic at its home (R382). -/
def addStatus (d : Dev) (asid : BitVec 16) (va : BitVec 64) (off : Nat) (m : Mach) : Mach :=
  if va = 0 then m
  else match readVa d m asid (va + BitVec.ofNat 64 off) 4 true with
    | .ok bs => (writeVa d m asid (va + BitVec.ofNat 64 off) (toBytes 4 (ofBytes bs + 1)) true).getD m
    | .error _ => m

/-- Commits one held word: it returns to its committed state and becomes line-owned by the group's core (R113). -/
def commitWord (d : Dev) (g : Group) (h : HeldWord) (m : Mach) : Mach :=
  let m := (Mach.frozenWrite d m (8 * h.word)).getD m
  let new := m.heldWord (some (g.core, g.id)) h.word (m.homeValue h.word)
  let m := (m.clearTags (8 * h.word) 8).wakeBy (8 * h.word) 8
  ({ m with coh := m.coh.unhold h.word } : Mach).claim ⟨g.core, g.asid, d.att.modid⟩ h.word true new

/-- M ≤ `%tol`, as `FCMP.le` compares (R343). -/
def residOk (mag tol : Word) : Bool := fcmpV .le (fdecode .f32 mag.toNat) (fdecode .f32 tol.toNat)

/-- The reason why a surrogate group discards: 0 it commits, 1 tolerance or NaN, 2 conflict or `PKILL`, 3 budget
(R343). -/
def discardReason (g : Group) (tol : Word) (killed : Bool) : Nat :=
  if g.conflict || g.killed || killed then 2
  else if g.overBud then 3
  else if g.nanr || !residOk g.residM tol then 1
  else 0

/-- Adds to a join counter at its home (R420): the value grows by `n` modulo 2^64. -/
def addCounter (d : Dev) (asid : BitVec 16) (va : BitVec 64) (n : Nat) (m : Mach) : Mach :=
  match readVa d m asid va 8 true with
  | .ok bs => (writeVa d m asid va (toBytes 8 (ofBytes bs + n)) true).getD m
  | .error _ =>
    m.devWrite (va.toNat / 8 * 8) (toBytes 8 ((m.homeValue (va.toNat / 8)).toNat + n))

/-- The number of waves of `n` threads at a lane width. -/
def waveCount (n width : Nat) : Nat := (n + width - 1) / width

/-- Ends a surrogate group (R113, R343): its held words commit, or vanish and the exact group is handed to dispatch. -/
def endSurrogate (d : Dev) (g : Group) (killed : Bool) (m : Mach) : Mach :=
  let task := g.task.bind m.task
  let tol := match task with
    | some t => BitVec.ofNat 32 (t.field 480 32)
    | none => match m.waves.find? fun w => w.core == g.core && w.guarded && (w.lanesIn g.id).isEmpty == false with
      | some w => w.tol
      | none => 0
  let mine := m.coh.held.filter fun h => h.core == g.core && h.group == g.id
  let why := discardReason g tol killed
  let m := if why = 0 then mine.foldl (fun m h => commitWord d g h m) m
    else { m with coh := mine.foldl (fun c h => c.unhold h.word) m.coh }
  let m := { m with coh := { m.coh with held := m.coh.held.filter fun h => !(h.core == g.core && h.group == g.id) } }
  match task with
  | none => m
  | some t =>
    let m := addStatus d t.asid (t.word 8) (if why = 0 then 16 else if why = 1 then 20 else if why = 2 then 24 else 28) m
    if why = 0 then
      let size := min (t.field 288 16) (t.field 256 32 - g.gindex * t.field 288 16)
      if t.jctr = 0 then m
      else addCounter d t.asid t.jctr (waveCount size (16 * 2 ^ t.field 304 2)) m
    else
      let lr := (readVaWords d m t.asid (t.word 9) 16).getD []
      let x : Task :=
        { t with id := m.disp.nextId, lrAddr := t.word 9, lr := lr, kind := 2, groups := 1, nextG := 0, back := [], live := 0,
                 doneG := 0, started := true, ended := false, only := some g.gindex, ftask := none, parent := some t.id,
                 prio := t.field 306 3 }
      { m with disp := { m.disp with tasks := m.disp.tasks ++ [x], nextId := m.disp.nextId + 1 } }

/-! Dissolution (R30) -/

/-- Ends a product sequence as `PKILL` of the sequence ends it: the paths that wait to read its accumulators find it gone
(R155). -/
def killSeq (d : Dev) (core group ticket : Nat) (m : Mach) : Mach :=
  match (m.group core group).bind fun g => (g.seqs.find? fun q => q.ticket == ticket).map fun q => (g, q) with
  | none => m
  | some (g, q) =>
    let m := match q.parked with
      | some h => cancelRecord d g.asid h m
      | none => m
    (m.updGroup core group fun g =>
      { g with seqs := updWhere (fun q => q.ticket == ticket) (fun q => { q with active := false, parked := none }) g.seqs }).pathsIn
      core group (Path.lose fun k => k.accs.any fun n => q.uses n)

/-- Returns a group's resources to the core pool (R30 step 3). -/
def dropGroup (g : Group) (m : Mach) : Mach :=
  { m with
    groups := m.groups.filter fun x => !(x.core == g.core && x.id == g.id)
    coh := { m.coh with checks := m.coh.checks.filter fun k => !(k.core == g.core && k.group == g.id) } }

/-- A surrogate group's store. -/
def Store.heldBy (s : Store) (g : Group) : Bool := s.guarded && s.core == g.core && s.group == some g.id

/-- What a dissolution waits for beyond the group's commands: its check-outs are written back (R77), and a surrogate group's
stores are performed, so that they commit or vanish with it (R113). The machine after them, or none while one must wait. -/
def readyToEnd (d : Dev) (g : Group) (m : Mach) : Option Mach :=
  if g.guarded then
    let m := drainStores d (fun s => s.heldBy g) m
    let mine := m.coh.held.filter fun h => h.core == g.core && h.group == g.id
    if (m.coh.stores.any fun s => s.heldBy g) || mine.any fun h => (Mach.frozenWrite d m (8 * h.word)).isNone then none
    else checkInAll d g m
  else checkInAll d g m

/-- A group with no member left dissolves (R30). `killed`: its last member was killed, so that its commands and
sequences are killed, and its check-outs and the stores of a surrogate group dropped. -/
def dissolve (d : Dev) (core group : Nat) (killed : Bool) (m : Mach) : Mach :=
  match m.group core group with
  | none => m
  | some g =>
    let m := if killed then
        let m := g.cmds.foldl (fun m c => killCmd d core group c.order m) m
        g.seqs.foldl (fun m q => if q.active then killSeq d core group q.ticket m else m) m
      else m
    let m := if g.guarded then
        endSurrogate d g killed { m with coh := { m.coh with stores := m.coh.stores.filter fun s => !s.heldBy g } }
      else m
    let m := match g.task with
      | some t => m.updTask t fun t => { t with live := t.live - 1, doneG := t.doneG + 1 }
      | none => m
    snapRound d g.asid (dropGroup g m)

/-- One thread leaves its group; the group may be left without members. -/
def dropMember (core wave l : Nat) (m : Mach) : Mach :=
  match (m.wave core wave).bind fun w => (w.lane l).group with
  | none => m
  | some g =>
    let m := m.updWave core wave fun w => w.updLane l fun x =>
      { x with group := none, arrived := List.replicate 16 none }
    settleBars core g (m.updGroup core g fun x => { x with bars := x.bars.map fun b => b.leave (wave, l) })

/-- What becomes of lanes that leave their groups: the machine, whether a dissolution must wait for commands or writes, whether
one raised 0x62 (R30, R283, R284), and whether some lane has left. -/
structure Left where
  m     : Mach
  wait  : Bool
  bad   : Bool
  moved : Bool
  deriving DecidableEq, Repr

/-- The groups of some lanes of a wave are not dissolving any more: the word that would have dissolved them has ended. -/
def keepGroups (core wave : Nat) (ls : List Nat) (m : Mach) : Mach :=
  match m.wave core wave with
  | none => m
  | some w => (ls.filterMap fun l => (w.lane l).group).eraseDups.foldl
      (fun m g => m.updGroup core g fun x => { x with dissolve := none }) m

/-- Some live member of a group other than the listed lanes of a wave. -/
def othersIn (m : Mach) (core g wave : Nat) (ls : List Nat) : Bool :=
  (m.members core g).any fun t => !(t.1 == wave && ls.contains t.2)

/-- Lanes of a wave leave their groups, in ascending order. The last member of a group waits until its commands are
settled, and keeps the group when tiles or commands are left in it. -/
def leaveLanes (d : Dev) (core wave : Nat) (ls : List Nat) (m : Mach) : Left :=
  match m.wave core wave with
  | none => ⟨m, false, false, false⟩
  | some w =>
    let gs := (ls.filterMap fun l => (w.lane l).group).eraseDups
    let dying := gs.filter fun g => !othersIn m core g wave ls
    let is := fun (p : Group → Bool) (g : Nat) => ((m.group core g).map p).getD false
    let mark := fun (m : Mach) (g : Nat) => m.updGroup core g fun x => { x with dissolve := some (wave, 0) }
    let unclean := dying.filter (is Group.unclean)
    let clean := dying.filter fun g => !unclean.contains g
    let ready := clean.foldl (fun o g => o.bind fun m => match m.group core g with
      | some x => readyToEnd d x m
      | none => some m) (some m)
    match ready with
    | none => ⟨clean.foldl mark m, true, false, false⟩
    | some m' =>
      if dying.any (is fun x => !x.settled) then ⟨dying.foldl mark m, true, false, false⟩
      else
        let keep := unclean.filterMap fun g => (ls.filter fun l => (w.lane l).group == some g).getLast?
        let out := ls.filter fun l => !keep.contains l && (w.lane l).group.isSome
        let m := out.foldl (fun m l => dropMember core wave l m) m'
        let m := clean.foldl (fun m g => dissolve d core g false m) m
        ⟨unclean.foldl (fun m g => m.updGroup core g fun x => { x with dissolve := none }) m, false, !unclean.isEmpty,
          !out.isEmpty⟩

/-- Killed threads leave their groups at once (R30). -/
def killLanes (d : Dev) (core wave : Nat) (ls : List Nat) (m : Mach) : Mach :=
  match m.wave core wave with
  | none => m
  | some w =>
    let gs := (ls.filterMap fun l => (w.lane l).group).eraseDups
    let dying := gs.filter fun g => !othersIn m core g wave ls
    let m := ls.foldl (fun m l => dropMember core wave l m) m
    dying.foldl (fun m g => dissolve d core g true m) m

/-! The end of threads and waves (R13, R34, R40, R222, R420) -/

/-- Every store of an ended wave has been performed, on every replica too. -/
def storesDone (m : Mach) (w : Wave) : Bool :=
  (m.storesOf w.core w.id (BitVec.allOnes 64)).isEmpty && !(m.coh.reps.any fun r => r.core == w.core && r.wave == w.id)

/-- Counts at the join counters of their tasks the ended waves whose stores have all been performed (R420). -/
def joinWaves (d : Dev) (m : Mach) : Mach :=
  (m.waves.filter fun w => w.ended && w.owes && storesDone m w).foldl (fun m w =>
    let m := m.updWave w.core w.id fun x => { x with owes := false }
    match w.task.bind m.task with
    | some t => addCounter d t.asid t.jctr 1 m
    | none => m) m

/-- A wave has ended: every thread of it has. Its gang is broken; the join counter of its task counts it, after its
stores have been performed, unless it is a shadow or surrogate wave; it gives up its slot when its partner has ended
too. -/
def endWave (d : Dev) (core wave : Nat) (m : Mach) : Mach :=
  match m.wave core wave with
  | none => m
  | some w =>
    if w.ended || w.lanes.any Lane.live then m
    else
      let m := breakGang core wave m
      let m := match w.task.bind m.task with
        | some t => if t.jctr = 0 || w.shadow || w.guarded then m
          else (drainStores d (fun s => s.core == core && s.wave == wave) m).updWave core wave fun w => { w with owes := true }
        | none => m
      let both := match w.partner with
        | none => true
        | some p => match m.wave core p with
          | some x => x.ended
          | none => true
      let m := m.updWave core wave fun w =>
        { w with ended := true, paths := [], aside := [], resume := [], waits := [], deferred := [], record := none,
                 slot := if both then none else w.slot }
      joinWaves d (if both then m.updWave core (w.partner.getD 256) fun x => { x with slot := none } else m)

/-- Threads end: their lanes are never active again. -/
def endLanes (d : Dev) (core wave : Nat) (ls : List Nat) (m : Mach) : Mach :=
  endWave d core wave (m.updWave core wave fun w => w.updLanes (maskOf ls) fun x =>
    { x with st := .ended, group := none, stack := [] })

/-- Counts the ended waves that have no store in flight, and forgets them where they hold no slot: their `%wave` numbers are
free again. -/
def reapWaves (d : Dev) (m : Mach) : Mach :=
  let m := joinWaves d m
  { m with waves := m.waves.filter fun w => !(w.ended && w.slot.isNone && storesDone m w) }

/-! Forming a group (R281) -/

/-- A clear accumulator of guard width g (R132, R133). -/
def clearAcc (g : Nat) : AccVal :=
  { g := g, form := .none, digits := [], er := List.replicate 64 none, ec := List.replicate 64 none, nr := 0, nc := 0,
    raw := 0 }

/-- Ring entries by their code; none for codes 6 and 7 (R281). -/
def ringEntries : Nat → Option Nat
  | 0 => some 0
  | 1 => some 16
  | 2 => some 32
  | 3 => some 64
  | 4 => some 128
  | 5 => some 256
  | _ => none

/-- Reads a group descriptor: none when it is invalid (R281). -/
def gdescOf (n : Nat) : Option GDesc :=
  match ringEntries (bitsOf n 27 3), ringEntries (bitsOf n 30 3) with
  | some c, some l =>
    let g : GDesc := ⟨bitsOf n 0 5, bitsOf n 5 5, bitsOf n 10 5, bitsOf n 15 7, bitsOf n 22 5, c, l⟩
    if 16 < g.spad || 16 < g.ostore || 16 < g.bars || 64 < g.tiles || 16 < g.acc || g.acc % 2 != 0
        || 32768 * g.spad < 32 * (c + l) || bitsOf n 33 31 != 0 then none
    else some g
  | _, _ => none

/-- The core's pool holds a group's resources (R3, R56). -/
def poolHolds (m : Mach) (core : Nat) (g : GDesc) : Bool :=
  let sum := fun (f : GDesc → Nat) => sumNat ((m.groups.filter fun x => x.core == core).map fun x => f x.alloc)
  decide (sum GDesc.spad + g.spad ≤ 16) && decide (sum GDesc.ostore + g.ostore ≤ 16)
    && decide (sum GDesc.bars + g.bars ≤ 1024) && decide (sum GDesc.tiles + g.tiles ≤ 64)
    && decide (sum GDesc.acc + g.acc ≤ 16)

/-- A free group number of a core (R17). -/
def freeGroup (m : Mach) (core : Nat) : Option Nat :=
  firstFree ((m.groups.filter fun x => x.core == core).map Group.id) 0 511

/-- A group as it forms: barriers at phase 0 with its members, tiles free, accumulators clear with g = 16. -/
def newGroup (core id gen : Nat) (asid : BitVec 16) (alloc : GDesc) (members : List (Nat × Nat)) : Group :=
  { core := core, id := id, asid := asid, task := none, gindex := 0, alloc := alloc, gen := gen, spad := [], ostore := [],
    bars := List.replicate alloc.bars ⟨0, members, [], []⟩, tiles := [],
    accs := List.replicate alloc.acc ⟨clearAcc 16, [], []⟩, seqs := [], latch := [], cmds := [], copyNext := 0, ladlNext := 0,
    residM := 0, nanr := false, guarded := false, conflict := false, overBud := false, killed := false,
    dissolve := none, handler := false, depth := 0, record := none, snapIn := false }

/-! The words (R281 to R287) -/

/-- A step of a `GNEW` on lanes whose old groups can let them go. -/
def formGroup (d : Dev) (io : Io) (alloc : GDesc) (id : Nat) (m : Mach) : Left :=
  let r := leaveLanes d io.w.core io.w.id io.act m
  if r.wait || r.bad then r
  else
    let m := r.m
    let g0 := newGroup io.w.core id m.freeCount io.w.asid alloc (io.act.map fun l => (io.w.id, l))
    let g := { g0 with task := io.w.task, gindex := io.w.gindex, guarded := io.w.guarded,
                       handler := io.w.record.isSome, depth := io.w.depth, record := io.w.record }
    let m := { m with groups := m.groups ++ [g], freeCount := m.freeCount + 1 }
    let m := match io.w.task with
      | some t => m.updTask t fun t => { t with live := t.live + 1 }
      | none => m
    ⟨m.updWave io.w.core io.w.id fun w => w.updLanes (maskOf io.act) fun x =>
      { x with group := some id, arrived := List.replicate 16 none }, false, false, r.moved⟩

/-- `GNEW` (R281). -/
def execGnew (g : Guard) (d a : Opnd) (s : State) : Host.Outcome State Fault Refusal :=
  runWord (shortInfo (.gnew g d a) g [(a, 64)] [(d, 32)] [])
    (fun dv m io =>
      if io.act.isEmpty then Eff.ok m []
      else match gdescOf (readUni dv m io 64 a) with
        | none => illegalWord m (.gnew g d a)
        | some alloc =>
          let kept := keepGroups io.w.core io.w.id io.act m
          let none_ := Eff.ok kept (laneOuts 32 d (io.act.map fun l => (l, 0x1FF)))
          match freeGroup m io.w.core with
          | none => none_
          | some id =>
            if !poolHolds m io.w.core alloc then none_
            else
              let r := formGroup dv io alloc id m
              if r.wait then Eff.wait r.m
              else if r.bad then Eff.fault kept 0x62 0
              else Eff.ok (clearGang io.w.core io.w.id r.m) (laneOuts 32 d (io.act.map fun l => (l, id)))) s

/-- `JOIN` (R282, R284, R285). -/
def execJoin (g : Guard) (a : Opnd) (s : State) : Host.Outcome State Fault Refusal :=
  runWord (shortInfo (.join g a) g [(a, 32)] [] [])
    (fun d m io =>
      if io.act.isEmpty then Eff.ok m []
      else
        let n := readUni d m io 32 a
        let goal := io.act.filter fun l => (io.w.lane l).group != some n
        if 511 ≤ n then Eff.fault m 0x02 (BitVec.ofNat 64 n)
        else match m.group io.w.core n with
          | none => Eff.fault m 0x02 (BitVec.ofNat 64 n)
          | some x =>
            if goal.isEmpty then Eff.ok m []
            else if x.dissolve.isSome then Eff.wait m
            else
              let r := leaveLanes d io.w.core io.w.id goal m
              if r.wait then Eff.wait r.m
              else
                let m := r.m.updWave io.w.core io.w.id fun w => w.updLanes (maskOf goal) fun y =>
                  if y.group.isSome then y else { y with group := some n, arrived := List.replicate 16 none }
                let m := if r.moved || goal.any fun l => (io.w.lane l).group.isNone then clearGang io.w.core io.w.id m else m
                if r.bad then Eff.fault m 0x62 0 else Eff.ok m []) s

/-- `LEAVE` (R30, R283). -/
def execLeave (g : Guard) (s : State) : Host.Outcome State Fault Refusal :=
  runWord (shortInfo (.leave g) g [] [] [])
    (fun d m io =>
      let from_ := io.act.filter fun l => (io.w.lane l).group.isSome
      if from_.isEmpty then Eff.ok m []
      else
        let r := leaveLanes d io.w.core io.w.id from_ m
        if r.wait then Eff.wait r.m
        else
          let m := if r.moved then clearGang io.w.core io.w.id r.m else r.m
          if r.bad then Eff.fault m 0x62 0 else Eff.ok m []) s

/-- The lanes of a barrier word that fault: 0x02 without a group, 0x54 above the allotment (R280). -/
def barFaults (m : Mach) (io : Io) (b : Nat) : List (Nat × Flt) :=
  io.act.filterMap fun l => match m.laneGroup io.w l with
    | none => some (l, ⟨0x02, 0⟩)
    | some g => if g.alloc.bars ≤ b then some (l, ⟨0x54, 0⟩) else none

/-- The phase of a lane's last arrival at a barrier, while it is not complete (R286). -/
def openArrival (m : Mach) (w : Wave) (b l : Nat) : Option Nat :=
  match m.laneGroup w l, (w.lane l).arrived.getD b none with
  | some g, some p => if ((g.bars[b]?).map Barrier.phase).getD 0 ≤ p then some p else none
  | _, _ => none

/-- Lanes arrive at a barrier, in ascending order. -/
def arriveLanes (io : Io) (b : Nat) (ls : List Nat) (m : Mach) : Mach :=
  ls.foldl (fun m l => match m.laneGroup io.w l with
    | none => m
    | some g => match g.bars[b]? with
      | none => m
      | some x =>
        let r := x.arrive (io.w.id, l)
        let m := m.updGroup g.core g.id fun y => { y with bars := y.bars.set b r.1 }
        let m := m.updWave io.w.core io.w.id fun w => w.updLane l fun y => { y with arrived := y.arrived.set b (some r.2) }
        settleBars g.core g.id m) m

/-- The lanes of a path that still wait at a barrier, with the phases they wait for. -/
def barWaiters (m : Mach) (core wave b : Nat) (ls : List Nat) : List (Nat × Nat) :=
  match m.wave core wave with
  | none => []
  | some w => ls.filterMap fun l => (openArrival m w b l).map fun p => (l, p)

/-- A word that arrives at a barrier (R31, R286). -/
def arriveWord (i : Instr) (g : Guard) (b : Fin 16) (wait : Bool) (s : State) : Host.Outcome State Fault Refusal :=
  runWord (shortInfo i g [] [] [])
    (fun _ m io =>
      let flts := barFaults m io b.val
      let ls := io.act.filter fun l => !(flts.any fun f => f.1 == l)
      if ls.any fun l => (openArrival m io.w b.val l).isSome then Eff.wait m
      else
        let m := arriveLanes io b.val ls m
        let ws := barWaiters m io.w.core io.w.id b.val ls
        { Eff.ok m [] with flts := flts, fin := if wait && !io.act.isEmpty then some (.barrier b.val ws) else none }) s

/-- `BAR` (R31, R286). -/
def execBar (g : Guard) (b : Fin 16) (s : State) : Host.Outcome State Fault Refusal :=
  arriveWord (.bar g b) g b true s

/-- `BARA` (R31, R286). -/
def execBara (g : Guard) (b : Fin 16) (s : State) : Host.Outcome State Fault Refusal :=
  arriveWord (.bara g b) g b false s

/-- `BARW` (R31, R286). -/
def execBarw (g : Guard) (b : Fin 16) (s : State) : Host.Outcome State Fault Refusal :=
  runWord (shortInfo (.barw g b) g [] [] [])
    (fun _ m io =>
      let flts := barFaults m io b.val
      let ls := io.act.filter fun l => !(flts.any fun f => f.1 == l)
      { Eff.ok m [] with
        flts := flts
        fin := if io.act.isEmpty then none else some (.barrier b.val (barWaiters m io.w.core io.w.id b.val ls)) }) s

/-- Products that threads of a mask of a wave have issued and that have not drained (R20, R325): steps of theirs, and
sequences that they started with their gang. -/
def productsOpen (m : Mach) (w : Wave) (mask : BitVec 64) : Bool :=
  m.groups.any fun g => g.core == w.core &&
    (g.accs.any (fun a => a.pend.any fun k => k.wave == w.id && (k.mask &&& mask) != 0)
      || g.seqs.any fun q => q.active && q.masks.any fun x => x.1 == w.id && (x.2 &&& mask) != 0)

/-- The gang list of a valid `GANG` operand, by the checks of R287; none when one fails. -/
def gangList (m : Mach) (w : Wave) (x : BitVec 64) : Option (BitVec 64) :=
  let n := x.toNat
  let cnt := bitsOf n 48 3
  let ms := (List.range cnt).map fun i => bitsOf n (8 * i) 8
  let rest := (List.range 6).filter fun i => cnt ≤ i
  let mine := ((lanesOf w.width w.alive).map fun l => (w.lane l).group).eraseDups
  let rising := (List.range (cnt - 1)).all fun i => decide (ms.getD i 0 < ms.getD (i + 1) 0)
  if bitsOf n 51 13 != 0 || rest.any fun i => bitsOf n (8 * i) 8 != 0 then none
  else if cnt = 0 then some 0
  else match mine with
    | [some g] =>
      let ok := fun (id : Nat) => match m.wave w.core id with
        | some v => !v.ended && (lanesOf v.width v.alive).all fun l => (v.lane l).group == some g
        | none => false
      if 2 ≤ cnt && cnt ≤ 6 && rising && ms.contains w.id && ms.all ok then
        some (BitVec.ofNat 64 (bitsOf n 0 51 + 2 ^ 51 * ms.idxOf w.id))
      else none
    | _ => none

/-- `GANG` (R32, R287). -/
def execGang (g : Guard) (a : Opnd) (s : State) : Host.Outcome State Fault Refusal :=
  groupWord (shortInfo (.gang g a) g [(a, 64)] [] [])
    (fun d m io _ =>
      if productsOpen m io.w (BitVec.allOnes 64) then Eff.wait m
      else match gangList m io.w (BitVec.ofNat 64 (readUni d m io 64 a)) with
        | none => Eff.fault m 0x53 0
        | some x => Eff.ok (m.updWave io.w.core io.w.id fun w => { w with gang := x, gangDead := false }) []) s

end Sys2Proof.Machine
end

