-- ==== Sys2Proof/Machine/Trailers.lean ====
section
/-! DEFINITION. Instruction fetch, the seven trailers, and the draining of their await masks (R18 to R23, R176, R177, R218 to
R223, R358, R359). -/

namespace Sys2Proof.Machine

/-! Fetch (R55, R116, R358, R359) -/

/-- The eight words of the 64-byte line that holds an address. -/
def lineOf (va : BitVec 64) : List (BitVec 64) := (List.range 8).map fun i => (va &&& ~~~63) + BitVec.ofNat 64 (8 * i)

/-- Fetches the instruction word at an address for a wave: from the line it fetched last, from its core's instruction
cache, or from memory, which fills both. -/
def fetchWord (d : Dev) (core wave : Nat) (va : BitVec 64) (m : Mach) : Except Flt (BitVec 64) × Mach :=
  match m.wave core wave with
  | none => (.error ⟨0x01, va⟩, m)
  | some w =>
    match w.fetched.find? fun x => x.1 == va with
    | some x => (.ok x.2, m)
    | none =>
      match translate d m (coreDie core) w.asid va .x false with
      | .error e => (.error ⟨e, va⟩, m)
      | .ok x =>
        match x.err with
        | some e => (.error ⟨e, va⟩, m)
        | none =>
          let cached : Mach → BitVec 64 → Option IWord := fun m a =>
            m.coh.icache.find? fun (y : IWord) => y.core == core && y.asid == w.asid && y.va == a
          match cached m va with
          | some y =>
            (.ok y.word, m.updWave core wave fun w =>
              { w with fetched := (lineOf va).filterMap fun a => (cached m a).map fun y => (a, y.word) })
          | none =>
            match m.lostIn x.pa 8 with
            | some _ => (.error ⟨0x40, va⟩, m)
            | none =>
              let base := x.pa - va.toNat % 64
              let words : List IWord := (List.range 8).map fun i =>
                (⟨core, w.asid, (va &&& ~~~63) + BitVec.ofNat 64 (8 * i), base + 8 * i,
                  BitVec.ofNat 64 (ofBytes (m.homeBytes (base + 8 * i) 8))⟩ : IWord)
              let m := { m with coh := { m.coh with icache := words ++ m.coh.icache.filter fun (y : IWord) =>
                !(y.core == core && y.asid == w.asid && (lineOf va).contains y.va) } }
              (.ok (BitVec.ofNat 64 (ofBytes (m.homeBytes x.pa 8))),
               m.updWave core wave fun w => { w with fetched := words.map fun y => (y.va, y.word) })

/-! Draining (R20) -/

/-- An outstanding operation that the loads class waits for. -/
def Deferred.isLoad (x : Deferred) : Bool := x.items.any fun i => match i.kind with
  | .kstep _ _ _ | .entry _ _ | .nothing => false
  | _ => true

/-- An outstanding operation that the products class waits for. -/
def Deferred.isStep (x : Deferred) : Bool := x.items.any fun i => match i.kind with
  | .kstep _ _ _ => true
  | _ => false

/-- Stores and atomics without return of the lanes of a path that are not performed and acknowledged (R20). -/
def pathStoresOpen (m : Mach) (w : Wave) (mask : BitVec 64) : Bool :=
  !(m.storesOf w.core w.id mask).isEmpty || m.acksOpen w.core w.id mask
    || m.coh.reps.any fun r => r.core == w.core && r.wave == w.id && mask.getLsbD r.lane

/-- An outstanding operation that the spawns class waits for. -/
def Deferred.isEntry (x : Deferred) : Bool := x.items.any fun i => match i.kind with
  | .entry _ _ => true
  | _ => false

/-- The classes of an await mask have drained for the lanes of a path: a product step that has met a fault is complete, and its
fault is raised at the successor (R263, R367). -/
def drained (m : Mach) (w : Wave) (mask : BitVec 64) (cls : BitVec 5) : Bool :=
  let open_ := fun (f : Deferred → Bool) => w.deferred.any fun x => (x.mask &&& mask) != 0 && f x
  !(cls.getLsbD 0 && open_ Deferred.isLoad)
    && !(cls.getLsbD 1 && productsOpen m w mask)
    && !(cls.getLsbD 3 && open_ Deferred.isEntry)
    && !(cls.getLsbD 4 && pathStoresOpen m w mask)

/-! The trailer's effect -/

/-- A trailer's reading: the machine with registers and call stacks changed, each lane's successor, or the lanes that
fault. -/
structure Succ where
  m    : Mach
  goal   : List (Nat × BitVec 64)
  flt  : Option (Flt × List Nat)
  deriving DecidableEq, Repr

/-- Takes a path out of its wave's issuing paths. -/
def dropPath (core wave : Nat) (mask : BitVec 64) (m : Mach) : Mach :=
  m.updWave core wave fun w => { w with paths := w.paths.filter fun p => p.mask != mask }

/-- The threads of a path go to their successors: echo registers zero, the classes drained first (R20, R22, R218). -/
def sendLanes (core wave : Nat) (mask : BitVec 64) (cls : BitVec 5) (goal : List (Nat × BitVec 64)) (m : Mach) : Mach :=
  match m.wave core wave with
  | none => m
  | some w =>
    let st : ThState := if drained m w mask cls then .run else .drain cls mask
    m.updWave core wave fun w => goal.foldl (fun w x => w.updLane x.1 fun y =>
      { y with pc := x.2, target := true, st := st, e := List.replicate 4 0 }) w

/-- The single-step trap after a trailer: PCF is the successor of its lowest lane; after an `EXIT`, which has none, while other
threads of the wave live, PCF is 0 and no lane stands there, which is the model's choice (R51, log 20). -/
def trailerTrap (d : Dev) (core wave : Nat) (step : Bool) (mask : BitVec 64) (goal : List (Nat × BitVec 64)) (m : Mach) :
    Mach :=
  match m.wave core wave with
  | none => m
  | some w =>
    if !step || w.ended then m
    else
      let pc := ((goal.head?).map Prod.snd).getD 0
      let at_ := maskOf ((goal.filter fun x => x.2 == pc).map Prod.fst)
      let tab := match m.ctx w.asid with
        | some c => c.faulttab
        | none => 0
      if (faultEntry d m w.asid tab 0x70).queue = 0 then m.updWave core wave fun w => { w with step := w.step &&& ~~~1 }
      else parkWave d m w at_ mask pc 0 mask ⟨0x70, 0⟩ none

/-- Parks the wave of a path that stands at its trailer; a path that waited goes back to those that resume. -/
def parkTrailer (d : Dev) (m : Mach) (w : Wave) (p : Path) (lanes : BitVec 64) (f : Flt) : Mach :=
  let m := m.updWave w.core w.id fun w =>
    if w.waits.any fun x => x.path.mask == p.mask then
      { w with waits := w.waits.filter (fun x => x.path.mask != p.mask), resume := w.resume ++ [{ p with fin := none }] }
    else w
  match m.wave w.core w.id with
  | none => m
  | some w => parkWave d m w p.mask p.mask p.pc p.seg lanes f none

/-- Ends the threads of a path at its `EXIT`: drained, they leave their groups and end; a group left with live tiles or
commands raises 0x62, and then nothing of it has happened; unsettled commands keep the path waiting (R19, R30, R218, R222,
R285). A step trap then finds no successor (log 20). -/
def finishExit (d : Dev) (core wave : Nat) (p : Path) (cls : BitVec 5) (m : Mach) : Mach :=
  match m.wave core wave with
  | none => m
  | some w =>
    let keep := fun (m : Mach) =>
      (dropPath core wave p.mask m).updWave core wave fun w =>
        { w with waits := w.waits.filter (fun x => x.path.mask != p.mask) ++ [⟨{ p with fin := none }, .exit cls⟩] }
    if !drained m w p.mask cls then keep m
    else
      let ls := lanesOf w.width p.mask
      let r := leaveLanes d core wave ls m
      if r.wait then keep r.m
      else if r.bad then parkTrailer d (keepGroups core wave ls m) w p p.mask ⟨0x62, 0⟩
      else
        let m := if r.moved then clearGang core wave r.m else r.m
        let m := (dropPath core wave p.mask m).updWave core wave fun w =>
          { w with waits := w.waits.filter (fun x => x.path.mask != p.mask), ckCount := min 33 (w.ckCount + 1) }
        trailerTrap d core wave (w.step.getLsbD 0) p.mask [] (endLanes d core wave ls m)

/-- A wait with its times as values of `%clock`. -/
def WaitFor.begin (now : Nat) : WaitFor → WaitFor
  | .waitw d size p reads homes unit u wake => .waitw d size p reads homes unit (u.map (now + ·)) wake
  | .poll n => .poll (now + n)
  | .nap n => .nap (now + n)
  | .grow d n ls u order => .grow d n ls (u.map (now + ·)) order
  | x => x

/-- A path that meets its trailer waits first, as its segment-final instruction says (R23): the machine, and the lanes
whose trailer issues now. -/
def finalWait (m : Mach) (w : Wave) (p : Path) : Mach × Path :=
  let move := fun (what : WaitFor) (stay go : BitVec 64) =>
    (m.updWave w.core w.id fun w =>
      { w with
        paths := (w.paths.filter fun q => q.mask != p.mask) ++ (if go = 0 then [] else [{ p.part go with fin := none }])
        waits := w.waits ++ [⟨p.part stay, what⟩] }, { p.part go with fin := none })
  match p.fin with
  | none => (m, p)
  | some .done =>
    (m.updPath w.core w.id p.mask fun q => { q with fin := none }, { p with fin := none })
  | some .yield =>
    ({ m with turnNo := m.turnNo + 1 }.updWave w.core w.id fun w =>
      { w with turn := m.turnNo + 1, paths := updWhere (fun q => q.mask == p.mask) (fun q => { q with fin := none }) w.paths },
     { p with fin := none })
  | some (.barrier b ls) =>
    let rest := barWaiters m w.core w.id b (ls.map Prod.fst)
    if rest.isEmpty then
      (m.updPath w.core w.id p.mask fun q => { q with fin := none }, { p with fin := none })
    else
      let stay := maskOf (rest.map Prod.fst)
      move (.barrier b rest) stay (p.mask &&& ~~~stay)
  | some what => move (what.begin m.clock.toNat) p.mask 0

/-- The trailer's successor rule runs for a path with no window open. -/
def runTrailer (d : Dev) (i : Instr) (aw : BitVec 5) (srcs : List (Opnd × Nat)) (preds : List Nat)
    (body : Mach → Wave → Path → Succ) (m : Mach) (w : Wave) (p : Path) : Mach :=
  let ls := lanesOf w.width p.mask
  let above := ls.filter fun l => srcs.any (unallotted w l) || preds.any (unallottedP w l)
  if !above.isEmpty then parkAt d m w p (maskOf above) ⟨0x54, 0⟩
  else
    let m := closePath m w p
    match m.wave w.core w.id with
    | none => m
    | some w =>
      let p := { p with windows := [] }
      match i with
      | .exit _ => finishExit d w.core w.id p (aw ||| 0b01111) m
      | _ =>
        let r := body m w p
        match r.flt with
        | some (f, bad) => parkAt d r.m w p (maskOf bad) f
        | none =>
          trailerTrap d w.core w.id (w.step.getLsbD 0) p.mask r.goal
            ((sendLanes w.core w.id p.mask aw r.goal (dropPath w.core w.id p.mask r.m)).updWave w.core w.id fun w =>
              { w with ckCount := min 33 (w.ckCount + 1) })

/-- What a trailer says of its issue: it must raise the faults of outstanding operations in the classes that it awaits, and
`EXIT` those in every class (R20, R263). -/
def trailerInfo (i : Instr) (aw : BitVec 5) (srcs : List (Opnd × Nat)) (preds : List Nat) (w : Wave) (p : Path) : WordInfo :=
  let ends := match i with
    | .exit _ => true
    | _ => false
  { shortInfo i ⟨7, false⟩ srcs [] preds with
    rel := ends || (aw.getLsbD 0 && w.deferred.any fun x => (x.mask &&& p.mask) != 0 && x.isLoad)
      || (aw.getLsbD 1 && w.deferred.any fun x => (x.mask &&& p.mask) != 0 && x.isStep)
      || aw.getLsbD 3 && w.deferred.any fun x => (x.mask &&& p.mask) != 0 && x.isEntry }

/-- A trailer waits for the retried operation that its predicate or register stands in (R21, R218). -/
def trailerWaits (io : Io) (info : WordInfo) : Bool := io.retryWait { info with rel := false }

/-- Issues a trailer on the path that `cur` selects; for a set-aside one it is tried (R18, R23, R24, R218, R263). -/
def issueTrailer (d : Dev) (i : Instr) (aw : BitVec 5) (srcs : List (Opnd × Nat)) (preds : List Nat)
    (body : Dev → Mach → Wave → Path → Succ) (m : Mach) : Mach :=
  match m.curPath with
  | none => m
  | some (w0, p0) =>
    if m.probing then
      (if trailerWaits ⟨w0, p0, lanesOf w0.width p0.mask⟩ (trailerInfo i aw srcs preds w0 p0) then m else rejoinPath m w0 p0)
    else
    let m := settlePath m w0 p0
    match m.curPath with
    | none => m
    | some (w, p) =>
      let info := trailerInfo i aw srcs preds w p
      let io : Io := ⟨w, p, lanesOf w.width p.mask⟩
      match io.deferred info with
      | some x => parkAt d (raiseDeferred m w x) w p x.lanes x.flt
      | none =>
        if trailerWaits io info then stallPath m io none
        else if p.seg = 0 && p.target then parkAt d m w p p.mask ⟨0x50, BitVec.ofNat 64 ((instrWord i).getD 0)⟩
        else
          let r := finalWait m w p
          if r.2.mask = 0 then r.1
          else match r.1.wave w.core w.id with
            | none => r.1
            | some w => runTrailer d i aw srcs preds (body d) r.1 w r.2

/-- A target by a trailer's word offset (R176). -/
def targetOf (t : BitVec 64) (off : BitVec 19) : BitVec 64 := t + 8 * off.signExtend 64

/-- The outcome of a trailer. -/
def trailerOut (i : Instr) (aw : BitVec 5) (srcs : List (Opnd × Nat)) (preds : List Nat)
    (body : Dev → Mach → Wave → Path → Succ) (s : State) : Host.Outcome State Fault Refusal :=
  .next (s.withMach fun d m => issueTrailer d i aw srcs preds body m)

/-- Successors by a function of the lane. -/
def Succ.each (m : Mach) (w : Wave) (p : Path) (f : Nat → BitVec 64) : Succ :=
  ⟨m, (lanesOf w.width p.mask).map fun l => (l, f l), none⟩

/-- `NEXT` (R19). -/
def execNext (aw : BitVec 5) (s : State) : Host.Outcome State Fault Refusal :=
  trailerOut (.next aw) aw [] [] (fun _ m w p => Succ.each m w p fun _ => p.pc + 8) s

/-- `BRP` (R219). -/
def execBrp (aw : BitVec 5) (q : Fin 8) (sense : Bool) (offa offb : BitVec 19) (s : State) :
    Host.Outcome State Fault Refusal :=
  trailerOut (.brp aw q sense offa offb) aw [] [q.val] (fun _ m w p =>
    Succ.each m w p fun l => if (w.lane l).pred q.val != sense then targetOf p.pc offa else targetOf p.pc offb) s

/-- Reads a jump table's entry through instruction fetch (R220). -/
def tableEntry (d : Dev) (m : Mach) (w : Wave) (tab : BitVec 64) (i : Nat) : Except Flt Int × Mach :=
  let a := tab + BitVec.ofNat 64 (4 * i)
  match fetchWord d w.core w.id (a &&& ~~~7) m with
  | (.error f, m) => (.error ⟨f.code, a⟩, m)
  | (.ok x, m) => (.ok (signedOf 32 (if i % 2 = 0 then bitsOf x.toNat 0 32 else bitsOf x.toNat 32 32)), m)

/-- `JIDX` (R220). -/
def execJidx (aw : BitVec 5) (x : Opnd) (offa : BitVec 19) (len1 : BitVec 12) (s : State) :
    Host.Outcome State Fault Refusal :=
  trailerOut (.jidx aw x offa len1) aw [(x, 32)] [] (fun d m w p =>
    let tab := targetOf p.pc offa
    let r := (lanesOf w.width p.mask).foldl (fun (r : Succ × List Nat) l =>
      let i := readOp d m w l 32 x
      if len1.toNat < i then ({ r.1 with goal := r.1.goal ++ [(l, p.pc + 8)] }, r.2)
      else match tableEntry d r.1.m w tab i with
        | (.error f, m) =>
          ({ r.1 with m := m, flt := some (((r.1.flt).map Prod.fst).getD f, r.2 ++ [l]) }, r.2 ++ [l])
        | (.ok e, m) => ({ r.1 with m := m, goal := r.1.goal ++ [(l, addr64 (tab.toNat + 8 * e))] }, r.2))
      (⟨m, [], none⟩, [])
    r.1) s

/-- `CALL` (R221). -/
def execCall (aw : BitVec 5) (offa : BitVec 19) (s : State) : Host.Outcome State Fault Refusal :=
  trailerOut (.call aw offa) aw [] [] (fun _ m w p =>
    let ls := lanesOf w.width p.mask
    let full := ls.filter fun l => decide (32 ≤ (w.lane l).stack.length)
    if !full.isEmpty then ⟨m, [], some (⟨0x02, targetOf p.pc offa⟩, full)⟩
    else Succ.each (m.updWave w.core w.id fun w => w.updLanes p.mask fun y => { y with stack := (p.pc + 8) :: y.stack })
      w p fun _ => targetOf p.pc offa) s

/-- `RET` (R221). -/
def execRet (aw : BitVec 5) (s : State) : Host.Outcome State Fault Refusal :=
  trailerOut (.ret aw) aw [] [] (fun _ m w p =>
    let ls := lanesOf w.width p.mask
    let none_ := ls.filter fun l => (w.lane l).stack.isEmpty
    if !none_.isEmpty then ⟨m, [], some (⟨0x02, 0⟩, none_)⟩
    else Succ.each (m.updWave w.core w.id fun w => w.updLanes p.mask fun y => { y with stack := y.stack.tail })
      w p fun l => (w.lane l).stack.headD 0) s

/-- `EXIT` (R222). -/
def execExit (aw : BitVec 5) (s : State) : Host.Outcome State Fault Refusal :=
  trailerOut (.exit aw) aw [] [] (fun _ m w p => Succ.each m w p fun _ => 0) s

/-- `LOOPN` (R223). -/
def execLoopn (aw : BitVec 5) (x : Opnd) (offa : BitVec 19) (s : State) : Host.Outcome State Fault Refusal :=
  trailerOut (.loopn aw x offa) aw [(x, 32)] [] (fun d m w p =>
    let ls := lanesOf w.width p.mask
    let dec := fun (l : Nat) => wrapTo 32 ((readOp d m w l 32 x : Int) - 1)
    let outs := match x with
      | .s n =>
        let old := (w.s.getD n.val 0).toNat
        [(⟨ls.headD 0, .s n.val, BitVec.ofNat 64 (old - old % 2 ^ 32 + dec (ls.headD 0))⟩ : RegWrite)]
      | o => laneOuts 32 o (ls.map fun l => (l, dec l))
    Succ.each (m.updWave w.core w.id fun w => w.puts outs) w p fun l =>
      if dec l != 0 then targetOf p.pc offa else p.pc + 8) s

/-! Events of the drain (R20, R30, R222) -/

/-- Threads of a wave whose classes have drained begin their successors, and its exiting paths end once theirs have. -/
def drainWave (d : Dev) (core wave : Nat) (m : Mach) : Mach :=
  match m.wave core wave with
  | none => m
  | some w =>
    if w.parked.isSome || w.evicted then m
    else
      let m := m.updWave core wave fun w => { w with lanes := w.lanes.map fun x => match x.st with
        | .drain cls mask => if drained m w mask cls then { x with st := .run } else x
        | _ => x }
      w.waits.foldl (fun m x => match x.what with
        | .exit cls => finishExit d core wave x.path cls m
        | _ => m) m

/-- The event AWAIT_DRAINED. -/
def execAwaitDrained (core wave : Nat) (s : State) : Host.Outcome State Fault Refusal :=
  .next (s.withMach fun d m => reapWaves d (drainWave d core wave m))

/-- The event GROUP_DISSOLVE (R30): a last member that waited at its `EXIT` for the group's commands dissolves the group or
raises 0x62. A last member that waits at a word dissolves it as the word issues again. -/
def execGroupDissolve (core group : Nat) (s : State) : Host.Outcome State Fault Refusal :=
  .next (s.withMach fun d m =>
    match m.group core group with
    | none => m
    | some g => match g.dissolve with
      | none => m
      | some (wave, _) => drainWave d core wave m)

end Sys2Proof.Machine
end

