-- ==== Sys2Proof/Machine/Sync.lean ====
section
/-! DEFINITION. Waiting on memory and on time, register requests, and task queues (R36, R41 to R44, R288 to R300). -/

namespace Sys2Proof.Machine

/-! Compares of waits (R288, R289) -/

/-- Words that wait on memory (R174, R288). -/
def waitKind : MemKind := ⟨loadOrders, none, [.glb, .spad]⟩

/-- Width of the address operand of a word in the space in force. -/
def waitAddrBits (pre : Option Prefix) (m : Mach) : Nat :=
  match m.curPath with
  | some (w, _) => if (forcePrefix waitKind pre w).space == .glb then 64 else 32
  | none => 64

/-- Where a lane's watched word lies: its physical address, or its offset in the group's scratchpad. -/
def watchPlace (d : Dev) (m : Mach) (w : Wave) (l : Nat) (sp : Space) (addr : Int) (n : Nat) : Nat :=
  match checkAcc d m w l sp addr n .r true with
  | .ok (.mem (p :: _)) => p.1.pa
  | .ok (.local _ _ _ off) => off
  | _ => 0

/-- The word compared of a lane. -/
def compared (bytes : List Byte) : Int := (ofBytes bytes : Int)

/-- `WAITW` (R42, R288): the compare, and the wait when every word read equals its value. -/
def execWaitw (g : Guard) (pre : Option Prefix) (ty : Ty) (d : Fin 8) (a b c : Opnd) (s : State) :
    Host.Outcome State Fault Refusal :=
  let bits := waitAddrBits pre s.mach
  let info := memInfo (.waitw g pre ty d a b c) g none waitKind pre [(a, bits), (b, ty.bits), (c, 64)] [(.p d, 1)] s.mach
  memWord waitKind pre { info with bad := info.bad || !a.aligned bits }
    (fun dv m io p =>
      if io.act.isEmpty then Eff.ok m []
      else
        let n := ty.bits / 8
        let addr := fun l => laneAddr dv m io.w l p.space a 0
        let val := fun l => readOp dv m io.w l ty.bits b
        let r := gatherLoads dv io.w p.space n true addr io.act m
        if r.wait then Eff.wait r.m
        else
          let limit := readUni dv m io 64 c
          let outs := predOuts d.val (r.vals.map fun x => (x.1, ofBytes x.2 != val x.1))
          let same := r.vals.all fun x => ofBytes x.2 == val x.1
          let e := { Eff.ok r.m outs with
            flts := r.flts, defer := deferItems r.dfl fun l => .cmp d .ne n (BitVec.ofNat 64 (val l)) }
          if !same || !r.dfl.isEmpty || limit = 0 || r.vals.isEmpty then e
          else
            let reads := r.vals.map fun x => (x.1, addr64 (addr x.1), BitVec.ofNat 64 (val x.1))
            { e with fin := some (.waitw d n p reads
                (r.vals.map fun x => watchPlace dv m io.w x.1 p.space (addr x.1) n) info.len
                (if limit = 2 ^ 64 - 1 then none else some limit) .quiet) }) s

/-- Takes a path out of the waits of its wave: its threads are runnable again at its trailer. -/
def endWait (core wave : Nat) (x : Waiting) (m : Mach) : Mach :=
  m.updWave core wave fun w =>
    { w with waits := w.waits.filter fun y => y.path.mask != x.path.mask
             resume := w.resume ++ [{ x.path with fin := none }] }

/-- A wait of a wave that its record or its end does not hold back. -/
def waitAt (core wave k : Nat) (m : Mach) : Option (Wave × Waiting) :=
  match m.wave core wave with
  | none => none
  | some w => if w.parked.isSome || w.ended then none else (w.waits[k]?).map fun x => (w, x)

/-- The lanes that meet a precise fault at the wake stand at the `WAITW` word, and the wave parks there (R288). -/
def parkAtWait (d : Dev) (core wave : Nat) (x : Waiting) (unit : Nat) (flts : List (Nat × Flt)) (m : Mach) : Mach :=
  let bad := maskOf (flts.map Prod.fst)
  let good := x.path.mask &&& ~~~bad
  let pc := x.path.pc - BitVec.ofNat 64 (8 * unit)
  let seg := x.path.seg - unit
  let m := m.updWave core wave fun w =>
    { w with
      waits := w.waits.filter fun y => y.path.mask != x.path.mask
      resume := w.resume ++ [{ x.path.part bad with fin := none, pc := pc, seg := seg }]
        ++ (if good = 0 then [] else [{ x.path.part good with fin := none }]) }
  match m.wave core wave, flts with
  | some w, (_, f) :: _ => parkWave d m w bad x.path.mask pc seg bad f none
  | _, _ => m

/-- A wait on memory that goes on after the compare that a restore reissued (R291): it watches the words where they lie
now. -/
def WaitFor.watchOn (homes : List Nat) : WaitFor → WaitFor
  | .waitw d size p reads _ unit u _ => .waitw d size p reads homes unit u .quiet
  | x => x

/-- The time of a wait has passed. -/
def WaitFor.expired (now : Nat) : WaitFor → Bool
  | .waitw _ _ _ _ _ _ u _ | .grow _ _ _ u _ => match u with
    | some t => decide (t ≤ now)
    | none => false
  | .poll t | .nap t => decide (t ≤ now)
  | _ => false

/-- The second read of a `WAITW` at its wake, with the order of the first (R42, R288). The compare that a restore reissues
waits on where every word still equals its value (R291). -/
def wakeWaitw (d : Dev) (core wave k : Nat) (m : Mach) : Mach :=
  match waitAt core wave k m with
  | none => m
  | some (w, x) =>
    match x.what with
    | .waitw p size pre reads _ unit _ wake =>
      let pc := x.path.pc - BitVec.ofNat 64 (8 * unit)
      let ls := reads.map Prod.fst
      match orderBefore d m ⟨w, { x.path with pc := pc }, ls⟩ pre with
      | (m, true) => m
      | (m, false) =>
      let addr := fun (l : Nat) => match reads.find? fun r => r.1 == l with
        | some r => (r.2.1.toNat : Int)
        | none => 0
      let val := fun (l : Nat) => match reads.find? fun r => r.1 == l with
        | some r => r.2.2
        | none => 0
      let r := gatherLoads d w pre.space size true addr ls m
      if r.wait then m
      else if wake == .restored && !x.what.expired m.clock.toNat && r.flts.isEmpty && r.dfl.isEmpty
          && r.vals.all fun y => ofBytes y.2 == (val y.1).toNat then
        let homes := ls.map fun l => watchPlace d r.m w l pre.space (addr l) size
        r.m.updWave core wave fun w =>
          { w with waits := w.waits.map fun y =>
              if y.path.mask == x.path.mask then { y with what := y.what.watchOn homes } else y }
      else
        let outs := predOuts p.val (r.vals.map fun y => (y.1, ofBytes y.2 != (val y.1).toNat))
        let late := match deferItems r.dfl fun l => .cmp p .ne size (val l) with
          | none => []
          | some (f, items) =>
            [(⟨maskOf (items.map DefItem.lane), f, pc, items, 0, false, false, false, w.issueNo⟩ : Deferred)]
        let m := r.m.updWave core wave fun w => { (w.puts outs) with deferred := w.deferred ++ late }
        if r.flts.isEmpty then endWait core wave x m else parkAtWait d core wave x unit r.flts m
    | _ => m

/-- The event WAITW_WAKE (R42): a write to a watched word, or a wake without one. -/
def execWaitwWake (core wave k : Nat) (s : State) : Host.Outcome State Fault Refusal :=
  .next (s.withMach fun d m => wakeWaitw d core wave k m)

/-- A wait of the kind that a test selects, its time passed. -/
def expiredAt (core wave k : Nat) (p : WaitFor → Bool) (m : Mach) : Option Waiting :=
  match waitAt core wave k m with
  | some (_, x) => if p x.what && x.what.expired m.clock.toNat then some x else none
  | none => none

/-- The event WAITW_TIMEOUT (R42, R288). -/
def execWaitwTimeout (core wave k : Nat) (s : State) : Host.Outcome State Fault Refusal :=
  .next (s.withMach fun d m => match expiredAt core wave k (fun x => match x with
      | .waitw .. => true
      | _ => false) m with
    | some _ => wakeWaitw d core wave k m
    | none => m)

/-! Polls and naps (R43, R289, R290) -/

/-- The wave after a poll that succeeded: the count returns to 0 and the priority to its value before the run (R43). -/
def Wave.pollWon (w : Wave) : Wave := if w.fails = 0 then w else { w with fails := 0, prio := w.savedPr }

/-- The wave after a poll that failed (R43). -/
def Wave.pollLost (w : Wave) : Wave :=
  { w with fails := min 12 (w.fails + 1), savedPr := if w.fails = 0 then w.prio else w.savedPr,
           prio := if w.prio = 0 then 0 else w.prio - 1 }

/-- `POLLB` (R43, R289). -/
def execPollb (g : Guard) (pre : Option Prefix) (ty : Ty) (cond : Cond) (d : Fin 8) (a b : Opnd) (s : State) :
    Host.Outcome State Fault Refusal :=
  let bits := waitAddrBits pre s.mach
  let info := memInfo (.pollb g pre ty cond d a b) g none waitKind pre [(a, bits), (b, ty.bits)] [(.p d, 1)] s.mach
  memWord waitKind pre { info with bad := info.bad || !a.aligned bits }
    (fun dv m io p =>
      if io.act.isEmpty then Eff.ok m []
      else
        let n := ty.bits / 8
        let val := fun l => readOp dv m io.w l ty.bits b
        let r := gatherLoads dv io.w p.space n true (fun l => laneAddr dv m io.w l p.space a 0) io.act m
        if r.wait then Eff.wait r.m
        else
          let res := r.vals.map fun x => (x.1, condHolds cond (compared x.2) (val x.1))
          let won := res.any Prod.snd
          let e := { Eff.ok r.m (predOuts d.val res) with
            flts := r.flts, defer := deferItems r.dfl fun l => .cmp d cond n (BitVec.ofNat 64 (val l)) }
          if res.isEmpty then e
          else if won then { e with m := r.m.updWave io.w.core io.w.id Wave.pollWon }
          else { e with m := r.m.updWave io.w.core io.w.id Wave.pollLost,
                        fin := some (.poll (2 ^ min 12 (io.w.fails + 1))) }) s

/-- The event POLLB_NAP_END (R43). -/
def execPollbNapEnd (core wave k : Nat) (s : State) : Host.Outcome State Fault Refusal :=
  .next (s.withMach fun _ m => match expiredAt core wave k (fun x => match x with
      | .poll _ => true
      | _ => false) m with
    | some x => endWait core wave x m
    | none => m)

/-- `YIELD` (R290). -/
def execYield (g : Guard) (s : State) : Host.Outcome State Fault Refusal :=
  runWord (shortInfo (.yield g) g [] [] [])
    (fun _ m io => if io.act.isEmpty then Eff.ok m [] else { Eff.ok m [] with fin := some .yield }) s

/-- `NAP` (R290). -/
def execNap (g : Guard) (a : Opnd) (s : State) : Host.Outcome State Fault Refusal :=
  runWord (shortInfo (.nap g a) g [(a, 32)] [] [])
    (fun d m io =>
      if io.act.isEmpty then Eff.ok m []
      else
        let n := readUni d m io 32 a
        { Eff.ok m [] with fin := some (if n = 0 then .yield else .nap n) }) s

/-- The event NAP_END (R290). -/
def execNapEnd (core wave k : Nat) (s : State) : Host.Outcome State Fault Refusal :=
  .next (s.withMach fun _ m => match expiredAt core wave k (fun x => match x with
      | .nap _ => true
      | _ => false) m with
    | some x => endWait core wave x m
    | none => m)

/-! Register requests (R36, R292, R293) -/

/-- The v registers that the stockpot lends to a wave in one of its slots, 126 and 127: those of its launch; what `GROW`
grants beyond them is the core pool's (R36, R159). -/
def Wave.lentV (m : Mach) (w : Wave) : Nat :=
  match w.slot, w.task.bind m.task with
  | some n, some t =>
    if n < 126 then 0
    else min (sumNat (w.lanes.map fun x => x.v.length)) (w.lanes.length * t.field (if w.shadow then 371 else 312) 10)
  | _, _ => 0

/-- A resource summed over the waves of a core that hold a slot below `lim`. -/
def coreSum (m : Mach) (core lim : Nat) (f : Wave → Nat) : Nat :=
  sumNat ((m.waves.filter fun w => w.core == core && (match w.slot with
    | some n => decide (n < lim)
    | none => false)).map f)

/-- The v registers that the threads of a wave hold. -/
def Wave.vTotal (w : Wave) : Nat := sumNat (w.lanes.map fun x => x.v.length)

/-- The v registers of the core pool that its resident waves hold, beside those that the stockpot lends. -/
def vInUse (m : Mach) (core : Nat) : Nat := coreSum m core 128 fun w => w.vTotal - w.lentV m

/-- The v registers open to `GROW`: the pool without the stockpot's (R36, R56, R159). -/
def growPool : Nat := 196608 - 16384

/-- Threads of a wave. -/
def Wave.threads (w : Wave) : Nat := (w.lanes.filter fun x => x.st != .empty).length

/-- The v allotment of a wave. -/
def Wave.vAllot (w : Wave) : Nat := maxNat (w.lanes.map fun x => x.v.length)

/-- Sets the v allotment of a wave's threads: new registers read as zero, and lost values are gone (R36). -/
def Wave.setAllot (w : Wave) (n : Nat) : Wave :=
  { w with lanes := w.lanes.map fun x =>
      if x.st = .empty then x else { x with v := x.v.take n ++ List.replicate (n - x.v.length) 0 } }

/-- A register request of a wave with its path's mask: the arrival order, the count and the predicate's lanes. -/
structure GrowReq where
  wave  : Nat
  mask  : BitVec 64
  dst   : Fin 8
  count : Nat
  lanes : List Nat
  order : Nat
  deriving DecidableEq, Repr

/-- The request that a wait is. -/
def growOf (wave : Nat) (mask : BitVec 64) : WaitFor → List GrowReq
  | .grow d n ls _ o => [⟨wave, mask, d, n, ls, o⟩]
  | _ => []

/-- The register requests pending on a core (R36), of waves that hold a slot. -/
def growPending (m : Mach) (core : Nat) : List GrowReq :=
  ((m.waves.filter fun w => w.core == core && w.slot.isSome).map fun w =>
    ((w.paths ++ w.aside ++ w.resume).map fun p => match p.fin with
      | some f => growOf w.id p.mask f
      | none => []).flatten
    ++ (w.waits.map fun x => growOf w.id x.path.mask x.what).flatten).flatten

/-- The core pool holds a wave's request. -/
def growFits (m : Mach) (core : Nat) (w : Wave) (n : Nat) : Bool :=
  decide (vInUse m core + w.threads * (n - w.vAllot) ≤ growPool)

/-- `GROW` (R36, R292). -/
def execGrow (g : Guard) (d : Fin 8) (a b : Opnd) (s : State) : Host.Outcome State Fault Refusal :=
  runWord (shortInfo (.grow g d a b) g [(a, 32), (b, 64)] [(.p d, 1)] [])
    (fun dv m io =>
      if io.act.isEmpty then Eff.ok m []
      else
        let n := (readUni dv m io 32 a + 7) / 8 * 8
        let yes := predOuts d.val (io.act.map fun l => (l, true))
        if 576 < n then Eff.fault m 0x54 0
        else if n ≤ io.w.vAllot then Eff.ok m yes
        else if (growPending m io.w.core).isEmpty && growFits m io.w.core io.w n then
          Eff.ok (m.updWave io.w.core io.w.id fun w => w.setAllot n) yes
        else
          { Eff.ok { m with turnNo := m.turnNo + 1 } [] with
            fin := some (.grow d n io.act (some (readUni dv m io 64 b)) m.turnNo) }) s

/-- Answers a register request: its predicate, and the end of its wait. -/
def answerGrow (core : Nat) (r : GrowReq) (granted : Bool) (m : Mach) : Mach :=
  m.updWave core r.wave fun w =>
    let w := if granted && decide (w.vAllot < r.count) then w.setAllot r.count else w
    let w := w.puts (predOuts r.dst.val (r.lanes.map fun l => (l, granted)))
    let mine := fun (p : Path) => p.mask == r.mask && (match p.fin with
      | some (.grow ..) => true
      | _ => false)
    let fin := updWhere mine fun p => { p with fin := some .done }
    let gone := w.waits.filter fun x => x.path.mask == r.mask && (match x.what with
      | .grow .. => true
      | _ => false)
    { w with
      paths := fin w.paths, aside := fin w.aside
      waits := w.waits.filter fun x => !gone.contains x
      resume := fin w.resume ++ gone.map fun x => { x.path with fin := none } }

/-- The event GROW_GRANT (R36): the oldest request of a core is granted when it fits; it blocks those behind it. -/
def execGrowGrant (core : Nat) (s : State) : Host.Outcome State Fault Refusal :=
  .next (s.withMach fun _ m =>
    match bestOf (fun a b : GrowReq => decide (a.order < b.order)) (growPending m core) with
    | none => m
    | some r => match m.wave core r.wave with
      | none => m
      | some w => if growFits m core w r.count then answerGrow core r true m else m)

/-- The event GROW_TIMEOUT (R36). -/
def execGrowTimeout (core wave k : Nat) (s : State) : Host.Outcome State Fault Refusal :=
  .next (s.withMach fun _ m => match expiredAt core wave k (fun x => match x with
      | .grow .. => true
      | _ => false) m with
    | some x => (growOf wave x.path.mask x.what).foldl (fun m r => answerGrow core r false m) m
    | none => m)

/-- A register write at or above v register n. -/
def RegWrite.aboveV (n : Nat) (r : RegWrite) : Bool := match r.dst with
  | .v k => decide (n ≤ k)
  | _ => false

/-- Some operand lies at or above v register n. -/
def opndAboveV (n : Nat) (o : Opnd × Nat) : Bool := match o.1 with
  | .v k => decide (n < k.val + wordsOf o.2)
  | _ => false

/-- A result is pending for a v register at or above n (R293). -/
def pendingAboveV (w : Wave) (n : Nat) : Bool :=
  ((w.paths ++ w.aside ++ w.resume ++ w.waits.map Waiting.path).any fun p =>
      p.windows.any fun x => x.writes.any (RegWrite.aboveV n))
    || w.deferred.any fun x => x.items.any fun i => i.kind.dests.any (opndAboveV n)

/-- The allotment that a `SHRINK` would set, read on the path as its windows stand (R293). -/
def shrinkCount (g : Guard) (a : Opnd) (s : State) : Nat :=
  match s.mach.curPath with
  | none => 576
  | some (w, p) =>
    let w := (settleWindows w p).1
    match guardLanes w p.mask g with
    | [] => 576
    | l :: _ => (readOp s.dev s.mach w l 32 a + 7) / 8 * 8

/-- `SHRINK` (R36, R293). -/
def execShrink (g : Guard) (a : Opnd) (s : State) : Host.Outcome State Fault Refusal :=
  let n := shrinkCount g a s
  runWord { shortInfo (.shrink g a) g [(a, 32)] [] [] with
      touch := (List.range (576 - n)).map fun i => (.v (Fin.ofNat 576 (n + i)), 32) }
    (fun _ m io =>
      if io.act.isEmpty || io.w.vAllot ≤ n then Eff.ok m []
      else if pendingAboveV io.w n then Eff.wait m
      else Eff.ok (m.updWave io.w.core io.w.id fun w => w.setAllot n) []) s

/-! Waits on tiles (R67, R306) -/

/-- The event TILE_WAIT_WAKE: a wait on a tile that was seen ready ends as an acquire at the scope of the commands
credited to it; one on a tile that was abandoned first raises 0x60 at the trailer, in the lanes that the word acted in
(R458). -/
def wakeTile (d : Dev) (core wave k : Nat) (m : Mach) : Mach :=
  match waitAt core wave k m with
  | none => m
  | some (w, x) =>
    match x.what with
    | .tile _ _ _ (some (.ready sc)) => endWait core wave x (acquireAt core .acq sc m)
    | .tile _ _ named (some .gone) => markBack core wave (parkTrailer d m w x.path named ⟨0x60, 0⟩)
    | _ => m

/-- The event TILE_WAIT_WAKE. -/
def execTileWaitWake (core wave k : Nat) (s : State) : Host.Outcome State Fault Refusal :=
  .next (s.withMach fun d m => wakeTile d core wave k m)

/-! Task queues (R41, R294 to R300) -/

/-- A queue header that a word has reached, or what it met: a precise fault, a fault of its home, or a wait. -/
inductive QReach where
  | hdr (h : QHdr) (ps : List (Xlat × Nat)) (m : Mach)
  | fault (f : Flt)
  | home (f : Flt) (m : Mach)
  | wait (m : Mach)
  deriving DecidableEq, Repr

/-- Bytes at the home of an access: those of a replicated page as its sequencer has them (R106). -/
def homeRead (m : Mach) (ps : List (Xlat × Nat)) : List Byte :=
  (ps.map fun p => match p.1.home with
    | .rep _ => m.repBytes p.1.pa p.2
    | _ => m.homeBytes p.1.pa p.2).flatten

/-- Performs a write of a lane at the home, piece by piece; none while a frozen frame holds it. -/
def homeWrite (d : Dev) (w : Wave) (l : Nat) (ps : List (Xlat × Nat)) (bs : List Byte) (m : Mach) : Option Mach :=
  (ps.foldl (fun (r : Option (Mach × List Byte)) p => match r with
    | none => none
    | some (m, bs) => (atomicHome d w l p.1 p.2 (fun _ => some (bs.take p.2)) m).map fun x => (x.2, bs.drop p.2))
    (some (m, bs))).map Prod.fst

/-- What a queue word meets at the home of some bytes: the core's stores to them come first, then the faults that the home
or a missing response reports; the core receives what the home knows (R82, R102, R260). -/
inductive AtHome where
  | here (m : Mach)
  | fault (f : Flt) (m : Mach)
  | wait (m : Mach)
  deriving DecidableEq, Repr

/-- Reaches bytes at their home for the path of a queue word. -/
def atHome (d : Dev) (io : Io) (va : BitVec 64) (ps : List (Xlat × Nat)) (m : Mach) : AtHome :=
  let first := fun (s : Store) => s.core == io.w.core && s.meets ps
  let m := drainStores d first m
  if m.coh.stores.any fun s => first s && (s.record.isNone || (s.wave == io.w.id && (s.lanes &&& io.p.mask) != 0)) then .wait m
  else match homeFault m io.w.core va ps false with
    | some f => .fault f (meetFailing io.w.core ps m)
    | none =>
      let far := noResponse d io.w.asid ps m
      if far.1 then .fault ⟨0x30, va⟩ far.2 else .here (far.2.receiveWords io.w.core (pieceWords ps))

/-- Reaches a header for a path (R294, R300): alignment and translation precisely, and the faults of its home. -/
def reachHdr (d : Dev) (m : Mach) (io : Io) (q : BitVec 64) (acc : Access) : QReach :=
  if q.toNat % 64 ≠ 0 then .fault ⟨0x02, q⟩
  else match translateRange d m (coreDie io.w.core) io.w.asid q 64 acc false with
    | .error f => .fault f
    | .ok ps => match atHome d io q ps m with
      | .wait m => .wait m
      | .fault f m => .home f m
      | .here m => .hdr (hdrOf (ofBytes (homeRead m ps))) ps m

/-- The scope of a queue operation: package when this module homes the header, else system (R294). -/
def queueScope (d : Dev) (m : Mach) (io : Io) (q : BitVec 64) : Scope :=
  match translate d m (coreDie io.w.core) io.w.asid q .r true with
  | .ok x => if x.home == .hbm then .pkg else .sys
  | .error _ => .sys

/-- Writes a 4-byte field of a header at its home. -/
def writeHdr (d : Dev) (io : Io) (ps : List (Xlat × Nat)) (off v : Nat) (m : Mach) : Option Mach :=
  match ps with
  | [] => none
  | p :: _ => homeWrite d io.w io.lead [({ p.1 with pa := p.1.pa + off }, 4)] (toBytes 4 v) m

/-- A reserved slot of the queue is not wholly written: its entry's write has met a fault (R300). -/
def slotOpen (m : Mach) (pa : Nat) : Bool :=
  m.waves.any fun w => w.deferred.any fun x => x.items.any fun i => match i.kind with
    | .entry a _ => a == pa
    | _ => false

/-- The physical address of the first piece. -/
def firstPa (ps : List (Xlat × Nat)) : Nat := ((ps.head?).map fun p => p.1.pa).getD 0

/-- One entry of a lane written to its slot: the machine, and the fault that its home, or a missing response, reports. -/
def putEntry (d : Dev) (io : Io) (l : Nat) (ps : List (Xlat × Nat)) (va : BitVec 64) (bs : List Byte) (m : Mach) :
    Option (Mach × Option Flt) :=
  match homeFault { m with coh := { m.coh with words := m.coh.words.map fun h => { h with lost := false } } }
      io.w.core va ps false with
  | some f => some (m, some f)
  | none =>
    let far := noResponse d io.w.asid ps m
    if far.1 then some (far.2, some ⟨0x30, va⟩) else (homeWrite d io.w l ps bs far.2).map fun m => (m, none)

/-- The outstanding operation of a path that its header's home refuses: the lowest lane repeats it, and each lane's predicate
is a result of it. -/
def queueDefer (io : Io) (f : Flt) (q : BitVec 64) (p : Fin 8) (kind : DefKind) : Option (Flt × List DefItem) :=
  some (f, io.act.map fun l => defItem l q (if l = io.lead then kind else .bit p))

/-- What an enqueue met. -/
inductive Enq where
  | fault (f : Flt)
  | home (f : Flt) (m : Mach)
  | wait (m : Mach)
  | done (m : Mach) (took : Nat) (late : List (Nat × BitVec 64 × Nat × List Byte × Flt))
  deriving DecidableEq, Repr

/-- Enqueues the entries of lanes, as many as there is room for (R41, R294, R297): the indices are reserved by one atomic
at the header's home, and each entry is then written to its slot. -/
def enqueueLanes (d : Dev) (io : Io) (q : BitVec 64) (es : List (Nat × List Byte)) (m : Mach) : Enq :=
  match reachHdr d m io q .w with
  | .fault f => .fault f
  | .home f m => .home f m
  | .wait m => .wait m
  | .hdr h ps m =>
    if h.bad || !h.clean || h.host then .home ⟨0x02, q⟩ m
    else
      let k := min es.length (h.cap - min h.cap h.count)
      let slots := (es.take k).mapIdx fun i e => (e.1, h.slotVa ((h.tail + i) % 2 ^ 32), e.2)
      let xl := slots.map fun e => (e, translateRange d m (coreDie io.w.core) io.w.asid e.2.1 32 .w false)
      match xl.findSome? fun e => match e.2 with
          | .error f => some f
          | .ok _ => none with
      | some f => .fault f
      | none =>
        match if k = 0 then some m else writeHdr d io ps 4 ((h.tail + k) % 2 ^ 32) m with
        | none => .wait m
        | some m1 =>
          let m0 := m
          let r := xl.foldl (fun (r : Option (Mach × List (Nat × BitVec 64 × Nat × List Byte × Flt))) e =>
            match r, e.2 with
            | some (m, late), .ok ps => match putEntry d io e.1.1 ps e.1.2.1 e.1.2.2 m with
              | none => none
              | some (m, none) => some (m, late)
              | some (m, some f) => some (m, late ++ [(e.1.1, e.1.2.1, firstPa ps, e.1.2.2, f)])
            | r, _ => r) (some (m1, []))
          match r with
          | none => .wait m0
          | some (m, late) => .done m k late

/-- The effect of an enqueue: the predicate, true in the lanes of the entries taken (or in every acting lane, for one
entry of the path), and the entries whose writes met a fault. -/
def enqEff (io : Io) (d : Fin 8) (q : BitVec 64) (es : List (Nat × List Byte)) (each : Bool) (m : Mach) (x : Enq) :
    Eff :=
  match x with
  | .fault f => Eff.fault m f.code f.addr
  | .wait m => Eff.wait m
  | .home f m => { Eff.ok m [] with defer := queueDefer io f q d (.enq d es io.act each) }
  | .done m k late =>
    let won := (es.take k).map Prod.fst
    let outs := predOuts d.val (io.act.map fun l => (l, if each then won.contains l else k != 0))
    { Eff.ok m outs with
      defer := match late with
        | [] => none
        | (_, _, _, _, f) :: _ =>
          some (f, late.map fun y => defItem y.1 y.2.1 (.entry y.2.2.1 y.2.2.2.1)) }

/-- A word that enqueues: its release first, and then the enqueue (R294, R300). -/
def enqueueWord (info : WordInfo) (d : Fin 8) (a : Opnd) (each : Bool) (entries : Dev → Mach → Io → List (Nat × List Byte))
    (s : State) : Host.Outcome State Fault Refusal :=
  runWord { info with rel := true }
    (fun dv m io =>
      if io.act.isEmpty then Eff.ok m []
      else
        let q := BitVec.ofNat 64 (readUni dv m io 64 a)
        if q.toNat % 64 ≠ 0 then Eff.fault m 0x02 q
        else if io.w.guarded then
          Eff.ok (io.act.foldl (fun m l => surrogateConflict m io.w l) m) (predOuts d.val (io.act.map fun l => (l, false)))
        else if fencePending m io then Eff.wait m
        else
          let sc := queueScope dv m io q
          let m := releaseAt dv io.w.core .rel sc m
          if !releaseDone m io.w.core io.w.id (maskOf io.act) .rel sc then Eff.wait m
          else
            let es := entries dv m io
            enqEff io d q es each m (enqueueLanes dv io q es m)) s

/-- The bytes of eight consecutive registers. -/
def regBytes (xs : List Word) (n : Nat) : List Byte := toBytes 32 (regWords xs n 8)

/-- `SPAWN` (R41, R296). -/
def execSpawn (g : Guard) (d : Fin 8) (a : Opnd) (v8 : Fin 72) (offer : Fin 8) (inv : Bool) (s : State) :
    Host.Outcome State Fault Refusal :=
  let v := Fin.ofNat 576 (8 * v8.val)
  let regs := (List.range 4).map fun i => ((Opnd.v (Fin.ofNat 576 (8 * v8.val + 2 * i)), 64) : Opnd × Nat)
  enqueueWord (shortInfo (.spawn g d a v8 offer inv) g ((a, 64) :: regs) [(.p d, 1)] [offer.val]) d a true
    (fun _ _ io => (io.act.filter fun l => (io.w.lane l).pred offer.val != inv).map fun l =>
      (l, regBytes (io.w.lane l).v v.val)) s

/-- The bytes of four consecutive scalar registers. -/
def scalarBytes (w : Wave) (s4 : Fin 16) : List Byte :=
  toBytes 32 (ofWords ((List.range 4).map fun i => w.s.getD (4 * s4.val + i) 0))

/-- `ENQ` (R297). -/
def execEnq (g : Guard) (d : Fin 8) (a : Opnd) (s4 : Fin 16) (s : State) : Host.Outcome State Fault Refusal :=
  enqueueWord (shortInfo (.enq g d a s4) g ((a, 64) :: fourRegs s4) [(.p d, 1)] []) d a false
    (fun _ _ io => [(io.lead, scalarBytes io.w s4)]) s

/-- What a dequeue met. -/
inductive Deq where
  | fault (f : Flt)
  | home (f : Flt) (m : Mach)
  | wait (m : Mach)
  | empty (m : Mach)
  | took (bs : List Byte) (m : Mach)
  deriving DecidableEq, Repr

/-- Dequeues one entry (R294, R298): it is read wholly before HEAD advances. -/
def dequeueOne (d : Dev) (io : Io) (q : BitVec 64) (m : Mach) : Deq :=
  match reachHdr d m io q .w with
  | .fault f => .fault f
  | .home f m => .home f m
  | .wait m => .wait m
  | .hdr h ps m =>
    if h.bad || !h.clean || h.kind != 1 then .home ⟨0x02, q⟩ m
    else if h.head = h.tail then .empty m
    else
      let va := h.slotVa h.head
      match translateRange d m (coreDie io.w.core) io.w.asid va 32 .r false with
      | .error f => .fault f
      | .ok xs =>
        if slotOpen m (firstPa xs) then .wait m
        else match atHome d io va xs m with
          | .wait m => .wait m
          | .fault f m => .home f m
          | .here m =>
            let bs := homeRead m xs
            match writeHdr d io ps 0 ((h.head + 1) % 2 ^ 32) m with
            | none => .wait m
            | some m => .took bs m

/-- The register writes of a dequeued entry and of its predicate. -/
def deqOuts (lead : Nat) (act : List Nat) (s4 : Fin 16) (pr : Fin 8) (bs : List Byte) : List RegWrite :=
  ((List.range 4).map fun i =>
      (⟨lead, .s (4 * s4.val + i), BitVec.ofNat 64 (ofBytes ((bs.drop (8 * i)).take 8))⟩ : RegWrite))
    ++ predOuts pr.val (act.map fun l => (l, true))

/-- `DEQ` (R298, R300). -/
def execDeq (g : Guard) (la : Fin 16) (s4 : Fin 16) (a : Opnd) (pr : Fin 8) (s : State) :
    Host.Outcome State Fault Refusal :=
  let dsts : List (Opnd × Nat) := fourRegs s4 ++ [(.p pr, 1)]
  runWord (longInfo (.deq g la s4 a pr) g la [(a, 64)] dsts)
    (fun dv m io =>
      if io.act.isEmpty then Eff.ok m []
      else
        let q := BitVec.ofNat 64 (readUni dv m io 64 a)
        let no := predOuts pr.val (io.act.map fun l => (l, false))
        if q.toNat % 64 ≠ 0 then Eff.fault m 0x02 q
        else if io.w.guarded then
          Eff.ok (io.act.foldl (fun m l => surrogateConflict m io.w l) m)
            (((List.range 4).map fun i => (⟨io.lead, .s (4 * s4.val + i), 0⟩ : RegWrite)) ++ no)
        else if fencePending m io then Eff.wait m
        else
          let sc := queueScope dv m io q
          match dequeueOne dv io q m with
          | .fault f => Eff.fault m f.code f.addr
          | .home f m => { Eff.ok m [] with defer := queueDefer io f q pr (.deq s4 pr) }
          | .wait m => Eff.wait m
          | .empty m => Eff.ok (acquireAt io.w.core .acq sc m) no
          | .took bs m => Eff.ok (acquireAt io.w.core .acq sc m) (deqOuts io.lead io.act s4 pr bs)) s

/-- A header field as `QINFO` reads it (R299). -/
def QHdr.field (h : QHdr) : QField → Nat
  | .count => h.count
  | .cap => h.cap
  | .head => h.head
  | .tail => h.tail

/-- `QINFO` (R299). -/
def execQinfo (g : Guard) (la : Fin 16) (field : QField) (d a : Opnd) (s : State) : Host.Outcome State Fault Refusal :=
  runWord (longInfo (.qinfo g la field d a) g la [(a, 64)] [(d, 32)])
    (fun dv m io =>
      if io.act.isEmpty then Eff.ok m []
      else if fencePending m io then Eff.wait m
      else
        let q := BitVec.ofNat 64 (readUni dv m io 64 a)
        match reachHdr dv m io q .r with
        | .fault f => Eff.fault m f.code f.addr
        | .home f m => { Eff.ok m [] with
            defer := some (f, io.act.map fun l => defItem l q (.qinfo field d)) }
        | .wait m => Eff.wait m
        | .hdr h ps m =>
          if io.act.any fun l => repWait dv m io.w l ps then Eff.wait m
          else Eff.ok m (laneOuts 32 d (io.act.map fun l => (l, h.field field)))) s

end Sys2Proof.Machine
end

