-- ==== Sys2Proof/Machine/Product.lean ====
section
/-! DEFINITION. The product units: operand fetch, accumulators, steps, sequences and the rendezvous latch, extraction,
storing and packing (R32 to R34, R123 to R139, R150, R160, R317 to R330). -/

namespace Sys2Proof.Machine

/-! Operand fetch (R129 to R131) -/

/-- A coefficient at fetch: its integer, its exponent, and its NaN flag. -/
structure Coef where
  x   : Int
  ex  : Option Int
  nan : Bool
  deriving DecidableEq, Repr

/-- A coefficient beyond an operand's length (R134). -/
def Coef.none_ : Coef := ⟨0, none, false⟩

/-- Fraction width of an aligned format (R130). -/
def alignFrac : EFmt → Nat
  | .n8e4 => 3
  | .n8e5 => 2
  | _ => 7

/-- The field F of an alignment: `.fast`, `.wide`, `.full` (R129). -/
def alignField (ef : EFmt) (align : Nat) : Nat :=
  if align = 0 then 8 else if align = 2 && ef == .bf16 then 16 else 12

/-- The binade of a nonzero finite element (R130). -/
def binadeOf (ef : EFmt) : FVal → Option Int
  | .num _ m q => if m = 0 then none else some (q + alignFrac ef)
  | _ => none

/-- Greatest of a list of integers. -/
def maxInt : List Int → Option Int
  | [] => none
  | x :: xs => match maxInt xs with
    | none => some x
    | some y => some (if x < y then y else x)

/-- A coefficient by R129 and R130: the element's code, the codes of its alignment group, and its scale. Under the scale 0xFF,
which R121 makes a NaN, its exponent is none in every format (log 97). -/
def fetchCoef (ef : EFmt) (align s : Nat) (group : List Nat) (code : Nat) : Coef :=
  if s = 0xFF then ⟨0, none, true⟩
  else
    let v := elemVal ef 127 code
    match ef with
    | .n4e2 => match v with
      | .num neg m q => ⟨signed neg (m * 2 ^ (q + 2).toNat), some ((s : Int) - 129), false⟩
      | _ => ⟨0, some ((s : Int) - 129), true⟩
    | .s4 | .s8 => match v with
      | .num neg m _ => ⟨signed neg m, some ((s : Int) - 127), false⟩
      | _ => ⟨0, some ((s : Int) - 127), true⟩
    | ef =>
      let f := alignField ef align
      match maxInt (group.filterMap fun c => binadeOf ef (elemVal ef 127 c)) with
      | none => ⟨0, none, (match v with
        | .num _ _ _ => false
        | _ => true)⟩
      | some emax =>
        let ex := some ((s : Int) - 127 + emax - (f - 1 : Nat))
        match v with
        | .num neg m q => ⟨signed neg (roundMag .rne false m (q - emax + (f - 1 : Nat)) false), ex, false⟩
        | _ => ⟨0, ex, true⟩

/-- A companded element of a described block (R128, R129). The code 0 expands with the sign + and the scale 0xFF leaves no
exponent (log 97). -/
def compandCoef (tab : List Byte) (ef : EFmt) (s code : Nat) : Coef :=
  if s = 0xFF then ⟨0, none, true⟩
  else
    let c := signedOf (efmtBits ef) code
    ⟨signed (decide (c < 0)) (expand tab (compandMax ef) c), some ((s : Int) - 139), false⟩

/-- The element format of a code of R123; codes above 5 do not occur in a checked descriptor or block. -/
def efOf : Nat → EFmt
  | 0 => .n4e2
  | 1 => .n8e4
  | 2 => .n8e5
  | 3 => .s4
  | 4 => .s8
  | _ => .bf16

/-- Element k of a described block as a coefficient, of 64 bytes as a number (R123, R321). -/
def blockCoef (tabs : List (Option (List Byte))) (align : Nat) (b k : Nat) : Coef :=
  let ef := efOf (bitsOf b 0 4)
  let n := efmtBits ef
  let count := 496 / n
  let s := bitsOf b 8 8
  let code := fun i => bitsOf b (16 + n * i) n
  if count ≤ k then .none_
  else if bitsOf b 4 2 = 0 then fetchCoef ef align s ((List.range count).map code) (code k)
  else match tabs.getD (bitsOf b 4 2 - 1) none with
    | some t => compandCoef t ef s (code k)
    | none => .none_

/-! Product descriptors and operand tiles (R320, R321) -/

/-- A descriptor that R320 or R324 refuses. -/
def pdescBad (a : BitVec 64) (mma : Bool) : Bool :=
  let p := pdesc a
  let mx := p.kinda == 2 || p.kindb == 2
  bitsOf a.toNat 56 8 != 0 || p.form == 3 || (mma && p.form != 0)
    || (if p.form = 2 then bitsOf a.toNat 2 62 != 0
        else p.kinda == 3 || p.kindb == 3 || decide (5 < p.efa) || decide (5 < p.efb) || p.align == 3
          || (p.kinda == 1 && p.efa != 0) || (p.kindb == 1 && p.efb != 0)
          || (p.kinda != 0 && p.sca != 0) || (p.kindb != 0 && p.scb != 0) || (!mx && p.sct != 0)
          || (!mma && (p.nk != 0 || p.nu != 0 || p.pair)) || decide (255 < p.k0 + p.nk))

/-- The form that a descriptor's step records. -/
def PDesc.aform (p : PDesc) : AForm := if p.form = 0 then .outer else if p.form = 1 then .conv else .none

/-- The scale tile is read. -/
def PDesc.scaled (p : PDesc) : Bool := p.kinda == 2 || p.kindb == 2

/-- The operand tiles of a step. -/
structure Operand where
  ta  : Tile
  tb  : Tile
  sct : Option Tile
  deriving DecidableEq, Repr

/-- The tiles that a step names, when the group owns them (R302). -/
def operandTiles (g : Group) (p : PDesc) (ta tb : Nat) : Option Operand :=
  match g.tile ta, g.tile tb with
  | some a, some b =>
    if p.form != 2 && p.scaled then (g.tile p.sct).map fun c => ⟨a, b, some c⟩ else some ⟨a, b, none⟩
  | _, _ => none

/-- The tiles that a step names. -/
def stepTiles (p : PDesc) (ta tb : Nat) : List Nat := [ta, tb] ++ if p.form != 2 && p.scaled then [p.sct] else []

/-- A tile condition of R321 is broken. -/
def Operand.bad (o : Operand) (p : PDesc) : Bool :=
  let a := tdesc o.ta.desc
  let b := tdesc o.tb.desc
  a.bare || b.bare
    || (if p.form = 2 then a.region != 0 || b.region != 0 || decide (512 < a.width) || decide (512 < b.width)
        else a.region != 0 || b.region != 1 || b.base % 512 != 0
          || b.pitch != (if p.kindb = 1 || efOf p.efb == .bf16 then 1024 else 512))
    || (match o.sct with
        | some t => let c := tdesc t.desc; c.bare || c.region != 0 || c.esize != 0
        | none => false)

/-- The tiles as their consumers meet them (R67): usable, gone, or to be waited for. -/
def Operand.use (o : Operand) : TileUse :=
  let us := [o.ta.consume, o.tb.consume] ++ (match o.sct with
    | some t => [t.consume]
    | none => [])
  if us.contains .gone then .gone else if us.contains .wait then .wait else .use o.ta

/-- The tiles are ready again for a step that is performed again (R304). -/
def Operand.holds (o : Operand) : Bool := ([o.ta, o.tb] ++ o.sct.toList).all fun t => t.state == .ready

/-- A byte range of a row lies inside a tile. -/
def TDesc.holds (t : TDesc) (r off n : Nat) : Bool := decide (r ≤ t.rows) && decide (off + n ≤ t.width)

/-- A place of a plain or MX operand lies inside it: its row and, of the COLS + 1 elements of z bytes that a row or a row's
vector has, its column (R321, log 96). -/
def TDesc.place (t : TDesc) (r c : Nat) : Bool := decide (r ≤ t.rows) && decide (c ≤ t.cols)

/-- Byte offset of a tile's byte in its region. -/
def TDesc.at_ (t : TDesc) (r off : Nat) : Nat := t.base + r * t.pitch + off

/-- The number that `n` bytes of a tile hold. -/
def tileNum (g : Group) (t : TDesc) (r off n : Nat) : Nat := ofBytes (g.bytes t.space (t.at_ r off) n)

/-- Byte offset in its row of bit `b` of a B vector of unit u (R321): chunk u of each 512-byte span. -/
def chunkOff (u b : Nat) : Nat := 512 * (b / 8 / 64) + 64 * u + b / 8 % 64

/-- The code of an element in a row of a tile, at a bit position of the row's vector; `u` names the chunk of a B vector. -/
def elemCodeAt (g : Group) (t : TDesc) (ef : EFmt) (u : Option Nat) (r c : Nat) : Option Nat :=
  let n := efmtBits ef
  let off := match u with
    | some u => chunkOff u (n * c)
    | none => n * c / 8
  if t.place r c then some (bitsOf (tileNum g t r off ((n + 7) / 8)) (n * c % 8) n) else none

/-- A coefficient of a kind-0 or kind-2 operand at row r and place c, with its alignment group (R322): `u` names the chunk
of a B vector; along k, the places of a B vector's group lie in 32 rows. -/
def plainCoef (g : Group) (t : TDesc) (ef : EFmt) (align s : Nat) (u : Option Nat) (down : Bool) (r c : Nat) : Coef :=
  match elemCodeAt g t ef u r c with
  | none => .none_
  | some code =>
    let block := fun n => (List.range 32).map fun i => n / 32 * 32 + i
    let group := if down then (block r).filterMap fun k => elemCodeAt g t ef u k c
      else (block c).filterMap fun k => elemCodeAt g t ef u r k
    fetchCoef ef align s group code

/-- The companding tables of a group's context. -/
def groupTabs (m : Mach) (g : Group) : List (Option (List Byte)) :=
  match m.ctx g.asid with
  | some c => c.ctabs
  | none => []

/-- A coefficient of a described-block operand: the block's offset in its row and the element. A malformed block faults at
its address (R124). -/
def blockAt (m : Mach) (g : Group) (t : TDesc) (align r off e : Nat) : Except Nat Coef :=
  if t.holds r off 64 then
    let b := tileNum g t r off 64
    if blockBad m g.asid (b % 256) then .error (t.at_ r off) else .ok (blockCoef (groupTabs m g) align b e)
  else .ok .none_

/-- The scale byte of an MX operand's coefficient (R321). -/
def scaleByte (g : Group) (o : Operand) (r c : Nat) : Nat :=
  match o.sct with
  | some t => tileNum g (tdesc t.desc) r c 1
  | none => 127

/-- The coefficients of TA for accumulator n at k-step k (R321). -/
def fetchA (m : Mach) (g : Group) (o : Operand) (p : PDesc) (conv : Bool) (k n : Nat) : List (Except Nat Coef) :=
  let t := tdesc o.ta.desc
  (List.range 64).map fun i =>
    let r := if conv then k else 64 * (n % 2) + i
    let c := if conv then i else k
    if t.rows < r then .ok .none_
    else if p.kinda = 1 then blockAt m g t p.align r (64 * (c / 32)) (c % 32)
    else
      let s := if p.kinda = 2 then scaleByte g o r (c / 32) else p.sca
      .ok (plainCoef g t (efOf p.efa) p.align s none false r c)

/-- The coefficients of TB for accumulator n at k-step k (R321). -/
def fetchB (m : Mach) (g : Group) (o : Operand) (p : PDesc) (conv : Bool) (k n : Nat) : List (Except Nat Coef) :=
  let t := tdesc o.tb.desc
  let u := n / 2
  (List.range 64).map fun j =>
    if p.kindb = 1 then blockAt m g t p.align k (64 * (u + 8 * (j / 32))) (j % 32)
    else
      let s := if p.kindb = 2 then scaleByte g o k (2 * u + j / 32) else p.scb
      .ok (plainCoef g t (efOf p.efb) p.align s (some u) (!conv && p.kindb == 0) k j)

/-- All the coefficients, or the address of the first malformed block. -/
def allCoefs : List (Except Nat Coef) → Except Nat (List Coef)
  | [] => .ok []
  | .error a :: _ => .error a
  | .ok c :: cs => match allCoefs cs with
    | .error a => .error a
    | .ok r => .ok (c :: r)

/-- The first byte outside its tile that a step at k for accumulator n would need (R321). -/
def stepOutside (o : Operand) (p : PDesc) (k n : Nat) : Option Nat :=
  let a := tdesc o.ta.desc
  let b := tdesc o.tb.desc
  let conv := p.form == 1
  let r0 := if conv then k else 64 * (n % 2)
  let off := if p.kinda = 1 then 64 * (k / 32) else efmtBits (efOf p.efa) * k / 8
  if conv && decide (a.rows < k) then some (a.at_ k 0)
  else if !conv && p.kinda == 1 && !decide (off + 64 ≤ a.width) then some (a.at_ r0 (max off a.width))
  else if !conv && p.kinda != 1 && !decide (k ≤ a.cols) then some (a.at_ r0 off)
  else if b.rows < k then some (b.at_ k 0)
  else match o.sct with
    | none => none
    | some t =>
      let c := tdesc t.desc
      let needA := if p.kinda = 2 then
          (List.range 64).filterMap fun i =>
            let r := if conv then k else r0 + i
            let x := if conv then i else k
            if a.place r x then some (r, x / 32) else none
        else []
      let needB := if p.kindb = 2 then
          (List.range 64).filterMap fun j => if b.place k j then some (k, 2 * (n / 2) + j / 32) else none
        else []
      ((needA ++ needB).find? fun x => !c.holds x.1 x.2 1).map fun x => c.at_ x.1 x.2

/-! The accumulate step (R134 to R137) -/

/-- Digit k of an accumulator. -/
def digitOf (ds : List (Nat × Int)) (k : Nat) : Int :=
  match ds.find? fun x => x.1 == k with
  | some x => x.2
  | none => 0

/-- Adds to a digit of a list sorted by index; a zero digit is not listed. -/
def addDigit : List (Nat × Int) → Nat → Int → List (Nat × Int)
  | [], k, v => if v = 0 then [] else [(k, v)]
  | (j, x) :: r, k, v =>
    if k < j then (if v = 0 then (j, x) :: r else (k, v) :: (j, x) :: r)
    else if k = j then (if x + v = 0 then r else (j, x + v) :: r)
    else (j, x) :: addDigit r k v

/-- An exponent after a step: the lower of the two (R135). -/
def lowerExp (old new : Option Int) : Option Int :=
  match old, new with
  | none, n => n
  | some o, none => some o
  | some o, some n => some (if n < o then n else o)

/-- How far the digits of a row or column move left when its exponent falls. -/
def fallOf (old new : Option Int) : Nat :=
  match old, new with
  | some o, some n => (o - n).toNat
  | _, _ => 0

/-- The mask of the coefficients whose NaN flag is set. -/
def nanMask (xs : List Coef) : BitVec 64 := maskOf ((List.range xs.length).filter fun i => (xs.getD i .none_).nan)

/-- A violating digit: the lowest outside the guard width (R135, R136). -/
def digitBad (g : Nat) (ds : List (Nat × Int)) : Option Nat :=
  (ds.find? fun x => decide (x.2 < -(2 ^ (g - 1) : Int)) || decide ((2 ^ (g - 1) : Int) ≤ x.2)).map Prod.fst

/-- One outer step (R135): the accumulator after it, or the lowest violating digit. -/
def outerStep (a : AccVal) (xs ys : List Coef) : Except Nat AccVal :=
  let er := (List.range 64).map fun i => lowerExp (a.er.getD i none) (xs.getD i .none_).ex
  let ec := (List.range 64).map fun j => lowerExp (a.ec.getD j none) (ys.getD j .none_).ex
  let fall := fun k => fallOf (a.er.getD (k % 64) none) (er.getD (k % 64) none)
    + fallOf (a.ec.getD (k / 64) none) (ec.getD (k / 64) none)
  let old := a.digits.map fun x => (x.1, x.2 * 2 ^ fall x.1)
  let up := fun (e : Option Int) (r : Option Int) => (e.getD 0 - r.getD 0).toNat
  let ds := (List.range 64).foldl (fun ds j =>
    let y := ys.getD j .none_
    if y.x = 0 then ds
    else (List.range 64).foldl (fun ds i =>
      let x := xs.getD i .none_
      if x.x = 0 then ds
      else addDigit ds (64 * j + i)
        (x.x * y.x * 2 ^ (up x.ex (er.getD i none) + up y.ex (ec.getD j none)))) ds) old
  match digitBad a.g ds with
  | some k => .error k
  | none => .ok { a with form := .outer, digits := ds, er := er, ec := ec,
                         nr := a.nr ||| nanMask xs, nc := a.nc ||| nanMask ys }

/-- The one exponent of a convolution operand; none when its groups have several (R134). -/
def convExp (xs : List Coef) : Option (Option Int) :=
  let es := (xs.filterMap Coef.ex).eraseDups
  match es with
  | [] => some none
  | [e] => some (some e)
  | _ => none

/-- One convolution step: row 0 and column 0 stand for all of X and all of Y. -/
def convStep (a : AccVal) (xs ys : List Coef) : Except Nat AccVal :=
  let ex := ((convExp xs).getD none)
  let ey := ((convExp ys).getD none)
  let er := lowerExp (a.er.getD 0 none) ex
  let ec := lowerExp (a.ec.getD 0 none) ey
  let fall := fallOf (a.er.getD 0 none) er + fallOf (a.ec.getD 0 none) ec
  let up := (ex.getD 0 - er.getD 0).toNat + (ey.getD 0 - ec.getD 0).toNat
  let old := a.digits.map fun x => (x.1, x.2 * 2 ^ fall)
  let ds := (List.range 64).foldl (fun ds j =>
    let y := ys.getD j .none_
    if y.x = 0 then ds
    else (List.range 64).foldl (fun ds i =>
      let x := xs.getD i .none_
      if x.x = 0 then ds else addDigit ds (i + j) (x.x * y.x * 2 ^ up)) ds) old
  match digitBad a.g ds with
  | some k => .error k
  | none => .ok { a with form := .conv, digits := ds, er := a.er.set 0 er, ec := a.ec.set 0 ec,
                         nr := a.nr ||| (if xs.any Coef.nan then 1 else 0),
                         nc := a.nc ||| (if ys.any Coef.nan then 1 else 0) }

/-- Bits of the raw integer (R132). -/
def rawBits : Nat := 163840

/-- One raw step (R137). -/
def rawStep (a : AccVal) (x y : Int) : AccVal := { a with raw := signedOf rawBits (wrapTo rawBits (a.raw + x * y)) }

/-- Row 0 of a tile as a signed integer (R137). -/
def rowInt (g : Group) (t : TDesc) : Int := signedOf (8 * t.width) (tileNum g t 0 0 t.width)

/-- What a step meets: the accumulator after it, or a fault with its address or digit. -/
inductive StepRes where
  | ok (a : AccVal)
  | fault (f : Flt) (digit : Nat)
  deriving DecidableEq, Repr

/-- The operands and the arithmetic of one step on accumulator n at k-step k (R135 to R137). -/
def stepOn (m : Mach) (g : Group) (o : Operand) (p : PDesc) (k n : Nat) (a : AccVal) : StepRes :=
  if p.form = 2 then .ok (rawStep a (rowInt g (tdesc o.ta.desc)) (rowInt g (tdesc o.tb.desc)))
  else match allCoefs (fetchA m g o p (p.form == 1) k n), allCoefs (fetchB m g o p (p.form == 1) k n) with
    | .error x, _ | .ok _, .error x => .fault ⟨0x20, BitVec.ofNat 64 x⟩ 0
    | .ok xs, .ok ys =>
      if p.form = 1 && ((convExp xs).isNone || (convExp ys).isNone) then .fault ⟨0x50, 0⟩ 0
      else match (if p.form = 1 then convStep a xs ys else outerStep a xs ys) with
        | .ok a => .ok a
        | .error k => .fault ⟨0x21, BitVec.ofNat 64 k⟩ k

/-- The operands of a convolution step break the exponent condition of R134. -/
def convBad (m : Mach) (g : Group) (o : Operand) (p : PDesc) (n : Nat) : Bool :=
  if p.form = 1 then
    match allCoefs (fetchA m g o p true p.k0 n), allCoefs (fetchB m g o p true p.k0 n) with
    | .ok xs, .ok ys => (convExp xs).isNone || (convExp ys).isNone
    | _, _ => false
  else false

/-! Accumulators of a group (R318, R319) -/

/-- A sequence that uses an accumulator runs or is parked. -/
def Group.seqOn (g : Group) (k : Nat) : Bool := g.seqs.any fun q => q.active && q.uses k

/-- A step or sequence is pending, running or parked on an accumulator. -/
def Group.busyOn (g : Group) (k : Nat) : Bool := !(((g.accs[k]?).map Acc.pend).getD []).isEmpty || g.seqOn k

/-- Changes an accumulator of a group. -/
def Mach.updAcc (m : Mach) (core group k : Nat) (f : Acc → Acc) : Mach :=
  m.updGroup core group fun g => { g with accs := updAt g.accs k f }

/-- The value of an accumulator. -/
def Group.acc (g : Group) (k : Nat) : AccVal := ((g.accs[k]?).map Acc.val).getD (clearAcc 16)

/-- Changes every open window of a core's waves. -/
def Mach.mapWindows (m : Mach) (core : Nat) (f : Window → Window) : Mach :=
  let path := fun (p : Path) => { p with windows := p.windows.map f }
  { m with waves := m.waves.map fun w =>
      if w.core = core then
        { w with paths := w.paths.map path, aside := w.aside.map path, resume := w.resume.map path,
                 waits := w.waits.map fun x => { x with path := path x.path } }
      else w }

/-- Keeps, in the windows of a step, the values of its accumulators from before it (R168, R318). -/
def keepOld (core ticket k : Nat) (a : AccVal) (m : Mach) : Mach :=
  m.mapWindows core fun x =>
    if x.ticket = some ticket && !(x.olds.any fun o => o.1 == k) then { x with olds := x.olds ++ [(k, a)] } else x

/-- The windows of a path that name an accumulator, by the step's ticket. -/
def openOn (p : Path) (k : Nat) : List (Nat × Window) :=
  p.windows.filterMap fun x => match x.ticket with
    | some t => if x.accs.contains k && x.left != 0 then some (t, x) else none
    | none => none

/-- The first of the steps issued to an accumulator in whose window a path stands (R318). -/
def firstOpen (opens : List (Nat × Window)) (tickets : List Nat) : Option Window :=
  (tickets.findSome? fun t => opens.find? fun o => o.1 == t).map Prod.snd

/-- The accumulator as a read finds it (R168, R318): after every step issued to it but those in whose windows the path
stands, and before the first of those; or an interlock, which names the accumulator where it waits on a sequence. -/
def accView (m : Mach) (io : Io) (g : Group) (k : Nat) : Except Eff AccVal :=
  let a := (g.accs[k]?).getD ⟨clearAcc 16, [], []⟩
  let opens := openOn io.p k
  let other := fun (t : Nat) => !(opens.any fun o => o.1 == t)
  if g.seqs.any fun q => q.active && q.uses k && other q.ticket then .error (Eff.waitAcc m k)
  else if a.pend.any fun s => other s.ticket then .error (Eff.wait m)
  else match (firstOpen opens a.tickets).bind fun w => w.olds.find? fun x => x.1 == k with
    | some x => .ok x.2
    | none => .ok a.val

/-- A word on an accumulator of the path's group (R302). A breach that its operands' values make is 0x50, ahead of the
allotment's 0x54 (R190). -/
def accWord (info : WordInfo) (k : Fin 16) (bad : Dev → Mach → Io → Group → Bool) (body : Dev → Mach → Io → Group → Eff)
    (s : State) : Host.Outcome State Fault Refusal :=
  groupWord info (fun d m io g =>
    if bad d m io g then illegalWord m info.instr
    else if g.alloc.acc ≤ k.val then Eff.fault m 0x54 0
    else body d m io g) s

/-- Clears the standing of the sequences recorded for an accumulator (R319). -/
def clearKstat (core group k : Nat) (m : Mach) : Mach :=
  m.updGroup core group fun g =>
    { g with seqs := updWhere (fun q => q.uses k) (fun q => { q with mask := 0, active := false }) g.seqs }

/-- `KGUARD` (R133, R319). -/
def execKguard (g : Guard) (k : Fin 16) (a : Opnd) (s : State) : Host.Outcome State Fault Refusal :=
  accWord (shortInfo (.kguard g k a) g [(a, 32)] [] []) k
    (fun d m io _ =>
      let n := readUni d m io 32 a
      n != 0 && !(decide (8 ≤ n) && decide (n ≤ 40)))
    (fun d m io gr =>
      let n := readUni d m io 32 a
      if gr.busyOn k.val then Eff.wait m
      else Eff.ok (clearKstat gr.core gr.id k.val
        (m.updAcc gr.core gr.id k.val fun _ => ⟨clearAcc n, [], []⟩)) []) s

/-- `KCLR` (R319). -/
def execKclr (g : Guard) (k : Fin 16) (s : State) : Host.Outcome State Fault Refusal :=
  accWord (shortInfo (.kclr g k) g [] [] []) k (fun _ _ _ _ => false)
    (fun _ m _ gr =>
      if gr.busyOn k.val then Eff.wait m
      else Eff.ok (clearKstat gr.core gr.id k.val
        (m.updAcc gr.core gr.id k.val fun x => ⟨clearAcc x.val.g, [], []⟩)) []) s

/-! Single steps (R323) -/

/-- Appends the ticket of a step issued to an accumulator, and forgets those that are performed and in no window. -/
def noteTicket (m : Mach) (core group k ticket : Nat) : Mach :=
  let held := fun (t : Nat) => m.waves.any fun w => w.core == core &&
    (w.paths ++ w.aside ++ w.resume ++ w.waits.map Waiting.path).any fun p => p.windows.any fun x => x.ticket == some t
  m.updAcc core group k fun a =>
    { a with tickets := (a.tickets.filter fun t => a.pend.any (fun s => s.ticket == t) || held t) ++ [ticket] }

/-- A step's form agrees with the accumulator's recorded form and guard width (R134), or it must wait for the steps before
it to settle the form. -/
inductive FormRes where
  | ok | bad | wait
  deriving DecidableEq, Repr

/-- A step's form breaks the guard width or the recorded form of an accumulator (R134). -/
def formBad (a : AccVal) (p : PDesc) : Bool :=
  (a.g == 0) != (p.form == 2) || (p.form != 2 && a.form != .none && a.form != p.aform)

/-- Whether a step of a form can be issued to an accumulator. -/
def formFits (g : Group) (k : Nat) (p : PDesc) : FormRes :=
  let a := (g.accs[k]?).getD ⟨clearAcc 16, [], []⟩
  if (a.val.g == 0) != (p.form == 2) then .bad
  else if p.form = 2 then .ok
  else if a.val.form != .none then (if a.val.form == p.aform then .ok else .bad)
  else if a.pend.any (fun s => (pdesc s.desc).aform != p.aform) then .wait
  else if g.seqOn k && p.form != 0 then .wait
  else .ok

/-- `KMUL` (R318, R320 to R323): the step is issued to its accumulator. -/
def execKmul (g : Guard) (la : Fin 16) (k : Fin 16) (ta tb : Fin 64) (a : Opnd) (s : State) :
    Host.Outcome State Fault Refusal :=
  accWord (longInfo (.kmul g la k ta tb a) g la [(a, 64)] []) k
    (fun d m io _ => pdescBad (BitVec.ofNat 64 (readUni d m io 64 a)) false)
    (fun d m io gr =>
      let x := BitVec.ofNat 64 (readUni d m io 64 a)
      let p := pdesc x
      match formFits gr k.val p with
        | .bad => illegalWord m (.kmul g la k ta tb a)
        | .wait => Eff.wait m
        | .ok => match operandTiles gr p ta.val tb.val with
          | none => Eff.fault m 0x02 0
          | some o =>
            if o.bad p then Eff.fault m 0x02 0
            else match if p.form = 2 then none else stepOutside o p p.k0 k.val with
              | some y => Eff.fault m 0x02 (BitVec.ofNat 64 y)
              | none => match o.use with
                | .wait => Eff.waitTiles m (stepTiles p ta.val tb.val)
                | .gone => Eff.fault m 0x60 0
                | .use _ =>
                  if convBad m gr o p k.val then illegalWord m (.kmul g la k ta tb a)
                  else
                    let t := m.freeCount
                    let step : KStep := ⟨t, x, BitVec.ofNat 64 ((instrWord (.kmul g la k ta tb a)).getD 0), ta.val, tb.val,
                      io.w.id, io.p.mask, io.p.pc, false⟩
                    let m := noteTicket { m with freeCount := t + 1 } gr.core gr.id k.val t
                    let m := m.updAcc gr.core gr.id k.val fun y => { y with pend := y.pend ++ [step] }
                    { Eff.ok m [] with accs := some (t, [k.val]) }) s

/-- The words of a step's window that are still to issue. -/
def windowLeft (w : Wave) (ticket : Nat) : Nat :=
  maxNat (((w.paths ++ w.aside ++ w.resume ++ w.waits.map Waiting.path).map fun p =>
    (p.windows.filter fun x => x.ticket == some ticket).map Window.left).flatten)

/-- The fault of a step, outstanding on its wave until the path raises it (R263, R323). -/
def deferStep (g : Group) (k : Nat) (step : KStep) (f : Flt) (m : Mach) : Mach :=
  m.updWave g.core step.wave fun w =>
    if w.ended then w
    else
      let ls := lanesOf w.width step.mask
      let items := ls.map fun l => defItem l f.addr (if ls.head? = some l then .kstep g.id k step else .nothing)
      { w with deferred := w.deferred ++ [⟨step.mask, f, step.pc, items, windowLeft w step.ticket, true, false, false, w.issueNo⟩] }

/-- A tile read meets an error of the scratchpad or operand store that cannot be corrected, with its error record (R323, R324,
R455): a choice (log 94). -/
def sramError (d : Dev) (core : Nat) (asid : BitVec 16) (m : Mach) : Bool × Mach :=
  let r := m.choose 2
  if r.1 = 1 then (true, writeErr d ⟨2, 2, 3, coreDie core, core, 0, asid, 0x10, 0, 0⟩ r.2) else (false, r.2)

/-- The event KMUL_STEP: the oldest pending step of an accumulator is performed (R318, R323). A step that a retry performs
waits for its tiles to be ready again (R304), and meets the accumulator's form and guard width as they then are (R134). -/
def performStep (d : Dev) (core group k : Nat) (m : Mach) : Mach :=
  match m.group core group with
  | none => m
  | some g => match g.accs[k]? with
    | none => m
    | some a => match a.pend with
      | [] => m
      | step :: rest =>
        let p := pdesc step.desc
        let done := fun (f : Acc → Acc) (m : Mach) =>
          (keepOld core step.ticket k a.val m).updAcc core group k fun y => f { y with pend := rest }
        let fails := fun (f : Flt) (m : Mach) =>
          deferStep g k step (if f.code = 0x50 then ⟨0x50, step.word⟩ else f) (done id m)
        if g.seqs.any fun q => q.active && q.uses k && decide (q.ticket < step.ticket) then m
        else match operandTiles g p step.ta step.tb with
          | none => fails ⟨0x02, 0⟩ m
          | some o =>
            if step.again && !o.holds then m
            else if formBad a.val p then fails ⟨0x50, 0⟩ m
            else match sramError d core g.asid m with
              | (true, m) => fails ⟨0x10, 0⟩ m
              | (false, m) => match stepOn m g o p p.k0 k a.val with
                | .ok v => done (fun y => { y with val := v }) m
                | .fault f _ => fails f m

/-- The event KMUL_STEP. -/
def execKmulStep (core group k : Nat) (s : State) : Host.Outcome State Fault Refusal :=
  .next (s.withMach fun d m => performStep d core group k m)

/-! Sequences (R33, R150, R160, R324) -/

/-- A sequence that has performed every micro-tile ends: MASK clears (R160). -/
def KSeq.settle (q : KSeq) : KSeq :=
  if q.active && (List.range (q.last + 1)).all fun i => q.mask.getLsbD i then
    { q with active := false, mask := 0, parked := none }
  else q

/-- What starting a sequence meets. -/
inductive SeqStart where
  | wait (ts : List Nat)
  | fault (code : Nat) (addr : BitVec 64)
  | go (m : Mach) (ticket : Nat)
  deriving DecidableEq, Repr

/-- Starts the sequence of a gang once its latch is complete (R160, R321, R324): `masks` lists the wave and lanes of the paths
that issued it. -/
def startSeq (m : Mach) (g : Group) (gang word pc desc : BitVec 64) (n ta tb : Nat) (masks : List (Nat × BitVec 64)) :
    SeqStart :=
  let p := pdesc desc
  let accs := seqAccs n desc
  let outOf := accs.any fun k => decide (g.alloc.acc ≤ k)
  if pdescBad desc true || n % 2 != 0 || outOf then .fault 0x50 word
  else if accs.any g.busyOn then .wait []
  else if accs.any fun k => (g.acc k).g == 0 || (g.acc k).form == .conv then .fault 0x50 word
  else match operandTiles g p ta tb with
    | none => .fault 0x02 0
    | some o =>
      if o.bad p then .fault 0x02 0
      else match ((List.range (p.nk + 1)).map fun i => accs.filterMap fun k => stepOutside o p (p.k0 + i) k).flatten with
        | y :: _ => .fault 0x02 (BitVec.ofNat 64 y)
        | [] => match o.use with
          | .wait => .wait (stepTiles p ta tb)
          | .gone => .fault 0x60 0
          | .use _ =>
            let t := m.freeCount
            let members := gangMembers gang
            let old := g.seqs.find? fun q => q.gang == members
            let mask := match old with
              | some q => if q.word == word then q.mask else 0
              | none => 0
            let q : KSeq := ⟨members, gang, word, pc, desc, n, ta, tb, t, mask, true, none, p.nk / 8, masks, false⟩
            let m := accs.foldl (fun m k => noteTicket m g.core g.id k t) { m with freeCount := t + 1 }
            .go (m.updGroup g.core g.id fun x =>
              { x with seqs := (x.seqs.filter fun y => y.gang != members) ++ [q.settle] }) t

/-- The gang list of a wave without its position, which the waves of a gang share (log 98). -/
def gangList51 (w : Wave) : BitVec 64 := BitVec.ofNat 64 (bitsOf w.gang.toNat 0 51)

/-- Gives every listed wave but one the latch's answer, and takes that one's entry out. -/
def answerLatch (core group wave : Nat) (members : List Nat) (out : Nat × BitVec 64 × Nat) (m : Mach) : Mach :=
  m.updGroup core group fun g =>
    { g with latch := (g.latch.filter fun e => e.wave != wave).map fun e =>
        if members.contains e.wave && e.out.isNone then { e with out := some out } else e }

/-- The paths whose words stand in the latch wait on tiles (R67). -/
def lockPaths (core : Nat) (ents : List LatchEnt) (ts : List Nat) (m : Mach) : Mach :=
  ents.foldl (fun m e => m.updPath core e.wave e.mask fun p => { p with lock := some ⟨ts, [], false⟩ }) m

/-- `KMMA` (R32 to R34, R324, R325): the word enters the gang's rendezvous latch, which starts one sequence for the gang
or raises the gang's fault. An accumulator outside the allotment is 0x54 where the descriptor is not malformed (R190, R302). -/
def execKmma (g : Guard) (la : Fin 16) (k : Fin 16) (ta tb : Fin 64) (a : Opnd) (s : State) :
    Host.Outcome State Fault Refusal :=
  groupWord (longInfo (.kmma g la k ta tb a) g la [(a, 64)] [])
    (fun d m io gr =>
      let desc := BitVec.ofNat 64 (readUni d m io 64 a)
      if gr.alloc.acc ≤ k.val && !pdescBad desc true && k.val % 2 == 0 then Eff.fault m 0x54 0
      else
      let word := BitVec.ofNat 64 ((instrWord (.kmma g la k ta tb a)).getD 0)
      let mine := gr.latch.find? fun e => e.wave == io.w.id && e.mask == io.p.mask && e.pc == io.p.pc
      let drop := fun (m : Mach) => m.updGroup gr.core gr.id fun x =>
        { x with latch := x.latch.filter fun e => e.wave != io.w.id }
      match mine.bind LatchEnt.out with
      | some (0, _, t) => { Eff.ok (drop m) [] with accs := some (t, seqAccs k.val desc) }
      | some (code, addr, _) => Eff.fault (drop m) code addr
      | none =>
        if bitsOf io.w.gang.toNat 48 3 = 0 || io.w.gangDead then Eff.fault (drop m) 0x53 0
        else
          let gang := gangList51 io.w
          let members := gangMembers io.w.gang
          let ent : LatchEnt := ⟨io.w.id, io.p.mask, word, desc, gang, io.p.pc, none⟩
          let m := (drop m).updGroup gr.core gr.id fun x => { x with latch := x.latch ++ [ent] }
          let ents := ((m.group gr.core gr.id).map Group.latch).getD []
          let waiting := ents.filter fun e => members.contains e.wave && e.out.isNone
          if waiting.length < members.length then Eff.wait m
          else if waiting.any fun e => e.word != word || e.desc != desc || e.gang != gang then
            Eff.fault (answerLatch gr.core gr.id io.w.id members (0x53, 0, 0) m) 0x53 0
          else match startSeq m gr gang word io.p.pc desc k.val ta.val tb.val (waiting.map fun e => (e.wave, e.mask)) with
            | .wait [] => Eff.wait m
            | .wait ts => Eff.waitTiles (lockPaths gr.core waiting ts m) ts
            | .fault code addr =>
              Eff.fault (answerLatch gr.core gr.id io.w.id members (code, addr, 0) m) code addr
            | .go m t =>
              { Eff.ok (answerLatch gr.core gr.id io.w.id members (0, 0, t) m) [] with
                accs := some (t, seqAccs k.val desc) }) s

/-- Changes a sequence of a group by its ticket. -/
def Mach.updSeq (m : Mach) (core group ticket : Nat) (f : KSeq → KSeq) : Mach :=
  m.updGroup core group fun g => { g with seqs := updWhere (fun q => q.ticket == ticket) f g.seqs }

/-- Parks a sequence whose micro-tile met a fault (R150, R324). -/
def parkSeq (d : Dev) (g : Group) (q : KSeq) (tile : Nat) (f : Flt) (digit : Nat) (m : Mach) : Mach :=
  let info : ParkInfo :=
    { asid := g.asid, core := g.core, group := g.id, wave := q.gang.headD 0,
      depth := if g.handler then some g.depth else none, code := f.code, prio := none,
      addr := if f.code = 0x21 then 0 else f.addr, lanes := 0, kind := 1, tag := 0,
      tail := q.mask.toNat + 2 ^ 32 * q.word.toNat + 2 ^ 96 * q.gangl.toNat + 2 ^ 160 * q.pc.toNat + 2 ^ 224 * q.acc
        + 2 ^ 228 * tile + 2 ^ 233 * digit }
  takeFault d m info (.seq g.core g.id q.ticket) [] fun h m =>
    m.updSeq g.core g.id q.ticket fun q => { q with parked := some h }

/-- The steps of micro-tile i of a sequence: k-step and accumulator (R324). -/
def tileSteps (q : KSeq) (i : Nat) : List (Nat × Nat) :=
  let p := pdesc q.desc
  let n := min 8 (p.nk + 1 - 8 * i)
  ((List.range n).map fun j => (seqAccs q.acc q.desc).map fun k => (p.k0 + 8 * i + j, k)).flatten

/-- The accumulators after the steps of a micro-tile, or the fault that one met. -/
def runSteps (m : Mach) (g : Group) (o : Operand) (p : PDesc) (vals : List (Nat × AccVal)) :
    List (Nat × Nat) → Except (Flt × Nat) (List (Nat × AccVal))
  | [] => .ok vals
  | (k, n) :: rest =>
    let a := match vals.find? fun x => x.1 == n with
      | some x => x.2
      | none => clearAcc 16
    match stepOn m g o p k n a with
    | .fault f dig => .error (f, dig)
    | .ok v => runSteps m g o p (vals.map fun x => if x.1 = n then (n, v) else x) rest

/-- The event MICRO_TILE: one micro-tile of a running sequence adds to its accumulators wholly, or parks the sequence
(R160, R324), but for one of a context that is being saved (R405). `i` counts 32 for each running sequence before it. A sequence that resumed waits for its tiles to be ready
(R304), and meets its accumulators' forms as they then are (R134). -/
def microTile (d : Dev) (core group i : Nat) (m : Mach) : Mach :=
  match m.group core group with
  | none => m
  | some g => match (g.seqs.filter fun q => q.active && q.parked.isNone)[i / 32]? with
    | none => m
    | some q =>
      let t := i % 32
      if q.last < t || q.mask.getLsbD t || m.saves g.asid then m
      else match operandTiles g (pdesc q.desc) q.ta q.tb with
        | none => parkSeq d g q t ⟨0x02, 0⟩ 0 m
        | some o =>
          if q.again && !o.holds then m
          else
            let m := m.updSeq core group q.ticket fun q => { q with again := false }
            let accs := seqAccs q.acc q.desc
            if accs.any fun k => formBad (g.acc k) (pdesc q.desc) then parkSeq d g q t ⟨0x50, q.word⟩ 0 m
            else match sramError d core g.asid m with
              | (true, m) => parkSeq d g q t ⟨0x10, 0⟩ 0 m
              | (false, m) => match runSteps m g o (pdesc q.desc) (accs.map fun k => (k, g.acc k)) (tileSteps q t) with
                | .error (f, dig) => parkSeq d g q t f dig m
                | .ok vals =>
                  let m := accs.foldl (fun m k => keepOld core q.ticket k (g.acc k) m) m
                  let m := vals.foldl (fun m x => m.updAcc core group x.1 fun a => { a with val := x.2 }) m
                  m.updSeq core group q.ticket fun q => { q with mask := q.mask ||| BitVec.ofNat 32 (2 ^ t) }.settle

/-- The event MICRO_TILE. -/
def execMicroTile (core group i : Nat) (s : State) : Host.Outcome State Fault Refusal :=
  .next (s.withMach fun d m => microTile d core group i m)

/-- The threads of a wave, of those that issued a killed sequence, that drain the products class raise 0x60 (R155): those past
their trailer stand at their successors, those at their `EXIT` at the trailer. -/
def loseDrain (d : Dev) (core wave : Nat) (mask : BitVec 64) (m : Mach) : Mach :=
  match m.wave core wave with
  | none => m
  | some w =>
    if w.parked.isSome || w.ended then m
    else
      let waits := (List.range w.lanes.length).filter fun l => mask.getLsbD l && (match (w.lane l).st with
        | .drain cls _ => cls.getLsbD 1
        | _ => false)
      match waits with
      | l :: _ =>
        let pc := (w.lane l).pc
        let at_ := maskOf (waits.filter fun i => (w.lane i).pc == pc)
        parkWave d m w at_ (maskOf waits) pc 0 (maskOf waits) ⟨0x60, 0⟩ none
      | [] => match w.waits.find? fun x => (x.path.mask &&& mask) != 0 && (match x.what with
          | .exit cls => cls.getLsbD 1
          | _ => false) with
        | some x => parkTrailer d m w x.path x.path.mask ⟨0x60, 0⟩
        | none => m

/-- Kills a sequence (R155): its accumulators stay as at its last completed micro-tile, and the paths then waiting on it
raise 0x60. -/
def loseSeq (d : Dev) (core group ticket : Nat) (m : Mach) : Mach :=
  match (m.group core group).bind fun g => g.seqs.find? fun q => q.ticket == ticket with
  | none => m
  | some q => q.masks.foldl (fun m x => loseDrain d core x.1 x.2 m) (killSeq d core group ticket m)

/-! Reads of accumulators (R326 to R330) -/

/-- How many indexes a read of an accumulator has (R326). -/
def digitLimit (a : AccVal) : Nat := if a.g = 0 then 5120 else if a.form == .conv then 127 else 4096

/-- A digit, or a chunk of the raw integer (R138). -/
def readDigit (a : AccVal) (k : Nat) : Int :=
  if a.g = 0 then (bitsOf (wrapTo rawBits a.raw) (32 * k) 32 : Nat) else digitOf a.digits k

/-- A word that reads an accumulator. -/
def readAcc (info : WordInfo) (k : Fin 16) (body : Dev → Mach → Io → Group → AccVal → Eff) (s : State) :
    Host.Outcome State Fault Refusal :=
  accWord info k (fun _ _ _ _ => false) (fun d m io gr => match accView m io gr k.val with
    | .error e => e
    | .ok a => body d m io gr a) s

/-- `KEXT` (R326). -/
def execKext (g : Guard) (la : Fin 16) (k : Fin 16) (d a : Opnd) (s : State) : Host.Outcome State Fault Refusal :=
  readAcc (longInfo (.kext g la k d a) g la [(a, 32)] [(d, 64)]) k
    (fun dv m io _ v =>
      let ix := io.act.map fun l => (l, readOp dv m io.w l 32 a)
      let ok := ix.filter fun x => decide (x.2 < digitLimit v)
      { Eff.ok m (laneOuts 64 d (ok.map fun x => (x.1, wrapTo 64 (readDigit v x.2)))) with
        flts := (ix.filter fun x => !decide (x.2 < digitLimit v)).map fun x => (x.1, ⟨0x02, BitVec.ofNat 64 x.2⟩) }) s

/-- `round_fp32` of an integer times a power of two; zero gives +0 (R139). -/
def roundScaled (rm : RMode) (x q : Int) : Nat := fround .f32 rm false (.num (decide (x < 0)) x.natAbs q)

/-- The value of R139 for digit n with offset o; none where no product reached its row or column. -/
def digitFloat (rm : RMode) (a : AccVal) (n : Nat) (o : Int) : Option Nat :=
  if a.g = 0 then some (roundScaled rm a.raw o)
  else
    let i := if a.form == .conv then 0 else n % 64
    let j := if a.form == .conv then 0 else n / 64
    if a.nr.getLsbD i || a.nc.getLsbD j then some (nanCode .f32)
    else match a.er.getD i none, a.ec.getD j none with
      | some x, some y => some (roundScaled rm (digitOf a.digits n) (x + y + o))
      | _, _ => none

/-- The value with the addition of R139 to an FP32 number. -/
def addFloat (rm : RMode) (add : Bool) (old : Nat) (v : Option Nat) : Nat :=
  match v with
  | none => if add then old else 0
  | some v => if add then fadd32 rm old v else v

/-- `KEXTF` (R327). -/
def execKextf (g : Guard) (la : Fin 16) (k : Fin 16) (rm : RMode) (add : Bool) (d a b : Opnd) (s : State) :
    Host.Outcome State Fault Refusal :=
  readAcc (longInfo (.kextf g la k rm add d a b) g la
      ([(a, 32), (b, 32)] ++ if add then [(d, 32)] else []) [(d, 32)]) k
    (fun dv m io _ v =>
      let lim := if v.g = 0 then 1 else digitLimit v
      let ix := io.act.map fun l => (l, readOp dv m io.w l 32 a)
      let val := fun (x : Nat × Nat) =>
        addFloat rm add (readOp dv m io.w x.1 32 d) (digitFloat rm v x.2 (signedOf 8 (readOp dv m io.w x.1 32 b)))
      { Eff.ok m (laneOuts 32 d ((ix.filter fun x => decide (x.2 < lim)).map fun x => (x.1, val x))) with
        flts := (ix.filter fun x => !decide (x.2 < lim)).map fun x => (x.1, ⟨0x02, BitVec.ofNat 64 x.2⟩) }) s

/-- A `KSTO` descriptor with a reserved value, or a nonzero field that must be zero (R328). -/
def kstoReserved (a : BitVec 64) : Bool :=
  let n := a.toNat
  let mode := bitsOf n 0 2
  mode == 3 || bitsOf n 5 3 != 0 || bitsOf n 16 48 != 0 || (mode != 0 && (bitsOf n 2 2 != 0 || bitOf n 4))

/-- A `KSTO` descriptor that R328 refuses for a tile. -/
def kstoBad (a : BitVec 64) (t : TDesc) (raw : Bool) : Bool :=
  let mode := bitsOf a.toNat 0 2
  kstoReserved a || t.bare || t.esize != (if mode = 2 then 3 else 2) || (raw && mode != 2)

/-- The rounding mode of a code (R179). -/
def rmodeOf : Nat → RMode
  | 0 => .rne
  | 1 => .rz
  | 2 => .rdn
  | _ => .rup

/-- Where `KSTO` puts each digit: row, column and index (R328), inside the tile. -/
def kstoPlaces (v : AccVal) (t : TDesc) : List (Nat × Nat × Nat) :=
  let all := if v.g = 0 then (List.range 2560).map fun c => (c / (t.cols + 1), c % (t.cols + 1), c)
    else if v.form == .conv then (List.range 127).map fun n => (0, n, n)
    else (List.range 4096).map fun n => (n % 64, n / 64, n)
  all.filter fun x => decide (x.1 ≤ t.rows) && decide (x.2.1 ≤ t.cols)

/-- The bytes that `KSTO` writes for an index over the old element (R328). -/
def kstoBytes (v : AccVal) (desc : BitVec 64) (n old : Nat) : List Byte :=
  let x := desc.toNat
  let add := bitOf x 4
  let rm := rmodeOf (bitsOf x 2 2)
  if v.g = 0 then toBytes 8 (bitsOf (wrapTo rawBits v.raw) (64 * n) 64)
  else match bitsOf x 0 2 with
    | 0 => toBytes 4 (addFloat rm add old (digitFloat rm v n (signedOf 8 (bitsOf x 8 8))))
    | 1 => toBytes 4 (wrapTo 32 (max (-(2 ^ 31 : Int)) (min (2 ^ 31 - 1) (digitOf v.digits n))))
    | _ => toBytes 8 (wrapTo 64 (digitOf v.digits n))

/-- `KSTO` (R328). -/
def execKsto (g : Guard) (la : Fin 16) (k : Fin 16) (ta : Fin 64) (a : Opnd) (s : State) :
    Host.Outcome State Fault Refusal :=
  accWord (longInfo (.ksto g la k ta a) g la [(a, 64)] []) k
    (fun d m io gr =>
      let x := BitVec.ofNat 64 (readUni d m io 64 a)
      match gr.tile ta.val with
      | none => kstoReserved x
      | some tile => kstoBad x (tdesc tile.desc) ((gr.acc k.val).g == 0))
    (fun d m io gr =>
      let x := BitVec.ofNat 64 (readUni d m io 64 a)
      match gr.tile ta.val with
      | none => Eff.fault m 0x02 0
      | some tile =>
        let t := tdesc tile.desc
        match tile.consume with
          | .wait => Eff.waitTiles m [ta.val]
          | .gone => Eff.fault m 0x60 0
          | .use _ => match accView m io gr k.val with
            | .error e => e
            | .ok v =>
              let es := 2 ^ t.esize
              Eff.ok ((kstoPlaces v t).foldl (fun m y =>
                let off := t.at_ y.1 (y.2.1 * es)
                m.putLocal gr.core gr.id t.space off (kstoBytes v x y.2.2 (ofBytes (gr.bytes t.space off es)))) m) []) s

/-- `KPACK` (R329): all-or-nothing. -/
def execKpack (g : Guard) (la : Fin 16) (k : Fin 16) (ta : Fin 64) (a b : Opnd) (s : State) :
    Host.Outcome State Fault Refusal :=
  accWord (longInfo (.kpack g la k ta a b) g la [(a, 32), (b, 32)] []) k
    (fun _ _ _ gr => match gr.tile ta.val with
      | none => (gr.acc k.val).g == 0
      | some tile =>
        let t := tdesc tile.desc
        (gr.acc k.val).g == 0 || t.bare || t.region != 0 || decide (512 < t.width))
    (fun d m io gr =>
      match gr.tile ta.val with
      | none => Eff.fault m 0x02 0
      | some tile =>
        let t := tdesc tile.desc
        let guard := (gr.acc k.val).g
        let w := t.width
        match tile.consume with
          | .wait => Eff.waitTiles m [ta.val]
          | .gone => Eff.fault m 0x60 0
          | .use _ => match accView m io gr k.val with
            | .error e => e
            | .ok _ =>
              let at_ := fun l => readOp d m io.w l 32 b
              match (io.act.filter fun l => decide (8 * w ≤ at_ l * guard)).map fun l =>
                  (l, (⟨0x02, BitVec.ofNat 64 (at_ l)⟩ : Flt)) with
              | f :: fs => Eff.allFault m (f :: fs)
              | [] =>
                let add := io.act.foldl (fun (x : Int) l =>
                  x + signedOf 32 (readOp d m io.w l 32 a) * 2 ^ (at_ l * guard)) 0
                let new := wrapTo (8 * w) ((tileNum gr t 0 0 w : Int) + add)
                Eff.ok (m.putLocal gr.core gr.id .spad t.base (toBytes w new)) []) s

/-- The lowest exponent of a list as 16 bits; 0x8000 when there is none (R330). -/
def lowExp (es : List (Option Int)) : Nat :=
  match maxInt ((es.filterMap id).map fun e => -e) with
  | none => 0x8000
  | some e => wrapTo 16 (-e)

/-- TOP of an accumulator's status (R330). -/
def topOf (a : AccVal) : Nat :=
  if a.g = 0 then
    let p := wrapTo rawBits a.raw
    if p = 0 then 0x1FFF else (bitLen p - 1) / 32
  else match a.digits.getLast? with
    | some x => x.1
    | none => 0x1FFF

/-- The status word of an accumulator (R330). -/
def kstatWord (g : Group) (k : Nat) : Nat :=
  let a := g.acc k
  a.g + 2 ^ 6 * (if a.g = 0 then 0 else a.form.code) + (if a.nr != 0 || a.nc != 0 then 2 ^ 8 else 0)
    + (if (a.er ++ a.ec).any Option.isSome then 2 ^ 9 else 0) + (if g.busyOn k then 2 ^ 10 else 0)
    + 2 ^ 16 * topOf a + 2 ^ 32 * lowExp a.er + 2 ^ 48 * lowExp a.ec

/-- `KSTAT` (R330). -/
def execKstat (g : Guard) (la : Fin 16) (k : Fin 16) (d : Opnd) (s : State) : Host.Outcome State Fault Refusal :=
  accWord (longInfo (.kstat g la k d) g la [] [(d, 64)]) k (fun _ _ _ _ => false)
    (fun _ m io gr => Eff.ok m (laneOuts 64 d (io.act.map fun l => (l, kstatWord gr k.val)))) s

end Sys2Proof.Machine
end

