-- ==== Sys2Proof/Machine/System.lean ====
section
/-! DEFINITION. Parked state and its dispositions, raising faults, markers, residuals, special registers and the snapshot
arrival (R154, R155, R263, R331 to R348). -/

namespace Sys2Proof.Machine

/-! Record handles (R332) -/

/-- The parking area of a context: its base and its records (R386, R387). -/
def parkingArea (d : Dev) (m : Mach) (asid : BitVec 16) : Nat × Nat :=
  match m.ctx asid with
  | none => (0, 0)
  | some c =>
    ((readVa64 d m asid (c.faulttab + 8)).toNat,
      bitsOf (readVa64 d m asid (c.faulttab + 16)).toNat 0 32 + 1024)

/-- What a handle names: a live record, a disposed one, an address at another module, or nothing valid. -/
inductive HandleRes where
  | live (p : Parked)
  | disposed
  | remote (ps : List (Xlat × Nat))
  | bad
  deriving DecidableEq, Repr

/-- Checks a record handle for a wave of a die (R332). The records of another module lie in its HBM, and that module knows
which are live. -/
def checkHandle (d : Dev) (m : Mach) (die : Nat) (asid : BitVec 16) (h : BitVec 64) : HandleRes :=
  let area := parkingArea d m asid
  if h.toNat % 256 ≠ 0 then .bad
  else if h.toNat < area.1 || area.1 + 256 * area.2 ≤ h.toNat then
    match translateRange d m die asid h 256 .r true with
    | .ok ps => if ps.all fun p => isPeer p.1.pa then .remote ps else .bad
    | .error _ => .bad
  else match m.parkedAt asid h with
    | some p => .live p
    | none => if recField d m asid h 7 2 = 2 then .disposed else .bad

/-! Parked state by class (R334) -/

/-- The bytes of 32-bit registers. -/
def wordsBytes (xs : List Word) : List Byte := (xs.map fun x => toBytes 4 x.toNat).flatten

/-- 32-bit registers from bytes. -/
def bytesWords (n : Nat) (bs : List Byte) : List Word :=
  (List.range n).map fun i => BitVec.ofNat 32 (ofBytes ((bs.drop (4 * i)).take 4))

/-- The PC of a thread of a parked wave, as class 0x05 shows it. -/
def Parked.pcOf (p : Parked) (l : Nat) : BitVec 64 :=
  match (p.newPcs ++ p.pcs).find? fun x => x.1 == l with
  | some x => x.2
  | none => 0

/-- The raised operation of a parked wave, and the item of a lane that has a pending-result slot. -/
def slotOf (w : Wave) (l : Nat) : Option DefItem :=
  (w.deferred.find? Deferred.raised).bind fun x =>
    x.items.find? fun i => i.lane == l && i.bad && !i.kind.dests.isEmpty

/-- The return addresses above the depth of a thread's call stack, from its place `n` on, as patches have left them: they join
the stack when a patch raises the depth (R334). -/
def Parked.spareOf (p : Parked) (l n : Nat) : List (BitVec 64) :=
  match p.spare.find? fun x => x.1 == l with
  | some x => x.2.drop n
  | none => []

/-- Thread control: PC, depth of the call stack, and return addresses, the oldest first. -/
def threadBytes (p : Parked) (x : Lane) (l : Nat) : List Byte :=
  toBytes 8 (p.pcOf l).toNat ++ toBytes 8 x.stack.length
    ++ ((List.range 32).map fun i => toBytes 8 ((x.stack.reverse ++ p.spareOf l x.stack.length).getD i 0).toNat).flatten

/-- The queue entries of a shadow pair: those of the compute wave. -/
def queueBytes (x : Lane) : List Byte :=
  ((List.range 12).map fun n => ((List.range 16).map fun e =>
    toBytes 4 ((((x.lq.getD n []).getD e none).getD 0)).toNat).flatten).flatten

/-- The compute wave of a pair that a wave belongs to. -/
def pairWave (m : Mach) (w : Wave) : Option Wave := if w.shadow then partnerOf m w else w.partner.map fun _ => w

/-- The bytes of a state class for a lane of a parked wave; none where the class or the lane does not exist. -/
def waveClass (m : Mach) (p : Parked) (w : Wave) (cls lane : Nat) : Option (List Byte) :=
  let x := w.lane lane
  let per := fun (bs : List Byte) => if w.alive.getLsbD lane then some bs else none
  match cls with
  | 0x01 => per (wordsBytes x.v)
  | 0x02 => per (wordsBytes x.c)
  | 0x03 => per (wordsBytes x.e)
  | 0x04 => per (toBytes 1 (sumNat ((List.range 8).map fun i => if x.pred i then 2 ^ i else 0)))
  | 0x05 => per (threadBytes p x lane)
  | 0x06 => if lane = 0 then some ((w.s.map fun y => toBytes 8 y.toNat).flatten) else none
  | 0x07 =>
    if lane = 0 then some (toBytes 8 w.prio.toNat ++ toBytes 8 w.step.toNat ++ toBytes 8 w.memdef.toNat
      ++ toBytes 8 w.gang.toNat ++ toBytes 1 w.fails) else none
  | 0x08 => (slotOf w lane).map DefItem.slot
  | 0x09 => (pairWave m w).bind fun c => per (queueBytes (c.lane lane))
  | _ => none

/-- The bytes of a state class for a lane of a parked unit. -/
def stateClass (d : Dev) (m : Mach) (p : Parked) (cls lane : Nat) : Option (List Byte) :=
  if cls = 0 then
    if lane ≠ 0 then none
    else match readVa d m p.asid p.handle 256 true with
      | .ok bs => some bs
      | .error _ => none
  else match p.unit with
    | .wave core wave => (m.wave core wave).bind fun w => waveClass m p w cls lane
    | _ => none

/-- The bits of a record that `SPUT` may change (R149 to R152). -/
def recordRw (p : Parked) : Nat :=
  match p.unit with
  | .wave _ _ => (2 ^ 64 - 1) * 2 ^ 288 + (2 ^ 64 - 1) * 2 ^ 416
  | .seq _ _ _ => (2 ^ 32 - 1) * 2 ^ 288
  | .seg _ _ _ _ => (2 ^ 132 - 1) * 2 ^ 288
  | .store _ => 0

/-- A value of `%memdef` is legal (R175). -/
def memdefOk (x : BitVec 64) : Bool :=
  let n := x.toNat
  (orderOf (bitsOf n 0 3)).isSome && (scopeOf (bitsOf n 3 3)).isSome && (spaceOf (bitsOf n 6 2)).isSome
    && (hintOf (bitsOf n 10 2)).isSome && bitsOf n 12 52 == 0

/-- Whether a patched wave-control image is refused, with the fault's code (R334, R346). -/
def controlBad (w : Wave) (bs : List Byte) : Option Nat :=
  let num := fun (lo n : Nat) => ofBytes ((bs.drop lo).take n)
  if num 1 7 != 0 || num 24 8 != w.gang.toNat || num 32 1 != w.fails then some 0x02
  else if 7 < num 0 1 || 3 < num 8 8 || !memdefOk (BitVec.ofNat 64 (num 16 8)) then some 0x50
  else if w.launchPr.toNat < num 0 1 then some 0x51
  else none

/-- A write of `%prio` replaces the value that a successful poll restores (R43, R346). -/
def Wave.setPrio (w : Wave) (x : BitVec 3) : Wave :=
  { w with prio := x, savedPr := if w.fails = 0 then w.savedPr else x }

/-- The result slot of a lane whose deferred operation failed. -/
def Deferred.setSlot (lane : Nat) (bs : List Byte) (x : Deferred) : Deferred :=
  let hit := fun (i : DefItem) => i.lane == lane && i.bad && !i.kind.dests.isEmpty
  { x with items := updWhere hit (fun (i : DefItem) => { i with slot := bs }) x.items }

/-- Writes a whole class image back into a parked wave: the fault's code, or the machine. -/
def patchWave (m : Mach) (p : Parked) (w : Wave) (cls lane : Nat) (bs : List Byte) : Except Nat Mach :=
  let lane' := fun (f : Lane → Lane) => Except.ok (m.updWave w.core w.id fun w => w.updLane lane f)
  let num := fun (lo n : Nat) => ofBytes ((bs.drop lo).take n)
  match cls with
  | 0x01 => lane' fun x => { x with v := bytesWords x.v.length bs }
  | 0x02 => lane' fun x => { x with c := bytesWords x.c.length bs }
  | 0x03 => lane' fun x => { x with e := bytesWords x.e.length bs }
  | 0x04 => lane' fun x => { x with p := x.p.mapIdx fun i _ => bitOf (num 0 1) i }
  | 0x05 =>
    if 32 < num 8 4 then .error 0x02
    else
      let all := (List.range 32).map fun i => BitVec.ofNat 64 (num (16 + 8 * i) 8)
      let m := m.updWave w.core w.id fun w => w.updLane lane fun x => { x with stack := (all.take (num 8 4)).reverse }
      let m := m.updParked p.asid p.handle fun q => { q with spare := (lane, all) :: q.spare.filter fun x => x.1 != lane }
      .ok (if BitVec.ofNat 64 (num 0 8) = p.pcOf lane then m
        else m.updParked p.asid p.handle fun q => { q with newPcs := (lane, BitVec.ofNat 64 (num 0 8)) :: q.newPcs })
  | 0x06 => .ok (m.updWave w.core w.id fun w =>
      { w with s := (List.range w.s.length).map fun i => BitVec.ofNat 64 (num (8 * i) 8) })
  | 0x07 => match controlBad w bs with
    | some code => .error code
    | none => .ok (m.updWave w.core w.id fun w =>
        let w := { w with step := BitVec.ofNat 64 (num 8 8), memdef := BitVec.ofNat 64 (num 16 8) }
        if w.prio.toNat = num 0 1 then w else w.setPrio (BitVec.ofNat 3 (num 0 1)))
  | 0x08 => .ok (m.updWave w.core w.id fun w => { w with deferred := updWhere Deferred.raised (Deferred.setSlot lane bs) w.deferred })
  | _ => .error 0x02

/-- Writes a class image back into a parked unit. -/
def patchState (d : Dev) (m : Mach) (p : Parked) (cls lane : Nat) (bs : List Byte) : Except Nat Mach :=
  if cls = 0 then
    match readVa d m p.asid p.handle 256 true with
    | .error _ => .error 0x02
    | .ok old =>
      if (ofBytes old ^^^ ofBytes bs) ||| recordRw p != recordRw p then .error 0x02
      else match writeVa d m p.asid p.handle bs true with
        | some m => .ok m
        | none => .error 0x02
  else match p.unit with
    | .wave core wave => match m.wave core wave with
      | some w => patchWave m p w cls lane bs
      | none => .error 0x02
    | _ => .error 0x02

/-- The state offset of a word on parked state (R333). -/
def stateOff (w : Wave) (n : Fin 64) (off : BitVec 12) : Nat :=
  wrapTo 32 ((w.s.getD (n.val + 1) 0).toNat + off.toInt)

/-- The operands of `SGET` and `SPUT`: the handle and the base offset. -/
def stateSrcs (n : Fin 64) : List (Opnd × Nat) := [(.s n, 64), (.s (Fin.ofNat 64 (n.val + 1)), 64)]

/-- The outstanding operation of a path on parked state whose module refuses it after issue (R263, R336). -/
def stateDefer (io : Io) (f : Flt) : Option (Flt × List DefItem) := some (f, [defItem io.lead f.addr .nothing])

/-- What another module answers to a word on a record in its HBM (R332, R335, R336): it does the work, finds the handle or
the state offset bad, or reports that a disposition came first; a choice (log 100). -/
def remoteState (d : Dev) (m : Mach) (io : Io) (h : BitVec 64) (so bytes : Nat) (ps : List (Xlat × Nat))
    (done : Mach → Eff) : Eff :=
  if so % bytes != 0 || bitsOf so 22 2 != 0 then Eff.fault m 0x02 (BitVec.ofNat 64 so)
  else
    let far := noResponse d io.w.asid ps m
    if far.1 then { Eff.ok far.2 [] with defer := stateDefer io ⟨0x30, h⟩ }
    else
      let r := far.2.choose 4
      match r.1 with
      | 0 => done r.2
      | 1 => Eff.fault r.2 0x02 h
      | 2 => Eff.fault r.2 0x02 (BitVec.ofNat 64 so)
      | _ => { Eff.ok r.2 [] with defer := stateDefer io ⟨0x02, h⟩ }

/-- A word on parked state: the handle, alignment and extent checks of R332 to R336, and the class image. `late` is its effect
where the record is disposed of, `far` that on another module's record. -/
def stateWord (d : Dev) (m : Mach) (io : Io) (n : Fin 64) (off : BitVec 12) (bytes : Nat) (late : Flt → Eff) (far : Mach → Eff)
    (body : Parked → Nat → Nat → Nat → List Byte → Eff) : Eff :=
  if io.act.isEmpty then Eff.ok m []
  else
    let h := io.w.s.getD n.val 0
    let so := stateOff io.w n off
    let bad := Eff.fault m 0x02 (BitVec.ofNat 64 so)
    match checkHandle d m (coreDie io.w.core) io.w.asid h with
    | .live p =>
      if so % bytes != 0 || bitsOf so 22 2 != 0 then bad
      else match stateClass d m p (bitsOf so 24 8) (bitsOf so 16 6) with
        | none => bad
        | some bs => if bs.length < bitsOf so 0 16 + bytes then bad
            else body p (bitsOf so 24 8) (bitsOf so 16 6) (bitsOf so 0 16) bs
    | .remote ps => remoteState d m io h so bytes ps far
    | .disposed => late ⟨0x02, h⟩
    | .bad => Eff.fault m 0x02 h

/-- `SGET` (R332 to R335). What another module's record holds is a free value (log 100). -/
def execSget (g : Guard) (la : Fin 16) (sz : Sz) (off : BitVec 12) (d : Opnd) (n : Fin 64) (s : State) :
    Host.Outcome State Fault Refusal :=
  runWord (longInfo (.sget g la sz off d n) g la (stateSrcs n) [(d, sz.regBits)])
    (fun dv m io =>
      let put := fun (m : Mach) (bs : List Byte) => Eff.ok m (laneOuts sz.regBits d (io.act.map fun l => (l, extendSz sz bs)))
      stateWord dv m io n off sz.bytes (fun f => Eff.fault m f.code f.addr)
        (fun m =>
          let lo := m.fresh
          let hi := lo.2.fresh
          put hi.2 ((toBytes 8 lo.1.toNat ++ toBytes 8 hi.1.toNat).take sz.bytes))
        fun _ _ _ lo bs => put m ((bs.drop lo).take sz.bytes)) s

/-- `SPUT` (R332 to R336). A choice says that the patch is still on its way to its record, and its path waits; where a
disposition reaches the record first, the word completes with a deferred 0x02 and writes nothing (log 99). -/
def execSput (g : Guard) (sz : Sz) (off : BitVec 12) (n : Fin 64) (b : Opnd) (s : State) :
    Host.Outcome State Fault Refusal :=
  runWord (shortInfo (.sput g sz off n b) g (stateSrcs n ++ [(b, sz.regBits)]) [] [])
    (fun d m io => stateWord d m io n off sz.bytes
      (fun f => if io.p.stall = 0 then Eff.fault m f.code f.addr else { Eff.ok m [] with defer := stateDefer io f })
      (fun m => Eff.ok m [])
      fun p cls lane lo bs =>
        let new := toBytes sz.bytes (readUni d m io sz.regBits b)
        match patchState d m p cls lane (bs.take lo ++ new ++ bs.drop (lo + sz.bytes)) with
        | .error code => Eff.fault m code (BitVec.ofNat 64 (stateOff io.w n off))
        | .ok _ =>
          let r := m.choose 2
          if r.1 = 1 then Eff.wait r.2
          else match patchState d r.2 p cls lane (bs.take lo ++ new ++ bs.drop (lo + sz.bytes)) with
            | .ok m => Eff.ok m []
            | .error _ => Eff.ok r.2 []) s

/-! Finishing an outstanding operation (R155, R263) -/

/-- The windows of a path with one more, in the order of their words. -/
def Path.addWindow (p : Path) (x : Window) : Path :=
  { p with windows := (p.windows.filter fun y => y.born ≤ x.born) ++ [x] ++ p.windows.filter fun y => !decide (y.born ≤ x.born) }

/-- Writes the results of an outstanding operation: at once, or at the end of the window that was still open (R169). -/
def landOuts (core wave lane left born : Nat) (outs : List RegWrite) (m : Mach) : Mach :=
  m.updWave core wave fun w =>
    if left = 0 then (w.puts outs).supersede born outs
    else
      let f := fun (p : Path) => if p.mask.getLsbD lane then p.addWindow ⟨left, born, outs, none, [], []⟩ else p
      { w with paths := w.paths.map f, aside := w.aside.map f, resume := w.resume.map f,
               waits := w.waits.map fun x => { x with path := f x.path } }

/-- Fills unfilled entries of a lane's load queue, after the first `skip` of them. -/
def fillQueue : Nat → List (Option Word) → List Word → List (Option Word)
  | 0, none :: r, x :: xs => some x :: fillQueue 0 r xs
  | k + 1, none :: r, xs => none :: fillQueue k r xs
  | k, some y :: r, xs => some y :: fillQueue k r xs
  | _, q, _ => q

/-- The unfilled entries of a lane's load queue that earlier loads of a wave have reserved (R266). -/
def holesBefore (w : Wave) (born lane : Nat) (q : Fin 12) : Nat :=
  sumNat ((w.deferred.filter fun x => x.born < born).map fun x => sumNat (x.items.map fun i => match i.kind with
    | .ldq sz k => if i.lane = lane && k == q then szEntries sz else 0
    | _ => 0))

/-- One lane's pending result goes to its destination, but to no register that it no longer reaches (R164, R168). -/
def applyItem (w : Wave) (left born : Nat) (i : DefItem) (m : Mach) : Mach :=
  let n := ofBytes i.slot
  let land := fun (outs : List RegWrite) =>
    landOuts w.core w.id i.lane left born (outs.filter fun o => !i.newer.contains o.dst) m
  match i.kind with
  | .load sz dst => land (laneOuts sz.regBits dst [(i.lane, n)])
  | .pair dst | .block dst => land (laneOuts 128 dst [(i.lane, n)])
  | .ldq sz q =>
    let skip := match m.wave w.core w.id with
      | some w => holesBefore w born i.lane q
      | none => 0
    m.updWave w.core (w.partner.getD 256) fun c => c.updLane i.lane fun x =>
      { x with lq := updAt x.lq q.val fun e =>
          fillQueue skip e ((List.range (szEntries sz)).map fun k => BitVec.ofNat 32 (bitsOf n (32 * k) 32)) }
  | .mx _ _ _ _ dst => land (laneOuts 32 dst [(i.lane, n)])
  | .atom _ ty _ dst => land (laneOuts (rb ty) dst [(i.lane, n)])
  | .cas bytes _ _ dst => land (laneOuts (max 32 (8 * bytes)) dst [(i.lane, n)])
  | .qinfo _ dst => land (laneOuts 32 dst [(i.lane, n)])
  | .cmp p _ _ _ | .bit p | .enq p _ _ _ => land (predOuts p.val [(i.lane, bitOf n 0)])
  | .deq s4 pr => land ((List.range 4).map (fun k =>
      (⟨i.lane, .s (4 * s4.val + k), BitVec.ofNat 64 (bitsOf n (64 * k) 64)⟩ : RegWrite)) ++ predOuts pr.val [(i.lane, bitOf n 0)])
  | .entry _ _ | .kstep _ _ _ | .table _ | .nothing => m

/-- What a retried operation of a lane meets: its pending result, an operation done whole, a fault again, or a wait. -/
inductive Redo where
  | slot (bs : List Byte) (m : Mach)
  | did (m : Mach)
  | fault (f : Flt) (m : Mach)
  | wait (m : Mach)
  deriving DecidableEq, Repr

/-- The result of a load as a retried operation's. -/
def LoadRes.redo (f : List Byte → Nat) (r : LoadRes × Mach) : Redo :=
  match r with
  | (.bytes bs, m) => .slot (toBytes 16 (f bs)) m
  | (.precise x, m) | (.deferred x, m) => .fault x m
  | (.wait, m) => .wait m

/-- A retried load. -/
def redoLoad (d : Dev) (w : Wave) (i : DefItem) (n : Nat) (f : List Byte → Nat) (m : Mach) : Redo :=
  LoadRes.redo f (loadLane d m w i.lane .glb i.va.toNat n false)

/-- A retried atomic. -/
def redoAtom (d : Dev) (io : Io) (i : DefItem) (n : Nat) (kind : Option Nat) (f : List Byte → Option (List Byte)) (m : Mach) :
    Redo :=
  match atomicLane d io i.lane .glb i.va.toNat n kind f m with
  | (.old bs, m) => .slot (toBytes 16 (ofBytes bs)) m
  | (.precise f, m) | (.deferred f, m) => .fault f m
  | (.wait, m) => .wait m

/-- A retried quarter of a described block: its header is checked again (R124, R249). -/
def redoBlock (d : Dev) (w : Wave) (i : DefItem) (m : Mach) : Redo :=
  let base := i.va.toNat / 64 * 64
  match loadLane d m w i.lane .glb base 1 false with
  | (.bytes h, m) =>
    if blockBad m w.asid (ofBytes h) then .fault ⟨0x20, BitVec.ofNat 64 base⟩ m else redoLoad d w i 16 ofBytes m
  | r => LoadRes.redo ofBytes r

/-- A retried load of a companding table (R254). -/
def redoTable (d : Dev) (w : Wave) (i : DefItem) (t : Fin 4) (m : Mach) : Redo :=
  match homeLane d m w i.lane i.va.toNat 128 false with
  | (.bytes bs, m) =>
    if ctValid bs then .did (m.updCtx w.asid fun c => { c with ctabs := c.ctabs.set (t.val - 1) (some bs) })
    else .fault ⟨0x20, i.va⟩ m
  | r => LoadRes.redo ofBytes r

/-- Performs again the operation of a lane that faulted (R263, R300, R323). -/
def redoItem (d : Dev) (w : Wave) (x : Deferred) (i : DefItem) (m : Mach) : Redo :=
  let act := x.items.map DefItem.lane
  let io : Io := ⟨w, { pc := x.pc, mask := x.mask, seg := 0, fin := none, windows := [], stall := 0, target := false }, act⟩
  match i.kind with
  | .load sz _ | .ldq sz _ => redoLoad d w i sz.bytes (extendSz sz) m
  | .pair _ => LoadRes.redo ofBytes (homeLane d m w i.lane i.va.toNat 16 true)
  | .block _ => redoBlock d w i m
  | .table t => redoTable d w i t m
  | .mx ef rm e sc _ => match mxRead d w i.lane e sc (mxBytes ef) m with
    | (r, k, m) => LoadRes.redo (fun bs => mxValue ef rm k bs (i.lane % 32)) (r, m)
  | .atom op ty b _ =>
    redoAtom d io i (ty.bits / 8) (atomicOpOf op) (fun old => some (atomNew op ty b.toNat old)) m
  | .cas n cmp new _ =>
    redoAtom d io i n (some 2) (fun old => if ofBytes old = cmp.toNat then some (toBytes n new.toNat) else none) m
  | .cmp _ cond n b => redoLoad d w i n (fun bs => if condHolds cond (compared bs) (b.toNat : Nat) then 1 else 0) m
  | .qinfo field _ => match reachHdr d m io i.va .r with
    | .hdr h _ m => .slot (toBytes 16 (h.field field)) m
    | .fault f => .fault f m
    | .home f m => .fault f m
    | .wait m => .wait m
  | .enq p es lanes each => match enqueueLanes d { io with act := lanes } i.va es m with
    | .done m k late =>
      let won := (es.take k).map Prod.fst
      let outs := predOuts p.val (lanes.map fun l => (l, if each then won.contains l else k != 0))
      let more : List Deferred := match late with
        | [] => []
        | (_, _, _, _, f) :: _ =>
          [⟨maskOf (late.map fun y => y.1), f, x.pc, late.map fun y => defItem y.1 y.2.1 (.entry y.2.2.1 y.2.2.2.1), 0, true,
            false, false, x.born⟩]
      .did (m.updWave w.core w.id fun w => { (w.puts outs) with deferred := w.deferred ++ more })
    | .fault f => .fault f m
    | .home f m => .fault f m
    | .wait m => .wait m
  | .deq s4 pr =>
    let land := fun (outs : List RegWrite) (m : Mach) =>
      Redo.did (landOuts w.core w.id i.lane x.left x.born (outs.filter fun o => !i.newer.contains o.dst) m)
    match dequeueOne d io i.va m with
    | .took bs m => land (deqOuts i.lane act s4 pr bs) m
    | .empty m => land (predOuts pr.val (act.map fun l => (l, false))) m
    | .fault f => .fault f m
    | .home f m => .fault f m
    | .wait m => .wait m
  | .entry _ data => match translateRange d m (coreDie w.core) w.asid i.va 32 .w false with
    | .error f => .fault f m
    | .ok ps => match putEntry d io i.lane ps i.va data m with
      | some (m, none) => .did m
      | some (m, some f) => .fault f m
      | none => .wait m
  | .kstep g k step => .did (m.updAcc w.core g k fun a => { a with pend := a.pend ++ [{ step with again := true }] })
  | .bit _ | .nothing => .did m

/-- The lane has no operation of its own: it follows that of the path's lowest lane. -/
def DefKind.follows : DefKind → Bool
  | .bit _ | .nothing => true
  | _ => false

/-- What the retried lanes of an outstanding operation have met so far. -/
structure Retry where
  m     : Mach
  slots : List DefItem
  bad   : List (DefItem × Flt)
  wait  : List DefItem
  deriving DecidableEq, Repr

/-- Retries the faulting lanes of an outstanding operation that no longer stands in its wave's list. Those that fault again stay
outstanding, their slots zero again, and so do those that must wait, which a later event tries again; an operation that is all or
nothing writes its results only when every lane has one. -/
def retryDeferred (d : Dev) (w : Wave) (x : Deferred) (m : Mach) : Mach :=
  let whole := x.items.any fun i => !i.bad
  let tags := x.items.filter fun i => i.bad && i.kind.follows
  let r := x.items.foldl (fun (r : Retry) i =>
    if !i.bad then { r with slots := r.slots ++ [i] }
    else if i.kind.follows then r
    else match redoItem d w x i r.m with
      | .slot bs m => { r with m := m, slots := r.slots ++ [{ i with slot := bs, bad := false }] }
      | .did m => { r with m := m }
      | .fault f m => { r with m := m, bad := r.bad ++ [({ i with slot := List.replicate 16 0 }, f)] }
      | .wait m => { r with m := m, wait := r.wait ++ [i] }) ⟨m, [], [], []⟩
  let apply := fun (m : Mach) => r.slots.foldl (fun m i => applyItem w x.left x.born i m) m
  let keep := fun (items : List DefItem) (f : Flt) (reported again : Bool) (m : Mach) =>
    m.updWave w.core w.id fun w => { w with deferred := w.deferred ++
      [⟨maskOf (items.map DefItem.lane), f, x.pc, items, x.left, reported, false, again, x.born⟩] }
  let rest := if whole then r.slots else []
  let m := if whole then r.m else apply r.m
  match r.bad, r.wait with
  | [], [] => if whole then apply r.m else m
  | [], ws => keep (rest ++ ws ++ tags) x.flt false true m
  | (i, f) :: bs, ws =>
    let bad := i :: bs.map Prod.fst
    if whole then keep (rest ++ bad ++ ws ++ tags) f true false m
    else
      let m := keep (bad ++ tags) f true false m
      if ws.isEmpty then m else keep ws x.flt false true m

/-- The report of an outstanding operation of a wave arrives; one that `PRETRY` has reissued and that had to wait is tried again. -/
def reportDeferred (d : Dev) (core wave k : Nat) (m : Mach) : Mach :=
  match (m.wave core wave).bind fun w => (w.deferred[k]?).map fun x => (w, x) with
  | none => m
  | some (w, x) =>
    if x.again then
      retryDeferred d w x (m.updWave core wave fun w => { w with deferred := w.deferred.filter fun y => y != x })
    else m.updWave core wave fun w => { w with deferred := updAt w.deferred k fun x => { x with reported := true } }

/-- Disposes of the outstanding operation that a wave's record raised. -/
def finishDeferred (d : Dev) (w : Wave) (again : Bool) (m : Mach) : Mach :=
  match w.deferred.find? Deferred.raised with
  | none => m
  | some x =>
    let m := m.updWave w.core w.id fun w => { w with deferred := w.deferred.filter fun y => !y.raised }
    if again then retryDeferred d w x m else x.items.foldl (fun m i => applyItem w x.left x.born i m) m

/-! Resuming a wave (R48, R155, R339) -/

/-- A wait without some of its lanes. -/
def WaitFor.without (mask : BitVec 64) : WaitFor → WaitFor
  | .barrier b ls => .barrier b (ls.filter fun x => !mask.getLsbD x.1)
  | .waitw d n p reads homes u t k => .waitw d n p (reads.filter fun x => !mask.getLsbD x.1) homes u t k
  | .tile t cup named seen => .tile t cup (named &&& ~~~mask) seen
  | .grow d n ls t o => .grow d n (ls.filter fun l => !mask.getLsbD l) t o
  | x => x

/-- Takes lanes out of the paths of a wave: the results that their windows hold are written (R339). -/
def Wave.freeLanes (w : Wave) (mask : BitVec 64) : Wave :=
  let ps := w.paths ++ w.aside ++ w.resume ++ w.waits.map Waiting.path
  let ends := (ps.map fun p => if (p.mask &&& ~~~mask) = 0 then p.windows
    else p.windows.map fun x => { x with writes := x.writes.filter fun r => mask.getLsbD r.lane && !r.dst.scalar }).flatten
  let keep := fun (xs : List Path) => (xs.map fun p =>
    if (p.mask &&& mask) = 0 then p else p.part (p.mask &&& ~~~mask)).filter fun p => p.mask != 0
  let w := w.land ends
  { w with
    paths := keep w.paths, aside := keep w.aside, resume := keep w.resume
    waits := (w.waits.map fun x => if (x.path.mask &&& mask) = 0 then x
      else ⟨x.path.part (x.path.mask &&& ~~~mask), x.what.without mask⟩).filter fun x => x.path.mask != 0 }

/-- Where the threads of a parked wave resume: the lane, its PC at the park and its PC now (R334, R339). -/
def resumePcs (d : Dev) (m : Mach) (p : Parked) (w : Wave) (again : Bool) : List (Nat × BitVec 64 × BitVec 64) :=
  let fld := fun lo => BitVec.ofNat 64 (recField d m p.asid p.handle lo 64)
  let pcf := fld 288
  let pco := fld 416
  (lanesOf w.lanes.length w.alive).map fun l =>
    let old := match p.pcs.find? fun x => x.1 == l with
      | some x => x.2
      | none => 0
    let new := if (fld 352).getLsbD l && (old == p.pcf || pcf != p.pcf) then
        (if p.back && again && pcf != p.pcf then pcf - 8 else pcf)
      else if (fld 480).getLsbD l && (old == p.pco || pco != p.pco) then pco
      else p.pcOf l
    (l, old, new)

/-- A path that stands after its raising word goes back to it (R306, R340). -/
def Path.stepBack (p : Path) : Path :=
  { p with pc := p.pc - 8, seg := p.seg - 1, fin := none, windows := p.windows.map fun x => { x with left := x.left + 1 } }

/-- Resumes a parked wave from its record (R155, R339): threads with patched PCs begin segments there, the others go on
where they stood, after an acquire at system scope. -/
def resumeWave (d : Dev) (p : Parked) (w : Wave) (again : Bool) (m : Mach) : Mach :=
  let pcs := resumePcs d m p w again
  let moved := pcs.filter fun x => x.2.1 != x.2.2
  let maskf := BitVec.ofNat 64 (recField d m p.asid p.handle 352 64)
  let m := finishDeferred d w again m
  let m := m.updWave w.core w.id fun w =>
    let back := fun (q : Path) => if p.back && again && q.pc == p.pcf && (q.mask &&& ~~~maskf) = 0 then q.stepBack else q
    let w := w.freeLanes (maskOf (moved.map Prod.fst))
    let w := { w with paths := w.paths.map back, resume := w.resume.map back, parked := none }
    moved.foldl (fun w x => w.updLane x.1 fun y =>
      { y with pc := x.2.2, target := false, e := List.replicate 4 0,
               st := match y.st with
                 | .drain c k => .drain c k
                 | _ => .run }) w
  let m := acquireAt w.core .acq .sys m
  match moved.find? fun x => x.2.2.toNat % 8 != 0, m.wave w.core w.id with
  | some x, some w =>
    let at_ := maskOf ((moved.filter fun y => y.2.2 == x.2.2).map Prod.fst)
    parkWave d m w at_ at_ x.2.2 0 at_ ⟨0x50, x.2.2⟩ none
  | _, _ => m

/-! Dispositions (R154, R155, R337, R338) -/

/-- Sets a record disposed: its space returns to the parking area (R154). -/
def dispose (d : Dev) (p : Parked) (m : Mach) : Mach := (setRecState d m p.asid p.handle 2).dropParked p.asid p.handle

/-- `PRESUME` or `PRETRY` of a record (R155). -/
def applyRecord (d : Dev) (p : Parked) (again : Bool) (m : Mach) : Mach :=
  match p.unit with
  | .wave core wave =>
    let m0 := dispose d p m
    match m.wave core wave with
    | some w => resumeWave d p w again m0
    | none => m0
  | .seq core group ticket =>
    let done := BitVec.ofNat 32 (recField d m p.asid p.handle 288 32)
    (dispose d p m).updSeq core group ticket fun q =>
      ({ q with parked := none, again := true,
                mask := done &&& BitVec.ofNat 32 (2 ^ (q.last + 1) - 1) } : KSeq).settle
  | .seg core group cmd no => resumeSeg d core group cmd no p.handle again (dispose d p m)
  | .store tag =>
    if !again then m
    else match m.coh.stores.find? fun s => s.tag == tag with
      | none => dispose d p m
      | some s =>
        let m := dispose d p m
        performTag d s.tag
          { m with coh := { m.coh with stores := updWhere (fun x => x.tag == tag) (fun x => { x with record := none }) m.coh.stores } }

/-- Writes LAUNCH 0 into the reserved slots whose entries a killed wave did not write (R300). -/
def zeroSlots (w : Wave) (m : Mach) : Mach :=
  (w.deferred.map Deferred.items).flatten.foldl (fun m i => match i.kind with
    | .entry pa _ => m.writeBytes none pa (toBytes 8 0)
    | _ => m) m

/-- Ends the threads of a wave as if killed (R30, R155, R343). -/
def killWave (d : Dev) (w : Wave) (m : Mach) : Mach :=
  let ls := lanesOf w.lanes.length w.alive
  let gs := (ls.filterMap fun l => (w.lane l).group).eraseDups
  let m := gs.foldl (fun m g => m.updGroup w.core g fun x => { x with killed := true }) (zeroSlots w m)
  let m := m.updWave w.core w.id fun w => { w with parked := none, deferred := [] }
  reapWaves d (endLanes d w.core w.id ls (killLanes d w.core w.id ls m))

/-- `PKILL` of a record (R155). -/
def killRecord (d : Dev) (p : Parked) (m : Mach) : Mach :=
  match p.unit with
  | .wave core wave => match m.wave core wave with
    | some w => killWave d w (dispose d p m)
    | none => dispose d p m
  | .seq core group ticket => loseSeq d core group ticket m
  | .seg core group cmd _ => killCmd d core group cmd (dispose d p m)
  | .store tag =>
    let m := dispose d p m
    reapWaves d { m with coh := { m.coh with
      stores := m.coh.stores.filter fun s => s.tag != tag
      remote := m.coh.remote.filter fun r => r.store != tag } }

/-- The wave runs an earlier task of the record, from before a `PREDIR` (R338). -/
def staleTask (m : Mach) (w : Wave) (p : Parked) : Bool :=
  match (w.task.bind m.task).bind Task.ftask with
  | some t => w.record == some p.handle && decide (t < p.lastTask)
  | none => false

/-- A disposition of another module's record: that module performs it, or finds the handle bad, a choice (log 100). -/
def remoteDisp (d : Dev) (m : Mach) (io : Io) (h : BitVec 64) (ps : List (Xlat × Nat)) : Eff :=
  let far := noResponse d io.w.asid ps m
  if far.1 then { Eff.ok far.2 [] with defer := stateDefer io ⟨0x30, h⟩ }
  else
    let r := far.2.choose 2
    if r.1 = 1 then Eff.fault r.2 0x02 h else Eff.ok r.2 []

/-- A disposition: the handle check, the release at system scope, and the atomic at the record (R332, R337). -/
def dispWord (i : Instr) (g : Guard) (n : Fin 64) (srcs : List (Opnd × Nat)) (check : Dev → Mach → Io → Option Flt)
    (act : Dev → Io → Parked → Mach → Mach) (s : State) : Host.Outcome State Fault Refusal :=
  runWord { shortInfo i g ((.s n, 64) :: srcs) [] [] with rel := true }
    (fun d m io =>
      if io.act.isEmpty then Eff.ok m []
      else
        let h := io.w.s.getD n.val 0
        match checkHandle d m (coreDie io.w.core) io.w.asid h, check d m io with
        | .bad, _ => Eff.fault m 0x02 h
        | _, some f => Eff.fault m f.code f.addr
        | r, none =>
          if fencePending m io then Eff.wait m
          else
            let m := releaseAt d io.w.core .rel .sys m
            if !releaseDone m io.w.core io.w.id io.p.mask .rel .sys then Eff.wait m
            else match r with
              | .live p => if staleTask m io.w p then Eff.ok m [] else Eff.ok (act d io p m) []
              | .remote ps => remoteDisp d m io h ps
              | _ => Eff.ok m []) s

/-- `PRESUME` (R155, R337). -/
def execPresume (g : Guard) (n : Fin 64) (s : State) : Host.Outcome State Fault Refusal :=
  dispWord (.presume g n) g n [] (fun _ _ _ => none) (fun d _ p m => applyRecord d p false m) s

/-- `PRETRY` (R155, R337). -/
def execPretry (g : Guard) (n : Fin 64) (s : State) : Host.Outcome State Fault Refusal :=
  dispWord (.pretry g n) g n [] (fun _ _ _ => none) (fun d _ p m => applyRecord d p true m) s

/-- `PKILL` (R155, R337). -/
def execPkill (g : Guard) (n : Fin 64) (s : State) : Host.Outcome State Fault Refusal :=
  dispWord (.pkill g n) g n [] (fun _ _ _ => none) (fun d _ p m => killRecord d p m) s

/-- Forwards a record's current task, the newest that names it (R338). -/
def redirect (d : Dev) (p : Parked) (q launch : BitVec 64) (m : Mach) : Mach :=
  let old := m.disp.ftasks.reverse.find? fun t => t.asid == p.asid && t.handle == p.handle
  let t : FTask := match old with
    | some t => { t with queue := q, launch := launch, slot := none, taken := false }
    | none =>
      ⟨0, p.handle, p.asid, q, launch, p.code, recField d m p.asid p.handle 24 3, p.depth, 0, 0, 0, none, false, 0⟩
  let m := withdrawFor d m p.asid p.handle
  let m := { m with disp := { m.disp with ftasks := m.disp.ftasks.filter fun t => !(t.asid == p.asid && t.handle == p.handle) } }
  let m := setRecState d m p.asid p.handle 0
  let m := m.updParked p.asid p.handle fun x => { x with lastTask := m.disp.nextId }
  enqueueFault d m p.asid t

/-- `PREDIR` (R155, R337, R338). A host-produced queue raises 0x02 in the issuing wave (R375). -/
def execPredir (g : Guard) (n : Fin 64) (b c : Opnd) (s : State) : Host.Outcome State Fault Refusal :=
  dispWord (.predir g n b c) g n [(b, 64), (c, 64)]
    (fun d m io =>
      let q := BitVec.ofNat 64 (readUni d m io 64 b)
      let lr := BitVec.ofNat 64 (readUni d m io 64 c)
      if lr.toNat % 128 != 0 then some ⟨0x02, lr⟩
      else match readHdr d m io.w.asid q with
        | some h => if h.host then some ⟨0x02, q⟩ else none
        | none => none)
    (fun d io p m => redirect d p (BitVec.ofNat 64 (readUni d m io 64 b)) (BitVec.ofNat 64 (readUni d m io 64 c)) m) s

/-! Raising faults (R340) -/

/-- A word that parks its wave with a fault of its own, standing after it. -/
def raiseWord (i : Instr) (g : Guard) (srcs : List (Opnd × Nat)) (f : Dev → Mach → Io → Eff) (s : State) :
    Host.Outcome State Fault Refusal :=
  runWord (shortInfo i g srcs [] []) (fun d m io => if io.act.isEmpty then Eff.ok m [] else f d m io) s

/-- `FRAISE` (R340). -/
def execFraise (g : Guard) (prio : Fin 8) (a : Opnd) (s : State) : Host.Outcome State Fault Refusal :=
  raiseWord (.fraise g prio a) g [(a, 64)]
    (fun d m io =>
      let x := readUni d m io 64 a
      if bitsOf x 52 12 != 0 then illegalWord m (.fraise g prio a)
      else { Eff.fault m 0x72 (BitVec.ofNat 64 x) with after := true, prio := some prio.val }) s

/-- `TRAP` (R340). -/
def execTrap (g : Guard) (service : Fin 4096) (a : Opnd) (s : State) : Host.Outcome State Fault Refusal :=
  raiseWord (.trap g service a) g [(a, 64)]
    (fun d m io =>
      let x := readUni d m io 64 a
      { Eff.fault m 0x72 (BitVec.ofNat 64 (bitsOf x 0 52 + 2 ^ 52 * service.val)) with after := true }) s

/-- `BRK` (R340). -/
def execBrk (g : Guard) (tag : BitVec 16) (s : State) : Host.Outcome State Fault Refusal :=
  raiseWord (.brk g tag) g [] (fun _ m _ => { Eff.fault m 0x71 (tag.setWidth 64) with after := true }) s

/-! Markers and residuals (R341, R342) -/

/-- Every runnable thread of the wave stands on a path: a marker there counts. -/
def Wave.allOn (w : Wave) (mask : BitVec 64) : Bool :=
  let held := (w.aside ++ w.waits.map Waiting.path).foldl (fun (x : BitVec 64) p => x ||| p.mask) 0
  (lanesOf w.lanes.length w.alive).all fun l =>
    mask.getLsbD l || held.getLsbD l || (match (w.lane l).st with
      | .run => false
      | _ => true)

/-- `CKPT` (R341): a counting marker, at which the save stage takes the wave. -/
def execCkpt (g : Guard) (n : BitVec 16) (s : State) : Host.Outcome State Fault Refusal :=
  runWord (shortInfo (.ckpt g n) g [] [] [])
    (fun _ m io =>
      if io.act.isEmpty || !io.w.allOn io.p.mask then Eff.ok m []
      else
        Eff.ok (m.updWave io.w.core io.w.id fun w =>
          { w with marker := some n.toNat, ckCount := 0, saved := if m.saves io.w.asid then some (some n.toNat) else w.saved }) []) s

/-- The residual state after one lane's report (R342). -/
def Group.report (g : Group) (x : Word) : Group :=
  let mag := x &&& 0x7FFFFFFF
  if 0x7F800000 < mag.toNat then { g with nanr := true }
  else if g.residM.toNat < mag.toNat then { g with residM := mag }
  else g

/-- `RESID` (R342). -/
def execResid (g : Guard) (a : Opnd) (s : State) : Host.Outcome State Fault Refusal :=
  runWord (shortInfo (.resid g a) g [(a, 32)] [] [])
    (fun d m io =>
      if !io.w.guarded then Eff.ok m []
      else Eff.ok (io.act.foldl (fun m l => match (io.w.lane l).group with
        | some k => m.updGroup io.w.core k fun x => x.report (BitVec.ofNat 32 (readFloat d m io.w l .f32 a))
        | none => m) m) []) s

/-! Special registers (R345, R346) -/

/-- `RDS` (R345). -/
def execRds (g : Guard) (r : Fin 17) (d : Opnd) (s : State) : Host.Outcome State Fault Refusal :=
  let bits := if srBits r ≤ 32 then 32 else 64
  laneWord (shortInfo (.rds g r d) g [] [(d, bits)] []) d bits (fun dv m w l => srVal dv m w l r.val) s

/-- What `WRS` makes of its value: an illegal encoding, a value above the launch priority, or the change of the wave (R346). -/
inductive WrsRes where
  | illegal | denied
  | put (memdef step : BitVec 64) (prio : Option (BitVec 3))
  deriving DecidableEq, Repr

/-- The checks of `WRS` (R51, R175, R346). -/
def wrsCheck (w : Wave) (r : Nat) (x : BitVec 64) : WrsRes :=
  match r with
  | 13 => if memdefOk x then .put x w.step none else .illegal
  | 14 => if x.toNat < 4 then .put w.memdef x none else .illegal
  | 15 => if 8 ≤ x.toNat then .illegal else if w.launchPr.toNat < x.toNat then .denied else .put w.memdef w.step (some (x.setWidth 3))
  | _ => .illegal

/-- The value that a word of the selected path reads uniformly, and its wave, where its guard holds in some lane. -/
def uniNow (g : Guard) (bits : Nat) (a : Opnd) (s : State) : Option (Wave × Nat) :=
  match s.mach.curPath with
  | none => none
  | some (w, p) =>
    let w := (settleWindows w p).1
    match guardLanes w p.mask g with
    | [] => none
    | l :: _ => some (w, readOp s.dev s.mach w l bits a)

/-- `WRS` (R43, R51, R175, R346): 0x50 and 0x51 come ahead of an unallotted operand (R190). -/
def execWrs (g : Guard) (r : Fin 17) (a : Opnd) (s : State) : Host.Outcome State Fault Refusal :=
  let early := (uniNow g 64 a s).map fun x => wrsCheck x.1 r.val (BitVec.ofNat 64 x.2)
  runWord { shortInfo (.wrs g r a) g [(a, 64)] [] [] with
      bad := early == some .illegal, denied := if early = some .denied then some 0 else none }
    (fun d m io =>
      if io.act.isEmpty then Eff.ok m []
      else match wrsCheck io.w r.val (BitVec.ofNat 64 (readUni d m io 64 a)) with
        | .illegal => illegalWord m (.wrs g r a)
        | .denied => Eff.fault m 0x51 0
        | .put md st pr => Eff.ok (m.updWave io.w.core io.w.id fun w =>
            let w := { w with memdef := md, step := st }
            match pr with
            | some x => w.setPrio x
            | none => w) []) s

/-- `ISYNC` (R347). -/
def execIsync (g : Guard) (s : State) : Host.Outcome State Fault Refusal :=
  runWord (shortInfo (.isync g) g [] [] [])
    (fun _ m io => Eff.ok (if io.act.isEmpty then m else m.refetch io.w.core io.w.id) []) s

/-- `NOP` (R347). -/
def execNop (g : Guard) (s : State) : Host.Outcome State Fault Refusal :=
  runWord (shortInfo (.nop g) g [] [] []) (fun _ m _ => Eff.ok m []) s

/-! The snapshot arrival (R348, R444) -/

/-- A wave's arrival: its groups arrive when all their waves have. -/
def arriveCut (d : Dev) (w : Wave) (m : Mach) : Mach :=
  let m := m.updWave w.core w.id fun x => { x with snapped := true }
  let m := m.updSnap w.asid fun x => { x with begun := true }
  let gs := ((lanesOf w.lanes.length w.alive).filterMap fun l => (w.lane l).group).eraseDups
  let m := gs.foldl (fun m g =>
    let all := m.waves.all fun v => v.core != w.core || (v.lanesIn g).isEmpty || v.snapped
    if all then m.updGroup w.core g fun x => { x with snapIn := true } else m) m
  snapRound d w.asid m

/-- The wave's context is not armed for a snapshot (R348). -/
def snapDenied (m : Mach) (w : Wave) : Bool := match m.ctx w.asid with
  | none => true
  | some c => !w.guarded && !c.snap.armed

/-- `SNAP.cut` (R348): 0x51 comes ahead of an unallotted guard (R190). -/
def execSnap (g : Guard) (s : State) : Host.Outcome State Fault Refusal :=
  let early := match s.mach.curPath with
    | some (w, p) => !(guardLanes w p.mask g).isEmpty && snapDenied s.mach w
    | none => false
  runWord { shortInfo (.snap g) g [] [] [] with rel := true, denied := if early then some 0 else none }
    (fun d m io =>
      if io.act.isEmpty then Eff.ok m []
      else if snapDenied m io.w then Eff.fault m 0x51 0
      else if io.w.guarded then Eff.ok (io.act.foldl (fun m l => surrogateConflict m io.w l) m) []
      else if io.w.snapped || fencePending m io then Eff.wait m
      else
        let all := BitVec.allOnes 64
        let m := releaseAt d io.w.core .rel .sys m
        if !releaseDone m io.w.core io.w.id all .rel .sys then Eff.wait m
        else Eff.ok (arriveCut d io.w m) []) s

end Sys2Proof.Machine
end

