-- ==== Sys2Proof/Machine/Cycle.lean ====
section
/-! DEFINITION. The moves of the issue stages: choosing paths and segment contexts, ages, set-aside paths, results, deferred
and store faults, and wave slots (R15, R24 to R28, R44 to R51, R147, R158, R168, R263). -/

namespace Sys2Proof.Machine

/-! Slots (R15, R46, R159) -/

/-- The slots of a core that waves hold. -/
def slotsUsed (m : Mach) (core : Nat) : List Nat :=
  (m.waves.filter fun w => w.core == core).filterMap Wave.slot

/-- A launch record that the stockpot can hold: one group of at most two waves, and at most 128 v registers a thread
(R159). -/
def Task.small (t : Task) : Bool :=
  let size := min (t.field 288 16) (t.field 256 32)
  let waves := waveCount size (16 * 2 ^ t.field 304 2) * (if t.word 1 = 0 then 1 else 2)
  t.groups == 1 && decide (waves ≤ 2) && decide (t.field 312 10 ≤ 128) && decide (t.field 371 10 ≤ 128)

/-- A wave of a handler of depth 1 or more, which may use the stockpot (R159). -/
def mayStock (m : Mach) (w : Wave) : Bool :=
  w.record.isSome && decide (0 < w.depth) && (match w.task.bind m.task with
    | some t => t.small
    | none => false)

/-- Slots open to a wave: 126 and 127 are the stockpot's. -/
def slotList (stock : Bool) : List Nat := List.range (if stock then 128 else 126)

/-- A free slot of a core, on the stage of a partner's slot where there is one (R37). -/
def freeSlot (m : Mach) (core : Nat) (stock : Bool) (mate : Option Nat) : Option Nat :=
  let used := slotsUsed m core
  (slotList stock).find? fun n => !used.contains n && (match mate with
    | some k => k / 32 == n / 32
    | none => true)

/-- The slot that a wave's partner holds. -/
def mateSlot (m : Mach) (w : Wave) : Option Nat := (w.partner.bind (m.wave w.core)).bind Wave.slot

/-! Path choice (R26, R27) -/

/-- The segment address of a path. -/
def Path.start (p : Path) : BitVec 64 := p.pc - BitVec.ofNat 64 (8 * p.seg)

/-- The lanes that stand on some path of the wave. -/
def Wave.onPaths (w : Wave) : BitVec 64 :=
  (w.paths ++ w.aside ++ w.resume ++ w.waits.map Waiting.path).foldl (fun (x : BitVec 64) p => x ||| p.mask) 0

/-- The runnable threads of a wave that no path holds, by address. -/
def Wave.standing (w : Wave) : List Path :=
  let held := w.onPaths
  let ls := (lanesOf w.lanes.length w.alive).filter fun l => (w.lane l).st == .run && !held.getLsbD l
  ((ls.map fun l => (w.lane l).pc).eraseDups).map fun a =>
    let here := ls.filter fun l => (w.lane l).pc == a
    { pc := a, mask := maskOf here, seg := 0, fin := none, windows := [], stall := 0,
      target := here.any fun l => (w.lane l).target }

/-- The paths among which a free position is filled. -/
def Wave.candidates (w : Wave) : List Path :=
  (w.standing ++ w.resume).filter fun p => !(w.paths.any fun q => q.start == p.start)

/-- The age of a waiting address. -/
def Wave.ageOf (w : Wave) (a : BitVec 64) : Nat :=
  match w.ages.find? fun x => x.1 == a with
  | some x => x.2
  | none => 0

/-- An address whose age has reached 64. -/
def Wave.isPromoted (w : Wave) (a : BitVec 64) : Bool := w.promoted.contains a || decide (64 ≤ w.ageOf a)

/-- Threads of a path. -/
def Path.threads (p : Path) : Nat := (lanesOf 64 p.mask).length

/-- The order of path choice: promoted addresses, oldest first, then the greater number of threads; ties to the lower
address. -/
def Wave.prefers (w : Wave) (p q : Path) : Bool :=
  let a := w.isPromoted p.start
  let b := w.isPromoted q.start
  let low := decide (p.start.toNat < q.start.toNat)
  if a != b then a
  else if a then
    (if w.ageOf p.start = w.ageOf q.start then low else decide (w.ageOf q.start < w.ageOf p.start))
  else if p.threads = q.threads then low
  else decide (q.threads < p.threads)

/-- Fills one path position. -/
def Wave.choosePath (w : Wave) : Wave :=
  if 2 ≤ w.paths.length then w
  else match bestOf w.prefers w.candidates with
    | none => w
    | some p =>
      { w with
        paths := w.paths ++ [p]
        resume := w.resume.filter fun q => q != p
        ages := w.ages.filter fun x => x.1 != p.start
        promoted := w.promoted.filter fun a => a != p.start }

/-- Fills the free path positions of a wave. -/
def Wave.choosePaths (w : Wave) : Wave := w.choosePath.choosePath

/-- The groups of a wave's live threads. -/
def Wave.groupsOf (w : Wave) : List Nat :=
  ((lanesOf w.lanes.length w.alive).filterMap fun l => (w.lane l).group).eraseDups

/-- A wave of the same group, parked by its single step with FREEZE set, stops the wave (R51). -/
def stepFrozen (m : Mach) (w : Wave) : Bool :=
  m.waves.any fun v => v.core == w.core && v.id != w.id && v.step.getLsbD 1
    && (match v.parked with
      | some h => (match m.parkedAt v.asid h with
        | some p => p.code == 0x70
        | none => false)
      | none => false)
    && v.groupsOf.any w.groupsOf.contains

/-- The context-save engine has taken the wave (R50, R341): whole or at its marker, or whole because it waits, is set aside,
has parked, or is stopped. -/
def saveTaken (m : Mach) (w : Wave) : Bool :=
  m.saves w.asid
    && (w.saved.isSome || !w.waits.isEmpty || !w.aside.isEmpty || w.parked.isSome || w.ended || (w.stopped && w.paths.isEmpty))

/-- The wave makes path choices. -/
def mayChoose (m : Mach) (w : Wave) : Bool := w.live && !w.stopped && !stepFrozen m w && !saveTaken m w

/-! One cycle (R25, R27, R158) -/

/-- The waiting addresses of a wave grow older by a cycle, that of threads which arrived where a path already issues too. -/
def Wave.aged (w : Wave) : Wave :=
  { w with
    ages := (((w.standing ++ w.resume).map Path.start).eraseDups).map fun a =>
      (a, match w.ages.find? fun x => x.1 == a with
        | some x => x.2 + 1
        | none => 0) }

/-- A cycle of the whole module: time, ages, waits at interlocks, and the budgets of the handlers that hold a slot (R158). -/
def Mach.cycle (clk : Nat) (m : Mach) : Mach :=
  let m := m.tick clk
  let frozen := fun (asid : BitVec 16) => match m.ctx asid with
    | some c => c.frozen
    | none => false
  { m with
    waves := m.waves.map fun (w : Wave) =>
      let w : Wave := { w with aside := w.aside.map fun (p : Path) => { p with retry := false } }
      if w.paths.isEmpty then w
      else { w.aged with paths := w.paths.map fun (p : Path) => if p.stall = 0 then p else { p with stall := p.stall + 1 } }
    disp := { m.disp with tasks := m.disp.tasks.map fun t =>
      let seated := m.waves.any fun w => w.task == some t.id && w.slot.isSome
      if t.budget != 0 && !frozen t.asid && seated then { t with used := t.used + 1 } else t } }

/-- The wave holds a slot of an issue stage. -/
def Wave.onStage (w : Wave) (core stage : Nat) : Bool := w.core == core && (match w.slot with
  | some n => n / 32 == stage
  | none => false)

/-- Distance of a wave's slot behind the slot served last, in the round of a stage. -/
def rrDist (last : Nat) (w : Wave) : Nat := (w.slot.getD 0 + 127 - last) % 128

/-- The slot of the stage that was served last. -/
def lastServed (ws : List Wave) : Nat :=
  match bestOf (fun a b : Wave => decide (b.turn < a.turn)) (ws.filter fun w => w.turn != 0) with
  | some w => w.slot.getD 127
  | none => 127

/-- The order of R25: the higher priority, then the next in the round. -/
def rrBetter (last : Nat) (a b : Wave) : Bool :=
  if a.prio = b.prio then decide (rrDist last a < rrDist last b) else decide (b.prio.toNat < a.prio.toNat)

/-- A stage's free segment contexts take the ready waves of highest priority (R25); `n` are free. -/
def fillContexts (core stage : Nat) : Nat → Mach → Mach
  | 0, m => m
  | n + 1, m =>
    let ws := m.waves.filter fun w => w.onStage core stage
    let ready := ws.filter fun w => w.paths.isEmpty && mayChoose m w && !w.candidates.isEmpty
    match bestOf (rrBetter (lastServed ws)) ready with
    | none => m
    | some w => fillContexts core stage n (m.updWave core w.id Wave.choosePaths)

/-- A path that is not known to wait at an interlock, or that tries its word again: in every eighth cycle of the wait. -/
def Path.canIssue (p : Path) : Bool := p.retry || p.stall % 8 == 0

/-- One cycle of an issue stage: path choices, and the words that the chosen context issues (R25, R26). -/
def issueStage (core stage : Nat) (m : Mach) : Mach :=
  let fill := fun (w : Wave) => if w.onStage core stage && !w.paths.isEmpty && mayChoose m w then w.choosePaths else w
  let m := { m with waves := m.waves.map fill }
  let held := (m.waves.filter fun w => w.onStage core stage && !w.paths.isEmpty).length
  let m := fillContexts core stage (4 - held) m
  let ws := m.waves.filter fun w => w.onStage core stage
  match bestOf (rrBetter (lastServed ws)) (ws.filter fun w => w.live && !saveTaken m w && w.paths.any Path.canIssue) with
  | none => m
  | some w =>
    let m := { m with turnNo := m.turnNo + 1 }
    { (m.updWave core w.id fun w => { w with turn := m.turnNo }) with
      latch := m.latch ++ (w.paths.filter Path.canIssue).map fun p => .path core w.id p.mask }

/-- The event ISSUE_CYCLE (R25). -/
def execIssueCycle (core stage : Nat) (s : State) : Host.Outcome State Fault Refusal :=
  .next (s.withMach fun d m => issueStage core stage (m.cycle d.mgt.clknow.toNat))

/-- The event ADDRESS_PROMOTED (R27). -/
def execAddressPromoted (core wave : Nat) (addr : BitVec 64) (s : State) : Host.Outcome State Fault Refusal :=
  .next (s.withMach fun _ m => m.updWave core wave fun w =>
    if 64 ≤ w.ageOf addr && !w.promoted.contains addr then { w with promoted := w.promoted ++ [addr] } else w)

/-- The event SET_ASIDE (R24): a path that has waited 256 cycles at an interlock leaves its segment context. -/
def execSetAside (core wave path : Nat) (s : State) : Host.Outcome State Fault Refusal :=
  .next (s.withMach fun _ m => m.updWave core wave fun w =>
    match w.paths[path]? with
    | none => w
    | some p =>
      if p.stall < 256 then w
      else { w with paths := w.paths.filter fun q => q.mask != p.mask, aside := w.aside ++ [{ p with stall := 0 }] })

/-- The event INTERLOCK_CLEARED (R24): a path that waits at an interlock may try its word at once, and that of a set-aside one is
tried: the path rejoins path choice where its interlock has cleared. -/
def execInterlockCleared (core wave k : Nat) (s : State) : Host.Outcome State Fault Refusal :=
  .next (s.withMach fun _ m => match m.wave core wave with
    | none => m
    | some w =>
      let waiting := w.paths.filter fun p => !p.canIssue
      match waiting[k]?, w.aside[k - waiting.length]? with
      | some p, _ => m.updPath core wave p.mask fun q => { q with retry := true }
      | none, some p =>
        let tried := updWhere (fun q : Path => q.mask == p.mask) fun q => { q with retry := true }
        let m := m.updWave core wave fun w => { w with aside := tried w.aside }
        { m with latch := m.latch ++ [.probe core wave p.mask] }
      | none, none => m)

/-! Results and reports (R21, R147, R168, R263) -/

/-- The event RESULT_WRITEBACK (R168): the results of the windows that have ended on a path of a wave are written. -/
def execResultWriteback (core wave k : Nat) (s : State) : Host.Outcome State Fault Refusal :=
  .next (s.withMach fun _ m => m.updWave core wave fun w =>
    match (w.paths ++ w.aside ++ w.resume)[k]? with
    | none => w
    | some p =>
      let r := settleWindows w p
      let put := updWhere (fun q : Path => q.mask == p.mask) fun _ => r.2
      { r.1 with paths := put w.paths, aside := put w.aside, resume := put w.resume })

/-- The event DEFERRED_FAULT_REPORT (R263): a report arrives; the path raises the fault at the next word it would issue. -/
def execDeferredFaultReport (core wave k : Nat) (s : State) : Host.Outcome State Fault Refusal :=
  .next (s.withMach fun d m => reportDeferred d core wave k m)

/-- Codes that a store's home may report (R147): 0x02 comes from the host alone. -/
def storeCode (s : Store) (code : Nat) : Bool :=
  [0x10, 0x11, 0x30, 0x31].contains code || (code == 0x02 && isHost s.pa)

/-- The event STORE_FAULT_REPORT (R147). -/
def execStoreFaultReport (k : Nat) (code : BitVec 8) (s : State) : Host.Outcome State Fault Refusal :=
  .next (s.withMach fun d m =>
    match m.coh.stores[k]? with
    | none => m
    | some x => if x.record.isNone && storeCode x code.toNat then parkStore d x code.toNat m else m)

/-! Slots for waves that resume (R46, R47) -/

/-- The wave is ready to resume: its record is disposed of, or it was evicted and a wait of it has ended. -/
def Wave.awaitsSlot (w : Wave) : Bool :=
  w.slot.isNone && w.parked.isNone && !w.ended
    && (!w.evicted || !w.resume.isEmpty || !w.standing.isEmpty || !w.aside.isEmpty || !w.paths.isEmpty)

/-- Every live thread of a resident wave waits in `POLLB` back-off, `WAITW` or `NAP` (R46). -/
def Wave.evictable (w : Wave) : Bool :=
  w.slot.isSome && w.parked.isNone && !w.ended && !w.waits.isEmpty
    && (w.waits.all fun x => match x.what with
      | .waitw .. | .poll _ | .nap _ => true
      | _ => false)
    && (lanesOf w.lanes.length w.alive).all fun l => w.waits.any fun x => x.path.mask.getLsbD l

/-- The wave to evict: of the lowest priority, then the highest slot. -/
def evictBetter (a b : Wave) : Bool :=
  if a.prio = b.prio then decide (b.slot.getD 0 < a.slot.getD 0) else decide (a.prio.toNat < b.prio.toNat)

/-- The core holds registers and threads beside those of its resident waves (R15, R56, R159). -/
def roomFits (m : Mach) (core : Nat) (stock : Bool) (v c sc threads : Nat) : Bool :=
  let lim := if stock then 128 else 126
  (if stock then decide (coreSum m core lim Wave.vTotal + v ≤ growPool + 16384) else decide (vInUse m core + v ≤ growPool))
    && decide (coreSum m core lim (fun w => sumNat (w.lanes.map fun x => x.c.length)) + c ≤ 24576)
    && decide (coreSum m core lim (fun w => w.s.length) + sc ≤ 7168 + (if stock then 1024 else 0))
    && decide (coreSum m core lim Wave.threads + threads ≤ 4096)

/-- The core pool holds the registers of a wave that takes a slot. -/
def poolFits (m : Mach) (w : Wave) : Bool :=
  roomFits m w.core (mayStock m w) w.vTotal (sumNat (w.lanes.map fun x => x.c.length)) w.s.length w.threads

/-- A wave takes a slot. -/
def takeSlot (w : Wave) (n : Nat) (m : Mach) : Mach :=
  m.updWave w.core w.id fun w => { w with slot := some n, evicted := false }

/-- A wave that resumes takes a free slot of its core that its partner's stage allows, where the core holds its registers. -/
def seatFree (w : Wave) (m : Mach) : Option Mach :=
  match freeSlot m w.core (mayStock m w) (mateSlot m w) with
  | some n => if poolFits m w then some (takeSlot w n m) else none
  | none => none

/-- A resident wave goes out through the context-save engine (R46). -/
def evict (v : Wave) (m : Mach) : Mach := m.updWave v.core v.id fun v => { v with slot := none, evicted := true }

/-- The event WAVE_RESUME (R46): a free slot, or that of the first wave in the order of eviction whose going out makes room.
Where none does, as where the core lacks registers, the wave waits for the next slot that is freed (log 102). -/
def execWaveResume (core wave : Nat) (s : State) : Host.Outcome State Fault Refusal :=
  .next (s.withMach fun _ m =>
    match m.wave core wave with
    | none => m
    | some w =>
      if !w.awaitsSlot then m
      else match seatFree w m with
        | some m => m
        | none =>
          let out := m.waves.filter fun v => v.core == core && v.id != wave && v.evictable && (seatFree w (evict v m)).isSome
          ((bestOf evictBetter out).bind fun v => seatFree w (evict v m)).getD m)

end Sys2Proof.Machine
end

