-- ==== Sys2Proof/Machine/Homes.lean ====
section
/-! DEFINITION. The moves of the homes, the dies and the fabric: stores, loads and atomics at their homes, updates between
dies, the fence arbiter, replicated pages, links, page walks and transfer errors (R82, R87 to R107, R389 to R399, R454 to
R457). -/

namespace Sys2Proof.Machine

/-! Stores and atomics in flight (R92, R106, R107) -/

/-- The page group of a store's home, if the page is replicated. -/
def storeGroup (d : Dev) (m : Mach) (s : Store) : Option Nat :=
  match storeHome d m s with
  | .ok x => match x.home with
    | .rep g => some g
    | _ => none
  | .error _ => none

/-- Performs the `k`-th store in flight where a test selects it. -/
def homeMove (k : Nat) (f : Dev → Mach → Store → Bool) (s : State) : State :=
  s.withMach fun d m => match m.coh.stores[k]? with
    | none => m
    | some x => if m.storeClear x && f d m x then reapWaves d (performStore d x m) else m

/-- The event STORE_AT_HOME (R89, R92). -/
def execStoreAtHome (k : Nat) (s : State) : Host.Outcome State Fault Refusal :=
  .next (homeMove k (fun d m x => x.op == .write && (storeGroup d m x).isNone) s)

/-- The event ATOMIC_AT_HOME (R107): an atomic without return. -/
def execAtomicAtHome (k : Nat) (s : State) : Host.Outcome State Fault Refusal :=
  .next (homeMove k (fun d m x => x.op != .write && (storeGroup d m x).isNone) s)

/-- The event SEQUENCER_STORE (R106). -/
def execSequencerStore (k : Nat) (s : State) : Host.Outcome State Fault Refusal :=
  .next (homeMove k (fun d m x => (storeGroup d m x).isSome) s)

/-! Errors of HBM (R454 to R457) -/

/-- Retires the 4 KiB frame of an address: in the list, or poisoned until the next start when it is full (R457). The
ACTION of its record comes with it. -/
def retireFrame (pa : Nat) (s : State) : Nat × State :=
  let f := pa / 4096
  if s.dev.srv.retired.contains f then (3, s)
  else if s.dev.srv.retired.length < 4096 then
    (3, { s with dev := { s.dev with srv := { s.dev.srv with retired := s.dev.srv.retired ++ [f] } } })
  else (2, s.withMach fun _ m => { m with poisoned := if m.poisoned.contains f then m.poisoned else m.poisoned ++ [f] })

/-- An error record of HBM, with the frame retired where the error is not corrected. -/
def hbmError (source severity core pa code retries synd : Nat) (asid : BitVec 16) (s : State) : State :=
  if severity < 2 then
    s.withMach fun d m => writeErr d ⟨source, severity, if severity = 0 then 0 else 1, dieOf pa, stackOf pa, pa, asid, code,
      retries, synd⟩ m
  else
    let r := retireFrame pa s
    r.2.withMach fun d m =>
      let m := writeErr d ⟨source, severity, r.1, dieOf pa, stackOf pa, pa, asid, code, retries, synd⟩ m
      { m with failing := m.failing ++ [(core, code, pa)] }

/-- The context of the waves of a core, for an error record. -/
def coreAsid (m : Mach) (core : Nat) : BitVec 16 :=
  match m.waves.find? fun w => w.core == core && w.slot.isSome with
  | some w => w.asid
  | none => 0

/-- The event BUS_PARITY_RETRY (R456): `fails` transfers failed; the fifth failure is that of the fourth retry. -/
def execBusParityRetry (core wave addr : Nat) (groups : BitVec 16) (fails : Fin 6) (s : State) :
    Host.Outcome State Fault Refusal :=
  let asid := match s.mach.wave core wave with
    | some w => w.asid
    | none => 0
  if fails.val = 0 || hbmBytes ≤ addr then .next s
  else if fails.val < 5 then .next (hbmError 1 1 core addr 0 fails.val groups.toNat asid s)
  else .next (hbmError 1 2 core addr 0x11 4 groups.toNat asid s)

/-! Loads at the home (R91) -/

/-- A home serves a word to a core (R91): from an owner, to a core of the home's die, or from the I/O die at once, and to
another die as a value in flight (R102). The core keeps the word where it may be cached. -/
def serveWord (d : Dev) (core w : Nat) (m : Mach) : Mach :=
  if m.coh.lost w then m
  else
    let die := coreDie core
    let src := homeDie w
    if src = die || 4 ≤ src || (m.coh.ownerCore w).isSome then
      let m := m.receiveWords core [w]
      fillCopy d core (coreAsid m core) w m
    else { m with coh := { m.coh with
      values := m.coh.values ++ [⟨src, die, .fill w (m.homeValue w), m.coh.known src⟩] } }

/-- The owner's copy of a word fails ECC uncorrectably: the word is lost, and the owner's die writes an error record (R93). -/
def eccLost (d : Dev) (k w : Nat) (m : Mach) : Mach :=
  let m := writeErr d ⟨2, 2, 0, coreDie k, k, 8 * w, coreAsid m k, 0x40, 0, 0⟩ m
  { m with coh := (m.coh.vacate w true).dropL1 k w }

/-- A slice evicts the L2 line of a word: the registered words of the line are written back first (R90). -/
def evictLine (w : Nat) (m : Mach) : Mach :=
  m.writeBackAll (((List.range 8).map fun i => w / 8 * 8 + i).filter fun v => (m.coh.ownerCore v).isSome) false

/-- The event LOAD_AT_HOME (R90, R91, R93, R456): a word is served to a core. Whether the array's ECC corrects the read of an
unregistered word, or cannot, whether the owner's copy of a registered one fails ECC, and whether the slice evicts the line
first, is a choice (log 3). -/
def execLoadAtHome (core word : Nat) (s : State) : Host.Outcome State Fault Refusal :=
  let pa := 8 * word
  let (e, m) := s.mach.choose 4
  let s := { s with mach := m }
  let serve := fun (s : State) => s.withMach fun d m => serveWord d core word m
  match m.coh.ownerCore word with
  | some k =>
    if e = 1 then .next (s.withMach fun d m => eccLost d k word m)
    else .next (serve (if e = 2 then s.withMach fun _ m => evictLine word m else s))
  | none =>
    if hbmBytes ≤ pa || e = 0 || m.coh.lost word then .next (serve s)
    else if e = 1 then
      let (b, m) := m.choose 256
      .next (serve (hbmError 0 0 core pa 0 0 b (coreAsid m core) { s with mach := m }))
    else if e = 2 then .next (serve (s.withMach fun _ m => evictLine word m))
    else .next (hbmError 0 2 core pa 0x10 0 0 (coreAsid m core) s)

/-- The event L1_WRITEBACK (R91): a core evicts a word. -/
def execL1Writeback (core word : Nat) (s : State) : Host.Outcome State Fault Refusal :=
  .next (s.withMach fun _ m =>
    if m.coh.ownerCore word = some core then m.writeBack word false
    else { m with coh := m.coh.dropL1 core word })

/-! Vector clocks (R101 to R103) -/

/-- The event UPDATE_RECEIVE (R102). -/
def execUpdateReceive (die k : Nat) (s : State) : Host.Outcome State Fault Refusal :=
  .next (s.withMach fun _ m => match (m.coh.updates.filter fun u => u.dst == die)[k]? with
    | none => m
    | some u => if m.coh.updateReady u then { m with coh := m.coh.applyUpdate u } else m)

/-- A die keeps a word it has received as its copy, where the home still holds that value unregistered. -/
def Mach.keepCopy (m : Mach) (die w : Nat) (x : BitVec 64) : Mach :=
  if m.coh.state w = .unreg && m.mem.word w == x && !m.coh.lost w then
    let rest := m.coh.copies.filter fun c => !(c.die == die && c.word == w)
    { m with coh := { m.coh with copies := ⟨die, w, x, m.coh.gen, false⟩ :: rest } }
  else m

/-- A die receives a value when it has applied every write that the value's stamp counts, and then knows what the sender
knew (R102). -/
def receiveValue (v : DieValue) (m : Mach) : Mach :=
  let c := m.coh.absorb v.dst v.stamp
  let m := { m with coh := { c with values := c.values.erase v } }
  match v.what with
  | .fill w x => m.keepCopy v.dst w x
  | .ack _ _ _ => m

/-- The event VALUE_RECEIVE (R102). -/
def execValueReceive (die k : Nat) (s : State) : Host.Outcome State Fault Refusal :=
  .next (s.withMach fun d m => match (m.coh.values.filter fun v => v.dst == die)[k]? with
    | none => m
    | some v => if vecLe v.stamp (m.coh.appliedV.getD die []) then reapWaves d (receiveValue v m) else m)

/-- The event CLOCK_REBASE (R103). -/
def execClockRebase (s : State) : Host.Outcome State Fault Refusal := .next (s.withMach fun _ m => m.rebase)

/-- The event RETENTION_SLEEP_ENTRY (R103): a line writes its registered words back, and the die's copies in it sleep with
the generation of their fill. -/
def execRetentionSleepEntry (die word : Nat) (s : State) : Host.Outcome State Fault Refusal :=
  .next (s.withMach fun _ m =>
    let line := (List.range 8).map fun i => word / 8 * 8 + i
    let m := if wordDie word = die then m.writeBackAll (line.filter fun w => (m.coh.ownerCore w).isSome) false else m
    let here := fun (c : DieCopy) => c.die == die && c.word / 8 == word / 8
    let copies := updWhere here (fun (c : DieCopy) => { c with asleep := true }) m.coh.copies
    { m with coh := { m.coh with copies := copies } })

/-- The event LINE_WAKE (R103): a copy of another generation is invalidated. -/
def execLineWake (die word : Nat) (s : State) : Host.Outcome State Fault Refusal :=
  .next (s.withMach fun _ m =>
    let here := fun (c : DieCopy) => c.die == die && c.word / 8 == word / 8 && c.asleep
    let kept := m.coh.copies.filter fun c => !(here c && c.gen != m.coh.gen)
    { m with coh := { m.coh with copies := updWhere here (fun (c : DieCopy) => { c with asleep := false }) kept } })

/-- A fence completes: its acquire, and its memory words may issue; with the code bit the words that its wave has fetched
ahead are dropped (R272, R359). -/
def finishFence (f : Fence) (m : Mach) : Mach :=
  let m := acquireAt f.core f.order f.scope m
  let m := if f.code && acquires f.order then m.refetch f.core f.wave else m
  { m with coh := { m.coh with fences := m.coh.fences.erase f } }

/-- The event FENCE_ARBITER (R95, R101): the release of a fence, or of an access that waits for its order, is performed; a
sequentially consistent one takes its place in the arbiter's order with the counts of writes issued. A fence completes once
its die has applied them; a waiting access goes on when its word is tried again. -/
def execFenceArbiter (k : Nat) (s : State) : Host.Outcome State Fault Refusal :=
  .next (s.withMach fun d m => match m.coh.fences[k]? with
    | none => m
    | some f =>
      if 256 ≤ f.core then m else
      let m := releaseAt d f.core f.order f.scope m
      if !releaseDone m f.core f.wave f.mask f.order f.scope then m
      else if f.order == .sc && arbited f.scope then
        let counts := f.counts.getD m.coh.issued
        let g := { f with counts := some counts }
        let m := { m with coh := { m.coh with fences := updAt m.coh.fences k fun _ => g } }
        if f.pc.isNone && m.coh.caughtUp f.core counts then finishFence g m else m
      else if f.pc.isNone then finishFence f m
      else m)

/-! Replicated pages (R106, R390, R391) -/

/-- The modules that hold a replica of a page group and have not been removed. -/
def repMembers (d : Dev) (m : Mach) (g : Nat) : List Nat :=
  let e := repEntry d m g
  if !repClean e then []
  else (((List.range 256).filter fun i => bitOf e (256 + i)).map fun i => d.att.modid.toNat / 256 * 256 + i).filter
    fun x => !m.coh.repOut.contains (g, x)

/-- Acknowledges the stores of a page group that every member has applied. -/
def settleReps (d : Dev) (g : Nat) (m : Mach) : Mach :=
  let ms := repMembers d m g
  let done := fun (r : RepStore) => r.group == g && ms.all r.acked.contains
  if m.coh.reps.any done then
    reapWaves d (repPend d g { m with coh := { m.coh with reps := m.coh.reps.filter fun r => !done r } })
  else m

/-- The event REPLICA_APPLY (R106): a member applies a numbered store, in the group's order. -/
def execReplicaApply (member k : Nat) (s : State) : Host.Outcome State Fault Refusal :=
  .next (s.withMach fun d m => match m.coh.reps[k]? with
    | none => m
    | some r =>
      let first := (m.coh.reps.take k).all fun x => x.group != r.group || x.acked.contains member
      if !first || r.acked.contains member || !(repMembers d m r.group).contains member then m
      else
        let m := { m with coh := { m.coh with reps := updAt m.coh.reps k fun x => { x with acked := x.acked ++ [member] } } }
        settleReps d r.group (if member = d.att.modid.toNat then m.devWrite r.pa r.data else m))

/-- The event REPLICA_MEMBER_TIMEOUT (R391): a member that has not applied a store is removed. -/
def execReplicaMemberTimeout (group member : Nat) (s : State) : Host.Outcome State Fault Refusal :=
  .next (s.withMach fun d m =>
    let late := m.coh.reps.any fun r => r.group == group && !r.acked.contains member
    if !late || !(repMembers d m group).contains member then m
    else
      let m := writeErr d ⟨7, 2, 5, 0, group, member, 0, 0, 0, 0⟩ m
      settleReps d group { m with coh := { m.coh with repOut := m.coh.repOut ++ [(group, member)] } })

/-! Links (R82, R389) -/

/-- The link timeout of a context in microseconds (R394). -/
def linkTimeout (m : Mach) (asid : BitVec 16) : Nat :=
  match m.ctx asid with
  | some c => if c.linkto = 0 then 50 else c.linkto
  | none => 50

/-- The event LINK_TIMEOUT (R82): a store to another module, or to the host, gets no response in time. -/
def execLinkTimeout (k : Nat) (s : State) : Host.Outcome State Fault Refusal :=
  .next (s.withMach fun d m => match m.coh.remote[k]? with
    | none => m
    | some r =>
      if m.usec < r.sent + linkTimeout m r.asid then m
      else
        let m1 := { m with coh := { m.coh with remote := m.coh.remote.erase r } }
        match m.coh.stores.find? fun x => x.tag == r.store && x.record.isNone with
        | none => m1
        | some x =>
          let rec_ : ErrRec := match r.module with
            | some mod => ⟨4, 2, 0, 0, 0, mod, r.asid, 0x30, 0, 0⟩
            | none => ⟨5, 2, 0, 0, 0, x.pa - hostAddr 0, r.asid, 0x30, 0, 0⟩
          parkStore d x 0x30 (writeErr d rec_ m1))

/-- A port that loses its link: each access that left through it, as the choices say, is sent once more. -/
def resendAll (usec : Nat) : List RemoteAcc → Mach → List RemoteAcc × Mach
  | [], m => ([], m)
  | r :: rs, m =>
    let (mine, m) := if r.module.isSome && !r.again then m.choose 2 else (0, m)
    let rest := resendAll usec rs m
    ((if mine = 1 then { r with sent := usec, again := true } else r) :: rest.1, rest.2)

/-- The bit of a fabric port. -/
def portBit (port : Nat) : BitVec 12 := BitVec.ofNat 12 (2 ^ port)

/-- The event PORT_LINK_DOWN (R389). -/
def execPortLinkDown (port : Nat) (s : State) : Host.Outcome State Fault Refusal :=
  if (s.dev.att.linkup &&& portBit port) = 0 then .next s
  else
    let dev := { s.dev with att := { s.dev.att with linkup := s.dev.att.linkup &&& ~~~portBit port } }
    let m := writeErr dev ⟨4, 1, 1, 0, port, 0, 0, 0, 1, 0⟩ s.mach
    let r := resendAll m.usec m.coh.remote m
    .next { s with dev := dev, mach := { r.2 with coh := { r.2.coh with remote := r.1 } } }

/-- The event PORT_LINK_UP (R371, R389): the link trains, and reaches every module, or all but one: a choice (log 104). -/
def execPortLinkUp (port : Nat) (s : State) : Host.Outcome State Fault Refusal :=
  let r := s.mach.choose 16385
  let cut := s.dev.att.cut.filter fun x => x.1 != port
  .next { s with
    mach := r.2
    dev := { s.dev with att := { s.dev.att with
      linkup := s.dev.att.linkup ||| (s.dev.att.porten &&& portBit port)
      cut := if r.1 < 16384 then cut ++ [(port, r.1)] else cut } } }

/-! Page walks (R396, R399) -/

/-- The event PAGE_WALK: a walk completes; a leaf enters the TLB of the die, which holds at most 8,192 entries. -/
def execPageWalk (die : Nat) (asid : BitVec 16) (va : BitVec 64) (s : State) : Host.Outcome State Fault Refusal :=
  .next (s.withMach fun _ m => match m.ctx asid with
    | none => m
    | some c =>
      let page := va.toNat / 4096
      if 2 ^ 57 ≤ va.toNat || m.coh.tlb.any fun t => t.die == die && t.asid == asid && t.page == page then m
      else match m.walk c.ptroot.toNat va.toNat 5 with
        | .error _ => m
        | .ok (e, lv) =>
          let mine := m.coh.tlb.filter fun t => t.die == die
          let others := m.coh.tlb.filter fun t => t.die != die
          { m with coh := { m.coh with tlb := ⟨die, asid, page, BitVec.ofNat 64 e, lv⟩ :: mine.take 8191 ++ others } })

end Sys2Proof.Machine
end

