-- ==== Sys2Proof/Machine/Tasks.lean ====
section
/-! DEFINITION. Dispatch: the queue table, launch records, the turns of the dispatch firmware, binding and taking groups, the
end of a task, budgets, deadlines and the stockpot (R153 to R159, R349, R350, R373 to R388). -/

namespace Sys2Proof.Machine

/-! The queue table (R377, R378) -/

/-- The entries of the queue table that some byte of memory stands in, with the queues known. -/
def queueNumbers (d : Dev) (m : Mach) : List Nat :=
  let base := d.att.qtbase.toNat
  let inside := fun (a : Nat) => if base ≤ a && a < base + 524288 then some ((a - base) / 32) else none
  (m.disp.queues.map QReg.n ++ m.mem.filterMap (fun c => inside c.1)
    ++ m.coh.words.filterMap fun h => inside (8 * h.word)).eraseDups

/-- The context of an ASID is resident (R394). -/
def resident (m : Mach) (asid : BitVec 16) : Bool := match m.ctx asid with
  | some c => c.cstate == .resident
  | none => false

/-- QSTAT of a queue as its header stands (R378). -/
def queueStat (d : Dev) (m : Mach) (q : QReg) : Nat :=
  if !resident m q.asid then 4
  else match readHdr d m q.asid q.hdr with
    | none => 3
    | some h => if h.bad || h.kind != 0 || !h.clean then 1 else if h.cap < (q.tail + 2 ^ 32 - h.head) % 2 ^ 32 then 2 else 0

/-- Applies entry `n` of the queue table, if it has changed. -/
def applyEntry (d : Dev) (n : Nat) (m : Mach) : Mach :=
  let e := queueEntry d m n
  let old := m.disp.queues.find? fun q => q.n == n
  let asid := BitVec.ofNat 16 (bitsOf e 64 16)
  let hdr := BitVec.ofNat 64 (bitsOf e 0 64)
  let tail := match readHdr d m asid hdr with
    | some h => h.tail
    | none => 0
  let q : QReg := ⟨n, hdr, asid, bitOf e 81, bitOf e 82, bitsOf e 128 8, tail, [(tail, tail, m.usec)]⟩
  let same := match old with
    | some o => decide (o = { q with tail := o.tail, seen := o.seen })
    | none => false
  let rest := m.disp.queues.filter fun x => x.n != n
  if !bitOf e 80 then { m with disp := { m.disp with queues := rest } }
  else if same then m
  else
    let bad := bitsOf e 83 45 != 0 || bitsOf e 136 120 != 0
    let m := { m with disp := { m.disp with queues := rest ++ [{ q with qstat := 0 }] } }
    setQstat d n (if bad then 5 else queueStat d m q) m

/-- The event QTSYNC (R378). -/
def execQtsync (s : State) : Host.Outcome State Fault Refusal :=
  .next (s.withMach fun d m =>
    if d.att.attached then (queueNumbers d m).foldl (fun m n => applyEntry d n m) m else m)

/-- The event TAIL_CHANGE (R377): dispatch notices the TAIL of queue `n`. -/
def execTailChange (n : Nat) (s : State) : Host.Outcome State Fault Refusal :=
  .next (s.withMach fun d m =>
    match m.disp.queues.find? fun q => q.n == n with
    | none => m
    | some q => match readHdr d m q.asid q.hdr with
      | none => if q.qstat = 0 then setQstat d n 3 m else m
      | some h =>
        if q.qstat != 0 || h.tail = q.tail then m
        else
          let put := fun (x : QReg) => { x with tail := h.tail, seen := x.seen ++ [(x.tail, h.tail, m.usec)] }
          { m with disp := { m.disp with queues := updWhere (fun (x : QReg) => x.n == n) put m.disp.queues } })

/-- When dispatch noticed the entry at an index. -/
def QReg.seenAt (q : QReg) (idx now : Nat) : Nat :=
  match q.seen.find? fun e => decide ((idx + 2 ^ 32 - e.1) % 2 ^ 32 < (e.2.1 + 2 ^ 32 - e.1) % 2 ^ 32) with
  | some e => e.2.2
  | none => now

/-! Launch records (R349, R350, R379, R381) -/

/-- A field of a launch record: `n` bits from bit `lo`. -/
def lrField (lr : List (BitVec 64)) (lo n : Nat) : Nat := bitsOf (ofWords lr) lo n

/-- Lane width of a launch record. -/
def lrWidth (lr : List (BitVec 64)) : Nat := 16 * 2 ^ lrField lr 304 2

/-- Threads of the largest group. -/
def lrSize (lr : List (BitVec 64)) : Nat := min (lrField lr 288 16) (lrField lr 256 32)

/-- The record names a shadow slice (R37). -/
def lrShadow (lr : List (BitVec 64)) : Bool := lrField lr 64 64 != 0

/-- Waves of a group of `n` threads, shadow waves included. -/
def lrWaves (lr : List (BitVec 64)) (n : Nat) : Nat := waveCount n (lrWidth lr) * (if lrShadow lr then 2 else 1)

/-- The allotments of a group. -/
def lrAlloc (lr : List (BitVec 64)) : GDesc :=
  { spad := lrField lr 355 5, ostore := lrField lr 360 5, bars := lrField lr 343 5, tiles := lrField lr 348 7,
    acc := lrField lr 338 5, cring := (ringEntries (lrField lr 365 3)).getD 0, lring := (ringEntries (lrField lr 368 3)).getD 0 }

/-- A field outside its range, or a reserved field not zero (R379). -/
def lrOut (lr : List (BitVec 64)) : Bool :=
  let f := lrField lr
  f 0 3 != 0 || f 64 3 != 0 || f 256 32 == 0 || decide (2 ^ 31 < f 256 32) || f 288 16 == 0 || decide (4096 < f 288 16)
    || f 304 2 == 3 || f 310 2 != 0 || decide (576 < f 312 10) || f 312 3 != 0 || decide (48 < f 322 6) || f 322 2 != 0
    || decide (64 < f 328 7) || f 328 3 != 0 || decide (16 < f 338 5) || f 338 1 != 0 || decide (16 < f 343 5)
    || decide (64 < f 348 7) || decide (16 < f 355 5) || decide (16 < f 360 5) || (ringEntries (f 365 3)).isNone
    || (ringEntries (f 368 3)).isNone || decide (576 < f 371 10) || f 371 3 != 0 || f 381 3 != 0 || f 512 6 != 0
    || f 576 7 != 0 || f 672 352 != 0

/-- Reason 1 of R381. -/
def lrMalformed (lr : List (BitVec 64)) : Bool :=
  let f := lrField lr
  lrOut lr || (!lrShadow lr && f 371 10 != 0)
    || decide ((if lrShadow lr then 64 else 128) < waveCount (f 288 16) (lrWidth lr))
    || decide (32768 * f 355 5 < 32 * ((lrAlloc lr).cring + (lrAlloc lr).lring))
    || (f 309 1 == 0 && (f 480 32 != 0 || f 576 64 != 0 || f 640 32 != 0))

/-- A limit of a floor kernel is exceeded (R349). -/
def lrAboveFloor (lr : List (BitVec 64)) : Bool :=
  let f := lrField lr
  f 304 2 == 0 || decide (1024 < f 288 16) || decide (128 < f 312 10) || decide (128 < f 371 10) || decide (16 < f 322 6) || decide (32 < f 328 7)
    || decide (2 < f 338 5) || decide (8 < f 343 5) || decide (16 < f 348 7) || decide (3 < f 355 5) || decide (4 < f 360 5)
    || decide (3 < f 365 3) || decide (3 < f 368 3)

/-- Reason 2 of R381. -/
def lrClassBad (lr : List (BitVec 64)) : Bool :=
  let c := lrField lr 384 16
  if c = 0 then lrAboveFloor lr else c / 256 != 0x0A || decide (0x40 < c % 256)

/-- Reason 4 of R381: more than an idle core holds for ordinary work. -/
def lrTooLarge (lr : List (BitVec 64)) : Bool :=
  let f := lrField lr
  let n := lrSize lr
  let twice := if lrShadow lr then 2 else 1
  decide (126 < lrWaves lr n) || decide (4096 < n * twice) || decide (196608 - 16384 < n * (f 312 10 + f 371 10))
    || decide (24576 < n * twice * f 322 6) || decide (8192 - 1024 < lrWaves lr n * f 328 7)

/-- The first of reasons 1 to 4 that holds of a record read for a context; 0 for none. -/
def lrReason (m : Mach) (asid : BitVec 16) (lr : List (BitVec 64)) : Nat :=
  if lrMalformed lr then 1
  else if lrClassBad lr then 2
  else if lrField lr 400 16 != asid.toNat || !resident m asid then 3
  else if lrTooLarge lr then 4
  else 0

/-- The reason for which the record at an address is refused under reasons 1 to 5; 0 for none. -/
def recordReason (d : Dev) (m : Mach) (asid : BitVec 16) (addr : BitVec 64) : Nat :=
  if addr.toNat % 128 != 0 then 1
  else match readVaWords d m asid addr 16 with
    | none => 5
    | some lr =>
      let r := lrReason m asid lr
      if r != 0 then r
      else if lr.getD 8 0 = 0 then 0
      else match readVa d m asid (lr.getD 8 0) 64 true with
        | .ok _ => 0
        | .error _ => 5

/-- Reason 6 of R381. -/
def guardedBad (d : Dev) (m : Mach) (asid : BitVec 16) (lr : List (BitVec 64)) : Bool :=
  if lrField lr 309 1 = 0 then false
  else
    let exact_ := lr.getD 9 0
    let x := (readVaWords d m asid exact_ 16).getD []
    recordReason d m asid exact_ != 0 || lrField x 309 1 == 1 || lrField x 256 50 != lrField lr 256 50
      || lrField lr 256 32 % lrField lr 288 16 != 0
      || lrField lr 640 16 * lrField lr 656 16 != lrField lr 256 32 / lrField lr 288 16

/-- The reason for which dispatch refuses a task; 0 for none (R381). -/
def taskReason (d : Dev) (m : Mach) (asid : BitVec 16) (addr : BitVec 64) : Nat :=
  let r := recordReason d m asid addr
  if r != 0 then r else if guardedBad d m asid ((readVaWords d m asid addr 16).getD []) then 6 else 0

/-- Counts a refusal in the launch status block of a record, where that can be read (R381, R382). -/
def countStatus (d : Dev) (asid : BitVec 16) (addr : BitVec 64) (reason : Nat) (m : Mach) : Mach :=
  match readVaWords d m asid addr 16 with
  | none => m
  | some lr =>
    let st := lr.getD 8 0
    if st = 0 || st.toNat % 64 != 0 then m
    else match readVa d m asid st 64 true with
      | .error _ => m
      | .ok _ =>
        let m := addStatus d asid st 8 m
        (writeVa d m asid (st + 12) (toBytes 1 reason) true).getD m

/-- Counts a refusal in the queue's header, and in the launch status block. -/
def countRefusal (d : Dev) (q : QReg) (addr : BitVec 64) (reason : Nat) (m : Mach) : Mach :=
  let put := fun (a : BitVec 64) (n v : Nat) (m : Mach) => (writeVa d m q.asid a (toBytes n v) true).getD m
  let cnt := match readVa d m q.asid (q.hdr + 24) 2 true with
    | .ok bs => min 0xFFFF (ofBytes bs + 1)
    | .error _ => 0
  countStatus d q.asid addr reason (put (q.hdr + 26) 1 reason (put (q.hdr + 24) 2 cnt m))

/-! Turns (R376, R383) -/

/-- A head entry: its queue, its index, LAUNCH and the other words, and the level it gives its queue. -/
structure HeadEnt where
  q     : QReg
  idx   : Nat
  entry : List (BitVec 64)
  level : Nat
  deriving DecidableEq, Repr

/-- The fault task whose entry stands at an index of a queue. -/
def ftaskAt (m : Mach) (q : QReg) (idx : Nat) : Option FTask :=
  m.disp.ftasks.find? fun t => t.asid == q.asid && t.queue == q.hdr && t.slot == some idx && !t.taken

/-- Advances HEAD of a queue past an index. -/
def advanceHead (d : Dev) (q : QReg) (idx : Nat) (m : Mach) : Mach := setHdr d m q.asid q.hdr 0 ((idx + 1) % 2 ^ 32)

/-- Looks at the head of an eligible queue: entries with LAUNCH 0 are discarded, and those whose record cannot be read are
refused, at once. -/
def cleanHead (d : Dev) (q : QReg) : Nat → Mach → Mach × Option HeadEnt
  | 0, m => (m, none)
  | n + 1, m =>
    let st := queueStat d m q
    if st = 4 then (m, none)
    else if st != 0 then (setQstat d q.n st m, none)
    else match readHdr d m q.asid q.hdr with
      | none => (m, none)
      | some h =>
        if h.head = q.tail then (m, none)
        else
          let va := h.slotVa h.head
          match translateRange d m 0 q.asid va 32 .r true, readVaWords d m q.asid va 4 with
          | .ok ps, some e =>
            if slotOpen m (firstPa ps) then (m, none)
            else if e.getD 0 0 = 0 then
              let gone := fun (t : FTask) => t.asid == q.asid && t.queue == q.hdr && t.slot == some h.head
              cleanHead d q n (advanceHead d q h.head { m with disp := { m.disp with
                ftasks := m.disp.ftasks.filter fun t => !gone t || t.taken } })
            else match readVaWords d m q.asid (e.getD 0 0) 16 with
              | none => cleanHead d q n (advanceHead d q h.head (countRefusal d q (e.getD 0 0) 5 m))
              | some lr =>
                let level := if q.faultq || (ftaskAt m q h.head).isSome then bitsOf (e.getD 2 0).toNat 8 3
                  else lrField lr 306 3
                (m, some ⟨q, h.head, e, level⟩)
          | _, _ => (setQstat d q.n 3 m, none)

/-- The heads of the eligible queues. -/
def heads (d : Dev) (m : Mach) : Mach × List HeadEnt :=
  (m.disp.queues.filter fun q => q.qstat == 0).foldl (fun r q =>
    let x := cleanHead d q (((q.tail + 2 ^ 32 - (match readHdr d r.1 q.asid q.hdr with
      | some h => h.head
      | none => q.tail)) % 2 ^ 32) + 1) r.1
    (x.1, r.2 ++ x.2.toList)) (m, [])

/-- Absolute deadline of a head; none counts as latest. -/
def HeadEnt.deadline (m : Mach) (h : HeadEnt) : Nat := match ftaskAt m h.q h.idx with
  | some t => if t.deadAbs = 0 then 2 ^ 64 else t.deadAbs
  | none => 2 ^ 64

/-- The queue last served at a level. -/
def lastQueue (m : Mach) (level : Nat) : Option Nat := (m.disp.rr.find? fun e => e.1 == level).map Prod.snd

/-- The order of R383 between two heads. -/
def headBetter (m : Mach) (a b : HeadEnt) : Bool :=
  if a.level != b.level then decide (b.level < a.level)
  else if a.q.faultq != b.q.faultq then a.q.faultq
  else if a.q.faultq then
    (if a.deadline m = b.deadline m then decide (a.q.n < b.q.n) else decide (a.deadline m < b.deadline m))
  else
    let dist := fun (n : Nat) => match lastQueue m a.level with
      | some k => (n + 16384 - (k + 1)) % 16384
      | none => n
    decide (dist a.q.n < dist b.q.n)

/-- Dequeues a head: the task is refused, or taken into dispatch with its groups unbound. -/
def dequeueHead (d : Dev) (h : HeadEnt) (m : Mach) : Mach :=
  let q := h.q
  let ft := ftaskAt m q h.idx
  let served := { m with disp := { m.disp with
    rr := if q.faultq then m.disp.rr else (h.level, q.n) :: m.disp.rr.filter fun e => e.1 != h.level } }
  let m := advanceHead d q h.idx served
  let addr := h.entry.getD 0 0
  let why := taskReason d m q.asid addr
  if why != 0 then
    let drop := fun (t : FTask) => ft == some t
    countRefusal d q addr why { m with disp := { m.disp with ftasks := m.disp.ftasks.filter fun t => !drop t } }
  else
    let lr := (readVaWords d m q.asid addr 16).getD []
    let id := m.disp.nextId
    let w2 := (h.entry.getD 2 0).toNat
    let dead := lrField lr 448 32
    let t : Task :=
      { id := id, lrAddr := addr, lr := lr, asid := q.asid, arg := h.entry.getD 1 0, user0 := h.entry.getD 2 0,
        user1 := h.entry.getD 3 0, kind := if ft.isSome then 1 else 0, depth := if ft.isSome then bitsOf w2 11 2 else 0,
        prio := h.level,
        deadline := match ft with
          | some f => f.deadAbs
          | none => if dead = 0 then 0 else q.seenAt h.idx m.usec + dead,
        budget := if ft.isSome && bitsOf w2 16 32 != 0 then bitsOf w2 16 32 else lrField lr 416 32,
        groups := waveCount (lrField lr 256 32) (lrField lr 288 16), nextG := 0, back := [], live := 0, doneG := 0,
        started := false, ended := false, jctr := 0, only := none, ftask := ft.map FTask.id, parent := none, used := 0 }
    { m with disp := { m.disp with tasks := m.disp.tasks ++ [t], nextId := id + 1 } }

/-! Binding (R56, R383, R384) -/

/-- Threads of group `n` of a task. -/
def Task.sizeOf (t : Task) (n : Nat) : Nat := min (t.field 288 16) (t.field 256 32 - n * t.field 288 16)

/-- Slots for `pairs` waves, each with its shadow on the same stage where there is one. -/
def pickSlots (stock shadow : Bool) : Nat → List Nat → Option (List (Nat × Option Nat))
  | 0, _ => some []
  | n + 1, used =>
    let free := (slotList stock).filter fun k => !used.contains k
    let mate := fun (k : Nat) => free.find? fun j => j != k && j / 32 == k / 32
    let pick := if shadow then free.find? fun k => (mate k).isSome else free.head?
    match pick with
    | none => none
    | some k =>
      let j := if shadow then mate k else none
      (pickSlots stock shadow n (k :: used ++ j.toList)).map fun r => (k, j) :: r

/-- The task's groups may use the stockpot (R159, R385). -/
def Task.stocks (t : Task) : Bool := t.kind == 1 && decide (0 < t.depth) && t.small

/-- Group `n` of a task fits on a core (R56). -/
def groupFits (m : Mach) (core : Nat) (stock : Bool) (t : Task) (n : Nat) : Bool :=
  let size := t.sizeOf n
  let twice := if lrShadow t.lr then 2 else 1
  let waves := m.waves.filter fun w => w.core == core
  roomFits m core stock (size * (t.field 312 10 + t.field 371 10)) (size * twice * t.field 322 6)
      (lrWaves t.lr size * t.field 328 7) (size * twice)
    && poolHolds m core (lrAlloc t.lr) && (freeGroup m core).isSome && decide (waves.length + lrWaves t.lr size ≤ 256)
    && (pickSlots stock (lrShadow t.lr) (waveCount size (lrWidth t.lr)) (slotsUsed m core)).isSome

/-- The bind records of a core that have not been taken. -/
def boundRecs (m : Mach) (core : Nat) : List BindRec := m.disp.slots.filter fun s => s.core == core && s.state == 0

/-- A free bind record of a core. -/
def freeRec (m : Mach) (core : Nat) : Option Nat :=
  (List.range 32).find? fun i => !((boundRecs m core).any fun s => s.idx == i)

/-- The core that dispatch chooses for a group: it fits, with the fewest untaken records, then the lowest number. -/
def pickCore (m : Mach) (t : Task) (n : Nat) : Option Nat :=
  let cs := (List.range 256).filter fun c => (freeRec m c).isSome && groupFits m c false t n
  let cs := if cs.isEmpty && t.stocks then
      (List.range 256).filter fun c => (freeRec m c).isSome && groupFits m c true t n else cs
  bestOf (fun a b => decide ((boundRecs m a).length < (boundRecs m b).length)) cs

/-- The next group of a task to bind. -/
def Task.unbound (t : Task) : Option Nat :=
  match minNat t.back with
  | some n => some n
  | none => if t.nextG < t.groups then some (t.only.getD t.nextG) else none

/-- Binds one group to a core: the bind record is written, and STARTED counts the task's first. -/
def bindGroup (d : Dev) (t : Task) (n core idx : Nat) (m : Mach) : Mach :=
  let r : BindRec :=
    { core := core, idx := idx, kind := t.kind, prio := t.prio, depth := t.depth, state := 0, asid := t.asid, gindex := n,
      lr := t.lrAddr, arg := t.arg, user0 := t.user0, user1 := t.user1, deadline := t.deadline, budget := t.budget,
      taskref := t.id }
  let m := if t.started then m else addStatus d t.asid (t.word 8) 0 m
  let m := m.updTask t.id fun t => { t with
    started := true
    nextG := if t.back.contains n then t.nextG else t.nextG + 1
    back := t.back.filter fun k => k != n }
  { m with disp := { m.disp with slots := m.disp.slots.filter (fun s => !(s.core == core && s.idx == idx)) ++ [r] } }

/-- Binds the groups of a task, in index order, while cores have room. -/
def bindTask (d : Dev) (id : Nat) : Nat → Mach → Mach
  | 0, m => m
  | fuel + 1, m => match m.task id with
    | none => m
    | some t => match t.unbound with
      | none => m
      | some n =>
        if !resident m t.asid then m
        else match pickCore m t n with
          | none => m
          | some core => bindTask d id fuel (bindGroup d t n core ((freeRec m core).getD 0) m)

/-- The order in which dispatch binds tasks that have unbound groups: deeper ones first (R159), then by priority and age
(R383, log 103). -/
def Task.bindsBefore (a b : Task) : Bool :=
  if a.depth != b.depth then decide (b.depth < a.depth)
  else if a.prio != b.prio then decide (b.prio < a.prio)
  else decide (a.id < b.id)

/-- Sorts by repeated choice of the best; `n` is at least the length. -/
def sortBest {α : Type} [DecidableEq α] (better : α → α → Bool) : Nat → List α → List α
  | 0, _ => []
  | n + 1, xs => match bestOf better xs with
    | none => []
    | some x => x :: sortBest better n (xs.erase x)

/-- The tasks of resident contexts with a group not yet bound. -/
def waitingTasks (m : Mach) : List Task := m.disp.tasks.filter fun t => t.unbound.isSome && resident m t.asid

/-- Binds what fits of every started task. -/
def bindAll (d : Dev) (m : Mach) : Mach :=
  let ts := waitingTasks m
  (sortBest Task.bindsBefore ts.length ts).foldl (fun m t => bindTask d t.id (t.groups + t.back.length) m) m

/-- The best head may be dequeued: no task of its level or above has an unbound group. -/
def mayDequeue (m : Mach) (h : HeadEnt) : Bool := (waitingTasks m).all fun t => decide (t.prio < h.level)

/-- One turn of dispatch (R383): unbound groups go ahead of every new dequeue at their level or below. -/
def dispatchTurn (d : Dev) (m : Mach) : Mach :=
  let r := heads d m
  match bestOf (headBetter r.1) r.2 with
  | none => bindAll d r.1
  | some h =>
    if mayDequeue r.1 h then bindAll d (dequeueHead d h r.1)
    else
      let m := bindAll d r.1
      if mayDequeue m h then bindAll d (dequeueHead d h m) else m

/-- The event DISPATCH_TURN (R383). -/
def execDispatchTurn (s : State) : Host.Outcome State Fault Refusal := .next (s.withMach dispatchTurn)

/-! Taking a bind record (R154, R380, R385) -/

/-- A wave's lanes as a group starts. -/
def launchLane (t : Task) (gid tid allot : Nat) (entry : BitVec 64) : Lane :=
  { st := .run, tid := BitVec.ofNat 32 tid, group := some gid, pc := entry, target := false, stack := [],
    v := List.replicate allot 0, c := List.replicate (t.field 322 6) 0, e := List.replicate 4 0,
    p := List.replicate (t.field 335 3) false,
    lq := if lrShadow t.lr then List.replicate 12 [] else [], sq := if lrShadow t.lr then List.replicate 12 [] else [],
    arrived := List.replicate 16 none }

/-- A wave as a group starts (R37, R380): `i` is its number in the group. -/
def launchWave (t : Task) (c : Option Ctx) (b : BindRec) (handle : Option (BitVec 64)) (gid i id : Nat) (slot : Nat)
    (shadow : Bool) (partner : Option Nat) : Wave :=
  let width := lrWidth t.lr
  let n := t.sizeOf b.gindex - i * width
  let first := b.gindex * t.field 288 16 + i * width
  let lane := fun (l : Nat) => if l < n then
      launchLane t gid (first + l) (if shadow then t.field 371 10 else t.field 312 10) (if shadow then t.word 1 else t.word 0)
    else noLane
  { core := b.core, id := id, slot := some slot, width := width, asid := t.asid, shadow := shadow, partner := partner,
    guarded := t.field 309 1 == 1, tol := BitVec.ofNat 32 (t.field 480 32), launchPr := BitVec.ofNat 3 t.prio,
    prio := BitVec.ofNat 3 t.prio,
    memdef := match c with
      | some c => c.memdef
      | none => 0,
    step := 0, gang := 0, gangDead := false, fails := 0, savedPr := BitVec.ofNat 3 t.prio,
    s := ([b.arg, b.user0, b.user1, t.word 2] ++ List.replicate 60 0).take (t.field 328 7),
    lanes := (List.range width).map lane, paths := [], aside := [], resume := [], waits := [], ages := [], promoted := [],
    deferred := [], fetched := [], marker := none, ckCount := 33, parked := none,
    stopped := match c with
      | some c => c.frozen
      | none => false,
    evicted := false, depth := t.depth, record := handle, task := some t.id, gindex := b.gindex, turn := 0, snapped := false,
    saved := none, ended := false, issueNo := 0, owes := false }

/-- Free `%wave` numbers of a core, `n` of them. -/
def freeWaves (m : Mach) (core : Nat) : Nat → List Nat → List Nat
  | 0, _ => []
  | n + 1, used =>
    let id := (firstFree ((m.waves.filter fun w => w.core == core).map Wave.id ++ used) 0 257).getD 0
    id :: freeWaves m core n (id :: used)

/-- The members of a group: every lane of its waves that holds a thread. -/
def launchMembers (ws : List Wave) : List (Nat × Nat) :=
  (ws.map fun w => ((List.range w.lanes.length).filter fun l => (w.lane l).st != .empty).map fun l => (w.id, l)).flatten

/-- Creates the group of a bind record with its waves. -/
def launchGroup (t : Task) (b : BindRec) (handle : Option (BitVec 64)) (gid : Nat) (slots : List (Nat × Option Nat))
    (m : Mach) : Mach :=
  let c := m.ctx t.asid
  let n := slots.length
  let ids := freeWaves m b.core (if lrShadow t.lr then 2 * n else n) []
  let mate := fun (k : Nat) => if lrShadow t.lr then some (ids.getD (n + k) 0) else none
  let comp := slots.mapIdx fun i s => launchWave t c b handle gid i (ids.getD i 0) s.1 false (mate i)
  let shad := if lrShadow t.lr then
      slots.mapIdx fun i s => launchWave t c b handle gid i (ids.getD (n + i) 0) (s.2.getD 0) true (some (ids.getD i 0))
    else []
  let ws := comp ++ shad
  let g0 := newGroup b.core gid m.freeCount t.asid (lrAlloc t.lr) (launchMembers ws)
  let g := { g0 with task := some t.id, gindex := b.gindex, guarded := t.field 309 1 == 1, handler := t.kind == 1,
                     depth := t.depth, record := handle }
  { m with groups := m.groups ++ [g], waves := m.waves ++ ws, freeCount := m.freeCount + 1 }

/-- The order in which a core takes its bind records. -/
def BindRec.before (a b : BindRec) : Bool :=
  let dead := fun (r : BindRec) => if r.deadline = 0 then 2 ^ 64 else r.deadline
  if a.prio != b.prio then decide (b.prio < a.prio)
  else if dead a != dead b then decide (dead a < dead b) else decide (a.idx < b.idx)

/-- Sets the state of a bind record. -/
def setRec (core idx st : Nat) (m : Mach) : Mach :=
  { m with disp := { m.disp with
      slots := updWhere (fun (s : BindRec) => s.core == core && s.idx == idx) (fun s => { s with state := st }) m.disp.slots } }

/-- A task is taken: a fault task sets its record taken (R154). -/
def noteTaken (d : Dev) (t : Task) (m : Mach) : Mach :=
  match t.ftask.bind fun id => m.disp.ftasks.find? fun f => f.id == id with
  | none => m
  | some f =>
    let m := { m with disp := { m.disp with
      ftasks := updWhere (fun (x : FTask) => x.id == f.id) (fun x => { x with taken := true }) m.disp.ftasks } }
    if (m.parkedAt f.asid f.handle).isSome then setRecState d m f.asid f.handle 1 else m

/-- A core takes a bind record: the group is created, after an acquire at system scope (R294). -/
def takeRec (d : Dev) (b : BindRec) (t : Task) (slots : List (Nat × Option Nat)) (m : Mach) : Mach :=
  let handle := if t.kind = 1 then some t.arg else none
  let m := noteTaken d t (setRec b.core b.idx 1 m)
  let m := launchGroup t b handle ((freeGroup m b.core).getD 0) slots m
  acquireAt b.core .acq .sys (m.updTask t.id fun t => { t with live := t.live + 1 })

/-- The event BIND_TAKE (R385): the record that comes first on its core is taken when its group fits, and no wave waits
there for an ordinary slot. -/
def execBindTake (core idx : Nat) (s : State) : Host.Outcome State Fault Refusal :=
  .next (s.withMach fun d m =>
    match bestOf BindRec.before (boundRecs m core) with
    | none => m
    | some b =>
      if b.idx != idx then m
      else match m.task b.taskref with
        | none => m
        | some t =>
          let size := t.sizeOf b.gindex
          let waits := m.waves.any fun w => w.core == core && w.awaitsSlot
          let try_ := fun (stock : Bool) => if groupFits m core stock t b.gindex then
              pickSlots stock (lrShadow t.lr) (waveCount size (lrWidth t.lr)) (slotsUsed m core) else none
          match (if waits then none else try_ false), t.stocks with
          | some slots, _ => takeRec d b t slots m
          | none, true => match try_ true with
            | some slots => if waits && slots.any fun k => decide (k.1 < 126) then m else takeRec d b t slots m
            | none => m
          | none, false => m)

/-- The event BIND_WITHDRAW (R385): for a drain, or once the record's deadline has passed. -/
def execBindWithdraw (core idx : Nat) (s : State) : Host.Outcome State Fault Refusal :=
  .next (s.withMach fun _ m =>
    match (boundRecs m core).find? fun b => b.idx == idx with
    | none => m
    | some b =>
      let late := b.deadline != 0 && b.kind == 1 && decide (b.deadline ≤ m.usec)
      if resident m b.asid && !late then m
      else (setRec core idx 2 m).updTask b.taskref fun t => { t with back := t.back ++ [b.gindex] })

/-! The end of a task (R154, R343, R382) -/

/-- Every group of the task is bound and has dissolved, no wave of it is left, and no exact group of it runs. -/
def taskDone (m : Mach) (t : Task) : Bool :=
  t.unbound.isNone && t.live == 0 && !(m.disp.slots.any fun s => s.taskref == t.id && s.state == 0)
    && !(m.waves.any fun w => w.task == some t.id) && !(m.groups.any fun g => g.task == some t.id)
    && !(m.disp.tasks.any fun x => x.parent == some t.id)

/-- A handler that ends while its record is still taken disposes of it as `PKILL` would (R154). -/
def endHandler (d : Dev) (t : Task) (m : Mach) : Mach :=
  match t.ftask.bind fun id => m.disp.ftasks.find? fun f => f.id == id with
  | none => m
  | some f =>
    let m := { m with disp := { m.disp with ftasks := m.disp.ftasks.filter fun x => x.id != f.id } }
    match m.parkedAt f.asid f.handle with
    | some p => if recField d m f.asid f.handle 7 2 = 1 then killRecord d p m else m
    | none => m

/-- The event TASK_END (R382). -/
def execTaskEnd (k : Nat) (s : State) : Host.Outcome State Fault Refusal :=
  .next (s.withMach fun d m =>
    match m.disp.tasks[k]? with
    | none => m
    | some t =>
      if !taskDone m t then m
      else
        let m := { m with disp := { m.disp with
          tasks := m.disp.tasks.filter fun x => x.id != t.id
          slots := m.disp.slots.filter fun s => s.taskref != t.id } }
        let m := if t.parent.isNone then addStatus d t.asid (t.word 8) 4 m else m
        endHandler d t m)

/-! Budgets, deadlines and the stockpot (R158, R159) -/

/-- Parks a wave at no word: the record names its live lanes (R458). -/
def parkNoWord (d : Dev) (core wave code : Nat) (m : Mach) : Mach :=
  match m.wave core wave with
  | none => m
  | some w =>
    if w.ended || w.parked.isSome then m
    else
      let (mask, pc, seg) := match w.paths.head? with
        | some p => (p.mask, p.pc, p.seg)
        | none => ((0 : BitVec 64), (0 : BitVec 64), 0)
      parkWave d m w mask mask pc seg w.alive ⟨code, 0⟩ none

/-- The event BUDGET_EXPIRED (R156, R158): the waves of the handler whose budget a wave has used up park with 0x80. -/
def execBudgetExpired (core wave : Nat) (s : State) : Host.Outcome State Fault Refusal :=
  .next (s.withMach fun d m =>
    match ((m.wave core wave).bind Wave.task).bind m.task with
    | none => m
    | some t =>
      if t.kind != 1 || t.budget = 0 || t.used < t.budget then m
      else
        let ws := m.waves.filter fun w => w.task == some t.id
        ws.foldl (fun m w => parkNoWord d w.core w.id 0x80 m) (m.updTask t.id fun x => { x with budget := 0 }))

/-- A task that was not taken in time is withdrawn, and its record named in a task of code 0x81 (R158). -/
def missDeadline (d : Dev) (t : FTask) (m : Mach) : Mach :=
  let tab := match m.ctx t.asid with
    | some c => c.faulttab
    | none => 0
  let e := faultEntry d m t.asid tab 0x81
  let m := withdrawTask d m t
  if 3 < t.depth + 1 || e.queue = 0 then killCtx d 0x82 t.asid m
  else
    let m := m.updParked t.asid t.handle fun p => { p with lastTask := m.disp.nextId }
    enqueueFault d m t.asid { t with
      queue := e.queue, launch := e.launch, code := 0x81, prio := taskPrio e 0x81 none, depth := t.depth + 1,
      budget := e.budget, deadUs := e.deadline, deadAbs := 0, slot := none, taken := false }

/-- The event DEADLINE_EXPIRED (R158). -/
def execDeadlineExpired (k : Nat) (s : State) : Host.Outcome State Fault Refusal :=
  .next (s.withMach fun d m =>
    match m.disp.ftasks[k]? with
    | none => m
    | some t =>
      if t.deadAbs = 0 || m.usec < t.deadAbs || (m.parkedAt t.asid t.handle).isNone then m
      else if !t.taken then missDeadline d t m
      else
        let mine := fun (w : Wave) => (w.task.bind m.task).bind Task.ftask == some t.id
        let ws := m.waves.filter fun w => mine w && w.parked.isNone && !w.ended
        if ws.isEmpty then m
        else
          let m := { m with disp := { m.disp with
            ftasks := updWhere (fun (x : FTask) => x.id == t.id) (fun x => { x with deadAbs := 0 }) m.disp.ftasks } }
          ws.foldl (fun m w => parkNoWord d w.core w.id 0x81 m) m)

/-- Delivers a held fault task to its queue, where the queue has room. -/
def deliverHeld (d : Dev) (t : FTask) (m : Mach) : Option Mach :=
  let fb := match m.ctx t.asid with
    | some c => readVa64 d m t.asid c.faulttab
    | none => 0
  match offerTask d t.asid t fb (fun _ => false) m with
  | none => some (killCtx d 0x82 t.asid m)
  | some (x, m) =>
    if x.slot.isNone then none
    else some { m with disp := { m.disp with ftasks := updWhere (fun (y : FTask) => y.id == t.id) (fun _ => x) m.disp.ftasks } }

/-- The event STOCKPOT_DELIVER (R159): the first held task whose queue has room is delivered. -/
def execStockpotDeliver (s : State) : Host.Outcome State Fault Refusal :=
  .next (s.withMach fun d m =>
    ((m.disp.ftasks.filter fun t => t.slot.isNone && !t.taken).findSome? fun t => deliverHeld d t m).getD m)

end Sys2Proof.Machine
end

