-- ==== Sys2Proof/Machine/Snapshot.lean ====
section
/-! DEFINITION. The snapshot engine: arming, the cut, the drain, generations, the partner, recall, and the survival commands
(R438 to R453). -/

namespace Sys2Proof.Machine

/-- Interface `n` has been agreed (R371, R373). -/
def Dev.agreed (d : Dev) (n : Nat) : Bool := bitsOf d.att.ifneg.toNat (4 * n) 4 != 0

/-- The device serves its interfaces: it is attached and not in ROM recovery (R373, R409). -/
def Dev.serves (d : Dev) : Bool := d.att.attached && !d.ctl.recovery

/-- Changes the survival block. -/
def State.updSrv (s : State) (f : Survival → Survival) : State := { s with dev := { s.dev with srv := f s.dev.srv } }

/-! The snapshot configuration (R441, R442) -/

/-- The leaf entry of a page of a context where it is fit for a snapshot: readable, writable and local (R441, R443). -/
def localLeaf (m : Mach) (asid : BitVec 16) (va : BitVec 64) : Option (Nat × Nat) :=
  match m.ctx asid with
  | none => none
  | some c => match m.leaf 0 c va.toNat with
    | .ok (e, lv) => if bitsOf e 2 2 = 3 && bitsOf e 6 2 = 0 && va.toNat < 2 ^ 57 then some (e, lv) else none
    | .error _ => none

/-- The 4,096 bytes of a context's configuration as a number; none where there is none that can be reached. -/
def readConfig (d : Dev) (m : Mach) (c : Ctx) : Option Nat :=
  if c.snapcfg = 0 || (localLeaf m c.asid c.snapcfg).isNone then none
  else match readVa d m c.asid c.snapcfg 4096 true with
    | .ok bs => some (ofBytes bs)
    | .error _ => none

/-- Region entry `i` of a configuration. -/
def cfgRegion (n i : Nat) : SRegion :=
  let e := bitsOf n (1024 + 128 * i) 128
  ⟨BitVec.ofNat 64 (bitsOf e 0 64), bitsOf e 64 32, bitsOf e 96 3⟩

/-- The regions that a configuration lists. -/
def cfgRegions (n : Nat) : List SRegion := (List.range (bitsOf n 112 8)).map (cfgRegion n)

/-- Two regions share an address. -/
def regionsMeet (a b : SRegion) : Bool :=
  decide (a.base.toNat < b.base.toNat + 65536 * b.len) && decide (b.base.toNat < a.base.toNat + 65536 * a.len)

/-- The header or an entry breaks R441 or R442, regions overlap, or there is not exactly one manifest. -/
def cfgBad (n : Nat) : Bool :=
  let rs := cfgRegions n
  bitsOf n 65 31 != 0 || decide (3600 < bitsOf n 96 16) || bitsOf n 112 8 == 0 || decide (248 < bitsOf n 112 8)
    || bitsOf n 120 392 != 0
    || ((List.range rs.length).any fun i => bitsOf n (1024 + 128 * i + 99) 29 != 0)
    || (rs.any fun r => r.base.toNat % 65536 != 0 || r.len == 0 || decide (4 < r.kind))
    || ((List.range rs.length).any fun i => (rs.drop (i + 1)).any fun b => regionsMeet (rs.getD i ⟨0, 0, 0⟩) b)
    || (rs.filter fun r => r.kind == 4).length != 1

/-- The 64 KiB frame of a region page that is eligible for a snapshot (R443). -/
def regionFrame (m : Mach) (asid : BitVec 16) (va : Nat) : Option Nat :=
  match localLeaf m asid (BitVec.ofNat 64 va) with
  | some (e, lv) =>
    if lv = 0 && !bitOf e 5 then none else some ((4096 * bitsOf e 12 38 + va % leafBytes lv) / 65536)
  | none => none

/-- The pages of 64 KiB of the regions: region, offset and address. -/
def regionPages (rs : List SRegion) : List (Nat × Nat × Nat) :=
  (rs.mapIdx fun i r => (List.range r.len).map fun k => (i, 65536 * k, r.base.toNat + 65536 * k)).flatten

/-- The reserve is valid (R439). -/
def reserveValid (d : Dev) : Bool :=
  let base := d.srv.rsvbase.toNat
  base != 0 && base % 2 ^ 30 == 0 && decide (base + 65536 * d.srv.reserveFrames ≤ privateBase)

/-! Arming (R443) -/

/-- The first condition of R443 that fails; 0 for none. -/
def armError (d : Dev) (m : Mach) (asid : BitVec 16) (n : Nat) : Nat :=
  if !d.agreed 4 || cfgBad n then 1
  else if (regionPages (cfgRegions n)).any fun p => (regionFrame m asid p.2.2).isNone then 2
  else if m.ctxs.any fun c => c.asid != asid && c.snap.armed then 3
  else if !reserveValid d then 4
  else 0

/-- Number of the newest committed generation of a job in this module's own slots. -/
def storedGen (d : Dev) (job : BitVec 64) : Nat :=
  maxNat (d.srv.own.filterMap fun g => match g with
    | some g => if g.commit && g.jobid == job && g.srcmod == d.att.modid then some g.number else none
    | none => none)

/-- Arms a context whose descriptor names a configuration with ENABLE 1. At RESTORE the numbering goes on from the store. -/
def armSnap (d : Dev) (asid : BitVec 16) (restore : Bool) (m : Mach) : Mach :=
  match m.ctx asid with
  | none => m
  | some c => match readConfig d m c with
    | none => m
    | some n =>
      if !bitOf n 64 then m
      else
        let err := armError d m asid n
        let job := BitVec.ofNat 64 (bitsOf n 0 64)
        let last := if restore then max (storedGen d job) c.snap.lastgen else 0
        snapStatus d asid (m.updSnap asid fun x =>
          { x with armed := err == 0, armerr := err, feedsafe := false, partnered := false, lastgen := last, pgen := 0,
                   cuts := 0, skipcad := 0, skipbusy := 0, aborts := 0, tcut := 0, cutSince := false, jobid := job,
                   cadence := bitsOf n 96 16, regions := cfgRegions n, begun := false, round := false })

/-! The cut (R445) -/

/-- The own slot that the next generation is written into: one without a committed generation, else the older (R450). -/
def nextSlot (d : Dev) : Nat :=
  let num := fun (i : Nat) => match d.srv.own.getD i none with
    | some g => if g.commit then some g.number else none
    | none => none
  match num 0, num 1 with
  | none, _ => 0
  | _, none => 1
  | some a, some b => if a ≤ b then 0 else 1

/-- Freezes a frame, with its registrations revoked. A frame that holds several region pages is frozen once. -/
def freezeFrame (asid : BitVec 16) (p : Nat × Nat × Nat) (frame : Nat) (m : Mach) : Mach :=
  match m.frozen.find? fun f => f.frame == frame with
  | some _ =>
    { m with frozen := updWhere (fun (f : Frozen) => f.frame == frame) (fun f => { f with places := f.places ++ [(p.1, p.2.1)] }) m.frozen }
  | none =>
    let ws := (m.coh.words.filter fun h => h.word / 8192 == frame && h.st != .unreg).map HWord.word
    let m := m.writeBackAll ws false
    { m with frozen := m.frozen ++ [⟨frame, asid, m.mem.slice (65536 * frame) 65536, none, [(p.1, p.2.1)]⟩] }

/-- Counts an aborted generation, with its error record (R445, R449). -/
def countAbort (d : Dev) (asid : BitVec 16) (m : Mach) : Mach :=
  let m := m.updSnap asid fun x => { x with sstate := .idle, aborts := min 0xFFFF (x.aborts + 1) }
  snapStatus d asid (writeErr d ⟨9, 2, 6, 0, 0, d.srv.partner.toNat, asid, 0, 0, 0⟩ m)

/-- A cut of a complete round. -/
def snapCut (d : Dev) (asid : BitVec 16) (m : Mach) : Mach :=
  match m.ctx asid with
  | none => m
  | some c =>
    if !c.snap.armed || !c.snap.round || c.snap.sstate != .idle then m
    else
      let m := snapStatus d asid (m.updSnap asid fun x => { x with sstate := .cutting, tcut := m.usec })
      let pages := (regionPages c.snap.regions).map fun p => (p, regionFrame m asid p.2.2)
      let m := closeRound asid m
      if pages.any fun p => p.2.isNone then countAbort d asid m
      else
        let m := pages.foldl (fun m p => freezeFrame asid p.1 (p.2.getD 0) m) m
        snapStatus d asid (m.updSnap asid fun x =>
          { x with sstate := .draining, cuts := x.cuts + 1, cutSince := true, slot := nextSlot d })

/-- The event SNAPSHOT_CUT (R445). -/
def execSnapshotCut (asid : BitVec 16) (s : State) : Host.Outcome State Fault Refusal :=
  .next (s.withMach fun d m => snapCut d asid m)

/-! The drain (R446 to R450) -/

/-- A write waits at a frozen frame, since the reserve has no free frame (R447). -/
def frameWaits (d : Dev) (m : Mach) (f : Frozen) : Bool :=
  f.second.isNone && (Mach.frozenWrite d m (65536 * f.frame)).isNone
    && m.coh.stores.any fun s => s.record.isNone && s.pa / 65536 == f.frame

/-- The generation being written into a slot, begun at its first frame. -/
def openGen (d : Dev) (c : Ctx) : Generation :=
  let fresh : Generation :=
    { jobid := c.snap.jobid, srcmod := d.att.modid, number := c.snap.lastgen + 1, tcut := c.snap.tcut,
      feed := d.mgt.feedid, pfeed := d.srv.pfeed, regions := c.snap.regions, data := c.snap.regions.map fun _ => [],
      commit := false }
  match d.srv.own.getD c.snap.slot none with
  | some g => if g.commit || g.jobid != c.snap.jobid || g.number != c.snap.lastgen + 1 then fresh else g
  | none => fresh

/-- Writes the frozen bytes of a frame into a generation. -/
def takeFrame (g : Generation) (f : Frozen) : Generation :=
  { g with data := f.places.foldl (fun ds p => updAt ds p.1 fun x =>
      Memory.put (Memory.clear x p.2 65536) p.2 (f.content.offsets (65536 * f.frame) 65536)) g.data }

/-- Commits the generation of a context, and sends it to the partner (R450, R452). -/
def commitGen (asid : BitVec 16) (slot : Nat) (g : Generation) (s : State) : State :=
  let done := { g with commit := true }
  let paired := s.dev.srv.pstate == 2 || s.dev.srv.pstate == 3
  let s := s.updSrv fun x => { x with
    own := x.own.set slot (some done), sending := if paired then some done else x.sending }
  s.withMach fun d m => snapStatus d asid (m.updSnap asid fun x =>
    { x with lastgen := g.number, sstate := .idle, partnered := false, feedsafe := false })

/-- The event FRAME_DRAIN_COMPLETE (R448): frames with waiting writes first; the last frame of a generation commits it, or a
failure of the store aborts it. -/
def execFrameDrainComplete (frame : Nat) (s : State) : Host.Outcome State Fault Refusal :=
  match s.mach.frozen.find? fun f => f.frame == frame with
  | none => .next s
  | some f => match s.mach.ctx f.asid with
    | none => .next (s.withMach fun d m => thawFrame d f m)
    | some c =>
      let first := s.mach.frozen.filter fun x => frameWaits s.dev s.mach x
      if c.snap.sstate != .draining || (!first.isEmpty && !first.contains f) then .next s
      else
        let g := takeFrame (openGen s.dev c) f
        let s := s.updSrv fun x => { x with own := x.own.set c.snap.slot (some g) }
        let s := s.withMach fun d m => thawFrame d f m
        if s.mach.frozen.any fun x => x.asid == f.asid then .next s
        else
          let s := s.withMach fun d m => snapStatus d f.asid (m.updSnap f.asid fun x => { x with sstate := .committing })
          let (k, m) := s.mach.choose 2
          let s := { s with mach := m }
          if k = 1 then
            .next (s.withMach fun d m => abortSnap d f.asid (writeErr d ⟨8, 2, 6, 0, c.snap.slot, 0, f.asid, 0, 0, 0⟩ m))
          else .next (commitGen f.asid c.snap.slot g s)

/-! Partners (R451, R452) -/

/-- The event PARTNER_ACK (R452). -/
def execPartnerAck (asid : BitVec 16) (s : State) : Host.Outcome State Fault Refusal :=
  match s.dev.srv.sending with
  | none => .next s
  | some g =>
    let latest := match s.mach.ctx asid with
      | some c => c.snap.jobid == g.jobid && c.snap.lastgen == g.number
      | none => false
    let paired := s.dev.srv.pstate == 2 || s.dev.srv.pstate == 3
    if !latest || !paired then .next s
    else
      let s := s.updSrv fun x => { x with sending := none }
      .next (s.withMach fun d m =>
        let safe := d.srv.pstate == 2
        let m := if safe then m else writeErr d ⟨9, 0, 0, 0, 0, d.srv.partner.toNat, asid, 0, 0, 0⟩ m
        snapStatus d asid (m.updSnap asid fun x => { x with pgen := g.number, partnered := true, feedsafe := safe }))

/-- The event PARTNER_LOST (R452): the copy is given up until the next commit. -/
def execPartnerLost (asid : BitVec 16) (s : State) : Host.Outcome State Fault Refusal :=
  match s.dev.srv.sending with
  | none => .next s
  | some _ =>
    let s := s.updSrv fun x => { x with sending := none }
    .next (s.withMach fun d m =>
      let m := writeErr d ⟨9, 2, 0, 0, 0, d.srv.partner.toNat, asid, 0, 0, 0⟩ m
      snapStatus d asid (m.updSnap asid fun x => { x with partnered := false, feedsafe := false }))

/-- The partner slot that holds the older copy. -/
def partnerSlot (d : Dev) : Nat :=
  let num := fun (i : Nat) => match d.srv.part.getD i none with
    | some g => if g.commit then g.number else 0
    | none => 0
  if num 0 ≤ num 1 then 0 else 1

/-- The event PARTNER_GENERATION_RECEIVE (R452): the partner's generation is written into the partner slot with the older
copy, and committed there. -/
def execPartnerGenerationReceive (gen : Generation) (s : State) : Host.Outcome State Fault Refusal :=
  let paired := s.dev.srv.pstate == 2 || s.dev.srv.pstate == 3
  if !paired || gen.srcmod != s.dev.srv.partner then .next s
  else .next (s.updSrv fun x => { x with part := x.part.set (partnerSlot s.dev) (some { gen with commit := true }) })

/-- The event PARTNER_SLOT_READ_REQUEST (R453): serving a read changes no state of this module. -/
def execPartnerSlotReadRequest (_module : BitVec 14) (_slot : Bool) (s : State) : Host.Outcome State Fault Refusal := .next s

/-! Survival commands (R440) -/

/-- Runs a survival command: ignored while one runs or the device does not serve; refused when interface 4 is refused. -/
def svCommand (s : State) (f : State → State) : Host.Outcome State Fault Refusal :=
  if !s.dev.serves || s.dev.srv.svbusy then .next s
  else if !s.dev.agreed 4 then .next (s.updSrv fun x => { x with svres := 1 })
  else .next (f s)

/-- Ends a survival command with its result. -/
def svEnd (res : Nat) (s : State) : State := s.updSrv fun x => { x with svbusy := false, svres := BitVec.ofNat 3 res }

/-- PAIR (R451): the command stays busy until the partner answers. -/
def execPair (s : State) : Host.Outcome State Fault Refusal :=
  svCommand s fun s =>
    let x := s.dev.srv
    if x.pstate != 0 || x.partner = s.dev.att.modid || x.partner.toNat / 256 != s.dev.att.modid.toNat / 256 then svEnd 1 s
    else if !s.dev.reaches x.partner.toNat then svEnd 5 s
    else s.updSrv fun x => { x with svbusy := true, pstate := 1 }

/-- The event PAIR_ANSWER (R451): the partner names this module, with its FEEDID, or a second passes without an answer. -/
def execPairAnswer (feed : Option (BitVec 32)) (s : State) : Host.Outcome State Fault Refusal :=
  if s.dev.srv.pstate != 1 then .next s
  else match feed with
    | none => .next (svEnd 5 (s.updSrv fun x => { x with pstate := 0 }))
    | some f =>
      let mine := s.dev.mgt.feedid
      if f != 0 && mine == f then .next (svEnd 4 (s.updSrv fun x => { x with pstate := 0 }))
      else .next (svEnd 0 (s.updSrv fun x => { x with pstate := if f = 0 || mine = 0 then 3 else 2, pfeed := f }))

/-- UNPAIR (R440). -/
def execUnpair (s : State) : Host.Outcome State Fault Refusal :=
  svCommand s fun s => svEnd 0 (s.updSrv fun x => { x with pstate := 0, part := [none, none], sending := none })

/-- DISCARD (R440). -/
def execDiscard (s : State) : Host.Outcome State Fault Refusal :=
  svCommand s fun s => match s.mach.ctx s.dev.srv.svasid with
    | none => svEnd 2 s
    | some c => if c.snap.sstate != .idle then svEnd 1 s else svEnd 0 (s.updSrv fun x => { x with own := [none, none] })

/-- A survival command code that is not defined (R440). -/
def execSvcmdUnknown (code : BitVec 4) (s : State) : Host.Outcome State Fault Refusal :=
  if 1 ≤ code.toNat && code.toNat ≤ 4 then .next s else svCommand s (svEnd 6)

/-! Recall (R453) -/

/-- The generations that RECALL may take: those of this module's slots, then those that HOLDMOD answers with. -/
def recallFrom (d : Dev) (remote : List Generation) : List Generation :=
  let x := d.srv
  let local_ := if x.srcmod = d.att.modid then x.own.filterMap id
    else if x.holdmod = d.att.modid then x.part.filterMap id else []
  let far := if x.holdmod != d.att.modid && d.reaches x.holdmod.toNat then remote else []
  local_ ++ far

/-- The newest committed generation of a job that a module took; an earlier one in the list wins a tie. -/
def newestGen (job : BitVec 64) (src : BitVec 14) (gs : List Generation) : Option Generation :=
  bestOf (fun a b => decide (b.number < a.number)) (gs.filter fun g => g.commit && g.jobid == job && g.srcmod == src)

/-- Writes the regions of a generation into those of a configuration; every word is left unregistered. -/
def writeRegions (d : Dev) (asid : BitVec 16) (rs : List SRegion) (g : Generation) (m : Mach) : Option Mach :=
  ((rs.zip g.data).foldl (fun (r : Option Mach) x => (List.range x.1.len).foldl (fun (r : Option Mach) k => match r with
    | none => none
    | some m => writeVa d m asid (x.1.base + BitVec.ofNat 64 (65536 * k)) (Memory.readN x.2 (65536 * k) 65536) true) r) (some m))

/-- Leaves the contents of regions undefined: every word takes a free value (log 4). -/
def spoilRegions (d : Dev) (asid : BitVec 16) (rs : List SRegion) (m : Mach) : Mach :=
  ((rs.map fun r => (List.range (8192 * r.len)).map fun i => r.base + BitVec.ofNat 64 (8 * i)).flatten).foldl
    (fun m a => let (x, m) := m.fresh; (writeVa d m asid a (toBytes 8 x.toNat) true).getD m) m

/-- Region tables that differ in count, KIND or LEN. -/
def tablesDiffer (a b : List SRegion) : Bool :=
  (a.map fun r => (r.len, r.kind)) != b.map fun r => (r.len, r.kind)

/-- RECALL on a resident context without bound or live groups. -/
def recallInto (remote : List Generation) (c : Ctx) (s : State) : State :=
  match readConfig s.dev s.mach c with
  | none => svEnd 3 s
  | some n =>
    let rs := cfgRegions n
    match newestGen (BitVec.ofNat 64 (bitsOf n 0 64)) s.dev.srv.srcmod (recallFrom s.dev remote) with
    | none => svEnd 7 s
    | some g =>
      if tablesDiffer rs g.regions then svEnd 3 s
      else
        let (k, m) := s.mach.choose 2
        let s := { s with mach := m }
        match (if k = 1 then none else writeRegions s.dev c.asid rs g s.mach) with
        | none => svEnd 7 (s.withMach fun d m => spoilRegions d c.asid rs m)
        | some m =>
          svEnd 0 ({ s with mach := m }.withMach fun d m =>
            snapStatus d c.asid (m.updSnap c.asid fun x => { x with lastgen := g.number }))

/-- RECALL (R453). `remote` is what HOLDMOD's partner slots answer with, where they are asked. -/
def execRecall (remote : List Generation) (s : State) : Host.Outcome State Fault Refusal :=
  svCommand s fun s =>
    let asid := s.dev.srv.svasid
    match s.mach.ctx asid with
    | none => svEnd 2 s
    | some c =>
      let busy := (s.mach.groups.any fun g => g.asid == asid) || s.mach.disp.slots.any fun r => r.asid == asid && r.state == 0
      if c.cstate != .resident || busy then svEnd 2 s else recallInto remote c s

end Sys2Proof.Machine
end

