-- ==== Sys2Proof/Machine/Contexts.lean ====
section
/-! DEFINITION. The commands of the control block: contexts, pre-emption, restoring, invalidation, freeze and step (R361,
R362, R392 to R408). -/

namespace Sys2Proof.Machine

/-- Changes the control block. -/
def State.updCtl (s : State) (f : Control → Control) : State := { s with dev := { s.dev with ctl := f s.dev.ctl } }

/-- Ends a command with its result (R392). -/
def ctlEnd (res : Nat) (s : State) : State := s.updCtl fun c => { c with cmdbusy := false, cmdres := BitVec.ofNat 8 res }

/-- Runs a command: ignored while one runs or the device does not serve (R373, R393). -/
def ctlCommand (s : State) (f : State → State) : Host.Outcome State Fault Refusal :=
  if !s.dev.serves || s.dev.ctl.cmdbusy then .next s else .next (f s)

/-- A command on the context that CMDASID names, accepted in some states (R393). -/
def ctxCommand (s : State) (ok : CState → Bool) (f : BitVec 16 → Ctx → State → State) : Host.Outcome State Fault Refusal :=
  ctlCommand s fun s => match s.mach.ctx s.dev.ctl.cmdasid with
    | none => ctlEnd 1 s
    | some c => if ok c.cstate then f c.asid c s else ctlEnd 2 s

/-- Moves a context to another state, in its descriptor too. -/
def setCState (d : Dev) (asid : BitVec 16) (st : CState) (m : Mach) : Mach :=
  noteCState d asid (m.updCtx asid fun c => { c with cstate := st })

/-! LOAD (R386, R394, R395) -/

/-- The fault codes that R156 lists and a table entry may serve. -/
def tableCode (code : Nat) : Bool :=
  [0x01, 0x02, 0x03, 0x04, 0x10, 0x11, 0x20, 0x21, 0x30, 0x31, 0x40, 0x41, 0x50, 0x51, 0x53, 0x54, 0x60, 0x61, 0x62, 0x70,
    0x71, 0x72, 0x80, 0x81].contains code

/-- An entry of a fault table breaks R386: `e` is its 256 bits. -/
def faultEntryBad (code e : Nat) : Bool :=
  if !tableCode code then e != 0
  else
    ((bitsOf e 0 64 == 0) != (bitsOf e 64 64 == 0)) || (decide (8 ≤ bitsOf e 128 4) && bitsOf e 128 4 != 0xF)
      || bitsOf e 132 28 != 0 || bitsOf e 224 32 != 0

/-- A fault table breaks R386, or cannot be read. -/
def faultTableBad (d : Dev) (m : Mach) (asid : BitVec 16) (tab : BitVec 64) : Bool :=
  match readVa d m asid tab 8256 true with
  | .error _ => true
  | .ok bs =>
    let n := ofBytes (bs.take 64)
    bitsOf n 160 352 != 0 || bitsOf n 64 12 != 0 || bitsOf n 128 32 == 0 || decide (2 ^ 24 < bitsOf n 128 32)
      || (List.range 256).any fun c => faultEntryBad c (ofBytes ((bs.drop (64 + 32 * c)).take 32))

/-- A field of a descriptor breaks its row (R394, R395), the fault table apart. -/
def descBad (n : Nat) : Bool :=
  bitsOf n 0 16 == 0 || bitsOf n 36 28 != 0 || bitsOf n 64 12 != 0 || bitsOf n 128 6 != 0
    || !memdefOk (BitVec.ofNat 64 (bitsOf n 192 64))
    || bitsOf n 256 12 != 0 || decide (bitsOf n 320 32 < 9) || bitsOf n 400 48 != 0 || bitsOf n 448 12 != 0
    || bitsOf n 516 508 != 0

/-- The context of a descriptor, resident, with nothing running. -/
def ctxOf (idx n : Nat) : Ctx :=
  let f := fun (lo k : Nat) => bitsOf n lo k
  { idx := idx, asid := BitVec.ofNat 16 (f 0 16), pasid := BitVec.ofNat 20 (f 16 20), ptroot := BitVec.ofNat 64 (f 64 64),
    faulttab := BitVec.ofNat 64 (f 128 64), memdef := BitVec.ofNat 64 (f 192 64), savearea := BitVec.ofNat 64 (f 256 64),
    savesize := f 320 32, drainus := f 352 16, saveus := f 368 16, linkto := f 384 16, snapcfg := BitVec.ofNat 64 (f 448 64),
    cstate := .resident, frozen := false, ctabs := [none, none, none], groups := [], waves := [], killCause := 0,
    killList := [],
    snap := { armed := false, armerr := 0, sstate := .idle, feedsafe := false, partnered := false, lastgen := 0, pgen := 0,
              cuts := 0, skipcad := 0, skipbusy := 0, aborts := 0, tcut := 0, cutSince := false, jobid := 0, cadence := 0,
              regions := [], slot := 0, begun := false, round := false },
    places := [], windows := [], drainT := 0, restoring := false }

/-- The contexts that hold a resident slot. -/
def residentCount (m : Mach) : Nat :=
  (m.ctxs.filter fun c => c.cstate == .resident || c.cstate == .draining || c.cstate == .saving).length

/-- Reads descriptor `idx` of the context table. -/
def readDesc (d : Dev) (m : Mach) (idx : Nat) : Nat := ofBytes (m.homeBytes (d.ctl.ctxbase.toNat + 128 * idx) 128)

/-- The late-bound windows that a job registers as its context is loaded (R366, log 107). -/
def bindWindows (asid : BitVec 16) (m : Mach) : Mach :=
  let ws := (Config.jobWindows asid.toNat m.freeCount).map fun x =>
    (⟨BitVec.ofNat 64 (4096 * x.1), 4096 * x.2.1, 4096 * x.2.2⟩ : LateWindow)
  { m with freeCount := m.freeCount + 1 }.updCtx asid fun c => { c with windows := ws }

/-- LOAD (R395). -/
def loadCtx (s : State) : State :=
  let idx := s.dev.ctl.cmdarg.toNat
  let n := readDesc s.dev s.mach idx
  let c := ctxOf idx n
  if 256 ≤ idx || descBad n then ctlEnd 3 s
  else match s.mach.ctx c.asid with
    | some old => ctlEnd (if old.cstate == .saved || old.cstate == .killed then 2 else 3) s
    | none =>
      let m := { s.mach with ctxs := s.mach.ctxs ++ [c] }
      if faultTableBad s.dev m c.asid c.faulttab then ctlEnd 3 s
      else if 256 ≤ residentCount s.mach then ctlEnd 4 s
      else ctlEnd 0 ({ s with mach := m }.withMach fun d m => armSnap d c.asid false (noteCState d c.asid (bindWindows c.asid m)))

/-- LOAD (R395). -/
def execLoad (s : State) : Host.Outcome State Fault Refusal := ctlCommand s loadCtx

/-! Pre-emption (R50, R341, R405, R406) -/

/-- The bind records of a context that have not been taken. -/
def boundOf (asid : BitVec 16) (m : Mach) : List BindRec := m.disp.slots.filter fun r => r.asid == asid && r.state == 0

/-- Withdraws the bound records of a context (R385). -/
def withdrawBound (asid : BitVec 16) (m : Mach) : Mach :=
  (boundOf asid m).foldl (fun m r =>
    (setRec r.core r.idx 2 m).updTask r.taskref fun t => { t with back := t.back ++ [r.gindex] }) m

/-- Sets QSTAT of every queue of a context. -/
def queuesStat (d : Dev) (asid : BitVec 16) (v : Nat) (m : Mach) : Mach :=
  (m.disp.queues.filter fun q => q.asid == asid).foldl (fun m q => setQstat d q.n v m) m

/-- The descriptor's fields that may have changed while the context was saved (R404). -/
def refreshDesc (d : Dev) (asid : BitVec 16) (m : Mach) : Mach :=
  m.updCtx asid fun c =>
    let x := ctxOf c.idx (readDesc d m c.idx)
    { c with savearea := x.savearea, savesize := x.savesize, drainus := x.drainus, saveus := x.saveus, linkto := x.linkto }

/-- PREEMPT (R405): the drain begins. -/
def execPreempt (s : State) : Host.Outcome State Fault Refusal :=
  ctxCommand s (fun st => st == .resident) fun asid c s =>
    (s.updCtl fun x => { x with cmdbusy := true }).withMach fun d m =>
      let m := m.updCtx asid fun x => { x with drainT := m.usec + (if c.drainus = 0 then 200 else c.drainus) }
      setCState d asid .draining (queuesStat d asid 4 (withdrawBound asid m))

/-- The event DRAIN_END (R405): no group is left, or DRAINUS has passed. The save takes every wave that has not passed a
marker within its last 32 words (R341). -/
def execDrainEnd (asid : BitVec 16) (s : State) : Host.Outcome State Fault Refusal :=
  match s.mach.ctx asid with
  | none => .next s
  | some c =>
    let left := s.mach.groups.any fun g => g.asid == asid
    if c.cstate != .draining || (left && s.mach.usec < c.drainT) then .next s
    else .next (s.withMach fun d m =>
      let runs := fun (w : Wave) => w.marker.isSome && decide (w.ckCount ≤ 32)
      let m := m.updCtx asid fun x => { x with drainT := m.usec + (if c.saveus = 0 then 2000 else c.saveus) }
      let m := { m with waves := m.waves.map fun w =>
        if w.asid == asid then { w with saved := if runs w then none else some none } else w }
      setCState d asid .saving m)

/-- A range of a live-range list (R362): class, first register, count. -/
def ckRange (n : Nat) : Nat × Nat × Nat := (bitsOf n 0 3, bitsOf n 3 10, bitsOf n 13 10 + 1)

/-- The allotment that bounds a class of a live-range list. -/
def ckBound (m : Mach) (w : Wave) (cls : Nat) : Nat :=
  match cls with
  | 0 => w.vAllot
  | 1 => maxNat (w.lanes.map fun x => x.c.length)
  | 2 => w.s.length
  | 3 => maxNat (w.lanes.map fun x => x.p.length)
  | 4 => maxNat ((w.groupsOf.filterMap (m.group w.core)).map fun g => g.alloc.acc)
  | 5 => 4
  | _ => 0

/-- The live ranges of the marker at which a wave was taken; none where it is saved whole (R361, R362). -/
def ckTable (d : Dev) (m : Mach) (w : Wave) : Option (List (Nat × Nat × Nat)) :=
  match w.saved, w.task.bind m.task with
  | some (some n), some t =>
    let dir := t.word 3
    let rd := fun (off k : Nat) => match readVa d m w.asid (dir + BitVec.ofNat 64 off) k true with
      | .ok bs => some (ofBytes bs)
      | .error _ => none
    if dir = 0 then none
    else match rd 0 8 with
      | none => none
      | some h =>
        if bitsOf h 16 48 != 0 then none
        else
          let es := (List.range (bitsOf h 0 16)).filterMap fun i => rd (8 + 8 * i) 8
          match es.find? fun e => bitsOf e 0 16 == n with
          | none => none
          | some e =>
            let off := bitsOf e 32 32
            let rs := (List.range (bitsOf e 16 8)).map fun i => rd (off + 4 * i) 4
            let bad := fun (r : Option Nat) => match r with
              | none => true
              | some r =>
                let x := ckRange r
                decide (5 < x.1) || bitsOf r 23 9 != 0 || decide (ckBound m w x.1 < x.2.1 + x.2.2)
            if bitsOf e 24 8 != 0 || off % 4 != 0 || rs.any bad then none
            else some ((rs.filterMap id).map ckRange)
  | _, _ => none

/-- A live-range list holds register `i` of a class. -/
def ckLive (rs : List (Nat × Nat × Nat)) (cls i : Nat) : Bool :=
  rs.any fun r => r.1 == cls && decide (r.2.1 ≤ i) && decide (i < r.2.1 + r.2.2)

/-- The wave as its image holds it: registers that its marker's list omits read as zero. -/
def saveWave (tbl : Option (List (Nat × Nat × Nat))) (w : Wave) : Wave :=
  match tbl with
  | none => w
  | some rs =>
    let keep := fun {α : Type} (cls : Nat) (zero : α) (xs : List α) => xs.mapIdx fun i x => if ckLive rs cls i then x else zero
    { w with
      s := keep 2 0 w.s
      lanes := w.lanes.map fun x => { x with v := keep 0 0 x.v, c := keep 1 0 x.c, e := keep 5 0 x.e, p := keep 3 false x.p } }

/-- The accumulators of a group as its image holds them: omitted, and clear after restore, where every wave of the group is
saved at a marker whose list omits it. -/
def saveAccs (d : Dev) (m : Mach) (g : Group) : Group :=
  let ws := m.waves.filter fun w => w.core == g.core && !w.ended && w.groupsOf.contains g.id
  let tbls := ws.map fun w => ckTable d m w
  let omits := fun (k : Nat) => !ws.isEmpty && tbls.all fun t => match t with
    | some rs => !ckLive rs 4 k
    | none => false
  { g with accs := g.accs.mapIdx fun k a => if omits k then { a with val := clearAcc a.val.g } else a }

/-- The core number under which the state of a saved context's groups stands. -/
def savedCore (asid : BitVec 16) (core : Nat) : Nat := 256 * (1 + asid.toNat) + core

/-- Moves what names waves and groups by their core to another core: stores and fences, check-outs, held words, numbered
stores and parked records. An ordering access that waits takes its place anew when its word issues again. -/
def moveUnits (pw pg : Nat → Nat → Bool) (goal : Nat → Nat) (m : Mach) : Mach :=
  let unit := fun (u : PUnit) => match u with
    | .wave c w => if pw c w then .wave (goal c) w else u
    | .seq c g t => if pg c g then .seq (goal c) g t else u
    | .seg c g k n => if pg c g then .seg (goal c) g k n else u
    | .store _ => u
  { m with
    disp := { m.disp with parked := m.disp.parked.map fun p => { p with unit := unit p.unit } }
    coh := { m.coh with
      stores := m.coh.stores.map fun (x : Store) => if pw x.core x.wave then { x with core := goal x.core } else x
      fences := (m.coh.fences.filter fun x => x.pc.isNone || !pw x.core x.wave).map fun (x : Fence) => if pw x.core x.wave then { x with core := goal x.core } else x
      checks := m.coh.checks.map fun (x : CheckOut) => if pg x.core x.group then { x with core := goal x.core } else x
      held := m.coh.held.map fun (x : HeldWord) => if pg x.core x.group then { x with core := goal x.core } else x
      reps := m.coh.reps.map fun (x : RepStore) => if pw x.core x.wave then { x with core := goal x.core } else x } }

/-- The most bytes that a group's image needs (R406). -/
def imageBound (m : Mach) (g : Group) : Nat :=
  let ws := m.waves.filter fun w => w.core == g.core && w.groupsOf.contains g.id
  4096 + 32768 * g.alloc.spad + 262144 * g.alloc.ostore + 24576 * g.alloc.acc
    + sumNat (ws.map fun w => w.width * (4 * w.vAllot + 4 * maxNat (w.lanes.map fun x => x.c.length) + 304) + 8 * w.s.length
        + 1024)

/-- The save-area header of a saved context (R406). -/
def saveHeader (c : Ctx) (groups bytes : Nat) : List Byte :=
  toBytes 16 (0x56534358 + 2 ^ 32 + 2 ^ 48 * c.asid.toNat + 2 ^ 64) ++ toBytes 4 groups ++ toBytes 8 bytes
    ++ List.replicate 4068 0

/-- The image of a context leaves the cores: its groups and waves stand in the context, and the save area holds private
bytes (log 11). -/
def saveImage (d : Dev) (c : Ctx) (bytes : Nat) (m : Mach) : Mach :=
  let asid := c.asid
  let gs := (m.groups.filter fun g => g.asid == asid).map (saveAccs d m)
  let ws := (m.waves.filter fun w => w.asid == asid).map fun w => saveWave (ckTable d m w) w
  let pw := fun (core wave : Nat) => ws.any fun w => w.core == core && w.id == wave
  let pg := fun (core g : Nat) => gs.any fun x => x.core == core && x.id == g
  let m := m.writeBackAll ((m.coh.l1.filter fun x => x.asid == asid && x.reg).map L1Word.word) false
  let m := { m with coh := { m.coh with l1 := m.coh.l1.filter fun x => x.asid != asid } }
  let body := (List.range (bytes - 36864)).map fun i => Config.saveByte (m.freeCount + i)
  let m := (m.writeBytes none c.savearea.toNat (saveHeader c gs.length bytes)).writeBytes none (c.savearea.toNat + 36864) body
  let m := moveUnits pw pg (savedCore asid) { m with freeCount := m.freeCount + bytes }
  let m := { m with
    groups := m.groups.filter fun g => g.asid != asid
    waves := m.waves.filter fun w => w.asid != asid }
  m.updCtx asid fun x => { x with
    groups := gs.map fun g => { g with core := savedCore asid g.core }
    waves := ws.map fun w => { w with core := savedCore asid w.core, slot := none }
    snap := { x.snap with armed := false } }

/-- Every wave of a context has been taken after its outstanding results have landed or parked it, and no store of it is in
flight (R50, R405). -/
def saveReady (asid : BitVec 16) (m : Mach) : Bool :=
  (m.waves.all fun w => w.asid != asid || w.ended
    || (saveTaken m w && (w.parked.isSome || w.deferred.all Deferred.reported)))
    && (m.coh.stores.all fun x => x.asid != asid || x.record.isSome)

/-- Performs the stores of a context that is saved, and receives their acknowledgements. -/
def saveStores (d : Dev) (asid : BitVec 16) (m : Mach) : Mach :=
  let m := drainStores d (fun x => x.asid == asid) m
  ((m.waves.filter fun w => w.asid == asid).map Wave.core).eraseDups.foldl (fun m c => m.receiveAcks c) m

/-- The image of a context is written, or kills the context where it is larger than the save area (R405). -/
def saveNow (c : Ctx) (s : State) : State :=
  let bound := sumNat ((s.mach.groups.filter fun g => g.asid == c.asid).map (imageBound s.mach))
  let bytes := 36864 + (Config.freeWord s.mach.freeCount).toNat % (bound + 1)
  let s := s.withMach fun _ m => { m with freeCount := m.freeCount + 1 }
  if 4096 * c.savesize < bytes then ctlEnd 5 (s.withMach fun d m => killCtx d 0xFF c.asid m)
  else ctlEnd 0 (s.withMach fun d m => setCState d c.asid .saved (saveImage d c bytes m))

/-- The event SAVE_COMPLETE (R405): the image is written in time. -/
def execSaveComplete (asid : BitVec 16) (s : State) : Host.Outcome State Fault Refusal :=
  let s := s.withMach fun d m => if m.saves asid then saveStores d asid m else m
  match s.mach.ctx asid with
  | none => .next s
  | some c => .next (if c.cstate != .saving || c.drainT < s.mach.usec || !saveReady asid s.mach then s else saveNow c s)

/-- The event SAVE_DEADLINE (R341, R405): SAVEUS passes first. The waves that run on to a marker are saved whole at their
current words; where that leaves nothing else to wait for the image is written, and otherwise the context is killed
(log 105). -/
def execSaveDeadline (asid : BitVec 16) (s : State) : Host.Outcome State Fault Refusal :=
  match s.mach.ctx asid with
  | none => .next s
  | some c =>
    if c.cstate != .saving || s.mach.usec < c.drainT then .next s
    else
      let runs := fun (w : Wave) => w.asid == asid && !w.ended && !saveTaken s.mach w
      let late := s.mach.waves.any runs
      let s := s.withMach fun d m =>
        saveStores d asid { m with waves := updWhere runs (fun w => { w with saved := some none }) m.waves }
      if late && saveReady asid s.mach then .next (saveNow c s)
      else .next (ctlEnd 5 (s.withMach fun d m => killCtx d 0xFF asid m))

/-! RESTORE (R407) -/

/-- The groups and waves that hang together: a wave with threads in two groups ties them. -/
def tiedTo (gs : List Group) (ws : List Wave) : Nat → List Group × List Wave → List Group × List Wave
  | 0, r => r
  | n + 1, r =>
    let w' := ws.filter fun w => r.2.contains w || r.1.any fun g => w.core == g.core && w.groupsOf.contains g.id
    let w' := ws.filter fun w => w'.contains w || w'.any fun v => v.core == w.core && v.partner == some w.id
    let g' := gs.filter fun g => r.1.contains g || w'.any fun w => w.core == g.core && w.groupsOf.contains g.id
    tiedTo gs ws n (g', w')

/-- The next unit to place: that of the first saved group, or of the first wave without a group. -/
def nextUnit (c : Ctx) : List Group × List Wave :=
  tiedTo c.groups c.waves (c.groups.length + 1) (match c.groups, c.waves with
    | g :: _, _ => ([g], [])
    | [], w :: _ => ([], [w])
    | [], [] => ([], []))

/-- A core has room for a saved unit, and its `%wave` and `%group` numbers are free there (R17, R50, R56). -/
def unitFits (m : Mach) (core : Nat) (gs : List Group) (ws : List Wave) : Bool :=
  let run := ws.filter fun w => !w.ended && w.parked.isNone && !w.evicted
  let sum := fun (f : GDesc → Nat) => sumNat (gs.map fun g => f g.alloc)
  let need : GDesc := ⟨sum GDesc.spad, sum GDesc.ostore, sum GDesc.bars, sum GDesc.tiles, sum GDesc.acc, 0, 0⟩
  poolHolds m core need
    && roomFits m core false (sumNat (run.map Wave.vTotal))
      (sumNat (run.map fun w => sumNat (w.lanes.map fun x => x.c.length))) (sumNat (run.map fun w => w.s.length))
      (sumNat (run.map Wave.threads))
    && !(gs.any fun g => m.groups.any fun x => x.core == core && x.id == g.id)
    && !(ws.any fun w => m.waves.any fun x => x.core == core && x.id == w.id)
    && decide (run.length + ((slotsUsed m core).filter fun n => decide (n < 126)).length ≤ 126)

/-- A wait after a restore: one on memory compares again, and a register request is made anew, at the tail of the core's
queue (R291, R292). -/
def WaitFor.reissue (order : Nat) (x : WaitFor) : WaitFor :=
  match x with
  | .waitw d size p reads homes unit u wake =>
    .waitw d size p reads homes unit u (if wake == .written then .written else .restored)
  | .grow d n ls u _ => .grow d n ls u order
  | x => x

/-- Gives a slot to a wave that was running. -/
def seatWave (core : Nat) (m : Mach) (w : Wave) : Mach :=
  if w.ended || w.parked.isSome || w.evicted then m
  else match freeSlot m core (mayStock m w) (mateSlot m { w with core := core }) with
    | some n => m.updWave core w.id fun x => { x with slot := some n }
    | none => m

/-- Places a saved unit on a core. -/
def placeUnit (asid : BitVec 16) (core : Nat) (gs : List Group) (ws : List Wave) (m : Mach) : Mach :=
  let pw := fun (k wave : Nat) => ws.any fun w => w.core == k && w.id == wave
  let pg := fun (k g : Nat) => gs.any fun x => x.core == k && x.id == g
  let m := moveUnits pw pg (fun _ => core) m
  let m := m.updCtx asid fun c => { c with
    groups := c.groups.filter fun g => !gs.contains g
    waves := c.waves.filter fun w => !ws.contains w }
  let back := fun (i : Nat) (w : Wave) =>
    { w with core := core, saved := none, fetched := [] }.wakeWhere (fun _ => true) (WaitFor.reissue (m.turnNo + i))
  let m := { m with
    groups := m.groups ++ gs.map (fun g => { g with core := core })
    waves := m.waves ++ ws.mapIdx back
    turnNo := m.turnNo + ws.length }
  ws.foldl (seatWave core) m

/-- Places saved units in saved order while cores have room. -/
def placeUnits (asid : BitVec 16) : Nat → Mach → Mach
  | 0, m => m
  | n + 1, m => match m.ctx asid with
    | none => m
    | some c =>
      let (gs, ws) := nextUnit c
      if gs.isEmpty && ws.isEmpty then m
      else
        let cores := (List.range 256).filter fun k => unitFits m k gs ws
        match cores with
        | [] => m
        | k :: _ =>
          let (i, m) := m.choose cores.length
          placeUnits asid n (placeUnit asid (cores.getD i k) gs ws m)

/-- The host has answered for a page of a context: a translation is cached, or the page request failed (R401). -/
def pageAnswered (m : Mach) (asid : BitVec 16) (page : Nat) : Bool :=
  !(m.coh.reqs.any fun r => r.asid == asid && r.page == page)
    && ((m.coh.ats.any fun a => a.asid == asid && a.page == page) || m.coh.prgFail.contains ⟨asid, page⟩)

/-- Retries the units that waited for a page that a test selects, where no handler serves 0x04 (R156, R401). -/
def retryPages (d : Dev) (asid : BitVec 16) (p : Mach → Nat → Bool) (m : Mach) : Mach :=
  match m.ctx asid with
  | none => m
  | some c =>
    if (faultEntry d m asid c.faulttab 0x04).queue != 0 then m
    else (m.disp.parked.filter fun x => x.asid == asid && x.code == 0x04).foldl (fun m x =>
      if p m (recField d m asid x.handle 96 64 / 4096) then applyRecord d x true m else m) m

/-- RESTORE goes on: the command ends when every group is placed. -/
def restoreOn (asid : BitVec 16) (s : State) : State :=
  let s := s.withMach fun _ m => match m.ctx asid with
    | some c => placeUnits asid (c.groups.length + c.waves.length) m
    | none => m
  match s.mach.ctx asid with
  | none => s
  | some c =>
    if !c.groups.isEmpty || !c.waves.isEmpty then s
    else ctlEnd 0 (s.withMach fun d m =>
      let m := setCState d asid .resident (m.updCtx asid fun x => { x with restoring := false })
      armSnap d asid true (retryPages d asid (fun m g => pageAnswered m asid g) (queuesStat d asid 0 m)))

/-- RESTORE (R407). While a restore waits for room, the event places the groups that then fit. -/
def execRestore (s : State) : Host.Outcome State Fault Refusal :=
  match s.mach.ctxs.find? fun c => c.restoring with
  | some c => .next (restoreOn c.asid s)
  | none => ctxCommand s (fun st => st == .saved) fun asid _ s =>
      restoreOn asid ((s.updCtl fun x => { x with cmdbusy := true }).withMach fun d m =>
        refreshDesc d asid (m.updCtx asid fun x => { x with restoring := true }))

/-! KILL, UNLOAD, INVAL (R393, R400) -/

/-- KILL (R115, R393). -/
def execKill (s : State) : Host.Outcome State Fault Refusal :=
  ctxCommand s (fun st => st != .nonresident && st != .killed) fun asid _ s =>
    ctlEnd 0 ((s.withMach fun d m => refreshDesc d asid m).withMach fun d m => killCtx d 0xFF asid m)

/-- Forgets all that a context left behind. -/
def forgetCtx (asid : BitVec 16) (m : Mach) : Mach :=
  { m with
    ctxs := m.ctxs.filter fun c => c.asid != asid
    coh := { m.coh with
      tlb := m.coh.tlb.filter fun t => t.asid != asid
      ats := m.coh.ats.filter fun t => t.asid != asid
      reqs := m.coh.reqs.filter fun t => t.asid != asid
      prgFail := m.coh.prgFail.filter fun t => t.asid != asid
      revoked := m.coh.revoked.filter fun t => t.asid != asid
      icache := m.coh.icache.filter fun t => t.asid != asid } }

/-- UNLOAD (R393): what a saved context holds is dropped, and the ASID is free. -/
def execUnload (s : State) : Host.Outcome State Fault Refusal :=
  ctxCommand s (fun st => st == .saved || st == .killed) fun asid c s =>
    ctlEnd 0 (s.withMach fun d m =>
      let m := clearCtx c (abortSnap d asid m)
      let m := m.updCtx asid fun x => { x with frozen := false }
      forgetCtx asid (setCState d asid .nonresident m))

/-- A page shares a byte with a range of addresses. -/
def pageIn (page lo len : Nat) : Bool := decide (4096 * page < lo + len) && decide (lo < 4096 * page + 4096)

/-- Invalidates the translations of a range of a context (R400): the accesses that used them are performed first, and the
instruction caches of the range are emptied. -/
def invalRange (d : Dev) (asid : BitVec 16) (lo len : Nat) (m : Mach) : Mach :=
  let m := reapWaves d (drainStores d (fun x => x.asid == asid && pageIn (x.va.toNat / 4096) lo len) m)
  let covers := fun (t : TlbEnt) =>
    let size := leafBytes t.level * (if bitOf t.entry.toNat 5 then 16 else 1)
    let base := 4096 * t.page / size * size
    t.asid == asid && decide (base < lo + len) && decide (lo < base + size)
  { m with
    waves := m.waves.map fun w => if w.asid == asid then
      { w with fetched := w.fetched.filter fun x => !pageIn (x.1.toNat / 4096) lo len } else w
    coh := { m.coh with
      tlb := m.coh.tlb.filter fun t => !covers t
      icache := m.coh.icache.filter fun x => !(x.asid == asid && pageIn (x.va.toNat / 4096) lo len) } }

/-- INVAL (R400). -/
def execInval (s : State) : Host.Outcome State Fault Refusal :=
  ctxCommand s (fun st => st != .nonresident) fun asid _ s =>
    ctlEnd 0 (s.withMach fun d m => invalRange d asid d.ctl.cmdarg.toNat d.ctl.cmdlen.toNat m)

/-! Freeze and step (R51, R408) -/

/-- STEP (R51, R393): a frozen context's stepped wave may go on. -/
def execStepCmd (s : State) : Host.Outcome State Fault Refusal :=
  ctxCommand s (fun st => st == .resident) fun asid c s =>
    let n := s.dev.ctl.cmdarg.toNat
    ctlEnd 0 (s.withMach fun _ m => match m.wave (bitsOf n 0 8) (bitsOf n 8 8) with
      | none => m
      | some w =>
        if w.asid != asid then m
        else m.updWave w.core w.id fun w =>
          { w with step := (w.step &&& ~~~3) ||| BitVec.ofNat 64 (bitsOf n 16 2), stopped := w.stopped && !c.frozen })

/-- Freezes or thaws a context. -/
def setFrozen (on : Bool) (asid : BitVec 16) (s : State) : State :=
  ctlEnd 0 (s.withMach fun d m =>
    let m := m.updCtx asid fun c => { c with frozen := on }
    noteCState d asid { m with waves := m.waves.map fun w => if w.asid == asid then { w with stopped := on } else w })

/-- FREEZE (R408). -/
def execFreeze (s : State) : Host.Outcome State Fault Refusal :=
  ctxCommand s (fun st => st == .resident) fun asid _ s => setFrozen true asid s

/-- THAW (R408). -/
def execThaw (s : State) : Host.Outcome State Fault Refusal :=
  ctxCommand s (fun st => st == .resident) fun asid _ s => setFrozen false asid s

/-- A command code that is not defined (R393). -/
def execCmdUnknown (code : BitVec 4) (s : State) : Host.Outcome State Fault Refusal :=
  if 1 ≤ code.toNat && code.toNat ≤ 9 then .next s else ctlCommand s (ctlEnd 6)

end Sys2Proof.Machine
end

