-- ==== Sys2Proof/Machine/Service.lean ====
section
/-! DEFINITION. Service cores: capabilities, the service address space, `vspawn` and `vjoin`, and the service OS that serves
kernels' requests (R365, R366, R412 to R425, R435). -/

namespace Sys2Proof.Machine

/-! The service address space (R412) -/

/-- The context window of the service address space: the global virtual address, where bits 62:57 are zero (R412). -/
def windowVa (a : BitVec 64) : Option (BitVec 64) :=
  if a.getLsbD 63 && bitsOf a.toNat 57 6 == 0 then some (BitVec.ofNat 64 (bitsOf a.toNat 0 57)) else none

/-- The word of an instruction at a service address, in HBM or the context window; or the cause of the exception that the
fetch raises: 12 for a page fault and 1 for an access fault (R412, log 15). -/
def fetchService (d : Dev) (m : Mach) (c : SvcCore) : Except Nat Nat :=
  let at_ := fun (pa : Nat) => if (m.lostIn pa 4).isSome then Except.error 1 else .ok (ofBytes (m.homeBytes pa 4))
  if c.pc.toNat + 4 ≤ hbmBytes then at_ c.pc.toNat
  else match windowVa c.pc with
    | none => .error 1
    | some va => match translate d m 0 (c.svasid.setWidth 16) va .x false with
      | .error _ => .error 12
      | .ok x => if x.err.isSome then .error 1 else at_ x.pa

/-- A RISC-V `fence`, by the encoding of the base set (log 106). A service core performs its accesses at their homes as it
issues them and holds no copies, so that a fence finds nothing to wait for (R108). -/
def isFence (x : Nat) : Bool := bitsOf x 0 7 == 0x0F && bitsOf x 12 3 == 0

/-- Changes a service core. -/
def State.updSvc (s : State) (n : Nat) (f : SvcCore → SvcCore) : State := { s with svc := updAt s.svc n f }

/-- Raises an exception on a service core: its cause and `stval`. -/
def raiseSvc (n cause : Nat) (tval : BitVec 64) (s : State) : State :=
  s.updSvc n fun c => { c with exc := some (cause, tval), joining := none }

/-- A register of a service core; `x0` reads zero. -/
def SvcCore.reg (c : SvcCore) (r : Nat) : BitVec 64 := if r = 0 then 0 else c.x.getD r 0

/-- Completes an instruction of a service core: `rd` is written, untagged, and the program counter advances. -/
def SvcCore.finish (c : SvcCore) (rd : Nat) (val : BitVec 64) : SvcCore :=
  { c with
    pc := c.pc + 4, joining := none
    x := if rd = 0 then c.x else c.x.set rd val
    caps := if rd = 0 then c.caps else c.caps.set rd none }

/-- The service core whose instruction is performed. -/
def State.curSvc (s : State) : Option (Nat × SvcCore) := match s.mach.cur with
  | some (.service n) => (s.svc[n]?).map fun c => (n, c)
  | _ => none

/-! Violations (R423, R435) -/

/-- Code of a violation's source. -/
def srcBits : VSource → Nat
  | .pcie => 0
  | .cxlmem => 1
  | .peer => 2
  | .service => 3

/-- Code of a violation's kind. -/
def kindBits : VKind → Nat
  | .read => 0
  | .write => 1
  | .atomic => 2
  | .execute => 3

/-- Logs a violation: the latest is kept, and each is counted. -/
def logViolation (src : VSource) (kind : VKind) (addr : BitVec 64) (s : State) : State :=
  { s with dev := { s.dev with mgt := { s.dev.mgt with
      vaddr := addr, vsrc := BitVec.ofNat 2 (srcBits src), vkind := BitVec.ofNat 2 (kindBits kind)
      vcount := if s.dev.mgt.vcount = 0xFFFF then 0xFFFF else s.dev.mgt.vcount + 1 } } }

/-! Capabilities (R413, R414, R416) -/

/-- The bounds of a capability from its address and the 64 bits above it; none where it is invalid (R413, R414). -/
def capBounds (addr hi : BitVec 64) : Option (Nat × Nat) :=
  let n := hi.toNat
  let g := bitsOf n 0 6
  let here := addr.toNat / 2 ^ g
  let d : Nat := (here + 2 ^ 18 - bitsOf n 6 18) % 2 ^ 18
  let base : Int := ((here : Int) - (d : Int)) * 2 ^ g
  let len := (if bitsOf n 24 18 = 0 then 2 ^ 18 else bitsOf n 24 18) * 2 ^ g
  let top := base + len
  if 46 < g || bitsOf n 51 3 != 0 || bitsOf n 54 10 == 0x3FF || decide ((2 ^ 64 : Int) < top) || decide (base < 0) then none
  else some (base.toNat, top.toNat)

/-- The management window begins here (R425). -/
def windowBase : Nat := 0x10000000000

/-- An address of the management window. -/
def inWindow (a : Nat) : Bool := decide (windowBase ≤ a) && decide (a < windowBase + 2 ^ 26)

/-- A capability in a register grants an access (R416): `right` is the bit of RIGHTS that names the kind of access. -/
def capGrants (c : SvcCore) (r : Nat) (size right : Nat) : Bool :=
  match c.caps.getD r none with
  | none => false
  | some hi =>
    let a := (c.reg r).toNat
    match capBounds (c.reg r) hi with
    | none => false
    | some (base, top) =>
      let rights := fun (b : Nat) => bitOf hi.toNat (b - 64)
      bitsOf hi.toNat 54 10 == 0 && decide (base ≤ a) && decide (a + size ≤ top) && rights right
        && (!(c.reg r).getLsbD 63 || rights 113) && (!inWindow a || rights 114)

/-! The management window (R425) -/

/-- The attach block as it reads (R371). -/
def attachBits (d : Dev) : Nat :=
  let a := d.att
  0x0A40 + 2 ^ 64 * 0x0011111111111111 + 2 ^ 128 * a.ifhost.toNat + 2 ^ 192 * a.ifneg.toNat + 2 ^ 256 * a.mode.toNat
    + 2 ^ 259 * a.attached.toNat + 2 ^ 272 * a.pollint.toNat + 2 ^ 320 * a.qtbase.toNat + 2 ^ 448 * a.rgbase.toNat
    + 2 ^ 512 * a.modid.toNat + 2 ^ 526 * (a.modid.toNat / 256) + 2 ^ 532 * a.porten.toNat + 2 ^ 544 * a.linkup.toNat

/-- The control block as it reads (R392). -/
def controlBits (d : Dev) : Nat :=
  let c := d.ctl
  c.ctxbase.toNat + 2 ^ 80 * c.cmdasid.toNat + 2 ^ 96 * c.cmdarg.toNat + 2 ^ 160 * c.cmdlen.toNat
    + 2 ^ 224 * c.cmdbusy.toNat + 2 ^ 225 * c.cmdres.toNat + 2 ^ 258 * c.rstkind.toNat + 2 ^ 261 * c.failcnt.toNat
    + 2 ^ 263 * c.recovery.toNat + 2 ^ 264 * c.bootstage.toNat

/-- The management block as it reads (R423). -/
def mgmtBits (d : Dev) : Nat :=
  let g := d.mgt
  2 ^ 16 * g.mbbusy.toNat + 2 ^ 17 * g.mbres.toNat + 2 ^ 64 * g.mbbuf.toNat + 2 ^ 128 * g.lcstate.toNat
    + 2 ^ 192 * g.fwsvn.toNat + 2 ^ 208 * g.svnmin.toNat + 2 ^ 224 * g.feedid.toNat + 2 ^ 256 * g.pwrcap.toNat
    + 2 ^ 272 * g.pwrnow.toNat + 2 ^ 288 * g.clknow.toNat + 2 ^ 304 * g.tempmax.toNat + 2 ^ 312 * g.tlimit.toNat
    + 2 ^ 320 * g.throt.toNat + 2 ^ 324 * g.tripcnt.toNat + 2 ^ 384 * g.vaddr.toNat + 2 ^ 448 * g.vsrc.toNat
    + 2 ^ 450 * g.vkind.toNat + 2 ^ 464 * g.vcount.toNat

/-- The survival block as it reads (R439). -/
def survivalBits (d : Dev) (m : Mach) : Nat :=
  let x := d.srv
  2 ^ 8 * x.svbusy.toNat + 2 ^ 9 * x.svres.toNat + 2 ^ 16 * x.svasid.toNat + 2 ^ 32 * x.srcmod.toNat
    + 2 ^ 48 * x.holdmod.toNat + 2 ^ 64 * x.partner.toNat + 2 ^ 80 * x.pstate.toNat + 2 ^ 96 * x.rsvpct.toNat
    + 2 ^ 128 * x.rsvbase.toNat + 2 ^ 192 * x.errbase.toNat + 2 ^ 256 * x.errcap.toNat + 2 ^ 288 * m.errnext.toNat
    + 2 ^ 320 * m.errdrop.toNat + 2 ^ 336 * x.retired.length

/-- The 512 bits of a bind record (R384). -/
def bindBits (r : BindRec) : Nat :=
  1 + 2 * r.kind + 2 ^ 3 * r.prio + 2 ^ 6 * r.depth + 2 ^ 8 * r.state + 2 ^ 16 * r.asid.toNat + 2 ^ 32 * r.gindex
    + 2 ^ 64 * r.lr.toNat + 2 ^ 128 * r.arg.toNat + 2 ^ 192 * r.user0.toNat + 2 ^ 256 * r.user1.toNat
    + 2 ^ 320 * (r.deadline % 2 ^ 32) + 2 ^ 352 * (r.budget % 2 ^ 32) + 2 ^ 384 * r.taskref

/-- An aligned 8-byte word of the slot tables (R384, R424). -/
def slotWord (m : Mach) (off : Nat) : Nat :=
  match m.disp.slots.find? fun r => r.core == off / 2048 && r.idx == off % 2048 / 64 with
  | some r => bitsOf (bindBits r) (8 * (off % 64)) 64
  | none => 0

/-- An aligned 8-byte word of the management window. -/
def windowWord (d : Dev) (m : Mach) (off : Nat) : Nat :=
  if off < 0x80000 then slotWord m off
  else if 0x800000 ≤ off && off < 0x800400 then
    let b := off - 0x800000
    if b < 0x80 then bitsOf (attachBits d) (8 * b) 64
    else if b < 0x100 then bitsOf (controlBits d) (8 * (b - 0x80)) 64
    else if b < 0x200 then bitsOf (mgmtBits d) (8 * (b - 0x100)) 64
    else bitsOf (survivalBits d m) (8 * (b - 0x200)) 64
  else 0

/-- What an aligned 8-byte load of a service core answers: the word, or the cause of an exception. -/
def serviceLoad (d : Dev) (m : Mach) (c : SvcCore) (a : BitVec 64) : Except Nat (BitVec 64) :=
  let at_ := fun (pa : Nat) => if (m.lostIn pa 8).isSome then Except.error 5 else .ok (m.homeValue (pa / 8))
  if a.toNat + 8 ≤ hbmBytes then at_ a.toNat
  else if inWindow a.toNat then .ok (BitVec.ofNat 64 (windowWord d m (a.toNat - windowBase)))
  else match windowVa a with
    | none => .error 5
    | some va => match translate d m 0 (c.svasid.setWidth 16) va .r false with
      | .error _ => .error 13
      | .ok x => if x.err.isSome then .error 5 else at_ x.pa

/-! `vspawn` and `vjoin` (R418 to R420) -/

/-- The waves of a task, shadow waves apart. -/
def spawnWaves (lr : List (BitVec 64)) : Nat :=
  let g := lrField lr 288 16
  let n := lrField lr 256 32
  sumNat ((List.range (waveCount n g)).map fun i => waveCount (min g (n - i * g)) (lrWidth lr))

/-- The task that `vspawn` hands to dispatch. -/
def spawnTask (c : SvcCore) (lrAddr arg : BitVec 64) (lr : List (BitVec 64)) (m : Mach) : Mach :=
  let t : Task :=
    { id := m.disp.nextId, lrAddr := lrAddr, lr := lr, asid := c.svasid.setWidth 16, arg := arg, user0 := c.svjctr, user1 := 0,
      kind := 0, depth := 0, prio := lrField lr 306 3,
      deadline := if lrField lr 448 32 = 0 then 0 else m.usec + lrField lr 448 32, budget := lrField lr 416 32,
      groups := waveCount (lrField lr 256 32) (lrField lr 288 16), nextG := 0, back := [], live := 0, doneG := 0,
      started := false, ended := false, jctr := c.svjctr, only := none, ftask := none, parent := none, used := 0 }
  { m with disp := { m.disp with tasks := m.disp.tasks ++ [t], nextId := m.disp.nextId + 1 } }

/-- `vspawn` (R419): the result register takes the number of waves, or minus the reason of a refusal. -/
def execVspawn (rd rs1 rs2 : Fin 32) (s : State) : Host.Outcome State Fault Refusal :=
  match s.curSvc with
  | none => .next s
  | some (n, c) =>
    if c.user then .next (raiseSvc n 2 (BitVec.ofNat 64 ((serviceWord (.vspawn rd rs1 rs2)).getD 0)) s)
    else
      let asid := c.svasid.setWidth 16
      let addr := c.reg rs1.val
      let done := fun (x : Int) (s : State) => s.updSvc n fun c => c.finish rd.val (BitVec.ofInt 64 x)
      if !resident s.mach asid then .next (done (-7) s)
      else
        let r := taskReason s.dev s.mach asid addr
        if r != 0 then .next (done (-(r : Int)) (s.withMach fun d m => countStatus d asid addr r m))
        else
          let lr := (readVaWords s.dev s.mach asid addr 16).getD []
          .next (done (spawnWaves lr) (s.withMach fun _ m => spawnTask c addr (c.reg rs2.val) lr m))

/-- A join counter meets a target (R420). -/
def joinMet (c target : BitVec 64) : Bool := c.getLsbD 63 || decide (target.toNat ≤ bitsOf c.toNat 0 63)

/-- Reads the counter of a `vjoin`: the instruction completes, waits, or raises an exception. -/
def joinNow (n : Nat) (c : SvcCore) (rd rs1 rs2 : Nat) (s : State) : State :=
  match serviceLoad s.dev s.mach c (c.reg rs1) with
  | .error e => raiseSvc n e (c.reg rs1) s
  | .ok x =>
    if joinMet x (c.reg rs2) then s.updSvc n fun c => c.finish rd x
    else s.updSvc n fun c => { c with joining := some (rd, rs1, rs2) }

/-- `vjoin` (R420). -/
def execVjoin (rd rs1 rs2 : Fin 32) (s : State) : Host.Outcome State Fault Refusal :=
  match s.curSvc with
  | none => .next s
  | some (n, c) =>
    let word := BitVec.ofNat 64 ((serviceWord (.vjoin rd rs1 rs2)).getD 0)
    let a := c.reg rs1.val
    if c.user || (c.reg rs2.val).getLsbD 63 then .next (raiseSvc n 2 word s)
    else if a.toNat % 8 != 0 then .next (raiseSvc n 4 a s)
    else if !capGrants c rs1.val 8 106 then .next (raiseSvc n 26 a (logViolation .service .read a s))
    else .next (joinNow n c rd.val rs1.val rs2.val s)

/-- The event VJOIN_WAKE (R420): the counter is read again. -/
def execVjoinWake (core : Nat) (s : State) : Host.Outcome State Fault Refusal :=
  match s.svc[core]? with
  | none => .next s
  | some c => match c.joining with
    | none => .next s
    | some (rd, rs1, rs2) => .next (joinNow core c rd rs1 rs2 s)

/-! Service requests (R365, R366, R421, R422) -/

/-- A service request as its entry holds it. -/
structure SvcReq where
  op    : Nat
  high  : Nat
  arg0  : BitVec 64
  reply : BitVec 64
  arg1  : BitVec 64
  deriving DecidableEq, Repr

/-- A request from the four words of its entry. -/
def reqOf (e : List (BitVec 64)) : SvcReq :=
  { op := bitsOf (e.getD 0 0).toNat 0 16, high := bitsOf (e.getD 0 0).toNat 16 48, arg0 := e.getD 1 0, reply := e.getD 2 0,
    arg1 := e.getD 3 0 }

/-- Writes RESULT, then STATUS, of a reply block (R366); none of it where the block is misaligned or cannot be written. -/
def sendReply (d : Dev) (asid : BitVec 16) (reply : BitVec 64) (res : Option Nat) (m : Mach) : Mach :=
  if reply.toNat % 16 != 0 then m
  else
    let st := match res with
      | some _ => 1
      | none => 2
    match writeVa d m asid (reply + 8) (toBytes 8 (res.getD 0)) true with
    | none => m
    | some m => (writeVa d m asid reply (toBytes 8 st) true).getD m

/-- The head request of a registered queue that the service OS may take. -/
def headRequest (d : Dev) (m : Mach) (q : SvcQueue) : Option (QHdr × SvcReq) :=
  let runs := match m.ctx q.asid with
    | some c => c.cstate == .resident || c.cstate == .draining
    | none => false
  if !runs || !d.agreed 3 then none
  else match readHdr d m q.asid q.hdr with
    | none => none
    | some h =>
      if h.bad || !h.clean || h.kind != 2 || h.head = h.tail then none
      else
        let va := h.slotVa h.head
        match translateRange d m 0 q.asid va 32 .r true, readVaWords d m q.asid va 4 with
        | .ok ps, some e => if slotOpen m (firstPa ps) then none else some (h, reqOf e)
        | _, _ => none

/-- Serves the head request of queue `k` where it asks for `op`; a code that is not defined is refused. -/
def serveRequest (k op : Nat) (f : SvcQueue → SvcReq → State → Option (Nat × State)) (s : State) :
    Host.Outcome State Fault Refusal :=
  match s.svcq[k]? with
  | none => .next s
  | some q => match headRequest s.dev s.mach q with
    | none => .next s
    | some (h, r) =>
      let known := 1 ≤ r.op && r.op ≤ 7
      if known && r.op != op then .next s
      else
        let s := s.withMach fun d m => setHdr d m q.asid q.hdr 0 ((h.head + 1) % 2 ^ 32)
        match if known then f q r s else none with
        | some (res, s) => .next (s.withMach fun d m => sendReply d q.asid r.reply (some res) m)
        | none => .next (s.withMach fun d m => sendReply d q.asid r.reply none m)

/-- The physical address of the level-0 entry of a page, where its tables exist (R396). -/
def leafSlot (m : Mach) (t va : Nat) : Nat → Option Nat
  | 0 => some (t + 8 * bitsOf va 12 9)
  | lv + 1 =>
    let e := (m.homeValue ((t + 8 * bitsOf va (21 + 9 * lv) 9) / 8)).toNat
    if !bitOf e 0 || pteBad (lv + 1) e || bitOf e 1 then none else leafSlot m (4096 * bitsOf e 12 38) va lv

/-- Maps a page of a context to a frame of HBM, readable and writable, where nothing is mapped. -/
def mapPage (asid : BitVec 16) (va frame : Nat) (m : Mach) : Option Mach :=
  match m.ctx asid with
  | none => none
  | some c =>
    if va % 4096 != 0 || 2 ^ 57 ≤ va || frame % 4096 != 0 || privateBase ≤ frame then none
    else match leafSlot m c.ptroot.toNat va 4 with
      | none => none
      | some a => if (m.homeValue (a / 8)).getLsbD 0 then none else some (m.devWrite a (toBytes 8 (frame + 0xF)))

/-- Maps consecutive pages. -/
def mapPages (asid : BitVec 16) (va frame : Nat) : Nat → Mach → Option Mach
  | 0, m => some m
  | n + 1, m => match mapPage asid va frame m with
    | none => none
    | some m => mapPages asid (va + 4096) (frame + 4096) n m

/-- Removes the mapping of a range of pages under R400. -/
def unmapPages (d : Dev) (asid : BitVec 16) (va n : Nat) (m : Mach) : Mach :=
  match m.ctx asid with
  | none => m
  | some c =>
    let m := (List.range n).foldl (fun m i => match leafSlot m c.ptroot.toNat (va + 4096 * i) 4 with
      | some a => m.devWrite a (toBytes 8 0)
      | none => m) m
    invalRange d asid va (4096 * n) m

/-- Writes zero into every word of a range of HBM. -/
def zeroRange (lo len : Nat) (m : Mach) : Mach :=
  let inside := fun (a : Nat) => decide (lo ≤ a) && decide (a < lo + len)
  let ws := ((m.mem.filterMap fun (c : Host.Cell) => if inside c.1 then some (c.1 / 8) else none)
    ++ m.coh.words.filterMap fun (h : HWord) => if inside (8 * h.word) then some h.word else none).eraseDups
  ws.foldl (fun m w => m.writeWord none w 0 (List.replicate 8 0)) m

/-- Records a placement of a context. -/
def notePlace (asid : BitVec 16) (p : Placement) (m : Mach) : Mach := m.updCtx asid fun c => { c with places := c.places ++ [p] }

/-- Forgets a placement of a context. -/
def dropPlace (asid : BitVec 16) (p : Placement) (m : Mach) : Mach :=
  m.updCtx asid fun c => { c with places := c.places.filter fun x => x != p }

/-- The placement of a context that a test selects. -/
def findPlace (m : Mach) (asid : BitVec 16) (f : Placement → Bool) : Option Placement :=
  (m.ctx asid).bind fun c => c.places.find? f

/-- The late-bound window of a context that an address lies in. -/
def windowOf (m : Mach) (asid : BitVec 16) (va : Nat) : Option LateWindow :=
  (m.ctx asid).bind fun c => c.windows.find? fun w => decide (w.base.toNat ≤ va) && decide (va < w.base.toNat + w.bytes)

/-- MAP (R366): a page that holds the window's backing data is placed at an address, and in a frame, that the service OS
chooses. A placement at address 0, or inside a window, fails. -/
def execMap (k : Nat) (place frame : BitVec 64) (s : State) : Host.Outcome State Fault Refusal :=
  serveRequest k 1 (fun q r s =>
    let page := BitVec.ofNat 64 (r.arg0.toNat / 4096 * 4096)
    if r.high != 0 || r.arg1 != 0 then none
    else match windowOf s.mach q.asid r.arg0.toNat with
      | none => none
      | some win => match findPlace s.mach q.asid fun p => !p.alloc && p.src == page with
        | some p => some (p.va.toNat, s)
        | none =>
          if place = 0 || (windowOf s.mach q.asid place.toNat).isSome then none
          else (mapPage q.asid place.toNat frame.toNat s.mach).map fun m =>
            let data := m.homeBytes (win.backing + (page.toNat - win.base.toNat)) 4096
            (place.toNat, { s with mach := notePlace q.asid ⟨place, page, 4096, false⟩ (m.devWrite frame.toNat data) })) s

/-- UNMAP (R422). -/
def execUnmap (k : Nat) (s : State) : Host.Outcome State Fault Refusal :=
  serveRequest k 2 (fun q r s =>
    if r.high != 0 || r.arg1 != 0 then none
    else match findPlace s.mach q.asid fun p => !p.alloc && p.va == r.arg0 with
      | none => none
      | some p => some (0, s.withMach fun d m => dropPlace q.asid p (unmapPages d q.asid p.va.toNat 1 m))) s

/-- ALLOC (R422): zeroed HBM at a place and from a frame that the service OS chooses. -/
def execAlloc (k : Nat) (place frame : BitVec 64) (s : State) : Host.Outcome State Fault Refusal :=
  serveRequest k 3 (fun q r s =>
    let align := r.arg0.toNat
    let pages := (r.arg1.toNat + 4095) / 4096
    let pow := (List.range 19).any fun i => align == 4096 * 2 ^ i
    if r.high != 0 || !pow || r.arg1 = 0 || 2 ^ 40 < r.arg1.toNat || place = 0 || place.toNat % align != 0
        || privateBase < frame.toNat + 4096 * pages then none
    else (mapPages q.asid place.toNat frame.toNat pages s.mach).map fun m =>
      (place.toNat, { s with mach := notePlace q.asid ⟨place, 0, 4096 * pages, true⟩ (zeroRange frame.toNat (4096 * pages) m) })) s

/-- FREE (R422). -/
def execFree (k : Nat) (s : State) : Host.Outcome State Fault Refusal :=
  serveRequest k 4 (fun q r s =>
    if r.high != 0 || r.arg1 != 0 then none
    else match findPlace s.mach q.asid fun p => p.alloc && p.va == r.arg0 with
      | none => none
      | some p =>
        some (0, s.withMach fun d m => dropPlace q.asid p (unmapPages d q.asid p.va.toNat (p.bytes / 4096) m))) s

/-- Bytes of a context's memory as the context itself may read them. -/
def readAs (d : Dev) (m : Mach) (asid : BitVec 16) (va : BitVec 64) (n : Nat) : Option (List Byte) :=
  match readVa d m asid va n false with
  | .ok bs => some bs
  | .error _ => none

/-- The file of a handle: its base and its size. -/
def fileOf (d : Dev) (m : Mach) (q : SvcQueue) (handle : Nat) : Option (BitVec 64 × Nat) :=
  if q.ftcount ≤ handle || q.ftab = 0 then none
  else (readVaWords d m q.asid (q.ftab + BitVec.ofNat 64 (16 * handle)) 2).map fun w => (w.getD 0 0, (w.getD 1 0).toNat)

/-- FREAD and FWRITE: the bytes that the file bounds, copied one way or the other. -/
def copyFile (write : Bool) (q : SvcQueue) (r : SvcReq) (s : State) : Option (Nat × State) :=
  let len := r.high / 2 ^ 16
  if len = 0 then none
  else match fileOf s.dev s.mach q (r.high % 2 ^ 16) with
    | none => none
    | some (base, size) =>
      let off := r.arg1.toNat
      let n := min len (size - off)
      let file := base + BitVec.ofNat 64 off
      let (from_, goal) := if write then (r.arg0, file) else (file, r.arg0)
      if n = 0 then some (0, s)
      else match readAs s.dev s.mach q.asid from_ n with
        | none => none
        | some bs => (writeVa s.dev s.mach q.asid goal bs false).map fun m => (n, { s with mach := m })

/-- FREAD (R422). -/
def execFread (k : Nat) (s : State) : Host.Outcome State Fault Refusal := serveRequest k 5 (copyFile false) s

/-- FWRITE (R422). -/
def execFwrite (k : Nat) (s : State) : Host.Outcome State Fault Refusal := serveRequest k 6 (copyFile true) s

/-- LOG (R422): the message is appended whole to the queue's ring of 64 KiB. -/
def execLog (k : Nat) (s : State) : Host.Outcome State Fault Refusal :=
  serveRequest k 7 (fun q r s =>
    let len := r.high / 2 ^ 16
    if r.high % 2 ^ 16 != 0 || r.arg1 != 0 || len = 0 || 4096 < len || q.logring = 0 then none
    else match readAs s.dev s.mach q.asid r.arg0 len with
      | none => none
      | some bs =>
        let pos := q.logpos % 65536
        let fit := min len (65536 - pos)
        match writeVa s.dev s.mach q.asid (q.logring + BitVec.ofNat 64 pos) (bs.take fit) false with
        | none => none
        | some m => match if fit = len then some m else writeVa s.dev m q.asid q.logring (bs.drop fit) false with
          | none => none
          | some m => some (0, { s with
              mach := m, svcq := updWhere (fun (x : SvcQueue) => x == q) (fun x => { x with logpos := x.logpos + len }) s.svcq })) s

end Sys2Proof.Machine
end

