-- ==== Sys2Proof/Machine/HostSide.lean ====
section
/-! DEFINITION. The host: attachment, plain register fields, the host's accesses to HBM, violations, snoops, address
translation services (R12, R370 to R373, R401 to R403, R424, R435, R449). -/

namespace Sys2Proof.Machine

/-- The module is past its start and has power (R409). -/
def Dev.ready (d : Dev) : Bool := d.ctl.powered && d.ctl.bootstage == 7

/-- Changes the attach block. -/
def State.updAtt (s : State) (f : Attach → Attach) : State := { s with dev := { s.dev with att := f s.dev.att } }

/-- Changes the management block. -/
def State.updMgt (s : State) (f : Mgmt → Mgmt) : State := { s with dev := { s.dev with mgt := f s.dev.mgt } }

/-! Attaching (R373) -/

/-- The agreed versions for what the host supports: the device supports version 1 of each interface. -/
def agreeOn (ifhost : BitVec 64) : BitVec 64 :=
  BitVec.ofNat 64 (sumNat ((List.range 7).map fun n => if bitsOf ifhost.toNat (4 * n) 4 = 0 then 0 else 2 ^ (4 * n)))

/-- The event ATTACH (R373). Whether the link comes up with CXL.cache and CXL.mem is a choice. -/
def execAttach (s : State) : Host.Outcome State Fault Refusal :=
  let a := s.dev.att
  if !s.dev.ready || s.dev.ctl.recovery || a.attached then .next s
  else
    let neg := agreeOn a.ifhost
    let (down, m) := if a.mode = 1 then s.mach.choose 2 else (0, s.mach)
    let ok := bitOf neg.toNat 0 && bitOf neg.toNat 4 && bitOf neg.toNat 8 && down == 0 && (a.mode == 1 || a.mode == 2)
    .next (({ s with mach := m }).updAtt fun a => { a with ifneg := neg, attached := ok, refused := !ok })

/-! Plain register fields (R12, R371, R392, R417, R423, R439) -/

/-- A write of a service core's CSR (R417): a nonzero reserved bit, or user mode, is illegal. -/
def writeCsr (n : Nat) (bad : Bool) (f : SvcCore → SvcCore) (s : State) : State :=
  match s.svc[n]? with
  | none => s
  | some c =>
    if c.user || bad then
      let (x, m) := s.mach.fresh
      raiseSvc n 2 x { s with mach := m }
    else s.updSvc n f

/-- A write to the attach block that does not depend on the attachment, and to the blocks of other interfaces. -/
def plainWrite (field : RegField) (v : BitVec 64) (s : State) : State :=
  let d := s.dev
  let a := d.att
  let agreed := fun (n : Nat) => !a.attached || d.agreed n
  let survival := fun (f : Survival → Survival) => if agreed 4 then s.updSrv f else s
  let anyArmed := s.mach.ctxs.any fun c => c.snap.armed
  match field with
  | .ifhost => if a.attached then s else s.updAtt fun a => { a with ifhost := v }
  | .mode => if a.attached || v.setWidth 2 = 3 then s else s.updAtt fun a => { a with mode := v.setWidth 2 }
  | .pollint => if a.attached then s else s.updAtt fun a => { a with pollint := v.setWidth 16 }
  | .qtbase => s.updAtt fun a => { a with qtbase := v }
  | .rgbase => s.updAtt fun a => { a with rgbase := v }
  | .porten => s.updAtt fun a => { a with porten := v.setWidth 12 }
  | .ctxbase => s.updCtl fun c => { c with ctxbase := v }
  | .cmdasid => s.updCtl fun c => { c with cmdasid := v.setWidth 16 }
  | .cmdarg => s.updCtl fun c => { c with cmdarg := v }
  | .cmdlen => s.updCtl fun c => { c with cmdlen := v }
  | .mbbuf => if agreed 6 then s.updMgt fun g => { g with mbbuf := v } else s
  | .pwrcap =>
    let n := bitsOf v.toNat 0 12
    if agreed 6 && 400 ≤ n && n ≤ 2400 then s.updMgt fun g => { g with pwrcap := v.setWidth 12 } else s
  | .tlimit =>
    let n := bitsOf v.toNat 0 8
    if agreed 6 && 70 ≤ n && n ≤ 100 then s.updMgt fun g => { g with tlimit := v.setWidth 8 } else s
  | .svasid => survival fun x => { x with svasid := v.setWidth 16 }
  | .srcmod => survival fun x => { x with srcmod := v.setWidth 14 }
  | .holdmod => survival fun x => { x with holdmod := v.setWidth 14 }
  | .partner => survival fun x => if x.pstate = 0 then { x with partner := v.setWidth 14 } else x
  | .rsvpct =>
    let n := bitsOf v.toNat 0 6
    if anyArmed || n < 1 || 50 < n then s else survival fun x => { x with rsvpct := v.setWidth 6 }
  | .rsvbase => if anyArmed then s else survival fun x => { x with rsvbase := v }
  | .errbase => if agreed 5 then s.updSrv fun x => { x with errbase := v } else s
  | .errcap => if agreed 5 then s.updSrv fun x => { x with errcap := v.setWidth 5 } else s
  | .svcAsid core => writeCsr core.val (bitsOf v.toNat 16 48 != 0) (fun c => { c with svasid := v }) s
  | .svcJctr core => writeCsr core.val false (fun c => { c with svjctr := v }) s

/-- The fields that are written before an attach (R373). -/
def attachField : RegField → Bool
  | .ifhost | .mode | .pollint => true
  | _ => false

/-- The event REGISTER_WRITE (R12). In ROM recovery MBBUF alone is served (R429); after a failed attach, nothing but a new one
(R373). -/
def execRegisterWrite (field : RegField) (value : BitVec 64) (s : State) : Host.Outcome State Fault Refusal :=
  let core := match field with
    | .svcAsid _ | .svcJctr _ => true
    | _ => false
  if !s.dev.ctl.powered then .next s
  else if s.dev.ctl.recovery then
    .next (if field = .mbbuf then s.updMgt fun g => { g with mbbuf := value } else s)
  else if !s.dev.ready || (s.dev.att.refused && !attachField field && !core) then .next s
  else .next (plainWrite field value s)

/-! Violations (R423, R435) -/

/-- The event VIOLATION (R435): an access to the private region, or a service core's capability failure. -/
def execViolation (src : VSource) (kind : VKind) (addr : BitVec 64) (s : State) : Host.Outcome State Fault Refusal :=
  let private_ := decide (privateBase ≤ addr.toNat) && decide (addr.toNat < hbmBytes)
  if s.dev.ready && (src == .service || private_) then .next (logViolation src kind addr s) else .next s

/-- VCLEAR (R423). -/
def execVclear (s : State) : Host.Outcome State Fault Refusal :=
  if s.dev.ctl.recovery || (s.dev.serves && s.dev.agreed 6) then
    .next (s.updMgt fun g => { g with vaddr := 0, vsrc := 0, vkind := 0, vcount := 0 })
  else .next s

/-! The host's accesses to HBM (R370, R435, R446) -/

/-- Parts of a range of addresses inside blocks of 64 KiB. -/
def frameParts (pa n : Nat) : List (Nat × Nat) :=
  (List.range ((pa % 65536 + n + 65535) / 65536)).map fun i =>
    let lo := max pa (65536 * (pa / 65536 + i))
    (lo, min (pa + n) (65536 * (pa / 65536 + i) + 65536) - lo)

/-- The address that serves a physical address: a reserve frame attached as a second buffer holds its frozen frame's bytes. -/
def servedAt (d : Dev) (m : Mach) (pa : Nat) : Nat :=
  match reserveIndex d pa with
  | none => pa
  | some n => match m.frozen.find? fun f => f.second == some n with
    | some f => 65536 * f.frame + pa % 65536
    | none => pa

/-- Writes bytes at a physical address, as an agent of the whole system: none while a frozen frame must drain first (R446,
R447). -/
def putPhys (d : Dev) (pa : Nat) (bs : List Byte) (m : Mach) : Option Mach :=
  (frameParts pa bs.length).foldl (fun (r : Option Mach) p => match r with
    | none => none
    | some m =>
      let a := servedAt d m p.1
      (Mach.frozenWrite d m a).map fun m => m.devWrite a ((bs.drop (p.1 - pa)).take p.2)) (some m)

/-- A write to an entry of the replicated-group table puts this module back in service for its group (R391). -/
def rewriteGroups (d : Dev) (pa n : Nat) (m : Mach) : Mach :=
  let base := d.att.rgbase.toNat
  { m with coh := { m.coh with repOut := m.coh.repOut.filter fun e =>
      !(e.2 == d.att.modid.toNat && decide (base + 64 * e.1 < pa + n) && decide (pa < base + 64 * e.1 + 64)) } }

/-- The source that a violation of the host names. -/
def hostSource (cxl : Bool) : VSource := if cxl then .cxlmem else .pcie

/-- The words of a host line. -/
def hostLineWords (line : Nat) : List Nat := rangeFrom (hostAddr (64 * line) / 8) 8

/-- Revokes the registered words of the host pages that a test selects. -/
def revokeHost (p : Nat → Bool) (m : Mach) : Mach :=
  m.writeBackAll ((m.coh.words.filter fun h => isHost (8 * h.word) && h.st != .unreg && p h.word).map HWord.word) false

/-- The host-line agent answers a snoop of a line (R403): its words are revoked, the copies of it in the cores dropped and
the line given up; a lost word is returned as poisoned data, with an error record. -/
def snoopLine (d : Dev) (line : Nat) (m : Mach) : Mach :=
  let mine := (hostLineWords line).contains
  let m := revokeHost mine m
  let m := if (hostLineWords line).any fun w => m.coh.lost w then
      writeErr d ⟨6, 2, 7, 0, 0, 64 * line, 0, 0, 0, 0⟩ m else m
  { m with coh := { m.coh with
      l1 := m.coh.l1.filter fun x => !mine x.word
      hostLines := m.coh.hostLines.filter fun l => l.1 != hostAddr (64 * line) / 64 } }

/-- The event HOST_SNOOP (R403). -/
def execHostSnoop (line : Nat) (s : State) : Host.Outcome State Fault Refusal :=
  .next (s.withMach fun d m => snoopLine d line m)

/-- A write of the host to its own memory: on a CXL attachment the host owns the line first, so that each write and each
atomic of the module reads what the one before it left (R368, log 109). -/
def hostOwnWrite (d : Dev) (a : Nat) (bs : List Byte) (m : Mach) : Mach :=
  let lines := rangeFrom (a / 64) ((a % 64 + bs.length + 63) / 64)
  let m := if d.att.mode == 1 then lines.foldl (fun m l => snoopLine d l m) m else m
  m.devWrite (hostAddr a) bs

/-- The event HOST_MEM_ACCESS (R370, R424, R435): a read changes no state of the module. After a failed attach nothing is
accepted (R373). -/
def execHostMemAccess (acc : HostAccess) (s : State) : Host.Outcome State Fault Refusal :=
  let hits := fun (a n : Nat) => decide (privateBase < a + n) && decide (a < hbmBytes)
  let reach := fun (cxl : Bool) => s.dev.ready && !s.dev.att.refused && (!cxl || (s.dev.att.attached && s.dev.att.mode == 1))
  match acc with
  | .read cxl a n =>
    if reach cxl && hits a n then .next (logViolation (hostSource cxl) .read (BitVec.ofNat 64 a) s) else .next s
  | .write cxl a bs =>
    if !reach cxl || hbmBytes < a + bs.length then .next s
    else if hits a bs.length then .next (logViolation (hostSource cxl) .write (BitVec.ofNat 64 a) s)
    else .next (s.withMach fun d m => match putPhys d a bs m with
      | none => m
      | some m => rewriteGroups d a bs.length m)
  | .bar4Write off bs =>
    if s.dev.ctl.recovery && off + bs.length ≤ 2 ^ 24 then
      .next (s.updMgt fun g => { g with staging := g.staging.writeN off bs })
    else if s.dev.ctl.powered && !s.dev.att.refused && off < 2 ^ 26 then .next (logViolation .pcie .write (BitVec.ofNat 64 off) s)
    else .next s
  | .ownWrite a bs =>
    if s.dev.ready && s.dev.att.attached && a + bs.length ≤ 2 ^ 50 then .next (s.withMach fun d m => hostOwnWrite d a bs m)
    else .next s

/-! Host lines (R403) -/

/-- Writes back every modified host line and gives up the lines (R403). -/
def giveUpLines (m : Mach) : Mach :=
  let m := revokeHost (fun _ => true) m
  { m with coh := { m.coh with hostLines := [] } }

/-- The event POWER_GATING_ENTRY (R403). -/
def execPowerGatingEntry (s : State) : Host.Outcome State Fault Refusal := .next (s.withMach fun _ m => giveUpLines m)

/-! Address translation services (R401, R402) -/

/-- A page of a context is one that the host translates. -/
def atsPage (m : Mach) (asid : BitVec 16) (va : BitVec 64) : Bool :=
  match m.ctx asid with
  | none => false
  | some c => match m.leaf 0 c va.toNat with
    | .ok (e, _) => bitsOf e 6 2 == 1 && bitOf e 9 && decide (va.toNat < 2 ^ 57)
    | .error _ => false

/-- Replaces the cached translation of a page. -/
def Mach.setAts (m : Mach) (asid : BitVec 16) (page : Nat) (x : Option AtsEnt) : Mach :=
  { m with coh := { m.coh with ats := x.toList ++ m.coh.ats.filter fun a => !(a.asid == asid && a.page == page) } }

/-- The host has answered for a page: it is no longer revoked (log 110). -/
def Mach.restorePage (m : Mach) (asid : BitVec 16) (page : Nat) : Mach :=
  { m with coh := { m.coh with revoked := m.coh.revoked.filter fun r => r != ⟨asid, page⟩ } }

/-- The event ATS_COMPLETION (R401): the host grants a page, or no permission, which sends a page request. -/
def execAtsCompletion (asid : BitVec 16) (va : BitVec 64) (grant : Option Nat) (w : Bool) (s : State) :
    Host.Outcome State Fault Refusal :=
  let page := va.toNat / 4096
  .next (s.withMach fun d m =>
    let m := m.restorePage asid page
    if !atsPage m asid va then m
    else match grant with
      | some f => retryPages d asid (fun m g => g == page && pageAnswered m asid g) (m.setAts asid page (some ⟨asid, page, f, w⟩))
      | none =>
        let m := retryPages d asid (fun m g => g == page && !(m.coh.reqs.any fun r => r.asid == asid && r.page == g))
          (m.setAts asid page none)
        pageRequest asid 0x04 va m)

/-- Sends the oldest page request that waits for a slot. -/
def sendNext : List PageReq → List PageReq
  | [] => []
  | r :: rs => if r.sent then r :: sendNext rs else { r with sent := true } :: rs

/-- The event PRG_RESPONSE (R401). On success the retried access translates again; on failure it raises 0x02. -/
def execPrgResponse (asid : BitVec 16) (va : BitVec 64) (ok : Bool) (s : State) : Host.Outcome State Fault Refusal :=
  let page := va.toNat / 4096
  .next (s.withMach fun d m =>
    if !(m.coh.reqs.any fun r => r.asid == asid && r.page == page && r.sent) then m
    else
      let reqs := sendNext (m.coh.reqs.filter fun r => !(r.asid == asid && r.page == page))
      let ats := m.coh.ats.filter fun (a : AtsEnt) => !(a.asid == asid && a.page == page && (!ok || !a.write))
      let prgFail := if ok then m.coh.prgFail else m.coh.prgFail ++ [⟨asid, page⟩]
      let m : Mach := ({ m with coh := { m.coh with reqs := reqs, ats := ats, prgFail := prgFail } } : Mach).restorePage asid page
      match m.ctx asid with
      | none => m
      | some c => if c.cstate == .resident || c.cstate == .draining then
          retryPages d asid (fun m g => g == page && pageAnswered m asid g) m else m)

/-- The first byte of global memory, on a page that a test selects, that a running copy segment has yet to read or write. -/
def segTouches (c : Cmd) (x : Seg) (p : Nat → Bool) : Option (BitVec 64) :=
  let cp := copyOf c.words c.block
  let k0 := x.no * cp.seg
  let at_ := fun (base : BitVec 64) (f : BoxDim → Int) (k : Nat) =>
    wrapTo 64 ((base.toNat : Int) + boxOff cp.len0 cp.dims f (k0 + k) - boxOff cp.len0 cp.dims f k0)
  ((rangeFrom x.doneB (x.len - x.doneB)).findSome? fun k =>
    let a := at_ x.src BoxDim.ss k
    let b := at_ x.dst BoxDim.ds k
    if x.ssp = 0 && p (a / 4096) then some (BitVec.ofNat 64 a)
    else if x.dsp = 0 && p (b / 4096) then some (BitVec.ofNat 64 b)
    else none)

/-- Parks with 0x03 the accesses of a context that used a revoked translation and are not yet performed (R402). -/
def parkRevoked (d : Dev) (asid : BitVec 16) (p : Nat → Bool) (m : Mach) : Mach :=
  let m := (m.coh.stores.filter fun x => x.asid == asid && x.record.isNone && p (x.va.toNat / 4096)).foldl
    (fun m x => parkStore d x 0x03 m) m
  (m.groups.filter fun g => g.asid == asid).foldl (fun m g =>
    g.cmds.foldl (fun m c =>
      if c.ladle then m
      else (c.segs.filter fun x => x.state == .running).foldl (fun m x => match segTouches c x p with
        | some a => parkSeg d g c x ⟨0x03, a⟩ m
        | none => m) m) m) m

/-- Revokes a range of a context's translations. -/
def revokeRange (d : Dev) (asid : BitVec 16) (lo len : Nat) (m : Mach) : Mach :=
  let mine := m.coh.ats.filter fun a => a.asid == asid && pageIn a.page lo len
  let m := parkRevoked d asid (fun g => mine.any fun a => a.page == g) m
  let old := m.coh.revoked.filter fun r => !(r.asid == asid && pageIn r.page lo len)
  let m := { m with coh := { m.coh with
    ats := m.coh.ats.filter fun a => !(a.asid == asid && pageIn a.page lo len)
    revoked := mine.map (fun a => ⟨asid, a.page⟩) ++ old } }
  invalRange d asid lo len m

/-- The event ATS_INVALIDATION (R402). -/
def execAtsInvalidation (pasid : BitVec 20) (va : BitVec 64) (len : Nat) (s : State) : Host.Outcome State Fault Refusal :=
  .next (s.withMach fun d m =>
    ((m.ctxs.filter fun c => c.pasid == pasid).map Ctx.asid).foldl (fun m asid => revokeRange d asid va.toNat len m) m)

end Sys2Proof.Machine
end

