-- ==== Sys2Proof/Machine/Board.lean ====
section
/-! DEFINITION. The board: reset and start, power and temperature, and the mailbox (R409 to R411, R421, R426 to R437, R449). -/

namespace Sys2Proof.Machine

/-! Wiping and resetting (R410, R411) -/

/-- The machine after a wipe: host and peer memory are not the module's, and the model's own fields go on. -/
def wipeMach (m : Mach) : Mach :=
  { Mach.reset with mem := m.mem.filter fun c => decide (2 ^ 56 ≤ c.1), choices := m.choices, freeCount := m.freeCount }

/-- A modified host line at a forced reset: written back before the link drops, or lost, with its error record (R403). -/
def dropLine (d : Dev) (line : Nat) (m : Mach) : Mach :=
  let (lost, m) := m.choose 2
  if lost = 0 then m
  else
    let m := (rangeFrom (8 * line) 8).foldl (fun (m : Mach) w =>
      let (x, m) := m.fresh
      { m with mem := m.mem.setWord w x }) m
    writeErr d ⟨6, 2, 7, 0, 0, 64 * line - hostAddr 0, 0, 0, 0, 0⟩ m

/-- Kills every context that is not killed yet, with its report. -/
def killAll (d : Dev) (cause : Nat) (m : Mach) : Mach :=
  ((m.ctxs.filter fun c => c.cstate == .resident || c.cstate == .draining || c.cstate == .saving).map Ctx.asid).foldl
    (fun m asid => killCtx d cause asid m) m

/-- A reset up to the start that follows it (R410): dispatch stops, the contexts are killed, host lines are given up, and the
module detaches. -/
def resetModule (kind : BitVec 3) (cold forced : Bool) (s : State) : State :=
  let s := s.withMach fun d m =>
    let m := killAll d (if forced then 0xFF else 0x82) { m with latch := [], cur := none }
    let m := if forced then (m.coh.hostLines.filter Prod.snd).foldl (fun m l => dropLine d l.1 m) m else m
    giveUpLines m
  let s := s.updAtt fun a => { a with attached := false, linkup := 0 }
  let s := s.updMgt fun g => { g with
    mbbusy := false, store := if g.updating.isSome then none else g.store, updating := none, pendingReset := none }
  s.updCtl fun c => { c with rstkind := kind, cold := cold, bootstage := 0 }

/-- A reset that the driver asks for: 1 orderly warm, 2 orderly cold, 3 forced warm. -/
def resetBy (n : Nat) (s : State) : State := resetModule (BitVec.ofNat 3 n) (n == 2) (n == 3) s

/-- A write of RESET (R410, R426): held while an UPDATE runs. -/
def resetWrite (n : Nat) (s : State) : Host.Outcome State Fault Refusal :=
  if !s.dev.ready || !s.dev.att.attached then .next s
  else if s.dev.mgt.updating.isSome then .next (s.updMgt fun g => { g with pendingReset := some n })
  else .next (resetBy n s)

/-- RESET 1 (R410). -/
def execOrderlyWarmReset (s : State) : Host.Outcome State Fault Refusal := resetWrite 1 s

/-- RESET 2 (R410). -/
def execOrderlyColdReset (s : State) : Host.Outcome State Fault Refusal := resetWrite 2 s

/-- RESET 3 (R410). -/
def execForcedWarmReset (s : State) : Host.Outcome State Fault Refusal := resetWrite 3 s

/-- DETACH (R373, R410). -/
def execDetach (s : State) : Host.Outcome State Fault Refusal := resetWrite 1 s

/-- POWER_ON (R410): a cold start follows. -/
def execPowerOn (s : State) : Host.Outcome State Fault Refusal :=
  if s.dev.ctl.powered then .next s
  else .next (s.updCtl fun c => { c with powered := true, rstkind := 0, cold := true, bootstage := 0 })

/-- POWER_LOSS (R429, R434, R449): volatile state is gone, with a generation that is not committed left as it is. -/
def execPowerLoss (s : State) : Host.Outcome State Fault Refusal :=
  let s := s.withMach fun _ m => wipeMach m
  let s := { s with svc := List.replicate 16 SvcCore.reset, svcq := [] }
  let s := s.updAtt fun a => { a with attached := false, linkup := 0 }
  let s := s.updMgt fun g => { g with
    mbbusy := false, store := if g.updating.isSome then none else g.store, updating := none, staging := [], holdTrip := false,
    pendingReset := none }
  .next (s.updCtl fun c => { c with powered := false, bootstage := 0, cmdbusy := false })

/-! A start (R409) -/

/-- The registers as a start leaves them (R12): the Reset column, with the fields that the hardware or firmware loads kept. -/
def startDev (d : Dev) : Dev :=
  let g := d.mgt
  let x := d.srv
  { att := { Attach.reset with modid := d.att.modid }
    ctl := { Control.reset with rstkind := d.ctl.rstkind, failcnt := d.ctl.failcnt, recovery := d.ctl.recovery,
                                bootstage := d.ctl.bootstage, cold := d.ctl.cold }
    mgt := { Mgmt.reset with
      lcstate := g.lcstate, fwsvn := g.fwsvn, svnmin := g.svnmin, feedid := g.feedid, pwrnow := g.pwrnow, tempmax := g.tempmax,
      tripcnt := g.tripcnt, lcseq := g.lcseq, ownerKey := g.ownerKey, hasSecret := g.hasSecret, image := g.image,
      store := g.store, wiping := g.wiping, phyOk := g.phyOk }
    srv := { Survival.reset with retired := x.retired, own := x.own, part := x.part } }

/-- What a life-cycle change wipes beyond the memories of R411 (R434). -/
def wipeStores (s : State) : State :=
  (s.updSrv fun x => { x with own := [none, none], part := [none, none], sending := none, pstate := 0 }).updMgt fun g =>
    { g with phyOk := false, wiping := false }

/-- A stage of a start. -/
def startStage (n : Nat) (s : State) : State :=
  let s := s.updCtl fun c => { c with bootstage := BitVec.ofNat 5 n }
  match n with
  | 1 => s.updMgt fun g =>
    let image := g.store.getD []
    { g with image := image, fwsvn := BitVec.ofNat 16 (bitsOf (ofBytes (image.take 64)) 48 16) }
  | 2 => s.updMgt fun g => { g with phyOk := true }
  | 4 =>
    let s := { s with dev := startDev s.dev, mach := wipeMach s.mach, svc := List.replicate 16 SvcCore.reset, svcq := [] }
    if s.dev.mgt.wiping then wipeStores s else s
  | 7 => s.updCtl fun c => { c with failcnt := 0 }
  | _ => s

/-- The first stage that fails: the one that the event names, or stage 1 without a whole image (R429). -/
def firstFailure (failAt : Option (Fin 8)) (s : State) : Option Nat :=
  if s.dev.mgt.store.isNone then some 1 else failAt.map fun n => max 1 n.val

/-- A start fails at a stage: a cold start follows, or ROM recovery after the third failure in a row. -/
def failStart (n : Nat) (s : State) : State :=
  s.updCtl fun c =>
    { c with
      bootstage := BitVec.ofNat 5 n, cold := true
      failcnt := if c.failcnt.toNat < 2 then c.failcnt + 1 else 3, recovery := !decide (c.failcnt.toNat < 2) }

/-- START (R409): the stages in order, to the ready state or to the stage that fails. -/
def execStart (failAt : Option (Fin 8)) (s : State) : Host.Outcome State Fault Refusal :=
  if !s.dev.ctl.powered || s.dev.ctl.bootstage == 7 || s.dev.ctl.recovery || s.dev.mgt.holdTrip then .next s
  else match firstFailure failAt s with
    | none => .next ((rangeFrom 1 7).foldl (fun s n => startStage n s) s)
    | some n => .next (failStart n ((rangeFrom 1 (n - 1)).foldl (fun s n => startStage n s) s))

/-! Power and temperature (R436, R437) -/

/-- The clock one step lower, to no less than 1,200 MHz. -/
def clockDown (clk : BitVec 12) : BitVec 12 := if clk.toNat < 1300 then 1200 else clk - 100

/-- The clock one step higher, to no more than 2,400 MHz. -/
def clockUp (clk : BitVec 12) : BitVec 12 := if 2300 < clk.toNat then 2400 else clk + 100

/-- POWER_LIMIT (R436): mean power over the last millisecond, against the cap. -/
def execPowerLimit (watts : BitVec 12) (s : State) : Host.Outcome State Fault Refusal :=
  .next (s.updMgt fun g =>
    let g := { g with pwrnow := watts }
    if g.pwrcap < watts then { g with clknow := clockDown g.clknow, throt := g.throt ||| 1 }
    else if 100 * watts.toNat ≤ 95 * g.pwrcap.toNat && g.throt &&& 6 = 0 then
      let clk := clockUp g.clknow
      { g with clknow := clk, throt := if clk = 2400 then g.throt &&& 6 else g.throt }
    else g)

/-- POWER_BRAKE (R436). -/
def execPowerBrake (s : State) : Host.Outcome State Fault Refusal :=
  .next (s.updMgt fun g => { g with clknow := 1200, throt := g.throt ||| 4 })

/-- POWER_BRAKE_RELEASE (R436): the clock rises again with headroom. -/
def execPowerBrakeRelease (s : State) : Host.Outcome State Fault Refusal :=
  .next (s.updMgt fun g => { g with throt := g.throt &&& 3 })

/-- THERMAL_THROTTLE (R437). -/
def execThermalThrottle (temp : BitVec 8) (s : State) : Host.Outcome State Fault Refusal :=
  .next (s.updMgt fun g =>
    let g := { g with tempmax := temp }
    if g.tlimit ≤ temp then { g with clknow := clockDown g.clknow, throt := g.throt ||| 2 } else g)

/-- THERMAL_THROTTLE_END (R437): TEMPMAX has fallen 5 °C below TLIMIT. -/
def execThermalThrottleEnd (temp : BitVec 8) (s : State) : Host.Outcome State Fault Refusal :=
  .next (s.updMgt fun g =>
    let g := { g with tempmax := temp }
    if temp.toNat + 5 ≤ g.tlimit.toNat then { g with throt := g.throt &&& 5 } else g)

/-- THERMAL_TRIP (R437): at 110 °C a forced reset, which is then held. -/
def execThermalTrip (temp : BitVec 8) (s : State) : Host.Outcome State Fault Refusal :=
  let s := s.updMgt fun g => { g with tempmax := temp }
  if temp.toNat < 110 || !s.dev.ctl.powered then .next s
  else
    let s := s.withMach fun d m => writeErr d ⟨10, 3, 0, 0, 0, 0, 0, 0, 0, 0⟩ m
    let s := resetModule 4 true true s
    .next (s.updMgt fun g => { g with holdTrip := true, tripcnt := if g.tripcnt = 0xFF then 0xFF else g.tripcnt + 1 })

/-- TRIP_RECOVERY (R437): below 85 °C the hold ends, and a cold start follows. -/
def execTripRecovery (temp : BitVec 8) (s : State) : Host.Outcome State Fault Refusal :=
  .next (s.updMgt fun g => { g with tempmax := temp, holdTrip := g.holdTrip && !decide (temp.toNat < 85) })

/-! The mailbox (R426, R427) -/

/-- Ends a mailbox command with its result. -/
def mbEnd (res : Nat) (s : State) : State := s.updMgt fun g => { g with mbbusy := false, mbres := BitVec.ofNat 7 res }

/-- The mailbox buffer may not be used: misaligned, or not below the private region (R423). -/
def bufferBad (d : Dev) : Bool :=
  d.mgt.mbbuf.toNat % 4096 != 0 || decide (privateBase < d.mgt.mbbuf.toNat + 16384)

/-- Runs a mailbox command: ignored while one runs, where interface 6 is not agreed, or in ROM recovery. -/
def mbCommand (s : State) (f : State → State) : Host.Outcome State Fault Refusal :=
  if !s.dev.ready || !s.dev.serves || !s.dev.agreed 6 || s.dev.mgt.mbbusy then .next s
  else if bufferBad s.dev then .next (mbEnd 5 s)
  else .next (f s)

/-- Bytes of the mailbox buffer. -/
def mbBytes (s : State) (off n : Nat) : List Byte := s.mach.homeBytes (s.dev.mgt.mbbuf.toNat + off) n

/-- Writes bytes into the mailbox buffer. -/
def mbWrite (off : Nat) (bs : List Byte) (s : State) : State :=
  s.withMach fun d m =>
    let a := d.mgt.mbbuf.toNat + off
    match putPhys d a bs m with
    | some m => m
    | none => m.writeBytes none a bs

/-- A byte string cut or filled with zeros to a length. -/
def fitBytes (n : Nat) (bs : List Byte) : List Byte := (List.range n).map fun i => bs.getD i 0

/-- Bytes of an ML-DSA-87 public key and signature (R428). -/
def keyBytes : Nat := 2592

/-- Bytes of an ML-DSA-87 signature (R428). -/
def sigBytes : Nat := 4627

/-! UPDATE (R428, R429) -/

/-- The first check of R429 that an image fails, as MBRES; 0 for none. -/
def imageError (d : Dev) (img : List Byte) : Nat :=
  let h := ofBytes (img.take 64)
  let body := bitsOf h 64 32
  let signed := img.take (64 + body + keyBytes)
  let key := signed.drop (64 + body)
  let sig := img.drop (64 + body + keyBytes)
  if bitsOf h 0 32 != 0x4D574642 || bitsOf h 32 16 != 1 || body % 64 != 0 || 12 * 2 ^ 20 < body || bitsOf h 96 16 != 0x0A40
      || bitsOf h 112 400 != 0 || img.length != 64 + body + keyBytes + sigBytes then 5
  else if Config.sha3 key != Config.vendorKey || !Config.verify key (Config.sha3 signed) sig then 2
  else if bitsOf h 48 16 < d.mgt.svnmin.toNat then 3
  else 0

/-- The image that UPDATE names: in HBM, or in the staging SRAM in ROM recovery, where the buffer lies too. None where the
range of addresses is not one of it. -/
def updateImage (s : State) : Option (List Byte) :=
  if s.dev.ctl.recovery then
    let b := ofBytes (s.dev.mgt.staging.readN s.dev.mgt.mbbuf.toNat 16)
    if 2 ^ 24 < bitsOf b 0 64 + bitsOf b 64 64 then none else some (s.dev.mgt.staging.readN (bitsOf b 0 64) (bitsOf b 64 64))
  else
    let b := ofBytes (mbBytes s 0 16)
    if privateBase < bitsOf b 0 64 + bitsOf b 64 64 then none else some (s.mach.homeBytes (bitsOf b 0 64) (bitsOf b 64 64))

/-- The image is written: the command ends, and with it a RESET that it held, or ROM recovery. -/
def finishUpdate (img : List Byte) (s : State) : State :=
  let held := s.dev.mgt.pendingReset
  let s := mbEnd 0 (s.updMgt fun g => { g with
    store := some img, updating := none, pendingReset := none, svnmin := BitVec.ofNat 16 (bitsOf (ofBytes (img.take 64)) 48 16) })
  if s.dev.ctl.recovery then s.updCtl fun c => { c with failcnt := 0, recovery := false, cold := true, bootstage := 0 }
  else match held with
    | some n => resetBy n s
    | none => s

/-- UPDATE after its checks: the write of the image store ends at once, or goes on until the event's next occurrence. -/
def beginUpdate (s : State) : State :=
  match updateImage s with
  | none => mbEnd 5 s
  | some img =>
    let e := imageError s.dev img
    if e != 0 then mbEnd e s
    else
      let (k, m) := s.mach.choose 2
      let s := { s with mach := m }
      if k = 1 then s.updMgt fun g => { g with mbbusy := true, updating := some img } else finishUpdate img s

/-- UPDATE (R429). -/
def execUpdate (s : State) : Host.Outcome State Fault Refusal :=
  match s.dev.mgt.updating with
  | some img => .next (finishUpdate img s)
  | none =>
    if s.dev.ctl.recovery then
      if !s.dev.ctl.powered || s.dev.mgt.mbbusy then .next s
      else if s.dev.mgt.mbbuf.toNat % 4096 != 0 then .next (mbEnd 5 s)
      else .next (beginUpdate s)
    else mbCommand s beginUpdate

/-! Attestation (R430, R431) -/

/-- ATTEST and GETCERT are impossible in this state: manufacturing, decommissioned, or without the device secret. -/
def noIdentity (d : Dev) : Bool := d.mgt.lcstate == 0 || d.mgt.lcstate == 3 || !d.mgt.hasSecret

/-- Bytes 0 to 191 of the report (R431). -/
def reportBody (d : Dev) (nonce : List Byte) : List Byte :=
  toBytes 192 (0x0A40 + 2 ^ 16 * d.mgt.lcstate.toNat + 2 ^ 32 * d.att.modid.toNat + 2 ^ 64 * d.mgt.feedid.toNat
    + 2 ^ 96 * d.mgt.fwsvn.toNat + 2 ^ 512 * (Config.sha3 d.mgt.image).toNat + 2 ^ 1024 * ofBytes nonce)

/-- ATTEST (R431). -/
def execAttest (s : State) : Host.Outcome State Fault Refusal :=
  mbCommand s fun s =>
    if noIdentity s.dev then mbEnd 7 s
    else
      let body := reportBody s.dev (mbBytes s 0 64)
      let sig := Config.sign 1 (Config.sha3 s.dev.mgt.image) (Config.sha3 body)
      mbEnd 0 (mbWrite 64 (body ++ fitBytes sigBytes sig) s)

/-- The bytes that GETCERT writes (R430). -/
def certBytes (d : Dev) : List Byte :=
  let digest := Config.sha3 d.mgt.image
  let ident := fitBytes keyBytes (Config.publicKey 0 0)
  let att := fitBytes keyBytes (Config.publicKey 1 digest)
  let dig := toBytes 64 digest.toNat
  let svn := toBytes 2 d.mgt.fwsvn.toNat
  ident ++ att ++ dig ++ svn ++ toBytes 6 0 ++ fitBytes sigBytes (Config.sign 0 0 (Config.sha3 (att ++ dig ++ svn)))
    ++ toBytes 357 0 ++ fitBytes sigBytes (Config.publicKey 2 0)

/-- GETCERT (R430). -/
def execGetcert (s : State) : Host.Outcome State Fault Refusal :=
  mbCommand s fun s => if noIdentity s.dev then mbEnd 7 s else mbEnd 0 (mbWrite 0 (certBytes s.dev) s)

/-! Life cycle (R432 to R434) -/

/-- A transition is allowed, and sets MODID and FEEDID (R432). -/
def transition (from_ goal : Nat) : Option Bool :=
  if from_ = 0 ∧ goal = 1 then some true
  else if from_ = 1 ∧ goal = 2 then some false
  else if from_ = 2 ∧ goal = 1 then some true
  else if from_ < 3 ∧ goal = 3 then some false
  else none

/-- The check that a life-cycle request fails, as MBRES; 0 for none. -/
def requestError (d : Dev) (req key sig : List Byte) : Nat :=
  let n := ofBytes req
  let from_ := d.mgt.lcstate.toNat
  let signer := if from_ = 0 then Config.vendorKey else d.mgt.ownerKey
  if bitsOf n 2 14 != 0 || bitsOf n 30 2 != 0 || bitsOf n 96 416 != 0 then 5
  else match transition from_ (bitsOf n 0 2) with
    | none => 4
    | some sets =>
      if !sets && (bitsOf n 16 14 != 0 || bitsOf n 32 32 != 0) then 5
      else if bitsOf n 64 32 != (d.mgt.lcseq.toNat + 1) % 2 ^ 32 || Config.sha3 key != signer
          || !Config.verify key (Config.sha3 (req ++ key)) sig then 2
      else 0

/-- Records an accepted transition. -/
def takeTransition (req : List Byte) (s : State) : State :=
  let n := ofBytes req
  let goal := bitsOf n 0 2
  let sets := goal == 1
  let s := s.updMgt fun g => { g with
    lcstate := BitVec.ofNat 2 goal, lcseq := g.lcseq + 1, tripcnt := 0
    feedid := if sets then BitVec.ofNat 32 (bitsOf n 32 32) else g.feedid
    ownerKey := if g.lcstate = 0 && sets then Config.ownerKey req else g.ownerKey
    hasSecret := g.hasSecret && goal != 3 }
  s.updAtt fun a => { a with modid := if sets then BitVec.ofNat 14 (bitsOf n 16 14) else a.modid }

/-- The wipe of an accepted transition, and the reset that ends it. -/
def finishLifecycle (s : State) : State := resetBy 2 (mbEnd 0 (wipeStores (s.withMach fun _ m => wipeMach (giveUpLines m))))

/-- LIFECYCLE (R432 to R434). The wipe ends at once, or goes on until the event's next occurrence. -/
def execLifecycle (s : State) : Host.Outcome State Fault Refusal :=
  if s.dev.mgt.wiping && s.dev.mgt.mbbusy then .next (finishLifecycle s)
  else mbCommand s fun s =>
    let req := mbBytes s 0 64
    let e := requestError s.dev req (mbBytes s 64 keyBytes) (mbBytes s 2656 sigBytes)
    if s.mach.ctxs.any fun c => c.cstate == .resident || c.cstate == .draining || c.cstate == .saving then mbEnd 7 s
    else if e != 0 then mbEnd e s
    else
      let (k, m) := s.mach.choose 2
      let s := takeTransition req { s with mach := m }
      if k = 1 then s.updMgt fun g => { g with mbbusy := true, wiping := true } else finishLifecycle s

/-! Service-request queues (R421) -/

/-- The queue that SVCREG's buffer describes, or none where it is malformed. -/
def svcQueueOf (d : Dev) (m : Mach) (n : Nat) : Option SvcQueue :=
  let q : SvcQueue :=
    { hdr := BitVec.ofNat 64 (bitsOf n 0 64), asid := BitVec.ofNat 16 (bitsOf n 64 16), ftab := BitVec.ofNat 64 (bitsOf n 128 64),
      ftcount := bitsOf n 192 16, logring := BitVec.ofNat 64 (bitsOf n 256 64), logpos := 0 }
  if bitsOf n 80 48 != 0 || bitsOf n 208 48 != 0 || bitsOf n 320 192 != 0 || q.logring.toNat % 65536 != 0 then none
  else match readHdr d m q.asid q.hdr with
    | none => none
    | some h => if h.kind != 2 || h.host || h.bad || !h.clean then none else some q

/-- SVCREG (R421): a queue registered again is replaced. -/
def execSvcreg (s : State) : Host.Outcome State Fault Refusal :=
  mbCommand s fun s =>
    if !s.dev.agreed 3 then mbEnd 7 s
    else match svcQueueOf s.dev s.mach (ofBytes (mbBytes s 0 64)) with
      | none => mbEnd 5 s
      | some q =>
        let rest := s.svcq.filter fun x => !(x.hdr == q.hdr && x.asid == q.asid)
        if 256 ≤ rest.length then mbEnd 5 s else mbEnd 0 { s with svcq := rest ++ [q] }

/-- SVCUNREG (R421, R427). -/
def execSvcunreg (s : State) : Host.Outcome State Fault Refusal :=
  mbCommand s fun s =>
    let n := ofBytes (mbBytes s 0 16)
    let same := fun (x : SvcQueue) => x.hdr.toNat == bitsOf n 0 64 && x.asid.toNat == bitsOf n 64 16
    if s.svcq.any same then mbEnd 0 { s with svcq := s.svcq.filter fun x => !same x } else mbEnd 5 s

/-- A mailbox code that is not defined (R427). -/
def execMbUnknown (code : BitVec 8) (s : State) : Host.Outcome State Fault Refusal :=
  if 1 ≤ code.toNat && code.toNat ≤ 6 then .next s
  else if !s.dev.ready || !s.dev.serves || !s.dev.agreed 6 || s.dev.mgt.mbbusy then .next s
  else .next (mbEnd 6 s)

end Sys2Proof.Machine
end

