-- ==== Sys2Proof/Machine/Dispatch.lean ====
section
/-! DEFINITION. One arm for each instruction and each move of the module. -/

namespace Sys2Proof.Machine

/-- What an instruction, or a move of the module, does to its state. -/
def exec (i : Instr) (s : State) : Host.Outcome State Fault Refusal :=
  match i with
  | .add g ty d a b => Sys2Proof.Machine.execAdd g ty d a b s
  | .addc g ty d a b pc => Sys2Proof.Machine.execAddc g ty d a b pc s
  | .sub g ty d a b => Sys2Proof.Machine.execSub g ty d a b s
  | .subb g ty d a b pc => Sys2Proof.Machine.execSubb g ty d a b pc s
  | .mul g ty d a b => Sys2Proof.Machine.execMul g ty d a b s
  | .mulh g ty d a b => Sys2Proof.Machine.execMulh g ty d a b s
  | .mad g ty d a b c => Sys2Proof.Machine.execMad g ty d a b c s
  | .div g la ty trap d a b => Sys2Proof.Machine.execDiv g la ty trap d a b s
  | .rem g la ty trap d a b => Sys2Proof.Machine.execRem g la ty trap d a b s
  | .min g ty d a b => Sys2Proof.Machine.execMin g ty d a b s
  | .max g ty d a b => Sys2Proof.Machine.execMax g ty d a b s
  | .abs g ty d a => Sys2Proof.Machine.execAbs g ty d a s
  | .neg g ty d a => Sys2Proof.Machine.execNeg g ty d a s
  | .and g ty d a b => Sys2Proof.Machine.execAnd g ty d a b s
  | .or g ty d a b => Sys2Proof.Machine.execOr g ty d a b s
  | .xor g ty d a b => Sys2Proof.Machine.execXor g ty d a b s
  | .andn g ty d a b => Sys2Proof.Machine.execAndn g ty d a b s
  | .shl g ty d a b => Sys2Proof.Machine.execShl g ty d a b s
  | .shr g ty d a b => Sys2Proof.Machine.execShr g ty d a b s
  | .sar g ty d a b => Sys2Proof.Machine.execSar g ty d a b s
  | .rotl g ty d a b => Sys2Proof.Machine.execRotl g ty d a b s
  | .popc g ty d a => Sys2Proof.Machine.execPopc g ty d a s
  | .clz g ty d a => Sys2Proof.Machine.execClz g ty d a s
  | .ctz g ty d a => Sys2Proof.Machine.execCtz g ty d a s
  | .brev g ty d a => Sys2Proof.Machine.execBrev g ty d a s
  | .bfx g ty pos len1 d a => Sys2Proof.Machine.execBfx g ty pos len1 d a s
  | .bfi g ty pos len1 d a b => Sys2Proof.Machine.execBfi g ty pos len1 d a b s
  | .sel g ty d a b pc => Sys2Proof.Machine.execSel g ty d a b pc s
  | .cmp g ty cond d a b => Sys2Proof.Machine.execCmp g ty cond d a b s
  | .pand g d a b => Sys2Proof.Machine.execPand g d a b s
  | .por g d a b => Sys2Proof.Machine.execPor g d a b s
  | .pxor g d a b => Sys2Proof.Machine.execPxor g d a b s
  | .pnot g d a => Sys2Proof.Machine.execPnot g d a s
  | .mov g ty d a => Sys2Proof.Machine.execMov g ty d a s
  | .movi g d imm => Sys2Proof.Machine.execMovi g d imm s
  | .movh g d imm pos => Sys2Proof.Machine.execMovh g d imm pos s
  | .lea g ty d a b sh => Sys2Proof.Machine.execLea g ty d a b sh s
  | .cvti g dt st sat d a => Sys2Proof.Machine.execCvti g dt st sat d a s
  | .fadd g ft rm ftz d a b => Sys2Proof.Machine.execFadd g ft rm ftz d a b s
  | .fsub g ft rm ftz d a b => Sys2Proof.Machine.execFsub g ft rm ftz d a b s
  | .fmul g ft rm ftz d a b => Sys2Proof.Machine.execFmul g ft rm ftz d a b s
  | .ffma g rm ftz d a b c => Sys2Proof.Machine.execFfma g rm ftz d a b c s
  | .hfma2 g half rm ftz d a b c => Sys2Proof.Machine.execHfma2 g half rm ftz d a b c s
  | .fmin g ft ftz d a b => Sys2Proof.Machine.execFmin g ft ftz d a b s
  | .fmax g ft ftz d a b => Sys2Proof.Machine.execFmax g ft ftz d a b s
  | .fcmp g ft cond ftz d a b => Sys2Proof.Machine.execFcmp g ft cond ftz d a b s
  | .fclass g ft d a => Sys2Proof.Machine.execFclass g ft d a s
  | .frcpa g la ftz d a => Sys2Proof.Machine.execFrcpa g la ftz d a s
  | .frsqa g la ftz d a => Sys2Proof.Machine.execFrsqa g la ftz d a s
  | .fsqrt g la ft rm ftz d a => Sys2Proof.Machine.execFsqrt g la ft rm ftz d a s
  | .fdiv g la ft rm ftz d a b => Sys2Proof.Machine.execFdiv g la ft rm ftz d a b s
  | .fexp2 g la rm ftz d a => Sys2Proof.Machine.execFexp2 g la rm ftz d a s
  | .flog2 g la rm ftz d a => Sys2Proof.Machine.execFlog2 g la rm ftz d a s
  | .fsin g la rm ftz d a => Sys2Proof.Machine.execFsin g la rm ftz d a s
  | .fcos g la rm ftz d a => Sys2Proof.Machine.execFcos g la rm ftz d a s
  | .ftanh g la rm ftz d a => Sys2Proof.Machine.execFtanh g la rm ftz d a s
  | .cvtf g dt st rm ftz nan d a b => Sys2Proof.Machine.execCvtf g dt st rm ftz nan d a b s
  | .cvtfi g ty ft rm ftz d a => Sys2Proof.Machine.execCvtfi g ty ft rm ftz d a s
  | .cvtif g ft ty rm d a => Sys2Proof.Machine.execCvtif g ft ty rm d a s
  | .frnd g ft rm ftz d a => Sys2Proof.Machine.execFrnd g ft rm ftz d a s
  | .dot4 g fa fb rm d a b c => Sys2Proof.Machine.execDot4 g fa fb rm d a b c s
  | .dot8 g fa fb rm d a b c => Sys2Proof.Machine.execDot8 g fa fb rm d a b c s
  | .qnt g ef rm nan tab d a b => Sys2Proof.Machine.execQnt g ef rm nan tab d a b s
  | .dqnt g ef tab d a b => Sys2Proof.Machine.execDqnt g ef tab d a b s
  | .bscl g ef d a => Sys2Proof.Machine.execBscl g ef d a s
  | .pkb g esz pos d a => Sys2Proof.Machine.execPkb g esz pos d a s
  | .upkb g esz pos d a => Sys2Proof.Machine.execUpkb g esz pos d a s
  | .blkld g la pre d a => Sys2Proof.Machine.execBlkld g la pre d a s
  | .blkst g pre a b => Sys2Proof.Machine.execBlkst g pre a b s
  | .mxld g la pre ef rm d a b => Sys2Proof.Machine.execMxld g la pre ef rm d a b s
  | .mxst g pre ef rm nan x a b => Sys2Proof.Machine.execMxst g pre ef rm nan x a b s
  | .ctab g pre tab a => Sys2Proof.Machine.execCtab g pre tab a s
  | .shfl g mode ty sub d a b => Sys2Proof.Machine.execShfl g mode ty sub d a b s
  | .vote g mode sub d a => Sys2Proof.Machine.execVote g mode sub d a s
  | .lred g op sub d a => Sys2Proof.Machine.execLred g op sub d a s
  | .lscan g op sub d a => Sys2Proof.Machine.execLscan g op sub d a s
  | .matchL g all ty sub d a => Sys2Proof.Machine.execMatchL g all ty sub d a s
  | .ld g la pre sz off d a => Sys2Proof.Machine.execLd g la pre sz off d a s
  | .st g pre sz off a b => Sys2Proof.Machine.execSt g pre sz off a b s
  | .lds g la pre sz form d a => Sys2Proof.Machine.execLds g la pre sz form d a s
  | .sts g pre sz form a b => Sys2Proof.Machine.execSts g pre sz form a b s
  | .ldb g la pre sz form d a => Sys2Proof.Machine.execLdb g la pre sz form d a s
  | .stb g pre sz form a b => Sys2Proof.Machine.execStb g pre sz form a b s
  | .ldq g pre sz off q a => Sys2Proof.Machine.execLdq g pre sz off q a s
  | .stq g pre sz off a q => Sys2Proof.Machine.execStq g pre sz off a q s
  | .pref g pre off a => Sys2Proof.Machine.execPref g pre off a s
  | .atom g la pre op ty d a b => Sys2Proof.Machine.execAtom g la pre op ty d a b s
  | .cas g la pre ty d a b c => Sys2Proof.Machine.execCas g la pre ty d a b c s
  | .cas128 g la pre d a b c => Sys2Proof.Machine.execCas128 g la pre d a b c s
  | .ld128a g la pre off d a => Sys2Proof.Machine.execLd128a g la pre off d a s
  | .st128a g pre off a b => Sys2Proof.Machine.execSt128a g pre off a b s
  | .fence g pre => Sys2Proof.Machine.execFence g pre s
  | .invr g pre a b => Sys2Proof.Machine.execInvr g pre a b s
  | .wbr g pre a b => Sys2Proof.Machine.execWbr g pre a b s
  | .regw g pre a b => Sys2Proof.Machine.execRegw g pre a b s
  | .icinv g pre a b => Sys2Proof.Machine.execIcinv g pre a b s
  | .gnew g d a => Sys2Proof.Machine.execGnew g d a s
  | .join g a => Sys2Proof.Machine.execJoin g a s
  | .leave g => Sys2Proof.Machine.execLeave g s
  | .bar g b => Sys2Proof.Machine.execBar g b s
  | .bara g b => Sys2Proof.Machine.execBara g b s
  | .barw g b => Sys2Proof.Machine.execBarw g b s
  | .gang g a => Sys2Proof.Machine.execGang g a s
  | .waitw g pre ty d a b c => Sys2Proof.Machine.execWaitw g pre ty d a b c s
  | .waitwWake core wave k => Sys2Proof.Machine.execWaitwWake core wave k s
  | .waitwTimeout core wave k => Sys2Proof.Machine.execWaitwTimeout core wave k s
  | .pollb g pre ty cond d a b => Sys2Proof.Machine.execPollb g pre ty cond d a b s
  | .pollbNapEnd core wave k => Sys2Proof.Machine.execPollbNapEnd core wave k s
  | .yield g => Sys2Proof.Machine.execYield g s
  | .nap g a => Sys2Proof.Machine.execNap g a s
  | .napEnd core wave k => Sys2Proof.Machine.execNapEnd core wave k s
  | .grow g d a b => Sys2Proof.Machine.execGrow g d a b s
  | .growGrant core => Sys2Proof.Machine.execGrowGrant core s
  | .growTimeout core wave k => Sys2Proof.Machine.execGrowTimeout core wave k s
  | .shrink g a => Sys2Proof.Machine.execShrink g a s
  | .spawn g d a v8 offer inv => Sys2Proof.Machine.execSpawn g d a v8 offer inv s
  | .enq g d a s4 => Sys2Proof.Machine.execEnq g d a s4 s
  | .deq g la s4 a pr => Sys2Proof.Machine.execDeq g la s4 a pr s
  | .qinfo g la field d a => Sys2Proof.Machine.execQinfo g la field d a s
  | .xq g s4 => Sys2Proof.Machine.execXq g s4 s
  | .lq g s4 => Sys2Proof.Machine.execLq g s4 s
  | .tset g t a => Sys2Proof.Machine.execTset g t a s
  | .tstate g t d => Sys2Proof.Machine.execTstate g t d s
  | .twait g t => Sys2Proof.Machine.execTwait g t s
  | .tdrain g t => Sys2Proof.Machine.execTdrain g t s
  | .tfree g t => Sys2Proof.Machine.execTfree g t s
  | .cupset g add t a => Sys2Proof.Machine.execCupset g add t a s
  | .cupwt g t => Sys2Proof.Machine.execCupwt g t s
  | .cupqry g t d => Sys2Proof.Machine.execCupqry g t d s
  | .chki g t a b => Sys2Proof.Machine.execChki g t a b s
  | .tileDrained core t => Sys2Proof.Machine.execTileDrained core t s
  | .tileWaitWake core wave k => Sys2Proof.Machine.execTileWaitWake core wave k s
  | .kguard g k a => Sys2Proof.Machine.execKguard g k a s
  | .kclr g k => Sys2Proof.Machine.execKclr g k s
  | .kmul g la k ta tb a => Sys2Proof.Machine.execKmul g la k ta tb a s
  | .kmulStep core group k => Sys2Proof.Machine.execKmulStep core group k s
  | .kmma g la k ta tb a => Sys2Proof.Machine.execKmma g la k ta tb a s
  | .microTile core group m => Sys2Proof.Machine.execMicroTile core group m s
  | .kext g la k d a => Sys2Proof.Machine.execKext g la k d a s
  | .kextf g la k rm add d a b => Sys2Proof.Machine.execKextf g la k rm add d a b s
  | .ksto g la k ta a => Sys2Proof.Machine.execKsto g la k ta a s
  | .kpack g la k ta a b => Sys2Proof.Machine.execKpack g la k ta a b s
  | .kstat g la k d => Sys2Proof.Machine.execKstat g la k d s
  | .sget g la sz off d n => Sys2Proof.Machine.execSget g la sz off d n s
  | .sput g sz off n b => Sys2Proof.Machine.execSput g sz off n b s
  | .presume g n => Sys2Proof.Machine.execPresume g n s
  | .pretry g n => Sys2Proof.Machine.execPretry g n s
  | .predir g n b c => Sys2Proof.Machine.execPredir g n b c s
  | .pkill g n => Sys2Proof.Machine.execPkill g n s
  | .fraise g prio a => Sys2Proof.Machine.execFraise g prio a s
  | .trap g service a => Sys2Proof.Machine.execTrap g service a s
  | .brk g tag => Sys2Proof.Machine.execBrk g tag s
  | .ckpt g n => Sys2Proof.Machine.execCkpt g n s
  | .resid g a => Sys2Proof.Machine.execResid g a s
  | .rds g r d => Sys2Proof.Machine.execRds g r d s
  | .wrs g r a => Sys2Proof.Machine.execWrs g r a s
  | .isync g => Sys2Proof.Machine.execIsync g s
  | .nop g => Sys2Proof.Machine.execNop g s
  | .snap g => Sys2Proof.Machine.execSnap g s
  | .pairedWord u l => Sys2Proof.Machine.execPairedWord u l s
  | .next aw => Sys2Proof.Machine.execNext aw s
  | .brp aw p sense offa offb => Sys2Proof.Machine.execBrp aw p sense offa offb s
  | .jidx aw x offa len1 => Sys2Proof.Machine.execJidx aw x offa len1 s
  | .call aw offa => Sys2Proof.Machine.execCall aw offa s
  | .ret aw => Sys2Proof.Machine.execRet aw s
  | .exit aw => Sys2Proof.Machine.execExit aw s
  | .loopn aw x offa => Sys2Proof.Machine.execLoopn aw x offa s
  | .issueCycle core stage => Sys2Proof.Machine.execIssueCycle core stage s
  | .addressPromoted core wave addr => Sys2Proof.Machine.execAddressPromoted core wave addr s
  | .setAside core wave path => Sys2Proof.Machine.execSetAside core wave path s
  | .interlockCleared core wave k => Sys2Proof.Machine.execInterlockCleared core wave k s
  | .awaitDrained core wave => Sys2Proof.Machine.execAwaitDrained core wave s
  | .resultWriteback core wave k => Sys2Proof.Machine.execResultWriteback core wave k s
  | .deferredFaultReport core wave k => Sys2Proof.Machine.execDeferredFaultReport core wave k s
  | .storeFaultReport k code => Sys2Proof.Machine.execStoreFaultReport k code s
  | .waveResume core wave => Sys2Proof.Machine.execWaveResume core wave s
  | .groupDissolve core group => Sys2Proof.Machine.execGroupDissolve core group s
  | .copySegment core group cmd seg => Sys2Proof.Machine.execCopySegment core group cmd seg s
  | .copyPieceWrite core group cmd seg => Sys2Proof.Machine.execCopyPieceWrite core group cmd seg s
  | .ladleBag core group cmd bag => Sys2Proof.Machine.execLadleBag core group cmd bag s
  | .storeAtHome k => Sys2Proof.Machine.execStoreAtHome k s
  | .loadAtHome core word => Sys2Proof.Machine.execLoadAtHome core word s
  | .atomicAtHome k => Sys2Proof.Machine.execAtomicAtHome k s
  | .l1Writeback core word => Sys2Proof.Machine.execL1Writeback core word s
  | .updateReceive die k => Sys2Proof.Machine.execUpdateReceive die k s
  | .valueReceive die k => Sys2Proof.Machine.execValueReceive die k s
  | .lineWake die word => Sys2Proof.Machine.execLineWake die word s
  | .fenceArbiter k => Sys2Proof.Machine.execFenceArbiter k s
  | .sequencerStore k => Sys2Proof.Machine.execSequencerStore k s
  | .replicaApply member k => Sys2Proof.Machine.execReplicaApply member k s
  | .replicaMemberTimeout group member => Sys2Proof.Machine.execReplicaMemberTimeout group member s
  | .linkTimeout k => Sys2Proof.Machine.execLinkTimeout k s
  | .portLinkDown port => Sys2Proof.Machine.execPortLinkDown port s
  | .pageWalk die asid va => Sys2Proof.Machine.execPageWalk die asid va s
  | .budgetExpired core wave => Sys2Proof.Machine.execBudgetExpired core wave s
  | .deadlineExpired k => Sys2Proof.Machine.execDeadlineExpired k s
  | .tailChange n => Sys2Proof.Machine.execTailChange n s
  | .bindTake core idx => Sys2Proof.Machine.execBindTake core idx s
  | .bindWithdraw core idx => Sys2Proof.Machine.execBindWithdraw core idx s
  | .taskEnd k => Sys2Proof.Machine.execTaskEnd k s
  | .vspawn rd rs1 rs2 => Sys2Proof.Machine.execVspawn rd rs1 rs2 s
  | .vjoin rd rs1 rs2 => Sys2Proof.Machine.execVjoin rd rs1 rs2 s
  | .vjoinWake core => Sys2Proof.Machine.execVjoinWake core s
  | .drainEnd asid => Sys2Proof.Machine.execDrainEnd asid s
  | .saveComplete asid => Sys2Proof.Machine.execSaveComplete asid s
  | .saveDeadline asid => Sys2Proof.Machine.execSaveDeadline asid s
  | .cmdUnknown code => Sys2Proof.Machine.execCmdUnknown code s
  | .start failAt => Sys2Proof.Machine.execStart failAt s
  | .hostSnoop line => Sys2Proof.Machine.execHostSnoop line s
  | .hostMemAccess acc => Sys2Proof.Machine.execHostMemAccess acc s
  | .atsCompletion asid va grant w => Sys2Proof.Machine.execAtsCompletion asid va grant w s
  | .prgResponse asid va ok => Sys2Proof.Machine.execPrgResponse asid va ok s
  | .atsInvalidation pasid va len => Sys2Proof.Machine.execAtsInvalidation pasid va len s
  | .thermalThrottle temp => Sys2Proof.Machine.execThermalThrottle temp s
  | .thermalTrip temp => Sys2Proof.Machine.execThermalTrip temp s
  | .tripRecovery temp => Sys2Proof.Machine.execTripRecovery temp s
  | .powerLimit watts => Sys2Proof.Machine.execPowerLimit watts s
  | .mbUnknown code => Sys2Proof.Machine.execMbUnknown code s
  | .violation src kind addr => Sys2Proof.Machine.execViolation src kind addr s
  | .map k place frame => Sys2Proof.Machine.execMap k place frame s
  | .unmap k => Sys2Proof.Machine.execUnmap k s
  | .alloc k place frame => Sys2Proof.Machine.execAlloc k place frame s
  | .free k => Sys2Proof.Machine.execFree k s
  | .fread k => Sys2Proof.Machine.execFread k s
  | .fwrite k => Sys2Proof.Machine.execFwrite k s
  | .log k => Sys2Proof.Machine.execLog k s
  | .pairAnswer feed => Sys2Proof.Machine.execPairAnswer feed s
  | .recall remote => Sys2Proof.Machine.execRecall remote s
  | .svcmdUnknown code => Sys2Proof.Machine.execSvcmdUnknown code s
  | .snapshotCut asid => Sys2Proof.Machine.execSnapshotCut asid s
  | .frameDrainComplete frame => Sys2Proof.Machine.execFrameDrainComplete frame s
  | .partnerAck asid => Sys2Proof.Machine.execPartnerAck asid s
  | .busParityRetry core wave addr groups fails => Sys2Proof.Machine.execBusParityRetry core wave addr groups fails s
  | .registerWrite field value => Sys2Proof.Machine.execRegisterWrite field value s
  | .portLinkUp port => Sys2Proof.Machine.execPortLinkUp port s
  | .thermalThrottleEnd temp => Sys2Proof.Machine.execThermalThrottleEnd temp s
  | .partnerLost asid => Sys2Proof.Machine.execPartnerLost asid s
  | .partnerGenerationReceive gen => Sys2Proof.Machine.execPartnerGenerationReceive gen s
  | .partnerSlotReadRequest module slot => Sys2Proof.Machine.execPartnerSlotReadRequest module slot s
  | .retentionSleepEntry die word => Sys2Proof.Machine.execRetentionSleepEntry die word s
  | .clockRebase => Sys2Proof.Machine.execClockRebase s
  | .stockpotDeliver => Sys2Proof.Machine.execStockpotDeliver s
  | .dispatchTurn => Sys2Proof.Machine.execDispatchTurn s
  | .attach => Sys2Proof.Machine.execAttach s
  | .detach => Sys2Proof.Machine.execDetach s
  | .qtsync => Sys2Proof.Machine.execQtsync s
  | .load => Sys2Proof.Machine.execLoad s
  | .preempt => Sys2Proof.Machine.execPreempt s
  | .restore => Sys2Proof.Machine.execRestore s
  | .kill => Sys2Proof.Machine.execKill s
  | .unload => Sys2Proof.Machine.execUnload s
  | .inval => Sys2Proof.Machine.execInval s
  | .stepCmd => Sys2Proof.Machine.execStepCmd s
  | .freeze => Sys2Proof.Machine.execFreeze s
  | .thaw => Sys2Proof.Machine.execThaw s
  | .orderlyWarmReset => Sys2Proof.Machine.execOrderlyWarmReset s
  | .orderlyColdReset => Sys2Proof.Machine.execOrderlyColdReset s
  | .forcedWarmReset => Sys2Proof.Machine.execForcedWarmReset s
  | .powerOn => Sys2Proof.Machine.execPowerOn s
  | .powerBrake => Sys2Proof.Machine.execPowerBrake s
  | .update => Sys2Proof.Machine.execUpdate s
  | .attest => Sys2Proof.Machine.execAttest s
  | .getcert => Sys2Proof.Machine.execGetcert s
  | .lifecycle => Sys2Proof.Machine.execLifecycle s
  | .svcreg => Sys2Proof.Machine.execSvcreg s
  | .svcunreg => Sys2Proof.Machine.execSvcunreg s
  | .vclear => Sys2Proof.Machine.execVclear s
  | .pair => Sys2Proof.Machine.execPair s
  | .unpair => Sys2Proof.Machine.execUnpair s
  | .discard => Sys2Proof.Machine.execDiscard s
  | .powerLoss => Sys2Proof.Machine.execPowerLoss s
  | .powerBrakeRelease => Sys2Proof.Machine.execPowerBrakeRelease s
  | .powerGatingEntry => Sys2Proof.Machine.execPowerGatingEntry s

end Sys2Proof.Machine
end

