-- ==== Sys2Proof/Machine/Schedule.lean ====
section
/-! DEFINITION. The moves that the module makes by itself when the agenda names none: the first of its pending moves that
changes the state, else a cycle of an issue stage. -/

namespace Sys2Proof.Machine

/-- A move changes the state. -/
def actsOn (s : State) (i : Instr) : Bool :=
  match exec i s with
  | .next t => t != s
  | _ => true

/-- Moves of a wave: ends of waits, reports, drains, set-aside paths, slots and budgets. -/
def waveMoves (w : Wave) : List Instr :=
  let c := w.core
  let n := w.id
  let stalled := (w.paths.filter fun p => !p.canIssue).length
  (List.range w.deferred.length).map (fun k => .deferredFaultReport c n k)
    ++ (List.range w.waits.length).flatMap (fun k =>
      [.waitwWake c n k, .waitwTimeout c n k, .pollbNapEnd c n k, .napEnd c n k, .growTimeout c n k, .tileWaitWake c n k])
    ++ (List.range w.paths.length).map (fun k => .setAside c n k)
    ++ ((List.range w.aside.length).filter fun k => (w.aside[k]?).any fun p => !p.retry).map (fun k =>
      .interlockCleared c n (stalled + k))
    ++ [.awaitDrained c n, .waveResume c n, .budgetExpired c n]

/-- Moves of a group: tiles, product steps, engine segments, and its dissolution. -/
def groupMoves (g : Group) : List Instr :=
  g.tiles.map (fun t => .tileDrained g.core t.1)
    ++ (List.range g.accs.length).map (fun k => .kmulStep g.core g.id k)
    ++ (if g.seqs.isEmpty then [] else (List.range 32).map fun k => .microTile g.core g.id k)
    ++ g.cmds.flatMap (fun c =>
      let begun := c.segs.map Seg.no
      let next := (List.range (begun.length + 1)).filter fun n => !begun.contains n
      if c.ladle then (next ++ begun).map fun n => .ladleBag g.core g.id c.idx n
      else begun.map (fun n => .copyPieceWrite g.core g.id c.idx n)
        ++ (begun ++ next).map fun n => .copySegment g.core g.id c.idx n)
    ++ [.groupDissolve g.core g.id]

/-- Moves of the homes and of the dies. -/
def homeMoves (d : Dev) (m : Mach) : List Instr :=
  (List.range m.coh.stores.length).flatMap (fun k => [.storeAtHome k, .atomicAtHome k, .sequencerStore k])
    ++ (List.range m.coh.fences.length).map (fun k => .fenceArbiter k)
    ++ (List.range m.coh.updates.length).flatMap (fun k => (List.range 4).map fun die => .updateReceive die k)
    ++ (List.range m.coh.values.length).flatMap (fun k => (List.range 4).map fun die => .valueReceive die k)
    ++ (m.coh.reps.mapIdx fun k r => (repMembers d m r.group).map fun x => Instr.replicaApply x k).flatten

/-- Moves of dispatch. -/
def dispatchMoves (m : Mach) : List Instr :=
  m.disp.queues.map (fun q => .tailChange q.n)
    ++ (List.range m.disp.ftasks.length).map (fun k => .deadlineExpired k)
    ++ (if m.disp.ftasks.isEmpty then [] else [.stockpotDeliver])
    ++ (List.range m.disp.tasks.length).map (fun k => .taskEnd k)
    ++ (m.disp.slots.filter fun r => r.state == 0).map (fun r => .bindTake r.core r.idx)
    ++ (if m.disp.queues.isEmpty && m.disp.tasks.isEmpty then [] else [.dispatchTurn])

/-- Moves of a context: drain, save, restore and cut. -/
def ctxMoves (c : Ctx) : List Instr :=
  (if c.cstate == .draining then [.drainEnd c.asid] else [])
    ++ (if c.cstate == .saving then [.saveComplete c.asid, .saveDeadline c.asid] else [])
    ++ (if c.restoring then [.restore] else [])
    ++ (if c.snap.armed then [.snapshotCut c.asid] else [])

/-- Moves of the module as a whole: a start, and commands that go on. -/
def boardMoves (s : State) : List Instr :=
  (if s.dev.ctl.bootstage == 7 then [] else [.start none])
    ++ (if s.dev.mgt.updating.isSome then [.update] else [])
    ++ (if s.dev.mgt.wiping && s.dev.mgt.mbbusy then [.lifecycle] else [])
    ++ s.mach.frozen.map (fun f => .frameDrainComplete f.frame)
    ++ (List.range s.svc.length).filterMap fun n =>
      (s.svc[n]?).bind fun c => if c.joining.isSome then some (Instr.vjoinWake n) else none

/-- The moves that may be pending, in the order in which they are tried. -/
def pendingMoves (s : State) : List Instr :=
  let m := s.mach
  boardMoves s ++ m.waves.flatMap waveMoves ++ homeMoves s.dev m ++ m.groups.flatMap groupMoves
    ++ (m.waves.map Wave.core).eraseDups.map (fun c => .growGrant c) ++ dispatchMoves m ++ m.ctxs.flatMap ctxMoves

/-- The issue stages of which some path may issue, or may be chosen. -/
def readyStages (m : Mach) : List (Nat × Nat) :=
  ((m.waves.filter fun w => w.live && w.slot.isSome
      && (w.paths.any Path.canIssue || (mayChoose m w && !w.candidates.isEmpty))).map fun w =>
    (w.core, w.slot.getD 0 / 32)).eraseDups

/-- The next move when the agenda names none. The stages that may issue take the cycles in turn. -/
def nextMove (s : State) : Instr :=
  match (pendingMoves s).find? (actsOn s) with
  | some i => i
  | none =>
    let ready := readyStages s.mach
    match ready[s.mach.clock.toNat % max 1 ready.length]? with
    | some (core, stage) => .issueCycle core stage
    | none => .issueCycle 0 0

end Sys2Proof.Machine
end

