-- ==== Sys2Proof/Machine/Move.lean ====
section
/-! DEFINITION. What the next step does: the instruction of a path or a service core that has been selected, the next move
of the agenda, or the move that the model takes by itself; and the placing of code (R18, R55, R161, R174, R189, R412,
R418). -/

namespace Sys2Proof.Machine

/-- What a step is about to do. -/
inductive Plan where
  | run (i : Instr) (s : State)
  | done (s : State)
  | fault (f : Fault)
  deriving DecidableEq, Repr

/-- The lanes that the record of an undecodable word names: those in which its guard holds, or every lane (R458). -/
def badWordLanes (w : Wave) (p : Path) (x : Nat) : BitVec 64 :=
  let f := fieldsOf x
  let held := guardLanes w p.mask ⟨Fin.ofNat 8 f.gp, f.gs == 1⟩
  if f.fmt = 0 && !held.isEmpty then maskOf held else p.mask

/-- Parks the wave of a path at a word that does not decode (R189). -/
def parkBadWord (d : Dev) (w : Wave) (p : Path) (x : BitVec 64) (m : Mach) : Mach :=
  parkAt d m w p (badWordLanes w p x.toNat) ⟨0x50, x⟩

/-- The instruction of a path: fetched, with its prefix, and decoded (R161, R174); or the machine with the wave parked. -/
def readUnit (d : Dev) (w : Wave) (p : Path) (m : Mach) : Except Mach (Instr × Mach) :=
  if p.pc.toNat % 8 != 0 then .error (parkAt d m w p p.mask ⟨0x50, p.pc⟩)
  else match fetchWord d w.core w.id p.pc m with
    | (.error f, m) => .error (parkAt d m w p p.mask f)
    | (.ok x, m) =>
      if bitsOf x.toNat 62 2 = 2 then
        match fetchWord d w.core w.id (p.pc + 8) m with
        | (.error f, m) => .error (parkAt d m w p p.mask f)
        | (.ok y, m) => match decodeUnit x.toNat y.toNat with
          | .ok i => .ok (i, m)
          | .error .operands => .error (parkBadWord d w p y m)
          | .error _ => .error (parkBadWord d w p x m)
      else match decodeWord x.toNat with
        | .ok i => .ok (i, m)
        | .error _ => .error (parkBadWord d w p x m)

/-- The step of a selected path. A set-aside path whose word cannot be read, or is none, rejoins path choice, where its word
faults. -/
def planPath (s : State) (sel : Sel) (rest : List Sel) : Plan :=
  let m := { s.mach with latch := rest, cur := some sel }
  match m.curPath with
  | none => .done { s with mach := { m with cur := none } }
  | some (w, p) => match readUnit s.dev w p m with
    | .ok (i, m) => .run i { s with mach := m }
    | .error m' => .done { s with mach := if m.probing then rejoinPath m w p else m' }

/-! Service cores (R412, R418) -/

/-- The step of a selected service core. A fetch that fails raises its exception (R412), and so does a word of custom-0 that
is neither instruction (R418); `fence` is R108's, and any other word outside custom-0 belongs to the firmware. -/
def planService (s : State) (n : Nat) (rest : List Sel) : Plan :=
  let s := { s with mach := { s.mach with latch := rest, cur := some (.service n) } }
  match s.svc[n]? with
  | none => .done s
  | some c =>
    if c.joining.isSome || c.exc.isSome then .done s
    else match fetchService s.dev s.mach c with
      | .error e => .done (raiseSvc n e c.pc s)
      | .ok x => match decodeService x with
        | .ok i => .run i s
        | .error .notServiceWord =>
          if isFence x then .done (s.updSvc n fun c => { c with pc := c.pc + 4 }) else .fault .serviceFirmware
        | .error _ => .done (raiseSvc n 2 (BitVec.ofNat 64 x) s)

/-! The next step -/

/-- What the next step does: first what an issue stage has selected, then the agenda. -/
def plan (s : State) : Plan :=
  match s.mach.latch with
  | .path core wave mask :: rest => planPath s (.path core wave mask) rest
  | .probe core wave mask :: rest => planPath s (.probe core wave mask) rest
  | .service n :: rest => planService s n rest
  | [] =>
    let s0 := { s with mach := { s.mach with cur := none } }
    match s.agenda with
    | i :: rest => .run i { s0 with agenda := rest }
    | [] => .run (nextMove s) s0

/-! Placing code -/

/-- Virtual address of the code that `withFetchWord` places. -/
def codeVa : BitVec 64 := 0x10000

/-- The page tables that map the page of `codeVa` to HBM at 0x200000, readable, writable and executable (R396, R397). -/
def codeTables : List (Nat × Nat) :=
  [(0x100000, 0x101001), (0x101000, 0x102001), (0x102000, 0x103001), (0x103000, 0x104001), (0x104080, 0x20001F)]

/-- A lane with the whole allotment of each class. -/
def fullLane : Lane :=
  { st := .run, tid := 0, group := some 0, pc := codeVa, target := false, stack := [], v := List.replicate 576 0,
    c := List.replicate 48 0, e := List.replicate 4 0, p := List.replicate 7 false,
    lq := List.replicate 12 [], sq := List.replicate 12 [], arrived := List.replicate 16 none }

/-- A wave of one thread that stands at `codeVa`, on an issuing path. -/
def codeWave : Wave :=
  { core := 0, id := 0, slot := some 0, width := 16, asid := 1, shadow := false, partner := none, guarded := false, tol := 0,
    launchPr := 4, prio := 4, memdef := 0, step := 0, gang := 0, gangDead := false, fails := 0, savedPr := 4,
    s := List.replicate 64 0, lanes := fullLane :: List.replicate 15 noLane,
    paths := [{ pc := codeVa, mask := 1, seg := 0, fin := none, windows := [], stall := 0, target := false }],
    aside := [], resume := [], waits := [], ages := [], promoted := [], deferred := [], fetched := [], marker := none,
    ckCount := 33, parked := none, stopped := false, evicted := false, depth := 0, record := none, task := none, gindex := 0,
    turn := 0, snapped := false, saved := none, ended := false, issueNo := 0, owes := false }

/-- A snapshot status before arming (R441). -/
def Snap.fresh : Snap :=
  { armed := false, armerr := 0, sstate := .idle, feedsafe := false, partnered := false, lastgen := 0, pgen := 0, cuts := 0,
    skipcad := 0, skipbusy := 0, aborts := 0, tcut := 0, cutSince := false, jobid := 0, cadence := 0, regions := [], slot := 0,
    begun := false, round := false }

/-- A resident context with its tables at 0x100000. -/
def codeCtx : Ctx :=
  { idx := 0, asid := 1, pasid := 0, ptroot := 0x100000, faulttab := 0, memdef := 0, savearea := 0x300000, savesize := 9,
    drainus := 0, saveus := 0, linkto := 0, snapcfg := 0, cstate := .resident, frozen := false,
    ctabs := [none, none, none], groups := [], waves := [], killCause := 0, killList := [], snap := Snap.fresh, places := [], windows := [],
    drainT := 0, restoring := false }

/-- Bytes placed in HBM from outside: no word of them is registered, lost or in flight. -/
def placeBytes (pa : Nat) (bs : List Byte) (m : Mach) : Mach :=
  let ws := (wordPieces pa bs.length).map Prod.fst
  let m := ws.foldl (fun (m : Mach) w =>
    let m := m.writeBack w false
    { m with coh := m.coh.setHome w .unreg false }) m
  { m with mem := m.mem.writeN pa bs }

/-- The machine with code of a compute core placed where the next step fetches it. -/
def placeCode (bs : List Byte) (m : Mach) : Mach :=
  let m := codeTables.foldl (fun (m : Mach) e => placeBytes e.1 (toBytes 8 e.2) m) m
  let m := placeBytes 0x200000 bs m
  let g := newGroup 0 0 m.freeCount 1 ⟨1, 1, 16, 64, 16, 16, 16⟩ [(0, 0)]
  { m with
    coh := { m.coh with
      tlb := m.coh.tlb.filter fun t => t.asid != 1
      icache := m.coh.icache.filter fun x => x.asid != 1 }
    ctxs := codeCtx :: m.ctxs.filter fun c => c.asid != 1
    groups := g :: m.groups.filter fun x => !(x.core == 0 && x.id == 0)
    waves := codeWave :: m.waves.filter fun w => !(w.core == 0 && w.id == 0)
    freeCount := m.freeCount + 1
    latch := [.path 0 0 1] }

/-- The module with a word of a service core placed where core 0 fetches it. -/
def placeService (w : Nat) (s : State) : State :=
  let pc := match s.svc[0]? with
    | some c => c.pc
    | none => 0
  let s := s.withMach fun _ m => { (placeBytes pc.toNat (toBytes 4 w) m) with latch := [.service 0] }
  s.updSvc 0 fun c => { c with joining := none, exc := none }

end Sys2Proof.Machine
end

