-- ==== Sys2Proof/Machine/Step.lean ====
section
/-! DEFINITION. One step of the module, and the placing of an instruction where the next step fetches it. -/

namespace Sys2Proof.Machine

/-- One step: the instruction of a selected path or service core, a move of the agenda, or a move of the model's own. -/
def step (s : State) : Host.Outcome State Fault Refusal :=
  match plan s with
  | .run i t => exec i t
  | .done t => .next t
  | .fault f => .fault f

/-- The state with an instruction, numbered as the opcode table numbers its bits, stored where the next step fetches: a word
of 32 bits at service core 0, others at a compute wave in a context of its own. -/
def State.withFetchWord (s : State) (nbits w : Nat) : State :=
  if nbits = 32 then placeService w s
  else s.withMach fun _ m => placeCode (toBytes 16 w) m

end Sys2Proof.Machine
end

