-- ==== Sys2Proof/Safety.lean ====
section
/-! DEFINITION. The terms in which claims about runs are stated: what a safe run is, when a word issues without meeting
anything, and the state after it. -/

namespace Sys2Proof

open Machine

/-- The outcome of a step that goes on. -/
def goesOn (o : Host.Outcome State Fault Refusal) : Prop := ∃ t, o = .next t

/-- One step of the machine, from a state to the next. -/
def stepsTo (s t : State) : Prop := step s = .next t

/-- A predicate that every step keeps. -/
def kept (p : State → Prop) : Prop := ∀ s t, p s → stepsTo s t → p t

/-- A word issues on the path that `cur` selects, and meets nothing that precedes its effect: `m` is the machine with the
results of the path's ended windows written (R168), `io` its wave, path and acting lanes (R163). The path is issuing, and not a
set-aside one whose word is tried (R24), no deferred fault is due and no reissued operation is awaited (R263), the word is legal at its place in the segment and in this wave (R18, R23, R38), every operand lies within the
allotments (R35), the queue registers it names have entries and room (R38), and the wave does not single-step (R51). -/
structure Issues (s : State) (info : WordInfo) (m : Mach) (io : Io) : Prop where
  issuing : s.mach.probing = false
  path    : ∃ w p, s.mach.curPath = some (w, p) ∧ m = settlePath s.mach w p
  stands  : m.curPath = some (io.w, io.p)
  lanes   : io.act = guardLanes io.w io.p.mask info.guard
  clear   : preFault s.dev m io info = none
  retries : io.retryWait info = false
  queues  : queueStall io.w io.act info.srcs info.dsts = false
  running : io.w.step.getLsbD 0 = false

/-- A word stands at the path that `cur` selects, issuing: `m` is the machine with the results of the path's ended windows
written (R168), `io` its wave, path and acting lanes (R163). No deferred fault is due (R263), and nothing that the path waited on has gone
(R67, R155). -/
structure Stands (s : State) (info : WordInfo) (m : Mach) (io : Io) : Prop where
  issuing : s.mach.probing = false
  path    : ∃ w p, s.mach.curPath = some (w, p) ∧ m = settlePath s.mach w p
  stands  : m.curPath = some (io.w, io.p)
  lanes   : io.act = guardLanes io.w io.p.mask info.guard
  defers  : io.deferred info = none
  stays   : io.gone = false

/-- The state after a word has issued with an effect that no lane faulted in: the path is past the word, and its results
are written, or held back in the window that it opened (R168). A scalar takes the result of the lowest acting lane alone,
where an outstanding operation leaves some lane without one (R164). -/
def issued (s : State) (io : Io) (info : WordInfo) (e : Eff) : State :=
  { s with mach := e.m.updWave io.w.core io.w.id fun w => w.issued io info { e with outs := e.landing io.lead } }

/-- The state after a word whose effect is to write registers. -/
def wrote (s : State) (m : Mach) (io : Io) (info : WordInfo) (outs : List RegWrite) : State :=
  issued s io info (Eff.ok m outs)

/-- The writes of a destination of a width, from a value in each acting lane. -/
def perLane (io : Io) (bits : Nat) (d : Opnd) (f : Nat → Nat) : List RegWrite :=
  laneOuts bits d (io.act.map fun l => (l, f l))

/-- The writes of a predicate, from a truth value in each acting lane. -/
def perLaneP (io : Io) (n : Nat) (f : Nat → Bool) : List RegWrite := predOuts n (io.act.map fun l => (l, f l))

/-- A number of a type's width as it stands in a register: extended by the type (R203). -/
def asReg (ty : Ty) (x : Nat) : Nat :=
  if ty.signed && decide (2 ^ (ty.bits - 1) ≤ x) then x + (2 ^ 64 - 2 ^ ty.bits) else x

/-- The state after a word has met a fault of the whole word: the wave is parked at the word, and no register is written
(R11, R48). -/
def parkedAtWord (s : State) (m : Mach) (io : Io) (lanes : BitVec 64) (f : Flt) : State :=
  { s with mach := parkWave s.dev m io.w io.p.mask io.p.mask io.p.pc io.p.seg lanes f none }

/-- Wherever the word of an instruction issues and meets nothing before its effect, it completes: the next state is the
one in which exactly the listed register writes have been made, the path stands past the word, and nothing else has
changed. -/
def writesOnly (i : Instr) (info : WordInfo) (outs : Dev → Mach → Io → List RegWrite) : Prop :=
  ∀ s m io, Issues s info m io → exec i s = .next (wrote s m io info (outs s.dev m io))

/-- Wherever the word of an instruction issues and meets nothing before its effect, it completes: each acting lane has a
value for the destination, of a width, which is written there, the path stands past the word, and nothing else has
changed. -/
def completes (i : Instr) (info : WordInfo) (bits : Nat) (d : Opnd) : Prop :=
  ∀ s m io, Issues s info m io → ∃ f, exec i s = .next (wrote s m io info (perLane io bits d f))

/-- The number of n bits whose bit i is given. -/
def ofBits : Nat → (Nat → Bool) → Nat
  | 0, _ => 0
  | n + 1, p => ofBits n p + if p n then 2 ^ n else 0

/-- A magnitude code of an IEEE format in units of the smallest subnormal: its value is this number times
2^(1 - bias - f) (R117). Codes from the infinity's on are read as if the exponent went on. -/
def codeUnits (ft : FFmt) (c : Nat) : Nat :=
  let f := (fparams ft).f
  if c < 2 ^ f then c else (2 ^ f + c % 2 ^ f) * 2 ^ (c / 2 ^ f - 1)

/-- The magnitude code to which a positive real rounds once in a mode (R117, R122): the real lies from the value of code `r` up to
that of the next, and the code is the next one where the mode says so. The real is given by its place among the halves of the
smallest subnormal: `le h` says that h halves are at most it, `lt h` that they are less. -/
def roundedCode (ft : FFmt) (rm : RMode) (neg : Bool) (le lt : Nat → Prop) (c : Nat) : Prop :=
  ∃ r, le (2 * codeUnits ft r) ∧ ¬ le (2 * codeUnits ft (r + 1)) ∧
    let half := codeUnits ft r + codeUnits ft (r + 1)
    let up := match rm with
      | .rne => lt half ∨ (le half ∧ r % 2 = 1)
      | .rz => False
      | .rdn => neg = true ∧ lt (2 * codeUnits ft r)
      | .rup => neg = false ∧ lt (2 * codeUnits ft r)
    (up ∧ c = r + 1) ∨ (¬ up ∧ c = r)

/-- The code of an IEEE format that a rounded magnitude code gives: past the largest finite code an infinity, or that largest
code where the mode prescribes it; under `.ftz` a zero below the smallest normal; with its sign (R117). -/
def settledCode (ft : FFmt) (rm : RMode) (ftz neg : Bool) (c : Nat) : Nat :=
  let top := (2 ^ (fparams ft).e - 1) * 2 ^ (fparams ft).f
  fzero ft neg +
    if top ≤ c then
      match rm with
        | .rne => top
        | .rz => top - 1
        | .rdn => if neg then top else top - 1
        | .rup => if neg then top - 1 else top
    else if ftz && decide (c < 2 ^ (fparams ft).f) then 0 else c

/-- The exponent of the smallest subnormal of a format (R117, R120). -/
def unitExp (ft : FFmt) : Int := 1 - ((fparams ft).bias : Int) - (fparams ft).f

/-- m × 2^q rounded once to an integer magnitude in a mode. -/
def integralMag (rm : RMode) (neg : Bool) (m : Nat) (q : Int) : Nat :=
  if 0 ≤ q then m * 2 ^ q.toNat
  else
    let b := 2 ^ (-q).toNat
    let up := match rm with
      | .rne => decide (b < 2 * (m % b)) || (decide (b = 2 * (m % b)) && decide (m / b % 2 = 1))
      | .rz => false
      | .rdn => neg && decide (m % b ≠ 0)
      | .rup => !neg && decide (m % b ≠ 0)
    if up then m / b + 1 else m / b

/-- The number that a load of a size puts into its destination: sign-extended for `.s8`, `.s16` and `.s32` (R257). -/
def loadedAs (sz : Sz) (bs : List Byte) : Nat :=
  match sz with
  | .s8 => asReg .s8 (ofBytes bs % 2 ^ 8)
  | .s16 => asReg .s16 (ofBytes bs % 2 ^ 16)
  | .s32 => asReg .s32 (ofBytes bs % 2 ^ 32)
  | _ => ofBytes bs

/-- A memory word issues, and neither a fence nor its own release makes it wait: `m1` is the machine once its order has
acted (R95, R96, R262, R272). -/
structure Reaches (s : State) (info : WordInfo) (k : MemKind) (pre : Option Prefix) (m : Mach) (io : Io) (p : Prefix)
    (m1 : Mach) : Prop where
  issues  : Issues s info m io
  prefix_ : p = forcePrefix k pre io.w
  ordered : orderBefore s.dev m io p = (m1, false)

/-- The state after a memory word that writes registers and leaves the machine `m2`. -/
def landed (s : State) (io : Io) (info : WordInfo) (m2 : Mach) (outs : List RegWrite) : State :=
  issued s io info (Eff.ok m2 outs)

/-- A 64-bit address that an operand gives in a lane. -/
def addrIn (dv : Dev) (m : Mach) (io : Io) (l : Nat) (o : Opnd) : BitVec 64 := BitVec.ofNat 64 (readOp dv m io.w l 64 o)

/-- What `MXLD` loads where no home and no page turns it away: the machine, and each lane's element under its block's scale,
rounded (R251, R252). Addresses are those of the lowest acting lane of each sub-group. -/
def mxLoads (dv : Dev) (m1 : Mach) (io : Io) (p : Prefix) (ef : EFmt) (rm : RMode) (a b : Opnd) :
    Option (Mach × List (Nat × Nat)) :=
  (mxGroups io).foldl (fun o ls => o.bind fun r =>
    let l0 := ls.headD 0
    let one := { io with act := [l0] }
    match mxRead dv io.w l0 (addrIn dv m1 io l0 a) (addrIn dv m1 io l0 b) (mxBytes ef) r.1 with
      | (.bytes bs, sc, m) => some (ownHint dv p one 1 (fun _ => (addrIn dv m1 io l0 b).toNat)
          (ownHint dv p one (mxBytes ef) (fun _ => (addrIn dv m1 io l0 a).toNat) m), r.2 ++ ls.map fun l =>
            (l, fround .f32 rm false (elemVal ef sc (bitsOf (ofBytes bs) (l % 32 * efmtBits ef) (efmtBits ef)))))
      | _ => none) (some (m1, []))

/-- What `MXST` puts in flight where every page allows it: for each sub-group its codes and its scale, as one unit (R253). -/
def mxStores (dv : Dev) (m1 : Mach) (io : Io) (p : Prefix) (ef : EFmt) (rm : RMode) (nan : Bool) (x a b : Opnd) : Option Mach :=
  (mxGroups io).foldl (fun o ls => o.bind fun m =>
    let l0 := ls.headD 0
    let v := fun k => (ls.find? fun l => l % 32 == k).map fun l => fdecode .f32 (readFloat dv m1 io.w l .f32 x)
    let c := mxCodes ef rm nan v
    match checkAcc dv m io.w l0 .glb (addrIn dv m1 io l0 a).toNat (mxBytes ef) .w false,
        checkAcc dv m io.w l0 .glb (addrIn dv m1 io l0 b).toNat 1 .w false with
      | .ok (.mem p1), .ok (.mem p2) => some (storeUnit io ls
          [(addrIn dv m1 io l0 a, p1, toBytes (mxBytes ef) c.1), (addrIn dv m1 io l0 b, p2, toBytes 1 c.2)] p m)
      | _, _ => none) (some m1)

/-- A trailer issues on the path that `cur` selects, not a set-aside one (R24): `m`, `w` and `p` are the machine, the wave and the
path with the results of the path's ended windows written (R168). No deferred fault is due and no reissued operation is awaited
(R263), and the segment is not a trailer alone at a trailer's target (R18). -/
structure TrailerMet (s : State) (i : Instr) (aw : BitVec 5) (srcs : List (Opnd × Nat)) (preds : List Nat) (m : Mach)
    (w : Wave) (p : Path) : Prop where
  active : s.mach.probing = false
  path   : ∃ w0 p0, s.mach.curPath = some (w0, p0) ∧ m = settlePath s.mach w0 p0
  stands : m.curPath = some (w, p)
  awaits : trailerWaits ⟨w, p, lanesOf w.width p.mask⟩ (trailerInfo i aw srcs preds w p) = false
  clear  : Io.deferred ⟨w, p, lanesOf w.width p.mask⟩ (trailerInfo i aw srcs preds w p) = none
  words  : p.seg = 0 → p.target = false
  lanes  : p.mask ≠ 0

/-- A trailer issues and meets nothing before its successor rule: `m`, `w` and `p` are the machine, the wave and the path with
the results of every window of the path written (R20, R168). Nothing is left to wait for (R23), the operands lie within the
allotments (R35), and the wave does not single-step (R51). -/
structure AtTrailer (s : State) (i : Instr) (aw : BitVec 5) (srcs : List (Opnd × Nat)) (preds : List Nat) (m : Mach)
    (w : Wave) (p : Path) : Prop where
  issues  : ∃ m1 w1 p1, TrailerMet s i aw srcs preds m1 w1 p1 ∧ p1.fin = none ∧
    (∀ l ∈ lanesOf w1.width p1.mask, srcs.any (unallotted w1 l) = false ∧ preds.any (unallottedP w1 l) = false) ∧
    m = closePath m1 w1 p1 ∧ m.wave w1.core w1.id = some w ∧ p = { p1 with windows := [] }
  running : w.step.getLsbD 0 = false

/-- The state after a trailer: the path has gone, its lanes stand at their successors, or drain before they do (R20, R22), and
the wave has issued one word more after its marker (R341, R351). -/
def wentTo (s : State) (m : Mach) (w : Wave) (p : Path) (aw : BitVec 5) (goal : List (Nat × BitVec 64)) : State :=
  { s with mach := (sendLanes w.core w.id p.mask aw goal (dropPath w.core w.id p.mask m)).updWave w.core w.id fun w =>
      { w with ckCount := min 33 (w.ckCount + 1) } }

/-- Every lane of a path with its successor. -/
def lanesTo (w : Wave) (p : Path) (f : Nat → BitVec 64) : List (Nat × BitVec 64) :=
  (lanesOf w.width p.mask).map fun l => (l, f l)

/-- The state with one wave changed, and nothing else. -/
def withWave (s : State) (core wave : Nat) (f : Wave → Wave) : State := { s with mach := s.mach.updWave core wave f }

/-- A move changes one wave and nothing else: `w` is the wave before, `w2` after. -/
def wave1 (i : Instr) (s : State) (w w2 : Wave) : Prop :=
  ∃ f, exec i s = .next (withWave s w.core w.id f) ∧ f w = w2

/-- The registers of the module's own stay within what the spec allows: PWRCAP within 400 to 2,400 and TLIMIT within 70
to 100 (R423), CLKNOW within 1,200 to 2,400 (R436), RSVPCT within 1 to 50 (R439); a module in ROM recovery has failed to start three
times (R409); an attached one is powered, ready and not in recovery (R373, R410); and there are sixteen service cores, with
thirty-two registers of which the first reads zero, and an ASID of 16 bits in `svasid` (R412, R417). -/
def registersLegal (s : State) : Prop :=
  let d := s.dev
  (400 ≤ d.mgt.pwrcap.toNat ∧ d.mgt.pwrcap.toNat ≤ 2400) ∧ (70 ≤ d.mgt.tlimit.toNat ∧ d.mgt.tlimit.toNat ≤ 100) ∧
  (1200 ≤ d.mgt.clknow.toNat ∧ d.mgt.clknow.toNat ≤ 2400) ∧ (1 ≤ d.srv.rsvpct.toNat ∧ d.srv.rsvpct.toNat ≤ 50) ∧
  (d.ctl.recovery = true → d.ctl.failcnt = 3) ∧
  (d.att.attached = true → d.ctl.powered = true ∧ d.ctl.bootstage = 7 ∧ d.ctl.recovery = false) ∧
  s.svc.length = 16 ∧ (∀ c ∈ s.svc, c.x.length = 32 ∧ c.caps.length = 32 ∧ c.x[0]? = some 0 ∧ c.svasid.toNat < 2 ^ 16)

end Sys2Proof
end

