-- ==== Sys2Proof/Certificates/Slice0/Obligations.lean ====
section
/-! DEFINITION. The statements about the machine that the provers prove. Each names the rules of the spec that it
formalises. -/

open Sys2Proof Sys2Proof.Machine

/-! ## Integer words (R203 to R217) -/

/-- R206, R207, R209: the two-source integer words write, in each lane in which they act, the exact result reduced to
the type's width and extended by the type (R203). They change nothing else. R206: `ADDC` and `SUBB` read their
sources unsigned, take the carry or borrow from predicate PC, write the reduced result and put the carry or borrow
out into PC. R207, R209, R214, R215: `MAD` reduces the exact A × B + C, `ABS` and `NEG` give the most negative value
to itself, `LEA` adds b shifted under its four readings, and `CVTI` reduces or clamps. -/
def Obligations.IntegerResults : Prop :=
  ((∀ (g : Guard) (ty : Ty) (d a b : Opnd),
    let two := fun (i : Instr) (f : Int → Int → Int) =>
      writesOnly i (shortInfo i g [(a, ty.regBits), (b, ty.regBits)] [(d, ty.regBits)] []) fun dv m io =>
        perLane io ty.regBits d fun l =>
          asReg ty (wrapTo ty.bits (f (readInt dv m io.w l ty a) (readInt dv m io.w l ty b)))
    two (.add g ty d a b) (fun x y => x + y) ∧ two (.sub g ty d a b) (fun x y => x - y) ∧
    two (.mul g ty d a b) (fun x y => x * y) ∧ two (.mulh g ty d a b) (fun x y => x * y / 2 ^ ty.bits) ∧
    two (.min g ty d a b) (fun x y => min x y) ∧ two (.max g ty d a b) (fun x y => max x y)) ∧
  (∀ (g : Guard) (ty : Ty) (d a b : Opnd) (pc : Fin 7),
    let info := fun (i : Instr) =>
      shortInfo i g [(a, ty.regBits), (b, ty.regBits)] [(d, ty.regBits)] [pc.val]
    let cin := fun (io : Io) (l : Nat) => if (io.w.lane l).pred pc.val then (1 : Nat) else 0
    writesOnly (.addc g ty d a b pc) (info (.addc g ty d a b pc)) (fun dv m io =>
      let x := fun l => readOp dv m io.w l ty.regBits a + readOp dv m io.w l ty.regBits b + cin io l
      perLane io ty.regBits d (fun l => x l % 2 ^ ty.bits) ++ perLaneP io pc.val fun l => decide (2 ^ ty.bits ≤ x l)) ∧
    writesOnly (.subb g ty d a b pc) (info (.subb g ty d a b pc)) (fun dv m io =>
      let x := fun l => readOp dv m io.w l ty.regBits a
      let y := fun l => readOp dv m io.w l ty.regBits b + cin io l
      perLane io ty.regBits d (fun l => wrapTo ty.bits ((x l : Int) - y l)) ++
        perLaneP io pc.val fun l => decide (x l < y l)))) ∧
  (∀ (g : Guard) (ty st : Ty) (d a b c : Opnd) (sh : Fin 16) (sat : Bool),
    writesOnly (.mad g ty d a b c)
      (shortInfo (.mad g ty d a b c) g [(a, ty.regBits), (b, ty.regBits), (c, ty.regBits)] [(d, ty.regBits)] [])
      (fun dv m io => perLane io ty.regBits d fun l => asReg ty (wrapTo ty.bits
        (readInt dv m io.w l ty a * readInt dv m io.w l ty b + readInt dv m io.w l ty c))) ∧
    writesOnly (.abs g ty d a) (shortInfo (.abs g ty d a) g [(a, ty.regBits)] [(d, ty.regBits)] [])
      (fun dv m io => perLane io ty.regBits d fun l =>
        let x := readInt dv m io.w l ty a
        asReg ty (wrapTo ty.bits (if x < 0 then -x else x))) ∧
    writesOnly (.neg g ty d a) (shortInfo (.neg g ty d a) g [(a, ty.regBits)] [(d, ty.regBits)] [])
      (fun dv m io => perLane io ty.regBits d fun l =>
        let x := readInt dv m io.w l ty a
        asReg ty (if x = -(2 ^ (ty.bits - 1)) then 2 ^ (ty.bits - 1) else wrapTo ty.bits (-x))) ∧
    writesOnly (.lea g .b64 d a b sh) (shortInfo (.lea g .b64 d a b sh) g [(a, 64), (b, 64)] [(d, 64)] [])
      (fun dv m io => perLane io 64 d fun l =>
        (readOp dv m io.w l 64 a + readOp dv m io.w l 64 b * 2 ^ sh.val) % 2 ^ 64) ∧
    writesOnly (.lea g .z32 d a b sh) (shortInfo (.lea g .z32 d a b sh) g [(a, 64), (b, 32)] [(d, 64)] [])
      (fun dv m io => perLane io 64 d fun l =>
        (readOp dv m io.w l 64 a + readOp dv m io.w l 32 b * 2 ^ sh.val) % 2 ^ 64) ∧
    writesOnly (.lea g .s32 d a b sh) (shortInfo (.lea g .s32 d a b sh) g [(a, 64), (b, 32)] [(d, 64)] [])
      (fun dv m io => perLane io 64 d fun l => wrapTo 64
        ((readOp dv m io.w l 64 a : Int) + signedOf 32 (readOp dv m io.w l 32 b) * 2 ^ sh.val)) ∧
    writesOnly (.lea g .b32 d a b sh) (shortInfo (.lea g .b32 d a b sh) g [(a, 32), (b, 32)] [(d, 32)] [])
      (fun dv m io => perLane io 32 d fun l =>
        (readOp dv m io.w l 32 a + readOp dv m io.w l 32 b * 2 ^ sh.val) % 2 ^ 32) ∧
    writesOnly (.cvti g ty st sat d a) (shortInfo (.cvti g ty st sat d a) g [(a, st.regBits)] [(d, ty.regBits)] [])
      (fun dv m io => perLane io ty.regBits d fun l =>
        let x := readInt dv m io.w l st a
        let lo : Int := if ty.signed then -(2 ^ (ty.bits - 1)) else 0
        let hi : Int := if ty.signed then 2 ^ (ty.bits - 1) - 1 else 2 ^ ty.bits - 1
        asReg ty (wrapTo ty.bits (if sat then max lo (min hi x) else x))))

/-- R208: `DIV` and `REM` truncate toward zero, a division by zero gives −1 and A, and the most negative value
divided by −1 gives itself and 0. With `.trap` they complete so when no acting lane meets one of these two cases.
R210: the bitwise and shift words, bit by bit, on the n-bit strings of their type; a shift takes b modulo n. R211:
`POPC` counts one bits, `CLZ` and `CTZ` count the zero bits above the highest and below the lowest one bit and give n
of zero, and `BREV` reverses the bits. R212, R213: `BFX` extracts a field and extends it by the type, `BFI` and
`MOVH` replace a field of what they read and keep the other bits. -/
def Obligations.ShiftAndFieldResults : Prop :=
  ((∀ (g : Guard) (la : Fin 16) (ty : Ty) (trap : Bool) (d a b : Opnd),
    let info := fun (i : Instr) => longInfo i g la [(a, ty.regBits), (b, ty.regBits)] [(d, ty.regBits)]
    let corner := fun (x y : Int) => y = 0 ∨ (ty.signed = true ∧ x = -(2 ^ (ty.bits - 1)) ∧ y = -1)
    let quot := fun (x y : Int) => if y = 0 then -1 else if ty.signed = true ∧ x = -(2 ^ (ty.bits - 1)) ∧ y = -1 then x
      else x.tdiv y
    let rest := fun (x y : Int) => if y = 0 then x else if ty.signed = true ∧ x = -(2 ^ (ty.bits - 1)) ∧ y = -1 then 0
      else x.tmod y
    ∀ s m io, (∀ l ∈ io.act, trap = true → ¬ corner (readInt s.dev m io.w l ty a) (readInt s.dev m io.w l ty b)) →
      (Issues s (info (.div g la ty trap d a b)) m io → exec (.div g la ty trap d a b) s =
        .next (wrote s m io (info (.div g la ty trap d a b)) (perLane io ty.regBits d fun l =>
          asReg ty (wrapTo ty.bits (quot (readInt s.dev m io.w l ty a) (readInt s.dev m io.w l ty b)))))) ∧
      (Issues s (info (.rem g la ty trap d a b)) m io → exec (.rem g la ty trap d a b) s =
        .next (wrote s m io (info (.rem g la ty trap d a b)) (perLane io ty.regBits d fun l =>
          asReg ty (wrapTo ty.bits (rest (readInt s.dev m io.w l ty a) (readInt s.dev m io.w l ty b))))))) ∧
  (∀ (g : Guard) (ty : Ty) (d a b : Opnd), ty.raw = true →
    let n := ty.bits
    let bits := fun (i : Instr) (bb : Nat) (p : Nat → Nat → Nat → Bool) =>
      writesOnly i (shortInfo i g [(a, n), (b, bb)] [(d, n)] []) fun dv m io =>
        perLane io n d fun l => ofBits n (p (readOp dv m io.w l n a) (readOp dv m io.w l bb b))
    bits (.and g ty d a b) n (fun x y i => bitOf x i && bitOf y i) ∧
    bits (.or g ty d a b) n (fun x y i => bitOf x i || bitOf y i) ∧
    bits (.xor g ty d a b) n (fun x y i => bitOf x i != bitOf y i) ∧
    bits (.andn g ty d a b) n (fun x y i => bitOf x i && !bitOf y i) ∧
    bits (.shl g ty d a b) 32 (fun x y i => decide (y % n ≤ i) && bitOf x (i - y % n)) ∧
    bits (.shr g ty d a b) 32 (fun x y i => decide (i + y % n < n) && bitOf x (i + y % n)) ∧
    bits (.sar g ty d a b) 32 (fun x y i => bitOf x (min (i + y % n) (n - 1))) ∧
    bits (.rotl g ty d a b) 32 (fun x y i => bitOf x ((i + n - y % n) % n)))) ∧
  ((∀ (g : Guard) (ty : Ty) (d a : Opnd), ty.raw = true →
    let n := ty.bits
    let one := fun (i : Instr) (ok : Nat → Nat → Prop) =>
      ∃ f : Nat → Nat, (∀ x, x < 2 ^ n → ok x (f x)) ∧
        writesOnly i (shortInfo i g [(a, n)] [(d, n)] []) fun dv m io =>
          perLane io n d fun l => f (readOp dv m io.w l n a)
    one (.popc g ty d a) (fun x k => k = ((List.range n).filter fun i => bitOf x i).length) ∧
    one (.clz g ty d a) (fun x k => (x = 0 → k = n) ∧ (x ≠ 0 → k < n ∧ 2 ^ (n - 1 - k) ≤ x ∧ x < 2 ^ (n - k))) ∧
    one (.ctz g ty d a) (fun x k => (x = 0 → k = n) ∧ (x ≠ 0 → k < n ∧ x % 2 ^ k = 0 ∧ bitOf x k = true)) ∧
    one (.brev g ty d a) (fun x k => k = ofBits n fun i => bitOf x (n - 1 - i))) ∧
  ((∀ (g : Guard) (ty : Ty) (pos len1 : Fin 64) (d a : Opnd), (Instr.bfx g ty pos len1 d a).wellFormed = true →
    let len := len1.val + 1
    writesOnly (.bfx g ty pos len1 d a) (shortInfo (.bfx g ty pos len1 d a) g [(a, ty.bits)] [(d, ty.bits)] [])
      (fun dv m io => perLane io ty.bits d fun l =>
        let x := readOp dv m io.w l ty.bits a
        ofBits (if ty.signed then 64 else ty.bits) fun i =>
          if i < len then bitOf x (pos.val + i) else ty.signed && bitOf x (pos.val + len - 1))) ∧
  (∀ (g : Guard) (ty : Ty) (pos len1 : Fin 64) (d a b : Opnd), (Instr.bfi g ty pos len1 d a b).wellFormed = true →
    let len := len1.val + 1
    writesOnly (.bfi g ty pos len1 d a b)
      (shortInfo (.bfi g ty pos len1 d a b) g [(a, ty.bits), (b, ty.bits)] [(d, ty.bits)] [])
      (fun dv m io => perLane io ty.bits d fun l =>
        let x := readOp dv m io.w l ty.bits a
        let y := readOp dv m io.w l ty.bits b
        ofBits ty.bits fun i => if pos.val ≤ i ∧ i < pos.val + len then bitOf y (i - pos.val) else bitOf x i)) ∧
  (∀ (g : Guard) (d : Opnd) (imm : BitVec 16) (pos : Fin 4), (Instr.movh g d imm pos).wellFormed = true →
    ∀ n, (n = match d with | .s _ => 64 | _ => 32) →
    writesOnly (.movh g d imm pos) (shortInfo (.movh g d imm pos) g [(d, n)] [(d, n)] [])
      (fun dv m io => perLane io n d fun l =>
        let x := readOp dv m io.w l n d
        ofBits n fun i => if 16 * pos.val ≤ i ∧ i < 16 * pos.val + 16 then imm.getLsbD (i - 16 * pos.val) else bitOf x i))))

/-- R213: `SEL` writes A where the predicate is true and B elsewhere (a PC of 7 selects A), `MOV` writes A, and
`MOVI` writes its immediate sign-extended to the destination's width. R216, R217: `CMP` writes the predicate of its
condition on the operands as the type reads them, and the predicate words combine two predicates, of which `p7` reads
true. R170, R171: the paired word. Both halves read before either writes, and each acts in the lanes where its own
guard holds; the upper half's writes come first. -/
def Obligations.MoveAndPairResults : Prop :=
  ((∀ (g : Guard) (ty : Ty) (d a b : Opnd) (pc : Fin 8) (imm : BitVec 26),
    writesOnly (.sel g ty d a b pc)
      (shortInfo (.sel g ty d a b pc) g [(a, ty.regBits), (b, ty.regBits)] [(d, ty.regBits)] [pc.val])
      (fun dv m io => perLane io ty.regBits d fun l =>
        readOp dv m io.w l ty.regBits (if pc = 7 ∨ (io.w.lane l).p.getD pc.val false = true then a else b)) ∧
    writesOnly (.mov g ty d a) (shortInfo (.mov g ty d a) g [(a, ty.regBits)] [(d, ty.regBits)] [])
      (fun dv m io => perLane io ty.regBits d fun l => readOp dv m io.w l ty.regBits a) ∧
    writesOnly (.movi g d imm) (shortInfo (.movi g d imm) g [] [(d, 32)] [])
      (fun _ _ io => perLane io 32 d fun _ =>
        if imm.getLsbD 25 then imm.toNat + (2 ^ 64 - 2 ^ 26) else imm.toNat)) ∧
  (∀ (g : Guard) (ty : Ty) (d pa pb : Fin 8) (a b : Opnd),
    let cmp := fun (c : Cond) (f : Int → Int → Bool) =>
      writesOnly (.cmp g ty c d a b) (shortInfo (.cmp g ty c d a b) g [(a, ty.regBits), (b, ty.regBits)] [] [d.val])
        fun dv m io => perLaneP io d.val fun l => f (readInt dv m io.w l ty a) (readInt dv m io.w l ty b)
    let two := fun (i : Instr) (b : Fin 8) (f : Bool → Bool → Bool) =>
      writesOnly i (shortInfo i g [] [] [d.val, pa.val, b.val]) fun _ _ io => perLaneP io d.val fun l =>
        let read := fun (n : Fin 8) => if n = 7 then true else (io.w.lane l).p.getD n.val false
        f (read pa) (read b)
    cmp .eq (fun x y => decide (x = y)) ∧ cmp .ne (fun x y => decide (x ≠ y)) ∧ cmp .lt (fun x y => decide (x < y)) ∧
    cmp .le (fun x y => decide (x ≤ y)) ∧ cmp .gt (fun x y => decide (x > y)) ∧ cmp .ge (fun x y => decide (x ≥ y)) ∧
    two (.pand g d pa pb) pb (fun x y => x && y) ∧ two (.por g d pa pb) pb (fun x y => x || y) ∧
    two (.pxor g d pa pb) pb (fun x y => x ^^ y) ∧ two (.pnot g d pa) pa (fun x _ => !x))) ∧
  (∀ (u h : Half) (s : State) (m : Mach) (io : Io),
    let reads := fun (k : Half) => k.reads.map fun o => (o, 32)
    let dst := fun (k : Half) => if k.op = .nop then [] else [(k.d, 32)]
    let lanes := fun (k : Half) => if k.op = .nop then [] else io.act.filter fun l => (io.w.lane l).pred k.g.val
    let info := { shortInfo (.pairedWord u h) ⟨7, false⟩ [] [] [] with touch := reads u ++ reads h ++ dst u ++ dst h }
    let outs := fun (k : Half) => laneOuts 32 k.d ((lanes k).map fun l =>
      (l, halfResult k.op (readOp s.dev m io.w l 32 k.d) (readOp s.dev m io.w l 32 k.s)))
    let pop := fun (k : Half) (m : Mach) => m.updWave io.w.core io.w.id fun w => w.popQueues (lanes k) (reads k)
    let ready := fun (k : Half) => (∀ l ∈ io.act, k.op ≠ .nop → unallottedP io.w l k.g.val = false) ∧
      (∀ l ∈ lanes k, ∀ o ∈ reads k ++ dst k, unallotted io.w l o = false) ∧
      queueStall io.w (lanes k) (reads k) (dst k) = false ∧ (io.w.shadow = true → namesQueue (reads k ++ dst k) = false)
    Issues s info m io → ready u → ready h →
      exec (.pairedWord u h) s = .next (landed s io info (pop u (pop h m)) (outs u ++ outs h)) ∧
      ∀ t x y, x < 2 ^ 32 → y < 2 ^ 32 →
        halfResult (.add t) x y % 2 ^ 32 = (x + y) % 2 ^ 32 ∧ halfResult (.sub t) x y % 2 ^ 32 = (x + (2 ^ 32 - y)) % 2 ^ 32 ∧
        halfResult .mov x y = y)

/-! ## Float words (R230 to R243) -/

/-- R117: rounding is correct in every mode. A nonzero magnitude m × 2^q lies between a code r and the next; the result is
r, or the next one where the mode says so (to nearest with ties to even, toward zero, toward −∞, toward +∞); past the
largest finite code it is an infinity, or the largest finite code where the mode prescribes it; under `.ftz` a result below
the smallest normal is zero; the sign is kept. -/
def Obligations.FloatRoundingIsCorrect : Prop :=
  ∀ (ft : FFmt) (rm : RMode) (ftz neg : Bool) (m : Nat) (q : Int), ft.arith = true → 0 < m →
    let p := fparams ft
    let u : Int := 1 - (p.bias : Int) - p.f
    let x := m * 2 ^ (q - u).toNat
    let k := 2 ^ (u - q).toNat
    let top := (2 ^ p.e - 1) * 2 ^ p.f
    ∃ r, codeUnits ft r * k ≤ x ∧ x < codeUnits ft (r + 1) * k ∧
      let half := (codeUnits ft r + codeUnits ft (r + 1)) * k
      let next := match rm with
        | .rne => decide (half < 2 * x) || (decide (half = 2 * x) && decide (r % 2 = 1))
        | .rz => false
        | .rdn => neg && decide (codeUnits ft r * k < x)
        | .rup => !neg && decide (codeUnits ft r * k < x)
      let c := if next then r + 1 else r
      fencode ft rm ftz neg m q false = fzero ft neg +
        (if top ≤ c then
          (match rm with
            | .rne => top
            | .rz => top - 1
            | .rdn => if neg then top else top - 1
            | .rup => if neg then top - 1 else top)
        else if ftz = true ∧ c < 2 ^ p.f then 0 else c)

/-- R117, R118, R120: reading a code and rounding its value back gives the code again, but that every NaN code gives
the canonical one; no mode changes an exact value. R234 to R237: `FMIN`, `FMAX`, `FCMP`, `FCLASS` and `FRND` write
the lesser or greater operand, the condition, the class and the integral value of their operands. With one NaN
operand `FMIN` and `FMAX` give the other, with two the canonical NaN; −0 is less than +0 to them and equal to it for
`FCMP`; only ne and un hold with a NaN. The order of finite values is that of the exact numbers, whatever their exponents,
between −∞ and +∞. Each class has its one bit. `FRND` rounds the magnitude to an integer by the mode. -/
def Obligations.FloatOrderResults : Prop :=
  (∀ (ft : FFmt) (rm : RMode) (x : Nat), ft.arith = true → x < 2 ^ ffmtBits ft →
    fround ft rm false (fdecode ft x) = if fdecode ft x = .nan then nanCode ft else x) ∧
  (∀ (g : Guard) (ft : FFmt) (rm : RMode) (ftz : Bool) (d a b : Opnd) (pd : Fin 8) (cond : FCond),
    let rd := fun dv m (io : Io) l o => ftzIn ft ftz (fdecode ft (readFloat dv m io.w l ft o))
    let two := fun (i : Instr) (f : FVal → FVal → Nat) =>
      writesOnly i (shortInfo i g [(a, 32), (b, 32)] [(d, 32)] []) fun dv m io => perLane io 32 d fun l =>
        f (rd dv m io l a) (rd dv m io l b)
    two (.fmin g ft ftz d a b) (fminmaxV ft false) ∧ two (.fmax g ft ftz d a b) (fminmaxV ft true) ∧
    writesOnly (.fcmp g ft cond ftz pd a b) (shortInfo (.fcmp g ft cond ftz pd a b) g [(a, 32), (b, 32)] [] [pd.val])
      (fun dv m io => perLaneP io pd.val fun l => fcmpV cond (rd dv m io l a) (rd dv m io l b)) ∧
    writesOnly (.fclass g ft d a) (shortInfo (.fclass g ft d a) g [(a, 32)] [(d, 32)] [])
      (fun dv m io => perLane io 32 d fun l => fclassOf ft (readFloat dv m io.w l ft a)) ∧
    writesOnly (.frnd g ft rm ftz d a) (shortInfo (.frnd g ft rm ftz d a) g [(a, 32)] [(d, 32)] [])
      (fun dv m io => perLane io 32 d fun l => frndV ft rm ftz (rd dv m io l a))) ∧
  (∀ (ft : FFmt) (rm : RMode) (ftz : Bool) (cond : FCond),
    (∀ gt, fminmaxV ft gt .nan .nan = nanCode ft ∧
      (∀ v, v ≠ .nan → fminmaxV ft gt .nan v = fround ft .rne false v ∧ fminmaxV ft gt v .nan = fround ft .rne false v) ∧
      (∀ p q, fminmaxV ft gt (.num true 0 p) (.num false 0 q) = fzero ft (!gt) ∧
        fminmaxV ft gt (.num false 0 p) (.num true 0 q) = fzero ft (!gt))) ∧
    (∀ v, fcmpV cond .nan v = (cond == .ne || cond == .un) ∧ fcmpV cond v .nan = (cond == .ne || cond == .un)) ∧
    (∀ x m p y n q, let k := min p q
      let a := signed x m * 2 ^ (p - k).toNat
      let b := signed y n * 2 ^ (q - k).toNat
      let v := FVal.num x m p
      let w := FVal.num y n q
      fcmpV cond v w = (match cond with
        | .eq => decide (a = b)
        | .ne => decide (a ≠ b)
        | .lt => decide (a < b)
        | .le => decide (a ≤ b)
        | .gt => decide (b < a)
        | .ge => decide (b ≤ a)
        | .un => false
        | .or => true) ∧
      (a < b → fminmaxV ft false v w = fround ft .rne false v ∧ fminmaxV ft true v w = fround ft .rne false w) ∧
      (b < a → fminmaxV ft false v w = fround ft .rne false w ∧ fminmaxV ft true v w = fround ft .rne false v) ∧
      (a = b → a ≠ 0 → fminmaxV ft false v w = fround ft .rne false v ∧ fminmaxV ft true v w = fround ft .rne false v)) ∧
    (∀ (x : Bool) v, v ≠ .nan → v ≠ .inf x →
      let lo := fround ft .rne false (if x then .inf x else v)
      let hi := fround ft .rne false (if x then v else .inf x)
      fminmaxV ft false (.inf x) v = lo ∧ fminmaxV ft false v (.inf x) = lo ∧
      fminmaxV ft true (.inf x) v = hi ∧ fminmaxV ft true v (.inf x) = hi ∧
      fcmpV .lt (.inf x) v = x ∧ fcmpV .lt v (.inf x) = !x ∧ fcmpV .eq (.inf x) v = false ∧ fcmpV .le (.inf x) v = x ∧
      fcmpV .eq (.inf x) (.inf x) = true ∧ fcmpV .lt (.inf x) (.inf x) = false) ∧
    (∀ x, ft.arith = true → let p := fparams ft
      let f := bitsOf x 0 p.f
      let e := bitsOf x p.f p.e
      let neg := bitOf x (p.e + p.f)
      fclassOf ft x = 2 ^ (if e = 2 ^ p.e - 1 then
          (if f = 0 then (if neg then 0 else 7) else if f < 2 ^ (p.f - 1) then 8 else 9)
        else if e = 0 then (if f = 0 then (if neg then 3 else 4) else if neg then 2 else 5)
        else if neg then 1 else 6)) ∧
    frndV ft rm ftz .nan = nanCode ft ∧ (∀ x, frndV ft rm ftz (.inf x) = finf ft x) ∧
    (∀ x m q, let n := integralMag rm x m q
      frndV ft rm ftz (.num x m q) = if n = 0 then fzero ft x else fencode ft rm ftz x n 0 false))

/-- R233, R240, R241: `FADD`, `FSUB`, `FMUL`, `FFMA` and `HFMA2` write the sum, difference, product, or product and
sum, of the values of their operands, rounded once in the format. R117, R118, R142, R233: what the sums and products
are. A NaN operand, ∞ − ∞ and 0 × ∞ give the canonical NaN, an infinity otherwise carries over, and finite operands
give the rounding of the exact sum or product; an exact zero sum of opposite signs is +0, or −0 under `.rdn`; `FFMA`
rounds once. -/
def Obligations.FloatSumAndProductResults : Prop :=
  (∀ (g : Guard) (ft : FFmt) (rm : RMode) (ftz half : Bool) (d a b c : Opnd),
    let two := fun (i : Instr) (f : FVal → FVal → Nat) =>
      writesOnly i (shortInfo i g [(a, 32), (b, 32)] [(d, 32)] []) fun dv m io => perLane io 32 d fun l =>
        f (ftzIn ft ftz (fdecode ft (readFloat dv m io.w l ft a))) (ftzIn ft ftz (fdecode ft (readFloat dv m io.w l ft b)))
    let three := fun (i : Instr) (f : Dev → Mach → Io → Nat → Nat) =>
      writesOnly i (shortInfo i g [(a, 32), (b, 32), (c, 32)] [(d, 32)] []) fun dv m io => perLane io 32 d (f dv m io)
    two (.fadd g ft rm ftz d a b) (faddV ft rm ftz) ∧
    two (.fsub g ft rm ftz d a b) (fun x y => faddV ft rm ftz x y.negate) ∧
    two (.fmul g ft rm ftz d a b) (fmulV ft rm ftz) ∧
    three (.ffma g rm ftz d a b c) (fun dv m io l =>
      let v := fun o => ftzIn .f32 ftz (fdecode .f32 (readFloat dv m io.w l .f32 o))
      ffmaV .f32 rm ftz (v a) (v b) (v c)) ∧
    three (.hfma2 g half rm ftz d a b c) (fun dv m io l =>
      let pf : FFmt := if half then .f16 else .bf16
      let lo := fun o => ftzIn pf ftz (fdecode pf (readPair dv m io.w l pf o).1)
      let hi := fun o => ftzIn pf ftz (fdecode pf (readPair dv m io.w l pf o).2)
      ffmaV pf rm ftz (lo a) (lo b) (lo c) + 2 ^ 16 * ffmaV pf rm ftz (hi a) (hi b) (hi c))) ∧
  (∀ (ft : FFmt) (rm : RMode) (ftz : Bool),
    (∀ v, faddV ft rm ftz .nan v = nanCode ft ∧ faddV ft rm ftz v .nan = nanCode ft ∧
      fmulV ft rm ftz .nan v = nanCode ft ∧ fmulV ft rm ftz v .nan = nanCode ft) ∧
    (∀ v w, ffmaV ft rm ftz .nan v w = nanCode ft ∧ ffmaV ft rm ftz v .nan w = nanCode ft ∧
      ffmaV ft rm ftz v w .nan = nanCode ft) ∧
    (∀ x y, faddV ft rm ftz (.inf x) (.inf y) = (if x = y then finf ft x else nanCode ft) ∧
      fmulV ft rm ftz (.inf x) (.inf y) = finf ft (x != y)) ∧
    (∀ x n m q, faddV ft rm ftz (.inf x) (.num n m q) = finf ft x ∧ faddV ft rm ftz (.num n m q) (.inf x) = finf ft x ∧
      fmulV ft rm ftz (.inf x) (.num n m q) = (if m = 0 then nanCode ft else finf ft (x != n)) ∧
      fmulV ft rm ftz (.num n m q) (.inf x) = (if m = 0 then nanCode ft else finf ft (n != x))) ∧
    (∀ x n m q c, c ≠ .nan → let prod := if m = 0 then none else some (x != n)
      let r := match prod, c with
        | none, _ => nanCode ft
        | some z, .inf y => if y = z then finf ft y else nanCode ft
        | some z, _ => finf ft z
      ffmaV ft rm ftz (.inf x) (.num n m q) c = r ∧ ffmaV ft rm ftz (.num n m q) (.inf x) c = r) ∧
    (∀ x y c, c ≠ .nan → ffmaV ft rm ftz (.inf x) (.inf y) c =
      if c = .inf (!(x != y)) then nanCode ft else finf ft (x != y)) ∧
    (∀ n1 m1 q1 n2 m2 q2 z, ffmaV ft rm ftz (.num n1 m1 q1) (.num n2 m2 q2) (.inf z) = finf ft z) ∧
    (∀ n1 m1 q1 n2 m2 q2, let q := min q1 q2
      let t := signed n1 m1 * 2 ^ (q1 - q).toNat + signed n2 m2 * 2 ^ (q2 - q).toNat
      faddV ft rm ftz (.num n1 m1 q1) (.num n2 m2 q2) =
        if t = 0 then fzero ft (if n1 = n2 then n1 else rm == .rdn) else fencode ft rm ftz (decide (t < 0)) t.natAbs q false) ∧
    (∀ n1 m1 q1 n2 m2 q2, fmulV ft rm ftz (.num n1 m1 q1) (.num n2 m2 q2) =
        if m1 = 0 ∨ m2 = 0 then fzero ft (n1 != n2) else fencode ft rm ftz (n1 != n2) (m1 * m2) (q1 + q2) false) ∧
    (∀ n1 m1 q1 n2 m2 q2 n3 m3 q3, let q := min (q1 + q2) q3
      let t := signed (n1 != n2) (m1 * m2) * 2 ^ (q1 + q2 - q).toNat + signed n3 m3 * 2 ^ (q3 - q).toNat
      ffmaV ft rm ftz (.num n1 m1 q1) (.num n2 m2 q2) (.num n3 m3 q3) =
        if t = 0 then fzero ft (if (n1 != n2) = n3 then n3 else rm == .rdn)
        else fencode ft rm ftz (decide (t < 0)) t.natAbs q false))

/-- R238, R239, R233: the long-latency float words write their function of the operands, held back by their lookahead. R233:
`FDIV` and `FSQRT` of finite operands are the exact quotient and root rounded once. R144: `FRCPA` of a finite operand is given by
its table-free formula, from the two nearest integers K0 and K1. R144, R145, R233, R239: the fixed values of all nine. R122,
R242, R243: the conversions. `CVTF` converts a scaled narrow or a wide value, rounding once, and saturates, or gives the NaN code
under `.nan`, where a narrow format cannot hold it; `CVTFI` rounds to an integer, saturates to the type and gives 0 of a NaN and
the end of the range of an infinity; `CVTIF` rounds an integer. -/
def Obligations.FloatFunctionResults : Prop :=
  (∀ (g : Guard) (la : Fin 16) (ft : FFmt) (rm : RMode) (ftz : Bool) (d a b : Opnd),
    let one := fun (i : Instr) (ft : FFmt) (f : FVal → Nat) =>
      writesOnly i (longInfo i g la [(a, 32)] [(d, 32)]) fun dv m io => perLane io 32 d fun l =>
        f (ftzIn ft ftz (fdecode ft (readFloat dv m io.w l ft a)))
    writesOnly (.fdiv g la ft rm ftz d a b) (longInfo (.fdiv g la ft rm ftz d a b) g la [(a, 32), (b, 32)] [(d, 32)])
      (fun dv m io => perLane io 32 d fun l =>
        fdivV ft rm ftz (ftzIn ft ftz (fdecode ft (readFloat dv m io.w l ft a)))
          (ftzIn ft ftz (fdecode ft (readFloat dv m io.w l ft b)))) ∧
    one (.fsqrt g la ft rm ftz d a) ft (fsqrtV ft rm ftz) ∧ one (.frcpa g la ftz d a) .f32 (frcpaV ftz) ∧
    one (.frsqa g la ftz d a) .f32 (frsqaV ftz) ∧ one (.fexp2 g la rm ftz d a) .f32 (fexp2V rm ftz) ∧
    one (.flog2 g la rm ftz d a) .f32 (flog2V rm ftz) ∧ one (.fsin g la rm ftz d a) .f32 (fsinV rm ftz) ∧
    one (.fcos g la rm ftz d a) .f32 (fcosV rm ftz) ∧ one (.ftanh g la rm ftz d a) .f32 (ftanhV rm ftz)) ∧
  (∀ (ft : FFmt) (rm : RMode) (ftz : Bool),
    (∀ x m p y n q, ft.arith = true → 0 < m → 0 < n → let e := p - q + 1 - unitExp ft
      ∃ c, roundedCode ft rm (x != y) (fun h => h * n * 2 ^ (-e).toNat ≤ m * 2 ^ e.toNat)
          (fun h => h * n * 2 ^ (-e).toNat < m * 2 ^ e.toNat) c ∧
        fdivV ft rm ftz (.num x m p) (.num y n q) = settledCode ft rm ftz (x != y) c) ∧
    (∀ m q, ft.arith = true → 0 < m → let e := q + 2 - 2 * unitExp ft
      ∃ c, roundedCode ft rm false (fun h => h * h * 2 ^ (-e).toNat ≤ m * 2 ^ e.toNat)
          (fun h => h * h * 2 ^ (-e).toNat < m * 2 ^ e.toNat) c ∧
        fsqrtV ft rm ftz (.num false m q) = settledCode ft rm ftz false c) ∧
    (∀ (x : Bool) (m : Nat) (q : Int) (k f k0 k1 : Nat), m * 2 ^ k = 2 ^ 23 + f → f < 2 ^ 23 →
      let e : Int := q - k + 23
      let a := 128 + f / 2 ^ 16
      2 * (((k0 * a : Nat) : Int) - (2 : Int) ^ 30).natAbs ≤ a → 2 * (((k1 * (a * (a + 1)) : Nat) : Int) - (2 : Int) ^ 30).natAbs ≤ a * (a + 1) →
      frcpaV ftz (.num x m q) = fencode .f32 .rne ftz x (k0 - f % 2 ^ 16 * k1 / 2 ^ 16) (-e - 23) false) ∧
    (∀ x y m q p, m ≠ 0 → fdivV ft rm ftz (.num x m q) (.num y 0 p) = finf ft (x != y)) ∧
    (∀ x y q p, fdivV ft rm ftz (.num x 0 q) (.num y 0 p) = nanCode ft) ∧
    (∀ x y m q p, m ≠ 0 → fdivV ft rm ftz (.num x 0 q) (.num y m p) = fzero ft (x != y)) ∧
    (∀ x y m q, fdivV ft rm ftz (.inf x) (.inf y) = nanCode ft ∧ fdivV ft rm ftz (.inf x) (.num y m q) = finf ft (x != y) ∧
      fdivV ft rm ftz (.num x m q) (.inf y) = fzero ft (x != y)) ∧
    (∀ v, fdivV ft rm ftz .nan v = nanCode ft ∧ fdivV ft rm ftz v .nan = nanCode ft) ∧
    (fsqrtV ft rm ftz .nan = nanCode ft ∧ fsqrtV ft rm ftz (.inf false) = finf ft false ∧
      fsqrtV ft rm ftz (.inf true) = nanCode ft ∧ ∀ x q, fsqrtV ft rm ftz (.num x 0 q) = fzero ft x) ∧
    (frcpaV ftz .nan = nanCode .f32 ∧ frsqaV ftz .nan = nanCode .f32 ∧ fexp2V rm ftz .nan = nanCode .f32 ∧
      flog2V rm ftz .nan = nanCode .f32 ∧ fsinV rm ftz .nan = nanCode .f32 ∧ fcosV rm ftz .nan = nanCode .f32 ∧
      ftanhV rm ftz .nan = nanCode .f32) ∧
    (∀ m q, m ≠ 0 → fsqrtV ft rm ftz (.num true m q) = nanCode ft ∧ frsqaV ftz (.num true m q) = nanCode .f32 ∧
      flog2V rm ftz (.num true m q) = nanCode .f32) ∧
    (∀ x q, frcpaV ftz (.num x 0 q) = finf .f32 x ∧ frcpaV ftz (.inf x) = fzero .f32 x ∧
      frsqaV ftz (.num x 0 q) = finf .f32 x ∧ frsqaV ftz (.inf x) = (if x then nanCode .f32 else 0) ∧
      flog2V rm ftz (.num x 0 q) = finf .f32 true ∧ flog2V rm ftz (.inf x) = (if x then nanCode .f32 else finf .f32 false) ∧
      flog2V rm ftz (.num false 1 0) = 0 ∧
      fexp2V rm ftz (.inf x) = (if x then 0 else finf .f32 false) ∧ ftanhV rm ftz (.num x 0 q) = fzero .f32 x ∧
      ftanhV rm ftz (.inf x) = fencode .f32 rm ftz x 1 0 false ∧
      fsinV rm ftz (.inf x) = nanCode .f32 ∧ fcosV rm ftz (.inf x) = nanCode .f32) ∧
    (∀ x (m k : Nat), fsinV rm ftz (.num x m k) = fzero .f32 x ∧ fcosV rm ftz (.num x (2 * m + 1) (-1)) = 0)) ∧
  (∀ (g : Guard) (ty : Ty) (ft st : FFmt) (rm : RMode) (ftz nan : Bool) (d a b : Opnd),
    let lo : Int := if ty.signed then -(2 ^ (ty.bits - 1)) else 0
    let hi : Int := if ty.signed then 2 ^ (ty.bits - 1) - 1 else 2 ^ ty.bits - 1
    writesOnly (.cvtf g ft st rm ftz nan d a none) (shortInfo (.cvtf g ft st rm ftz nan d a none) g [(a, 32)] [(d, 32)] [])
      (fun dv m io => perLane io 32 d fun l =>
        let x := cvtSource st ftz 127 (readFloat dv m io.w l st a)
        if ft.arith then fround ft rm ftz x else fnarrow ft rm nan 127 x) ∧
    writesOnly (.cvtf g ft st rm ftz nan d a (some b))
      (shortInfo (.cvtf g ft st rm ftz nan d a (some b)) g [(a, 32), (b, 32)] [(d, 32)] [])
      (fun dv m io => perLane io 32 d fun l =>
        let s := readOp dv m io.w l 32 b % 256
        let x := cvtSource st ftz s (readFloat dv m io.w l st a)
        if ft.arith then fround ft rm ftz x else fnarrow ft rm nan s x) ∧
    writesOnly (.cvtfi g ty ft rm ftz d a) (shortInfo (.cvtfi g ty ft rm ftz d a) g [(a, 32)] [(d, ty.regBits)] [])
      (fun dv m io => perLane io ty.regBits d fun l => asReg ty (wrapTo ty.bits
        (match ftzIn ft ftz (fdecode ft (readFloat dv m io.w l ft a)) with
          | .nan => 0
          | .inf x => if x then lo else hi
          | .num x mag q => max lo (min hi (signed x (integralMag rm x mag q)))))) ∧
    writesOnly (.cvtif g ft ty rm d a) (shortInfo (.cvtif g ft ty rm d a) g [(a, ty.regBits)] [(d, 32)] [])
      (fun dv m io => perLane io 32 d fun l =>
        let x := readInt dv m io.w l ty a
        fround ft rm false (.num (decide (x < 0)) x.natAbs 0))) ∧
  (∀ (ft : FFmt) (ftz : Bool) (s x : Nat),
    (ft.arith = true → cvtSource ft ftz s x = ftzIn ft ftz (fdecode ft x)) ∧
    (ft.arith = false → (s = 0xFF ∨ fdecode ft x = .nan → cvtSource ft ftz s x = .nan) ∧
      (s ≠ 0xFF → ∀ n m q, fdecode ft x = .num n m q → cvtSource ft ftz s x = .num n m (q + s - 127)))) ∧
  (∀ (ft : FFmt) (rm : RMode) (nan : Bool) (s : Nat), ft.arith = false →
    let mx := 2 ^ ((fparams ft).e + (fparams ft).f) - 1
    let beyond := fun (n : Bool) => if nan then nanCode ft else fzero ft n + mx
    (∀ v, s = 0xFF ∨ v = .nan → fnarrow ft rm nan s v = nanCode ft) ∧
    (s ≠ 0xFF →
      (∀ n, fnarrow ft rm nan s (.inf n) = beyond n) ∧ (∀ n q, fnarrow ft rm nan s (.num n 0 q) = 0) ∧
      ∀ n m q, 0 < m → let e := q + 127 - s + 1 - unitExp ft
        ∃ c, roundedCode ft rm n (fun h => h * 2 ^ (-e).toNat ≤ m * 2 ^ e.toNat) (fun h => h * 2 ^ (-e).toNat < m * 2 ^ e.toNat) c ∧
          fnarrow ft rm nan s (.num n m q) = if c = 0 then 0 else if mx < c then beyond n else fzero ft n + c))

/-! ## Packed, narrow and lane words (R224 to R229, R244 to R248) -/

/-- R244, R247, R248: `DOT4` and `DOT8` write the exact sum of products of their packed elements and c, rounded once, `BSCL` the
smallest scale code, `PKB` and `UPKB` an element put into and taken out of a register. R120 to R122, R127, R128, R245, R246:
`QNT` writes the element code of its value under the scale in b, and `DQNT` the FP32 value of an element code, directly or
through the context's companding table when the context has loaded it. What those values are: a NaN element or c gives NaN, an
infinite c itself, and otherwise the sum is exact, with +0 for a zero sum of products (−0 under `.rdn`); a narrow code is the
rounded value, saturated, and an integer code the rounded and clamped integer; the curve takes the last segment that begins at or
below its input. That a code 0 expands with the sign + is the model's reading (log 97). -/
def Obligations.PackedAndQuantizingResults : Prop :=
  (∀ (g : Guard) (fa fb : Fin 4) (rm : RMode) (ef : EFmt) (esz : Fin 3) (pos : Fin 16) (d a b c : Opnd),
    let wd := 4 * 2 ^ esz.val
    let dot := fun (i : Instr) (n bits : Nat) (va vb : Nat → FVal) =>
      writesOnly i (shortInfo i g [(a, 32), (b, 32), (c, 32)] [(d, 32)] []) fun dv m io => perLane io 32 d fun l =>
        dotV rm ((List.range n).map fun k => va (bitsOf (readOp dv m io.w l 32 a) (bits * k) bits))
          ((List.range n).map fun k => vb (bitsOf (readOp dv m io.w l 32 b) (bits * k) bits))
          (fdecode .f32 (readFloat dv m io.w l .f32 c))
    dot (.dot4 g fa fb rm d a b c) 8 4 (dot4Val fa) (dot4Val fb) ∧
    dot (.dot8 g fa fb rm d a b c) 4 8 (dot8Val fa) (dot8Val fb) ∧
    writesOnly (.bscl g ef d a) (shortInfo (.bscl g ef d a) g [(a, 32)] [(d, 32)] []) (fun dv m io =>
      perLane io 32 d fun l => blockScale ef (fdecode .f32 (readFloat dv m io.w l .f32 a))) ∧
    (wd * (pos.val + 1) ≤ 32 →
      writesOnly (.pkb g esz pos d a) (shortInfo (.pkb g esz pos d a) g [(a, 32), (d, 32)] [(d, 32)] []) (fun dv m io =>
        perLane io 32 d fun l => ofBits 32 fun i =>
          if wd * pos.val ≤ i ∧ i < wd * pos.val + wd then bitOf (readOp dv m io.w l 32 a) (i - wd * pos.val)
          else bitOf (readOp dv m io.w l 32 d) i) ∧
      writesOnly (.upkb g esz pos d a) (shortInfo (.upkb g esz pos d a) g [(a, 32)] [(d, 32)] []) (fun dv m io =>
        perLane io 32 d fun l => ofBits wd fun i => bitOf (readOp dv m io.w l 32 a) (wd * pos.val + i)))) ∧
  (∀ (g : Guard) (ef : EFmt) (rm : RMode) (nan : Bool) (tab : Fin 4) (d a b : Opnd) (s : State) (m : Mach) (io : Io),
    let qi := shortInfo (.qnt g ef rm nan tab d a b) g [(a, 32), (b, 32)] [(d, 32)] []
    let di := shortInfo (.dqnt g ef tab d a b) g [(a, 32), (b, 32)] [(d, 32)] []
    let sc := fun l => readOp s.dev m io.w l 32 b % 256
    let x := fun l => fdecode .f32 (readFloat s.dev m io.w l .f32 a)
    let e := fun l => readElem s.dev m io.w l ef a
    (tab = 0 →
      (Issues s qi m io → exec (.qnt g ef rm nan tab d a b) s =
        .next (wrote s m io qi (perLane io 32 d fun l => elemCode ef rm nan (sc l) (x l)))) ∧
      (Issues s di m io → exec (.dqnt g ef tab d a b) s =
        .next (wrote s m io di (perLane io 32 d fun l => fround .f32 .rne false (elemVal ef (sc l) (e l)))))) ∧
    (∀ c t, tab ≠ 0 → m.ctx io.w.asid = some c → c.ctabs[tab.val - 1]? = some (some t) →
      (Issues s qi m io → exec (.qnt g ef rm nan tab d a b) s =
        .next (wrote s m io qi (perLane io 32 d fun l =>
          if sc l = 0xFF then 0 else wrapTo (efmtBits ef) (compand t (compandMax ef) rm (sc l) (x l))))) ∧
      (Issues s di m io → exec (.dqnt g ef tab d a b) s =
        .next (wrote s m io di (perLane io 32 d fun l =>
          if sc l = 0xFF then nanCode .f32
          else
            let k := signedOf (efmtBits ef) (e l)
            fround .f32 .rne false
              (.num (decide (k < 0)) (expand t (compandMax ef) k) ((sc l : Int) - 127 - 12))))))) ∧
  ((∀ (rm : RMode) (xs ys : List FVal) (c : FVal),
    (.nan ∈ xs ∨ .nan ∈ ys ∨ c = .nan → dotV rm xs ys c = nanCode .f32) ∧
    (.nan ∉ xs → .nan ∉ ys → ∀ z, c = .inf z → dotV rm xs ys c = finf .f32 z)) ∧
  (∀ (rm : RMode) (us vs : List (Bool × Nat × Int)) (n : Bool) (m : Nat) (q k : Int), us.length = vs.length →
    (∀ p ∈ List.zip us vs, k ≤ p.1.2.2 + p.2.2.2) → k ≤ q →
    let fv := fun (u : Bool × Nat × Int) => FVal.num u.1 u.2.1 u.2.2
    let t := (List.zip us vs).foldl (fun (x : Int) p =>
      x + signed p.1.1 p.1.2.1 * signed p.2.1 p.2.2.1 * 2 ^ (p.1.2.2 + p.2.2.2 - k).toNat) 0
    let sum := t + signed n m * 2 ^ (q - k).toNat
    (sum ≠ 0 → ∀ c, roundedCode .f32 rm (decide (sum < 0))
        (fun h => h * 2 ^ (unitExp .f32 - 1 - k).toNat ≤ sum.natAbs * 2 ^ (k - unitExp .f32 + 1).toNat)
        (fun h => h * 2 ^ (unitExp .f32 - 1 - k).toNat < sum.natAbs * 2 ^ (k - unitExp .f32 + 1).toNat) c →
      dotV rm (us.map fv) (vs.map fv) (fv (n, m, q)) = settledCode .f32 rm false (decide (sum < 0)) c) ∧
    (sum = 0 → dotV rm (us.map fv) (vs.map fv) (fv (n, m, q)) =
      fzero .f32 (if t = 0 ∧ n = false then false else rm == .rdn)))) ∧
  (∀ (ef : EFmt) (rm : RMode) (nan : Bool) (s : Nat),
    (∀ v, s = 0xFF → elemCode ef rm nan s v = match ef with
      | .s4 | .s8 => 0
      | .bf16 => nanCode .bf16
      | e => nanCode (efmtF e)) ∧
    (s ≠ 0xFF →
      (∀ v, elemCode .n4e2 rm nan s v = fnarrow .n4e2 rm nan s v ∧ elemCode .n8e4 rm nan s v = fnarrow .n8e4 rm nan s v ∧
        elemCode .n8e5 rm nan s v = fnarrow .n8e5 rm nan s v) ∧
      (∀ bits, (ef = .s4 ∧ bits = 4) ∨ (ef = .s8 ∧ bits = 8) →
        elemCode ef rm nan s .nan = 0 ∧
        (∀ z, elemCode ef rm nan s (.inf z) = if z then 2 ^ (bits - 1) else 2 ^ (bits - 1) - 1) ∧
        ∀ z m q, elemCode ef rm nan s (.num z m q) =
          wrapTo bits (max (-(2 ^ (bits - 1))) (min (2 ^ (bits - 1) - 1) (signed z (integralMag rm z m (q + 127 - s)))))) ∧
      (∀ z m q, elemCode .bf16 rm nan s .nan = nanCode .bf16 ∧ elemCode .bf16 rm nan s (.inf z) = finf .bf16 z ∧
        elemCode .bf16 rm nan s (.num z m q) = fround .bf16 rm false (.num z m (q + 127 - s)))) ∧
    (∀ x, elemVal ef 0xFF x = .nan) ∧
    (s ≠ 0xFF → ∀ x,
      (∀ ft, (ef = .n4e2 ∨ ef = .n8e4 ∨ ef = .n8e5 ∨ ef = .bf16) → ft = efmtF ef →
        (fdecode ft x = .nan → elemVal ef s x = .nan) ∧ (∀ z, fdecode ft x = .inf z → elemVal ef s x = .inf z) ∧
        ∀ z m q, fdecode ft x = .num z m q → elemVal ef s x = .num z m (q + s - 127)) ∧
      (∀ bits, (ef = .s4 ∧ bits = 4) ∨ (ef = .s8 ∧ bits = 8) →
        let k := signedOf bits x
        elemVal ef s x = .num (decide (k < 0)) k.natAbs (0 + s - 127))) ∧
    blockScale ef .nan = 0xFF ∧ (∀ z, blockScale ef (.inf z) = 254) ∧ (∀ z q, blockScale ef (.num z 0 q) = 127) ∧
    (∀ z m q, 0 < m → let fits := fun (k : Int) =>
        let e := q - (elemMax ef).2 + 127 - k
        m * 2 ^ e.toNat ≤ (elemMax ef).1 * 2 ^ (-e).toNat
      (fits (blockScale ef (.num z m q)) ∧ ∀ k : Int, 0 ≤ k → k < blockScale ef (.num z m q) → ¬ fits k))) ∧
  (∀ (t : List Byte) (ef : EFmt) (rm : RMode) (s : Nat), ctValid t = true → s ≠ 0xFF →
    let mx := compandMax ef
    let brk := fun i => if i = 16 then 0x10000 else (ctEntry t i).1
    let base := fun i => (ctEntry t i).2.1
    let slope := fun i => (ctEntry t i).2.2
    let last := fun (f : Nat → Nat) (x i : Nat) => i < 16 ∧ f i ≤ x ∧ ∀ j, i < j → j < 16 → x < f j
    compand t mx rm s .nan = 0 ∧
    (∀ z i u v, last brk u i → ((v = .inf z ∧ u = 0xFFFF) ∨ ∃ (m : Nat) (q : Int), v = .num z m q ∧
        let e : Int := q + 127 - s + 16
        u = min (m * 2 ^ e.toNat / 2 ^ (-e).toNat) 0xFFFF) →
      let y := min (base i + (u - brk i) * slope i / 4096) 0xFFFF
      compand t mx rm s v = max (-(mx : Int)) (min mx (signed z (integralMag rm z (y * mx) (-16))))) ∧
    (∀ (c : Int) (yc i : Nat), let mg := min c.natAbs mx
      (2 * (((yc * mx : Nat) : Int) - ((mg * 2 ^ 16 : Nat) : Int)).natAbs ≤ mx ∧ yc < 0x10000 ∨ mg = mx ∧ yc = 0xFFFF) → last base yc i →
      let u := min (brk i + (yc - base i) * 4096 / slope i) (brk (i + 1) - 1)
      let up := if 8 < u % 16 ∨ (u % 16 = 8 ∧ u / 16 % 2 = 1) then u / 16 + 1 else u / 16
      expand t mx c = min up 4095))

/-- R226, R227, R229: `SHFL` reads the lane its mode names inside the sub-group (its own where that lane does not
act), `VOTE` and `MATCH` gather a predicate or the equality of values over the acting lanes of the sub-group. R141,
R228: `LRED` writes the tree reduction of the acting lanes of the sub-group, `LSCAN` that of the lanes up to its own;
in a wave of a legal width an integer sum, least or greatest value does not depend on the tree. -/
def Obligations.LaneWordResults : Prop :=
  (∀ (g : Guard) (ty : Ty) (sub : SubW) (d a b : Opnd) (pa : Fin 8) (all : Bool) (s : State) (m : Mach) (io : Io),
    let dst := fun bits => if d.isP then [] else [(d, bits)]
    let pd := match d with
      | .p n => [n.val]
      | _ => []
    let w := subWidth io.w.width sub
    let mates := fun l => io.act.filter fun k => k / w == l / w
    let ones := fun (ls : List Nat) => sumNat (ls.map fun k => 2 ^ (k % w))
    (∀ mode, let i := Instr.shfl g mode ty sub d a b
      let info := subInfo i g sub [(a, ty.regBits), (b, 32)] (dst ty.regBits) pd s.mach
      Issues s info m io → exec i s = .next (wrote s m io info (perLane io ty.regBits d fun l =>
        let k := readOp s.dev m io.w l 32 b % w
        let src := l / w * w + (match mode with
          | .index => k
          | .up => (l % w + (w - k)) % w
          | .down => (l % w + k) % w
          | .xor => l % w ^^^ k)
        readOp s.dev m io.w (if src ∈ io.act then src else l) ty.regBits a))) ∧
    (∀ mode, let i := Instr.vote g mode sub d pa
      let info := subInfo i g sub [] (dst 64) ([pa.val] ++ pd) s.mach
      Issues s info m io → exec i s = .next (wrote s m io info (perLane io 64 d fun l =>
        let yes := (mates l).filter fun k => (io.w.lane k).pred pa.val
        match mode with
        | .all => if ∀ k ∈ mates l, (io.w.lane k).pred pa.val = true then 1 else 0
        | .any => if ∃ k ∈ mates l, (io.w.lane k).pred pa.val = true then 1 else 0
        | .ballot => ones yes
        | .uni => if ∀ j ∈ mates l, ∀ k ∈ mates l, (io.w.lane j).pred pa.val = (io.w.lane k).pred pa.val then 1 else 0))) ∧
    (let i := Instr.matchL g all ty sub d a
      let info := subInfo i g sub [(a, ty.regBits)] (dst 64) pd s.mach
      let v := fun k => readOp s.dev m io.w k ty.regBits a
      Issues s info m io → exec i s = .next (wrote s m io info (perLane io 64 d fun l =>
        if all = true then (if ∀ k ∈ mates l, v k = v l then 1 else 0) else ones ((mates l).filter fun k => v k == v l))))) ∧
  (∀ (g : Guard) (op : RedOp) (sub : SubW) (d a : Opnd) (s : State) (m : Mach) (io : Io),
    let dst := if d.isP then [] else [(d, op.bits)]
    let pd := match d with
      | .p n => [n.val]
      | _ => []
    let w := subWidth io.w.width sub
    let val := fun k => if k ∈ io.act then some (redRead s.dev m io.w k op a) else none
    let ri := subInfo (.lred g op sub d a) g sub [(a, op.bits)] dst pd s.mach
    let si := subInfo (.lscan g op sub d a) g sub [(a, op.bits)] dst pd s.mach
    (Issues s ri m io → exec (.lred g op sub d a) s = .next (wrote s m io ri (perLane io op.bits d fun l =>
      redFinal op ((redTree (redStep op) val (Nat.log2 w) (l / w * w)).getD 0)))) ∧
    (Issues s si m io → exec (.lscan g op sub d a) s = .next (wrote s m io si (perLane io op.bits d fun l =>
      redFinal op ((scanTree (redStep op) val (Nat.log2 w) (l / w * w) (l % w + 1) none).getD 0)))) ∧
    ((io.w.width = 16 ∨ io.w.width = 32 ∨ io.w.width = 64) → ∀ l ∈ io.act, ∀ ty,
      let mates := io.act.filter fun k => k / w == l / w
      let x := fun k => readInt s.dev m io.w k ty a
      let tree := redFinal op ((redTree (redStep op) val (Nat.log2 w) (l / w * w)).getD 0)
      (op = .add ty → tree = asReg ty (wrapTo ty.bits ((mates.map x).foldl (· + ·) 0))) ∧
      (op = .min ty → ∃ k ∈ mates, (∀ j ∈ mates, x k ≤ x j) ∧ tree = asReg ty (wrapTo ty.bits (x k))) ∧
      (op = .max ty → ∃ k ∈ mates, (∀ j ∈ mates, x j ≤ x k) ∧ tree = asReg ty (wrapTo ty.bits (x k)))))

/-! ## Registers: what a write leaves (R56, R163 to R165) -/

/-- R164, R165: a result written to a register group that the lane has is read back from it, low word first; a scalar
takes the lowest acting lane's result; a write to `p7` is discarded, and another predicate takes its value. The frame
of every word that only writes registers: memory, the device, the service cores, groups, contexts and every other
wave are as they were, and in the issuing wave every register, predicate, scalar and special register that no listed
write names. -/
def Obligations.RegisterWritesFrame : Prop :=
  (∀ (s : State) (m : Mach) (io : Io) (info : WordInfo) (f : Nat → Nat), Issues s info m io → info.atOnce = true →
    (∀ bits n, (bits = 32 ∨ bits = 64 ∨ bits = 128) → ∀ l ∈ io.act, l < io.w.lanes.length →
      (∀ r : Fin 576, r.val = n → n + bits / 32 ≤ (io.w.lane l).v.length →
        ∃ w, (wrote s m io info (perLane io bits (.v r) f)).mach.wave io.w.core io.w.id = some w ∧
          regWords (w.lane l).v n (bits / 32) = f l % 2 ^ bits) ∧
      (∀ r : Fin 48, r.val = n → n + bits / 32 ≤ (io.w.lane l).c.length →
        ∃ w, (wrote s m io info (perLane io bits (.c r) f)).mach.wave io.w.core io.w.id = some w ∧
          regWords (w.lane l).c n (bits / 32) = f l % 2 ^ bits)) ∧
    (∀ (n : Fin 64) l rest, io.act = l :: rest → n.val < io.w.s.length →
      ∃ w, (wrote s m io info (perLane io 64 (.s n) f)).mach.wave io.w.core io.w.id = some w ∧
        w.s[n.val]? = some (BitVec.ofNat 64 (f l))) ∧
    (∀ (b : Nat → Bool) (n : Fin 8), ∀ l ∈ io.act, l < io.w.lanes.length →
      ∃ w, (wrote s m io info (perLaneP io n.val b)).mach.wave io.w.core io.w.id = some w ∧
        (n = 7 → (w.lane l).p = (io.w.lane l).p ∧ (w.lane l).pred 7 = true) ∧
        (n ≠ 7 → n.val < (io.w.lane l).p.length → (w.lane l).pred n.val = b l))) ∧
  (∀ (s : State) (m : Mach) (io : Io) (info : WordInfo) (outs : List RegWrite), Issues s info m io →
    let t := wrote s m io info outs
    t.dev = s.dev ∧ t.svc = s.svc ∧ t.svcq = s.svcq ∧ (∀ a, t.mach.mem.read a = s.mach.mem.read a) ∧
    t.mach.groups = s.mach.groups ∧ t.mach.ctxs = s.mach.ctxs ∧ t.mach.coh = s.mach.coh ∧
    (∀ c i, ¬ (c = io.w.core ∧ i = io.w.id) → t.mach.wave c i = s.mach.wave c i) ∧
    ∃ w, t.mach.wave io.w.core io.w.id = some w ∧
      w.memdef = io.w.memdef ∧ w.step = io.w.step ∧ w.prio = io.w.prio ∧ w.gang = io.w.gang ∧ w.alive = io.w.alive ∧
      (∀ n, (∀ r ∈ outs, r.dst ≠ .s n) → w.s[n]? = io.w.s[n]?) ∧
      ∀ l n,
        ((∀ r ∈ outs, ¬ (r.lane = l ∧ r.dst = .v n)) → (w.lane l).v[n]? = (io.w.lane l).v[n]?) ∧
        ((∀ r ∈ outs, ¬ (r.lane = l ∧ r.dst = .c n)) → (w.lane l).c[n]? = (io.w.lane l).c[n]?) ∧
        ((∀ r ∈ outs, ¬ (r.lane = l ∧ r.dst = .e n)) → (w.lane l).e[n]? = (io.w.lane l).e[n]?) ∧
        ((∀ r ∈ outs, ¬ (r.lane = l ∧ r.dst = .p n)) → (w.lane l).p[n]? = (io.w.lane l).p[n]?))

/-! ## Memory words (R52 to R64, R86 to R114, R249 to R278) -/

/-- R89, R91, R92, R99: the committed value of a word. A write of bytes inside one word, at the home or by a core
that registers it, gives the word those bytes over its old value, and changes the value of no other word. R91, R99: a
thread sees the stores of its core in flight: a load of any byte that the newest store of the core to it writes returns that
byte, whatever lies below it. R6: memory is little-endian, a byte written is read back, and a write leaves every
other byte. R52, R54: bytes stored into a group's scratchpad or operand store are read back, and no other byte of it
changes. -/
def Obligations.CoherentValues : Prop :=
  ((∀ (m : Mach) (k : Option Claim) (w off : Nat) (bs : List Byte), m.mem.wf = true →
    m.coh.lost w = false → (∀ c, k = some c → c.core < 256) →
    (m.writeWord k w off bs).homeValue w = mergeBytes (m.homeValue w) off bs ∧
    ∀ v, v ≠ w → (m.writeWord k w off bs).homeValue v = m.homeValue v) ∧
  (∀ (m : Mach) (x : Store) (me : Nat × Nat) (pa n : Nat), x.op = .write → x.guarded = false → x.record = none →
    x.more = [] → x.pa ≤ pa → pa + n ≤ x.pa + x.data.length →
    ({ m with coh := { m.coh with stores := m.coh.stores ++ [x] } } : Mach).loadBytes x.core me none pa n =
      (x.data.drop (pa - x.pa)).take n)) ∧
  ((∀ (mem : Memory), mem.wf = true →
    (∀ a b, (mem.write a b).wf = true ∧ ∀ c, (mem.write a b).read c = if c = a then b else mem.read c) ∧
    (∀ w x, (mem.setWord w x).wf = true ∧ (mem.setWord w x).word w = x ∧
      ∀ i, i < 8 → (mem.setWord w x).read (8 * w + i) = x.extractLsb' (8 * i) 8)) ∧
  (∀ (g : Group) (sp : Space) (off : Nat) (bs : List Byte), (localWf g.spad = true ∧ localWf g.ostore = true) →
    (g.put sp off bs).bytes sp off bs.length = bs ∧
    (∀ a n, a + n ≤ off ∨ off + bs.length ≤ a → (g.put sp off bs).bytes sp a n = g.bytes sp a n) ∧
    (∀ sq, (sq == .spad) ≠ (sp == .spad) → ∀ a n, (g.put sp off bs).bytes sq a n = g.bytes sq a n)))

/-- R256 to R260, R270: `LD` and `LD128A`. Where every acting lane's access is allowed and its home reports no fault,
each lane's destination takes the bytes at its address, extended by the size. What the bytes are: those of the thread's view,
stores of its core in flight over what the core and its home hold, or of a replicated page the local replica (R91, R106, R260);
for `LD128A` those of the home itself (R110). R256 to R260, R270: `ST` and `ST128A`. Where every acting lane's access is
allowed, each lane's bytes go into flight to the address of the lane, in ascending lane order; no byte of memory changes before
the home performs the store. -/
def Obligations.LoadAndStoreResults : Prop :=
  (∀ (g : Guard) (la : Fin 16) (pre : Option Prefix) (sz : Sz) (off : BitVec 12) (d a : Opnd) (s : State) (m m1 m2 : Mach)
    (io : Io) (p : Prefix) (bs : Nat → List Byte),
    let addr := fun l => ((readOp s.dev m1 io.w l 64 a : Int) + off.toInt) % 2 ^ 64
    (let info := memInfo (.ld g la pre sz off d a) g (some la.val) globLoad pre [(a, 64)] [(d, sz.regBits)] s.mach
     Reaches s info globLoad pre m io p m1 →
     gatherLoads s.dev io.w .glb sz.bytes false addr io.act m1 = ⟨m2, io.act.map fun l => (l, bs l), [], [], false⟩ →
     exec (.ld g la pre sz off d a) s = .next (landed s io info (ownHint s.dev p io sz.bytes addr m2)
       (perLane io sz.regBits d fun l => loadedAs sz (bs l)))) ∧
    (let info := memInfo (.ld128a g la pre off d a) g (some la.val) globLoad pre [(a, 64)] [(d, 128)] s.mach
     Reaches s info globLoad pre m io p m1 →
     gatherBy (fun m l => if pcie128 s.dev m io.w (addr l) .r l then (.precise ⟨0x02, addr64 (addr l)⟩, m)
       else homeLane s.dev m io.w l (addr l) 16 true) addr io.act m1 = ⟨m2, io.act.map fun l => (l, bs l), [], [], false⟩ →
     exec (.ld128a g la pre off d a) s = .next (landed s io info (ownHint s.dev p io 16 addr m2)
       (perLane io 128 d fun l => ofBytes (bs l))))) ∧
  (∀ (d : Dev) (m m2 : Mach) (w : Wave) (l : Nat) (sp : Space) (addr : Int) (n : Nat) (align : Bool) (bs : List Byte)
    (ps : List (Xlat × Nat)), checkAcc d m w l sp addr n .r align = .ok (.mem ps) →
    (loadLane d m w l sp addr n align = (.bytes bs, m2) → (∀ p ∈ ps, p.1.err = none) ∧
      bs = (ps.map fun p => if p.1.rep then m2.homeBytes p.1.pa p.2
        else m2.loadBytes w.core (w.id, l) (holder w l) p.1.pa p.2).flatten) ∧
    (homeLane d m w l addr n align = (.bytes bs, m2) → sp = .glb → (∀ p ∈ ps, p.1.err = none) ∧
      bs = (ps.map fun p => if p.1.rep then m2.repBytes p.1.pa p.2
        else m2.heldBytes (holder w l) p.1.pa p.2).flatten)) ∧
  (∀ (g : Guard) (pre : Option Prefix) (sz : Sz) (off : BitVec 12) (a b : Opnd) (s : State) (m m1 : Mach) (io : Io)
    (p : Prefix) (at_ : Nat → Where),
    let addr := fun l => ((readOp s.dev m1 io.w l 64 a : Int) + off.toInt) % 2 ^ 64
    let put := fun (sz : Sz) (m : Mach) l => storeAt io l (addr64 (addr l)) (at_ l)
      (toBytes sz.bytes (readOp s.dev m1 io.w l sz.regBits b)) .write p m
    (∀ (ls : List Nat) (sz : Sz), (∀ l ∈ ls, ∃ ps, at_ l = .mem ps) → (ls.foldl (put sz) m1).mem = m1.mem) ∧
    (let info := memInfo (.st g pre sz off a b) g none globStore pre [(a, 64), (b, sz.regBits)] [] s.mach
     Reaches s info globStore pre m io p m1 →
     (∀ pre l rest, io.act = pre ++ l :: rest →
       checkAcc s.dev (pre.foldl (put sz) m1) io.w l .glb (addr l) sz.bytes .w false = .ok (at_ l)) →
     exec (.st g pre sz off a b) s = .next (landed s io info (io.act.foldl (put sz) m1) [])) ∧
    (let info := memInfo (.st128a g pre off a b) g none globStore pre [(a, 64), (b, 128)] [] s.mach
     Reaches s info globStore pre m io p m1 → (∀ l ∈ io.act, pcie128 s.dev m1 io.w (addr l) .w l = false) →
     (∀ pre l rest, io.act = pre ++ l :: rest →
       checkAcc s.dev (pre.foldl (put .b128) m1) io.w l .glb (addr l) 16 .w true = .ok (at_ l)) →
     exec (.st128a g pre off a b) s = .next (landed s io info (io.act.foldl (put .b128) m1) [])))

/-- R52, R53, R61, R257 to R260: `LDS`, `LDB`, `STS` and `STB` at an offset. In each acting lane that has a group, at
an aligned offset inside the group's allotment (and below the rings), a load takes the bytes of the group's storage,
and a store puts the lane's bytes there, in ascending lane order, waking the waits on them. R67, R264: the tile forms
of `LDS`, `STS`, `LDB` and `STB` reach word (i, l) or (l, i) of a ready tile with 8-byte elements in the region the
word names; they wait while it is filling or draining, and a lane outside the shape faults. -/
def Obligations.LocalStorageResults : Prop :=
  (∀ (g : Guard) (la : Fin 16) (pre : Option Prefix) (sz : Sz) (off : BitVec 12) (d a b : Opnd) (s : State) (m m1 : Mach)
    (io : Io) (p : Prefix) (gr : Nat → Group),
    let pos := fun l => (readOp s.dev m1 io.w l 32 a : Int) + off.toInt
    let fits := fun (sp : Space) => ∀ l ∈ io.act, m1.laneGroup io.w l = some (gr l) ∧
      (gr l).inside sp (pos l) sz.bytes true = true
    let put := fun (sp : Space) (m : Mach) l => m.putLocal io.w.core (gr l).id sp (pos l).toNat
      (toBytes sz.bytes (readOp s.dev m1 io.w l sz.regBits b))
    let load := fun (i : Instr) (sp : Space) =>
      let info := memInfo i g (some la.val) (ownLoad sp) pre [(a, 32)] [(d, sz.regBits)] s.mach
      Reaches s info (ownLoad sp) pre m io p m1 → fits sp →
        exec i s = .next (landed s io info m1 (perLane io sz.regBits d fun l => loadedAs sz
          (match m1.group io.w.core (gr l).id with
            | some x => x.bytes sp (pos l).toNat sz.bytes
            | none => [])))
    let store := fun (i : Instr) (sp : Space) =>
      let info := memInfo i g none (ownStore sp) pre [(a, 32), (b, sz.regBits)] [] s.mach
      Reaches s info (ownStore sp) pre m io p m1 → fits sp →
        exec i s = .next (landed s io info (io.act.foldl (put sp) m1) [])
    load (.lds g la pre sz (.off off) d a) .spad ∧ load (.ldb g la pre sz (.off off) d a) .ostore ∧
    store (.sts g pre sz (.off off) a b) .spad ∧ store (.stb g pre sz (.off off) a b) .ostore) ∧
  (∀ (d : Dev) (m : Mach) (io : Io) (sp : Space) (dir : Bool) (t : Fin 64) (a : Opnd) (g : Group) (x : Tile),
    io.act ≠ [] → io.group.bind (m.group io.w.core) = some g → g.tile t.val = some x →
    (tdesc x.desc).esize = 3 → (tdesc x.desc).bare = false → (tdesc x.desc).space = sp →
    let i := readOp d m io.w io.lead 32 a
    (x.state = .ready → ∃ f, formAddr d m io sp (.tile dir t) a = .ok f ∧ ∀ l,
      let r := if dir then l else i
      let c := if dir then i else l
      f l = ((((tdesc x.desc).base + r * (tdesc x.desc).pitch + 8 * c : Nat) : Int),
        decide ((tdesc x.desc).rows < r ∨ (tdesc x.desc).cols < c))) ∧
    (x.state = .filling ∨ x.state = .draining → formAddr d m io sp (.tile dir t) a = .error (Eff.waitTiles m [t.val])))

/-- R249: `BLKLD` and `BLKST`. Each lane moves quarter l mod 4 of a block aligned to 64; where every lane's header is well
formed and every access allowed, `BLKLD` writes the quarters and `BLKST` stores them, to global memory as one unit. R250 to
R253: the MX pairs, on the block of each sub-group of 32 lanes with an acting lane, named by its lowest one: `MXLD` writes each
lane's element under the block's scale, and `MXST` stores the codes of all 32 lanes and the scale of their greatest finite
magnitude as one unit, with code 0 for a lane that does not act. R254: `CTAB` reads its table at the home and installs a valid
one. -/
def Obligations.BlockAndMxResults : Prop :=
  (∀ (g : Guard) (la : Fin 16) (pre : Option Prefix) (d a b : Opnd) (s : State) (m m1 m2 m3 : Mach) (io : Io) (p : Prefix)
    (hd : Nat → Byte) (bs : Nat → List Byte) (at_ : Nat → Where),
    let base := fun l => laneAddr s.dev m1 io.w l p.space a 0
    let quarter := fun l => base l + 16 * (l % 4 : Nat)
    let data := fun l => toBytes 16 (readOp s.dev m1 io.w l 128 b)
    let put := fun (m : Mach) l => storeAt io l (addr64 (quarter l)) (at_ l) (data l) .write p m
    (∀ l ∈ io.act, base l % 64 = 0) →
    (let ab := blockBits blockLoad pre s.mach
     let i0 := memInfo (.blkld g la pre d a) g (some la.val) blockLoad pre [(a, ab)] [(d, 128)] s.mach
     let info := { i0 with bad := i0.bad || !a.aligned ab }
     Reaches s info blockLoad pre m io p m1 → (∀ l ∈ io.act, blockBad m1 io.w.asid (hd l).toNat = false) →
     gatherLoads s.dev io.w p.space 1 false base io.act m1 = ⟨m2, io.act.map fun l => (l, [hd l]), [], [], false⟩ →
     gatherLoads s.dev io.w p.space 16 true quarter io.act m2 = ⟨m3, io.act.map fun l => (l, bs l), [], [], false⟩ →
     exec (.blkld g la pre d a) s = .next (landed s io info (ownHint s.dev p io 64 base m3)
       (perLane io 128 d fun l => ofBytes (bs l)))) ∧
    (let ab := blockBits blockStore pre s.mach
     let i0 := memInfo (.blkst g pre a b) g none blockStore pre [(a, ab), (b, 128)] [] s.mach
     let info := { i0 with bad := i0.bad || !a.aligned ab }
     Reaches s info blockStore pre m io p m1 →
     (∀ l ∈ io.act, l % 4 = 0 → blockBad m1 io.w.asid (readOp s.dev m1 io.w l 128 b % 256) = false) →
     (∀ l ∈ io.act, checkAcc s.dev m1 io.w l p.space (quarter l) 16 .w true = .ok (at_ l)) →
     (∀ ps : Nat → List (Xlat × Nat), io.w.guarded = false → p.space = .glb → (∀ l ∈ io.act, at_ l = .mem (ps l)) →
       exec (.blkst g pre a b) s = .next (landed s io info
         (storeUnit io io.act (io.act.map fun l => (addr64 (quarter l), ps l, data l)) p m1) [])) ∧
     ((io.w.guarded = true ∨ p.space ≠ .glb) →
       (∀ pre l rest, io.act = pre ++ l :: rest →
         checkAcc s.dev (pre.foldl put m1) io.w l p.space (quarter l) 16 .w true = .ok (at_ l)) →
       exec (.blkst g pre a b) s = .next (landed s io info (io.act.foldl put m1) [])))) ∧
  (∀ (io : Io) (ls : List Nat) (parts : List (BitVec 64 × Xlat × List Byte)) (p : Prefix) (m : Mach),
    parts ≠ [] → io.w.guarded = false → ∃ x,
      (storeUnit io ls (parts.map fun t => (t.1, [(t.2.1, t.2.2.length)], t.2.2)) p m).coh.stores = m.coh.stores ++ [x] ∧
      (storeUnit io ls (parts.map fun t => (t.1, [(t.2.1, t.2.2.length)], t.2.2)) p m).mem = m.mem ∧
      x.pieces = parts.map (fun t => (t.1, t.2.1.pa, t.2.2)) ∧ x.core = io.w.core ∧ x.wave = io.w.id ∧ x.lanes = maskOf ls ∧
      x.op = .write ∧ x.tag = m.coh.nextTag ∧ x.record = none) ∧
  (∀ (g : Guard) (la : Fin 16) (pre : Option Prefix) (ef : EFmt) (rm : RMode) (nan : Bool) (d x a b : Opnd) (tab : Fin 4)
    (s : State) (m m1 m2 : Mach) (io : Io) (p : Prefix) (bs : List Byte) (vs : List (Nat × Nat)),
    let at_ := addrIn s.dev m1 io
    let aligned := ∀ ls ∈ mxGroups io, (at_ (ls.headD 0) a).toNat % mxBytes ef = 0
    (let i0 := memInfo (.mxld g la pre ef rm d a b) g (some la.val) globLoad pre [(a, 64), (b, 64)] [(d, 32)] s.mach
     let info := { i0 with bad := i0.bad || mxBad s.mach }
     Reaches s info globLoad pre m io p m1 → aligned → mxLoads s.dev m1 io p ef rm a b = some (m2, vs) →
     exec (.mxld g la pre ef rm d a b) s = .next (landed s io info m2 (laneOuts 32 d vs))) ∧
    (let i0 := memInfo (.mxst g pre ef rm nan x a b) g none globStore pre [(x, 32), (a, 64), (b, 64)] [] s.mach
     let info := { i0 with bad := i0.bad || mxBad s.mach }
     Reaches s info globStore pre m io p m1 → aligned → mxStores s.dev m1 io p ef rm nan x a b = some m2 →
     exec (.mxst g pre ef rm nan x a b) s = .next (landed s io info m2 [])) ∧
    (let k : MemKind := ⟨[.rlx], none, [.glb]⟩
     let info := memInfo (.ctab g pre tab a) g none k pre [(a, 64)] [] s.mach
     Reaches s info k pre m io p m1 → io.act ≠ [] → (at_ io.lead a).toNat % 8 = 0 → ctValid bs = true →
     homeLane s.dev m1 io.w io.lead (at_ io.lead a).toNat 128 false = (.bytes bs, m2) →
     exec (.ctab g pre tab a) s = .next (landed s io info
       (m2.updCtx io.w.asid fun c => { c with ctabs := c.ctabs.set (tab.val - 1) (some bs) }) []))) ∧
  (∀ (ef : EFmt) (rm : RMode) (nan : Bool) (v : Nat → Option FVal),
    let c := mxCodes ef rm nan v
    (∀ k < 32, bitsOf c.1 (k * efmtBits ef) (efmtBits ef) = match v k with
      | some x => elemCode ef rm nan c.2 x
      | none => 0) ∧
    ((∀ k < 32, ∀ z m q, v k ≠ some (.num z m q)) → c.2 = 127) ∧
    ((∃ k < 32, ∃ z m q, v k = some (.num z m q)) → ∃ k < 32, ∃ z m q, v k = some (.num z m q) ∧
      c.2 = blockScale ef (.num false m q) ∧
      ∀ j < 32, ∀ y n r, v j = some (.num y n r) → fltV false (.num false m q) (.num false n r) = false))

/-- R161, R168: words that complete. Each float word, packed word and quantizing word that issues and meets nothing before its
effect writes a value to its destination in each acting lane, and nothing else: `FADD`, `FSUB`, `FMUL`, `FFMA`, `HFMA2`, `FMIN`,
`FMAX`, `FCMP`, `FCLASS`, `FRND`, `CVTF`, `CVTFI`, `CVTIF`, `FRCPA`, `FRSQA`, `FSQRT`, `FDIV`, `FEXP2`, `FLOG2`, `FSIN`, `FCOS`,
`FTANH`, `DOT4`, `DOT8`, `BSCL`, `PKB`, `UPKB`, and `QNT` and `DQNT` directly or through a loaded table. So do, where every address
is aligned and every access allowed, `BLKLD` and `MXLD`; `BLKST` and `MXST` then put their stores in flight, and `CTAB` installs
a valid table. `PREF`, `INVR`, `WBR`, `REGW` and `ICINV` complete, and a `FENCE` whose release is done and that is not ordered by
the arbiter. -/
def Obligations.OrdinaryWordsComplete : Prop :=
  (∀ (g : Guard) (la : Fin 16) (ft st : FFmt) (rm : RMode) (ftz half nan : Bool) (ty : Ty) (cond : FCond) (pd : Fin 8)
    (d a b c : Opnd),
    let i1 := fun (i : Instr) => shortInfo i g [(a, 32)] [(d, 32)] []
    let i2 := fun (i : Instr) => shortInfo i g [(a, 32), (b, 32)] [(d, 32)] []
    let i3 := fun (i : Instr) => shortInfo i g [(a, 32), (b, 32), (c, 32)] [(d, 32)] []
    let l1 := fun (i : Instr) => longInfo i g la [(a, 32)] [(d, 32)]
    completes (.fadd g ft rm ftz d a b) (i2 (.fadd g ft rm ftz d a b)) 32 d ∧
    completes (.fsub g ft rm ftz d a b) (i2 (.fsub g ft rm ftz d a b)) 32 d ∧
    completes (.fmul g ft rm ftz d a b) (i2 (.fmul g ft rm ftz d a b)) 32 d ∧
    completes (.ffma g rm ftz d a b c) (i3 (.ffma g rm ftz d a b c)) 32 d ∧
    completes (.hfma2 g half rm ftz d a b c) (i3 (.hfma2 g half rm ftz d a b c)) 32 d ∧
    completes (.fmin g ft ftz d a b) (i2 (.fmin g ft ftz d a b)) 32 d ∧
    completes (.fmax g ft ftz d a b) (i2 (.fmax g ft ftz d a b)) 32 d ∧
    (∀ s m io, Issues s (shortInfo (.fcmp g ft cond ftz pd a b) g [(a, 32), (b, 32)] [] [pd.val]) m io →
      ∃ f, exec (.fcmp g ft cond ftz pd a b) s =
        .next (wrote s m io (shortInfo (.fcmp g ft cond ftz pd a b) g [(a, 32), (b, 32)] [] [pd.val]) (perLaneP io pd.val f))) ∧
    completes (.fclass g ft d a) (i1 (.fclass g ft d a)) 32 d ∧
    completes (.frnd g ft rm ftz d a) (i1 (.frnd g ft rm ftz d a)) 32 d ∧
    completes (.cvtf g ft st rm ftz nan d a none) (i1 (.cvtf g ft st rm ftz nan d a none)) 32 d ∧
    completes (.cvtf g ft st rm ftz nan d a (some b)) (i2 (.cvtf g ft st rm ftz nan d a (some b))) 32 d ∧
    completes (.cvtfi g ty ft rm ftz d a) (shortInfo (.cvtfi g ty ft rm ftz d a) g [(a, 32)] [(d, ty.regBits)] []) ty.regBits d ∧
    completes (.cvtif g ft ty rm d a) (shortInfo (.cvtif g ft ty rm d a) g [(a, ty.regBits)] [(d, 32)] []) 32 d ∧
    completes (.frcpa g la ftz d a) (l1 (.frcpa g la ftz d a)) 32 d ∧
    completes (.frsqa g la ftz d a) (l1 (.frsqa g la ftz d a)) 32 d ∧
    completes (.fsqrt g la ft rm ftz d a) (l1 (.fsqrt g la ft rm ftz d a)) 32 d ∧
    completes (.fdiv g la ft rm ftz d a b) (longInfo (.fdiv g la ft rm ftz d a b) g la [(a, 32), (b, 32)] [(d, 32)]) 32 d ∧
    completes (.fexp2 g la rm ftz d a) (l1 (.fexp2 g la rm ftz d a)) 32 d ∧
    completes (.flog2 g la rm ftz d a) (l1 (.flog2 g la rm ftz d a)) 32 d ∧
    completes (.fsin g la rm ftz d a) (l1 (.fsin g la rm ftz d a)) 32 d ∧
    completes (.fcos g la rm ftz d a) (l1 (.fcos g la rm ftz d a)) 32 d ∧
    completes (.ftanh g la rm ftz d a) (l1 (.ftanh g la rm ftz d a)) 32 d) ∧
  (∀ (g : Guard) (fa fb tab : Fin 4) (rm : RMode) (ef : EFmt) (nan : Bool) (esz : Fin 3) (pos : Fin 16) (d a b c : Opnd),
    let i1 := fun (i : Instr) => shortInfo i g [(a, 32)] [(d, 32)] []
    let i2 := fun (i : Instr) => shortInfo i g [(a, 32), (b, 32)] [(d, 32)] []
    let i3 := fun (i : Instr) => shortInfo i g [(a, 32), (b, 32), (c, 32)] [(d, 32)] []
    completes (.dot4 g fa fb rm d a b c) (i3 (.dot4 g fa fb rm d a b c)) 32 d ∧
    completes (.dot8 g fa fb rm d a b c) (i3 (.dot8 g fa fb rm d a b c)) 32 d ∧
    completes (.bscl g ef d a) (i1 (.bscl g ef d a)) 32 d ∧
    (4 * 2 ^ esz.val * (pos.val + 1) ≤ 32 →
      completes (.pkb g esz pos d a) (shortInfo (.pkb g esz pos d a) g [(a, 32), (d, 32)] [(d, 32)] []) 32 d ∧
      completes (.upkb g esz pos d a) (i1 (.upkb g esz pos d a)) 32 d) ∧
    ∀ s m io, (tab = 0 ∨ ∃ x t, m.ctx io.w.asid = some x ∧ x.ctabs[tab.val - 1]? = some (some t)) →
      (Issues s (i2 (.qnt g ef rm nan tab d a b)) m io → ∃ f, exec (.qnt g ef rm nan tab d a b) s =
        .next (wrote s m io (i2 (.qnt g ef rm nan tab d a b)) (perLane io 32 d f))) ∧
      (Issues s (i2 (.dqnt g ef tab d a b)) m io → ∃ f, exec (.dqnt g ef tab d a b) s =
        .next (wrote s m io (i2 (.dqnt g ef tab d a b)) (perLane io 32 d f)))) ∧
  (∀ (g : Guard) (la : Fin 16) (pre : Option Prefix) (ef : EFmt) (rm : RMode) (nan : Bool) (d x a b : Opnd) (tab : Fin 4)
    (s : State) (m m1 : Mach) (io : Io) (p : Prefix),
    let at_ := addrIn s.dev m1 io
    let base := fun l => laneAddr s.dev m1 io.w l p.space a 0
    let quarter := fun l => base l + 16 * (l % 4 : Nat)
    let aligned := ∀ ls ∈ mxGroups io, (at_ (ls.headD 0) a).toNat % mxBytes ef = 0
    let blk := fun (i : WordInfo) (k : MemKind) => { i with bad := i.bad || !a.aligned (blockBits k pre s.mach) }
    let mx := fun (i : WordInfo) => { i with bad := i.bad || mxBad s.mach }
    (let info := blk (memInfo (.blkld g la pre d a) g (some la.val) blockLoad pre [(a, blockBits blockLoad pre s.mach)]
       [(d, 128)] s.mach) blockLoad
     ∀ (m2 m3 : Mach) (hd : Nat → Byte) (bs : Nat → List Byte), Reaches s info blockLoad pre m io p m1 →
     (∀ l ∈ io.act, base l % 64 = 0) → (∀ l ∈ io.act, blockBad m1 io.w.asid (hd l).toNat = false) →
     gatherLoads s.dev io.w p.space 1 false base io.act m1 = ⟨m2, io.act.map fun l => (l, [hd l]), [], [], false⟩ →
     gatherLoads s.dev io.w p.space 16 true quarter io.act m2 = ⟨m3, io.act.map fun l => (l, bs l), [], [], false⟩ →
     ∃ m4 f, exec (.blkld g la pre d a) s = .next (landed s io info m4 (perLane io 128 d f))) ∧
    (let info := blk (memInfo (.blkst g pre a b) g none blockStore pre [(a, blockBits blockStore pre s.mach), (b, 128)] []
       s.mach) blockStore
     ∀ ps : Nat → List (Xlat × Nat), Reaches s info blockStore pre m io p m1 → io.w.guarded = false → p.space = .glb →
     (∀ l ∈ io.act, base l % 64 = 0) →
     (∀ l ∈ io.act, l % 4 = 0 → blockBad m1 io.w.asid (readOp s.dev m1 io.w l 128 b % 256) = false) →
     (∀ l ∈ io.act, checkAcc s.dev m1 io.w l p.space (quarter l) 16 .w true = .ok (.mem (ps l))) →
     ∃ m2, exec (.blkst g pre a b) s = .next (landed s io info m2 [])) ∧
    (let info := mx (memInfo (.mxld g la pre ef rm d a b) g (some la.val) globLoad pre [(a, 64), (b, 64)] [(d, 32)] s.mach)
     ∀ m2 vs, Reaches s info globLoad pre m io p m1 → aligned → mxLoads s.dev m1 io p ef rm a b = some (m2, vs) →
     exec (.mxld g la pre ef rm d a b) s = .next (landed s io info m2 (laneOuts 32 d vs))) ∧
    (let info := mx (memInfo (.mxst g pre ef rm nan x a b) g none globStore pre [(x, 32), (a, 64), (b, 64)] [] s.mach)
     ∀ m2, Reaches s info globStore pre m io p m1 → aligned → mxStores s.dev m1 io p ef rm nan x a b = some m2 →
     exec (.mxst g pre ef rm nan x a b) s = .next (landed s io info m2 [])) ∧
    (let k : MemKind := ⟨[.rlx], none, [.glb]⟩
     let info := memInfo (.ctab g pre tab a) g none k pre [(a, 64)] [] s.mach
     ∀ m2 bs, Reaches s info k pre m io p m1 → io.act ≠ [] → (at_ io.lead a).toNat % 8 = 0 → ctValid bs = true →
     homeLane s.dev m1 io.w io.lead (at_ io.lead a).toNat 128 false = (.bytes bs, m2) →
     ∃ f, exec (.ctab g pre tab a) s = .next (landed s io info (m2.updCtx io.w.asid f) []))) ∧
  (∀ (g : Guard) (pre : Option Prefix) (fp : Prefix) (off : BitVec 12) (a b : Opnd) (s : State) (m m1 : Mach) (io : Io)
    (p : Prefix) (ps : List (Xlat × Nat)), io.act ≠ [] →
    let x := readOp s.dev m1 io.w io.lead 64 a
    let n := readOp s.dev m1 io.w io.lead 64 b
    let rlx : MemKind := ⟨[.rlx], none, [.glb]⟩
    let acq : MemKind := ⟨[.rlx, .acq], none, [.glb]⟩
    let rel : MemKind := ⟨[.rlx, .rel], none, [.glb]⟩
    let region := fun (i : Instr) (k : MemKind) => memInfo i g none k pre [(a, 64), (b, 64)] [] s.mach
    (let info := memInfo (.pref g pre off a) g none rlx pre [(a, 64)] [] s.mach
     Issues s info m io → ∃ m2, exec (.pref g pre off a) s = .next (landed s io info m2 [])) ∧
    (let info := { shortInfo (.fence g fp) g [] [] [] with rel := releases fp.order }
     Issues s info m io → fencePending m io = false → io.w.guarded = false → ¬ (fp.order = .sc ∧ arbited fp.scope = true) →
     releaseDone (releaseAt s.dev io.w.core fp.order fp.scope m) io.w.core io.w.id (maskOf io.act) fp.order fp.scope = true →
     let m3 := acquireAt io.w.core fp.order fp.scope (releaseAt s.dev io.w.core fp.order fp.scope m)
     exec (.fence g fp) s = .next (landed s io info
       (if fp.code = true ∧ acquires fp.order = true then m3.refetch io.w.core io.w.id else m3) [])) ∧
    (Issues s (region (.invr g pre a b) acq) m io → fencePending m io = false →
     ∃ m2, exec (.invr g pre a b) s = .next (landed s io (region (.invr g pre a b) acq) m2 [])) ∧
    (Reaches s (region (.wbr g pre a b) rel) rel pre m io p m1 →
     ∃ m2, exec (.wbr g pre a b) s = .next (landed s io (region (.wbr g pre a b) rel) m2 [])) ∧
    (Reaches s (region (.regw g pre a b) rlx) rlx pre m io p m1 → 0 < n →
     translateRange s.dev m1 (coreDie io.w.core) io.w.asid (BitVec.ofNat 64 (x / 8 * 8))
       ((x + n + 7) / 8 * 8 - x / 8 * 8) .w false = .ok ps →
     ∃ m2, exec (.regw g pre a b) s = .next (landed s io (region (.regw g pre a b) rlx) m2 [])) ∧
    (Reaches s (region (.icinv g pre a b) rlx) rlx pre m io p m1 →
     rangeOpen io (mappedPieces s.dev m1 io.w x n) (drainRange s.dev io (mappedPieces s.dev m1 io.w x n) m1) = false →
     ∃ m2, exec (.icinv g pre a b) s = .next (landed s io (region (.icinv g pre a b) rlx) m2 [])))

/-- R107, R110, R261, R268, R269: the atomics. Where every acting lane's atomic is performed at its home or bank, in
ascending lane order, `ATOM` writes the new value of its operation and returns the old, and `CAS` and `CAS128` write
the new value exactly where the old equals the comparand and return the old in every case. At a home in HBM the old bytes are the
committed ones, and the new ones replace them in one step. R81, R107, R147, R268: `ATOM` without a result goes into flight like a
store, for its home to perform, or is done by the bank in scratchpad. R114: in a surrogate group it is not performed, and marks
the group of each lane. -/
def Obligations.AtomicResults : Prop :=
  (∀ (g : Guard) (la : Fin 16) (pre : Option Prefix) (op : AtomOp) (ty : Ty) (d a b c : Opnd) (s : State) (m m1 m2 : Mach)
    (io : Io) (p : Prefix) (old : Nat → List Byte),
    let wide := match s.mach.curPath with
      | some (w, _) => if (forcePrefix anyAtom pre w).space == .glb then 64 else 32
      | none => 64
    let addr := fun l => laneAddr s.dev m1 io.w l p.space a 0
    let done : Gather := ⟨m2, io.act.map fun l => (l, old l), [], [], false⟩
    (let i0 := memInfo (.atom g la pre op ty (some d) a b) g (some la.val) anyAtom pre [(a, wide), (b, ty.regBits)]
       [(d, ty.regBits)] s.mach
     let info := { i0 with bad := i0.bad || !a.aligned wide }
     Reaches s info anyAtom pre m io p m1 →
     atomicLanes s.dev io p.space (ty.bits / 8) (atomicOpOf op) addr
       (fun l old => some (atomNew op ty (readOp s.dev m1 io.w l ty.regBits b) old)) m1 = done →
     exec (.atom g la pre op ty (some d) a b) s =
       .next (landed s io info m2 (perLane io ty.regBits d fun l => ofBytes (old l)))) ∧
    (let i0 := memInfo (.cas g la pre ty d a b c) g (some la.val) anyAtom pre
       [(a, wide), (b, ty.regBits), (c, ty.regBits)] [(d, ty.regBits)] s.mach
     let info := { i0 with bad := i0.bad || !a.aligned wide }
     Reaches s info anyAtom pre m io p m1 →
     atomicLanes s.dev io p.space (ty.bits / 8) (some 2) addr
       (fun l old => if ofBytes old = readOp s.dev m1 io.w l ty.regBits b
         then some (toBytes (ty.bits / 8) (readOp s.dev m1 io.w l ty.regBits c)) else none) m1 = done →
     exec (.cas g la pre ty d a b c) s =
       .next (landed s io info m2 (perLane io ty.regBits d fun l => ofBytes (old l)))) ∧
    (let info := memInfo (.cas128 g la pre d a b c) g (some la.val) globAtom pre [(a, 64), (b, 128), (c, 128)]
       [(d, 128)] s.mach
     Reaches s info globAtom pre m io p m1 →
     atomicLanes s.dev io .glb 16 (some 2) (fun l => ((readOp s.dev m1 io.w l 64 a : Int) + 0) % 2 ^ 64)
       (fun l old => if ofBytes old = readOp s.dev m1 io.w l 128 b
         then some (toBytes 16 (readOp s.dev m1 io.w l 128 c)) else none) m1 = done →
     exec (.cas128 g la pre d a b c) s = .next (landed s io info m2 (perLane io 128 d fun l => ofBytes (old l)))) ∧
    (∀ x o, let n := ty.bits
      let i := intOf ty
      let bits := fun (f : Bool → Bool → Bool) => atomNew op ty x (toBytes (n / 8) o) =
        toBytes (n / 8) (ofBits n fun k => f (bitOf o k) (bitOf x k))
      (op = .add → atomNew op ty x (toBytes (n / 8) o) = toBytes (n / 8) (o % 2 ^ n + x % 2 ^ n)) ∧
      (op = .xchg → atomNew op ty x (toBytes (n / 8) o) = toBytes (n / 8) x) ∧
      (op = .and → bits fun y z => y && z) ∧ (op = .or → bits fun y z => y || z) ∧ (op = .xor → bits fun y z => y != z) ∧
      (op = .fadd → atomNew op ty x (toBytes 4 o) =
        toBytes 4 (faddV .f32 .rne false (fdecode .f32 (o % 2 ^ 32)) (fdecode .f32 (x % 2 ^ 32)))) ∧
      (op = .min → intOf ty (ofBytes (atomNew op ty x (toBytes (n / 8) o))) = min (i o) (i x)) ∧
      (op = .max → intOf ty (ofBytes (atomNew op ty x (toBytes (n / 8) o))) = max (i o) (i x)))) ∧
  (∀ (d : Dev) (w : Wave) (l n : Nat) (x : Xlat) (f : List Byte → Option (List Byte)) (m m2 : Mach) (old : List Byte),
    m.mem.wf = true → x.home = .hbm → x.pa + n ≤ hbmBytes → (∀ v, x.pa / 8 ≤ v → v ≤ (x.pa + n) / 8 → m.coh.lost v = false) →
    atomicHome d w l x n f m = some (old, m2) → old = m.homeBytes x.pa n ∧
      (∀ new, f old = some new → new.length = n → m2.homeBytes x.pa n = new ∧
        ∀ v, (8 * v + 8 ≤ x.pa ∨ x.pa + n ≤ 8 * v) → m2.homeValue v = m.homeValue v) ∧
      (f old = none → ∀ v, m2.homeValue v = m.homeValue v)) ∧
  (∀ (g : Guard) (la : Fin 16) (pre : Option Prefix) (op : AtomOp) (ty : Ty) (a b : Opnd) (s : State) (m m1 : Mach)
    (io : Io) (p : Prefix) (ps : Nat → List (Xlat × Nat)) (gr pos : Nat → Nat),
    let wide := match s.mach.curPath with
      | some (w, _) => if (forcePrefix anyAtom pre w).space == .glb then 64 else 32
      | none => 64
    let i0 := memInfo (.atom g la pre op ty none a b) g none anyAtom pre [(a, wide), (b, ty.regBits)] [] s.mach
    let info := { i0 with bad := i0.bad || !a.aligned wide }
    let addr := fun l => laneAddr s.dev m1 io.w l p.space a 0
    let x := fun l => readOp s.dev m1 io.w l ty.regBits b
    let put := fun (m : Mach) l => storeAt io l (addr64 (addr l)) (.mem (ps l)) (toBytes (ty.bits / 8) (x l))
      (.atom op ty (BitVec.ofNat 64 (x l))) p m
    let marks := fun (m : Mach) l => surrogateConflict m io.w l
    let bank := fun (m : Mach) l => match m.group io.w.core (gr l) with
      | some k => m.putLocal io.w.core (gr l) .spad (pos l) (atomNew op ty (x l) (k.bytes .spad (pos l) (ty.bits / 8)))
      | none => m
    Reaches s info anyAtom pre m io p m1 →
      (io.w.guarded = false → (∀ front l rest, io.act = front ++ l :: rest →
        checkAcc s.dev (front.foldl put m1) io.w l p.space (addr l) (ty.bits / 8) .w true = .ok (.mem (ps l)) ∧
        pcieRefuses s.dev (ps l) (atomicOpOf op).isSome = false) →
        exec (.atom g la pre op ty none a b) s = .next (landed s io info (io.act.foldl put m1) [])) ∧
      (io.w.guarded = true → (∀ front l rest, io.act = front ++ l :: rest →
        checkAcc s.dev (front.foldl marks m1) io.w l p.space (addr l) (ty.bits / 8) .w true = .ok (.mem (ps l))) →
        exec (.atom g la pre op ty none a b) s = .next (landed s io info (io.act.foldl marks m1) [])) ∧
      ((∀ front l rest, io.act = front ++ l :: rest →
        checkAcc s.dev (front.foldl bank m1) io.w l p.space (addr l) (ty.bits / 8) .w true =
          .ok (.local io.w.core (gr l) .spad (pos l))) →
        exec (.atom g la pre op ty none a b) s = .next (landed s io info (io.act.foldl bank m1) [])))

/-- R38, R40, R266: `LDQ` and `STQ` in a shadow wave. `LDQ` reserves entries in every acting lane's load queue of the
compute wave, low word first, and `STQ` pops the entries it stores from the store queues. Once the compute wave has exited, the
values of `LDQ` are discarded, and an `STQ` that a lane has no entry for raises fault 0x60 with the queue's number. -/
def Obligations.QueueWordResults : Prop :=
  ∀ (g : Guard) (pre : Option Prefix) (sz : Sz) (off : BitVec 12) (q : Fin 12) (a : Opnd) (s : State) (m m1 m2 : Mach)
    (io : Io) (p : Prefix) (c : Wave) (bs : Nat → List Byte) (at_ : Nat → Where),
    partnerOf m1 io.w = some c →
    let n := max 1 (sz.regBits / 32)
    let addr := fun l => ((readOp s.dev m1 io.w l 64 a : Int) + off.toInt) % 2 ^ 64
    let shadowOnly := match s.mach.curPath with
      | some (w, _) => !w.shadow
      | none => false
    (let i0 := memInfo (.ldq g pre sz off q a) g none globLoad pre [(a, 64)] [] s.mach
     let info := { i0 with bad := i0.bad || shadowOnly }
     Reaches s info globLoad pre m io p m1 →
     gatherLoads s.dev io.w .glb sz.bytes false addr io.act m1 = ⟨m2, io.act.map fun l => (l, bs l), [], [], false⟩ →
     partnerOf m2 io.w = some c →
     (c.ended = false → (∀ l ∈ io.act, ((c.lane l).lq.getD q.val []).length + n ≤ 16) →
       exec (.ldq g pre sz off q a) s = .next (landed s io info (io.act.foldl (fun m l =>
         let new := (List.range n).map fun i => some (BitVec.ofNat 32 (bitsOf (loadedAs sz (bs l)) (32 * i) 32))
         m.updWave io.w.core (io.w.partner.getD 0) fun w =>
           w.updLane l fun x => { x with lq := updAt x.lq q.val fun e => e ++ new }) (ownHint s.dev p io sz.bytes addr m2)) [])) ∧
     (c.ended = true → exec (.ldq g pre sz off q a) s =
       .next (landed s io info (ownHint s.dev p io sz.bytes addr m2) []))) ∧
    (let i0 := memInfo (.stq g pre sz off a q) g none globStore pre [(a, 64)] [] s.mach
     let info := { i0 with bad := i0.bad || shadowOnly }
     let value := fun l => regWords ((c.lane l).sq.getD q.val []) 0 n
     let put := fun (m : Mach) l => storeAt io l (addr64 (addr l)) (at_ l) (toBytes sz.bytes (value l)) .write p m
     Reaches s info globStore pre m io p m1 →
     ((∀ l ∈ io.act, n ≤ ((c.lane l).sq.getD q.val []).length) →
       (∀ front l rest, io.act = front ++ l :: rest →
         checkAcc s.dev (front.foldl put m1) io.w l .glb (addr l) sz.bytes .w false = .ok (at_ l)) →
       exec (.stq g pre sz off a q) s = .next (landed s io info
         ((io.act.foldl put m1).updWave io.w.core (io.w.partner.getD 0) fun w =>
           w.updLanes (maskOf io.act) fun x => { x with sq := updAt x.sq q.val fun y => y.drop n }) [])) ∧
     (c.ended = true → (∃ l ∈ io.act, ((c.lane l).sq.getD q.val []).length < n) →
       exec (.stq g pre sz off a q) s =
         .next (parkedAtWord s m1 io (maskOf io.act) ⟨0x60, BitVec.ofNat 64 q.val⟩)))

/-- R267, R272, R274 to R278: `PREF`, `FENCE` and the region words. A prefetch changes no committed value; a fence that
can complete at once has released and acquires, another waits in the fence list; a surrogate group's fence at package or system
scope marks the groups of its lanes (R114); `INVR` drops exactly the core's unregistered copies in the range; `WBR` writes back
exactly the words registered to the core in it; `REGW` registers the range, and does nothing over no bytes or in a surrogate
group; `ICINV` drops the range's lines from the instruction caches. -/
def Obligations.FenceAndRegionResults : Prop :=
  ∀ (g : Guard) (pre : Option Prefix) (fp : Prefix) (off : BitVec 12) (a b : Opnd) (s : State) (m m1 : Mach) (io : Io)
    (p : Prefix) (ps : List (Xlat × Nat)), io.act ≠ [] →
    let x := readOp s.dev m1 io.w io.lead 64 a
    let n := readOp s.dev m1 io.w io.lead 64 b
    let region := fun (i : Instr) (k : MemKind) => memInfo i g none k pre [(a, 64), (b, 64)] [] s.mach
    let range := mappedPieces s.dev m1 io.w x n
    let late := drainRange s.dev io range m1
    (let info := memInfo (.pref g pre off a) g none ⟨[.rlx], none, [.glb]⟩ pre [(a, 64)] [] s.mach
     Issues s info m io → ∃ m2, exec (.pref g pre off a) s = .next (landed s io info m2 []) ∧ m2.waves = m.waves ∧
       m2.coh.stores.map Store.tag = m.coh.stores.map Store.tag ∧ m2.groups.map Group.id = m.groups.map Group.id ∧
       (m.mem.wf = true → io.w.core < 256 → (∀ v k, m.coh.ownerCore v = some k → (m.coh.l1Of k v).isSome = true) → ∀ w, m.coh.lost w = false → m2.homeValue w = m.homeValue w)) ∧
    (let info := { shortInfo (.fence g fp) g [] [] [] with rel := releases fp.order }
     let m2 := releaseAt s.dev io.w.core fp.order fp.scope m
     Issues s info m io → fencePending m io = false →
     ((io.w.guarded = false ∨ arbited fp.scope = false) → exec (.fence g fp) s = .next (landed s io info
       (if releaseDone m2 io.w.core io.w.id (maskOf io.act) fp.order fp.scope = true ∧
           ¬ (fp.order = .sc ∧ arbited fp.scope = true) then
          (let m3 := acquireAt io.w.core fp.order fp.scope m2
           if fp.code = true ∧ acquires fp.order = true then m3.refetch io.w.core io.w.id else m3)
        else { m2 with coh := { m2.coh with fences := m2.coh.fences ++
          [⟨io.w.core, io.w.id, io.p.mask, fp.order, fp.scope, fp.code, none, none⟩] } }) [])) ∧
     (io.w.guarded = true → arbited fp.scope = true → exec (.fence g fp) s = .next (landed s io info
       (io.act.foldl (fun m l => surrogateConflict m io.w l) m) []))) ∧
    (let k : MemKind := ⟨[.rlx, .acq], none, [.glb]⟩
     let info := region (.invr g pre a b) k
     let fp := forcePrefix k pre io.w
     Issues s info m io → fencePending m io = false →
     m1 = (if fp.code && acquires fp.order then m.refetch io.w.core io.w.id else m) →
     let kept := fun (y : L1Word) => decide (y.core ≠ io.w.core) || y.reg || !inPieces range y.word
     exec (.invr g pre a b) s = .next (landed s io info { m1 with coh := { m1.coh with l1 := m1.coh.l1.filter kept } } [])) ∧
    (let k : MemKind := ⟨[.rlx, .rel], none, [.glb]⟩
     Reaches s (region (.wbr g pre a b) k) k pre m io p m1 →
     exec (.wbr g pre a b) s = .next (landed s io (region (.wbr g pre a b) k)
       (((late.coh.l1.filter fun y => y.core == io.w.core && y.reg && inPieces range y.word).map L1Word.word).foldl
         (fun m w => m.writeBack w true) late) [])) ∧
    (let k : MemKind := ⟨[.rlx], none, [.glb]⟩
     let info := region (.regw g pre a b) k
     let does := fun (m : Mach) => exec (.regw g pre a b) s = .next (landed s io info m [])
     Reaches s info k pre m io p m1 → (n = 0 → does m1) ∧
     (0 < n → translateRange s.dev m1 (coreDie io.w.core) io.w.asid (BitVec.ofNat 64 (x / 8 * 8))
         ((x + n + 7) / 8 * 8 - x / 8 * 8) .w false = .ok ps →
       (io.w.guarded = true → does m1) ∧
       (io.w.guarded = false → does (registerWords s.dev io.w ps (drainRange s.dev io ps m1))))) ∧
    (let k : MemKind := ⟨[.rlx], none, [.glb]⟩
     Reaches s (region (.icinv g pre a b) k) k pre m io p m1 → rangeOpen io range late = false →
     let within := fun (line : Nat) => ∃ i < 8, inPieces range (8 * line + i) = true
     ∃ kept, (∀ y, y ∈ kept ↔ y ∈ late.coh.icache ∧ ¬ within (y.pa / 64)) ∧
       exec (.icinv g pre a b) s = .next (landed s io (region (.icinv g pre a b) k)
         { late with coh := { late.coh with icache := kept } } []))

/-- R89, R91, R92, R106, R107, R113: a store or atomic in flight reaches its home. Where no earlier store of the core
to a word of it is in flight, the page's home is this module's HBM and nothing holds the page back, the home takes
the bytes (for an atomic, those that its operation makes of the old ones), every other word keeps its committed
value, and the store is no longer in flight. What follows in the same step counts ended waves (R420). R106: a store to a
replicated page is numbered at its sequencer, in the order of the stores that reach it, and waits there for every member; a
member applies it once, after the earlier stores of the group, and it is complete only when every member has applied it. -/
def Obligations.StoreAtHomeResults : Prop :=
  (∀ (s : State) (k : Nat) (x : Store) (t : Xlat), s.mach.mem.wf = true → s.mach.coh.stores[k]? = some x →
    s.mach.storeClear x = true → x.more = [] → x.core < 256 → storeHome s.dev s.mach x = .ok t → t.err = none →
    t.home = .hbm → x.pa + x.data.length ≤ hbmBytes → x.guarded = false → s.mach.frozen = [] →
    (∀ w, x.pa / 8 ≤ w → w ≤ (x.pa + x.data.length) / 8 → s.mach.coh.lost w = false) →
    let old := s.mach.homeBytes x.pa x.data.length
    let ok := fun (m : Mach) => (∀ y ∈ m.coh.stores, y.tag ≠ x.tag) ∧
      m.homeBytes x.pa x.data.length = x.newBytes old ∧
      ∀ w, (8 * w + 8 ≤ x.pa ∨ x.pa + x.data.length ≤ 8 * w) → m.homeValue w = s.mach.homeValue w
    (x.op = .write → ∃ m, exec (.storeAtHome k) s = .next { s with mach := reapWaves s.dev m } ∧ ok m) ∧
    (x.op ≠ .write → (x.newBytes old).length = x.data.length →
      ∃ m, exec (.atomicAtHome k) s = .next { s with mach := reapWaves s.dev m } ∧ ok m)) ∧
  ((∀ (s : State) (k : Nat) (x : Store) (t : Xlat) (g : Nat), s.mach.coh.stores[k]? = some x →
    s.mach.storeClear x = true → x.more = [] → storeHome s.dev s.mach x = .ok t → t.err = none → t.home = .rep g →
    ∃ m, exec (.sequencerStore k) s = .next { s with mach := reapWaves s.dev m } ∧ (∀ y ∈ m.coh.stores, y.tag ≠ x.tag) ∧
      m.coh.reps = s.mach.coh.reps ++ [⟨x.core, x.wave, x.lane, g, s.mach.coh.nextRep g, x.pa,
        x.newBytes (s.mach.repBytes x.pa x.data.length), []⟩] ∧ m.coh.nextRep g = s.mach.coh.nextRep g + 1) ∧
  (∀ (s : State) (member k : Nat) (r : RepStore), s.mach.coh.reps[k]? = some r → r.acked.contains member = false →
    (∀ x ∈ s.mach.coh.reps.take k, x.group = r.group → x.acked.contains member = true) →
    member ∈ repMembers s.dev s.mach r.group →
    let done := { s.mach with coh := { s.mach.coh with
      reps := updAt s.mach.coh.reps k fun x => { x with acked := x.acked ++ [member] } } }
    let here := if member = s.dev.att.modid.toNat then done.devWrite r.pa r.data else done
    exec (.replicaApply member k) s = .next { s with mach := settleReps s.dev r.group here }) ∧
  (∀ (d : Dev) (m : Mach) (g : Nat) (r : RepStore), r ∈ m.coh.reps →
    r.group ≠ g ∨ (∃ n ∈ repMembers d m g, r.acked.contains n = false) → r ∈ (settleReps d g m).coh.reps))

/-! ## Special registers, markers and raised faults (R331 to R348) -/

/-- R166, R345: `RDS` writes the value of the special register, the one that reading it as a source gives. R166, R175, R346:
`WRS` sets `%memdef`, `%step` and `%prio` where the value is legal, refuses a priority above the launch priority with fault
0x51, and raises fault 0x50 for another illegal value or a register that no `WRS` sets. R347: `ISYNC` drops the words that the wave has fetched, and `NOP` does nothing, whatever its guard. -/
def Obligations.SpecialRegisterResults : Prop :=
  (∀ (g : Guard) (r : Fin 17) (d : Opnd),
    let bits := if r.val = 4 ∨ (10 ≤ r.val ∧ r.val ≠ 15) then 64 else 32
    let val := fun (dv : Dev) (m : Mach) (w : Wave) (l : Nat) => match r.val with
      | 0 => (w.lane l).tid.toNat
      | 1 => l
      | 2 => w.id
      | 3 => (w.lane l).group.getD 0x1FF
      | 4 => w.gang.toNat
      | 5 => w.core
      | 6 => w.core / 64
      | 7 => dv.att.modid.toNat
      | 8 => w.width
      | 9 => if w.guarded then w.tol.toNat else 0
      | 12 => m.clock.toNat
      | 13 => w.memdef.toNat
      | 14 => w.step.toNat
      | 15 => w.prio.toNat
      | n => srVal dv m w l n
    writesOnly (.rds g r d) (shortInfo (.rds g r d) g [] [(d, bits)] [])
      (fun dv m io => perLane io bits d fun l => val dv m io.w l) ∧
    ∀ dv m w l n, readOp dv m w l n (.sr r) = val dv m w l % 2 ^ n) ∧
  (∀ (g : Guard) (r : Fin 17) (a : Opnd) (s : State) (m : Mach) (io : Io),
    let info := shortInfo (.wrs g r a) g [(a, 64)] [] []
    let x := readOp s.dev m io.w io.lead 64 a
    let sets := fun (f : Wave → Wave) =>
      exec (.wrs g r a) s = .next (landed s io info (m.updWave io.w.core io.w.id f) [])
    Issues s info m io → io.act ≠ [] →
      (r = 13 → memdefOk (BitVec.ofNat 64 x) = true → sets fun w => { w with memdef := BitVec.ofNat 64 x }) ∧
      (r = 14 → x < 4 → sets fun w => { w with step := BitVec.ofNat 64 x }) ∧
      (r = 15 → x ≤ io.w.launchPr.toNat → sets fun w =>
        { w with prio := BitVec.ofNat 3 x, savedPr := if w.fails = 0 then w.savedPr else BitVec.ofNat 3 x })) ∧
  (∀ (g : Guard) (r : Fin 17) (a : Opnd) (s : State) (m : Mach) (io : Io) (word : Nat),
    let x := readOp s.dev m io.w io.lead 64 a
    let info := shortInfo (.wrs g r a) g [(a, 64)] [] []
    Stands s info m io → io.illegal info = none → io.act ≠ [] →
      (r = 15 → io.w.launchPr.toNat < x → x < 8 →
        exec (.wrs g r a) s = .next (parkedAtWord s m io (maskOf io.act) ⟨0x51, 0⟩)) ∧
      (instrWord (.wrs g r a) = some word →
        (r ≠ 13 ∧ r ≠ 14 ∧ r ≠ 15) ∨ (r = 13 ∧ memdefOk (BitVec.ofNat 64 x) = false) ∨ (r = 14 ∧ 4 ≤ x) ∨
          (r = 15 ∧ 8 ≤ x) →
        exec (.wrs g r a) s = .next (parkedAtWord s m io (maskOf io.act) ⟨0x50, BitVec.ofNat 64 word⟩))) ∧
  (∀ (g : Guard) (s : State) (m : Mach) (io : Io),
    (Issues s (shortInfo (.isync g) g [] [] []) m io → io.act ≠ [] →
      exec (.isync g) s = .next (landed s io (shortInfo (.isync g) g [] [] [])
        (m.updWave io.w.core io.w.id fun w => { w with fetched := [] }) [])) ∧
    (Issues s (shortInfo (.nop g) g [] [] []) m io →
      exec (.nop g) s = .next (landed s io (shortInfo (.nop g) g [] [] []) m [])))

/-- R341, R342, R348: the markers. `CKPT` on a path that every runnable thread of the wave stands on notes its number and
starts the count of R341; elsewhere it does nothing. `RESID` in a guarded wave notes the greatest magnitude, or that a
NaN was reported, in the group of each acting lane; elsewhere it does nothing. `SNAP.cut` in an armed context, after
its release, is the wave's arrival; in a context that is not armed it raises fault 0x51. -/
def Obligations.MarkerResults : Prop :=
  (∀ (g : Guard) (n : BitVec 16) (s : State) (m : Mach) (io : Io),
    let info := shortInfo (.ckpt g n) g [] [] []
    let counts := !io.act.isEmpty && io.w.allOn io.p.mask
    let saving : Bool := match m.ctx io.w.asid with
      | some c => c.cstate == .saving
      | none => false
    Issues s info m io →
      (counts = false → exec (.ckpt g n) s = .next (landed s io info m [])) ∧
      (counts = true → exec (.ckpt g n) s = .next (landed s io info (m.updWave io.w.core io.w.id fun w =>
        { w with marker := some n.toNat, ckCount := 0, saved := if saving then some (some n.toNat) else w.saved }) []))) ∧
  (∀ (g : Guard) (a : Opnd) (s : State) (m : Mach) (io : Io),
    let info := shortInfo (.resid g a) g [(a, 32)] [] []
    let note := fun (m : Mach) (l : Nat) => match (io.w.lane l).group with
      | none => m
      | some k => m.updGroup io.w.core k fun x =>
        let mag := readFloat s.dev m io.w l .f32 a % 2 ^ 31
        { x with nanr := x.nanr || decide (0x7F800000 < mag)
                 residM := if mag ≤ 0x7F800000 then BitVec.ofNat 32 (max x.residM.toNat mag) else x.residM }
    Issues s info m io →
      (io.w.guarded = false → exec (.resid g a) s = .next (landed s io info m [])) ∧
      (io.w.guarded = true → exec (.resid g a) s = .next (landed s io info (io.act.foldl note m) []))) ∧
  (∀ (g : Guard) (s : State) (m : Mach) (io : Io) (c : Ctx) (w1 : Wave),
    let info := { shortInfo (.snap g) g [] [] [] with rel := true }
    let m1 := releaseAt s.dev io.w.core .rel .sys m
    (Stands s info m io → io.illegal info = none → io.act ≠ [] → m.ctx io.w.asid = none ∨ (io.w.guarded = false ∧ m.ctx io.w.asid = some c ∧
        c.snap.armed = false) →
      exec (.snap g) s = .next (parkedAtWord s m io (maskOf io.act) ⟨0x51, 0⟩)) ∧
    (Issues s info m io → io.act ≠ [] → m.ctx io.w.asid = some c →
      (io.w.guarded = true → exec (.snap g) s =
        .next (landed s io info (io.act.foldl (fun m l => surrogateConflict m io.w l) m) [])) ∧
      (io.w.guarded = false → c.snap.armed = true → io.w.snapped = false → fencePending m io = false →
        releaseDone m1 io.w.core io.w.id (BitVec.allOnes 64) .rel .sys = true → m1.wave io.w.core io.w.id = some w1 →
        ∃ m2, exec (.snap g) s = .next (landed s io info m2 []) ∧
          ((∃ k ∈ m1.groups, k.asid = io.w.asid ∧ k.handler = false ∧ k.guarded = false ∧ k.snapIn = false ∧
              k.core ≠ io.w.core) →
            m2.wave io.w.core io.w.id = some { w1 with snapped := true }))))

/-- R340: `FRAISE`, `TRAP` and `BRK` park their wave after the word with fault 0x72 or 0x71, their operand as ADDRESS
and, for `FRAISE`, their own priority, so that `PRETRY` issues the word again. R18, R23, R35, R38, R189: a word that
is not legal at its place parks its wave with fault 0x50 and the word as ADDRESS, a word with an operand above an
allotment parks it with fault 0x54, and neither changes a register. -/
def Obligations.RaisedFaultResults : Prop :=
  (∀ (g : Guard) (prio : Fin 8) (service : Fin 4096) (tag : BitVec 16) (a : Opnd) (s : State) (m : Mach) (io : Io),
    let x := readOp s.dev m io.w io.lead 64 a
    let parked := fun (info : WordInfo) (code : Nat) (addr : BitVec 64) (pr : Option Nat) =>
      exec info.instr s = .next { s with mach := markBack io.w.core io.w.id (parkWave s.dev
        (m.updWave io.w.core io.w.id fun w => w.issued io info (Eff.ok m []))
        (io.w.issued io info (Eff.ok m [])) io.p.mask io.p.mask (io.p.pc + 8) (io.p.seg + 1) (maskOf io.act)
        ⟨code, addr⟩ pr) }
    io.act ≠ [] →
      (let info := shortInfo (.fraise g prio a) g [(a, 64)] [] []
       Issues s info m io → x < 2 ^ 52 → parked info 0x72 (BitVec.ofNat 64 x) (some prio.val)) ∧
      (let info := shortInfo (.trap g service a) g [(a, 64)] [] []
       Issues s info m io → parked info 0x72 (BitVec.ofNat 64 (x % 2 ^ 52 + 2 ^ 52 * service.val)) none) ∧
      (let info := shortInfo (.brk g tag) g [] [] []
       Issues s info m io → parked info 0x71 (tag.setWidth 64) none)) ∧
  (∀ (g : Guard) (ty : Ty) (d a b : Opnd) (s : State) (m : Mach) (io : Io),
    let info := shortInfo (.add g ty d a b) g [(a, ty.regBits), (b, ty.regBits)] [(d, ty.regBits)] []
    let lanes := if io.act = [] then io.p.mask else maskOf io.act
    let above := (lanesOf io.w.width io.p.mask).filter fun l =>
      unallottedP io.w l g.pred.val || (io.act.contains l && (unallotted io.w l (a, ty.regBits) ||
        unallotted io.w l (b, ty.regBits) || unallotted io.w l (d, ty.regBits)))
    let after := m.updWave io.w.core io.w.id fun w => w.issuedPart io info (Eff.ok m []) (maskOf above)
    Stands s info m io →
      (∀ x, (24 ≤ io.p.seg ∨ io.p.fin.isSome = true ∨ (io.w.shadow = true ∧ ∃ n, d = .q n ∨ a = .q n ∨ b = .q n)) →
        instrWord (.add g ty d a b) = some x →
        exec (.add g ty d a b) s = .next (parkedAtWord s m io lanes ⟨0x50, BitVec.ofNat 64 x⟩)) ∧
      (io.p.seg < 24 → io.p.fin = none → io.w.shadow = false → above ≠ [] →
        ∃ w2, after.wave io.w.core io.w.id = some w2 ∧
          exec (.add g ty d a b) s = .next { s with mach := (parkWave s.dev after w2 (maskOf above) io.p.mask io.p.pc
            io.p.seg (maskOf above) ⟨0x54, 0⟩ none) } ∧
          w2.s = io.w.s ∧ ∀ l, (w2.lane l).v = (io.w.lane l).v ∧ (w2.lane l).c = (io.w.lane l).c ∧
            (w2.lane l).e = (io.w.lane l).e ∧ (w2.lane l).p = (io.w.lane l).p))

/-- R146, R148, R153, R156, R158: taking a fault. Where the context's table names a handler, a record is free and the
handler's queue has room and no task held for it, the record is written with the unit's state, the unit takes its handle, and one fault task
stands at TAIL of the queue with the record's handle, the code, the priority and the depth. R148, R149: the fields of a
wave's record stand at their bits. -/
def Obligations.TakingAFaultResults : Prop :=
  (∀ (d : Dev) (m m1 m2 m4 : Mach) (i : ParkInfo) (unit : Machine.PUnit) (pcs : List (Nat × BitVec 64))
    (mark : BitVec 64 → Mach → Mach) (c c3 : Ctx) (pick k idx : Nat) (q : BitVec 64) (h : QHdr),
    m.ctx i.asid = some c →
    let e := faultEntry d m i.asid c.faulttab i.code
    let depth := match i.depth with
      | none => 0
      | some n => n + 1
    let base := readVa64 d m i.asid (c.faulttab + 8)
    let count := bitsOf (readVa64 d m i.asid (c.faulttab + 16)).toNat 0 32
    let handle := base + BitVec.ofNat 64 (256 * k)
    let prio := match i.prio with
      | some p => p
      | none => if e.prio = 15 then defaultPrio i.code else e.prio
    let p : Parked := ⟨handle, i.asid, unit, i.code, depth, false, m2.disp.nextId, 0, pcs, [], [], BitVec.ofNat 64 i.tail,
      BitVec.ofNat 64 (i.tail / 2 ^ 128)⟩
    let m3 := pageRequest i.asid i.code i.addr
      (mark handle { m2 with disp := { m2.disp with parked := p :: m2.disp.parked } })
    depth ≤ 3 → e.queue ≠ 0 → m.choose count = (pick, m1) → freeRecord m1 i.asid base count depth pick = some k →
    writeVa d { m1 with freeCount := m1.freeCount + 1 } i.asid handle
      (toBytes 256 (recordBits d i depth prio (Config.stateHandle m1.freeCount))) true = some m2 →
    m3.ctx i.asid = some c3 → pickQueue d m3 i.asid e.queue (readVa64 d m3 i.asid c3.faulttab) = some (q, h) →
    h.count < h.cap → (∀ t ∈ m3.disp.ftasks, t.asid = i.asid → t.queue = q → t.slot ≠ none ∨ t.taken = true) →
    enqueueAt d m3 i.asid q h (taskEntry e.launch handle i.code prio depth e.budget e.deadline) = some (idx, m4) →
    takeFault d m i unit pcs mark = { m4 with disp := { m4.disp with
      ftasks := m4.disp.ftasks ++ [⟨m3.disp.nextId, handle, i.asid, q, e.launch, i.code, prio, depth, e.budget, e.deadline,
        if e.deadline = 0 then 0 else m3.usec + e.deadline, some idx, false, i.core / 64⟩]
      nextId := m3.disp.nextId + 1 } }) ∧
  (∀ (d : Dev) (i : ParkInfo) (depth prio : Nat) (sh : BitVec 32) (pcf pco maskf masko alive : BitVec 64) (seg : Nat),
    i.kind < 2 ^ 5 → depth < 4 → i.code < 2 ^ 8 → prio < 8 → i.core < 2 ^ 8 → i.group < 2 ^ 9 → i.wave < 2 ^ 8 →
    i.tag < 2 ^ 16 → seg < 32 →
    i.tail = pcf.toNat + 2 ^ 64 * maskf.toNat + 2 ^ 128 * pco.toNat + 2 ^ 192 * masko.toNat + 2 ^ 256 * alive.toNat
      + 2 ^ 320 * seg →
    let n := ofBytes (toBytes 256 (recordBits d i depth prio sh))
    bitsOf n 0 5 = i.kind ∧ bitsOf n 5 2 = depth ∧ bitsOf n 7 2 = 0 ∧ bitsOf n 16 8 = i.code ∧ bitsOf n 24 3 = prio ∧
    bitsOf n 32 16 = i.asid.toNat ∧ bitsOf n 48 14 = d.att.modid.toNat ∧ bitsOf n 64 8 = i.core ∧
    bitsOf n 72 9 = i.group ∧ bitsOf n 81 8 = i.wave ∧ bitsOf n 96 64 = i.addr.toNat ∧ bitsOf n 160 32 = sh.toNat ∧
    bitsOf n 192 64 = i.lanes.toNat ∧ bitsOf n 288 64 = pcf.toNat ∧ bitsOf n 352 64 = maskf.toNat ∧
    bitsOf n 416 64 = pco.toNat ∧ bitsOf n 480 64 = masko.toNat ∧ bitsOf n 544 64 = alive.toNat ∧ bitsOf n 608 5 = seg)

/-- R332 to R336: `SGET` reads the bytes of a state class of a live record at its offset, extended by the size, and
`SPUT` puts them there. What `SPUT` puts into the main, operand and echo registers and into the scalars is what
`SGET` then reads; a choice may hold the patch back first (log 99). A handle that names no record raises fault 0x02, and
for `SGET` one of a disposed record too. R154, R155, R332, R337, R338: the dispositions.
After its release at system scope a disposition of a live record acts on its unit: `PRESUME` and `PRETRY` resume it,
`PKILL` ends it, `PREDIR` forwards it as a new task. A disposed record is no error and nothing happens; a handle that
names no record raises fault 0x02. A disposed record leaves the table; a killed store is dropped, and `PRESUME`
leaves a store's record as it is; a resumed wave whose threads keep their places is parked no more. -/
def Obligations.ParkedStateResults : Prop :=
  ((∀ (g : Guard) (la : Fin 16) (sz : Sz) (off : BitVec 12) (d b : Opnd) (n : Fin 64) (s : State)
    (m m1 m2 m3 : Mach) (io : Io) (p : Parked) (bs : List Byte) (late : Nat),
    let srcs := [((Opnd.s n, 64) : Opnd × Nat), (.s (Fin.ofNat 64 (n.val + 1)), 64)]
    let get := longInfo (.sget g la sz off d n) g la srcs [(d, sz.regBits)]
    let put := shortInfo (.sput g sz off n b) g (srcs ++ [(b, sz.regBits)]) [] []
    let h := io.w.s.getD n.val 0
    let so := wrapTo 32 ((io.w.s.getD (n.val + 1) 0).toNat + off.toInt)
    let lo := bitsOf so 0 16
    let named := io.act ≠ [] ∧ checkHandle s.dev m (io.w.core / 64) io.w.asid h = .live p ∧ so % sz.bytes = 0 ∧ bitsOf so 22 2 = 0 ∧
      stateClass s.dev m p (bitsOf so 24 8) (bitsOf so 16 6) = some bs ∧ lo + sz.bytes ≤ bs.length
    (Issues s get m io → named → exec (.sget g la sz off d n) s =
      .next (wrote s m io get (perLane io sz.regBits d fun _ => loadedAs sz ((bs.drop lo).take sz.bytes)))) ∧
    (Issues s get m io → io.act ≠ [] → checkHandle s.dev m (io.w.core / 64) io.w.asid h = .bad ∨
        checkHandle s.dev m (io.w.core / 64) io.w.asid h = .disposed →
      exec (.sget g la sz off d n) s = .next (parkedAtWord s m io (maskOf io.act) ⟨0x02, h⟩)) ∧
    (let patched := fun (m : Mach) => patchState s.dev m p (bitsOf so 24 8) (bitsOf so 16 6)
        (bs.take lo ++ toBytes sz.bytes (readOp s.dev m io.w io.lead sz.regBits b) ++ bs.drop (lo + sz.bytes))
     Issues s put m io → named → patched m = .ok m3 → m.choose 2 = (late, m1) → patched m1 = .ok m2 →
      (late = 0 → exec (.sput g sz off n b) s = .next (landed s io put m2 [])) ∧
      (late = 1 → exec (.sput g sz off n b) s = .next { s with mach := stallPath m1 io none }))) ∧
  (∀ (m m2 : Mach) (p : Parked) (w : Wave) (cls lane : Nat) (old bs : List Byte),
    m.wave w.core w.id = some w → cls = 1 ∨ cls = 2 ∨ cls = 3 ∨ cls = 6 → waveClass m p w cls lane = some old →
    bs.length = old.length → patchWave m p w cls lane bs = .ok m2 →
    ∃ w2, m2.wave w.core w.id = some w2 ∧ waveClass m2 p w2 cls lane = some bs)) ∧
  ((∀ (g : Guard) (n : Fin 64) (b c : Opnd) (s : State) (m : Mach) (io : Io) (p : Parked),
    let h := io.w.s.getD n.val 0
    let m1 := releaseAt s.dev io.w.core .rel .sys m
    let info := fun (i : Instr) (srcs : List (Opnd × Nat)) => { shortInfo i g ((.s n, 64) :: srcs) [] [] with rel := true }
    let acts := fun (i : Instr) (srcs : List (Opnd × Nat)) (f : Mach → Mach) =>
      Issues s (info i srcs) m io → io.act ≠ [] →
        (checkHandle s.dev m (io.w.core / 64) io.w.asid h = .bad →
          exec i s = .next (parkedAtWord s m io (maskOf io.act) ⟨0x02, h⟩)) ∧
        (fencePending m io = false → releaseDone m1 io.w.core io.w.id io.p.mask .rel .sys = true →
          (checkHandle s.dev m (io.w.core / 64) io.w.asid h = .disposed → exec i s = .next (landed s io (info i srcs) m1 [])) ∧
          (checkHandle s.dev m (io.w.core / 64) io.w.asid h = .live p → staleTask m1 io.w p = false →
            exec i s = .next (landed s io (info i srcs) (f m1) [])))
    let q := fun (m : Mach) => BitVec.ofNat 64 (readOp s.dev m io.w io.lead 64 b)
    let lr := fun (m : Mach) => BitVec.ofNat 64 (readOp s.dev m io.w io.lead 64 c)
    acts (.presume g n) [] (applyRecord s.dev p false) ∧ acts (.pretry g n) [] (applyRecord s.dev p true) ∧
    acts (.pkill g n) [] (killRecord s.dev p) ∧
    ((lr m).toNat % 128 = 0 → (∀ x, readHdr s.dev m io.w.asid (q m) = some x → x.host = false) →
      acts (.predir g n b c) [(b, 64), (c, 64)] fun m => redirect s.dev p (q m) (lr m) m)) ∧
  (∀ (d : Dev) (p : Parked) (m : Mach) (tag : Nat),
    (dispose d p m).parkedAt p.asid p.handle = none ∧
    (p.unit = .store tag → applyRecord d p false m = m ∧ ∀ x ∈ (killRecord d p m).coh.stores, x.tag ≠ tag)) ∧
  (∀ (d : Dev) (p : Parked) (m : Mach) (again : Bool) (w w1 : Wave), p.unit = .wave w.core w.id →
    m.wave w.core w.id = some w → (dispose d p m).wave w.core w.id = some w1 →
    w.deferred.find? Deferred.raised = none →
    (∀ x ∈ resumePcs d (dispose d p m) p w again, x.2.1 = x.2.2) →
    ∃ w2, (applyRecord d p again m).wave w.core w.id = some w2 ∧ w2.parked = none))

/-! ## Trailers (R18 to R23, R218 to R223) -/

/-- R20, R22, R176, R218 to R223: the trailers. Each thread of the path goes to its successor: the word after the trailer, a
target by an offset of words from the trailer, an entry of a jump table, or the top of its call stack, which `CALL`
pushes and `RET` pops. `LOOPN` counts down and goes to its target while the count is not zero. A thread begins there
with zero echo registers, at once where the classes that the trailer awaits have drained. `EXIT` whose classes have
drained takes the lanes out of their groups, as `LEAVE` does, and ends them; it waits while they have not, or while a
group's commands are unsettled. -/
def Obligations.TrailerResults : Prop :=
  (∀ (aw : BitVec 5) (q : Fin 8) (sense : Bool) (offa offb : BitVec 19) (len1 : BitVec 12) (x : Opnd) (s : State)
    (m : Mach) (w : Wave) (p : Path),
    let to_ := fun (off : BitVec 19) => BitVec.ofInt 64 ((p.pc.toNat : Int) + 8 * off.toInt)
    let goes := fun (i : Instr) (srcs : List (Opnd × Nat)) (preds : List Nat) (m2 : Mach) (f : Nat → BitVec 64) =>
      AtTrailer s i aw srcs preds m w p → exec i s = .next (wentTo s m2 w p aw (lanesTo w p f))
    let ls := lanesOf w.width p.mask
    let count := fun (l : Nat) => (readOp s.dev m w l 32 x + (2 ^ 32 - 1)) % 2 ^ 32
    let low := (w.s.getD (match x with
      | .s n => n.val
      | _ => 0) 0).toNat
    let counted := fun (v : Wave) => match x with
      | .s n => { v with s := v.s.set n.val (BitVec.ofNat 64 (low - low % 2 ^ 32 + count (ls.headD 0))) }
      | o => v.puts (laneOuts 32 o (ls.map fun l => (l, count l)))
    let put := fun (f : Wave → Wave) => m.updWave w.core w.id f
    goes (.next aw) [] [] m (fun _ => p.pc + 8) ∧
    goes (.brp aw q sense offa offb) [] [q.val] m (fun l =>
      if (w.lane l).pred q.val = sense then to_ offb else to_ offa) ∧
    ((∀ l ∈ ls, (w.lane l).stack.length < 32) → goes (.call aw offa) [] []
      (put fun v => v.updLanes p.mask fun y => { y with stack := (p.pc + 8) :: y.stack }) fun _ => to_ offa) ∧
    ((∀ l ∈ ls, (w.lane l).stack ≠ []) → goes (.ret aw) [] []
      (put fun v => v.updLanes p.mask fun y => { y with stack := y.stack.tail }) fun l => (w.lane l).stack.headD 0) ∧
    goes (.loopn aw x offa) [(x, 32)] [] (put counted) (fun l => if count l = 0 then p.pc + 8 else to_ offa) ∧
    (∀ (e : Nat → Int) (mt : Mach),
      (ls.filter fun l => decide (readOp s.dev m w l 32 x ≤ len1.toNat)).foldl (fun (r : Bool × Mach) l =>
        match tableEntry s.dev r.2 w (to_ offa) (readOp s.dev m w l 32 x) with
        | (.ok y, m2) => (r.1 && y == e l, m2)
        | (.error _, m2) => (false, m2)) (true, m) = (true, mt) →
      goes (.jidx aw x offa len1) [(x, 32)] [] mt (fun l =>
        if readOp s.dev m w l 32 x ≤ len1.toNat then BitVec.ofInt 64 ((to_ offa).toNat + 8 * e l) else p.pc + 8))) ∧
  (∀ (s : State) (aw : BitVec 5) (m m2 : Mach) (w : Wave) (p : Path) (moved : Bool),
    let ls := lanesOf w.width p.mask
    let holds := fun (m : Mach) (xs : List Waiting) => (dropPath w.core w.id p.mask m).updWave w.core w.id fun w =>
      { w with waits := w.waits.filter (fun y => y.path.mask != p.mask) ++ xs }
    let ends := fun (m : Mach) => (dropPath w.core w.id p.mask m).updWave w.core w.id fun w =>
      { w with waits := w.waits.filter (fun y => y.path.mask != p.mask), ckCount := min 33 (w.ckCount + 1) }
    AtTrailer s (.exit aw) aw [] [] m w p →
      (drained m w p.mask (aw ||| 15) = true → leaveLanes s.dev w.core w.id ls m = ⟨m2, false, false, moved⟩ →
        exec (.exit aw) s = .next { s with mach := (endLanes s.dev w.core w.id ls
          (ends (if moved then clearGang w.core w.id m2 else m2))) }) ∧
      (drained m w p.mask (aw ||| 15) = true → leaveLanes s.dev w.core w.id ls m = ⟨m2, true, false, moved⟩ →
        exec (.exit aw) s = .next { s with mach := holds m2 [⟨p, .exit (aw ||| 15)⟩] }) ∧
      (drained m w p.mask (aw ||| 15) = false →
        exec (.exit aw) s = .next { s with mach := holds m [⟨p, .exit (aw ||| 15)⟩] })) ∧
  (∀ (s : State) (m : Mach) (w : Wave) (p : Path) (aw : BitVec 5) (f : Nat → BitVec 64) (l : Nat),
    m.wave w.core w.id = some w → l ∈ lanesOf w.width p.mask → l < w.lanes.length →
    ∃ w2, (wentTo s m w p aw (lanesTo w p f)).mach.wave w.core w.id = some w2 ∧ (∀ q ∈ w2.paths, q.mask ≠ p.mask) ∧
      w2.lane l = { w.lane l with
        pc := f l, target := true, e := [0, 0, 0, 0]
        st := if drained m w p.mask aw then .run else .drain aw p.mask })

/-! ## Issue stages, groups and waits (R24 to R51, R281 to R293) -/

/-- R25, R166: one cycle of an issue stage. `%clock` counts it, memory and the device blocks stay as they are, and
the stage selects the issuing paths of at most one wave that holds a slot of the stage: none of a higher priority
could have issued. R24, R27: an address that has waited 64 cycles is promoted, a path that has waited 256 cycles at
an interlock leaves its segment context with its threads; its word is tried when its interlock may have cleared, and it joins
path choice again where the word would wait no longer. R36,
R42, R43, R288, R290: the events that end a wait. A nap, a poll's back-off or a request whose time has passed ends,
and not before; a woken or expired `WAITW` reads its words again and writes its predicate; the oldest request is
granted when the pool holds it. The path leaves the waits of its wave and stands at its trailer again. -/
def Obligations.IssueStageResults : Prop :=
  ((∀ (core stage : Nat) (s : State), ∃ t, exec (.issueCycle core stage) s = .next t ∧ t.dev = s.dev ∧ t.svc = s.svc ∧
    t.mach.clock = s.mach.clock + 1 ∧ t.mach.mem = s.mach.mem ∧ t.mach.coh = s.mach.coh ∧ t.mach.ctxs = s.mach.ctxs ∧
    (t.mach.latch = s.mach.latch ∨ ∃ w ∈ t.mach.waves, w.onStage core stage = true ∧ w.live = true ∧
      t.mach.latch = s.mach.latch ++ (w.paths.filter Path.canIssue).map (fun p => .path core w.id p.mask) ∧
      ∀ v ∈ t.mach.waves, v.onStage core stage = true → v.live = true → saveTaken t.mach v = false →
        v.paths.any Path.canIssue = true → v.prio ≤ w.prio)) ∧
  (∀ (w : Wave) (s : State) (a : BitVec 64) (k : Nat) (p : Path), s.mach.wave w.core w.id = some w →
    let waiting := w.paths.filter fun q => !q.canIssue
    (64 ≤ w.ageOf a → w.promoted.contains a = false →
      wave1 (.addressPromoted w.core w.id a) s w { w with promoted := w.promoted ++ [a] }) ∧
    (w.ageOf a < 64 → wave1 (.addressPromoted w.core w.id a) s w w) ∧
    (w.paths[k]? = some p → 256 ≤ p.stall → wave1 (.setAside w.core w.id k) s w { w with
      paths := w.paths.filter fun q => q.mask != p.mask, aside := w.aside ++ [{ p with stall := 0 }] }) ∧
    (w.paths[k]? = some p → p.stall < 256 → wave1 (.setAside w.core w.id k) s w w) ∧
    (waiting[k]? = some p → wave1 (.interlockCleared w.core w.id k) s w { w with
      paths := w.paths.map fun q => if q.mask = p.mask then { q with retry := true } else q }) ∧
    (w.aside[k]? = some p → ∃ f, exec (.interlockCleared w.core w.id (waiting.length + k)) s =
        .next { s with mach := { s.mach.updWave w.core w.id f with
          latch := s.mach.latch ++ [.probe w.core w.id p.mask] } } ∧
      f w = { w with aside := w.aside.map fun q => if q.mask = p.mask then { q with retry := true } else q })) ∧
  (∀ (g : Guard) (ty : Ty) (d a b : Opnd) (s : State) (w : Wave) (p : Path), s.mach.probing = true →
    s.mach.curPath = some (w, p) →
    let info := shortInfo (.add g ty d a b) g [(a, ty.regBits), (b, ty.regBits)] [(d, ty.regBits)] []
    let r := settleWindows w p
    let io : Io := ⟨r.1, r.2, guardLanes w p.mask g⟩
    let holds := preFault s.dev s.mach io info = none ∧
      (io.retryWait info = true ∨ queueStall r.1 io.act info.srcs info.dsts = true)
    (holds → exec (.add g ty d a b) s = .next s) ∧
    (¬ holds → exec (.add g ty d a b) s = .next { s with mach := rejoinPath s.mach w p }))) ∧
  ((∀ (s : State) (w : Wave) (k t : Nat) (x : Waiting), s.mach.wave w.core w.id = some w → w.parked = none →
    w.ended = false → w.waits[k]? = some x →
    let over_ := fun (i : Instr) => wave1 i s w
      { w with waits := w.waits.filter (fun y => y.path.mask != x.path.mask), resume := w.resume ++ [{ x.path with fin := none }] }
    let at_ := fun (i : Instr) => (t ≤ s.mach.clock.toNat → over_ i) ∧ (s.mach.clock.toNat < t → exec i s = .next s)
    (x.what = .nap t → at_ (.napEnd w.core w.id k)) ∧ (x.what = .poll t → at_ (.pollbNapEnd w.core w.id k)) ∧
    (∀ d n ls o, x.what = .grow d n ls (some t) o →
      let refused := answerGrow w.core ⟨w.id, x.path.mask, d, n, ls, o⟩ false s.mach
      (t ≤ s.mach.clock.toNat → exec (.growTimeout w.core w.id k) s = .next { s with mach := refused }) ∧
      (s.mach.clock.toNat < t → exec (.growTimeout w.core w.id k) s = .next s)) ∧
    (∀ d n pre reads hs u tm wk m1 m2 (bs : Nat → List Byte),
      x.what = .waitw d n pre reads hs u tm wk → wk ≠ .restored →
      orderBefore s.dev s.mach ⟨w, { x.path with pc := x.path.pc - BitVec.ofNat 64 (8 * u) }, reads.map Prod.fst⟩ pre =
        (m1, false) →
      let val := fun (l : Nat) => ((reads.find? fun r => r.1 == l).map fun r => r.2.2).getD 0
      let addr := fun (l : Nat) => ((((reads.find? fun r => r.1 == l).map fun r => r.2.1.toNat).getD 0 : Nat) : Int)
      gatherLoads s.dev w pre.space n true addr (reads.map Prod.fst) m1 =
        ⟨m2, reads.map fun r => (r.1, bs r.1), [], [], false⟩ →
      let woken := fun (i : Instr) => ∃ f,
        exec i s = .next { s with mach := endWait w.core w.id x (m2.updWave w.core w.id f) } ∧
        f w = { w.puts (predOuts d.val (reads.map fun r => (r.1, decide (ofBytes (bs r.1) ≠ (val r.1).toNat)))) with
          deferred := w.deferred }
      woken (.waitwWake w.core w.id k) ∧
      (∀ t, tm = some t → t ≤ s.mach.clock.toNat → woken (.waitwTimeout w.core w.id k)) ∧
      (∀ t, tm = some t → s.mach.clock.toNat < t → exec (.waitwTimeout w.core w.id k) s = .next s))) ∧
  (∀ (s : State) (core : Nat) (r : GrowReq) (w : Wave), r ∈ growPending s.mach core →
    (∀ q ∈ growPending s.mach core, q ≠ r → r.order < q.order) → s.mach.wave core r.wave = some w →
    (growFits s.mach core w r.count = true →
      exec (.growGrant core) s = .next { s with mach := answerGrow core r true s.mach }) ∧
    (growFits s.mach core w r.count = false → exec (.growGrant core) s = .next s)) ∧
  (∀ (m : Mach) (w : Wave) (r : GrowReq) (yes : Bool), m.wave w.core w.id = some w → r.wave = w.id →
    ∃ w2, (answerGrow w.core r yes m).wave w.core w.id = some w2 ∧
      (∀ l ∈ r.lanes, l < w.lanes.length → r.dst ≠ 7 → r.dst.val < (w.lane l).p.length → (w2.lane l).p[r.dst.val]? = some yes) ∧
      (yes = true → w.vAllot < r.count → ∀ l, l < w.lanes.length → (w.lane l).st ≠ .empty →
        (w2.lane l).v.length = r.count) ∧
      ∀ x ∈ w2.waits, x.path.mask = r.mask → ∀ d n ls t o, x.what ≠ .grow d n ls t o))

/-- R20, R21, R46, R147, R168, R263: the ends of what a wave has outstanding. The results of ended windows are written; a
deferred fault's report arrives; a store's home reports a fault and the store is parked; a wave that may resume takes a
free slot that the pool can hold it in, or else that of the first wave in the order of eviction that only waits and whose
going out makes room; a retried operation that had to wait is tried again; a path's lanes go on when the classes that they
await have drained. -/
def Obligations.PendingWorkResults : Prop :=
  (∀ (w w2 : Wave) (s : State) (k : Nat) (p p2 : Path), s.mach.wave w.core w.id = some w →
    ((w.paths ++ w.aside ++ w.resume)[k]? = some p → settleWindows w p = (w2, p2) →
      let put := fun (xs : List Path) => xs.map fun q => if q.mask = p.mask then p2 else q
      wave1 (.resultWriteback w.core w.id k) s w
        { w2 with paths := put w.paths, aside := put w.aside, resume := put w.resume } ∧
      w2 = { w.puts ((p.windows.filter fun x => x.left == 0).map Window.writes).flatten with deferred := w2.deferred } ∧
      p2 = { p with windows := p.windows.filter fun x => x.left != 0 }) ∧
    (∀ x, w.deferred[k]? = some x →
      (x.again = false → wave1 (.deferredFaultReport w.core w.id k) s w
        { w with deferred := w.deferred.mapIdx fun i x => if i = k then { x with reported := true } else x }) ∧
      (x.again = true → ∃ f, exec (.deferredFaultReport w.core w.id k) s =
        .next { s with mach := retryDeferred s.dev w x (s.mach.updWave w.core w.id f) } ∧
        f w = { w with deferred := w.deferred.filter fun y => y != x })) ∧
    (w.parked = none → w.evicted = false → (∀ x ∈ w.waits, ∀ cls, x.what ≠ .exit cls) →
      ∃ f, exec (.awaitDrained w.core w.id) s = .next { s with mach := reapWaves s.dev (s.mach.updWave w.core w.id f) } ∧
        f w = { w with lanes := w.lanes.map fun x => match x.st with
          | .drain cls mask => if drained s.mach w mask cls then { x with st := .run } else x
          | _ => x })) ∧
  (∀ (w : Wave) (s : State) (n : Nat), s.mach.wave w.core w.id = some w → w.awaitsSlot = true →
    let m := s.mach
    let takes := fun (w : Wave) (n : Nat) => ({ w with slot := some n, evicted := false } : Wave)
    let fits := fun (m : Mach) (n : Nat) =>
      freeSlot m w.core (mayStock m w) (mateSlot m w) = some n ∧ poolFits m w = true
    let out := fun (v : Wave) => m.updWave w.core v.id fun v => { v with slot := none, evicted := true }
    let best := bestOf evictBetter (m.waves.filter fun v => v.core == w.core && v.id != w.id && v.evictable &&
      (seatFree w (out v)).isSome)
    (fits m n → wave1 (.waveResume w.core w.id) s w (takes w n)) ∧
    ((∀ n, ¬ fits m n) →
      (best = none → exec (.waveResume w.core w.id) s = .next s) ∧
      (∀ v, best = some v → fits (out v) n → exec (.waveResume w.core w.id) s =
        .next { s with mach := (out v).updWave w.core w.id fun w => takes w n }))) ∧
  (∀ (s : State) (k : Nat) (x : Store) (code : BitVec 8), s.mach.coh.stores[k]? = some x → x.record = none →
    (code = 0x10 ∨ code = 0x11 ∨ code = 0x30 ∨ code = 0x31 ∨ (code = 0x02 ∧ isHost x.pa = true)) →
    exec (.storeFaultReport k code) s = .next { s with mach := parkStore s.dev x code.toNat s.mach }) ∧
  (∀ (s : State) (core group wave n : Nat) (g : Group), s.mach.group core group = some g → g.dissolve = some (wave, n) →
    exec (.groupDissolve core group) s = .next { s with mach := drainWave s.dev core wave s.mach }) ∧
  (∀ (d : Dev) (m : Mach) (w : Wave) (x : Waiting) (cls : BitVec 5), m.wave w.core w.id = some w → w.parked = none →
    w.evicted = false → w.waits = [x] → x.what = .exit cls →
    ∃ f, drainWave d w.core w.id m = finishExit d w.core w.id x.path cls (m.updWave w.core w.id f) ∧
      (f w).waits = w.waits ∧ (f w).deferred = w.deferred)

/-- R29, R30, R281 to R287: the group words. `GNEW` forms a group of the acting lanes with its resources, barriers at phase
0 with those lanes as members and clear accumulators, and returns its number, or 0x1FF where the core lacks a number or
the resources; `JOIN` moves lanes to a group, and does nothing to those that belong to it; `LEAVE` takes lanes out of
their groups; each clears the gang of the wave whose lanes move. `GANG` sets a valid gang list. A group whose last
member leaves dissolves. -/
def Obligations.GroupWordResults : Prop :=
  (∀ (g : Guard) (d a : Opnd) (s : State) (m m1 : Mach) (io : Io) (alloc : GDesc) (id : Nat) (grp : Group),
    let lead := fun (n : Nat) => readOp s.dev m io.w io.lead n a
    let left := fun (ls : List Nat) => ∃ moved, leaveLanes s.dev io.w.core io.w.id ls m = ⟨m1, false, false, moved⟩
    let moves := fun (m : Mach) (ls : List Nat) (f : Lane → Lane) =>
      clearGang io.w.core io.w.id (m.updWave io.w.core io.w.id fun w => w.updLanes (maskOf ls) f)
    io.act ≠ [] →
      (let info := shortInfo (.gnew g d a) g [(a, 64)] [(d, 32)] []
       Issues s info m io → gdescOf (lead 64) = some alloc →
         ((freeGroup m io.w.core = none ∨ poolHolds m io.w.core alloc = false) →
           exec (.gnew g d a) s = .next (landed s io info (keepGroups io.w.core io.w.id io.act m) (perLane io 32 d fun _ => 0x1FF))) ∧
         (freeGroup m io.w.core = some id → poolHolds m io.w.core alloc = true → left io.act →
           let fresh : Group := { newGroup io.w.core id m1.freeCount io.w.asid alloc (io.act.map fun l => (io.w.id, l)) with
             task := io.w.task, gindex := io.w.gindex, guarded := io.w.guarded, handler := io.w.record.isSome,
             depth := io.w.depth, record := io.w.record }
           let m2 := { m1 with groups := m1.groups ++ [fresh], freeCount := m1.freeCount + 1 }
           let m3 := match io.w.task with
             | some t => m2.updTask t fun t => { t with live := t.live + 1 }
             | none => m2
           exec (.gnew g d a) s = .next (wrote s (moves m3 io.act fun x =>
             { x with group := some id, arrived := List.replicate 16 none }) io info (perLane io 32 d fun _ => id)))) ∧
      (let info := shortInfo (.join g a) g [(a, 32)] [] []
       let n := lead 32
       let ls := io.act.filter fun l => (io.w.lane l).group != some n
       Issues s info m io →
         ((511 ≤ n ∨ m.group io.w.core n = none) → exec (.join g a) s =
           .next (parkedAtWord s m io (maskOf io.act) ⟨0x02, BitVec.ofNat 64 n⟩)) ∧
         (n < 511 → m.group io.w.core n = some grp →
           (ls = [] → exec (.join g a) s = .next (landed s io info m [])) ∧
           (ls ≠ [] → grp.dissolve = none → left ls → exec (.join g a) s = .next (landed s io info (moves m1 ls fun y =>
             if y.group.isSome then y else { y with group := some n, arrived := List.replicate 16 none }) [])))) ∧
      (let info := shortInfo (.leave g) g [] [] []
       let ls := io.act.filter fun l => (io.w.lane l).group.isSome
       Issues s info m io →
         (ls = [] → exec (.leave g) s = .next (landed s io info m [])) ∧
         (ls ≠ [] → left ls → exec (.leave g) s = .next (landed s io info (clearGang io.w.core io.w.id m1) [])) ∧
         (∀ moved, ls ≠ [] → leaveLanes s.dev io.w.core io.w.id ls m = ⟨m1, false, true, moved⟩ → exec (.leave g) s =
           .next (parkedAtWord s (if moved then clearGang io.w.core io.w.id m1 else m1) io (maskOf io.act) ⟨0x62, 0⟩))) ∧
      (let info := shortInfo (.gang g a) g [(a, 64)] [] []
       Issues s info m io → pathGroup m io = .ok grp → productsOpen m io.w (BitVec.allOnes 64) = false →
         (∀ x, gangList m io.w (BitVec.ofNat 64 (lead 64)) = some x → exec (.gang g a) s = .next (landed s io info
           (m.updWave io.w.core io.w.id fun w => { w with gang := x, gangDead := false }) [])) ∧
         (gangList m io.w (BitVec.ofNat 64 (lead 64)) = none → exec (.gang g a) s =
           .next (parkedAtWord s m io (maskOf io.act) ⟨0x53, 0⟩)))) ∧
  (∀ (d : Dev) (core g : Nat) (killed : Bool) (m : Mach), (dissolve d core g killed m).group core g = none) ∧
  (∀ (core id gen : Nat) (asid : BitVec 16) (alloc : GDesc) (ms : List (Nat × Nat)) (b : Nat),
    let g := newGroup core id gen asid alloc ms
    (b < alloc.bars → g.bars[b]? = some ⟨0, ms, [], []⟩) ∧ (b < alloc.acc → g.accs[b]? = some ⟨clearAcc 16, [], []⟩) ∧
    g.tiles = [] ∧ g.cmds = [])

/-- R31, R286: the barriers. Lanes of groups that have the barrier arrive; `BARA` goes on, `BAR` waits at its trailer
for the phases of its lanes that are not complete, and `BARW` waits without arriving. A phase ends exactly when every
thread that was a member at its start has arrived: then the next begins with the members of now and the early
arrivals. R23, R42 to R44, R67, R290: a path whose segment-final word waits for something waits at its trailer: the
trailer does not issue, and the path stands in the waits of its wave, a time counted from now. A path that yields
gives up its turn and issues its trailer; one whose barrier is complete in every lane issues it; otherwise the lanes
that wait stay. -/
def Obligations.BarrierResults : Prop :=
  ((∀ (g : Guard) (b : Fin 16) (s : State) (m : Mach) (io : Io), io.act ≠ [] → barFaults m io b.val = [] →
    let info := fun (i : Instr) => shortInfo i g [] [] []
    let m1 := arriveLanes io b.val io.act m
    let fin := fun (m : Mach) => some (.barrier b.val (barWaiters m io.w.core io.w.id b.val io.act))
    ((∀ l ∈ io.act, openArrival m io.w b.val l = none) →
      (Issues s (info (.bara g b)) m io → exec (.bara g b) s = .next (landed s io (info (.bara g b)) m1 [])) ∧
      (Issues s (info (.bar g b)) m io → exec (.bar g b) s =
        .next (issued s io (info (.bar g b)) { Eff.ok m1 [] with fin := fin m1 }))) ∧
    (Issues s (info (.barw g b)) m io → exec (.barw g b) s =
      .next (issued s io (info (.barw g b)) { Eff.ok m [] with fin := fin m }))) ∧
  (∀ (b : Barrier) (t : Nat × Nat) (now : List (Nat × Nat)), t ∈ b.members → t ∉ b.arrived →
    let b1 := (b.arrive t).1
    (b.arrive t).2 = b.phase ∧
    ((∀ x ∈ b.members, x = t ∨ x ∈ b.arrived) → b1.settle now 1 = ⟨b.phase + 1, now, b.early, []⟩) ∧
    ((∃ x ∈ b.members, x ≠ t ∧ x ∉ b.arrived) → ∀ n, b1.settle now n = { b with arrived := b.arrived ++ [t] })) ∧
  (∀ (b : Barrier) (t : Nat × Nat), t ∉ b.members ∨ t ∈ b.arrived →
    b.arrive t = ({ b with early := b.early ++ [t] }, b.phase + 1))) ∧
  (∀ (s : State) (aw : BitVec 5) (m : Mach) (w : Wave) (p : Path) (what : WaitFor),
    TrailerMet s (.next aw) aw [] [] m w p → p.fin = some what →
      let waits := fun (x : WaitFor) => exec (.next aw) s = .next { s with mach := m.updWave w.core w.id fun w =>
        { w with paths := w.paths.filter fun q => q.mask != p.mask, waits := w.waits ++ [⟨p.part p.mask, x⟩] } }
      let now := m.clock.toNat
      (∀ n, what = .nap n → waits (.nap (now + n))) ∧ (∀ n, what = .poll n → waits (.poll (now + n))) ∧
      (∀ t cup named seen, what = .tile t cup named seen → waits what) ∧
      (∀ d n ls k o, what = .grow d n ls (some k) o → waits (.grow d n ls (some (now + k)) o)) ∧
      (∀ d n pre rs hs u k x, what = .waitw d n pre rs hs u k x →
        waits (.waitw d n pre rs hs u (k.map fun k => now + k) x)) ∧
      (∀ b ls, what = .barrier b ls → maskOf ((barWaiters m w.core w.id b (ls.map Prod.fst)).map Prod.fst) = p.mask →
        waits (.barrier b (barWaiters m w.core w.id b (ls.map Prod.fst)))) ∧
      (w.step.getLsbD 0 = false → p.windows = [] → w.ended = false →
        (what = .done ∨ (∃ b ls, what = .barrier b ls ∧ barWaiters m w.core w.id b (ls.map Prod.fst) = [])) →
        exec (.next aw) s = .next (wentTo s m w p aw (lanesTo w p fun _ => p.pc + 8))) ∧
      (w.step.getLsbD 0 = false → p.windows = [] → w.ended = false → what = .yield →
        exec (.next aw) s = .next (wentTo s ({ m with turnNo := m.turnNo + 1 }.updWave w.core w.id fun w =>
          { w with turn := m.turnNo + 1 }) w p aw (lanesTo w p fun _ => p.pc + 8))))

/-- R36, R42 to R44, R288 to R293: the words that wait, and the register requests. `WAITW` and `POLLB` read their words and
write their predicate; a `WAITW` whose words all equal their values waits from its trailer on, and a `POLLB` whose
condition holds in no lane counts a failure and waits for a time that doubles. `NAP` and `YIELD` wait or yield at
the trailer. `GROW` is granted at once where no request is pending and the pool holds it, and waits otherwise; new
registers read zero. `SHRINK` gives registers back. -/
def Obligations.WaitWordResults : Prop :=
  (∀ (g : Guard) (pre : Option Prefix) (ty : Ty) (cond : Cond) (d : Fin 8) (a b c : Opnd) (s : State) (m m1 m2 : Mach)
    (io : Io) (p : Prefix) (bs : Nat → List Byte),
    let bits := waitAddrBits pre s.mach
    let n := ty.bits / 8
    let val := fun l => readOp s.dev m1 io.w l ty.bits b
    let addr := fun l => laneAddr s.dev m1 io.w l p.space a 0
    let info := fun (i : Instr) (srcs : List (Opnd × Nat)) =>
      let x := memInfo i g none waitKind pre srcs [(.p d, 1)] s.mach
      { x with bad := x.bad || !a.aligned bits }
    io.act ≠ [] → gatherLoads s.dev io.w p.space n true addr io.act m1 = ⟨m2, io.act.map fun l => (l, bs l), [], [], false⟩ →
      (let i := Instr.waitw g pre ty d a b c
       let x := info i [(a, bits), (b, ty.bits), (c, 64)]
       let limit := readOp s.dev m1 io.w io.lead 64 c
       let outs := perLaneP io d.val fun l => decide (ofBytes (bs l) ≠ val l)
       Reaches s x waitKind pre m io p m1 →
         (((∃ l ∈ io.act, ofBytes (bs l) ≠ val l) ∨ limit = 0) → exec i s = .next (landed s io x m2 outs)) ∧
         ((∀ l ∈ io.act, ofBytes (bs l) = val l) → limit ≠ 0 → exec i s = .next (issued s io x { Eff.ok m2 outs with
           fin := some (.waitw d n p
             (io.act.map fun l => (l, addr64 (addr l), BitVec.ofNat 64 (val l)))
             (io.act.map fun l => watchPlace s.dev m1 io.w l p.space (addr l) n) x.len
             (if limit = 2 ^ 64 - 1 then none else some limit) .quiet) }))) ∧
      (let i := Instr.pollb g pre ty cond d a b
       let x := info i [(a, bits), (b, ty.bits)]
       let holds := fun l => condHolds cond (ofBytes (bs l) : Int) (val l)
       Reaches s x waitKind pre m io p m1 →
         ((∃ l ∈ io.act, holds l = true) → exec i s = .next (landed s io x
           (m2.updWave io.w.core io.w.id fun w => if w.fails = 0 then w else { w with fails := 0, prio := w.savedPr })
           (perLaneP io d.val holds))) ∧
         ((∀ l ∈ io.act, holds l = false) → exec i s = .next (issued s io x { Eff.ok
           (m2.updWave io.w.core io.w.id fun w => { w with
             fails := min 12 (w.fails + 1), savedPr := if w.fails = 0 then w.prio else w.savedPr
             prio := if w.prio = 0 then 0 else w.prio - 1 })
           (perLaneP io d.val holds) with fin := some (.poll (2 ^ min 12 (io.w.fails + 1))) })))) ∧
  (∀ (g : Guard) (d : Fin 8) (a b : Opnd) (s : State) (m : Mach) (io : Io), io.act ≠ [] →
    let waits := fun (info : WordInfo) (m : Mach) (x : WaitFor) => exec info.instr s =
      .next (issued s io info { Eff.ok m [] with fin := some x })
    let lead := fun (k : Nat) (o : Opnd) => readOp s.dev m io.w io.lead k o
    let count := (lead 32 a + 7) / 8 * 8
    (Issues s (shortInfo (.yield g) g [] [] []) m io → waits (shortInfo (.yield g) g [] [] []) m .yield) ∧
    (let info := shortInfo (.nap g a) g [(a, 32)] [] []
     Issues s info m io → waits info m (if lead 32 a = 0 then .yield else .nap (lead 32 a))) ∧
    (let info := shortInfo (.grow g d a b) g [(a, 32), (b, 64)] [(.p d, 1)] []
     let yes := perLaneP io d.val fun _ => true
     Issues s info m io →
       (576 < count → exec (.grow g d a b) s = .next (parkedAtWord s m io (maskOf io.act) ⟨0x54, 0⟩)) ∧
       (count ≤ 576 → count ≤ io.w.vAllot → exec (.grow g d a b) s = .next (wrote s m io info yes)) ∧
       (count ≤ 576 → io.w.vAllot < count → growPending m io.w.core = [] → growFits m io.w.core io.w count = true →
         exec (.grow g d a b) s = .next (wrote s (m.updWave io.w.core io.w.id fun w => w.setAllot count) io info yes)) ∧
       (count ≤ 576 → io.w.vAllot < count → (growPending m io.w.core ≠ [] ∨ growFits m io.w.core io.w count = false) →
         waits info { m with turnNo := m.turnNo + 1 } (.grow d count io.act (some (lead 64 b)) m.turnNo))) ∧
    (let n := shrinkCount g a s
     let info := { shortInfo (.shrink g a) g [(a, 32)] [] [] with
       touch := (List.range (576 - n)).map fun i => (.v (Fin.ofNat 576 (n + i)), 32) }
     Issues s info m io →
       (io.w.vAllot ≤ n → exec (.shrink g a) s = .next (landed s io info m [])) ∧
       (n < io.w.vAllot → pendingAboveV io.w n = false → exec (.shrink g a) s =
         .next (landed s io info (m.updWave io.w.core io.w.id fun w => w.setAllot n) [])))) ∧
  (∀ (w : Wave) (n l k : Nat), l < w.lanes.length → (w.lane l).st ≠ .empty → k < n →
    ((w.setAllot n).lane l).v[k]? = some ((w.lane l).v.getD k 0) ∧ ((w.setAllot n).lane l).v.length = n)

/-! ## Task queues, tiles and engines (R41, R64 to R80, R294 to R316) -/

/-- R41, R294, R296 to R300: the task queue words. After its release, `SPAWN` enqueues an entry of each acting lane whose
predicate offers one, and `ENQ` one entry of the path, as many as the queue has room for, in lane order: the predicate is
true where an entry was taken. `DEQ` takes the entry at HEAD into four scalars, or finds the queue empty, and acquires.
`QINFO` reads a field of the header. -/
def Obligations.TaskQueueResults : Prop :=
  (∀ (g : Guard) (la : Fin 16) (d pr offer : Fin 8) (a dst : Opnd) (v8 : Fin 72) (inv : Bool) (s4 : Fin 16) (f : QField)
    (s : State) (m m2 : Mach) (io : Io) (k : Nat) (h : QHdr) (ps : List (Xlat × Nat)) (bs : List Byte),
    let q := BitVec.ofNat 64 (readOp s.dev m io.w io.lead 64 a)
    let sc := queueScope s.dev m io q
    let m1 := releaseAt s.dev io.w.core .rel sc m
    let ready := io.act ≠ [] ∧ q.toNat % 64 = 0 ∧ io.w.guarded = false ∧ fencePending m io = false
    let enqueues := fun (info : WordInfo) (es : List (Nat × List Byte)) (won : Nat → Bool) =>
      Issues s info m io → ready → releaseDone m1 io.w.core io.w.id (maskOf io.act) .rel sc = true →
        enqueueLanes s.dev io q es m1 = .done m2 k [] →
        exec info.instr s = .next (landed s io info m2 (perLaneP io d.val won))
    (let v := Fin.ofNat 576 (8 * v8.val)
     let regs := (List.range 4).map fun i => ((Opnd.v (Fin.ofNat 576 (8 * v8.val + 2 * i)), 64) : Opnd × Nat)
     let info := { shortInfo (.spawn g d a v8 offer inv) g ((a, 64) :: regs) [(.p d, 1)] [offer.val] with rel := true }
     let es := (io.act.filter fun l => (io.w.lane l).pred offer.val != inv).map fun l =>
       (l, toBytes 32 (regWords (io.w.lane l).v v.val 8))
     enqueues info es fun l => ((es.take k).map Prod.fst).contains l) ∧
    (let info := { shortInfo (.enq g d a s4) g ((a, 64) :: fourRegs s4) [(.p d, 1)] [] with rel := true }
     let entry := toBytes 32 (ofWords ((List.range 4).map fun i => io.w.s.getD (4 * s4.val + i) 0))
     enqueues info [(io.lead, entry)] fun _ => k != 0) ∧
    (let info := longInfo (.deq g la s4 a pr) g la [(a, 64)] (fourRegs s4 ++ [(.p pr, 1)])
     let word := fun i => (⟨io.lead, .s (4 * s4.val + i), BitVec.ofNat 64 (ofBytes ((bs.drop (8 * i)).take 8))⟩ : RegWrite)
     Issues s info m io → ready →
       (dequeueOne s.dev io q m = .took bs m2 → exec (.deq g la s4 a pr) s = .next (wrote s
         (acquireAt io.w.core .acq sc m2) io info ([word 0, word 1, word 2, word 3] ++ perLaneP io pr.val fun _ => true))) ∧
       (dequeueOne s.dev io q m = .empty m2 → exec (.deq g la s4 a pr) s = .next (wrote s
         (acquireAt io.w.core .acq sc m2) io info (perLaneP io pr.val fun _ => false)))) ∧
    (let info := longInfo (.qinfo g la f dst a) g la [(a, 64)] [(dst, 32)]
     Issues s info m io → io.act ≠ [] → fencePending m io = false → reachHdr s.dev m io q .r = .hdr h ps m2 →
       (∀ l ∈ io.act, repWait s.dev m2 io.w l ps = false) → exec (.qinfo g la f dst a) s = .next (wrote s m2 io info (perLane io 32 dst fun _ =>
         match f with
         | .count => (h.tail + 2 ^ 32 - h.head) % 2 ^ 32
         | .cap => h.cap
         | .head => h.head
         | .tail => h.tail)))) ∧
  (∀ (d : Dev) (io : Io) (q : BitVec 64) (es : List (Nat × List Byte)) (m m1 m2 : Mach) (h : QHdr) (ps : List (Xlat × Nat))
    (k : Nat) (late : List (Nat × BitVec 64 × Nat × List Byte × Flt)) (bs : List Byte),
    (reachHdr d m io q .w = .hdr h ps m1 → enqueueLanes d io q es m = .done m2 k late →
      k = min es.length (h.cap - min h.cap h.count) ∧ (k = 0 → m2 = m1) ∧ h.host = false ∧ h.bad = false ∧ h.clean = true) ∧
    (reachHdr d m io q .w = .hdr h ps m1 → h.bad = false → h.clean = true → h.kind = 1 → h.head = h.tail →
      dequeueOne d io q m = .empty m1) ∧
    (reachHdr d m io q .w = .hdr h ps m1 → dequeueOne d io q m = .took bs m2 → h.head ≠ h.tail ∧ h.kind = 1))

/-- R64 to R69, R77, R301 to R309, R316: the tile words, on a tile that the group of the path owns. `TSET` sets an unbound or
idle entry; `TSTATE` and `CUPQRY` write the status word; `TWAIT` and `CUPWT` acquire when the tile is ready and wait
at the trailer otherwise; `TDRAIN` drains a ready tile, and is interlocked on one that is empty or filling; `TFREE` frees
an idle one; `CUPSET` sets what the cup expects, and the cup rule the state; `CHKI` drops shared check-outs. A drained tile
becomes empty. A wait on a tile notes the scope of its cup when the tile becomes ready, and ends as an acquire at that scope;
one whose tile was abandoned first takes fault 0x60 in the lanes in which its guard held. -/
def Obligations.TileResults : Prop :=
  (∀ (g : Guard) (t : Fin 64) (d a b : Opnd) (add : Bool) (s : State) (m : Mach) (io : Io) (gr : Group) (x : Tile),
    io.act ≠ [] → pathGroup m io = .ok gr →
    let lead := fun (n : Nat) (o : Opnd) => readOp s.dev m io.w io.lead n o
    let does := fun (info : WordInfo) (m2 : Mach) => exec info.instr s = .next (landed s io info m2 [])
    let sets := fun (f : Tile → Tile) => m.updTile gr.core gr.id t.val f
    (let desc := BitVec.ofNat 64 (lead 64 a)
     let fresh : Tile := ⟨desc, .empty, false, 0, 0, 0, 0, 0, 0⟩
     let info := shortInfo (.tset g t a) g [(a, 64)] [] []
     Issues s info m io → tdescBad desc = false →
       (∀ o ∈ m.groups, o.core = gr.core → o.id ≠ gr.id → o.tile t.val = none) →
       ((tdesc desc).bare = true ∨ (tdesc desc).base + (tdesc desc).span ≤
         if (tdesc desc).space = .spad then 32768 * gr.alloc.spad else 262144 * gr.alloc.ostore) →
       (gr.tile t.val = none → gr.tiles.length < gr.alloc.tiles → does info (m.updGroup gr.core gr.id fun y =>
         { y with tiles := y.tiles ++ [(t.val, fresh)] })) ∧
       (gr.tile t.val = some x → x.state ≠ .filling → x.state ≠ .draining → gr.readers t.val = false →
         does info (sets fun _ => fresh))) ∧
    (gr.tile t.val = some x →
      (∀ i, i = .tstate g t d ∨ i = .cupqry g t d → let info := shortInfo i g [] [(d, 64)] []
        Issues s info m io → exec i s = .next (wrote s m io info (perLane io 64 d fun _ => x.status))) ∧
      (∀ i cup, i = .twait g t ∧ cup = false ∨ i = .cupwt g t ∧ cup = true → let info := shortInfo i g [] [] []
        Issues s info m io → (cup = false → (tdesc x.desc).bare = false) →
          (x.state = .ready → does info (acquireAt io.w.core .acq x.cupScope m)) ∧
          (x.state ≠ .ready → ¬ (x.state = .empty ∧ x.abandoned = true) → exec i s =
            .next (issued s io info { Eff.ok m [] with fin := some (.tile t.val cup (maskOf io.act) none) }))) ∧
      (let info := shortInfo (.tdrain g t) g [] [] []
       Issues s info m io → (x.state = .ready → does info (sets fun y =>
           { y with state := .draining, drainOrd := gr.copyNext + gr.ladlNext })) ∧
         (x.state = .draining → does info m) ∧
         (x.state ≠ .ready → x.state ≠ .draining → exec (.tdrain g t) s =
           .next { s with mach := stallPath m io (some ⟨[t.val], [], false⟩) })) ∧
      (let info := shortInfo (.tfree g t) g [] [] []
       Issues s info m io → x.state ≠ .filling → x.state ≠ .draining → (x.state = .ready → gr.readers t.val = false) →
         does info (m.updGroup gr.core gr.id fun y => { y with tiles := y.tiles.filter fun p => p.1 != t.val })) ∧
      (let info := shortInfo (.cupset g add t a) g [(a, 32)] [] []
       let e := if add then x.expect + lead 32 a else lead 32 a
       Issues s info m io → x.state ≠ .draining →
         (x.arrived + x.reserved ≤ e → e < 2 ^ 24 → does info (noteReady gr.core gr.id t.val (sets fun y =>
           { y with expect := e, abandoned := false
                    state := if y.arrived = e then (if e = 0 then .empty else .ready) else .filling }))) ∧
         ((e < x.arrived + x.reserved ∨ 2 ^ 24 ≤ e) → exec (.cupset g add t a) s =
           .next (parkedAtWord s m io (maskOf io.act) ⟨0x61, 0⟩))) ∧
      (let info := { shortInfo (.chki g t a b) g [(a, 64), (b, 64)] [] [] with rel := true }
       let lo := lead 64 a
       let hi := lead 64 a + lead 64 b
       let mine := m.coh.checks.filter fun k => k.core == gr.core && k.group == gr.id && decide (k.lo < hi) &&
         decide (lo < k.lo + k.len)
       Issues s info m io → x.state ≠ .filling → x.state ≠ .draining → mine ≠ [] →
         (∀ k ∈ mine, lo ≤ k.lo ∧ k.lo + k.len ≤ hi ∧ k.excl = false) →
         does info { m with coh := { m.coh with checks := m.coh.checks.filter fun k => !mine.contains k } }))) ∧
  (∀ (s : State) (core t : Nat) (g : Group) (x : Tile),
    (s.mach.groups.find? fun g => g.core == core && (g.tile t).isSome) = some g → g.tile t = some x →
    let emptied := s.mach.updTile core g.id t fun x =>
      { x with state := .empty, expect := 0, arrived := 0, reserved := 0, scope := 0 }
    (x.state = .draining → drainHeld s.mach g t x = false →
      exec (.tileDrained core t) s = .next { s with mach := emptied }) ∧
    ((x.state ≠ .draining ∨ drainHeld s.mach g t x = true) → exec (.tileDrained core t) s = .next s)) ∧
  (∀ (s : State) (w : Wave) (k t : Nat) (cup : Bool) (named : BitVec 64) (sc : Scope) (x : Waiting),
    s.mach.wave w.core w.id = some w → w.parked = none → w.ended = false → w.waits[k]? = some x →
    (x.what = .tile t cup named (some (.ready sc)) → exec (.tileWaitWake w.core w.id k) s =
      .next { s with mach := endWait w.core w.id x (acquireAt w.core .acq sc s.mach) }) ∧
    (let gone := markBack w.core w.id (parkTrailer s.dev s.mach w x.path named ⟨0x60, 0⟩)
     x.what = .tile t cup named (some .gone) → exec (.tileWaitWake w.core w.id k) s = .next { s with mach := gone })) ∧
  (∀ (m : Mach) (w : Wave) (k t : Nat) (cup : Bool) (named : BitVec 64) (x : Waiting) (g : Group) (y : Tile),
    m.wave w.core w.id = some w → w.waits[k]? = some x → x.what = .tile t cup named none →
    m.group w.core g.id = some g → g.tile t = some y → y.state = .ready → w.pathIn g.id x.path = true →
    ∃ w2, (noteReady w.core g.id t m).wave w.core w.id = some w2 ∧
      w2.waits[k]? = some { x with what := .tile t cup named (some (.ready y.cupScope)) }) ∧
  (∀ x : Tile, x.expect < 2 ^ 24 → x.arrived < 2 ^ 24 →
    bitsOf x.status 0 3 = (match x.state with
      | .empty => 1
      | .filling => 2
      | .ready => 3
      | .draining => 4) ∧
    bitOf x.status 3 = x.abandoned ∧ bitsOf x.status 4 6 = min x.parked 63 ∧ bitsOf x.status 10 24 = x.expect ∧
    bitsOf x.status 34 24 = x.arrived)

/-- R70 to R75, R310 to R315: the engine commands. `XQ` and `LQ` accept a well-formed command whose ring has room and whose
cup the group owns: the command joins the group's list with its segments, and its cup expects its bytes. A segment of
an accepted command begins in its group's turn, when nothing it depends on is unfinished, with its check-outs taken and its
bytes reserved; a running segment copies its next piece and credits the cup, at once or when its stores to replicated pages
are performed; a ladle pools a bag's rows and writes them. -/
def Obligations.EngineCommandResults : Prop :=
  (∀ (g : Guard) (s4 : Fin 16) (s : State) (m m2 : Mach) (io : Io) (gr : Group) (bs : List Byte),
    let words := (List.range 4).map fun k => BitVec.ofNat 64 (readOp s.dev m io.w io.lead 64 (.s (Fin.ofNat 64 (4 * s4.val + k))))
    let fits := fun (ladle : Bool) (block : List (BitVec 64)) (ring : Nat) =>
      gr.ringUsed ladle < ring ∧ ((cmdHead words).cupen = true → ∃ x, gr.tile (cmdHead words).cup = some x ∧
        x.state ≠ .draining ∧ x.expect + cmdBytes ladle words block < 2 ^ 24)
    let takes := fun (info : WordInfo) (m : Mach) (ladle : Bool) (block : List (BitVec 64)) =>
      exec info.instr s = .next (landed s io info (acceptCmd io.w.id ladle words block m gr) [])
    let block8 := fun (bs : List Byte) => (List.range 8).map fun i => BitVec.ofNat 64 (ofBytes ((bs.drop (8 * i)).take 8))
    io.act ≠ [] → pathGroup m io = .ok gr →
      (let info := shortInfo (.xq g s4) g (fourRegs s4) [] []
       let off := 64 * bitsOf (ofWords words) 224 16
       Issues s info m io → fencePending m io = false → copyBad words = false →
         (copyExt words = false → fits false [] gr.alloc.cring → takes info m false []) ∧
         (copyExt words = true → gr.inside .spad off 64 true = true → extBad words (spadWords gr off) = false →
           fits false (spadWords gr off) gr.alloc.cring → takes info m false (spadWords gr off))) ∧
      (let info := shortInfo (.lq g s4) g (fourRegs s4) [] []
       let sp : Space := if bitsOf (ofWords words) 130 2 = 0 then .glb else .spad
       Issues s info m io → fencePending m io = false → ladleBad words = false →
         loadLane s.dev m io.w io.lead sp (bitsOf (ofWords words) 0 64) 64 true = (.bytes bs, m2) →
         paramBad words (block8 bs) = false → fits true (block8 bs) gr.alloc.lring → takes info m2 true (block8 bs))) ∧
  (∀ (wave : Nat) (ladle : Bool) (ws block : List (BitVec 64)) (m : Mach) (gr : Group),
    m.group gr.core gr.id = some gr → ∃ g2 c, (acceptCmd wave ladle ws block m gr).group gr.core gr.id = some g2 ∧
      g2.cmds = gr.cmds ++ [c] ∧ c.words = ws ∧ c.total = cmdSegs ladle ws block ∧ c.segs = [] ∧ c.complete = false ∧
      (ladle = false → g2.copyNext = gr.copyNext + 1 ∧ c.idx = gr.copyNext) ∧
      (ladle = true → g2.ladlNext = gr.ladlNext + 1 ∧ c.idx = gr.ladlNext) ∧
      ∀ x, (cmdHead ws).cupen = true → gr.tile (cmdHead ws).cup = some x → ∃ y, g2.tile (cmdHead ws).cup = some y ∧
        y.state = .filling ∧ y.expect = x.expect + cmdBytes ladle ws block ∧ y.abandoned = false) ∧
  (∀ (s : State) (cmd no : Nat) (g : Group) (c : Cmd) (m2 m3 : Mach) (ks : List CheckOut) (k : CheckOut),
    s.mach.group g.core g.id = some g → g.cmd false cmd = some c → g.mayBegin c = true → c.complete = false →
    c.killed = false → s.mach.saves g.asid = false → s.mach.turnOf false g.core g.id = true →
    (c.segs.find? fun x => x.no == no) = none → no < c.total →
    let x := copySeg c no
    let c2 := { c with segs := c.segs ++ [x] }
    let m1 := (s.mach.serve false g.core g.id).updGroup g.core g.id fun g => g.updCmd c.order fun _ => c2
    x.ssp ≠ 3 → x.dsp ≠ 3 → segChecks s.dev g c2 x m1 = .ok ks →
      (checkOut ks m1 = .ok m2 → reserveSeg g c2 x m2 = some m3 → exec (.copySegment g.core g.id cmd no) s =
        .next { s with mach := m3.updSeg g.core g.id c.order no fun y => { y with state := .running } }) ∧
      (checkOut ks m1 = .error k → exec (.copySegment g.core g.id cmd no) s =
        .next { s with mach := parkSeg s.dev g c2 x ⟨0x41, BitVec.ofNat 64 k.lo⟩ m1 })) ∧
  (∀ (s : State) (cmd no : Nat) (g : Group) (c : Cmd) (x : Seg) (m1 m2 : Mach) (bs r : List Byte),
    s.mach.group g.core g.id = some g → g.cmd false cmd = some c →
    (c.segs.find? fun x => x.no == no && x.state == .running) = some x → x.sent = 0 → s.mach.saves g.asid = false →
    c.killed = false →
    let cp := copyOf c.words c.block
    let k := no * cp.seg + x.doneB
    let at_ := fun (base : BitVec 64) (f : BoxDim → Int) =>
      addr64 ((base.toNat : Int) + boxOff cp.len0 cp.dims f k - boxOff cp.len0 cp.dims f (no * cp.seg))
    let to_ := at_ x.dst BoxDim.ds
    let n := min (min (cp.len0 - k % cp.len0) (x.len - x.doneB)) (256 - to_.toNat % 256)
    engineRead s.dev g c.wave x.ssp (at_ x.src BoxDim.ss) n s.mach = (.bytes bs, m1) →
    engineWrite s.dev g c.wave x.dsp to_ bs m1 = (.bytes r, m2) →
    let m3 := m2.updSeg g.core g.id c.order no fun y => { y with doneB := y.doneB + n, sent := 0 }
    let m4 := match c.cup with
      | some t => creditTile g.core g.id t n m3
      | none => m3
    let m5 := m4.updGroup g.core g.id fun g => g.updCmd c.order fun c => { c with credited := c.credited + n }
    let m6 := if x.doneB + n < x.len then m5 else endSeg s.dev g.core g.id c.order no m5
    (creditWaits m2 g c = false → exec (.copyPieceWrite g.core g.id cmd no) s = .next { s with mach := m6 }) ∧
    (creditWaits m2 g c = true → exec (.copyPieceWrite g.core g.id cmd no) s =
      .next { s with mach := m2.updSeg g.core g.id c.order no fun y => { y with sent := n } })) ∧
  (∀ (s : State) (cmd no o0 o1 : Nat) (g : Group) (c : Cmd) (m2 m3 m4 m5 m6 : Mach) (acc : List Nat) (r : List Byte),
    s.mach.group g.core g.id = some g → g.cmd true cmd = some c → g.mayBegin c = true → c.complete = false →
    c.killed = false → s.mach.saves g.asid = false → s.mach.turnOf true g.core g.id = true →
    (c.segs.find? fun x => x.no == no) = none → no < c.total →
    let l := ladleOf c.words c.block
    let c2 := { c with segs := c.segs ++ [bagSeg c no] }
    let m1 := (s.mach.serve true g.core g.id).updGroup g.core g.id fun g => g.updCmd c.order fun _ => c2
    let x := { bagSeg c no with src := addr64 ((l.ilist : Int) + 4 * o0), known := true }
    l.dsp ≠ 3 → bagOffset s.dev g c.wave l no m1 = (.ok o0, m2) →
    bagOffset s.dev g c.wave l (no + 1) (m2.updSeg g.core g.id c.order no fun _ => x) = (.ok o1, m3) →
    o0 ≤ o1 → o1 ≤ l.nidx →
    poolRows s.dev g c.wave l 0 x.src o0 o0 (List.replicate l.cols 0) m3 (o1 - o0) = (.ok acc, m4) →
    let mean := fun a => fdivV .f32 .rne false (fdecode .f32 a) (fdecode .f32 (fofInt .f32 .rne (o1 - o0 : Nat)))
    let vals := if l.mode = 1 ∧ o1 - o0 ≠ 0 then acc.map mean else acc
    reserveSeg g c2 x m4 = some m5 →
    engineWrite s.dev g c.wave x.dsp x.dst ((vals.map (toBytes 4)).flatten) m5 = (.bytes r, m6) →
    creditWaits m6 g c2 = false →
    let m7 := m6.updSeg g.core g.id c.order no fun y => { y with doneB := y.doneB + x.len, sent := 0 }
    let m8 := match c2.cup with
      | some t => creditTile g.core g.id t x.len m7
      | none => m7
    let m9 := m8.updGroup g.core g.id fun g => g.updCmd c.order fun c => { c with credited := c.credited + x.len }
    exec (.ladleBag g.core g.id cmd no) s = .next { s with mach := endSeg s.dev g.core g.id c.order no m9 })

/-! ## The product units (R132 to R139, R317 to R330) -/

/-- R132, R133, R138, R139, R317, R319, R326 to R330: the words that set and read an accumulator. `KGUARD` and `KCLR` clear it;
`KEXT` reads digits, `KEXTF` their values rounded once, `KSTAT` the status word; `KSTO` stores the digits to a tile and
`KPACK` adds integers at guard-width places to row 0 of a tile. -/
def Obligations.AccumulatorWordResults : Prop :=
  (∀ (g : Guard) (la : Fin 16) (k : Fin 16) (ta : Fin 64) (rm : RMode) (add : Bool) (d a b : Opnd) (s : State) (m : Mach)
    (io : Io) (gr : Group) (v : AccVal) (tile y : Tile),
    io.act ≠ [] → pathGroup m io = .ok gr → k.val < gr.alloc.acc →
    let rd := fun (l : Nat) (o : Opnd) => readOp s.dev m io.w l 32 o
    let clears := fun (info : WordInfo) (width : Acc → Nat) => gr.busyOn k.val = false → exec info.instr s =
      .next (landed s io info (clearKstat gr.core gr.id k.val
        (m.updAcc gr.core gr.id k.val fun x => ⟨clearAcc (width x), [], []⟩)) [])
    let t := tdesc tile.desc
    let es := 2 ^ t.esize
    (let info := shortInfo (.kguard g k a) g [(a, 32)] [] []
     let n := rd io.lead a
     Issues s info m io → (n = 0 ∨ (8 ≤ n ∧ n ≤ 40)) → clears info fun _ => n) ∧
    (let info := shortInfo (.kclr g k) g [] [] []
     Issues s info m io → clears info fun x => x.val.g) ∧
    (let info := longInfo (.kstat g la k d) g la [] [(d, 64)]
     Issues s info m io →
       exec (.kstat g la k d) s = .next (wrote s m io info (perLane io 64 d fun _ => kstatWord gr k.val))) ∧
    (accView m io gr k.val = .ok v →
      (let info := longInfo (.kext g la k d a) g la [(a, 32)] [(d, 64)]
       Issues s info m io → (∀ l ∈ io.act, rd l a < digitLimit v) →
         exec (.kext g la k d a) s = .next (wrote s m io info (perLane io 64 d fun l => wrapTo 64 (readDigit v (rd l a))))) ∧
      (let info := longInfo (.kextf g la k rm add d a b) g la ([(a, 32), (b, 32)] ++ if add then [(d, 32)] else []) [(d, 32)]
       Issues s info m io → (∀ l ∈ io.act, rd l a < if v.g = 0 then 1 else digitLimit v) →
         exec (.kextf g la k rm add d a b) s = .next (wrote s m io info (perLane io 32 d fun l =>
           addFloat rm add (rd l d) (digitFloat rm v (rd l a) (signedOf 8 (rd l b)))))) ∧
      (let info := longInfo (.ksto g la k ta a) g la [(a, 64)] []
       let desc := BitVec.ofNat 64 (readOp s.dev m io.w io.lead 64 a)
       Issues s info m io → gr.tile ta.val = some tile → kstoBad desc t ((gr.acc k.val).g == 0) = false →
         tile.consume = .use y → exec (.ksto g la k ta a) s =
           .next (landed s io info ((kstoPlaces v t).foldl (fun m y =>
             let off := t.at_ y.1 (y.2.1 * es)
             m.putLocal gr.core gr.id t.space off (kstoBytes v desc y.2.2 (ofBytes (gr.bytes t.space off es)))) m) [])) ∧
      (let info := longInfo (.kpack g la k ta a b) g la [(a, 32), (b, 32)] []
       let width := (gr.acc k.val).g
       let sum := io.act.foldl (fun (x : Int) l => x + signedOf 32 (rd l a) * 2 ^ (rd l b * width)) 0
       Issues s info m io → gr.tile ta.val = some tile → width ≠ 0 → t.bare = false → t.region = 0 → t.width ≤ 512 →
         tile.consume = .use y → (∀ l ∈ io.act, rd l b * width < 8 * t.width) →
           exec (.kpack g la k ta a b) s = .next (landed s io info (m.putLocal gr.core gr.id .spad t.base
             (toBytes t.width (wrapTo (8 * t.width) ((tileNum gr t 0 0 t.width : Int) + sum)))) [])))) ∧
  (∀ (v : AccVal) (n : Nat) (rm : RMode) (o : Int) (x y : Int), v.g ≠ 0 → v.form ≠ .conv →
    let i := n % 64
    let j := n / 64
    (v.nr.getLsbD i = true ∨ v.nc.getLsbD j = true → digitFloat rm v n o = some (nanCode .f32)) ∧
    (v.nr.getLsbD i = false → v.nc.getLsbD j = false → v.er[i]? = some (some x) → v.ec[j]? = some (some y) →
      let dg := digitOf v.digits n
      digitFloat rm v n o = some (fround .f32 rm false (.num (decide (dg < 0)) dg.natAbs (x + y + o)))) ∧
    (v.nr.getLsbD i = false → v.nc.getLsbD j = false → v.er[i]? = some none → digitFloat rm v n o = none))

/-- R135 to R137: an outer step adds every product exactly. Digit n of an accumulator, scaled by the exponents of its row and
column, grows by the product of the row's and the column's coefficient; the exponents become the lower ones, and a digit
outside the guard width ends the step with none of its effect. A raw step adds the product of the two integers
modulo 2^163840. -/
def Obligations.AccumulateStepIsExact : Prop :=
  (∀ (a b : AccVal) (xs ys : List Coef) (i j : Nat), (a.digits.map Prod.fst).Pairwise (· < ·) →
    outerStep a xs ys = .ok b → i < 64 → j < 64 →
    let x := xs.getD i .none_
    let y := ys.getD j .none_
    let er := lowerExp (a.er.getD i none) x.ex
    let ec := lowerExp (a.ec.getD j none) y.ex
    let fall := fun (old new : Option Int) => match old, new with
      | some o, some n => (o - n).toNat
      | _, _ => 0
    let n := 64 * j + i
    digitOf b.digits n = digitOf a.digits n * 2 ^ (fall (a.er.getD i none) er + fall (a.ec.getD j none) ec)
      + x.x * y.x * 2 ^ ((x.ex.getD 0 - er.getD 0).toNat + (y.ex.getD 0 - ec.getD 0).toNat) ∧
    -(2 ^ (a.g - 1) : Int) ≤ digitOf b.digits n ∧ digitOf b.digits n < 2 ^ (a.g - 1) ∧
    b.er[i]? = some er ∧ b.ec[j]? = some ec ∧ b.form = .outer ∧ b.g = a.g) ∧
  (∀ (a : AccVal) (x y : Int), (rawStep a x y).raw % 2 ^ rawBits = (a.raw + x * y) % 2 ^ rawBits)

/-- R32 to R34, R160, R318, R323 to R325: issuing product work, and performing it. `KMUL` puts a step on its accumulator and
`KMUL_STEP` performs the oldest; a step that faults is deferred to its wave and changes no digit. The last member of a
gang to issue a `KMMA` starts one sequence, the others go on by the latch's answer; `MICRO_TILE` performs the steps of
one micro-tile wholly and notes it, or parks the sequence; a sequence whose micro-tiles are all done ends. A step that is
performed again meets its accumulator's form as it then is. Which tile read meets an error that cannot be corrected, and so
fault 0x10, is the model's choice (log 94). -/
def Obligations.ProductWorkResults : Prop :=
  (∀ (g : Guard) (la : Fin 16) (k : Fin 16) (ta tb : Fin 64) (a : Opnd) (s : State) (m m2 : Mach) (io : Io) (gr : Group)
    (o : Operand) (y : Tile) (t : Nat) (e : LatchEnt),
    io.act ≠ [] → pathGroup m io = .ok gr → k.val < gr.alloc.acc →
    let desc := BitVec.ofNat 64 (readOp s.dev m io.w io.lead 64 a)
    let p := pdesc desc
    let starts := fun (info : WordInfo) (m : Mach) (t : Nat) (accs : List Nat) =>
      exec info.instr s = .next (issued s io info { Eff.ok m [] with accs := some (t, accs) })
    (let info := longInfo (.kmul g la k ta tb a) g la [(a, 64)] []
     let word := BitVec.ofNat 64 ((instrWord (.kmul g la k ta tb a)).getD 0)
     Issues s info m io → pdescBad desc false = false → formFits gr k.val p = .ok →
       operandTiles gr p ta.val tb.val = some o → o.bad p = false → (p.form ≠ 2 → stepOutside o p p.k0 k.val = none) →
       o.use = .use y → convBad m gr o p k.val = false →
       let step : KStep := ⟨m.freeCount, desc, word, ta.val, tb.val, io.w.id, io.p.mask, io.p.pc, false⟩
       starts info ((noteTicket { m with freeCount := m.freeCount + 1 } gr.core gr.id k.val m.freeCount).updAcc
         gr.core gr.id k.val fun y => { y with pend := y.pend ++ [step] }) m.freeCount [k.val]) ∧
    (let info := longInfo (.kmma g la k ta tb a) g la [(a, 64)] []
     let word := BitVec.ofNat 64 ((instrWord (.kmma g la k ta tb a)).getD 0)
     let mine := gr.latch.find? fun e => e.wave == io.w.id && e.mask == io.p.mask && e.pc == io.p.pc
     let drop := m.updGroup gr.core gr.id fun x => { x with latch := x.latch.filter fun e => e.wave != io.w.id }
     let gang := gangList51 io.w
     let members := gangMembers io.w.gang
     let entered := drop.updGroup gr.core gr.id fun x =>
       { x with latch := x.latch ++ [⟨io.w.id, io.p.mask, word, desc, gang, io.p.pc, none⟩] }
     let ents := ((entered.group gr.core gr.id).map Group.latch).getD []
     let waiting := ents.filter fun e => members.contains e.wave && e.out.isNone
     Issues s info m io →
       (mine = some e → e.out = some (0, 0, t) → starts info drop t (seqAccs k.val desc)) ∧
       (mine.bind LatchEnt.out = none → bitsOf io.w.gang.toNat 48 3 ≠ 0 → io.w.gangDead = false →
         (waiting.length < members.length → exec (.kmma g la k ta tb a) s = .next { s with mach := stallPath entered io none }) ∧
         (members.length ≤ waiting.length → (∀ e ∈ waiting, e.word = word ∧ e.desc = desc ∧ e.gang = gang) →
           startSeq entered gr gang word io.p.pc desc k.val ta.val tb.val (waiting.map fun e => (e.wave, e.mask)) = .go m2 t →
           starts info (answerLatch gr.core gr.id io.w.id members (0, 0, t) m2) t (seqAccs k.val desc))))) ∧
  (∀ (s : State) (core group k : Nat) (g : Group) (a : Acc) (step : KStep) (rest : List KStep) (o : Operand) (lost : Bool)
    (m0 : Mach),
    s.mach.group core group = some g → g.accs[k]? = some a → a.pend = step :: rest →
    let p := pdesc step.desc
    operandTiles g p step.ta step.tb = some o →
    (∀ q ∈ g.seqs, q.active = true → q.uses k = true → step.ticket ≤ q.ticket) → (step.again = true → o.holds = true) →
    let done := fun (m : Mach) (v : AccVal) =>
      (keepOld core step.ticket k a.val m).updAcc core group k fun y => { y with val := v, pend := rest }
    let idle := fun (m : Mach) => (keepOld core step.ticket k a.val m).updAcc core group k fun y => { y with pend := rest }
    (formBad a.val p = true → exec (.kmulStep core group k) s =
      .next { s with mach := deferStep g k step ⟨0x50, step.word⟩ (idle s.mach) }) ∧
    (formBad a.val p = false → sramError s.dev core g.asid s.mach = (lost, m0) →
      (lost = true → exec (.kmulStep core group k) s =
        .next { s with mach := deferStep g k step ⟨0x10, 0⟩ (idle m0) }) ∧
      (lost = false →
        (∀ v, stepOn m0 g o p p.k0 k a.val = .ok v → exec (.kmulStep core group k) s = .next { s with mach := done m0 v }) ∧
        (∀ f n, stepOn m0 g o p p.k0 k a.val = .fault f n → exec (.kmulStep core group k) s =
          .next { s with mach :=
            (deferStep g k step (if f.code = 0x50 then ⟨0x50, step.word⟩ else f) (idle m0)) })))) ∧
  (∀ (s : State) (core group i : Nat) (g : Group) (q : KSeq) (o : Operand) (lost : Bool) (m0 : Mach),
    s.mach.group core group = some g → (g.seqs.filter fun q => q.active && q.parked.isNone)[i / 32]? = some q →
    i % 32 ≤ q.last → q.mask.getLsbD (i % 32) = false → s.mach.saves g.asid = false →
    operandTiles g (pdesc q.desc) q.ta q.tb = some o → (q.again = true → o.holds = true) →
    let m := s.mach.updSeq core group q.ticket fun q => { q with again := false }
    let accs := seqAccs q.acc q.desc
    let run := runSteps m0 g o (pdesc q.desc) (accs.map fun k => (k, g.acc k)) (tileSteps q (i % 32))
    (∀ k ∈ accs, formBad (g.acc k) (pdesc q.desc) = false) → sramError s.dev core g.asid m = (lost, m0) →
    (lost = true → exec (.microTile core group i) s = .next { s with mach := parkSeq s.dev g q (i % 32) ⟨0x10, 0⟩ 0 m0 }) ∧
    (lost = false →
      (∀ vals, run = .ok vals →
        let kept := accs.foldl (fun m k => keepOld core q.ticket k (g.acc k) m) m0
        let put := vals.foldl (fun m x => m.updAcc core group x.1 fun a => { a with val := x.2 }) kept
        exec (.microTile core group i) s = .next { s with mach := put.updSeq core group q.ticket fun q =>
          { q with mask := q.mask ||| BitVec.ofNat 32 (2 ^ (i % 32)) }.settle }) ∧
      (∀ f n, run = .error (f, n) → exec (.microTile core group i) s =
        .next { s with mach := parkSeq s.dev g q (i % 32) f n m0 }))) ∧
  (∀ q : KSeq, q.active = true →
    ((∀ i ≤ q.last, q.mask.getLsbD i = true) → q.settle = { q with active := false, mask := 0, parked := none }) ∧
    ((∃ i ≤ q.last, q.mask.getLsbD i = false) → q.settle = q))

/-! ## Homes, dies and the fabric (R82, R89 to R106, R389 to R399, R454 to R457) -/

/-- R90, R91, R93, R95, R101 to R103, R456: moves at the homes and between dies. A load is served by the home or the owner, or as a
value that waits for the writes its stamp counts; an owner's copy that fails ECC is lost; an evicted word's data goes to the
home, and no write-back changes a value. An update is applied exactly when it is the sender's next and its die has applied
what it depends on: it replaces the die's copy of its word, or drops it. A rebase delivers every update, returns the clocks and
the stamps of what is in flight to zero and moves on one generation; a line that sleeps gives up its registrations and keeps
the generation of its fill, and one that wakes drops the copies of another generation. A fence completes when its release has,
and a sequentially consistent one when its die has also applied the writes counted; an access that waits for its order goes on
when its word issues again. Which load ECC corrects, and which line a slice evicts, is the model's choice (log 3). -/
def Obligations.HomeServiceResults : Prop :=
  (∀ (s : State) (core w : Nat), 8 * w < hbmBytes →
    let r := s.mach.choose 4
    (r.1 = 0 →
      (s.mach.coh.lost w = true → exec (.loadAtHome core w) s = .next { s with mach := r.2 }) ∧
      (s.mach.coh.lost w = false → wordDie w = coreDie core ∨ (s.mach.coh.ownerCore w).isSome = true →
        s.mach.coh.l1Of core w = none → (∀ c ∈ s.mach.coh.copies, c.die = coreDie core → c.word ≠ w) →
        ∃ t, exec (.loadAtHome core w) s = .next t ∧ t.mach.mem = s.mach.mem ∧
          t.mach.coh.l1Of core w = some ⟨core, coreAsid s.mach core, w, false, false, s.mach.homeValue w⟩) ∧
      (s.mach.coh.lost w = false → wordDie w ≠ coreDie core → s.mach.coh.ownerCore w = none →
        exec (.loadAtHome core w) s = .next { s with mach := { r.2 with coh := { r.2.coh with
          values := r.2.coh.values ++ [⟨wordDie w, coreDie core, .fill w (s.mach.mem.word w),
            r.2.coh.knownV.getD (wordDie w) []⟩] } } })) ∧
    (∀ k, r.1 = 1 → s.mach.coh.ownerCore w = some k → ∃ t, exec (.loadAtHome core w) s = .next t ∧
      t.mach.coh.lost w = true ∧ t.mach.coh.l1Of k w = none)) ∧
  (∀ (s : State) (core w : Nat), s.mach.mem.wf = true →
    ∃ t, exec (.l1Writeback core w) s = .next t ∧ (∀ v, t.mach.homeValue v = s.mach.homeValue v) ∧
      t.mach.coh.l1Of core w = none ∧
      (s.mach.coh.ownerCore w = some core → t.mach.coh.ownerCore w = none ∧ t.mach.mem.word w = s.mach.homeValue w) ∧
      (s.mach.coh.ownerCore w ≠ some core → t.mach.mem = s.mach.mem ∧ t.mach.coh.words = s.mach.coh.words)) ∧
  (∀ (s : State) (die k : Nat),
    let a := s.mach.coh.appliedV.getD die []
    (∀ u, (s.mach.coh.updates.filter fun u => u.dst == die)[k]? = some u →
      let next := (∀ j < 4, if j = u.src then u.stamp.getD j 0 = a.getD j 0 + 1 else u.stamp.getD j 0 ≤ a.getD j 0)
      (next → ∃ t, exec (.updateReceive die k) s = .next t ∧ t.mach.mem = s.mach.mem ∧
        t.mach.coh.words = s.mach.coh.words ∧ t.mach.coh.updates = s.mach.coh.updates.erase u ∧
        (∀ c ∈ t.mach.coh.copies, c.die = die → c.word = u.word → u.data = some c.data) ∧
        (u.src < a.length → (t.mach.coh.appliedV.getD die []).getD u.src 0 = u.stamp.getD u.src 0) ∧
        ∀ d ≠ die, t.mach.coh.appliedV.getD d [] = s.mach.coh.appliedV.getD d []) ∧
      (¬ next → exec (.updateReceive die k) s = .next s)) ∧
    (∀ v, (s.mach.coh.values.filter fun v => v.dst == die)[k]? = some v →
      let caught := ∀ j < 4, v.stamp.getD j 0 ≤ a.getD j 0
      (caught → ∃ m, exec (.valueReceive die k) s = .next { s with mach := reapWaves s.dev m } ∧ m.mem = s.mach.mem ∧
        m.coh.values = s.mach.coh.values.erase v ∧
        (die < s.mach.coh.knownV.length → ∀ j < 4, v.stamp.getD j 0 ≤ (m.coh.knownV.getD die []).getD j 0 ∧
          (s.mach.coh.knownV.getD die []).getD j 0 ≤ (m.coh.knownV.getD die []).getD j 0) ∧
        ∀ w x, v.what = .fill w x → s.mach.coh.state w = .unreg → s.mach.mem.word w = x → s.mach.coh.lost w = false →
          (m.coh.copies.find? fun c => c.die == die && c.word == w) = some ⟨die, w, x, s.mach.coh.gen, false⟩) ∧
      (¬ caught → exec (.valueReceive die k) s = .next s))) ∧
  (∀ s : State, (∀ u ∈ s.mach.coh.updates, u.dst < 4) →
    ∃ t, exec .clockRebase s = .next t ∧ t.mach.mem = s.mach.mem ∧ t.mach.coh.words = s.mach.coh.words ∧
      t.mach.coh.l1 = s.mach.coh.l1 ∧ t.mach.coh.updates = [] ∧
      t.mach.coh.values = s.mach.coh.values.map (fun v => { v with stamp := [0, 0, 0, 0] }) ∧
      t.mach.coh.appliedV = List.replicate 4 [0, 0, 0, 0] ∧ t.mach.coh.knownV = List.replicate 4 [0, 0, 0, 0] ∧
      t.mach.coh.issued = [0, 0, 0, 0] ∧ t.mach.coh.gen = s.mach.coh.gen + 1 ∧
      (∀ x ∈ t.mach.coh.stores, x.stamp = [0, 0, 0, 0]) ∧
      (s.mach.coh.gen = 0xFFFF → ∀ c ∈ t.mach.coh.copies, c.asleep = false)) ∧
  (∀ (s : State) (die w : Nat), s.mach.mem.wf = true →
    let line := fun (c : DieCopy) => c.die = die ∧ c.word / 8 = w / 8
    (∃ t, exec (.retentionSleepEntry die w) s = .next t ∧ (∀ v, t.mach.homeValue v = s.mach.homeValue v) ∧
      (∀ c ∈ t.mach.coh.copies, (line c → c.asleep = true) ∧
        ∃ b ∈ s.mach.coh.copies, b.die = c.die ∧ b.word = c.word ∧ b.gen = c.gen) ∧
      (wordDie w = die → ∀ v, v / 8 = w / 8 → t.mach.coh.ownerCore v = none)) ∧
    (∃ t, exec (.lineWake die w) s = .next t ∧ t.mach.mem = s.mach.mem ∧ t.mach.coh.words = s.mach.coh.words ∧
      ∀ c, c ∈ t.mach.coh.copies ↔ ∃ b ∈ s.mach.coh.copies,
        (¬ (line b ∧ b.asleep = true) ∧ c = b) ∨
        (line b ∧ b.asleep = true ∧ b.gen = s.mach.coh.gen ∧ c = { b with asleep := false }))) ∧
  (∀ (s : State) (k : Nat) (f : Fence), s.mach.coh.fences[k]? = some f → f.core < 256 →
    let m := releaseAt s.dev f.core f.order f.scope s.mach
    let goes := fun (m : Mach) => exec (.fenceArbiter k) s = .next { s with mach := m }
    (releaseDone m f.core f.wave f.mask f.order f.scope = false → goes m) ∧
    (releaseDone m f.core f.wave f.mask f.order f.scope = true →
      (¬ (f.order = .sc ∧ arbited f.scope = true) →
        (f.pc = none → goes (finishFence f m)) ∧ (f.pc ≠ none → goes m)) ∧
      (f.order = .sc → arbited f.scope = true →
        let counts := f.counts.getD m.coh.issued
        let g := { f with counts := some counts }
        let m1 := { m with coh := { m.coh with fences := updAt m.coh.fences k fun _ => g } }
        let ends := f.pc = none ∧ ∀ j < 4, counts.getD j 0 ≤ (m.coh.appliedV.getD (coreDie f.core) []).getD j 0
        (ends → goes (finishFence g m1)) ∧ (¬ ends → goes m1)))) ∧
  (∀ (f : Fence) (m : Mach), f ∈ m.coh.fences → m.coh.fences.Nodup →
    f ∉ (finishFence f m).coh.fences ∧
    (acquires f.order = true → wideScope f.scope = true →
      ∀ y ∈ (finishFence f m).coh.l1, y.core = f.core → y.reg = true) ∧
    (acquires f.order = true → f.code = true → ∀ w, (finishFence f m).wave f.core f.wave = some w → w.fetched = []))

/-- R82, R389, R391, R396, R399, R454, R456, R457: replicas, links, page walks and bus retries. A member that has not applied
a store in time is removed from its page group; a store that gets no response in time faults with 0x30 and is recorded; a
port that goes down is recorded and its accesses are sent at most once more; a completed walk enters its leaf in the TLB of
the die, which holds at most 8,192 entries; a transfer that a retry corrects is recorded as such, and the fifth
failure retires the frame and is met by the access as 0x11. Which accesses a lost port carried is the model's choice
(log 3), and so is which module a link that comes up does not reach (log 104). -/
def Obligations.FabricResults : Prop :=
  (∀ (s : State) (group member : Nat),
    let late := ∃ r ∈ s.mach.coh.reps, r.group = group ∧ member ∉ r.acked
    (late → member ∈ repMembers s.dev s.mach group →
      let m := writeErr s.dev ⟨7, 2, 5, 0, group, member, 0, 0, 0, 0⟩ s.mach
      let m1 := { m with coh := { m.coh with repOut := m.coh.repOut ++ [(group, member)] } }
      exec (.replicaMemberTimeout group member) s = .next { s with mach := settleReps s.dev group m1 } ∧
      member ∉ repMembers s.dev m1 group ∧ ¬ (repServes s.dev m1 group = true ∧ member = s.dev.att.modid.toNat)) ∧
    (¬ (late ∧ member ∈ repMembers s.dev s.mach group) → exec (.replicaMemberTimeout group member) s = .next s)) ∧
  (∀ (s : State) (k : Nat) (r : RemoteAcc) (x : Store), s.mach.coh.remote[k]? = some r →
    let m1 := { s.mach with coh := { s.mach.coh with remote := s.mach.coh.remote.erase r } }
    let parks := fun (e : ErrRec) => exec (.linkTimeout k) s = .next { s with mach := parkStore s.dev x 0x30 (writeErr s.dev e m1) }
    (s.mach.usec < r.sent + linkTimeout s.mach r.asid → exec (.linkTimeout k) s = .next s) ∧
    (r.sent + linkTimeout s.mach r.asid ≤ s.mach.usec → x ∈ s.mach.coh.stores → x.tag = r.store → x.record = none →
      (∀ y ∈ s.mach.coh.stores, y.tag = x.tag → y = x) →
      (∀ mod, r.module = some mod → parks ⟨4, 2, 0, 0, 0, mod, r.asid, 0x30, 0, 0⟩) ∧
      (r.module = none → parks ⟨5, 2, 0, 0, 0, x.pa - hostAddr 0, r.asid, 0x30, 0, 0⟩))) ∧
  (∀ (s : State) (c : Ctx), s.mach.ctx c.asid = some c →
    linkTimeout s.mach c.asid = if c.linkto = 0 then 50 else c.linkto) ∧
  (∀ (s : State) (port : Fin 12),
    let a := s.dev.att
    (a.linkup.getLsbD port.val = true → ∃ t, exec (.portLinkDown port.val) s = .next t ∧
      t.dev = { s.dev with att := t.dev.att } ∧ t.dev.att = { a with linkup := t.dev.att.linkup } ∧
      (∀ i, t.dev.att.linkup.getLsbD i = (a.linkup.getLsbD i && decide (i ≠ port.val))) ∧
      t.mach.mem = (writeErr t.dev ⟨4, 1, 1, 0, port.val, 0, 0, 0, 1, 0⟩ s.mach).mem ∧
      t.mach.coh.remote.length = s.mach.coh.remote.length ∧
      ∀ (i : Nat) (r : RemoteAcc), s.mach.coh.remote[i]? = some r → t.mach.coh.remote[i]? = some r ∨
        (r.module.isSome = true ∧ r.again = false ∧
          t.mach.coh.remote[i]? = some { r with sent := s.mach.usec, again := true })) ∧
    (a.linkup.getLsbD port.val = false → exec (.portLinkDown port.val) s = .next s) ∧
    (∃ t, exec (.portLinkUp port.val) s = .next t ∧ t.mach = (s.mach.choose 16385).2 ∧
      t.dev = { s.dev with att := t.dev.att } ∧ t.dev.att = { a with linkup := t.dev.att.linkup, cut := t.dev.att.cut } ∧
      (∀ q mod, q ≠ port.val → ((q, mod) ∈ t.dev.att.cut ↔ (q, mod) ∈ a.cut)) ∧
      ∀ i, t.dev.att.linkup.getLsbD i = (a.linkup.getLsbD i || (a.porten.getLsbD i && decide (i = port.val))))) ∧
  (∀ (s : State) (die : Nat) (c : Ctx) (va : BitVec 64), s.mach.ctx c.asid = some c → va.toNat < 2 ^ 57 →
    let hit := fun (t : TlbEnt) => t.die == die && t.asid == c.asid && t.page == va.toNat / 4096
    (∀ t ∈ s.mach.coh.tlb, hit t = false) →
    (∀ e lv, s.mach.walk c.ptroot.toNat va.toNat 5 = .ok (e, lv) →
      ∃ t, exec (.pageWalk die c.asid va) s = .next t ∧ t.mach.mem = s.mach.mem ∧ t.dev = s.dev ∧
        (t.mach.coh.tlb.find? hit) = some ⟨die, c.asid, va.toNat / 4096, BitVec.ofNat 64 e, lv⟩ ∧
        t.mach.leaf die c va.toNat = .ok (e, lv) ∧ (t.mach.coh.tlb.filter fun t => t.die == die).length ≤ 8192 ∧
        ∀ x ∈ s.mach.coh.tlb, x.die ≠ die → x ∈ t.mach.coh.tlb) ∧
    (∀ code, s.mach.walk c.ptroot.toNat va.toNat 5 = .error code → exec (.pageWalk die c.asid va) s = .next s)) ∧
  (∀ (s : State) (w : Wave) (addr : Nat) (groups : BitVec 16) (fails : Fin 6), s.mach.wave w.core w.id = some w →
    addr < hbmBytes →
    let rec_ := fun (sev act code retries : Nat) =>
      (⟨1, sev, act, dieOf addr, stackOf addr, addr, w.asid, code, retries, groups.toNat⟩ : ErrRec)
    let ev := exec (.busParityRetry w.core w.id addr groups fails) s
    (fails.val = 0 → ev = .next s) ∧
    (0 < fails.val → fails.val < 5 → ev = .next { s with mach := writeErr s.dev (rec_ 1 1 0 fails.val) s.mach }) ∧
    (fails.val = 5 → s.dev.srv.retired.length < 4096 → addr / 4096 ∉ s.dev.srv.retired →
      let d := { s.dev with srv := { s.dev.srv with retired := s.dev.srv.retired ++ [addr / 4096] } }
      let m := writeErr d (rec_ 2 3 0x11 4) s.mach
      ev = .next ⟨d, { m with failing := m.failing ++ [(w.core, 0x11, addr)] }, s.svc, s.svcq, s.agenda⟩))

/-! ## Dispatch (R154, R158, R159, R349, R350, R376 to R385) -/

/-- R377, R378, R381, R383: the moves by which dispatch takes tasks. A queue-table entry with EN 0 is deregistered; a changed
entry is applied with the QSTAT of its header; a change of TAIL is noticed. A turn dequeues the best head, unless a task of
its level or above has an unbound group, and binds what fits: the head's HEAD advances, and the task is refused with the
first reason that holds, or taken with the entry's words. Levels go first, then fault queues by deadline, then round-robin;
of the cores where a group fits, that with the fewest untaken bind records, then the lowest number. A deeper handler task
binds before any other, whatever their levels, by the model's reading of R159 (log 103). -/
def Obligations.DispatchTurnResults : Prop :=
  (∀ (s : State) (n : Nat) (q : QReg) (h : QHdr), s.mach.disp.queues.find? (fun q => q.n == n) = some q → q.qstat = 0 →
    readHdr s.dev s.mach q.asid q.hdr = some h →
    let put := fun (x : QReg) => if x.n = n then
      { x with tail := h.tail, seen := x.seen ++ [(x.tail, h.tail, s.mach.usec)] } else x
    (h.tail ≠ q.tail → exec (.tailChange n) s = .next { s with mach := { s.mach with disp := { s.mach.disp with
      queues := s.mach.disp.queues.map put } } }) ∧
    (h.tail = q.tail → exec (.tailChange n) s = .next s)) ∧
  (∀ s : State,
    (s.dev.att.attached = false → exec .qtsync s = .next s) ∧
    let synced := (queueNumbers s.dev s.mach).foldl (fun m n => applyEntry s.dev n m) s.mach
    (s.dev.att.attached = true → exec .qtsync s = .next { s with mach := synced })) ∧
  (∀ (d : Dev) (n : Nat) (m : Mach),
    let e := queueEntry d m n
    let t := applyEntry d n m
    let asid := BitVec.ofNat 16 (bitsOf e 64 16)
    let hdr := BitVec.ofNat 64 (bitsOf e 0 64)
    (bitOf e 80 = false → ∀ q, q ∈ t.disp.queues ↔ q ∈ m.disp.queues ∧ q.n ≠ n) ∧
    (bitOf e 80 = true → m.disp.queues.find? (fun q => q.n == n) = none →
      ∃ q, t.disp.queues.find? (fun q => q.n == n) = some q ∧ q.hdr = hdr ∧ q.asid = asid ∧ q.faultq = bitOf e 81 ∧
        q.watch = bitOf e 82 ∧
        (bitsOf e 83 45 ≠ 0 ∨ bitsOf e 136 120 ≠ 0 → q.qstat = 5) ∧
        (bitsOf e 83 45 = 0 → bitsOf e 136 120 = 0 →
          (resident m asid = false → q.qstat = 4) ∧
          (resident m asid = true → readHdr d m asid hdr = none → q.qstat = 3) ∧
          ∀ h, resident m asid = true → readHdr d m asid hdr = some h → q.tail = h.tail ∧
            (h.bad = true ∨ h.kind ≠ 0 ∨ h.clean = false → q.qstat = 1) ∧
            (h.bad = false → h.kind = 0 → h.clean = true →
              q.qstat = if h.cap < (h.tail + 2 ^ 32 - h.head) % 2 ^ 32 then 2 else 0)))) ∧
  (∀ (s : State) (m : Mach) (hs : List HeadEnt), heads s.dev s.mach = (m, hs) →
    let may := fun (m : Mach) (h : HeadEnt) => ∀ t ∈ m.disp.tasks, t.unbound.isSome = true → resident m t.asid = true →
      t.prio < h.level
    (hs = [] → exec .dispatchTurn s = .next { s with mach := bindAll s.dev m }) ∧
    ∀ h, bestOf (headBetter m) hs = some h →
      (may m h → exec .dispatchTurn s = .next { s with mach := bindAll s.dev (dequeueHead s.dev h m) }) ∧
      (¬ may m h → may (bindAll s.dev m) h →
        exec .dispatchTurn s = .next { s with mach := bindAll s.dev (dequeueHead s.dev h (bindAll s.dev m)) }) ∧
      (¬ may m h → ¬ may (bindAll s.dev m) h → exec .dispatchTurn s = .next { s with mach := bindAll s.dev m })) ∧
  (∀ (d : Dev) (h : HeadEnt) (m : Mach),
    let m1 := advanceHead d h.q h.idx { m with disp := { m.disp with
      rr := if h.q.faultq then m.disp.rr else (h.level, h.q.n) :: m.disp.rr.filter fun e => e.1 != h.level } }
    let lrAddr := h.entry.getD 0 0
    (taskReason d m1 h.q.asid lrAddr ≠ 0 → ftaskAt m h.q h.idx = none →
      dequeueHead d h m = countRefusal d h.q lrAddr (taskReason d m1 h.q.asid lrAddr) m1) ∧
    (taskReason d m1 h.q.asid lrAddr = 0 → ∃ t, (dequeueHead d h m).disp.tasks = m1.disp.tasks ++ [t] ∧
      t.lrAddr = lrAddr ∧ some t.lr = readVaWords d m1 h.q.asid lrAddr 16 ∧ t.asid = h.q.asid ∧ t.arg = h.entry.getD 1 0 ∧
      t.user0 = h.entry.getD 2 0 ∧ t.user1 = h.entry.getD 3 0 ∧ t.prio = h.level ∧ t.nextG = 0 ∧ t.live = 0 ∧
      t.groups = (t.field 256 32 + t.field 288 16 - 1) / t.field 288 16 ∧
      (ftaskAt m h.q h.idx = none → t.kind = 0 ∧ t.depth = 0 ∧ t.budget = t.field 416 32))) ∧
  (∀ (m : Mach) (a b : HeadEnt),
    (b.level < a.level → headBetter m a b = true ∧ headBetter m b a = false) ∧
    (a.level = b.level → a.q.faultq = true → b.q.faultq = false → headBetter m a b = true ∧ headBetter m b a = false) ∧
    (a.level = b.level → a.q.faultq = true → b.q.faultq = true → a.deadline m < b.deadline m → headBetter m a b = true) ∧
    (a.level = b.level → a.q.faultq = false → b.q.faultq = false → a.q.n < 16384 → b.q.n < 16384 →
      ∀ k < 16384, lastQueue m a.level = some k →
        (k < a.q.n → (b.q.n ≤ k ∨ a.q.n < b.q.n) → headBetter m a b = true) ∧
        (a.q.n < b.q.n → b.q.n ≤ k → headBetter m a b = true))) ∧
  (∀ (a b : Task),
    (b.depth < a.depth → a.bindsBefore b = true ∧ b.bindsBefore a = false) ∧
    (a.depth = b.depth → b.prio < a.prio → a.bindsBefore b = true ∧ b.bindsBefore a = false)) ∧
  (∀ (m : Mach) (t : Task) (n core : Nat), pickCore m t n = some core → t.stocks = false →
    core < 256 ∧ (freeRec m core).isSome = true ∧ groupFits m core false t n = true ∧
    ∀ c < 256, (freeRec m c).isSome = true → groupFits m c false t n = true →
      (boundRecs m core).length < (boundRecs m c).length ∨
      ((boundRecs m core).length = (boundRecs m c).length ∧ core ≤ c))

/-- R154, R158, R159, R380, R382, R385: bind records and the end of tasks. The record that comes first on its core is taken
when its group fits and no wave waits for a slot: its waves start with the entry's words and ARGPTR in s0 to s3, every
other register and predicate zero, at the record's ENTRY. A record still bound is withdrawn for a drain or a missed deadline. A
task with nothing left of it ends and is counted. A handler task that reaches its budget, over all of its waves, parks them
with 0x80 (log 60); a deadline passed parks a handler's waves with 0x81, or withdraws a task not taken; a held task is
delivered once its queue has room, and its deadline still counts from its parking, the model's choice (log 101). -/
def Obligations.BoundTaskResults : Prop :=
  (∀ (s : State) (b : BindRec) (t : Task), bestOf BindRec.before (boundRecs s.mach b.core) = some b →
    s.mach.task b.taskref = some t →
    let m := s.mach
    let slots := fun (stock : Bool) =>
      pickSlots stock (lrShadow t.lr) (waveCount (t.sizeOf b.gindex) (lrWidth t.lr)) (slotsUsed m b.core)
    (∀ xs, (∀ w ∈ m.waves, w.core = b.core → w.awaitsSlot = false) → groupFits m b.core false t b.gindex = true →
      slots false = some xs → exec (.bindTake b.core b.idx) s = .next { s with mach := takeRec s.dev b t xs m }) ∧
    (groupFits m b.core false t b.gindex = false → t.stocks = false → exec (.bindTake b.core b.idx) s = .next s) ∧
    (∀ idx ≠ b.idx, exec (.bindTake b.core idx) s = .next s)) ∧
  (∀ (t : Task) (c : Option Ctx) (b : BindRec) (h : Option (BitVec 64)) (gid i id slot : Nat) (shadow : Bool) (p : Option Nat)
    (l : Nat),
    let w := launchWave t c b h gid i id slot shadow p
    let tid := b.gindex * t.field 288 16 + i * lrWidth t.lr + l
    w.s = ([b.arg, b.user0, b.user1, t.word 2] ++ List.replicate 60 0).take (t.field 328 7) ∧
    (l < lrWidth t.lr → i * lrWidth t.lr + l < t.sizeOf b.gindex →
      (w.lane l).st = .run ∧ (w.lane l).tid = BitVec.ofNat 32 tid ∧ (w.lane l).group = some gid ∧
      (w.lane l).pc = (if shadow then t.word 1 else t.word 0) ∧
      (∀ x ∈ (w.lane l).v, x = 0) ∧ (∀ x ∈ (w.lane l).c, x = 0) ∧ (∀ x ∈ (w.lane l).p, x = false) ∧
      (w.lane l).v.length = (if shadow then t.field 371 10 else t.field 312 10)) ∧
    (t.sizeOf b.gindex ≤ i * lrWidth t.lr + l → w.lane l = noLane) ∧ w.prio = BitVec.ofNat 3 t.prio) ∧
  (∀ (a b : BindRec), a.deadline < 2 ^ 64 → b.deadline < 2 ^ 64 →
    (b.prio < a.prio → a.before b = true) ∧
    (a.prio = b.prio → a.deadline ≠ 0 → (b.deadline = 0 ∨ a.deadline < b.deadline) → a.before b = true) ∧
    (a.prio = b.prio → a.deadline = b.deadline → a.idx < b.idx → a.before b = true) ∧
    (a.before b = true → b.before a = false)) ∧
  (∀ (s : State) (b : BindRec), (boundRecs s.mach b.core).find? (fun x => x.idx == b.idx) = some b →
    let late := b.deadline ≠ 0 ∧ b.kind = 1 ∧ b.deadline ≤ s.mach.usec
    ((resident s.mach b.asid = false ∨ late) → ∃ t, exec (.bindWithdraw b.core b.idx) s = .next t ∧
      t.mach.waves = s.mach.waves ∧ t.mach.groups = s.mach.groups ∧ t.mach.mem = s.mach.mem ∧
      (∀ r ∈ t.mach.disp.slots, r.core = b.core → r.idx = b.idx → r.state = 2) ∧
      ∀ k, s.mach.task b.taskref = some k → t.mach.task b.taskref = some { k with back := k.back ++ [b.gindex] }) ∧
    (resident s.mach b.asid = true → ¬ late → exec (.bindWithdraw b.core b.idx) s = .next s)) ∧
  (∀ (s : State) (k : Nat) (t : Task), s.mach.disp.tasks[k]? = some t →
    (taskDone s.mach t = false → exec (.taskEnd k) s = .next s) ∧
    (taskDone s.mach t = true → t.ftask = none →
      let m := { s.mach with disp := { s.mach.disp with
        tasks := s.mach.disp.tasks.filter fun x => x.id != t.id
        slots := s.mach.disp.slots.filter fun x => x.taskref != t.id } }
      exec (.taskEnd k) s =
        .next { s with mach := if t.parent.isNone then addStatus s.dev t.asid (t.word 8) 4 m else m })) ∧
  (∀ (s : State) (w : Wave) (t : Task) (id : Nat), s.mach.wave w.core w.id = some w → w.task = some id → s.mach.task id = some t →
    ((t.kind ≠ 1 ∨ t.budget = 0 ∨ t.used < t.budget) → exec (.budgetExpired w.core w.id) s = .next s) ∧
    let mine := s.mach.waves.filter fun v => v.task == some t.id
    let spent := s.mach.updTask t.id fun x => { x with budget := 0 }
    (t.kind = 1 → t.budget ≠ 0 → t.budget ≤ t.used → exec (.budgetExpired w.core w.id) s =
      .next { s with mach := mine.foldl (fun m v => parkNoWord s.dev v.core v.id 0x80 m) spent })) ∧
  (∀ (s : State) (k : Nat) (t : FTask), s.mach.disp.ftasks[k]? = some t →
    let running := s.mach.waves.filter fun w =>
      (w.task.bind s.mach.task).bind Task.ftask == some t.id && w.parked.isNone && !w.ended
    let due := t.deadAbs ≠ 0 ∧ t.deadAbs ≤ s.mach.usec ∧ (s.mach.parkedAt t.asid t.handle).isSome = true
    (¬ due → exec (.deadlineExpired k) s = .next s) ∧
    (due → t.taken = false → exec (.deadlineExpired k) s = .next { s with mach := missDeadline s.dev t s.mach }) ∧
    (due → t.taken = true → running ≠ [] →
      let m := { s.mach with disp := { s.mach.disp with
        ftasks := updWhere (fun (x : FTask) => x.id == t.id) (fun x => { x with deadAbs := 0 }) s.mach.disp.ftasks } }
      exec (.deadlineExpired k) s =
        .next { s with mach := running.foldl (fun m w => parkNoWord s.dev w.core w.id 0x81 m) m })) ∧
  (∀ (d : Dev) (t : FTask) (m : Mach), ∀ x ∈ (withdrawTask d m t).disp.ftasks, x.id ≠ t.id) ∧
  (∀ (s : State),
    (∀ m, (s.mach.disp.ftasks.filter fun t => t.slot.isNone && !t.taken).findSome? (fun t => deliverHeld s.dev t s.mach) = some m →
      exec .stockpotDeliver s = .next { s with mach := m }) ∧
    ((∀ t ∈ s.mach.disp.ftasks, t.slot = none → t.taken = false → deliverHeld s.dev t s.mach = none) →
      exec .stockpotDeliver s = .next s)) ∧
  (∀ (d : Dev) (t : FTask) (m : Mach) (c : Ctx) (q : BitVec 64) (h : QHdr), m.ctx t.asid = some c →
    pickQueue d m t.asid t.queue (readVa64 d m t.asid c.faulttab) = some (q, h) →
    (h.cap ≤ h.count → deliverHeld d t m = none) ∧
    ∀ idx m1, h.count < h.cap →
      enqueueAt d m t.asid q h (taskEntry t.launch t.handle t.code t.prio t.depth t.budget t.deadUs) = some (idx, m1) →
      ∃ m2, deliverHeld d t m = some m2 ∧ m2.mem = m1.mem ∧
        ∀ x ∈ m2.disp.ftasks, x.id = t.id → x.slot = some idx ∧ x.queue = q)

/-! ## Service cores (R365, R366, R412 to R425) -/

/-- R412 to R420: `vspawn` and `vjoin` on the service core that the machine's choice selects. `vspawn` answers −7 in a
context that is not resident, minus the reason of a refusal, and otherwise hands dispatch a task with the entry's words
and answers its number of waves; `vjoin` reads its counter, completes once the count has met the target or the
context was killed, and waits until then. User mode, a target with bit 63 set, a misaligned counter and a capability
that does not grant the load raise exceptions 2, 2, 4 and 26. A capability's bounds decode by R414. -/
def Obligations.ServiceCoreResults : Prop :=
  (∀ (s : State) (n : Nat) (c : SvcCore) (rd rs1 rs2 : Fin 32), s.mach.cur = some (.service n) → s.svc[n]? = some c →
    let at1 := c.reg rs1.val
    let at2 := c.reg rs2.val
    let asid := c.svasid.setWidth 16
    let word := fun (funct3 : Nat) => BitVec.ofNat 64 (0x0B + 2 ^ 7 * rd.val + 2 ^ 12 * funct3 + 2 ^ 15 * rs1.val + 2 ^ 20 * rs2.val)
    let does := fun (i : Instr) (m : Mach) (f : SvcCore → SvcCore) =>
      exec i s = .next ({ s with mach := m }.updSvc n f)
    let traps := fun (i : Instr) (cause : Nat) (tval : BitVec 64) => exec i s = .next (raiseSvc n cause tval s)
    let spawn := Instr.vspawn rd rs1 rs2
    let join := Instr.vjoin rd rs1 rs2
    let why := taskReason s.dev s.mach asid at1
    (c.user = true → traps spawn 2 (word 0) ∧ traps join 2 (word 1)) ∧
    (c.user = false →
      (resident s.mach asid = false → does spawn s.mach fun c => c.finish rd.val (-7#64)) ∧
      (resident s.mach asid = true → why ≠ 0 →
        does spawn (countStatus s.dev asid at1 why s.mach) fun c => c.finish rd.val (-(BitVec.ofNat 64 why))) ∧
      (resident s.mach asid = true → why = 0 → ∃ lr, readVaWords s.dev s.mach asid at1 16 = some lr ∧
        does spawn (spawnTask c at1 at2 lr s.mach) fun c => c.finish rd.val (BitVec.ofNat 64 (spawnWaves lr))) ∧
      (at2.getLsbD 63 = true → traps join 2 (word 1)) ∧
      (at2.getLsbD 63 = false →
        (at1.toNat % 8 ≠ 0 → traps join 4 at1) ∧
        (at1.toNat % 8 = 0 → capGrants c rs1.val 8 106 = false →
          exec join s = .next (raiseSvc n 26 at1 (logViolation .service .read at1 s))) ∧
        (at1.toNat % 8 = 0 → capGrants c rs1.val 8 106 = true →
          ∀ x, serviceLoad s.dev s.mach c at1 = .ok x →
            ((x.getLsbD 63 = true ∨ at2.toNat ≤ x.toNat % 2 ^ 63) → does join s.mach fun c => c.finish rd.val x) ∧
            (x.getLsbD 63 = false → x.toNat % 2 ^ 63 < at2.toNat →
              does join s.mach fun c => { c with joining := some (rd.val, rs1.val, rs2.val) }))))) ∧
  (∀ (s : State) (n : Nat) (c : SvcCore) (rd rs1 rs2 : Nat), s.svc[n]? = some c → c.joining = some (rd, rs1, rs2) →
    ∀ x, serviceLoad s.dev s.mach c (c.reg rs1) = .ok x →
      (joinMet x (c.reg rs2) = true → exec (.vjoinWake n) s = .next (s.updSvc n fun c => c.finish rd x)) ∧
      (joinMet x (c.reg rs2) = false → exec (.vjoinWake n) s = .next s)) ∧
  (∀ (c : SvcCore) (rd : Nat) (x : BitVec 64), c.x.length = 32 → rd < 32 →
    let t := c.finish rd x
    t.pc = c.pc + 4 ∧ t.reg 0 = 0 ∧ (rd ≠ 0 → t.reg rd = x) ∧ (∀ k, k ≠ rd → t.reg k = c.reg k) ∧ t.joining = none) ∧
  (∀ (c : SvcCore) (a1 a2 : BitVec 64) (lr : List (BitVec 64)) (m : Mach), ∃ t,
    (spawnTask c a1 a2 lr m).disp.tasks = m.disp.tasks ++ [t] ∧ t.lrAddr = a1 ∧ t.arg = a2 ∧ t.user0 = c.svjctr ∧
      t.user1 = 0 ∧ t.jctr = c.svjctr ∧ t.asid = c.svasid.setWidth 16 ∧ t.prio = lrField lr 306 3 ∧ t.lr = lr) ∧
  (∀ (addr hi : BitVec 64) (base top : Nat), capBounds addr hi = some (base, top) →
    let g := hi.toNat % 64
    g ≤ 46 ∧ base % 2 ^ g = 0 ∧ base / 2 ^ g % 2 ^ 18 = hi.toNat / 64 % 2 ^ 18 ∧ base ≤ addr.toNat ∧
    addr.toNat < base + 2 ^ (g + 18) ∧ top ≤ 2 ^ 64 ∧
    top = base + (if hi.toNat / 2 ^ 24 % 2 ^ 18 = 0 then 2 ^ 18 else hi.toNat / 2 ^ 24 % 2 ^ 18) * 2 ^ g ∧
    ∀ a : BitVec 64, base ≤ a.toNat → a.toNat < base + 2 ^ (g + 18) → capBounds a hi = some (base, top)) ∧
  (∀ (c : SvcCore) (r size right : Nat), capGrants c r size right = true → ∃ hi base top,
    c.caps.getD r none = some hi ∧ capBounds (c.reg r) hi = some (base, top) ∧ hi.toNat / 2 ^ 54 = 0 ∧
    base ≤ (c.reg r).toNat ∧ (c.reg r).toNat + size ≤ top ∧ bitOf hi.toNat (right - 64) = true ∧
    ((c.reg r).getLsbD 63 = true → bitOf hi.toNat 49 = true) ∧
    (0x10000000000 ≤ (c.reg r).toNat → (c.reg r).toNat < 0x10000000000 + 2 ^ 26 → bitOf hi.toNat 50 = true))

/-- R365, R366, R421, R422: the service OS serves the head request of a registered queue. The request is dequeued, and its
reply block takes the result and then status 1, or status 2 with result 0 for a refusal. MAP places the page of a late-bound
window (log 107) outside every window, with the window's backing data in its frame, and places it once; UNMAP and FREE remove what was placed; ALLOC maps zeroed pages; FREAD and FWRITE copy the bytes that the file
bounds; LOG appends the message to the ring. Where the service OS places a page, and from which frame, are the event's
arguments. -/
def Obligations.ServiceRequestResults : Prop :=
  (∀ (s : State) (k : Nat) (q : SvcQueue) (h : QHdr) (r : SvcReq) (place frame : BitVec 64), s.svcq[k]? = some q →
    headRequest s.dev s.mach q = some (h, r) →
    let page := BitVec.ofNat 64 (r.arg0.toNat / 4096 * 4096)
    let m := setHdr s.dev s.mach q.asid q.hdr 0 ((h.head + 1) % 2 ^ 32)
    let answers := fun (i : Instr) (m : Mach) (x : Nat) =>
      exec i s = .next { s with mach := sendReply s.dev q.asid r.reply (some x) m }
    let refuses := fun (i : Instr) => exec i s = .next { s with mach := sendReply s.dev q.asid r.reply none m }
    let placed := fun (p : Placement) => findPlace m q.asid (fun x => !x.alloc && x.src == page) = some p
    let held := fun (alloc : Bool) (p : Placement) =>
      findPlace m q.asid (fun x => (x.alloc == alloc) && x.va == r.arg0) = some p
    let len := r.high / 2 ^ 16
    ((r.op = 0 ∨ 7 < r.op) → refuses (.map k place frame) ∧ refuses (.unmap k) ∧ refuses (.alloc k place frame) ∧
      refuses (.free k) ∧ refuses (.fread k) ∧ refuses (.fwrite k) ∧ refuses (.log k)) ∧
    (r.op = 1 →
      (r.high ≠ 0 ∨ r.arg1 ≠ 0 ∨ windowOf m q.asid r.arg0.toNat = none → refuses (.map k place frame)) ∧
      (∀ win, r.high = 0 → r.arg1 = 0 → windowOf m q.asid r.arg0.toNat = some win →
        let data := fun (m : Mach) => m.homeBytes (win.backing + (page.toNat - win.base.toNat)) 4096
        (∀ p, placed p → answers (.map k place frame) m p.va.toNat) ∧
        ((∀ p, ¬ placed p) → place ≠ 0 → windowOf m q.asid place.toNat = none →
          ∀ m1, mapPage q.asid place.toNat frame.toNat m = some m1 →
            answers (.map k place frame) (notePlace q.asid ⟨place, page, 4096, false⟩ (m1.devWrite frame.toNat (data m1)))
              place.toNat) ∧
        ((∀ p, ¬ placed p) → (place = 0 ∨ windowOf m q.asid place.toNat ≠ none ∨
          mapPage q.asid place.toNat frame.toNat m = none) → refuses (.map k place frame)))) ∧
    (r.op = 2 → r.high = 0 → r.arg1 = 0 →
      (∀ p, held false p → answers (.unmap k) (dropPlace q.asid p (unmapPages s.dev q.asid p.va.toNat 1 m)) 0) ∧
      ((∀ p, ¬ held false p) → refuses (.unmap k))) ∧
    (r.op = 3 →
      let pages := (r.arg1.toNat + 4095) / 4096
      (∀ i m1, r.high = 0 → i ≤ 18 → r.arg0.toNat = 4096 * 2 ^ i → r.arg1 ≠ 0 → r.arg1.toNat ≤ 2 ^ 40 → place ≠ 0 →
        place.toNat % r.arg0.toNat = 0 → frame.toNat + 4096 * pages ≤ privateBase →
        mapPages q.asid place.toNat frame.toNat pages m = some m1 →
        answers (.alloc k place frame)
          (notePlace q.asid ⟨place, 0, 4096 * pages, true⟩ (zeroRange frame.toNat (4096 * pages) m1)) place.toNat) ∧
      (r.high ≠ 0 ∨ r.arg1 = 0 ∨ 2 ^ 40 < r.arg1.toNat ∨ place = 0 → refuses (.alloc k place frame))) ∧
    (r.op = 4 → r.high = 0 → r.arg1 = 0 →
      (∀ p, held true p → answers (.free k) (dropPlace q.asid p (unmapPages s.dev q.asid p.va.toNat (p.bytes / 4096) m)) 0) ∧
      ((∀ p, ¬ held true p) → refuses (.free k))) ∧
    (∀ write i, (r.op = 5 ∧ write = false ∧ i = .fread k) ∨ (r.op = 6 ∧ write = true ∧ i = .fwrite k) →
      ((len = 0 ∨ q.ftcount ≤ r.high % 2 ^ 16) → refuses i) ∧
      ∀ base size, 0 < len → fileOf s.dev m q (r.high % 2 ^ 16) = some (base, size) →
        let n := min len (size - r.arg1.toNat)
        let from_ := if write then r.arg0 else base + r.arg1
        let goal := if write then base + r.arg1 else r.arg0
        (size ≤ r.arg1.toNat → answers i m 0) ∧
        (r.arg1.toNat < size → ∀ bs m1, readAs s.dev m q.asid from_ n = some bs →
          writeVa s.dev m q.asid goal bs false = some m1 → answers i m1 n) ∧
        (r.arg1.toNat < size → readAs s.dev m q.asid from_ n = none → refuses i)) ∧
    (r.op = 7 → r.high % 2 ^ 16 = 0 → r.arg1 = 0 →
      ((len = 0 ∨ 4096 < len ∨ q.logring = 0) → refuses (.log k)) ∧
      ∀ bs m1, 0 < len → len ≤ 4096 → q.logring ≠ 0 → readAs s.dev m q.asid r.arg0 len = some bs →
        q.logpos % 65536 + len ≤ 65536 →
        writeVa s.dev m q.asid (q.logring + BitVec.ofNat 64 (q.logpos % 65536)) (bs.take len) false = some m1 →
        ∃ t, exec (.log k) s = .next t ∧ t.mach = sendReply s.dev q.asid r.reply (some 0) m1 ∧
          t.svcq[k]? = some { q with logpos := q.logpos + len })) ∧
  (∀ (d : Dev) (asid : BitVec 16) (reply : BitVec 64) (m : Mach) (x : Nat), reply.toNat % 16 = 0 →
    ∀ m1 m2, writeVa d m asid (reply + 8) (toBytes 8 x) true = some m1 →
      writeVa d m1 asid reply (toBytes 8 1) true = some m2 → sendReply d asid reply (some x) m = m2) ∧
  (∀ (asid : BitVec 16) (c : Ctx) (va frame : Nat) (m m1 : Mach), m.ctx asid = some c → m.mem.wf = true →
    mapPage asid va frame m = some m1 → ∃ a, leafSlot m c.ptroot.toNat va 4 = some a ∧
      (m.homeValue (a / 8)).getLsbD 0 = false ∧ (a % 8 = 0 → (m1.homeValue (a / 8)).toNat = frame + 0xF))

/-! ## Contexts (R341, R361, R362, R392 to R408) -/

/-- R392 to R395, R400, R408: the commands of the control block. A command is ignored while one runs or the device does not
serve; it ends with 1 for an ASID not found, 2 for a wrong state, 6 for an unknown code, and then changes nothing else.
LOAD checks the descriptor and makes the context resident; KILL kills it by containment; UNLOAD frees its ASID; INVAL
leaves no translation of the range; STEP writes two bits of a wave's `%step`; FREEZE stops every wave and THAW releases
them, and no group changes but that a write of the device to a word that it holds marks its conflict (R113). -/
def Obligations.ContextCommandResults : Prop :=
  (∀ s : State, (s.dev.serves = false ∨ s.dev.ctl.cmdbusy = true) → (∀ c ∈ s.mach.ctxs, c.restoring = false) →
    ∀ i code, i ∈ [Instr.load, .preempt, .restore, .kill, .unload, .inval, .stepCmd, .freeze, .thaw, .cmdUnknown code] →
      exec i s = .next s) ∧
  (∀ s : State, s.dev.serves = true → s.dev.ctl.cmdbusy = false → (∀ c ∈ s.mach.ctxs, c.restoring = false) →
    let ends := fun (i : Instr) (res : Nat) (m : Mach) => exec i s = .next (ctlEnd res { s with mach := m })
    let plain := fun (gs : List Group) => gs.map fun g => { g with conflict := false }
    let takes := fun (i : Instr) => i ∈ [Instr.preempt, .restore, .kill, .unload, .inval, .stepCmd, .freeze, .thaw]
    (s.mach.ctx s.dev.ctl.cmdasid = none → ∀ i, takes i → ends i 1 s.mach) ∧
    (∀ code : BitVec 4, code = 0 ∨ 9 < code.toNat → ends (.cmdUnknown code) 6 s.mach) ∧
    (∀ c, s.mach.ctx s.dev.ctl.cmdasid = some c →
      let st := c.cstate
      (st ≠ .resident → ∀ i ∈ [Instr.preempt, .stepCmd, .freeze, .thaw], ends i 2 s.mach) ∧
      (st ≠ .saved → ends .restore 2 s.mach) ∧ (st = .nonresident ∨ st = .killed → ends .kill 2 s.mach) ∧
      (st ≠ .saved → st ≠ .killed → ends .unload 2 s.mach) ∧ (st = .nonresident → ends .inval 2 s.mach) ∧
      (st ≠ .nonresident → st ≠ .killed →
        ends .kill 0 (killCtx s.dev 0xFF c.asid (refreshDesc s.dev c.asid s.mach))) ∧
      (st = .saved ∨ st = .killed → ∃ m, ends .unload 0 m ∧ m.ctx c.asid = none ∧ (∀ t ∈ m.coh.tlb, t.asid ≠ c.asid) ∧
        ∀ t ∈ m.coh.ats, t.asid ≠ c.asid) ∧
      (st ≠ .nonresident → ∃ m, ends .inval 0 m ∧
        ∀ t ∈ m.coh.tlb, t.asid = c.asid → leafBytes t.level = 4096 → bitOf t.entry.toNat 5 = false →
          4096 * t.page + 4096 ≤ s.dev.ctl.cmdarg.toNat ∨
          s.dev.ctl.cmdarg.toNat + s.dev.ctl.cmdlen.toNat ≤ 4096 * t.page) ∧
      (st = .resident →
        (∀ w, s.mach.wave (s.dev.ctl.cmdarg.toNat % 256) (s.dev.ctl.cmdarg.toNat / 256 % 256) = some w → w.asid = c.asid →
          ∃ f, ends .stepCmd 0 (s.mach.updWave w.core w.id f) ∧ f w = { w with
            step := (w.step &&& ~~~3) ||| BitVec.ofNat 64 (s.dev.ctl.cmdarg.toNat / 2 ^ 16 % 4)
            stopped := w.stopped && !c.frozen }) ∧
        (∀ on i, (on = true ∧ i = Instr.freeze) ∨ (on = false ∧ i = .thaw) → ∃ m k, ends i 0 m ∧
          m.ctx c.asid = some k ∧ k = { c with frozen := on, groups := k.groups } ∧ plain k.groups = plain c.groups ∧
          plain m.groups = plain s.mach.groups ∧ m.waves.length = s.mach.waves.length ∧
          ∀ w ∈ m.waves, w.asid = c.asid → w.stopped = on))) ∧
    (let idx := s.dev.ctl.cmdarg.toNat
     let n := readDesc s.dev s.mach idx
     let asid := BitVec.ofNat 16 (bitsOf n 0 16)
     (256 ≤ idx ∨ bitsOf n 0 16 = 0 ∨ bitsOf n 64 12 ≠ 0 ∨ bitsOf n 256 12 ≠ 0 ∨ bitsOf n 320 32 < 9 ∨ bitsOf n 516 508 ≠ 0 →
       ends .load 3 s.mach) ∧
     (idx < 256 → descBad n = false →
       (∀ old, s.mach.ctx asid = some old → old.cstate = .resident → ends .load 3 s.mach) ∧
       (s.mach.ctx asid = none →
         let m := { s.mach with ctxs := s.mach.ctxs ++ [ctxOf idx n] }
         (faultTableBad s.dev m asid (BitVec.ofNat 64 (bitsOf n 128 64)) = true → ends .load 3 s.mach) ∧
         (faultTableBad s.dev m asid (BitVec.ofNat 64 (bitsOf n 128 64)) = false →
           (256 ≤ residentCount s.mach → ends .load 4 s.mach) ∧
           (residentCount s.mach < 256 → ∃ m2 c, ends .load 0 m2 ∧ m2.ctx asid = some c ∧ c.cstate = .resident ∧
             c.idx = idx ∧ c.ptroot.toNat = bitsOf n 64 64 ∧ c.faulttab.toNat = bitsOf n 128 64 ∧
             c.memdef.toNat = bitsOf n 192 64 ∧ c.savearea.toNat = bitsOf n 256 64 ∧ c.savesize = bitsOf n 320 32 ∧
             c.drainus = bitsOf n 352 16 ∧ c.saveus = bitsOf n 368 16 ∧ c.linkto = bitsOf n 384 16 ∧
             c.pasid.toNat = bitsOf n 16 20 ∧ c.frozen = false ∧ m2.waves.length = s.mach.waves.length)))))) ∧
  (∀ (s : State) (res : Fin 7), let t := ctlEnd res.val s
    t.dev.ctl.cmdbusy = false ∧ t.dev.ctl.cmdres.toNat = res.val ∧ t.mach = s.mach ∧ t.svc = s.svc) ∧
  (∀ (d : Dev) (cause : Nat) (m : Mach) (c : Ctx), m.ctx c.asid = some c → ∃ k, (killCtx d cause c.asid m).ctx c.asid = some k ∧
    k.cstate = .killed ∧ k.killCause = cause ∧ k.groups = [] ∧ k.waves = [] ∧
    (∀ w ∈ (killCtx d cause c.asid m).waves, w.asid ≠ c.asid) ∧ (∀ g ∈ (killCtx d cause c.asid m).groups, g.asid ≠ c.asid) ∧
    (∀ x ∈ (killCtx d cause c.asid m).coh.stores, x.asid ≠ c.asid) ∧
    (∀ t ∈ (killCtx d cause c.asid m).disp.tasks, t.asid ≠ c.asid) ∧
    ∀ q ∈ (killCtx d cause c.asid m).disp.queues, q.asid = c.asid → q.qstat = 4)

/-- R341, R361, R362, R404 to R407: pre-emption and restoring. PREEMPT begins the drain: bound records are withdrawn and the
queues read QSTAT 4; the drain ends when no group is left or its time has passed, and the save takes every wave but those
that have passed a marker within 32 words. In time, and within the save area, the image leaves the cores and the context
is saved; at the deadline a wave that still runs to a marker is saved whole (log 105); otherwise the context is killed with
result 5. RESTORE places units of groups and waves whole, and ends when every one is
placed. The size of an image is a free value within the bound of R406. -/
def Obligations.PreemptionResults : Prop :=
  (∀ (s : State) (c : Ctx), s.dev.serves = true → s.dev.ctl.cmdbusy = false → s.mach.ctx s.dev.ctl.cmdasid = some c →
    c.cstate = .resident → ∃ t k, exec .preempt s = .next t ∧ t.dev.ctl.cmdbusy = true ∧
      t.mach.ctx c.asid = some k ∧ k = { c with cstate := .draining, drainT := k.drainT, groups := k.groups } ∧
      k.drainT = s.mach.usec + (if c.drainus = 0 then 200 else c.drainus) ∧
      (∀ r ∈ t.mach.disp.slots, r.asid = c.asid → r.state ≠ 0) ∧
      (∀ q ∈ t.mach.disp.queues, q.asid = c.asid → q.qstat = 4) ∧
      t.mach.groups.map (fun g => { g with conflict := false }) = s.mach.groups.map fun g => { g with conflict := false }) ∧
  (∀ (s : State) (c : Ctx), s.mach.ctx c.asid = some c →
    let left := ∃ g ∈ s.mach.groups, g.asid = c.asid
    ((c.cstate ≠ .draining ∨ (left ∧ s.mach.usec < c.drainT)) → exec (.drainEnd c.asid) s = .next s) ∧
    (c.cstate = .draining → (¬ left ∨ c.drainT ≤ s.mach.usec) → ∃ t k, exec (.drainEnd c.asid) s = .next t ∧
      t.dev = s.dev ∧ t.mach.ctx c.asid = some k ∧ k = { c with cstate := .saving, drainT := k.drainT, groups := k.groups } ∧
      k.drainT = s.mach.usec + (if c.saveus = 0 then 2000 else c.saveus) ∧
      t.mach.groups.map (fun g => { g with conflict := false }) = s.mach.groups.map (fun g => { g with conflict := false }) ∧
      t.mach.waves.length = s.mach.waves.length ∧
      ∀ w ∈ t.mach.waves, w.asid = c.asid →
        w.saved = if w.marker.isSome && decide (w.ckCount ≤ 32) then none else some none)) ∧
  (∀ (s : State) (c : Ctx), s.mach.ctx c.asid = some c → c.cstate = .saving →
    let m := saveStores s.dev c.asid s.mach
    let ev := exec (.saveComplete c.asid) s
    ((∀ k, m.ctx c.asid = some k → k.cstate ≠ .saving ∨ k.drainT < m.usec ∨ saveReady c.asid m = false) →
      ev = .next { s with mach := m }) ∧
    (∀ k, m.ctx c.asid = some k → k.cstate = .saving → m.usec ≤ k.drainT → saveReady c.asid m = true →
      ev = .next (saveNow k { s with mach := m })) ∧
    (s.mach.usec < c.drainT → exec (.saveDeadline c.asid) s = .next s) ∧
    (c.drainT ≤ s.mach.usec →
      let runs := fun (w : Wave) => w.asid == c.asid && !w.ended && !saveTaken s.mach w
      let m := saveStores s.dev c.asid { s.mach with
        waves := updWhere runs (fun w => { w with saved := some none }) s.mach.waves }
      ((∃ w ∈ s.mach.waves, runs w = true) → saveReady c.asid m = true →
        exec (.saveDeadline c.asid) s = .next (saveNow c { s with mach := m })) ∧
      ((∀ w ∈ s.mach.waves, runs w = false) ∨ saveReady c.asid m = false →
        exec (.saveDeadline c.asid) s = .next (ctlEnd 5 { s with mach := killCtx s.dev 0xFF c.asid m })))) ∧
  (∀ (s : State) (c : Ctx),
    let bound := sumNat ((s.mach.groups.filter fun g => g.asid == c.asid).map (imageBound s.mach))
    let m1 := { s.mach with freeCount := s.mach.freeCount + 1 }
    ∃ bytes, 36864 ≤ bytes ∧ bytes ≤ 36864 + bound ∧
      (4096 * c.savesize < bytes → saveNow c s = ctlEnd 5 { s with mach := killCtx s.dev 0xFF c.asid m1 }) ∧
      (bytes ≤ 4096 * c.savesize →
        saveNow c s = ctlEnd 0 { s with mach := setCState s.dev c.asid .saved (saveImage s.dev c bytes m1) })) ∧
  (∀ (d : Dev) (c : Ctx) (bytes : Nat) (m : Mach), m.ctx c.asid = some c → ∃ k, (saveImage d c bytes m).ctx c.asid = some k ∧
    k.groups.length = (m.groups.filter fun g => g.asid == c.asid).length ∧
    k.waves.length = (m.waves.filter fun w => w.asid == c.asid).length ∧
    (∀ w ∈ (saveImage d c bytes m).waves, w.asid ≠ c.asid) ∧ ∀ g ∈ (saveImage d c bytes m).groups, g.asid ≠ c.asid) ∧
  (∀ (rs : List (Nat × Nat × Nat)) (w : Wave) (i : Nat),
    let v := saveWave (some rs) w
    saveWave none w = w ∧
    v.s.getD i 0 = (if ckLive rs 2 i then w.s.getD i 0 else 0) ∧
    ∀ l, ((v.lane l).v.getD i 0 = if ckLive rs 0 i then (w.lane l).v.getD i 0 else 0) ∧
      ((v.lane l).c.getD i 0 = if ckLive rs 1 i then (w.lane l).c.getD i 0 else 0) ∧
      ((v.lane l).p.getD i false = if ckLive rs 3 i then (w.lane l).p.getD i false else false) ∧
      (v.lane l).pc = (w.lane l).pc) ∧
  (∀ (s : State) (c k : Ctx), s.dev.serves = true → s.dev.ctl.cmdbusy = false → s.mach.ctx s.dev.ctl.cmdasid = some c →
    (∀ x ∈ s.mach.ctxs, x.restoring = false) → c.cstate = .saved →
    let m0 := refreshDesc s.dev c.asid (s.mach.updCtx c.asid fun x => { x with restoring := true })
    let m := placeUnits c.asid (c.groups.length + c.waves.length) m0
    m.ctx c.asid = some k →
      (k.groups = [] → k.waves = [] → (∀ x ∈ m.disp.parked, x.asid = c.asid → x.code ≠ 0x04) → ∃ t k2, exec .restore s = .next t ∧ t.dev.ctl.cmdbusy = false ∧
        t.dev.ctl.cmdres = 0 ∧ t.mach.ctx c.asid = some k2 ∧ k2.cstate = .resident ∧ k2.restoring = false) ∧
      ((k.groups ≠ [] ∨ k.waves ≠ []) → ∃ t, exec .restore s = .next t ∧ t.mach = m ∧ t.dev.ctl.cmdbusy = true)) ∧
  (∀ (asid : BitVec 16) (core : Nat) (gs : List Group) (ws : List Wave) (m : Mach),
    (∀ g ∈ gs, { g with core := core } ∈ (placeUnit asid core gs ws m).groups) ∧
    (∀ w ∈ ws, ∃ v ∈ (placeUnit asid core gs ws m).waves, v.core = core ∧ v.id = w.id ∧ v.s = w.s ∧ v.lanes = w.lanes) ∧
    ∀ w ∈ m.waves, ∃ v ∈ (placeUnit asid core gs ws m).waves, v.core = w.core ∧ v.id = w.id ∧ v.lanes = w.lanes)

/-! ## The host (R12, R370 to R373, R401 to R403, R424, R435) -/

/-- R12, R371, R373, R392, R423, R439: attaching and the plain register fields. ATTACH agrees on version 1 of each interface
that the host supports, and succeeds only with interfaces 0, 1 and 2, a mode of 1 or 2 and, for mode 1, the link up. A write
changes its field alone; IFHOST, MODE and POLLINT are fixed while attached, fields of an interface not agreed, values out of
range and the reserved MODE 3 are ignored, and a service core's `svasid` and `svjctr` raise an illegal-instruction exception in user mode or for a
reserved bit. MODE 0 and 3 attach to nothing by the model's reading, and whether a CXL link comes up is the model's choice
(log 3). -/
def Obligations.AttachResults : Prop :=
  (∀ s : State, s.dev.ready = true → s.dev.ctl.recovery = false → s.dev.att.attached = false →
    let a := s.dev.att
    let lacks := ∃ n < 3, a.ifhost.toNat / 2 ^ (4 * n) % 16 = 0
    ∃ t, exec .attach s = .next t ∧ t.mach.mem = s.mach.mem ∧ t.dev.ctl = s.dev.ctl ∧ t.dev.mgt = s.dev.mgt ∧
      (∀ n < 7, t.dev.att.ifneg.toNat / 2 ^ (4 * n) % 16 = if a.ifhost.toNat / 2 ^ (4 * n) % 16 = 0 then 0 else 1) ∧
      t.dev.att = { a with ifneg := t.dev.att.ifneg, attached := t.dev.att.attached, refused := !t.dev.att.attached } ∧
      (a.mode = 2 → ¬ lacks → t.dev.att.attached = true) ∧ (lacks → t.dev.att.attached = false) ∧
      (a.mode = 0 ∨ a.mode = 3 → t.dev.att.attached = false) ∧
      (a.mode = 1 → ¬ lacks → (s.mach.choose 2).1 = 0 → t.dev.att.attached = true)) ∧
  (∀ s : State, (s.dev.ready = false ∨ s.dev.ctl.recovery = true ∨ s.dev.att.attached = true) → exec .attach s = .next s) ∧
  (∀ (s : State) (v : BitVec 64), s.dev.ready = true → s.dev.ctl.recovery = false → s.dev.ctl.powered = true →
    s.dev.att.refused = false →
    let writes := fun (f : RegField) (t : State) => exec (.registerWrite f v) s = .next t
    let at_ := fun (f : Attach → Attach) => { s with dev := { s.dev with att := f s.dev.att } }
    let ct := fun (f : Control → Control) => { s with dev := { s.dev with ctl := f s.dev.ctl } }
    let mg := fun (f : Mgmt → Mgmt) => { s with dev := { s.dev with mgt := f s.dev.mgt } }
    let sv := fun (f : Survival → Survival) => { s with dev := { s.dev with srv := f s.dev.srv } }
    let n := v.toNat
    (s.dev.att.attached = true → writes .ifhost s ∧ writes .mode s ∧ writes .pollint s) ∧
    (s.dev.att.attached = false → writes .ifhost (at_ fun a => { a with ifhost := v }) ∧
      (n % 4 ≠ 3 → writes .mode (at_ fun a => { a with mode := v.setWidth 2 })) ∧ (n % 4 = 3 → writes .mode s) ∧
      writes .pollint (at_ fun a => { a with pollint := v.setWidth 16 })) ∧
    writes .qtbase (at_ fun a => { a with qtbase := v }) ∧ writes .rgbase (at_ fun a => { a with rgbase := v }) ∧
    writes .porten (at_ fun a => { a with porten := v.setWidth 12 }) ∧
    writes .ctxbase (ct fun c => { c with ctxbase := v }) ∧ writes .cmdasid (ct fun c => { c with cmdasid := v.setWidth 16 }) ∧
    writes .cmdarg (ct fun c => { c with cmdarg := v }) ∧ writes .cmdlen (ct fun c => { c with cmdlen := v }) ∧
    (s.dev.att.attached = true →
      let on := fun (k : Nat) => s.dev.agreed k = true
      (on 6 → writes .mbbuf (mg fun g => { g with mbbuf := v }) ∧
        (400 ≤ n % 2 ^ 12 → n % 2 ^ 12 ≤ 2400 → writes .pwrcap (mg fun g => { g with pwrcap := v.setWidth 12 })) ∧
        (70 ≤ n % 256 → n % 256 ≤ 100 → writes .tlimit (mg fun g => { g with tlimit := v.setWidth 8 }))) ∧
      ((¬ on 6 ∨ n % 2 ^ 12 < 400 ∨ 2400 < n % 2 ^ 12) → writes .pwrcap s) ∧
      ((¬ on 6 ∨ n % 256 < 70 ∨ 100 < n % 256) → writes .tlimit s) ∧ (¬ on 6 → writes .mbbuf s) ∧
      (on 4 → writes .svasid (sv fun x => { x with svasid := v.setWidth 16 }) ∧
        writes .srcmod (sv fun x => { x with srcmod := v.setWidth 14 }) ∧
        writes .holdmod (sv fun x => { x with holdmod := v.setWidth 14 }) ∧
        (s.dev.srv.pstate = 0 → writes .partner (sv fun x => { x with partner := v.setWidth 14 })) ∧
        (s.dev.srv.pstate ≠ 0 → writes .partner s) ∧
        ((∀ c ∈ s.mach.ctxs, c.snap.armed = false) → writes .rsvbase (sv fun x => { x with rsvbase := v }) ∧
          (1 ≤ n % 64 → n % 64 ≤ 50 → writes .rsvpct (sv fun x => { x with rsvpct := v.setWidth 6 })))) ∧
      ((¬ on 4 ∨ ∃ c ∈ s.mach.ctxs, c.snap.armed = true) → writes .rsvbase s ∧ writes .rsvpct s) ∧
      (¬ on 4 → writes .svasid s ∧ writes .srcmod s ∧ writes .holdmod s ∧ writes .partner s) ∧
      (on 5 → writes .errbase (sv fun x => { x with errbase := v }) ∧
        writes .errcap (sv fun x => { x with errcap := v.setWidth 5 })) ∧
      (¬ on 5 → writes .errbase s ∧ writes .errcap s)) ∧
    ∀ (core : Fin 16) (c : SvcCore), s.svc[core.val]? = some c →
      (c.user = false → writes (.svcJctr core) (s.updSvc core.val fun c => { c with svjctr := v }) ∧
        (n < 2 ^ 16 → writes (.svcAsid core) (s.updSvc core.val fun c => { c with svasid := v }))) ∧
      ((c.user = true ∨ 2 ^ 16 ≤ n) → ∃ x t, writes (.svcAsid core) t ∧ t.svc[core.val]? =
        some { c with exc := some (2, x), joining := none } ∧ t.dev = s.dev))

/-- R370, R403, R423, R424, R435: the host's accesses. A read changes nothing, and a write outside the private region changes its
bytes for every agent; an access to the private region is logged with its source, kind and address, and changes nothing else;
the log keeps the latest violation and counts each, and VCLEAR clears it. BAR4 is written in ROM recovery alone. After a
failed attach no access has an effect. A snoop revokes the words of its line, with the data kept; entry to power gating gives
up every line; a write of the host to its own memory owns the line first, on a CXL attachment (log 109). -/
def Obligations.HostAccessResults : Prop :=
  (∀ (s : State) (cxl : Bool) (a n : Nat) (bs : List Byte), s.dev.att.refused = true →
    exec (.hostMemAccess (.read cxl a n)) s = .next s ∧ exec (.hostMemAccess (.write cxl a bs)) s = .next s ∧
    (s.dev.ctl.recovery = false → exec (.hostMemAccess (.bar4Write a bs)) s = .next s)) ∧
  (∀ (s : State) (a : Nat) (bs : List Byte), s.dev.ready = true → s.dev.att.attached = true → a + bs.length ≤ 2 ^ 50 →
    s.mach.mem.wf = true → ∃ t, exec (.hostMemAccess (.ownWrite a bs)) s = .next t ∧ t.dev = s.dev ∧ t.svc = s.svc ∧
      t.mach.homeBytes (hostAddr a) bs.length = bs ∧
      (s.dev.att.mode = 1 → 0 < bs.length → ∀ l ∈ t.mach.coh.hostLines, 64 * l.1 + 64 ≤ hostAddr a ∨ hostAddr a + bs.length ≤ 64 * l.1)) ∧
  (∀ (s : State) (cxl : Bool) (a n : Nat) (bs : List Byte), s.dev.ready = true → s.dev.att.refused = false →
    (cxl = true → s.dev.att.attached = true ∧ s.dev.att.mode = 1) →
    let src : VSource := if cxl then .cxlmem else .pcie
    let logs := fun (acc : HostAccess) (kind : VKind) =>
      exec (.hostMemAccess acc) s = .next (logViolation src kind (BitVec.ofNat 64 a) s)
    (a + n ≤ privateBase → exec (.hostMemAccess (.read cxl a n)) s = .next s) ∧
    (privateBase < a + n → a < hbmBytes → logs (.read cxl a n) .read) ∧
    (privateBase < a + bs.length → a + bs.length ≤ hbmBytes → 0 < bs.length → logs (.write cxl a bs) .write) ∧
    (a + bs.length ≤ privateBase → s.mach.frozen = [] → s.mach.mem.wf = true →
      ∃ t, exec (.hostMemAccess (.write cxl a bs)) s = .next t ∧ t.dev = s.dev ∧ t.svc = s.svc ∧
        t.mach.homeBytes a bs.length = bs ∧
        (∀ w, (8 * w + 8 ≤ a ∨ a + bs.length ≤ 8 * w) → t.mach.homeValue w = s.mach.homeValue w) ∧
        ∀ g, a < 16 * g + 16 → 16 * g < a + bs.length → g ∉ t.mach.tags)) ∧
  (∀ (s : State) (off : Nat) (bs : List Byte), s.dev.ctl.powered = true → s.dev.att.refused = false → off + bs.length ≤ 2 ^ 24 →
    let ev := exec (.hostMemAccess (.bar4Write off bs)) s
    (s.dev.ctl.recovery = true → ev = .next { s with dev := { s.dev with mgt := { s.dev.mgt with
      staging := s.dev.mgt.staging.writeN off bs } } }) ∧
    (s.dev.ctl.recovery = false → ev = .next (logViolation .pcie .write (BitVec.ofNat 64 off) s))) ∧
  (∀ (s : State) (src : VSource) (kind : VKind) (a : BitVec 64),
    let t := logViolation src kind a s
    let code := fun (x : VSource) => (match x with | .pcie => 0 | .cxlmem => 1 | .peer => 2 | .service => 3 : Nat)
    let kcode := fun (x : VKind) => (match x with | .read => 0 | .write => 1 | .atomic => 2 | .execute => 3 : Nat)
    t.mach = s.mach ∧ t.svc = s.svc ∧ t.dev.att = s.dev.att ∧ t.dev.ctl = s.dev.ctl ∧ t.dev.srv = s.dev.srv ∧
    t.dev.mgt.vaddr = a ∧ t.dev.mgt.vsrc.toNat = code src ∧ t.dev.mgt.vkind.toNat = kcode kind ∧
    t.dev.mgt.vcount.toNat = min 0xFFFF (s.dev.mgt.vcount.toNat + 1) ∧
    (s.dev.ready = true → (src = .service ∨ (privateBase ≤ a.toNat ∧ a.toNat < hbmBytes)) →
      exec (.violation src kind a) s = .next t) ∧
    (src ≠ .service → (a.toNat < privateBase ∨ hbmBytes ≤ a.toNat) → exec (.violation src kind a) s = .next s)) ∧
  (∀ s : State, (s.dev.ctl.recovery = true ∨ (s.dev.att.attached = true ∧ s.dev.agreed 6 = true)) →
    exec .vclear s = .next { s with dev := { s.dev with mgt := { s.dev.mgt with
      vaddr := 0, vsrc := 0, vkind := 0, vcount := 0 } } }) ∧
  (∀ (s : State) (line : Nat), s.mach.mem.wf = true → ∃ t, exec (.hostSnoop line) s = .next t ∧ t.dev = s.dev ∧
    (∀ w ∈ hostLineWords line, s.mach.coh.lost w = false → isHost (8 * w) = true → s.dev.errRing = false →
      t.mach.coh.ownerCore w = none ∧ t.mach.homeValue w = s.mach.homeValue w) ∧
    (∀ l ∈ t.mach.coh.hostLines, l.1 ≠ hostAddr (64 * line) / 64) ∧
    ((∀ w ∈ hostLineWords line, s.mach.coh.lost w = false) → ∀ w, t.mach.homeValue w = s.mach.homeValue w)) ∧
  (∀ s : State, s.mach.mem.wf = true → ∃ t, exec .powerGatingEntry s = .next t ∧ t.dev = s.dev ∧ t.mach.coh.hostLines = [] ∧
    (∀ w, isHost (8 * w) = true → t.mach.coh.ownerCore w = none) ∧ ∀ w, t.mach.homeValue w = s.mach.homeValue w)

/-- R401, R402: address translation services. A granted page is cached, a refused one is requested; a request answered frees
its slot, which a waiting request takes, and a failed one is met by the retried access; an invalidation leaves no cached answer or
translation in its range, and parks with 0x03 what used one and is not yet performed; until the host answers for it anew,
a page that was revoked is met with 0x03 (log 110), and any other that the host has not granted with 0x04. -/
def Obligations.TranslationServiceResults : Prop :=
  (∀ (s : State) (c : Ctx) (va : BitVec 64) (f : Nat) (w : Bool), s.mach.ctx c.asid = some c → atsPage s.mach c.asid va = true →
    (∀ x ∈ s.mach.disp.parked, x.asid = c.asid → x.code ≠ 0x04) →
    let page := va.toNat / 4096
    let others := s.mach.coh.ats.filter fun a => !(a.asid == c.asid && a.page == page)
    let left := s.mach.coh.revoked.filter fun r => r != ⟨c.asid, page⟩
    let m := fun (ats : List AtsEnt) => { s.mach with coh := { s.mach.coh with ats := ats, revoked := left } }
    exec (.atsCompletion c.asid va (some f) w) s = .next { s with mach := m (⟨c.asid, page, f, w⟩ :: others) } ∧
    exec (.atsCompletion c.asid va none w) s = .next { s with mach := pageRequest c.asid 0x04 va (m others) }) ∧
  (∀ (asid : BitVec 16) (va : BitVec 64) (m : Mach), (∀ r ∈ m.coh.reqs, r.asid = asid → r.page ≠ va.toNat / 4096) →
    (pageRequest asid 0x04 va m).coh.reqs = m.coh.reqs ++
      [⟨asid, va.toNat / 4096, decide ((m.coh.reqs.filter fun r => r.sent).length < 256)⟩]) ∧
  (∀ (s : State) (c : Ctx) (va : BitVec 64) (ok : Bool), s.mach.ctx c.asid = some c →
    (∀ x ∈ s.mach.disp.parked, x.asid = c.asid → x.code ≠ 0x04) →
    let page := va.toNat / 4096
    let mine := fun (r : PageReq) => r.asid == c.asid && r.page == page
    ((∀ r ∈ s.mach.coh.reqs, mine r = true → r.sent = false) → exec (.prgResponse c.asid va ok) s = .next s) ∧
    ((∃ r ∈ s.mach.coh.reqs, mine r = true ∧ r.sent = true) → ∃ t, exec (.prgResponse c.asid va ok) s = .next t ∧
      t.mach.mem = s.mach.mem ∧ t.mach.coh.reqs = sendNext (s.mach.coh.reqs.filter fun r => !mine r) ∧
      t.mach.coh.prgFail = (if ok then s.mach.coh.prgFail else s.mach.coh.prgFail ++ [⟨c.asid, page⟩]) ∧
      (ok = false → ∀ a ∈ t.mach.coh.ats, ¬ (a.asid = c.asid ∧ a.page = page)))) ∧
  (∀ (rs : List PageReq) (r : PageReq) (xs : List PageReq), (∀ x ∈ xs, x.sent = true) → r.sent = false →
    sendNext (xs ++ r :: rs) = xs ++ { r with sent := true } :: rs) ∧
  (∀ (s : State) (pasid : BitVec 20) (va : BitVec 64) (len : Nat),
    let mine := (s.mach.ctxs.filter fun c => c.pasid == pasid).map Ctx.asid
    let gone := mine.foldl (fun m asid => revokeRange s.dev asid va.toNat len m) s.mach
    exec (.atsInvalidation pasid va len) s = .next { s with mach := gone }) ∧
  (∀ (d : Dev) (asid : BitVec 16) (lo len : Nat) (m : Mach),
    (∀ a ∈ (revokeRange d asid lo len m).coh.ats, a.asid = asid → pageIn a.page lo len = false) ∧
    (∀ a ∈ m.coh.ats, a.asid ≠ asid ∨ pageIn a.page lo len = false → a ∈ (revokeRange d asid lo len m).coh.ats)) ∧
  (∀ (d : Dev) (m : Mach) (die : Nat) (c : Ctx) (va : BitVec 64) (acc : Access) (e lv : Nat), va.toNat < 2 ^ 57 →
    m.ctx c.asid = some c → m.leaf die c va.toNat = .ok (e, lv) → bitsOf e 6 2 = 1 → bitOf e 9 = true →
    let page := va.toNat / 4096
    (∀ a ∈ m.coh.ats, ¬ (a.asid = c.asid ∧ a.page = page)) → (∀ r ∈ m.coh.prgFail, ¬ (r.asid = c.asid ∧ r.page = page)) →
      translate d m die c.asid va acc true = .error (if ⟨c.asid, page⟩ ∈ m.coh.revoked then 0x03 else 0x04)) ∧
  (∀ (d : Dev) (asid : BitVec 16) (p : Nat → Bool) (m : Mach) (x : Store), m.coh.stores = [x] → m.groups = [] → x.asid = asid →
    x.record = none →
    (p (x.va.toNat / 4096) = true → parkRevoked d asid p m = parkStore d x 0x03 m) ∧
    (p (x.va.toNat / 4096) = false → parkRevoked d asid p m = m))

/-! ## Reset, start, power and temperature (R403, R409 to R411, R436, R437) -/

/-- R409 to R411, R426, R429, R434, R449: resets and starts. An orderly reset kills the resident contexts, gives up host lines,
detaches and drops the links, and a start follows, warm or cold as asked; a forced one reads RSTKIND 3; a reset asked for while
an UPDATE runs is held. A start that reaches stage 7 wipes the machine and clears FAILCNT; one that fails counts, begins a
cold start, and the third in a row enters ROM recovery. Power loss leaves nothing volatile, and power-on begins a cold
start. Which host lines a forced reset loses, and at which stage a start fails, are choices (log 3) and the event's argument. -/
def Obligations.ResetAndStartResults : Prop :=
  (∀ (s : State) (i : Instr) (kind : Nat),
    (i = .orderlyWarmReset ∨ i = .detach) ∧ kind = 1 ∨ i = .orderlyColdReset ∧ kind = 2 ∨ i = .forcedWarmReset ∧ kind = 3 →
    ((s.dev.ready = false ∨ s.dev.att.attached = false) → exec i s = .next s) ∧
    (s.dev.ready = true → s.dev.att.attached = true →
      (s.dev.mgt.updating.isSome = true → exec i s = .next { s with dev := { s.dev with mgt := { s.dev.mgt with
        pendingReset := some kind } } }) ∧
      (s.dev.mgt.updating = none → ∃ t, exec i s = .next t ∧ t.dev.ctl = { s.dev.ctl with
          rstkind := BitVec.ofNat 3 kind, cold := decide (kind = 2), bootstage := 0 } ∧
        t.dev.att = { s.dev.att with attached := false, linkup := 0 } ∧ t.dev.srv = s.dev.srv ∧
        t.mach.coh.hostLines = [] ∧ t.mach.latch = [] ∧
        (∀ c ∈ t.mach.ctxs, c.cstate ≠ .resident ∧ c.cstate ≠ .draining ∧ c.cstate ≠ .saving) ∧
        (∀ c ∈ s.mach.ctxs, c.cstate = .resident → s.mach.ctx c.asid = some c →
          ∃ k, t.mach.ctx c.asid = some k ∧ k.cstate = .killed ∧ k.killCause = if kind = 3 then 0xFF else 0x82) ∧
        ∀ w, isHost (8 * w) = true → t.mach.coh.ownerCore w = none))) ∧
  (∀ (s : State) (failAt : Option (Fin 8)), s.dev.ctl.powered = true → s.dev.ctl.bootstage ≠ 7 → s.dev.ctl.recovery = false →
    s.dev.mgt.holdTrip = false →
    (s.dev.mgt.store.isSome = true → failAt = none → ∃ t, exec (.start failAt) s = .next t ∧
      t.dev.ctl = { Control.reset with rstkind := s.dev.ctl.rstkind, cold := s.dev.ctl.cold } ∧
      t.dev.att = { Attach.reset with modid := s.dev.att.modid } ∧
      (∀ c ∈ t.mach.mem, 2 ^ 56 ≤ c.1) ∧ t.mach.waves = [] ∧ t.mach.ctxs = [] ∧ t.mach.tags = [] ∧
      t.mach.coh = Coh.reset ∧ t.mach.disp = Disp.reset ∧ t.svc = List.replicate 16 SvcCore.reset ∧ t.svcq = [] ∧
      t.dev.mgt.lcstate = s.dev.mgt.lcstate ∧ t.dev.mgt.svnmin = s.dev.mgt.svnmin ∧ some t.dev.mgt.image = s.dev.mgt.store ∧
      t.dev.srv.retired = s.dev.srv.retired ∧
      (s.dev.mgt.wiping = false → t.dev.srv.own = s.dev.srv.own ∧ t.dev.srv.part = s.dev.srv.part) ∧
      (s.dev.mgt.wiping = true → t.dev.srv.own = [none, none] ∧ t.dev.srv.part = [none, none])) ∧
    (∀ n, (s.dev.mgt.store = none ∧ n = 1) ∨ (s.dev.mgt.store.isSome = true ∧ failAt = some n ∧ 1 ≤ n.val) →
      ∃ t, exec (.start failAt) s = .next t ∧ t.dev.ctl.bootstage.toNat = n.val ∧ t.dev.ctl.cold = true ∧
        t.dev.ctl.failcnt.toNat = (if s.dev.ctl.failcnt.toNat < 2 then s.dev.ctl.failcnt.toNat + 1 else 3) ∧
        t.dev.ctl.recovery = decide (2 ≤ s.dev.ctl.failcnt.toNat) ∧ t.svcq = (if n.val ≤ 4 then s.svcq else []))) ∧
  (∀ (s : State) (failAt : Option (Fin 8)), (s.dev.ctl.powered = false ∨ s.dev.ctl.bootstage = 7 ∨ s.dev.ctl.recovery = true ∨
    s.dev.mgt.holdTrip = true) → exec (.start failAt) s = .next s) ∧
  (∀ s : State, ∃ t, exec .powerLoss s = .next t ∧ t.dev.ctl.powered = false ∧ t.dev.ctl.bootstage = 0 ∧
    t.dev.att.attached = false ∧ (∀ c ∈ t.mach.mem, 2 ^ 56 ≤ c.1) ∧ t.mach.waves = [] ∧ t.mach.ctxs = [] ∧
    t.svc = List.replicate 16 SvcCore.reset ∧ t.dev.srv = s.dev.srv ∧ t.dev.mgt.lcstate = s.dev.mgt.lcstate ∧
    t.dev.mgt.store = if s.dev.mgt.updating.isSome then none else s.dev.mgt.store) ∧
  (∀ s : State,
    (s.dev.ctl.powered = false → exec .powerOn s = .next { s with dev := { s.dev with ctl := { s.dev.ctl with
      powered := true, rstkind := 0, cold := true, bootstage := 0 } } }) ∧
    (s.dev.ctl.powered = true → exec .powerOn s = .next s))

/-- R436, R437: power and temperature. Over the cap the clock falls a step of 100 MHz, to no less than 1,200; with 5% of
headroom and no other cause it rises a step, to no more than 2,400; the brake puts it at 1,200; at TLIMIT it steps down until
TEMPMAX has fallen 5 °C below; THROT reports each cause. At 110 °C a forced reset is held until TEMPMAX is below 85 °C, and a
cold start follows with RSTKIND 4. Each changes nothing else. -/
def Obligations.PowerAndTemperatureResults : Prop :=
  (∀ (s : State) (temp : BitVec 8) (watts : BitVec 12),
    let g := s.dev.mgt
    let sets := fun (i : Instr) (h : Mgmt) => exec i s = .next { s with dev := { s.dev with mgt := h } }
    let down : BitVec 12 := if g.clknow.toNat < 1300 then 1200 else g.clknow - 100
    let up : BitVec 12 := if 2300 < g.clknow.toNat then 2400 else g.clknow + 100
    (g.pwrcap < watts → sets (.powerLimit watts) { g with pwrnow := watts, clknow := down, throt := g.throt ||| 1 }) ∧
    (100 * watts.toNat ≤ 95 * g.pwrcap.toNat → g.throt.getLsbD 1 = false → g.throt.getLsbD 2 = false →
      sets (.powerLimit watts) { g with pwrnow := watts, clknow := up, throt := if up = 2400 then 0 else g.throt }) ∧
    (watts ≤ g.pwrcap → 95 * g.pwrcap.toNat < 100 * watts.toNat → sets (.powerLimit watts) { g with pwrnow := watts }) ∧
    sets .powerBrake { g with clknow := 1200, throt := g.throt ||| 4 } ∧
    sets .powerBrakeRelease { g with throt := g.throt &&& 3 } ∧
    (g.tlimit ≤ temp → sets (.thermalThrottle temp) { g with tempmax := temp, clknow := down, throt := g.throt ||| 2 }) ∧
    (temp < g.tlimit → sets (.thermalThrottle temp) { g with tempmax := temp }) ∧
    (temp.toNat + 5 ≤ g.tlimit.toNat → sets (.thermalThrottleEnd temp) { g with tempmax := temp, throt := g.throt &&& 5 }) ∧
    (g.tlimit.toNat < temp.toNat + 5 → sets (.thermalThrottleEnd temp) { g with tempmax := temp }) ∧
    (temp.toNat < 85 → sets (.tripRecovery temp) { g with tempmax := temp, holdTrip := false }) ∧
    (85 ≤ temp.toNat → sets (.tripRecovery temp) { g with tempmax := temp }) ∧
    (temp.toNat < 110 → sets (.thermalTrip temp) { g with tempmax := temp }) ∧
    (110 ≤ temp.toNat → s.dev.ctl.powered = true → ∃ t, exec (.thermalTrip temp) s = .next t ∧ t.dev.ctl.rstkind = 4 ∧
      t.dev.ctl.cold = true ∧ t.dev.ctl.bootstage = 0 ∧ t.dev.att.attached = false ∧ t.dev.mgt.holdTrip = true ∧
      t.dev.mgt.tripcnt.toNat = min 0xFF (g.tripcnt.toNat + 1) ∧ t.dev.mgt.tempmax = temp ∧
      ∀ failAt, exec (.start failAt) t = .next t)) ∧
  (∀ (c : BitVec 12), 1200 ≤ c.toNat → c.toNat ≤ 2400 → c.toNat % 100 = 0 →
    (clockDown c).toNat = max 1200 (c.toNat - 100) ∧ (clockUp c).toNat = min 2400 (c.toNat + 100))

/-- R421, R423, R426 to R434: the mailbox. A command is ignored while one runs, where interface 6 is not agreed or the device does
not serve, and ends with 6 for an unknown code. UPDATE checks length, signature and version in that order, and writes the
image store; ATTEST and GETCERT write their layouts, and are refused with 7 without an identity; LIFECYCLE makes an
allowed, signed transition, wipes and resets; SVCREG and SVCUNREG register service-request queues. The cryptography is
named by the spec and free in the model (log 12). -/
def Obligations.MailboxResults : Prop :=
  (∀ s : State, s.dev.ctl.recovery = false → s.dev.mgt.updating = none →
    (s.dev.ready = false ∨ s.dev.att.attached = false ∨ s.dev.agreed 6 = false ∨ s.dev.mgt.mbbusy = true) →
    ∀ i code, i ∈ [Instr.update, .attest, .getcert, .svcreg, .svcunreg, .mbUnknown code] → exec i s = .next s) ∧
  (∀ (s : State), s.dev.ctl.recovery = false → s.dev.ready = true → s.dev.att.attached = true → s.dev.agreed 6 = true →
    s.dev.mgt.mbbusy = false → s.dev.mgt.updating = none →
    let ends := fun (i : Instr) (res : Nat) (t : State) => exec i s = .next (mbEnd res t)
    (∀ code : BitVec 8, code = 0 ∨ 6 < code.toNat → ends (.mbUnknown code) 6 s) ∧
    (bufferBad s.dev = true → ends .update 5 s ∧ ends .attest 5 s ∧ ends .getcert 5 s ∧ ends .svcreg 5 s ∧
      ends .svcunreg 5 s ∧ ends .lifecycle 5 s) ∧
    (bufferBad s.dev = false →
      let has := !noIdentity s.dev
      (has = false → ends .attest 7 s ∧ ends .getcert 7 s) ∧
      (has = true →
        ends .getcert 0 (mbWrite 0 (certBytes s.dev) s) ∧
        let body := reportBody s.dev (mbBytes s 0 64)
        ends .attest 0 (mbWrite 64
          (body ++ fitBytes 4627 (Config.sign 1 (Config.sha3 s.dev.mgt.image) (Config.sha3 body))) s)) ∧
      (∀ img, updateImage s = some img →
        let e := imageError s.dev img
        let m := (s.mach.choose 2).2
        (e ≠ 0 → ends .update e s) ∧
        (e = 0 → (s.mach.choose 2).1 = 0 → s.dev.mgt.pendingReset = none → ends .update 0 { s with
          mach := m
          dev := { s.dev with mgt := { s.dev.mgt with
            store := some img, updating := none, pendingReset := none,
            svnmin := BitVec.ofNat 16 (bitsOf (ofBytes (img.take 64)) 48 16) } } })) ∧
      (let live := ∃ c ∈ s.mach.ctxs, c.cstate = .resident ∨ c.cstate = .draining ∨ c.cstate = .saving
       let req := mbBytes s 0 64
       let e := requestError s.dev req (mbBytes s 64 2592) (mbBytes s 2656 4627)
       (live → ends .lifecycle 7 s) ∧ (¬ live → e ≠ 0 → ends .lifecycle e s) ∧
       (¬ live → e = 0 → s.dev.mgt.wiping = false → (s.mach.choose 2).1 = 0 → ∃ t, exec .lifecycle s = .next t ∧
         t.dev.mgt.lcstate.toNat = ofBytes req % 4 ∧ t.dev.mgt.lcseq = s.dev.mgt.lcseq + 1 ∧
         (∀ c ∈ t.mach.mem, 2 ^ 56 ≤ c.1) ∧ t.dev.srv.own = [none, none] ∧ t.dev.srv.part = [none, none] ∧
         t.dev.srv.pstate = 0 ∧ t.dev.ctl.rstkind = 2 ∧ t.dev.ctl.cold = true ∧ t.dev.ctl.bootstage = 0 ∧
         (ofBytes req % 4 = 3 → t.dev.mgt.hasSecret = false) ∧
         (ofBytes req % 4 = 1 → t.dev.att.modid.toNat = ofBytes req / 2 ^ 16 % 2 ^ 14 ∧
           t.dev.mgt.feedid.toNat = ofBytes req / 2 ^ 32 % 2 ^ 32))) ∧
      (s.dev.agreed 3 = false → ends .svcreg 7 s) ∧
      (s.dev.agreed 3 = true →
        (svcQueueOf s.dev s.mach (ofBytes (mbBytes s 0 64)) = none → ends .svcreg 5 s) ∧
        ∀ q, svcQueueOf s.dev s.mach (ofBytes (mbBytes s 0 64)) = some q → s.svcq.length < 256 →
          ends .svcreg 0 { s with svcq := (s.svcq.filter fun x => !(x.hdr == q.hdr && x.asid == q.asid)) ++ [q] }) ∧
      (let n := ofBytes (mbBytes s 0 16)
       let same := fun (x : SvcQueue) => x.hdr.toNat = n % 2 ^ 64 ∧ x.asid.toNat = n / 2 ^ 64 % 2 ^ 16
       ((∀ x ∈ s.svcq, ¬ same x) → ends .svcunreg 5 s) ∧
       ((∃ x ∈ s.svcq, same x) → ∃ rest, ends .svcunreg 0 { s with svcq := rest } ∧
         ∀ x, x ∈ rest ↔ x ∈ s.svcq ∧ ¬ same x)))) ∧
  (∀ (d : Dev) (img : List Byte),
    let h := ofBytes (img.take 64)
    let body := h / 2 ^ 64 % 2 ^ 32
    let signed := img.take (64 + body + 2592)
    let key := signed.drop (64 + body)
    let formed := h % 2 ^ 32 = 0x4D574642 ∧ h / 2 ^ 32 % 2 ^ 16 = 1 ∧ body % 64 = 0 ∧ body ≤ 12 * 2 ^ 20 ∧
      h / 2 ^ 96 % 2 ^ 16 = 0x0A40 ∧ h / 2 ^ 112 % 2 ^ 400 = 0 ∧ img.length = 64 + body + 2592 + 4627
    let trusted := Config.sha3 key = Config.vendorKey ∧
      Config.verify key (Config.sha3 signed) (img.drop (64 + body + 2592)) = true
    (¬ formed → imageError d img = 5) ∧ (formed → ¬ trusted → imageError d img = 2) ∧
    (formed → trusted → h / 2 ^ 48 % 2 ^ 16 < d.mgt.svnmin.toNat → imageError d img = 3) ∧
    (formed → trusted → d.mgt.svnmin.toNat ≤ h / 2 ^ 48 % 2 ^ 16 → imageError d img = 0)) ∧
  (∀ from_ goal : Nat, from_ < 4 → goal < 4 →
    ((transition from_ goal).isSome = true ↔ (from_ = 0 ∧ goal = 1) ∨ (from_ = 1 ∧ goal = 2) ∨ (from_ = 2 ∧ goal = 1) ∨
      (from_ ≠ 3 ∧ goal = 3)))

/-! ## Snapshots and partners (R438 to R453) -/

/-- R439, R440, R443, R445 to R450: arming, cuts and drains. A complete round of an armed, idle context cuts: its frames
freeze with their registrations revoked, and the drain begins, unless a page is not eligible, which aborts the cut. A
write to a frozen frame takes a reserve frame, or waits. A frame that drains enters the generation and thaws, and the last
commits it under the next number in the slot without a committed generation, or the older. Whether the store's write
fails is the model's choice (log 3). -/
def Obligations.SnapshotResults : Prop :=
  (∀ (s : State) (c : Ctx), s.mach.ctx c.asid = some c →
    let pages := regionPages c.snap.regions
    let due := c.snap.armed = true ∧ c.snap.round = true ∧ c.snap.sstate = .idle
    (¬ due → exec (.snapshotCut c.asid) s = .next s) ∧
    (due → (∀ x ∈ s.mach.ctxs, x.asid = c.asid → x = c) → ∃ t k, exec (.snapshotCut c.asid) s = .next t ∧ t.dev = s.dev ∧
      t.mach.ctx c.asid = some k ∧ k.snap.tcut = s.mach.usec ∧ k.snap.round = false ∧
      (k.snap.sstate = .draining ∧ k.snap.cuts = c.snap.cuts + 1 ∧ k.snap.aborts = c.snap.aborts ∧
          k.snap.slot = nextSlot s.dev ∧ (pages = [] ∨ t.mach.frozen ≠ []) ∨
        k.snap.sstate = .idle ∧ k.snap.cuts = c.snap.cuts ∧ k.snap.aborts = min 0xFFFF (c.snap.aborts + 1) ∧
          t.mach.frozen = s.mach.frozen))) ∧
  (∀ (asid : BitVec 16) (p : Nat × Nat × Nat) (frame : Nat) (m : Mach), m.mem.wf = true →
    (∀ f ∈ m.frozen, f.frame ≠ frame) → ∃ f, (freezeFrame asid p frame m).frozen = m.frozen ++ [f] ∧ f.frame = frame ∧
      f.asid = asid ∧ f.second = none ∧ f.places = [(p.1, p.2.1)] ∧
      (∀ w, w / 8192 = frame → (freezeFrame asid p frame m).coh.ownerCore w = none) ∧
      ∀ w, (freezeFrame asid p frame m).homeValue w = m.homeValue w) ∧
  (∀ (d : Dev) (m : Mach) (pa : Nat) (f : Frozen), (m.frozen.find? fun f => f.frame == pa / 65536) = some f →
    (f.second.isSome = true → Mach.frozenWrite d m pa = some m) ∧
    (f.second = none → (∀ n < d.srv.reserveFrames, n ∈ reserveUsed d m) → Mach.frozenWrite d m pa = none) ∧
    (f.second = none → (∃ n < d.srv.reserveFrames, n ∉ reserveUsed d m) → ∃ m2 n, Mach.frozenWrite d m pa = some m2 ∧
      n < d.srv.reserveFrames ∧ n ∉ reserveUsed d m ∧ m2.mem = m.mem ∧
      (m2.frozen.find? fun f => f.frame == pa / 65536) = some { f with second := some n })) ∧
  (∀ (d : Dev) (m : Mach) (pa : Nat), (∀ f ∈ m.frozen, f.frame ≠ pa / 65536) → Mach.frozenWrite d m pa = some m) ∧
  (∀ (s : State) (f : Frozen) (c : Ctx), (s.mach.frozen.find? fun x => x.frame == f.frame) = some f →
    s.mach.ctx f.asid = some c → c.snap.sstate = .draining → (∀ x ∈ s.mach.frozen, frameWaits s.dev s.mach x = false) →
    let g := takeFrame (openGen s.dev c) f
    let d := { s.dev with srv := { s.dev.srv with own := s.dev.srv.own.set c.snap.slot (some g) } }
    let m := thawFrame d f s.mach
    ((∃ x ∈ s.mach.frozen, x.frame ≠ f.frame ∧ x.asid = f.asid) →
      exec (.frameDrainComplete f.frame) s = .next { s with dev := d, mach := m }) ∧
    ((∀ x ∈ s.mach.frozen, x.asid = f.asid → x.frame = f.frame) → (s.mach.choose 2).1 = 0 → c.snap.slot < s.dev.srv.own.length →
      ∃ t k, exec (.frameDrainComplete f.frame) s = .next t ∧ t.dev.srv.own[c.snap.slot]? = some (some { g with commit := true }) ∧
        t.mach.ctx f.asid = some k ∧ k.snap.sstate = .idle ∧ k.snap.lastgen = g.number ∧
        (s.dev.srv.pstate = 2 ∨ s.dev.srv.pstate = 3 → t.dev.srv.sending = some { g with commit := true }))) ∧
  (∀ (s : State) (frame : Nat), (∀ f ∈ s.mach.frozen, f.frame ≠ frame) → exec (.frameDrainComplete frame) s = .next s) ∧
  (∀ (d : Dev) (c : Ctx), let g := openGen d c
    g.number = c.snap.lastgen + 1 ∧ g.jobid = c.snap.jobid ∧ g.commit = false) ∧
  (∀ (d : Dev) (m : Mach) (f : Frozen), (∀ x ∈ (thawFrame d f m).frozen, x.frame ≠ f.frame) ∧
    (f.second = none → (thawFrame d f m).mem = m.mem) ∧
    ∀ x ∈ m.frozen, x.frame ≠ f.frame → x ∈ (thawFrame d f m).frozen) ∧
  (∀ (d : Dev) (m : Mach) (asid : BitVec 16) (n : Nat),
    let e := armError d m asid n
    ((d.agreed 4 = false ∨ cfgBad n = true) → e = 1) ∧
    (d.agreed 4 = true → cfgBad n = false →
      let poor := ∃ p ∈ regionPages (cfgRegions n), regionFrame m asid p.2.2 = none
      (poor → e = 2) ∧ (¬ poor → (∃ c ∈ m.ctxs, c.asid ≠ asid ∧ c.snap.armed = true) → e = 3) ∧
      (¬ poor → (∀ c ∈ m.ctxs, c.asid ≠ asid → c.snap.armed = false) →
        (e = 0 ↔ reserveValid d = true) ∧ (reserveValid d = false → e = 4))))

/-- R440, R450 to R453: the survival commands and the partner. A command is ignored while one runs, ends with 1 where
interface 4 is refused, and with 6 for an unknown code. PAIR waits for the partner's answer, and the feeds fix the state of the
pairing; UNPAIR and DISCARD invalidate slots; RECALL takes the newest committed generation and writes its regions; an
acknowledgement marks the copy, feed-safe only across feeds; a partner's generation enters the slot with the older copy.
Whether a read of the store fails is the model's choice (log 3). -/
def Obligations.SurvivalCommandResults : Prop :=
  (∀ s : State, (s.dev.serves = false ∨ s.dev.srv.svbusy = true) → ∀ i code remote,
    i ∈ [Instr.pair, .unpair, .discard, .recall remote, .svcmdUnknown code] → exec i s = .next s) ∧
  (∀ s : State, s.dev.serves = true → s.dev.srv.svbusy = false →
    let x := s.dev.srv
    let sets := fun (i : Instr) (y : Survival) => exec i s = .next { s with dev := { s.dev with srv := y } }
    let ends := fun (i : Instr) (res : BitVec 3) => sets i { x with svres := res }
    (s.dev.agreed 4 = false → ∀ remote, ends .pair 1 ∧ ends .unpair 1 ∧ ends .discard 1 ∧ ends (.recall remote) 1) ∧
    (s.dev.agreed 4 = true →
      (∀ code : BitVec 4, code = 0 ∨ 4 < code.toNat → ends (.svcmdUnknown code) 6) ∧
      (let own := s.dev.att.modid
       (x.pstate ≠ 0 ∨ x.partner = own ∨ x.partner.toNat / 256 ≠ own.toNat / 256 → ends .pair 1) ∧
       (x.pstate = 0 → x.partner ≠ own → x.partner.toNat / 256 = own.toNat / 256 →
         (s.dev.reaches x.partner.toNat = false → ends .pair 5) ∧
         (s.dev.reaches x.partner.toNat = true → sets .pair { x with svbusy := true, pstate := 1 }))) ∧
      sets .unpair { x with svres := 0, pstate := 0, part := [none, none], sending := none } ∧
      (s.mach.ctx x.svasid = none → ∀ remote, ends .discard 2 ∧ ends (.recall remote) 2) ∧
      (∀ c, s.mach.ctx x.svasid = some c →
        (c.snap.sstate ≠ .idle → ends .discard 1) ∧
        (c.snap.sstate = .idle → sets .discard { x with svres := 0, own := [none, none] }) ∧
        (∀ remote, c.cstate ≠ .resident ∨ (∃ g ∈ s.mach.groups, g.asid = x.svasid) → ends (.recall remote) 2) ∧
        (∀ remote n, c.cstate = .resident → (∀ g ∈ s.mach.groups, g.asid ≠ x.svasid) →
          (∀ r ∈ s.mach.disp.slots, r.asid = x.svasid → r.state ≠ 0) → readConfig s.dev s.mach c = some n →
          let found := newestGen (BitVec.ofNat 64 (bitsOf n 0 64)) x.srcmod (recallFrom s.dev remote)
          (found = none → ends (.recall remote) 7) ∧
          ∀ g, found = some g →
            (tablesDiffer (cfgRegions n) g.regions = true → ends (.recall remote) 3) ∧
            (tablesDiffer (cfgRegions n) g.regions = false → (s.mach.choose 2).1 = 0 →
              ∀ m, writeRegions s.dev c.asid (cfgRegions n) g (s.mach.choose 2).2 = some m →
                ∃ t, exec (.recall remote) s = .next t ∧ t.dev = { s.dev with srv := { x with svres := 0 } } ∧
                  t.mach = snapStatus s.dev c.asid (m.updSnap c.asid fun y => { y with lastgen := g.number })))))) ∧
  (∀ (s : State) (feed : Option (BitVec 32)),
    let x := s.dev.srv
    let sets := fun (y : Survival) => exec (.pairAnswer feed) s = .next { s with dev := { s.dev with srv := y } }
    let mine := s.dev.mgt.feedid
    (x.pstate ≠ 1 → exec (.pairAnswer feed) s = .next s) ∧
    (x.pstate = 1 →
      (feed = none → sets { x with svbusy := false, svres := 5, pstate := 0 }) ∧
      ∀ f, feed = some f →
        (f ≠ 0 → f = mine → sets { x with svbusy := false, svres := 4, pstate := 0 }) ∧
        ((f = 0 ∨ mine = 0) → sets { x with svbusy := false, svres := 0, pstate := 3, pfeed := f }) ∧
        (f ≠ 0 → mine ≠ 0 → f ≠ mine → sets { x with svbusy := false, svres := 0, pstate := 2, pfeed := f }))) ∧
  (∀ (s : State) (c : Ctx) (g : Generation), s.dev.srv.sending = some g → s.mach.ctx c.asid = some c →
    let paired := s.dev.srv.pstate = 2 ∨ s.dev.srv.pstate = 3
    let latest := c.snap.jobid = g.jobid ∧ c.snap.lastgen = g.number
    (¬ (latest ∧ paired) → exec (.partnerAck c.asid) s = .next s) ∧
    (latest → paired → ∃ t k, exec (.partnerAck c.asid) s = .next t ∧ t.dev = { s.dev with srv := { s.dev.srv with sending := none } } ∧
      t.mach.ctx c.asid = some k ∧ k.snap.pgen = g.number ∧ k.snap.partnered = true ∧
      k.snap.feedsafe = decide (s.dev.srv.pstate = 2)) ∧
    (∃ t k, exec (.partnerLost c.asid) s = .next t ∧ t.dev = { s.dev with srv := { s.dev.srv with sending := none } } ∧
      t.mach.ctx c.asid = some k ∧ k.snap.partnered = false ∧ k.snap.feedsafe = false)) ∧
  (∀ (s : State) (g : Generation) (module : BitVec 14) (slot : Bool),
    let paired := s.dev.srv.pstate = 2 ∨ s.dev.srv.pstate = 3
    (paired → g.srcmod = s.dev.srv.partner → exec (.partnerGenerationReceive g) s = .next { s with dev := { s.dev with
      srv := { s.dev.srv with part := s.dev.srv.part.set (partnerSlot s.dev) (some { g with commit := true }) } } }) ∧
    (¬ paired ∨ g.srcmod ≠ s.dev.srv.partner → exec (.partnerGenerationReceive g) s = .next s) ∧
    exec (.partnerSlotReadRequest module slot) s = .next s) ∧
  (∀ (job : BitVec 64) (src : BitVec 14) (gs : List Generation) (g : Generation), newestGen job src gs = some g →
    g ∈ gs ∧ g.commit = true ∧ g.jobid = job ∧ g.srcmod = src ∧
    ∀ x ∈ gs, x.commit = true → x.jobid = job → x.srcmod = src → x.number ≤ g.number) ∧
  (∀ d : Dev, (∀ a b, d.srv.own = [some a, some b] → a.commit = true → b.commit = true →
      nextSlot d = if a.number ≤ b.number then 0 else 1) ∧
    (∀ b, d.srv.own = [none, b] → nextSlot d = 0) ∧ (∀ a, d.srv.own = [some a, none] → a.commit = true → nextSlot d = 1))

/-! ## The machine as a whole -/

/-- R161 to R188 with R418: the bytes of a well-formed instruction, its prefix among them, decode to the instruction, with
every operand at every value that the encoding admits, and leave what follows them. A service-core word of R418 is four
bytes, and decodes to the instruction. No bit of an encoding is dropped. -/
def Obligations.DecodeReadsBackEncode : Prop :=
  ∀ (i : Instr), i.wellFormed = true →
    (∀ (rest : List Byte), instrWord i ≠ none → decode (encode i ++ rest) = .ok (i, rest)) ∧
    (∀ w, serviceWord i = some w → encode i = toBytes 4 w ∧ decodeService w = .ok i)

/-- R162 and the worked encodings of the spec: words written out bit by bit decode to what they stand for. They are a division with
lookahead, a fused multiply-add with its third source in the low bits, a narrow dot product, a loop trailer on `v9` one word
back, and the unguarded `NOP`. The service word 0x0020_850B is `vspawn` with rd 10, rs1 1 and rs2 2 (R418). -/
def Obligations.SampleWordsDecode : Prop :=
  decodeWord 0x01CF814010062080 = .ok (.div ⟨7, false⟩ 3 .s32 true (.v 20) (.v 4) (.v 6)) ∧
  decodeWord 0x08C3807004024243 = .ok (.ffma ⟨7, false⟩ .rz false (.v 7) (.v 1) (.v 2) (.c 3)) ∧
  decodeWord 0x100380C00C040641 = .ok (.dot4 ⟨7, false⟩ 0 1 .rne (.v 12) (.v 3) (.v 4) (.c 1)) ∧
  decodeWord 0xD80004FFFFF00000 = .ok (.loopn 0 (.v 9) (-1)) ∧
  decodeWord 0x34C3800000000000 = .ok (.nop ⟨7, false⟩) ∧
  decodeService 0x0020850B = .ok (.vspawn 10 1 2)

/-- R161, R358: a step runs what it decodes. Where an issue stage has selected a path, its program counter is aligned and
the word fetched there decodes to an instruction, the step is that instruction on the machine after the fetch; a prefix
and the word after it are one instruction. A word that the wave has not fetched, and that its core's instruction cache does not hold, is
the word of home memory at the translated address; one that the wave has fetched is that word. A selected service core runs the
word at its program counter (R418), goes past a fence (R108, log 106), and takes exception 2 for a word of custom-0 that is
neither, or the exception of its fetch (R412, log 15). A set-aside path that is tried (R24) reads its word in the same way. With nothing selected, the step is the first move of the
agenda, or else the machine's own next move. -/
def Obligations.StepRunsDecodedInstruction : Prop :=
  (∀ (s : State) (core wave : Nat) (mask : BitVec 64) (sel : Sel) (rest : List Sel) (w : Wave) (p : Path) (x : BitVec 64)
      (m1 : Mach) (i : Instr), (sel = .path core wave mask ∨ sel = .probe core wave mask) →
    let m := { s.mach with latch := rest, cur := some sel }
    s.mach.latch = sel :: rest → m.curPath = some (w, p) → p.pc.toNat % 8 = 0 →
    fetchWord s.dev w.core w.id p.pc m = (.ok x, m1) →
      (decodeWord x.toNat = .ok i → step s = exec i { s with mach := m1 }) ∧
      (∀ y m2, fetchWord s.dev w.core w.id (p.pc + 8) m1 = (.ok y, m2) → decodeUnit x.toNat y.toNat = .ok i →
        step s = exec i { s with mach := m2 })) ∧
  (∀ (d : Dev) (m : Mach) (w : Wave) (core wave : Nat) (va : BitVec 64), m.wave core wave = some w →
    (∀ word, w.fetched.find? (fun x => x.1 == va) = some (va, word) → fetchWord d core wave va m = (.ok word, m)) ∧
    (∀ x, w.fetched.find? (fun x => x.1 == va) = none → translate d m (coreDie core) w.asid va .x false = .ok x →
      x.err = none → (∀ y ∈ m.coh.icache, y.core = core → y.asid = w.asid → y.va ≠ va) → m.lostIn x.pa 8 = none →
      ∃ m1, fetchWord d core wave va m = (.ok (BitVec.ofNat 64 (ofBytes (m.homeBytes x.pa 8))), m1) ∧ m1.mem = m.mem)) ∧
  (∀ (s : State) (n : Nat) (rest : List Sel) (c : SvcCore) (x : Nat) (i : Instr),
    let m := { s.mach with latch := rest, cur := some (.service n) }
    s.mach.latch = .service n :: rest → s.svc[n]? = some c → c.joining = none → c.exc = none →
    (fetchService s.dev m c = .ok x → decodeService x = .ok i → step s = exec i { s with mach := m }) ∧
    (fetchService s.dev m c = .ok x → x % 2 ^ 7 = 0x0F → x / 2 ^ 12 % 8 = 0 →
      step s = .next ({ s with mach := m }.updSvc n fun c => { c with pc := c.pc + 4 })) ∧
    (fetchService s.dev m c = .ok x → x % 2 ^ 7 = 0x0B → (∀ j, decodeService x ≠ .ok j) →
      step s = .next (raiseSvc n 2 (BitVec.ofNat 64 x) { s with mach := m })) ∧
    ∀ cause, fetchService s.dev m c = .error cause → step s = .next (raiseSvc n cause c.pc { s with mach := m })) ∧
  (∀ (s : State), s.mach.latch = [] →
    let m := { s.mach with cur := none }
    (∀ i rest, s.agenda = i :: rest → step s = exec i { s with mach := m, agenda := rest }) ∧
    (s.agenda = [] → step s = exec (nextMove s) { s with mach := m }))

/-- No instruction and no event of the table ends in a fault or a refusal, in any state. A step stops in one case alone: a service
core that has been selected stands at a word outside custom-0 that is no fence, whose meaning R412 leaves to the firmware. -/
def Obligations.OnlyServiceFirmwareStops : Prop :=
  (∀ (i : Instr) (s : State), goesOn (exec i s)) ∧
  (∀ (s : State), goesOn (step s) ∨
    ∃ n rest c x, s.mach.latch = .service n :: rest ∧ s.svc[n]? = some c ∧ c.joining = none ∧ c.exc = none ∧
      fetchService s.dev { s.mach with latch := rest, cur := some (.service n) } c = .ok x ∧ bitsOf x 0 7 ≠ 0x0B ∧
      isFence x = false ∧ step s = .fault .serviceFirmware)

/-- R350, R371, R392, R412, R423, R439: no word of a compute core changes the attach, control and management blocks, the host-visible fields
of the survival block, or a service core. They change only what compute cores and their engines act on. -/
def Obligations.ComputeWordsLeaveTheDevice : Prop :=
  ∀ (i : Instr) (s t : State), instrWord i ≠ none → exec i s = .next t →
    t.dev = s.dev ∧ t.svc = s.svc ∧ t.svcq = s.svcq ∧ t.agenda = s.agenda

/-- Every step keeps the module's own registers within what the spec allows. -/
def Obligations.ModuleRegistersStayLegal : Prop := kept registersLegal

/-- Every step keeps memory in its canonical form, so that equal memories are equal data. -/
def Obligations.MemoryStaysCanonical : Prop := kept fun s => s.mach.mem.wf = true

/-- R12, R371, R392, R411, R417, R423, R439: what reset leaves, where the spec gives the value. The clocks, the
caches, the tables and the slot tables are empty or zero, every byte of memory reads zero, no context, task, group or
wave exists, and the blocks of BAR0 hold their Reset column; a device that has started stands at stage 7. The fields
of the blocks lie where the tables put them. Both invariants of the machine hold. R371, R392, R423, R439, R425: the
fields of the four blocks of BAR0 lie where their tables put them, whatever they hold; a field is given by its first
bit and its width. The write-only and the reserved fields read zero. A service core reads the blocks at offset
0x80_0000 of the management window. -/
def Obligations.ResetState : Prop :=
  (let s := State.reset
  registersLegal s ∧ s.mach.mem.wf = true ∧
  (∀ a, s.mach.mem.read a = 0) ∧ s.mach.clock = 0 ∧ s.mach.ctxs = [] ∧ s.mach.waves = [] ∧ s.mach.groups = [] ∧
  s.mach.disp.queues = [] ∧ s.mach.disp.tasks = [] ∧ s.mach.disp.slots = [] ∧ s.mach.coh.words = [] ∧ s.mach.coh.l1 = [] ∧
  s.mach.coh.copies = [] ∧ s.mach.coh.tlb = [] ∧ s.mach.coh.gen = 0 ∧ s.mach.errnext = 0 ∧ s.mach.errdrop = 0 ∧
  (∀ c ∈ s.svc, c.svasid = 0 ∧ c.svjctr = 0) ∧
  s.dev.att.ifhost = 0 ∧ s.dev.att.ifneg = 0 ∧ s.dev.att.mode = 0 ∧ s.dev.att.attached = false ∧ s.dev.att.pollint = 8 ∧
  s.dev.att.qtbase = 0 ∧ s.dev.att.rgbase = 0 ∧ s.dev.att.porten = 0xFFF ∧ s.dev.att.linkup = 0 ∧
  s.dev.ctl.ctxbase = 0 ∧ s.dev.ctl.cmdasid = 0 ∧ s.dev.ctl.cmdarg = 0 ∧ s.dev.ctl.cmdlen = 0 ∧ s.dev.ctl.cmdbusy = false ∧
  s.dev.ctl.cmdres = 0 ∧ s.dev.ctl.rstkind = 0 ∧ s.dev.ctl.failcnt = 0 ∧ s.dev.ctl.recovery = false ∧
  s.dev.ctl.bootstage = 7 ∧
  s.dev.mgt.mbbusy = false ∧ s.dev.mgt.mbres = 0 ∧ s.dev.mgt.mbbuf = 0 ∧ s.dev.mgt.pwrcap = 2400 ∧
  s.dev.mgt.clknow = 2400 ∧ s.dev.mgt.tlimit = 95 ∧ s.dev.mgt.throt = 0 ∧ s.dev.mgt.tripcnt = 0 ∧ s.dev.mgt.vaddr = 0 ∧
  s.dev.mgt.vsrc = 0 ∧ s.dev.mgt.vkind = 0 ∧ s.dev.mgt.vcount = 0 ∧
  s.dev.srv.svbusy = false ∧ s.dev.srv.svres = 0 ∧ s.dev.srv.svasid = 0 ∧ s.dev.srv.srcmod = 0 ∧ s.dev.srv.holdmod = 0 ∧
  s.dev.srv.partner = 0 ∧ s.dev.srv.pstate = 0 ∧ s.dev.srv.rsvpct = 8 ∧ s.dev.srv.rsvbase = 0 ∧ s.dev.srv.errbase = 0 ∧
  s.dev.srv.errcap = 0) ∧
  (let fields := fun (block : Nat) (size : Nat) (fs : List (Nat × Nat × Nat)) =>
    (∀ f ∈ fs, bitsOf block f.1 f.2.1 = f.2.2) ∧
    (∀ b, b < size → (∀ f ∈ fs, ¬(f.1 ≤ b ∧ b < f.1 + f.2.1)) → bitOf block b = false)
  ∀ (d : Dev) (m : Mach), d.srv.retired.length ≤ 4096 →
    fields (attachBits d) 1024
      [(0, 16, 0x0A40), (64, 64, 0x0011111111111111), (128, 64, d.att.ifhost.toNat), (192, 64, d.att.ifneg.toNat),
       (256, 2, d.att.mode.toNat), (259, 1, d.att.attached.toNat), (272, 16, d.att.pollint.toNat),
       (320, 64, d.att.qtbase.toNat), (448, 64, d.att.rgbase.toNat), (512, 14, d.att.modid.toNat),
       (526, 6, d.att.modid.toNat / 256), (532, 12, d.att.porten.toNat), (544, 12, d.att.linkup.toNat)] ∧
    fields (controlBits d) 1024
      [(0, 64, d.ctl.ctxbase.toNat), (80, 16, d.ctl.cmdasid.toNat), (96, 64, d.ctl.cmdarg.toNat),
       (160, 64, d.ctl.cmdlen.toNat), (224, 1, d.ctl.cmdbusy.toNat), (225, 8, d.ctl.cmdres.toNat),
       (258, 3, d.ctl.rstkind.toNat), (261, 2, d.ctl.failcnt.toNat), (263, 1, d.ctl.recovery.toNat),
       (264, 5, d.ctl.bootstage.toNat)] ∧
    fields (mgmtBits d) 2048
      [(16, 1, d.mgt.mbbusy.toNat), (17, 7, d.mgt.mbres.toNat), (64, 64, d.mgt.mbbuf.toNat), (128, 2, d.mgt.lcstate.toNat),
       (192, 16, d.mgt.fwsvn.toNat), (208, 16, d.mgt.svnmin.toNat), (224, 32, d.mgt.feedid.toNat),
       (256, 12, d.mgt.pwrcap.toNat), (272, 12, d.mgt.pwrnow.toNat), (288, 12, d.mgt.clknow.toNat),
       (304, 8, d.mgt.tempmax.toNat), (312, 8, d.mgt.tlimit.toNat), (320, 3, d.mgt.throt.toNat),
       (324, 8, d.mgt.tripcnt.toNat), (384, 64, d.mgt.vaddr.toNat), (448, 2, d.mgt.vsrc.toNat), (450, 2, d.mgt.vkind.toNat),
       (464, 16, d.mgt.vcount.toNat)] ∧
    fields (survivalBits d m) 1024
      [(8, 1, d.srv.svbusy.toNat), (9, 3, d.srv.svres.toNat), (16, 16, d.srv.svasid.toNat), (32, 14, d.srv.srcmod.toNat),
       (48, 14, d.srv.holdmod.toNat), (64, 14, d.srv.partner.toNat), (80, 2, d.srv.pstate.toNat),
       (96, 6, d.srv.rsvpct.toNat), (128, 64, d.srv.rsvbase.toNat), (192, 64, d.srv.errbase.toNat),
       (256, 5, d.srv.errcap.toNat), (288, 32, m.errnext.toNat), (320, 16, m.errdrop.toNat),
       (336, 13, d.srv.retired.length)] ∧
    (∀ k, k < 16 → windowWord d m (0x800000 + 8 * k) = bitsOf (attachBits d) (64 * k) 64 ∧
      windowWord d m (0x800080 + 8 * k) = bitsOf (controlBits d) (64 * k) 64) ∧
    (∀ k, k < 32 → windowWord d m (0x800100 + 8 * k) = bitsOf (mgmtBits d) (64 * k) 64) ∧
    (∀ k, k < 16 → windowWord d m (0x800200 + 8 * k) = bitsOf (survivalBits d m) (64 * k) 64))
end

