-- ==== Sys2Proof/Laws/Memory.lean ====
section
/-! SUPPORT. Memory: reads after writes, and the canonical form that every operation keeps (R6, R411). -/

namespace Sys2Proof.Laws

open Sys2Proof.Machine

/-! One byte -/

@[simp] theorem read_nil (a : Nat) : Memory.read [] a = 0 := rfl

/-- A byte read after a write: the byte written there, and every other byte as before. -/
theorem read_write (m : Memory) (a : Nat) (b : Byte) (x : Nat) (h : m.wf = true) :
    (m.write a b).read x = if x = a then b else m.read x := by
  induction m with
  | nil =>
    simp only [Memory.write]
    split
    · next hb => subst hb; split <;> rfl
    · simp only [Memory.read]
  | cons c r ih =>
    obtain ⟨k, c⟩ := c
    have hr : Memory.wf r = true ∧ ∀ y, y ≤ k → Memory.read r y = 0 := by
      clear ih
      induction r generalizing k c with
      | nil => exact ⟨rfl, fun _ _ => rfl⟩
      | cons d r ih =>
        obtain ⟨l, d⟩ := d
        simp only [Memory.wf, Bool.and_eq_true, decide_eq_true_eq] at h
        refine ⟨h.2, fun y hy => ?_⟩
        have := (ih l d h.2).2 y (by omega)
        simp only [Memory.read]
        rw [if_neg (by omega), this]
    simp only [Memory.write]
    split
    · next hlt =>
      split
      · next hb =>
        subst hb
        by_cases hx : x = a
        · subst hx
          simp only [Memory.read, if_true]
          rw [if_neg (by omega), hr.2 x (by omega)]
        · rw [if_neg hx]
      · simp only [Memory.read]
    · split
      · next heq =>
        subst heq
        split
        · next hb =>
          subst hb
          by_cases hx : x = a
          · subst hx; simp [hr.2 x (Nat.le_refl x)]
          · rw [if_neg hx]; simp [Memory.read, hx]
        · by_cases hx : x = a <;> simp [Memory.read, hx]
      · simp only [Memory.read]
        rw [ih hr.1]
        by_cases hk : x = k
        · subst hk; rw [if_pos rfl, if_neg (by omega), if_pos rfl]
        · rw [if_neg hk, if_neg hk]

/-- The first address of a canonical memory lies below the others. -/
theorem wf_cons (k : Nat) (b : Byte) (m : Memory) :
    Memory.wf ((k, b) :: m) = true ↔ b ≠ 0 ∧ Memory.wf m = true ∧ (∀ l c r, m = (l, c) :: r → k < l) := by
  cases m with
  | nil => simp [Memory.wf]
  | cons d r =>
    obtain ⟨l, c⟩ := d
    simp only [Memory.wf, Bool.and_eq_true, decide_eq_true_eq, bne_iff_ne, ne_eq]
    constructor
    · rintro ⟨⟨h1, h2⟩, h3⟩
      exact ⟨h1, h3, fun l' c' r' e => by cases e; exact h2⟩
    · rintro ⟨h1, h3, h2⟩
      exact ⟨⟨h1, h2 l c r rfl⟩, h3⟩

/-- The first address of memory after a write is one that was there or the one written. -/
theorem write_head (m : Memory) (a : Nat) (b : Byte) (k : Nat) (hk : k < a) (hm : ∀ l c r, m = (l, c) :: r → k < l)
    (hw : m.wf = true) : ∀ l c r, m.write a b = (l, c) :: r → k < l := by
  intro l c r e
  cases m with
  | nil =>
    simp only [Memory.write] at e
    split at e
    · cases e
    · cases e; exact hk
  | cons d t =>
    obtain ⟨j, d⟩ := d
    have hj := hm j d t rfl
    simp only [Memory.write] at e
    split at e
    · split at e
      · cases e; exact hj
      · cases e; exact hk
    · split at e
      · split at e
        · subst e
          have := ((wf_cons j d _).mp hw).2.2 l c r rfl
          omega
        · cases e; exact hk
      · cases e; exact hj

/-- A write keeps the canonical form. -/
theorem write_wf (m : Memory) (a : Nat) (b : Byte) (h : m.wf = true) : (m.write a b).wf = true := by
  induction m with
  | nil =>
    simp only [Memory.write]
    split
    · rfl
    · next hb => exact bne_iff_ne.mpr hb
  | cons c r ih =>
    obtain ⟨k, c⟩ := c
    have h' := (wf_cons k c r).mp h
    simp only [Memory.write]
    split
    · next hlt =>
      split
      · exact h
      · next hb => exact (wf_cons a b _).mpr ⟨hb, h, fun l c' r' e => by cases e; exact hlt⟩
    · split
      · next heq =>
        subst heq
        split
        · exact h'.2.1
        · next hb => exact (wf_cons a b r).mpr ⟨hb, h'.2⟩
      · exact (wf_cons k c _).mpr ⟨h'.1, ih h'.2.1, write_head r a b k (by omega) h'.2.2 h'.2.1⟩

/-! Several bytes -/

/-- Writing bytes keeps the canonical form. -/
theorem writeN_wf (bs : List Byte) : ∀ (m : Memory) (a : Nat), m.wf = true → (m.writeN a bs).wf = true := by
  induction bs with
  | nil => exact fun _ _ h => h
  | cons b bs ih => exact fun m a h => ih _ _ (write_wf m a b h)

/-- A byte read after a write of several: the byte written at its place, and every other byte as before. -/
theorem read_writeN (bs : List Byte) : ∀ (m : Memory) (a x : Nat), m.wf = true →
    (m.writeN a bs).read x = if a ≤ x ∧ x < a + bs.length then bs.getD (x - a) 0 else m.read x := by
  induction bs with
  | nil => intro m a x _; simp only [Memory.writeN, List.length_nil]; rw [if_neg (by omega)]
  | cons b bs ih =>
    intro m a x h
    simp only [Memory.writeN, List.length_cons]
    rw [ih _ _ _ (write_wf m a b h), read_write m a b x h]
    by_cases h1 : x = a
    · subst h1
      rw [if_neg (by omega), if_pos rfl, if_pos (by omega)]
      simp
    · by_cases h2 : a + 1 ≤ x ∧ x < a + 1 + bs.length
      · rw [if_pos h2, if_pos (by omega)]
        have e : x - a = (x - (a + 1)) + 1 := by omega
        rw [e]; simp
      · rw [if_neg h2, if_neg h1, if_neg (by omega)]

@[simp] theorem readN_length (m : Memory) (n : Nat) : ∀ a, (m.readN a n).length = n := by
  induction n with
  | zero => intro a; rfl
  | succ n ih => intro a; simp [Memory.readN, ih]

/-- Bytes read outside what a write covers are as before. -/
theorem readN_writeN_other (m : Memory) (a : Nat) (bs : List Byte) (h : m.wf = true) (n : Nat) : ∀ x,
    (x + n ≤ a ∨ a + bs.length ≤ x) → (m.writeN a bs).readN x n = m.readN x n := by
  induction n with
  | zero => intro x _; rfl
  | succ n ih =>
    intro x hx
    simp only [Memory.readN]
    rw [read_writeN bs m a x h, if_neg (by omega), ih (x + 1) (by omega)]

/-- Bytes read where they were written are those written. -/
theorem readN_writeN_same (bs : List Byte) : ∀ (m : Memory) (a : Nat), m.wf = true →
    (m.writeN a bs).readN a bs.length = bs := by
  induction bs with
  | nil => intro m a _; rfl
  | cons b bs ih =>
    intro m a h
    simp only [Memory.writeN, List.length_cons, Memory.readN]
    rw [ih _ _ (write_wf m a b h), read_writeN bs _ _ _ (write_wf m a b h), if_neg (by omega), read_write m a b a h]
    simp

/-- Writing a word keeps the canonical form. -/
theorem setWord_wf (m : Memory) (w : Nat) (x : BitVec 64) (h : m.wf = true) : (m.setWord w x).wf = true :=
  writeN_wf _ m _ h

/-- Writing listed bytes by offset keeps the canonical form. -/
theorem put_wf (cells : List Host.Cell) : ∀ (m : Memory) (lo : Nat), m.wf = true → (m.put lo cells).wf = true := by
  induction cells with
  | nil => exact fun _ _ h => h
  | cons c cs ih => exact fun m lo h => ih (m.write (lo + c.1) c.2) lo (write_wf m _ _ h)

/-- Dropping listed bytes keeps the canonical form. -/
theorem filter_wf (p : Host.Cell → Bool) (m : Memory) (h : m.wf = true) : Memory.wf (m.filter p) = true := by
  suffices hs : ∀ m : Memory, m.wf = true → Memory.wf (m.filter p) = true ∧
      ∀ k, (∀ l c r, m = (l, c) :: r → k < l) → ∀ l c r, m.filter p = (l, c) :: r → k < l from (hs m h).1
  intro m
  induction m with
  | nil => exact fun _ => ⟨rfl, fun k _ l c r e => by cases e⟩
  | cons d t ih =>
    obtain ⟨j, d⟩ := d
    intro h
    have h' := (wf_cons j d t).mp h
    obtain ⟨h1, h2⟩ := ih h'.2.1
    by_cases hp : p (j, d) = true
    · rw [List.filter_cons_of_pos hp]
      exact ⟨(wf_cons j d _).mpr ⟨h'.1, h1, h2 j h'.2.2⟩, fun k hk l c r e => by cases e; exact hk _ _ _ rfl⟩
    · rw [List.filter_cons_of_neg hp]
      refine ⟨h1, fun k hk l c r e => h2 k (fun l' c' r' e' => ?_) l c r e⟩
      have := hk _ _ _ rfl
      have := h'.2.2 l' c' r' e'
      omega

/-- Clearing a range keeps the canonical form. -/
theorem clear_wf (m : Memory) (lo len : Nat) (h : m.wf = true) : (m.clear lo len).wf = true := filter_wf _ m h

/-- The listed bytes of a range are in canonical form. -/
theorem slice_wf (m : Memory) (lo len : Nat) (h : m.wf = true) : (m.slice lo len).wf = true := filter_wf _ m h

/-- A byte read after a range has been cleared. -/
theorem read_clear (m : Memory) (lo len x : Nat) :
    (m.clear lo len).read x = if lo ≤ x ∧ x < lo + len then 0 else m.read x := by
  induction m with
  | nil => simp [Memory.clear]
  | cons d t ih =>
    obtain ⟨j, d⟩ := d
    simp only [Memory.clear] at ih ⊢
    by_cases hj : lo ≤ j ∧ j < lo + len
    · rw [List.filter_cons_of_neg (by simp [hj]), ih]
      by_cases hx : lo ≤ x ∧ x < lo + len
      · rw [if_pos hx, if_pos hx]
      · rw [if_neg hx, if_neg hx]; simp only [Memory.read]; rw [if_neg (by omega)]
    · rw [List.filter_cons_of_pos (by simp; omega)]
      simp only [Memory.read]
      by_cases hx : x = j
      · subst hx; rw [if_pos rfl, if_neg hj, if_pos rfl]
      · rw [if_neg hx, ih]
        by_cases hy : lo ≤ x ∧ x < lo + len
        · rw [if_pos hy, if_pos hy]
        · rw [if_neg hy, if_neg hy, if_neg hx]

/-! A group's own storage -/

/-- A byte of a group's storage after a write: the byte written there, and every other byte as before. -/
theorem localFind_write (m : Memory) (a : Nat) (b : Byte) (x : Nat) (h : localWf m = true) :
    localFind (localWrite m a b) x = if x = a then some b else localFind m x := by
  induction m with
  | nil => simp [localWrite, localFind]
  | cons c r ih =>
    obtain ⟨k, c⟩ := c
    have hr : localWf r = true := by
      cases r with
      | nil => rfl
      | cons d r => obtain ⟨l, d⟩ := d; simp only [localWf, Bool.and_eq_true] at h; exact h.2
    simp only [localWrite]
    split
    · simp only [localFind]
    · split
      · next heq => subst heq; by_cases hx : x = a <;> simp [localFind, hx]
      · simp only [localFind, ih hr]
        by_cases hk : x = k
        · subst hk; rw [if_pos rfl, if_neg (by omega), if_pos rfl]
        · rw [if_neg hk, if_neg hk]

/-- A group's storage after a write lists rising addresses. -/
theorem localWrite_wf (m : Memory) (a : Nat) (b : Byte) (h : localWf m = true) : localWf (localWrite m a b) = true := by
  have head : ∀ (k : Nat) (c : Byte) (m : Memory), localWf ((k, c) :: m) = true ↔
      localWf m = true ∧ ∀ l d r, m = (l, d) :: r → k < l := by
    intro k c m
    cases m with
    | nil => simp [localWf]
    | cons d r =>
      obtain ⟨l, d⟩ := d
      simp only [localWf, Bool.and_eq_true, decide_eq_true_eq]
      exact ⟨fun h => ⟨h.2, fun l' c' r' e => by cases e; exact h.1⟩, fun h => ⟨h.2 l d r rfl, h.1⟩⟩
  have first : ∀ (m : Memory) (k : Nat), k < a → (∀ l c r, m = (l, c) :: r → k < l) →
      ∀ l c r, localWrite m a b = (l, c) :: r → k < l := by
    intro m k hk hm l c r e
    cases m with
    | nil => simp only [localWrite] at e; cases e; exact hk
    | cons d t =>
      obtain ⟨j, d⟩ := d
      simp only [localWrite] at e
      split at e
      · cases e; exact hk
      · split at e
        · cases e; exact hk
        · cases e; exact hm _ _ _ rfl
  induction m with
  | nil => rfl
  | cons c r ih =>
    obtain ⟨k, c⟩ := c
    have h' := (head k c r).mp h
    simp only [localWrite]
    split
    · next hlt => exact (head a b _).mpr ⟨h, fun l c' r' e => by cases e; exact hlt⟩
    · split
      · next heq => subst heq; exact (head a b r).mpr h'
      · exact (head k c _).mpr ⟨ih h'.1, first r k (by omega) h'.2⟩

end Sys2Proof.Laws
end

