-- ==== Sys2Proof/Laws/State.lean ====
section
/-! SUPPORT. What each update of the state leaves and what it sets, a field at a time. -/

namespace Sys2Proof.Laws

open Sys2Proof.Machine

/-! The module -/

@[simp] theorem withMach_dev (s : State) (f : Dev → Mach → Mach) : (s.withMach f).dev = s.dev := rfl
@[simp] theorem withMach_mach (s : State) (f : Dev → Mach → Mach) : (s.withMach f).mach = f s.dev s.mach := rfl
@[simp] theorem withMach_svc (s : State) (f : Dev → Mach → Mach) : (s.withMach f).svc = s.svc := rfl
@[simp] theorem withMach_svcq (s : State) (f : Dev → Mach → Mach) : (s.withMach f).svcq = s.svcq := rfl
@[simp] theorem withMach_agenda (s : State) (f : Dev → Mach → Mach) : (s.withMach f).agenda = s.agenda := rfl

@[simp] theorem updCtl_dev (s : State) (f : Control → Control) : (s.updCtl f).dev = { s.dev with ctl := f s.dev.ctl } := rfl
@[simp] theorem updCtl_mach (s : State) (f : Control → Control) : (s.updCtl f).mach = s.mach := rfl
@[simp] theorem updCtl_svc (s : State) (f : Control → Control) : (s.updCtl f).svc = s.svc := rfl
@[simp] theorem updCtl_svcq (s : State) (f : Control → Control) : (s.updCtl f).svcq = s.svcq := rfl
@[simp] theorem updCtl_agenda (s : State) (f : Control → Control) : (s.updCtl f).agenda = s.agenda := rfl

@[simp] theorem updAtt_dev (s : State) (f : Attach → Attach) : (s.updAtt f).dev = { s.dev with att := f s.dev.att } := rfl
@[simp] theorem updAtt_mach (s : State) (f : Attach → Attach) : (s.updAtt f).mach = s.mach := rfl
@[simp] theorem updAtt_svc (s : State) (f : Attach → Attach) : (s.updAtt f).svc = s.svc := rfl
@[simp] theorem updAtt_svcq (s : State) (f : Attach → Attach) : (s.updAtt f).svcq = s.svcq := rfl
@[simp] theorem updAtt_agenda (s : State) (f : Attach → Attach) : (s.updAtt f).agenda = s.agenda := rfl

@[simp] theorem updMgt_dev (s : State) (f : Mgmt → Mgmt) : (s.updMgt f).dev = { s.dev with mgt := f s.dev.mgt } := rfl
@[simp] theorem updMgt_mach (s : State) (f : Mgmt → Mgmt) : (s.updMgt f).mach = s.mach := rfl
@[simp] theorem updMgt_svc (s : State) (f : Mgmt → Mgmt) : (s.updMgt f).svc = s.svc := rfl
@[simp] theorem updMgt_svcq (s : State) (f : Mgmt → Mgmt) : (s.updMgt f).svcq = s.svcq := rfl
@[simp] theorem updMgt_agenda (s : State) (f : Mgmt → Mgmt) : (s.updMgt f).agenda = s.agenda := rfl

@[simp] theorem updSrv_dev (s : State) (f : Survival → Survival) : (s.updSrv f).dev = { s.dev with srv := f s.dev.srv } := rfl
@[simp] theorem updSrv_mach (s : State) (f : Survival → Survival) : (s.updSrv f).mach = s.mach := rfl
@[simp] theorem updSrv_svc (s : State) (f : Survival → Survival) : (s.updSrv f).svc = s.svc := rfl
@[simp] theorem updSrv_svcq (s : State) (f : Survival → Survival) : (s.updSrv f).svcq = s.svcq := rfl
@[simp] theorem updSrv_agenda (s : State) (f : Survival → Survival) : (s.updSrv f).agenda = s.agenda := rfl

@[simp] theorem updSvc_dev (s : State) (n : Nat) (f : SvcCore → SvcCore) : (s.updSvc n f).dev = s.dev := rfl
@[simp] theorem updSvc_mach (s : State) (n : Nat) (f : SvcCore → SvcCore) : (s.updSvc n f).mach = s.mach := rfl
@[simp] theorem updSvc_svc (s : State) (n : Nat) (f : SvcCore → SvcCore) : (s.updSvc n f).svc = updAt s.svc n f := rfl
@[simp] theorem updSvc_svcq (s : State) (n : Nat) (f : SvcCore → SvcCore) : (s.updSvc n f).svcq = s.svcq := rfl
@[simp] theorem updSvc_agenda (s : State) (n : Nat) (f : SvcCore → SvcCore) : (s.updSvc n f).agenda = s.agenda := rfl

/-! The machine -/

@[simp] theorem updWave_clock (m : Mach) (c i : Nat) (f : Wave → Wave) : (m.updWave c i f).clock = m.clock := rfl
@[simp] theorem updWave_usec (m : Mach) (c i : Nat) (f : Wave → Wave) : (m.updWave c i f).usec = m.usec := rfl
@[simp] theorem updWave_usFrac (m : Mach) (c i : Nat) (f : Wave → Wave) : (m.updWave c i f).usFrac = m.usFrac := rfl
@[simp] theorem updWave_choices (m : Mach) (c i : Nat) (f : Wave → Wave) : (m.updWave c i f).choices = m.choices := rfl
@[simp] theorem updWave_freeCount (m : Mach) (c i : Nat) (f : Wave → Wave) : (m.updWave c i f).freeCount = m.freeCount := rfl
@[simp] theorem updWave_cur (m : Mach) (c i : Nat) (f : Wave → Wave) : (m.updWave c i f).cur = m.cur := rfl
@[simp] theorem updWave_latch (m : Mach) (c i : Nat) (f : Wave → Wave) : (m.updWave c i f).latch = m.latch := rfl
@[simp] theorem updWave_mem (m : Mach) (c i : Nat) (f : Wave → Wave) : (m.updWave c i f).mem = m.mem := rfl
@[simp] theorem updWave_tags (m : Mach) (c i : Nat) (f : Wave → Wave) : (m.updWave c i f).tags = m.tags := rfl
@[simp] theorem updWave_coh (m : Mach) (c i : Nat) (f : Wave → Wave) : (m.updWave c i f).coh = m.coh := rfl
@[simp] theorem updWave_ctxs (m : Mach) (c i : Nat) (f : Wave → Wave) : (m.updWave c i f).ctxs = m.ctxs := rfl
@[simp] theorem updWave_disp (m : Mach) (c i : Nat) (f : Wave → Wave) : (m.updWave c i f).disp = m.disp := rfl
@[simp] theorem updWave_groups (m : Mach) (c i : Nat) (f : Wave → Wave) : (m.updWave c i f).groups = m.groups := rfl
@[simp] theorem updWave_waves (m : Mach) (c i : Nat) (f : Wave → Wave) : (m.updWave c i f).waves = updWhere (fun w => w.core == c && w.id == i) f m.waves := rfl
@[simp] theorem updWave_frozen (m : Mach) (c i : Nat) (f : Wave → Wave) : (m.updWave c i f).frozen = m.frozen := rfl
@[simp] theorem updWave_poisoned (m : Mach) (c i : Nat) (f : Wave → Wave) : (m.updWave c i f).poisoned = m.poisoned := rfl
@[simp] theorem updWave_failing (m : Mach) (c i : Nat) (f : Wave → Wave) : (m.updWave c i f).failing = m.failing := rfl
@[simp] theorem updWave_turnNo (m : Mach) (c i : Nat) (f : Wave → Wave) : (m.updWave c i f).turnNo = m.turnNo := rfl
@[simp] theorem updWave_turns (m : Mach) (c i : Nat) (f : Wave → Wave) : (m.updWave c i f).turns = m.turns := rfl
@[simp] theorem updWave_errnext (m : Mach) (c i : Nat) (f : Wave → Wave) : (m.updWave c i f).errnext = m.errnext := rfl
@[simp] theorem updWave_errdrop (m : Mach) (c i : Nat) (f : Wave → Wave) : (m.updWave c i f).errdrop = m.errdrop := rfl

@[simp] theorem updGroup_clock (m : Mach) (c i : Nat) (f : Group → Group) : (m.updGroup c i f).clock = m.clock := rfl
@[simp] theorem updGroup_usec (m : Mach) (c i : Nat) (f : Group → Group) : (m.updGroup c i f).usec = m.usec := rfl
@[simp] theorem updGroup_usFrac (m : Mach) (c i : Nat) (f : Group → Group) : (m.updGroup c i f).usFrac = m.usFrac := rfl
@[simp] theorem updGroup_choices (m : Mach) (c i : Nat) (f : Group → Group) : (m.updGroup c i f).choices = m.choices := rfl
@[simp] theorem updGroup_freeCount (m : Mach) (c i : Nat) (f : Group → Group) : (m.updGroup c i f).freeCount = m.freeCount := rfl
@[simp] theorem updGroup_cur (m : Mach) (c i : Nat) (f : Group → Group) : (m.updGroup c i f).cur = m.cur := rfl
@[simp] theorem updGroup_latch (m : Mach) (c i : Nat) (f : Group → Group) : (m.updGroup c i f).latch = m.latch := rfl
@[simp] theorem updGroup_mem (m : Mach) (c i : Nat) (f : Group → Group) : (m.updGroup c i f).mem = m.mem := rfl
@[simp] theorem updGroup_tags (m : Mach) (c i : Nat) (f : Group → Group) : (m.updGroup c i f).tags = m.tags := rfl
@[simp] theorem updGroup_coh (m : Mach) (c i : Nat) (f : Group → Group) : (m.updGroup c i f).coh = m.coh := rfl
@[simp] theorem updGroup_ctxs (m : Mach) (c i : Nat) (f : Group → Group) : (m.updGroup c i f).ctxs = m.ctxs := rfl
@[simp] theorem updGroup_disp (m : Mach) (c i : Nat) (f : Group → Group) : (m.updGroup c i f).disp = m.disp := rfl
@[simp] theorem updGroup_groups (m : Mach) (c i : Nat) (f : Group → Group) : (m.updGroup c i f).groups = updWhere (fun g => g.core == c && g.id == i) f m.groups := rfl
@[simp] theorem updGroup_waves (m : Mach) (c i : Nat) (f : Group → Group) : (m.updGroup c i f).waves = m.waves := rfl
@[simp] theorem updGroup_frozen (m : Mach) (c i : Nat) (f : Group → Group) : (m.updGroup c i f).frozen = m.frozen := rfl
@[simp] theorem updGroup_poisoned (m : Mach) (c i : Nat) (f : Group → Group) : (m.updGroup c i f).poisoned = m.poisoned := rfl
@[simp] theorem updGroup_failing (m : Mach) (c i : Nat) (f : Group → Group) : (m.updGroup c i f).failing = m.failing := rfl
@[simp] theorem updGroup_turnNo (m : Mach) (c i : Nat) (f : Group → Group) : (m.updGroup c i f).turnNo = m.turnNo := rfl
@[simp] theorem updGroup_turns (m : Mach) (c i : Nat) (f : Group → Group) : (m.updGroup c i f).turns = m.turns := rfl
@[simp] theorem updGroup_errnext (m : Mach) (c i : Nat) (f : Group → Group) : (m.updGroup c i f).errnext = m.errnext := rfl
@[simp] theorem updGroup_errdrop (m : Mach) (c i : Nat) (f : Group → Group) : (m.updGroup c i f).errdrop = m.errdrop := rfl

@[simp] theorem updCtx_clock (m : Mach) (a : BitVec 16) (f : Ctx → Ctx) : (m.updCtx a f).clock = m.clock := rfl
@[simp] theorem updCtx_usec (m : Mach) (a : BitVec 16) (f : Ctx → Ctx) : (m.updCtx a f).usec = m.usec := rfl
@[simp] theorem updCtx_usFrac (m : Mach) (a : BitVec 16) (f : Ctx → Ctx) : (m.updCtx a f).usFrac = m.usFrac := rfl
@[simp] theorem updCtx_choices (m : Mach) (a : BitVec 16) (f : Ctx → Ctx) : (m.updCtx a f).choices = m.choices := rfl
@[simp] theorem updCtx_freeCount (m : Mach) (a : BitVec 16) (f : Ctx → Ctx) : (m.updCtx a f).freeCount = m.freeCount := rfl
@[simp] theorem updCtx_cur (m : Mach) (a : BitVec 16) (f : Ctx → Ctx) : (m.updCtx a f).cur = m.cur := rfl
@[simp] theorem updCtx_latch (m : Mach) (a : BitVec 16) (f : Ctx → Ctx) : (m.updCtx a f).latch = m.latch := rfl
@[simp] theorem updCtx_mem (m : Mach) (a : BitVec 16) (f : Ctx → Ctx) : (m.updCtx a f).mem = m.mem := rfl
@[simp] theorem updCtx_tags (m : Mach) (a : BitVec 16) (f : Ctx → Ctx) : (m.updCtx a f).tags = m.tags := rfl
@[simp] theorem updCtx_coh (m : Mach) (a : BitVec 16) (f : Ctx → Ctx) : (m.updCtx a f).coh = m.coh := rfl
@[simp] theorem updCtx_disp (m : Mach) (a : BitVec 16) (f : Ctx → Ctx) : (m.updCtx a f).disp = m.disp := rfl
@[simp] theorem updCtx_groups (m : Mach) (a : BitVec 16) (f : Ctx → Ctx) : (m.updCtx a f).groups = m.groups := rfl
@[simp] theorem updCtx_waves (m : Mach) (a : BitVec 16) (f : Ctx → Ctx) : (m.updCtx a f).waves = m.waves := rfl
@[simp] theorem updCtx_frozen (m : Mach) (a : BitVec 16) (f : Ctx → Ctx) : (m.updCtx a f).frozen = m.frozen := rfl
@[simp] theorem updCtx_poisoned (m : Mach) (a : BitVec 16) (f : Ctx → Ctx) : (m.updCtx a f).poisoned = m.poisoned := rfl
@[simp] theorem updCtx_failing (m : Mach) (a : BitVec 16) (f : Ctx → Ctx) : (m.updCtx a f).failing = m.failing := rfl
@[simp] theorem updCtx_turnNo (m : Mach) (a : BitVec 16) (f : Ctx → Ctx) : (m.updCtx a f).turnNo = m.turnNo := rfl
@[simp] theorem updCtx_turns (m : Mach) (a : BitVec 16) (f : Ctx → Ctx) : (m.updCtx a f).turns = m.turns := rfl
@[simp] theorem updCtx_errnext (m : Mach) (a : BitVec 16) (f : Ctx → Ctx) : (m.updCtx a f).errnext = m.errnext := rfl
@[simp] theorem updCtx_errdrop (m : Mach) (a : BitVec 16) (f : Ctx → Ctx) : (m.updCtx a f).errdrop = m.errdrop := rfl

@[simp] theorem updParked_clock (m : Mach) (a : BitVec 16) (h : BitVec 64) (f : Parked → Parked) : (m.updParked a h f).clock = m.clock := rfl
@[simp] theorem updParked_usec (m : Mach) (a : BitVec 16) (h : BitVec 64) (f : Parked → Parked) : (m.updParked a h f).usec = m.usec := rfl
@[simp] theorem updParked_usFrac (m : Mach) (a : BitVec 16) (h : BitVec 64) (f : Parked → Parked) : (m.updParked a h f).usFrac = m.usFrac := rfl
@[simp] theorem updParked_choices (m : Mach) (a : BitVec 16) (h : BitVec 64) (f : Parked → Parked) : (m.updParked a h f).choices = m.choices := rfl
@[simp] theorem updParked_freeCount (m : Mach) (a : BitVec 16) (h : BitVec 64) (f : Parked → Parked) : (m.updParked a h f).freeCount = m.freeCount := rfl
@[simp] theorem updParked_cur (m : Mach) (a : BitVec 16) (h : BitVec 64) (f : Parked → Parked) : (m.updParked a h f).cur = m.cur := rfl
@[simp] theorem updParked_latch (m : Mach) (a : BitVec 16) (h : BitVec 64) (f : Parked → Parked) : (m.updParked a h f).latch = m.latch := rfl
@[simp] theorem updParked_mem (m : Mach) (a : BitVec 16) (h : BitVec 64) (f : Parked → Parked) : (m.updParked a h f).mem = m.mem := rfl
@[simp] theorem updParked_tags (m : Mach) (a : BitVec 16) (h : BitVec 64) (f : Parked → Parked) : (m.updParked a h f).tags = m.tags := rfl
@[simp] theorem updParked_coh (m : Mach) (a : BitVec 16) (h : BitVec 64) (f : Parked → Parked) : (m.updParked a h f).coh = m.coh := rfl
@[simp] theorem updParked_ctxs (m : Mach) (a : BitVec 16) (h : BitVec 64) (f : Parked → Parked) : (m.updParked a h f).ctxs = m.ctxs := rfl
@[simp] theorem updParked_groups (m : Mach) (a : BitVec 16) (h : BitVec 64) (f : Parked → Parked) : (m.updParked a h f).groups = m.groups := rfl
@[simp] theorem updParked_waves (m : Mach) (a : BitVec 16) (h : BitVec 64) (f : Parked → Parked) : (m.updParked a h f).waves = m.waves := rfl
@[simp] theorem updParked_frozen (m : Mach) (a : BitVec 16) (h : BitVec 64) (f : Parked → Parked) : (m.updParked a h f).frozen = m.frozen := rfl
@[simp] theorem updParked_poisoned (m : Mach) (a : BitVec 16) (h : BitVec 64) (f : Parked → Parked) : (m.updParked a h f).poisoned = m.poisoned := rfl
@[simp] theorem updParked_failing (m : Mach) (a : BitVec 16) (h : BitVec 64) (f : Parked → Parked) : (m.updParked a h f).failing = m.failing := rfl
@[simp] theorem updParked_turnNo (m : Mach) (a : BitVec 16) (h : BitVec 64) (f : Parked → Parked) : (m.updParked a h f).turnNo = m.turnNo := rfl
@[simp] theorem updParked_turns (m : Mach) (a : BitVec 16) (h : BitVec 64) (f : Parked → Parked) : (m.updParked a h f).turns = m.turns := rfl
@[simp] theorem updParked_errnext (m : Mach) (a : BitVec 16) (h : BitVec 64) (f : Parked → Parked) : (m.updParked a h f).errnext = m.errnext := rfl
@[simp] theorem updParked_errdrop (m : Mach) (a : BitVec 16) (h : BitVec 64) (f : Parked → Parked) : (m.updParked a h f).errdrop = m.errdrop := rfl

@[simp] theorem dropParked_clock (m : Mach) (a : BitVec 16) (h : BitVec 64) : (m.dropParked a h).clock = m.clock := rfl
@[simp] theorem dropParked_usec (m : Mach) (a : BitVec 16) (h : BitVec 64) : (m.dropParked a h).usec = m.usec := rfl
@[simp] theorem dropParked_usFrac (m : Mach) (a : BitVec 16) (h : BitVec 64) : (m.dropParked a h).usFrac = m.usFrac := rfl
@[simp] theorem dropParked_choices (m : Mach) (a : BitVec 16) (h : BitVec 64) : (m.dropParked a h).choices = m.choices := rfl
@[simp] theorem dropParked_freeCount (m : Mach) (a : BitVec 16) (h : BitVec 64) : (m.dropParked a h).freeCount = m.freeCount := rfl
@[simp] theorem dropParked_cur (m : Mach) (a : BitVec 16) (h : BitVec 64) : (m.dropParked a h).cur = m.cur := rfl
@[simp] theorem dropParked_latch (m : Mach) (a : BitVec 16) (h : BitVec 64) : (m.dropParked a h).latch = m.latch := rfl
@[simp] theorem dropParked_mem (m : Mach) (a : BitVec 16) (h : BitVec 64) : (m.dropParked a h).mem = m.mem := rfl
@[simp] theorem dropParked_tags (m : Mach) (a : BitVec 16) (h : BitVec 64) : (m.dropParked a h).tags = m.tags := rfl
@[simp] theorem dropParked_coh (m : Mach) (a : BitVec 16) (h : BitVec 64) : (m.dropParked a h).coh = m.coh := rfl
@[simp] theorem dropParked_ctxs (m : Mach) (a : BitVec 16) (h : BitVec 64) : (m.dropParked a h).ctxs = m.ctxs := rfl
@[simp] theorem dropParked_groups (m : Mach) (a : BitVec 16) (h : BitVec 64) : (m.dropParked a h).groups = m.groups := rfl
@[simp] theorem dropParked_waves (m : Mach) (a : BitVec 16) (h : BitVec 64) : (m.dropParked a h).waves = m.waves := rfl
@[simp] theorem dropParked_frozen (m : Mach) (a : BitVec 16) (h : BitVec 64) : (m.dropParked a h).frozen = m.frozen := rfl
@[simp] theorem dropParked_poisoned (m : Mach) (a : BitVec 16) (h : BitVec 64) : (m.dropParked a h).poisoned = m.poisoned := rfl
@[simp] theorem dropParked_failing (m : Mach) (a : BitVec 16) (h : BitVec 64) : (m.dropParked a h).failing = m.failing := rfl
@[simp] theorem dropParked_turnNo (m : Mach) (a : BitVec 16) (h : BitVec 64) : (m.dropParked a h).turnNo = m.turnNo := rfl
@[simp] theorem dropParked_turns (m : Mach) (a : BitVec 16) (h : BitVec 64) : (m.dropParked a h).turns = m.turns := rfl
@[simp] theorem dropParked_errnext (m : Mach) (a : BitVec 16) (h : BitVec 64) : (m.dropParked a h).errnext = m.errnext := rfl
@[simp] theorem dropParked_errdrop (m : Mach) (a : BitVec 16) (h : BitVec 64) : (m.dropParked a h).errdrop = m.errdrop := rfl

@[simp] theorem updTask_clock (m : Mach) (n : Nat) (f : Task → Task) : (m.updTask n f).clock = m.clock := rfl
@[simp] theorem updTask_usec (m : Mach) (n : Nat) (f : Task → Task) : (m.updTask n f).usec = m.usec := rfl
@[simp] theorem updTask_usFrac (m : Mach) (n : Nat) (f : Task → Task) : (m.updTask n f).usFrac = m.usFrac := rfl
@[simp] theorem updTask_choices (m : Mach) (n : Nat) (f : Task → Task) : (m.updTask n f).choices = m.choices := rfl
@[simp] theorem updTask_freeCount (m : Mach) (n : Nat) (f : Task → Task) : (m.updTask n f).freeCount = m.freeCount := rfl
@[simp] theorem updTask_cur (m : Mach) (n : Nat) (f : Task → Task) : (m.updTask n f).cur = m.cur := rfl
@[simp] theorem updTask_latch (m : Mach) (n : Nat) (f : Task → Task) : (m.updTask n f).latch = m.latch := rfl
@[simp] theorem updTask_mem (m : Mach) (n : Nat) (f : Task → Task) : (m.updTask n f).mem = m.mem := rfl
@[simp] theorem updTask_tags (m : Mach) (n : Nat) (f : Task → Task) : (m.updTask n f).tags = m.tags := rfl
@[simp] theorem updTask_coh (m : Mach) (n : Nat) (f : Task → Task) : (m.updTask n f).coh = m.coh := rfl
@[simp] theorem updTask_ctxs (m : Mach) (n : Nat) (f : Task → Task) : (m.updTask n f).ctxs = m.ctxs := rfl
@[simp] theorem updTask_groups (m : Mach) (n : Nat) (f : Task → Task) : (m.updTask n f).groups = m.groups := rfl
@[simp] theorem updTask_waves (m : Mach) (n : Nat) (f : Task → Task) : (m.updTask n f).waves = m.waves := rfl
@[simp] theorem updTask_frozen (m : Mach) (n : Nat) (f : Task → Task) : (m.updTask n f).frozen = m.frozen := rfl
@[simp] theorem updTask_poisoned (m : Mach) (n : Nat) (f : Task → Task) : (m.updTask n f).poisoned = m.poisoned := rfl
@[simp] theorem updTask_failing (m : Mach) (n : Nat) (f : Task → Task) : (m.updTask n f).failing = m.failing := rfl
@[simp] theorem updTask_turnNo (m : Mach) (n : Nat) (f : Task → Task) : (m.updTask n f).turnNo = m.turnNo := rfl
@[simp] theorem updTask_turns (m : Mach) (n : Nat) (f : Task → Task) : (m.updTask n f).turns = m.turns := rfl
@[simp] theorem updTask_errnext (m : Mach) (n : Nat) (f : Task → Task) : (m.updTask n f).errnext = m.errnext := rfl
@[simp] theorem updTask_errdrop (m : Mach) (n : Nat) (f : Task → Task) : (m.updTask n f).errdrop = m.errdrop := rfl

@[simp] theorem updPath_clock (m : Mach) (c i : Nat) (k : BitVec 64) (f : Path → Path) : (m.updPath c i k f).clock = m.clock := rfl
@[simp] theorem updPath_usec (m : Mach) (c i : Nat) (k : BitVec 64) (f : Path → Path) : (m.updPath c i k f).usec = m.usec := rfl
@[simp] theorem updPath_usFrac (m : Mach) (c i : Nat) (k : BitVec 64) (f : Path → Path) : (m.updPath c i k f).usFrac = m.usFrac := rfl
@[simp] theorem updPath_choices (m : Mach) (c i : Nat) (k : BitVec 64) (f : Path → Path) : (m.updPath c i k f).choices = m.choices := rfl
@[simp] theorem updPath_freeCount (m : Mach) (c i : Nat) (k : BitVec 64) (f : Path → Path) : (m.updPath c i k f).freeCount = m.freeCount := rfl
@[simp] theorem updPath_cur (m : Mach) (c i : Nat) (k : BitVec 64) (f : Path → Path) : (m.updPath c i k f).cur = m.cur := rfl
@[simp] theorem updPath_latch (m : Mach) (c i : Nat) (k : BitVec 64) (f : Path → Path) : (m.updPath c i k f).latch = m.latch := rfl
@[simp] theorem updPath_mem (m : Mach) (c i : Nat) (k : BitVec 64) (f : Path → Path) : (m.updPath c i k f).mem = m.mem := rfl
@[simp] theorem updPath_tags (m : Mach) (c i : Nat) (k : BitVec 64) (f : Path → Path) : (m.updPath c i k f).tags = m.tags := rfl
@[simp] theorem updPath_coh (m : Mach) (c i : Nat) (k : BitVec 64) (f : Path → Path) : (m.updPath c i k f).coh = m.coh := rfl
@[simp] theorem updPath_ctxs (m : Mach) (c i : Nat) (k : BitVec 64) (f : Path → Path) : (m.updPath c i k f).ctxs = m.ctxs := rfl
@[simp] theorem updPath_disp (m : Mach) (c i : Nat) (k : BitVec 64) (f : Path → Path) : (m.updPath c i k f).disp = m.disp := rfl
@[simp] theorem updPath_groups (m : Mach) (c i : Nat) (k : BitVec 64) (f : Path → Path) : (m.updPath c i k f).groups = m.groups := rfl
@[simp] theorem updPath_frozen (m : Mach) (c i : Nat) (k : BitVec 64) (f : Path → Path) : (m.updPath c i k f).frozen = m.frozen := rfl
@[simp] theorem updPath_poisoned (m : Mach) (c i : Nat) (k : BitVec 64) (f : Path → Path) : (m.updPath c i k f).poisoned = m.poisoned := rfl
@[simp] theorem updPath_failing (m : Mach) (c i : Nat) (k : BitVec 64) (f : Path → Path) : (m.updPath c i k f).failing = m.failing := rfl
@[simp] theorem updPath_turnNo (m : Mach) (c i : Nat) (k : BitVec 64) (f : Path → Path) : (m.updPath c i k f).turnNo = m.turnNo := rfl
@[simp] theorem updPath_turns (m : Mach) (c i : Nat) (k : BitVec 64) (f : Path → Path) : (m.updPath c i k f).turns = m.turns := rfl
@[simp] theorem updPath_errnext (m : Mach) (c i : Nat) (k : BitVec 64) (f : Path → Path) : (m.updPath c i k f).errnext = m.errnext := rfl
@[simp] theorem updPath_errdrop (m : Mach) (c i : Nat) (k : BitVec 64) (f : Path → Path) : (m.updPath c i k f).errdrop = m.errdrop := rfl

@[simp] theorem unlatch_clock (m : Mach) (c i : Nat) : (m.unlatch c i).clock = m.clock := rfl
@[simp] theorem unlatch_usec (m : Mach) (c i : Nat) : (m.unlatch c i).usec = m.usec := rfl
@[simp] theorem unlatch_usFrac (m : Mach) (c i : Nat) : (m.unlatch c i).usFrac = m.usFrac := rfl
@[simp] theorem unlatch_choices (m : Mach) (c i : Nat) : (m.unlatch c i).choices = m.choices := rfl
@[simp] theorem unlatch_freeCount (m : Mach) (c i : Nat) : (m.unlatch c i).freeCount = m.freeCount := rfl
@[simp] theorem unlatch_cur (m : Mach) (c i : Nat) : (m.unlatch c i).cur = m.cur := rfl
@[simp] theorem unlatch_mem (m : Mach) (c i : Nat) : (m.unlatch c i).mem = m.mem := rfl
@[simp] theorem unlatch_tags (m : Mach) (c i : Nat) : (m.unlatch c i).tags = m.tags := rfl
@[simp] theorem unlatch_coh (m : Mach) (c i : Nat) : (m.unlatch c i).coh = m.coh := rfl
@[simp] theorem unlatch_ctxs (m : Mach) (c i : Nat) : (m.unlatch c i).ctxs = m.ctxs := rfl
@[simp] theorem unlatch_disp (m : Mach) (c i : Nat) : (m.unlatch c i).disp = m.disp := rfl
@[simp] theorem unlatch_groups (m : Mach) (c i : Nat) : (m.unlatch c i).groups = m.groups := rfl
@[simp] theorem unlatch_waves (m : Mach) (c i : Nat) : (m.unlatch c i).waves = m.waves := rfl
@[simp] theorem unlatch_frozen (m : Mach) (c i : Nat) : (m.unlatch c i).frozen = m.frozen := rfl
@[simp] theorem unlatch_poisoned (m : Mach) (c i : Nat) : (m.unlatch c i).poisoned = m.poisoned := rfl
@[simp] theorem unlatch_failing (m : Mach) (c i : Nat) : (m.unlatch c i).failing = m.failing := rfl
@[simp] theorem unlatch_turnNo (m : Mach) (c i : Nat) : (m.unlatch c i).turnNo = m.turnNo := rfl
@[simp] theorem unlatch_turns (m : Mach) (c i : Nat) : (m.unlatch c i).turns = m.turns := rfl
@[simp] theorem unlatch_errnext (m : Mach) (c i : Nat) : (m.unlatch c i).errnext = m.errnext := rfl
@[simp] theorem unlatch_errdrop (m : Mach) (c i : Nat) : (m.unlatch c i).errdrop = m.errdrop := rfl

/-! Waves -/

@[simp] theorem updLane_core (w : Wave) (l : Nat) (f : Lane → Lane) : (w.updLane l f).core = w.core := rfl
@[simp] theorem updLane_id (w : Wave) (l : Nat) (f : Lane → Lane) : (w.updLane l f).id = w.id := rfl
@[simp] theorem updLane_slot (w : Wave) (l : Nat) (f : Lane → Lane) : (w.updLane l f).slot = w.slot := rfl
@[simp] theorem updLane_width (w : Wave) (l : Nat) (f : Lane → Lane) : (w.updLane l f).width = w.width := rfl
@[simp] theorem updLane_asid (w : Wave) (l : Nat) (f : Lane → Lane) : (w.updLane l f).asid = w.asid := rfl
@[simp] theorem updLane_shadow (w : Wave) (l : Nat) (f : Lane → Lane) : (w.updLane l f).shadow = w.shadow := rfl
@[simp] theorem updLane_partner (w : Wave) (l : Nat) (f : Lane → Lane) : (w.updLane l f).partner = w.partner := rfl
@[simp] theorem updLane_guarded (w : Wave) (l : Nat) (f : Lane → Lane) : (w.updLane l f).guarded = w.guarded := rfl
@[simp] theorem updLane_tol (w : Wave) (l : Nat) (f : Lane → Lane) : (w.updLane l f).tol = w.tol := rfl
@[simp] theorem updLane_launchPr (w : Wave) (l : Nat) (f : Lane → Lane) : (w.updLane l f).launchPr = w.launchPr := rfl
@[simp] theorem updLane_prio (w : Wave) (l : Nat) (f : Lane → Lane) : (w.updLane l f).prio = w.prio := rfl
@[simp] theorem updLane_memdef (w : Wave) (l : Nat) (f : Lane → Lane) : (w.updLane l f).memdef = w.memdef := rfl
@[simp] theorem updLane_step (w : Wave) (l : Nat) (f : Lane → Lane) : (w.updLane l f).step = w.step := rfl
@[simp] theorem updLane_gang (w : Wave) (l : Nat) (f : Lane → Lane) : (w.updLane l f).gang = w.gang := rfl
@[simp] theorem updLane_gangDead (w : Wave) (l : Nat) (f : Lane → Lane) : (w.updLane l f).gangDead = w.gangDead := rfl
@[simp] theorem updLane_fails (w : Wave) (l : Nat) (f : Lane → Lane) : (w.updLane l f).fails = w.fails := rfl
@[simp] theorem updLane_savedPr (w : Wave) (l : Nat) (f : Lane → Lane) : (w.updLane l f).savedPr = w.savedPr := rfl
@[simp] theorem updLane_s (w : Wave) (l : Nat) (f : Lane → Lane) : (w.updLane l f).s = w.s := rfl
@[simp] theorem updLane_lanes (w : Wave) (l : Nat) (f : Lane → Lane) : (w.updLane l f).lanes = updAt w.lanes l f := rfl
@[simp] theorem updLane_paths (w : Wave) (l : Nat) (f : Lane → Lane) : (w.updLane l f).paths = w.paths := rfl
@[simp] theorem updLane_aside (w : Wave) (l : Nat) (f : Lane → Lane) : (w.updLane l f).aside = w.aside := rfl
@[simp] theorem updLane_resume (w : Wave) (l : Nat) (f : Lane → Lane) : (w.updLane l f).resume = w.resume := rfl
@[simp] theorem updLane_waits (w : Wave) (l : Nat) (f : Lane → Lane) : (w.updLane l f).waits = w.waits := rfl
@[simp] theorem updLane_ages (w : Wave) (l : Nat) (f : Lane → Lane) : (w.updLane l f).ages = w.ages := rfl
@[simp] theorem updLane_promoted (w : Wave) (l : Nat) (f : Lane → Lane) : (w.updLane l f).promoted = w.promoted := rfl
@[simp] theorem updLane_deferred (w : Wave) (l : Nat) (f : Lane → Lane) : (w.updLane l f).deferred = w.deferred := rfl
@[simp] theorem updLane_fetched (w : Wave) (l : Nat) (f : Lane → Lane) : (w.updLane l f).fetched = w.fetched := rfl
@[simp] theorem updLane_marker (w : Wave) (l : Nat) (f : Lane → Lane) : (w.updLane l f).marker = w.marker := rfl
@[simp] theorem updLane_ckCount (w : Wave) (l : Nat) (f : Lane → Lane) : (w.updLane l f).ckCount = w.ckCount := rfl
@[simp] theorem updLane_issueNo (w : Wave) (l : Nat) (f : Lane → Lane) : (w.updLane l f).issueNo = w.issueNo := rfl
@[simp] theorem updLane_owes (w : Wave) (l : Nat) (f : Lane → Lane) : (w.updLane l f).owes = w.owes := rfl
@[simp] theorem updLane_parked (w : Wave) (l : Nat) (f : Lane → Lane) : (w.updLane l f).parked = w.parked := rfl
@[simp] theorem updLane_stopped (w : Wave) (l : Nat) (f : Lane → Lane) : (w.updLane l f).stopped = w.stopped := rfl
@[simp] theorem updLane_evicted (w : Wave) (l : Nat) (f : Lane → Lane) : (w.updLane l f).evicted = w.evicted := rfl
@[simp] theorem updLane_depth (w : Wave) (l : Nat) (f : Lane → Lane) : (w.updLane l f).depth = w.depth := rfl
@[simp] theorem updLane_record (w : Wave) (l : Nat) (f : Lane → Lane) : (w.updLane l f).record = w.record := rfl
@[simp] theorem updLane_task (w : Wave) (l : Nat) (f : Lane → Lane) : (w.updLane l f).task = w.task := rfl
@[simp] theorem updLane_gindex (w : Wave) (l : Nat) (f : Lane → Lane) : (w.updLane l f).gindex = w.gindex := rfl
@[simp] theorem updLane_turn (w : Wave) (l : Nat) (f : Lane → Lane) : (w.updLane l f).turn = w.turn := rfl
@[simp] theorem updLane_snapped (w : Wave) (l : Nat) (f : Lane → Lane) : (w.updLane l f).snapped = w.snapped := rfl
@[simp] theorem updLane_saved (w : Wave) (l : Nat) (f : Lane → Lane) : (w.updLane l f).saved = w.saved := rfl
@[simp] theorem updLane_ended (w : Wave) (l : Nat) (f : Lane → Lane) : (w.updLane l f).ended = w.ended := rfl

@[simp] theorem updLanes_core (w : Wave) (k : BitVec 64) (f : Lane → Lane) : (w.updLanes k f).core = w.core := rfl
@[simp] theorem updLanes_id (w : Wave) (k : BitVec 64) (f : Lane → Lane) : (w.updLanes k f).id = w.id := rfl
@[simp] theorem updLanes_slot (w : Wave) (k : BitVec 64) (f : Lane → Lane) : (w.updLanes k f).slot = w.slot := rfl
@[simp] theorem updLanes_width (w : Wave) (k : BitVec 64) (f : Lane → Lane) : (w.updLanes k f).width = w.width := rfl
@[simp] theorem updLanes_asid (w : Wave) (k : BitVec 64) (f : Lane → Lane) : (w.updLanes k f).asid = w.asid := rfl
@[simp] theorem updLanes_shadow (w : Wave) (k : BitVec 64) (f : Lane → Lane) : (w.updLanes k f).shadow = w.shadow := rfl
@[simp] theorem updLanes_partner (w : Wave) (k : BitVec 64) (f : Lane → Lane) : (w.updLanes k f).partner = w.partner := rfl
@[simp] theorem updLanes_guarded (w : Wave) (k : BitVec 64) (f : Lane → Lane) : (w.updLanes k f).guarded = w.guarded := rfl
@[simp] theorem updLanes_tol (w : Wave) (k : BitVec 64) (f : Lane → Lane) : (w.updLanes k f).tol = w.tol := rfl
@[simp] theorem updLanes_launchPr (w : Wave) (k : BitVec 64) (f : Lane → Lane) : (w.updLanes k f).launchPr = w.launchPr := rfl
@[simp] theorem updLanes_prio (w : Wave) (k : BitVec 64) (f : Lane → Lane) : (w.updLanes k f).prio = w.prio := rfl
@[simp] theorem updLanes_memdef (w : Wave) (k : BitVec 64) (f : Lane → Lane) : (w.updLanes k f).memdef = w.memdef := rfl
@[simp] theorem updLanes_step (w : Wave) (k : BitVec 64) (f : Lane → Lane) : (w.updLanes k f).step = w.step := rfl
@[simp] theorem updLanes_gang (w : Wave) (k : BitVec 64) (f : Lane → Lane) : (w.updLanes k f).gang = w.gang := rfl
@[simp] theorem updLanes_gangDead (w : Wave) (k : BitVec 64) (f : Lane → Lane) : (w.updLanes k f).gangDead = w.gangDead := rfl
@[simp] theorem updLanes_fails (w : Wave) (k : BitVec 64) (f : Lane → Lane) : (w.updLanes k f).fails = w.fails := rfl
@[simp] theorem updLanes_savedPr (w : Wave) (k : BitVec 64) (f : Lane → Lane) : (w.updLanes k f).savedPr = w.savedPr := rfl
@[simp] theorem updLanes_s (w : Wave) (k : BitVec 64) (f : Lane → Lane) : (w.updLanes k f).s = w.s := rfl
@[simp] theorem updLanes_paths (w : Wave) (k : BitVec 64) (f : Lane → Lane) : (w.updLanes k f).paths = w.paths := rfl
@[simp] theorem updLanes_aside (w : Wave) (k : BitVec 64) (f : Lane → Lane) : (w.updLanes k f).aside = w.aside := rfl
@[simp] theorem updLanes_resume (w : Wave) (k : BitVec 64) (f : Lane → Lane) : (w.updLanes k f).resume = w.resume := rfl
@[simp] theorem updLanes_waits (w : Wave) (k : BitVec 64) (f : Lane → Lane) : (w.updLanes k f).waits = w.waits := rfl
@[simp] theorem updLanes_ages (w : Wave) (k : BitVec 64) (f : Lane → Lane) : (w.updLanes k f).ages = w.ages := rfl
@[simp] theorem updLanes_promoted (w : Wave) (k : BitVec 64) (f : Lane → Lane) : (w.updLanes k f).promoted = w.promoted := rfl
@[simp] theorem updLanes_deferred (w : Wave) (k : BitVec 64) (f : Lane → Lane) : (w.updLanes k f).deferred = w.deferred := rfl
@[simp] theorem updLanes_fetched (w : Wave) (k : BitVec 64) (f : Lane → Lane) : (w.updLanes k f).fetched = w.fetched := rfl
@[simp] theorem updLanes_marker (w : Wave) (k : BitVec 64) (f : Lane → Lane) : (w.updLanes k f).marker = w.marker := rfl
@[simp] theorem updLanes_ckCount (w : Wave) (k : BitVec 64) (f : Lane → Lane) : (w.updLanes k f).ckCount = w.ckCount := rfl
@[simp] theorem updLanes_issueNo (w : Wave) (k : BitVec 64) (f : Lane → Lane) : (w.updLanes k f).issueNo = w.issueNo := rfl
@[simp] theorem updLanes_owes (w : Wave) (k : BitVec 64) (f : Lane → Lane) : (w.updLanes k f).owes = w.owes := rfl
@[simp] theorem updLanes_parked (w : Wave) (k : BitVec 64) (f : Lane → Lane) : (w.updLanes k f).parked = w.parked := rfl
@[simp] theorem updLanes_stopped (w : Wave) (k : BitVec 64) (f : Lane → Lane) : (w.updLanes k f).stopped = w.stopped := rfl
@[simp] theorem updLanes_evicted (w : Wave) (k : BitVec 64) (f : Lane → Lane) : (w.updLanes k f).evicted = w.evicted := rfl
@[simp] theorem updLanes_depth (w : Wave) (k : BitVec 64) (f : Lane → Lane) : (w.updLanes k f).depth = w.depth := rfl
@[simp] theorem updLanes_record (w : Wave) (k : BitVec 64) (f : Lane → Lane) : (w.updLanes k f).record = w.record := rfl
@[simp] theorem updLanes_task (w : Wave) (k : BitVec 64) (f : Lane → Lane) : (w.updLanes k f).task = w.task := rfl
@[simp] theorem updLanes_gindex (w : Wave) (k : BitVec 64) (f : Lane → Lane) : (w.updLanes k f).gindex = w.gindex := rfl
@[simp] theorem updLanes_turn (w : Wave) (k : BitVec 64) (f : Lane → Lane) : (w.updLanes k f).turn = w.turn := rfl
@[simp] theorem updLanes_snapped (w : Wave) (k : BitVec 64) (f : Lane → Lane) : (w.updLanes k f).snapped = w.snapped := rfl
@[simp] theorem updLanes_saved (w : Wave) (k : BitVec 64) (f : Lane → Lane) : (w.updLanes k f).saved = w.saved := rfl
@[simp] theorem updLanes_ended (w : Wave) (k : BitVec 64) (f : Lane → Lane) : (w.updLanes k f).ended = w.ended := rfl

@[simp] theorem popQueues_core (w : Wave) (l : List Nat) (o : List (Opnd × Nat)) : (w.popQueues l o).core = w.core := rfl
@[simp] theorem popQueues_id (w : Wave) (l : List Nat) (o : List (Opnd × Nat)) : (w.popQueues l o).id = w.id := rfl
@[simp] theorem popQueues_slot (w : Wave) (l : List Nat) (o : List (Opnd × Nat)) : (w.popQueues l o).slot = w.slot := rfl
@[simp] theorem popQueues_width (w : Wave) (l : List Nat) (o : List (Opnd × Nat)) : (w.popQueues l o).width = w.width := rfl
@[simp] theorem popQueues_asid (w : Wave) (l : List Nat) (o : List (Opnd × Nat)) : (w.popQueues l o).asid = w.asid := rfl
@[simp] theorem popQueues_shadow (w : Wave) (l : List Nat) (o : List (Opnd × Nat)) : (w.popQueues l o).shadow = w.shadow := rfl
@[simp] theorem popQueues_partner (w : Wave) (l : List Nat) (o : List (Opnd × Nat)) : (w.popQueues l o).partner = w.partner := rfl
@[simp] theorem popQueues_guarded (w : Wave) (l : List Nat) (o : List (Opnd × Nat)) : (w.popQueues l o).guarded = w.guarded := rfl
@[simp] theorem popQueues_tol (w : Wave) (l : List Nat) (o : List (Opnd × Nat)) : (w.popQueues l o).tol = w.tol := rfl
@[simp] theorem popQueues_launchPr (w : Wave) (l : List Nat) (o : List (Opnd × Nat)) : (w.popQueues l o).launchPr = w.launchPr := rfl
@[simp] theorem popQueues_prio (w : Wave) (l : List Nat) (o : List (Opnd × Nat)) : (w.popQueues l o).prio = w.prio := rfl
@[simp] theorem popQueues_memdef (w : Wave) (l : List Nat) (o : List (Opnd × Nat)) : (w.popQueues l o).memdef = w.memdef := rfl
@[simp] theorem popQueues_step (w : Wave) (l : List Nat) (o : List (Opnd × Nat)) : (w.popQueues l o).step = w.step := rfl
@[simp] theorem popQueues_gang (w : Wave) (l : List Nat) (o : List (Opnd × Nat)) : (w.popQueues l o).gang = w.gang := rfl
@[simp] theorem popQueues_gangDead (w : Wave) (l : List Nat) (o : List (Opnd × Nat)) : (w.popQueues l o).gangDead = w.gangDead := rfl
@[simp] theorem popQueues_fails (w : Wave) (l : List Nat) (o : List (Opnd × Nat)) : (w.popQueues l o).fails = w.fails := rfl
@[simp] theorem popQueues_savedPr (w : Wave) (l : List Nat) (o : List (Opnd × Nat)) : (w.popQueues l o).savedPr = w.savedPr := rfl
@[simp] theorem popQueues_s (w : Wave) (l : List Nat) (o : List (Opnd × Nat)) : (w.popQueues l o).s = w.s := rfl
@[simp] theorem popQueues_paths (w : Wave) (l : List Nat) (o : List (Opnd × Nat)) : (w.popQueues l o).paths = w.paths := rfl
@[simp] theorem popQueues_aside (w : Wave) (l : List Nat) (o : List (Opnd × Nat)) : (w.popQueues l o).aside = w.aside := rfl
@[simp] theorem popQueues_resume (w : Wave) (l : List Nat) (o : List (Opnd × Nat)) : (w.popQueues l o).resume = w.resume := rfl
@[simp] theorem popQueues_waits (w : Wave) (l : List Nat) (o : List (Opnd × Nat)) : (w.popQueues l o).waits = w.waits := rfl
@[simp] theorem popQueues_ages (w : Wave) (l : List Nat) (o : List (Opnd × Nat)) : (w.popQueues l o).ages = w.ages := rfl
@[simp] theorem popQueues_promoted (w : Wave) (l : List Nat) (o : List (Opnd × Nat)) : (w.popQueues l o).promoted = w.promoted := rfl
@[simp] theorem popQueues_deferred (w : Wave) (l : List Nat) (o : List (Opnd × Nat)) : (w.popQueues l o).deferred = w.deferred := rfl
@[simp] theorem popQueues_fetched (w : Wave) (l : List Nat) (o : List (Opnd × Nat)) : (w.popQueues l o).fetched = w.fetched := rfl
@[simp] theorem popQueues_marker (w : Wave) (l : List Nat) (o : List (Opnd × Nat)) : (w.popQueues l o).marker = w.marker := rfl
@[simp] theorem popQueues_ckCount (w : Wave) (l : List Nat) (o : List (Opnd × Nat)) : (w.popQueues l o).ckCount = w.ckCount := rfl
@[simp] theorem popQueues_issueNo (w : Wave) (l : List Nat) (o : List (Opnd × Nat)) : (w.popQueues l o).issueNo = w.issueNo := rfl
@[simp] theorem popQueues_owes (w : Wave) (l : List Nat) (o : List (Opnd × Nat)) : (w.popQueues l o).owes = w.owes := rfl
@[simp] theorem popQueues_parked (w : Wave) (l : List Nat) (o : List (Opnd × Nat)) : (w.popQueues l o).parked = w.parked := rfl
@[simp] theorem popQueues_stopped (w : Wave) (l : List Nat) (o : List (Opnd × Nat)) : (w.popQueues l o).stopped = w.stopped := rfl
@[simp] theorem popQueues_evicted (w : Wave) (l : List Nat) (o : List (Opnd × Nat)) : (w.popQueues l o).evicted = w.evicted := rfl
@[simp] theorem popQueues_depth (w : Wave) (l : List Nat) (o : List (Opnd × Nat)) : (w.popQueues l o).depth = w.depth := rfl
@[simp] theorem popQueues_record (w : Wave) (l : List Nat) (o : List (Opnd × Nat)) : (w.popQueues l o).record = w.record := rfl
@[simp] theorem popQueues_task (w : Wave) (l : List Nat) (o : List (Opnd × Nat)) : (w.popQueues l o).task = w.task := rfl
@[simp] theorem popQueues_gindex (w : Wave) (l : List Nat) (o : List (Opnd × Nat)) : (w.popQueues l o).gindex = w.gindex := rfl
@[simp] theorem popQueues_turn (w : Wave) (l : List Nat) (o : List (Opnd × Nat)) : (w.popQueues l o).turn = w.turn := rfl
@[simp] theorem popQueues_snapped (w : Wave) (l : List Nat) (o : List (Opnd × Nat)) : (w.popQueues l o).snapped = w.snapped := rfl
@[simp] theorem popQueues_saved (w : Wave) (l : List Nat) (o : List (Opnd × Nat)) : (w.popQueues l o).saved = w.saved := rfl
@[simp] theorem popQueues_ended (w : Wave) (l : List Nat) (o : List (Opnd × Nat)) : (w.popQueues l o).ended = w.ended := rfl

@[simp] theorem put_core (w : Wave) (r : RegWrite) : (w.put r).core = w.core := by
  unfold Wave.put; split <;> rfl
@[simp] theorem put_id (w : Wave) (r : RegWrite) : (w.put r).id = w.id := by
  unfold Wave.put; split <;> rfl
@[simp] theorem put_slot (w : Wave) (r : RegWrite) : (w.put r).slot = w.slot := by
  unfold Wave.put; split <;> rfl
@[simp] theorem put_width (w : Wave) (r : RegWrite) : (w.put r).width = w.width := by
  unfold Wave.put; split <;> rfl
@[simp] theorem put_asid (w : Wave) (r : RegWrite) : (w.put r).asid = w.asid := by
  unfold Wave.put; split <;> rfl
@[simp] theorem put_shadow (w : Wave) (r : RegWrite) : (w.put r).shadow = w.shadow := by
  unfold Wave.put; split <;> rfl
@[simp] theorem put_partner (w : Wave) (r : RegWrite) : (w.put r).partner = w.partner := by
  unfold Wave.put; split <;> rfl
@[simp] theorem put_guarded (w : Wave) (r : RegWrite) : (w.put r).guarded = w.guarded := by
  unfold Wave.put; split <;> rfl
@[simp] theorem put_tol (w : Wave) (r : RegWrite) : (w.put r).tol = w.tol := by
  unfold Wave.put; split <;> rfl
@[simp] theorem put_launchPr (w : Wave) (r : RegWrite) : (w.put r).launchPr = w.launchPr := by
  unfold Wave.put; split <;> rfl
@[simp] theorem put_prio (w : Wave) (r : RegWrite) : (w.put r).prio = w.prio := by
  unfold Wave.put; split <;> rfl
@[simp] theorem put_memdef (w : Wave) (r : RegWrite) : (w.put r).memdef = w.memdef := by
  unfold Wave.put; split <;> rfl
@[simp] theorem put_step (w : Wave) (r : RegWrite) : (w.put r).step = w.step := by
  unfold Wave.put; split <;> rfl
@[simp] theorem put_gang (w : Wave) (r : RegWrite) : (w.put r).gang = w.gang := by
  unfold Wave.put; split <;> rfl
@[simp] theorem put_gangDead (w : Wave) (r : RegWrite) : (w.put r).gangDead = w.gangDead := by
  unfold Wave.put; split <;> rfl
@[simp] theorem put_fails (w : Wave) (r : RegWrite) : (w.put r).fails = w.fails := by
  unfold Wave.put; split <;> rfl
@[simp] theorem put_savedPr (w : Wave) (r : RegWrite) : (w.put r).savedPr = w.savedPr := by
  unfold Wave.put; split <;> rfl
@[simp] theorem put_paths (w : Wave) (r : RegWrite) : (w.put r).paths = w.paths := by
  unfold Wave.put; split <;> rfl
@[simp] theorem put_aside (w : Wave) (r : RegWrite) : (w.put r).aside = w.aside := by
  unfold Wave.put; split <;> rfl
@[simp] theorem put_resume (w : Wave) (r : RegWrite) : (w.put r).resume = w.resume := by
  unfold Wave.put; split <;> rfl
@[simp] theorem put_waits (w : Wave) (r : RegWrite) : (w.put r).waits = w.waits := by
  unfold Wave.put; split <;> rfl
@[simp] theorem put_ages (w : Wave) (r : RegWrite) : (w.put r).ages = w.ages := by
  unfold Wave.put; split <;> rfl
@[simp] theorem put_promoted (w : Wave) (r : RegWrite) : (w.put r).promoted = w.promoted := by
  unfold Wave.put; split <;> rfl
@[simp] theorem put_deferred (w : Wave) (r : RegWrite) : (w.put r).deferred = w.deferred := by
  unfold Wave.put; split <;> rfl
@[simp] theorem put_fetched (w : Wave) (r : RegWrite) : (w.put r).fetched = w.fetched := by
  unfold Wave.put; split <;> rfl
@[simp] theorem put_marker (w : Wave) (r : RegWrite) : (w.put r).marker = w.marker := by
  unfold Wave.put; split <;> rfl
@[simp] theorem put_ckCount (w : Wave) (r : RegWrite) : (w.put r).ckCount = w.ckCount := by
  unfold Wave.put; split <;> rfl
@[simp] theorem put_issueNo (w : Wave) (r : RegWrite) : (w.put r).issueNo = w.issueNo := by
  unfold Wave.put; split <;> rfl
@[simp] theorem put_owes (w : Wave) (r : RegWrite) : (w.put r).owes = w.owes := by
  unfold Wave.put; split <;> rfl
@[simp] theorem put_parked (w : Wave) (r : RegWrite) : (w.put r).parked = w.parked := by
  unfold Wave.put; split <;> rfl
@[simp] theorem put_stopped (w : Wave) (r : RegWrite) : (w.put r).stopped = w.stopped := by
  unfold Wave.put; split <;> rfl
@[simp] theorem put_evicted (w : Wave) (r : RegWrite) : (w.put r).evicted = w.evicted := by
  unfold Wave.put; split <;> rfl
@[simp] theorem put_depth (w : Wave) (r : RegWrite) : (w.put r).depth = w.depth := by
  unfold Wave.put; split <;> rfl
@[simp] theorem put_record (w : Wave) (r : RegWrite) : (w.put r).record = w.record := by
  unfold Wave.put; split <;> rfl
@[simp] theorem put_task (w : Wave) (r : RegWrite) : (w.put r).task = w.task := by
  unfold Wave.put; split <;> rfl
@[simp] theorem put_gindex (w : Wave) (r : RegWrite) : (w.put r).gindex = w.gindex := by
  unfold Wave.put; split <;> rfl
@[simp] theorem put_turn (w : Wave) (r : RegWrite) : (w.put r).turn = w.turn := by
  unfold Wave.put; split <;> rfl
@[simp] theorem put_snapped (w : Wave) (r : RegWrite) : (w.put r).snapped = w.snapped := by
  unfold Wave.put; split <;> rfl
@[simp] theorem put_saved (w : Wave) (r : RegWrite) : (w.put r).saved = w.saved := by
  unfold Wave.put; split <;> rfl
@[simp] theorem put_ended (w : Wave) (r : RegWrite) : (w.put r).ended = w.ended := by
  unfold Wave.put; split <;> rfl

@[simp] theorem puts_core (rs : List RegWrite) : ∀ w : Wave, (w.puts rs).core = w.core := by
  induction rs with
  | nil => exact fun _ => rfl
  | cons r rs ih => exact fun w => (ih (w.put r)).trans (put_core w r)
@[simp] theorem puts_id (rs : List RegWrite) : ∀ w : Wave, (w.puts rs).id = w.id := by
  induction rs with
  | nil => exact fun _ => rfl
  | cons r rs ih => exact fun w => (ih (w.put r)).trans (put_id w r)
@[simp] theorem puts_slot (rs : List RegWrite) : ∀ w : Wave, (w.puts rs).slot = w.slot := by
  induction rs with
  | nil => exact fun _ => rfl
  | cons r rs ih => exact fun w => (ih (w.put r)).trans (put_slot w r)
@[simp] theorem puts_width (rs : List RegWrite) : ∀ w : Wave, (w.puts rs).width = w.width := by
  induction rs with
  | nil => exact fun _ => rfl
  | cons r rs ih => exact fun w => (ih (w.put r)).trans (put_width w r)
@[simp] theorem puts_asid (rs : List RegWrite) : ∀ w : Wave, (w.puts rs).asid = w.asid := by
  induction rs with
  | nil => exact fun _ => rfl
  | cons r rs ih => exact fun w => (ih (w.put r)).trans (put_asid w r)
@[simp] theorem puts_shadow (rs : List RegWrite) : ∀ w : Wave, (w.puts rs).shadow = w.shadow := by
  induction rs with
  | nil => exact fun _ => rfl
  | cons r rs ih => exact fun w => (ih (w.put r)).trans (put_shadow w r)
@[simp] theorem puts_partner (rs : List RegWrite) : ∀ w : Wave, (w.puts rs).partner = w.partner := by
  induction rs with
  | nil => exact fun _ => rfl
  | cons r rs ih => exact fun w => (ih (w.put r)).trans (put_partner w r)
@[simp] theorem puts_guarded (rs : List RegWrite) : ∀ w : Wave, (w.puts rs).guarded = w.guarded := by
  induction rs with
  | nil => exact fun _ => rfl
  | cons r rs ih => exact fun w => (ih (w.put r)).trans (put_guarded w r)
@[simp] theorem puts_tol (rs : List RegWrite) : ∀ w : Wave, (w.puts rs).tol = w.tol := by
  induction rs with
  | nil => exact fun _ => rfl
  | cons r rs ih => exact fun w => (ih (w.put r)).trans (put_tol w r)
@[simp] theorem puts_launchPr (rs : List RegWrite) : ∀ w : Wave, (w.puts rs).launchPr = w.launchPr := by
  induction rs with
  | nil => exact fun _ => rfl
  | cons r rs ih => exact fun w => (ih (w.put r)).trans (put_launchPr w r)
@[simp] theorem puts_prio (rs : List RegWrite) : ∀ w : Wave, (w.puts rs).prio = w.prio := by
  induction rs with
  | nil => exact fun _ => rfl
  | cons r rs ih => exact fun w => (ih (w.put r)).trans (put_prio w r)
@[simp] theorem puts_memdef (rs : List RegWrite) : ∀ w : Wave, (w.puts rs).memdef = w.memdef := by
  induction rs with
  | nil => exact fun _ => rfl
  | cons r rs ih => exact fun w => (ih (w.put r)).trans (put_memdef w r)
@[simp] theorem puts_step (rs : List RegWrite) : ∀ w : Wave, (w.puts rs).step = w.step := by
  induction rs with
  | nil => exact fun _ => rfl
  | cons r rs ih => exact fun w => (ih (w.put r)).trans (put_step w r)
@[simp] theorem puts_gang (rs : List RegWrite) : ∀ w : Wave, (w.puts rs).gang = w.gang := by
  induction rs with
  | nil => exact fun _ => rfl
  | cons r rs ih => exact fun w => (ih (w.put r)).trans (put_gang w r)
@[simp] theorem puts_gangDead (rs : List RegWrite) : ∀ w : Wave, (w.puts rs).gangDead = w.gangDead := by
  induction rs with
  | nil => exact fun _ => rfl
  | cons r rs ih => exact fun w => (ih (w.put r)).trans (put_gangDead w r)
@[simp] theorem puts_fails (rs : List RegWrite) : ∀ w : Wave, (w.puts rs).fails = w.fails := by
  induction rs with
  | nil => exact fun _ => rfl
  | cons r rs ih => exact fun w => (ih (w.put r)).trans (put_fails w r)
@[simp] theorem puts_savedPr (rs : List RegWrite) : ∀ w : Wave, (w.puts rs).savedPr = w.savedPr := by
  induction rs with
  | nil => exact fun _ => rfl
  | cons r rs ih => exact fun w => (ih (w.put r)).trans (put_savedPr w r)
@[simp] theorem puts_paths (rs : List RegWrite) : ∀ w : Wave, (w.puts rs).paths = w.paths := by
  induction rs with
  | nil => exact fun _ => rfl
  | cons r rs ih => exact fun w => (ih (w.put r)).trans (put_paths w r)
@[simp] theorem puts_aside (rs : List RegWrite) : ∀ w : Wave, (w.puts rs).aside = w.aside := by
  induction rs with
  | nil => exact fun _ => rfl
  | cons r rs ih => exact fun w => (ih (w.put r)).trans (put_aside w r)
@[simp] theorem puts_resume (rs : List RegWrite) : ∀ w : Wave, (w.puts rs).resume = w.resume := by
  induction rs with
  | nil => exact fun _ => rfl
  | cons r rs ih => exact fun w => (ih (w.put r)).trans (put_resume w r)
@[simp] theorem puts_waits (rs : List RegWrite) : ∀ w : Wave, (w.puts rs).waits = w.waits := by
  induction rs with
  | nil => exact fun _ => rfl
  | cons r rs ih => exact fun w => (ih (w.put r)).trans (put_waits w r)
@[simp] theorem puts_ages (rs : List RegWrite) : ∀ w : Wave, (w.puts rs).ages = w.ages := by
  induction rs with
  | nil => exact fun _ => rfl
  | cons r rs ih => exact fun w => (ih (w.put r)).trans (put_ages w r)
@[simp] theorem puts_promoted (rs : List RegWrite) : ∀ w : Wave, (w.puts rs).promoted = w.promoted := by
  induction rs with
  | nil => exact fun _ => rfl
  | cons r rs ih => exact fun w => (ih (w.put r)).trans (put_promoted w r)
@[simp] theorem puts_deferred (rs : List RegWrite) : ∀ w : Wave, (w.puts rs).deferred = w.deferred := by
  induction rs with
  | nil => exact fun _ => rfl
  | cons r rs ih => exact fun w => (ih (w.put r)).trans (put_deferred w r)
@[simp] theorem puts_fetched (rs : List RegWrite) : ∀ w : Wave, (w.puts rs).fetched = w.fetched := by
  induction rs with
  | nil => exact fun _ => rfl
  | cons r rs ih => exact fun w => (ih (w.put r)).trans (put_fetched w r)
@[simp] theorem puts_marker (rs : List RegWrite) : ∀ w : Wave, (w.puts rs).marker = w.marker := by
  induction rs with
  | nil => exact fun _ => rfl
  | cons r rs ih => exact fun w => (ih (w.put r)).trans (put_marker w r)
@[simp] theorem puts_ckCount (rs : List RegWrite) : ∀ w : Wave, (w.puts rs).ckCount = w.ckCount := by
  induction rs with
  | nil => exact fun _ => rfl
  | cons r rs ih => exact fun w => (ih (w.put r)).trans (put_ckCount w r)
@[simp] theorem puts_issueNo (rs : List RegWrite) : ∀ w : Wave, (w.puts rs).issueNo = w.issueNo := by
  induction rs with
  | nil => exact fun _ => rfl
  | cons r rs ih => exact fun w => (ih (w.put r)).trans (put_issueNo w r)
@[simp] theorem puts_owes (rs : List RegWrite) : ∀ w : Wave, (w.puts rs).owes = w.owes := by
  induction rs with
  | nil => exact fun _ => rfl
  | cons r rs ih => exact fun w => (ih (w.put r)).trans (put_owes w r)
@[simp] theorem puts_parked (rs : List RegWrite) : ∀ w : Wave, (w.puts rs).parked = w.parked := by
  induction rs with
  | nil => exact fun _ => rfl
  | cons r rs ih => exact fun w => (ih (w.put r)).trans (put_parked w r)
@[simp] theorem puts_stopped (rs : List RegWrite) : ∀ w : Wave, (w.puts rs).stopped = w.stopped := by
  induction rs with
  | nil => exact fun _ => rfl
  | cons r rs ih => exact fun w => (ih (w.put r)).trans (put_stopped w r)
@[simp] theorem puts_evicted (rs : List RegWrite) : ∀ w : Wave, (w.puts rs).evicted = w.evicted := by
  induction rs with
  | nil => exact fun _ => rfl
  | cons r rs ih => exact fun w => (ih (w.put r)).trans (put_evicted w r)
@[simp] theorem puts_depth (rs : List RegWrite) : ∀ w : Wave, (w.puts rs).depth = w.depth := by
  induction rs with
  | nil => exact fun _ => rfl
  | cons r rs ih => exact fun w => (ih (w.put r)).trans (put_depth w r)
@[simp] theorem puts_record (rs : List RegWrite) : ∀ w : Wave, (w.puts rs).record = w.record := by
  induction rs with
  | nil => exact fun _ => rfl
  | cons r rs ih => exact fun w => (ih (w.put r)).trans (put_record w r)
@[simp] theorem puts_task (rs : List RegWrite) : ∀ w : Wave, (w.puts rs).task = w.task := by
  induction rs with
  | nil => exact fun _ => rfl
  | cons r rs ih => exact fun w => (ih (w.put r)).trans (put_task w r)
@[simp] theorem puts_gindex (rs : List RegWrite) : ∀ w : Wave, (w.puts rs).gindex = w.gindex := by
  induction rs with
  | nil => exact fun _ => rfl
  | cons r rs ih => exact fun w => (ih (w.put r)).trans (put_gindex w r)
@[simp] theorem puts_turn (rs : List RegWrite) : ∀ w : Wave, (w.puts rs).turn = w.turn := by
  induction rs with
  | nil => exact fun _ => rfl
  | cons r rs ih => exact fun w => (ih (w.put r)).trans (put_turn w r)
@[simp] theorem puts_snapped (rs : List RegWrite) : ∀ w : Wave, (w.puts rs).snapped = w.snapped := by
  induction rs with
  | nil => exact fun _ => rfl
  | cons r rs ih => exact fun w => (ih (w.put r)).trans (put_snapped w r)
@[simp] theorem puts_saved (rs : List RegWrite) : ∀ w : Wave, (w.puts rs).saved = w.saved := by
  induction rs with
  | nil => exact fun _ => rfl
  | cons r rs ih => exact fun w => (ih (w.put r)).trans (put_saved w r)
@[simp] theorem puts_ended (rs : List RegWrite) : ∀ w : Wave, (w.puts rs).ended = w.ended := by
  induction rs with
  | nil => exact fun _ => rfl
  | cons r rs ih => exact fun w => (ih (w.put r)).trans (put_ended w r)

end Sys2Proof.Laws
end

