-- ==== Sys2Proof/Laws/Canonical.lean ====
section
/-! SUPPORT. The shared operations keep memory in its canonical form: writes at the homes, device writes, error records,
queues, records, fault tasks, kills and stores in flight. -/

namespace Sys2Proof.Laws

open Machine

/-- A fold keeps what each of its steps keeps. -/
theorem foldl_keeps {α β : Type} (P : α → Prop) (f : α → β → α) (hf : ∀ a b, P a → P (f a b)) (l : List β) :
    ∀ a, P a → P (l.foldl f a) := by
  induction l with
  | nil => exact fun _ h => h
  | cons b r ih => exact fun a h => ih _ (hf a b h)

/-- A machine whose memory is in its canonical form: a name to match on, which no projection unfolds. -/
structure Canon (m : Mach) : Prop where
  wf : m.mem.wf = true

theorem getD_keeps {α : Type} (P : α → Prop) (o : Option α) (a : α) (ha : P a) (ho : ∀ b, o = some b → P b) : P (o.getD a) := by
  cases o with
  | none => exact ha
  | some b => exact ho b rfl

/-! ### Words at their home -/

@[simp] theorem rebase_mem (m : Mach) : m.rebase.mem = m.mem := rfl

@[simp] theorem conflict_mem (m : Mach) (core g : Nat) : (m.conflict core g).mem = m.mem := rfl

@[simp] theorem dropCopies_mem (m : Mach) (core pa n : Nat) : (m.dropCopies core pa n).mem = m.mem := rfl

@[simp] theorem wakeBy_mem (m : Mach) (pa n : Nat) : (m.wakeBy pa n).mem = m.mem := rfl

@[simp] theorem clearTags_mem (m : Mach) (pa n : Nat) : (m.clearTags pa n).mem = m.mem := rfl

@[simp] theorem sendUpdate_mem (m : Mach) (d w : Nat) (x : Option (BitVec 64)) : (m.sendUpdate d w x).mem = m.mem := by
  unfold Mach.sendUpdate
  split
  · rfl
  · dsimp only
    split <;> rfl

@[simp] theorem dropHold_mem (m : Mach) (w : Nat) : (m.dropHold w).mem = m.mem := by
  unfold Mach.dropHold
  split <;> rfl

theorem writeBack_wf (m : Mach) (w : Nat) (k : Bool) (h : m.mem.wf = true) : (m.writeBack w k).mem.wf = true := by
  unfold Mach.writeBack
  split
  · exact h
  · exact setWord_wf _ _ _ h

theorem writeBackAll_wf (ws : List Nat) (k : Bool) (m : Mach) (h : m.mem.wf = true) : (m.writeBackAll ws k).mem.wf = true :=
  foldl_keeps (fun m : Mach => m.mem.wf = true) _ (fun m w h => writeBack_wf m w k h) ws m h

theorem revokeRegion_wf (m : Mach) (r : Nat) (h : m.mem.wf = true) : (m.revokeRegion r).mem.wf = true :=
  writeBackAll_wf _ _ m h

theorem revokeLine_wf (m : Mach) (l : Nat) (h : m.mem.wf = true) : (m.revokeLine l).mem.wf = true :=
  foldl_keeps (fun m : Mach => m.mem.wf = true) _ (fun m w h => by rw [dropHold_mem]; exact h) _ _ (writeBackAll_wf _ _ m h)

theorem revokeOwner_wf (m : Mach) (s : Nat) (o : BitVec 9) (h : m.mem.wf = true) : (m.revokeOwner s o).mem.wf = true :=
  writeBackAll_wf _ _ m h

theorem roomRegion_wf (m : Mach) (w : Nat) (h : m.mem.wf = true) : (m.roomRegion w).mem.wf = true := by
  unfold Mach.roomRegion
  dsimp only
  split
  · exact h
  · split
    · exact revokeRegion_wf m _ h
    · exact h

theorem roomLine_wf (m : Mach) (w : Nat) (h : m.mem.wf = true) : (m.roomLine w).mem.wf = true := by
  unfold Mach.roomLine
  dsimp only
  split
  · exact h
  · split
    · exact revokeLine_wf m _ h
    · exact h

theorem ownerCode_wf (m : Mach) (k : Claim) (w : Nat) (h : m.mem.wf = true) : (m.ownerCode k w).2.mem.wf = true := by
  unfold Mach.ownerCode
  dsimp only
  split
  · split
    · exact h
    · exact revokeOwner_wf m _ _ h
  · exact h

theorem lineFor_wf (m : Mach) (w : Nat) (h : m.mem.wf = true) : (m.lineFor w).mem.wf = true := by
  unfold Mach.lineFor
  split
  · exact h
  · exact roomLine_wf m w h

theorem registerHome_wf (m : Mach) (k : Claim) (w : Nat) (h : m.mem.wf = true) : (m.registerHome k w).mem.wf = true := by
  have h1 := ownerCode_wf m k w h
  unfold Mach.registerHome
  dsimp only
  split
  · exact h1
  · split
    · exact roomRegion_wf _ w h1
    · split
      · exact h1
      · exact lineFor_wf _ w h1

theorem claim_wf (m : Mach) (k : Claim) (w : Nat) (dirty : Bool) (x : BitVec 64) (h : m.mem.wf = true) :
    (m.claim k w dirty x).mem.wf = true := by
  unfold Mach.claim
  rw [sendUpdate_mem]
  exact registerHome_wf _ k w (writeBack_wf m w false h)

theorem frozenWrite_mem (d : Dev) (m m2 : Mach) (pa : Nat) (h : Mach.frozenWrite d m pa = some m2) : m2.mem = m.mem := by
  unfold Mach.frozenWrite at h
  dsimp only at h
  repeat' split at h
  all_goals first | (cases h; rfl) | cases h

theorem writeWord_wf (m : Mach) (k : Option Claim) (w off : Nat) (bs : List Byte) (h : m.mem.wf = true) :
    (m.writeWord k w off bs).mem.wf = true := by
  have h1 : ((m.clearTags (8 * w) 8).wakeBy (8 * w + off) bs.length).mem.wf = true := h
  unfold Mach.writeWord
  generalize hm1 : (m.clearTags (8 * w) 8).wakeBy (8 * w + off) bs.length = m1 at h1 ⊢
  extract_lets old new
  clear_value new
  split
  · rw [sendUpdate_mem]
    exact setWord_wf _ _ _ (writeBack_wf m1 _ _ h1)
  · split
    · extract_lets die m2
      split
      · rw [sendUpdate_mem]
        exact h1
      · exact h1
    · exact claim_wf m1 _ _ _ _ h1

theorem writeBytes_wf (m : Mach) (k : Option Claim) (pa : Nat) (bs : List Byte) (h : m.mem.wf = true) :
    (m.writeBytes k pa bs).mem.wf = true :=
  foldl_keeps (fun m : Mach => m.mem.wf = true) _ (fun m _ h => writeWord_wf m _ _ _ _ h) _ m h

theorem devWrite_wf (m : Mach) (pa : Nat) (bs : List Byte) (h : m.mem.wf = true) : (m.devWrite pa bs).mem.wf = true :=
  foldl_keeps (fun m : Mach => m.mem.wf = true) _ (fun m p h => writeWord_wf _ _ _ _ _ (by
    dsimp only
    split
    · exact h
    · exact h)) _ m h

theorem writeVa_wf (d : Dev) (m m2 : Mach) (asid : BitVec 16) (va : BitVec 64) (bs : List Byte) (p : Bool)
    (e : writeVa d m asid va bs p = some m2) (h : m.mem.wf = true) : m2.mem.wf = true := by
  unfold writeVa at e
  split at e
  · cases e
  · split at e
    · cases e
    · cases e
      exact foldl_keeps (fun r : Mach × List Byte => r.1.mem.wf = true) _ (fun r p h => devWrite_wf r.1 _ _ h) _ (m, bs) h

theorem writeVa_getD_wf (d : Dev) (m : Mach) (asid : BitVec 16) (va : BitVec 64) (bs : List Byte) (p : Bool) (h : m.mem.wf = true) :
    ((writeVa d m asid va bs p).getD m).mem.wf = true :=
  getD_keeps (fun m : Mach => m.mem.wf = true) _ m h fun m2 e => writeVa_wf d m m2 asid va bs p e h

/-! ### Error records, queues and the records of faults -/

theorem choose_mem (m : Mach) (n : Nat) : (m.choose n).2.mem = m.mem := by
  unfold Mach.choose
  split <;> rfl

theorem tick_mem (c : Nat) (m : Mach) : (m.tick c).mem = m.mem := by
  unfold Mach.tick
  dsimp only
  split <;> rfl

theorem writeErr_wf (d : Dev) (r : ErrRec) (m : Mach) (h : m.mem.wf = true) : (writeErr d r m).mem.wf = true := by
  unfold writeErr
  split
  · exact devWrite_wf _ _ _ h
  · split <;> exact h

theorem setHdr_wf (d : Dev) (m : Mach) (asid : BitVec 16) (q : BitVec 64) (off v : Nat) (h : m.mem.wf = true) :
    (setHdr d m asid q off v).mem.wf = true := by
  unfold setHdr
  exact writeVa_getD_wf d m asid _ _ _ h

theorem enqueueAt_wf (d : Dev) (m m2 : Mach) (asid : BitVec 16) (q : BitVec 64) (x : QHdr) (bs : List Byte) (i : Nat)
    (e : enqueueAt d m asid q x bs = some (i, m2)) (h : m.mem.wf = true) : m2.mem.wf = true := by
  unfold enqueueAt at e
  split at e
  · cases e
  · next m1 e1 =>
    injection e with e
    injection e with _ e
    subst e
    exact setHdr_wf d _ _ _ _ _ (writeVa_wf d m m1 _ _ _ _ e1 h)

theorem setQstat_wf (d : Dev) (n v : Nat) (m : Mach) (h : m.mem.wf = true) : (setQstat d n v m).mem.wf = true := by
  unfold setQstat
  dsimp only
  split
  · exact h
  · exact devWrite_wf _ _ _ h

theorem setRecState_wf (d : Dev) (m : Mach) (asid : BitVec 16) (a : BitVec 64) (st : Nat) (h : m.mem.wf = true) :
    (setRecState d m asid a st).mem.wf = true := by
  rw [setRecState]
  cases readVa d m asid a 2 true with
  | ok bs => exact writeVa_getD_wf d m asid _ _ _ h
  | error e => exact h

theorem withdrawTask_wf (d : Dev) (m : Mach) (t : FTask) (h : m.mem.wf = true) : (withdrawTask d m t).mem.wf = true := by
  have key : ∀ o : Option Nat, (match o with
      | none => m
      | some idx => match readHdr d m t.asid t.queue with
        | some h => (writeVa d m t.asid (h.slotVa idx) (toBytes 8 0) true).getD m
        | none => m).mem.wf = true := by
    intro o
    split
    · exact h
    · split
      · exact writeVa_getD_wf d m _ _ _ _ h
      · exact h
  exact key _

theorem withdrawFor_wf (d : Dev) (m : Mach) (asid : BitVec 16) (a : BitVec 64) (h : m.mem.wf = true) :
    (withdrawFor d m asid a).mem.wf = true :=
  foldl_keeps (fun m : Mach => m.mem.wf = true) _ (fun m t h => withdrawTask_wf d m t h) _ m h

/-! ### Killing a context -/

theorem loseWords_wf (asid : BitVec 16) (xs : List L1Word) : ∀ m : Mach, m.mem.wf = true → (loseWords asid xs m).mem.wf = true := by
  induction xs with
  | nil => exact fun m h => h
  | cons x xs ih =>
    intro m h
    apply ih
    dsimp only
    repeat' split
    · exact h
    · exact writeBack_wf _ _ _ h
    · exact writeBack_wf _ _ _ h
    · exact h

theorem killReport_wf (c : Ctx) (cause : Nat) (es : List (Nat × Nat × Nat)) (m : Mach) (h : m.mem.wf = true) :
    (killReport c cause es m).mem.wf = true := by
  unfold killReport
  dsimp only
  exact devWrite_wf _ _ _ (devWrite_wf _ _ _ h)

theorem killCounters_wf (asid : BitVec 16) (m : Mach) (h : m.mem.wf = true) : (killCounters asid m).mem.wf = true := by
  unfold killCounters
  exact foldl_keeps (fun m : Mach => m.mem.wf = true) _ (fun m _ h => devWrite_wf m _ _ h) _ m h

theorem thawFrame_wf (d : Dev) (f : Frozen) (m : Mach) (h : m.mem.wf = true) : (thawFrame d f m).mem.wf = true := by
  unfold thawFrame
  dsimp only
  split
  · exact put_wf _ _ _ (clear_wf _ _ _ h)
  · exact h

theorem thawAll_wf (d : Dev) (asid : BitVec 16) (m : Mach) (h : m.mem.wf = true) : (thawAll d asid m).mem.wf = true :=
  foldl_keeps (fun m : Mach => m.mem.wf = true) _ (fun m f h => thawFrame_wf d f m h) _ m h

theorem abortSnap_wf (d : Dev) (asid : BitVec 16) (m : Mach) (h : m.mem.wf = true) : (abortSnap d asid m).mem.wf = true := by
  unfold abortSnap
  split
  · exact h
  · split
    · exact h
    · exact writeErr_wf d _ _ (thawAll_wf d asid _ h)

theorem noteCState_wf (d : Dev) (asid : BitVec 16) (m : Mach) (h : m.mem.wf = true) : (noteCState d asid m).mem.wf = true := by
  unfold noteCState
  split
  · exact h
  · exact devWrite_wf _ _ _ h

theorem killReport_canon (c : Ctx) (cause : Nat) (es : List (Nat × Nat × Nat)) (m : Mach) (h : Canon m) : Canon (killReport c cause es m) :=
  ⟨killReport_wf c cause es m h.wf⟩

theorem noteCState_canon (d : Dev) (asid : BitVec 16) (m : Mach) (h : Canon m) : Canon (noteCState d asid m) :=
  ⟨noteCState_wf d asid m h.wf⟩

theorem updCtx_canon (asid : BitVec 16) (f : Ctx → Ctx) (m : Mach) (h : Canon m) : Canon (m.updCtx asid f) := ⟨h.wf⟩

theorem clearCtx_canon (c : Ctx) (m : Mach) (h : Canon m) : Canon (clearCtx c m) := ⟨h.wf⟩

theorem setQstats_canon (d : Dev) (v : Nat) (l : List QReg) (m : Mach) (h : Canon m) :
    Canon (l.foldl (fun m q => setQstat d q.n v m) m) :=
  foldl_keeps Canon _ (fun m _ h => ⟨setQstat_wf d _ _ m h.wf⟩) _ m h

theorem withdrawTasks_canon (d : Dev) (l : List FTask) (m : Mach) (h : Canon m) : Canon (l.foldl (withdrawTask d) m) :=
  foldl_keeps Canon _ (fun m t h => ⟨withdrawTask_wf d m t h.wf⟩) _ m h

theorem setRecStates_canon (d : Dev) (asid : BitVec 16) (st : Nat) (l : List Parked) (m : Mach) (h : Canon m) :
    Canon (l.foldl (fun m p => setRecState d m asid p.handle st) m) :=
  foldl_keeps Canon _ (fun m _ h => ⟨setRecState_wf d m _ _ _ h.wf⟩) _ m h

theorem killCtx_canon (d : Dev) (cause : Nat) (asid : BitVec 16) (m : Mach) (h : Canon m) : Canon (killCtx d cause asid m) := by
  rw [killCtx]
  cases m.ctx asid with
  | none => exact h
  | some c =>
    dsimp -zeta only
    apply killReport_canon
    apply noteCState_canon
    apply setQstats_canon
    apply updCtx_canon
    apply clearCtx_canon
    refine ⟨loseWords_wf asid _ _ (Canon.wf ?_)⟩
    apply withdrawTasks_canon
    apply setRecStates_canon
    exact ⟨killCounters_wf asid _ (abortSnap_wf d asid m h.wf)⟩

theorem killCtx_wf (d : Dev) (cause : Nat) (asid : BitVec 16) (m : Mach) (h : m.mem.wf = true) :
    (killCtx d cause asid m).mem.wf = true :=
  (killCtx_canon d cause asid m ⟨h⟩).wf

/-! ### Taking a fault -/

theorem offerTo_wf (d : Dev) (asid : BitVec 16) (t : FTask) (held : BitVec 64 → Bool) (m : Mach) (x : BitVec 64 × QHdr)
    (t2 : FTask) (m2 : Mach) (e : offerTo d asid t held m x = some (t2, m2)) (h : m.mem.wf = true) : m2.mem.wf = true := by
  unfold offerTo at e
  split at e
  · cases e
    exact h
  · obtain ⟨r, hr, he⟩ := Option.map_eq_some_iff.mp e
    cases he
    exact enqueueAt_wf d m _ _ _ _ _ _ hr h

theorem offerTask_wf (d : Dev) (asid : BitVec 16) (t : FTask) (fb : BitVec 64) (held : BitVec 64 → Bool) (m : Mach)
    (t2 : FTask) (m2 : Mach) (e : offerTask d asid t fb held m = some (t2, m2)) (h : m.mem.wf = true) : m2.mem.wf = true := by
  unfold offerTask at e
  split at e
  · cases e
  · split at e
    · next r hr =>
      cases e
      exact offerTo_wf d asid t held m _ _ _ hr h
    · split at e
      · cases e
      · obtain ⟨x, -, hx⟩ := Option.bind_eq_some_iff.mp e
        exact offerTo_wf d asid t held m x _ _ hx h

theorem enqueueFault_wf (d : Dev) (m : Mach) (asid : BitVec 16) (t : FTask) (h : m.mem.wf = true) :
    (enqueueFault d m asid t).mem.wf = true := by
  rw [enqueueFault]
  cases m.ctx asid with
  | none => exact h
  | some c =>
    dsimp -zeta only
    extract_lets _ t
    split
    · exact killCtx_wf d _ _ m h
    · next t2 m2 e => exact offerTask_wf d asid _ _ _ m t2 m2 e h

theorem pageRequest_mem (asid : BitVec 16) (code : Nat) (a : BitVec 64) (m : Mach) : (pageRequest asid code a m).mem = m.mem := by
  unfold pageRequest
  dsimp only
  repeat' split
  all_goals rfl

theorem enqueueFault_canon (d : Dev) (m : Mach) (asid : BitVec 16) (t : FTask) (h : Canon m) :
    Canon (enqueueFault d m asid t) :=
  ⟨enqueueFault_wf d m asid t h.wf⟩

theorem pageRequest_canon (asid : BitVec 16) (code : Nat) (a : BitVec 64) (m : Mach) (h : Canon m) :
    Canon (pageRequest asid code a m) :=
  ⟨pageRequest_mem asid code a m ▸ h.wf⟩

theorem choose_canon (m : Mach) (n : Nat) (h : Canon m) : Canon (m.choose n).2 :=
  ⟨choose_mem m n ▸ h.wf⟩

theorem canon_ite {p : Prop} {_ : Decidable p} {a b : Mach} (ha : Canon a) (hb : Canon b) : Canon (if p then a else b) := by
  split
  · exact ha
  · exact hb

/-- Parking a unit on its record keeps the canonical form where marking the unit does. -/
theorem parkFault_canon (d : Dev) (m : Mach) (i : ParkInfo) (u : Machine.PUnit) (pcs : List (Nat × BitVec 64)) (mark : BitVec 64 → Mach → Mach)
    (e : FEntry) (depth : Nat) (handle : BitVec 64)
    (hm : ∀ a x, Canon x → Canon (mark a x)) (h : Canon m) : Canon (parkFault d m i u pcs mark e depth handle) := by
  rw [parkFault]
  cases e2 : writeVa d { m with freeCount := m.freeCount + 1 } i.asid handle
      (toBytes 256 (recordBits d i depth (taskPrio e i.code i.prio) (Config.stateHandle m.freeCount))) true with
  | none => exact killCtx_canon d _ _ m h
  | some m2 =>
    have h2 : Canon m2 := ⟨writeVa_wf d _ m2 _ _ _ _ e2 h.wf⟩
    have h4 (x) := pageRequest_canon i.asid i.code i.addr _ (hm handle { m2 with disp := x } ⟨h2.wf⟩)
    exact canon_ite (h4 _) (enqueueFault_canon d _ _ _ (h4 _))

/-- Taking a fault keeps the canonical form where marking the unit does. -/
theorem takeFault_canon (d : Dev) (m : Mach) (i : ParkInfo) (u : Machine.PUnit) (pcs : List (Nat × BitVec 64)) (mark : BitVec 64 → Mach → Mach)
    (hm : ∀ a x, Canon x → Canon (mark a x)) (h : Canon m) : Canon (takeFault d m i u pcs mark) := by
  rw [takeFault]
  cases m.ctx i.asid with
  | none => exact h
  | some c =>
    dsimp -zeta only
    extract_lets -lift +onlyGivenNames e depth
    clear_value e depth
    refine canon_ite (killCtx_canon d _ _ m h) (canon_ite (killCtx_canon d _ _ m h) ?_)
    extract_lets -lift +onlyGivenNames base count
    clear_value base count
    have h1 (n) := choose_canon m n h
    split
    · exact killCtx_canon d _ _ _ (h1 _)
    · exact parkFault_canon d _ i u pcs mark _ _ _ hm (h1 _)

theorem takeFault_wf (d : Dev) (m : Mach) (i : ParkInfo) (u : Machine.PUnit) (pcs : List (Nat × BitVec 64)) (mark : BitVec 64 → Mach → Mach)
    (hm : ∀ a x, x.mem.wf = true → (mark a x).mem.wf = true) (h : m.mem.wf = true) :
    (takeFault d m i u pcs mark).mem.wf = true :=
  (takeFault_canon d m i u pcs mark (fun a x hx => ⟨hm a x hx.wf⟩) ⟨h⟩).wf

theorem parkStore_wf (d : Dev) (s : Store) (code : Nat) (m : Mach) (h : m.mem.wf = true) : (parkStore d s code m).mem.wf = true := by
  unfold parkStore
  exact takeFault_wf d m _ _ _ _ (fun _ _ h => h) h

/-! ### Stores in flight -/

theorem repPend_wf (d : Dev) (g : Nat) (m : Mach) (h : m.mem.wf = true) : (repPend d g m).mem.wf = true := by
  unfold repPend
  split
  · exact devWrite_wf _ _ _ h
  · exact h

theorem sequenceStore_wf (d : Dev) (core wave lane g pa : Nat) (bs : List Byte) (m : Mach) (h : m.mem.wf = true) :
    (sequenceStore d core wave lane g pa bs m).mem.wf = true :=
  repPend_wf d g _ h

theorem hold_wf (m : Mach) (w : Nat) (h : m.mem.wf = true) : (m.hold w).mem.wf = true := by
  unfold Mach.hold
  rw [sendUpdate_mem]
  exact lineFor_wf m w h

theorem holdWord_wf (core g w off : Nat) (bs : List Byte) (m : Mach) (h : m.mem.wf = true) :
    (holdWord core g w off bs m).mem.wf = true := by
  have h1 : (m.wakeHeld core g (8 * w + off) bs.length).mem.wf = true := h
  unfold holdWord
  split
  · exact h
  · split
    · exact h
    · dsimp only
      generalize m.wakeHeld core g (8 * w + off) bs.length = m1 at h1
      split
      · split
        · exact h1
        · exact h1
      · split
        · exact h1
        · exact hold_wf m1 w h1

theorem holdBytes_wf (core g pa : Nat) (bs : List Byte) (m : Mach) (h : m.mem.wf = true) :
    (holdBytes core g pa bs m).mem.wf = true :=
  foldl_keeps (fun m : Mach => m.mem.wf = true) _ (fun m _ h => holdWord_wf core g _ _ _ m h) _ m h

theorem conflictAt_mem (pa n : Nat) (m : Mach) : (conflictAt pa n m).mem = m.mem := by
  unfold conflictAt
  refine foldl_keeps (fun x : Mach => x.mem = m.mem) _ (fun x p h => ?_) _ m rfl
  split
  · exact h
  · exact h

theorem ownHostLine_mem (d : Dev) (pa : Nat) (m : Mach) : (m.ownHostLine d pa).mem = m.mem := by
  unfold Mach.ownHostLine
  split <;> rfl

theorem performPart_wf (d : Dev) (s : Store) (x : Xlat) (pa : Nat) (bs : List Byte) (m : Mach) (h : m.mem.wf = true) :
    (performPart d s x pa bs m).mem.wf = true := by
  unfold performPart
  dsimp only
  split
  · exact sequenceStore_wf d _ _ _ _ _ _ m h
  · split
    · split
      · exact holdBytes_wf _ _ _ _ m h
      · exact h
    · have h1 : (conflictAt pa bs.length m).mem.wf = true := conflictAt_mem _ _ m ▸ h
      repeat' split
      all_goals
        first
        | exact (ownHostLine_mem d pa _).symm ▸ writeBytes_wf _ _ _ _ h1

theorem performStore_wf (d : Dev) (s : Store) (m : Mach) (h : m.mem.wf = true) : (performStore d s m).mem.wf = true := by
  unfold performStore
  dsimp only
  split
  · exact parkStore_wf d s _ m h
  · split
    · exact parkStore_wf d s _ m h
    · split
      · exact h
      · next m1 e =>
        have h1 : m1.mem.wf = true := by
          revert e
          split
          · intro e
            cases e
            exact h
          · intro e
            have key : ∀ o : Option Mach, (∀ x, o = some x → x.mem.wf = true) → ∀ l : List (Xlat × Nat × List Byte), ∀ x,
                l.foldl (fun (o : Option Mach) p => o.bind fun m => Mach.frozenWrite d m p.2.1) o = some x → x.mem.wf = true := by
              intro o ho l
              induction l generalizing o with
              | nil => exact ho
              | cons p l ih =>
                refine ih _ fun x hx => ?_
                obtain ⟨y, hy, hx⟩ := Option.bind_eq_some_iff.mp hx
                exact frozenWrite_mem d y x _ hx ▸ ho y hy
            exact key (some m) (fun x hx => by cases hx; exact h) _ m1 e
        refine foldl_keeps (fun m : Mach => m.mem.wf = true) _ (fun m p h => ?_) _ m1 h1
        split
        · exact performPart_wf d s _ _ _ m h
        · exact h

theorem performTag_wf (d : Dev) (tag : Nat) (m : Mach) (h : m.mem.wf = true) : (performTag d tag m).mem.wf = true := by
  unfold performTag
  split
  · split
    · exact performStore_wf d _ m h
    · exact h
  · exact h

theorem drainStores_wf (d : Dev) (p : Store → Bool) (m : Mach) (h : m.mem.wf = true) : (drainStores d p m).mem.wf = true :=
  foldl_keeps (fun m : Mach => m.mem.wf = true) _ (fun m t h => performTag_wf d t m h) _ m h

end Sys2Proof.Laws
end

