-- ==== Sys2Proof/Laws/Encoding.lean ====
section
/-! SUPPORT. Each field code, operand specifier and word class of the encoder read back by the decoder (R162 to R188). -/

namespace Sys2Proof.Laws

/-! Codes -/

@[simp] theorem tyOf_tyCode (t : Ty) : tyOf (tyCode t) = some t := by cases t <;> rfl
@[simp] theorem ffmtOf_ffmtCode (t : FFmt) : ffmtOf (ffmtCode t) = some t := by cases t <;> rfl
@[simp] theorem efmtOf_efmtCode (t : EFmt) : efmtOf (efmtCode t) = some t := by cases t <;> rfl
@[simp] theorem rmOf_rmCode (t : RMode) : rmOf (rmCode t) = some t := by cases t <;> rfl
@[simp] theorem szOf_szCode (t : Sz) : szOf (szCode t) = some t := by cases t <;> rfl
@[simp] theorem condOf_condCode (t : Cond) : condOf (condCode t) = some t := by cases t <;> rfl
@[simp] theorem fcondOf_fcondCode (t : FCond) : fcondOf (fcondCode t) = some t := by cases t <;> rfl
@[simp] theorem orderOf_orderCode (t : Order) : orderOf (orderCode t) = some t := by cases t <;> rfl
@[simp] theorem scopeOf_scopeCode (t : Scope) : scopeOf (scopeCode t) = some t := by cases t <;> rfl
@[simp] theorem spaceOf_spaceCode (t : Space) : spaceOf (spaceCode t) = some t := by cases t <;> rfl
@[simp] theorem hintOf_hintCode (t : Hint) : hintOf (hintCode t) = some t := by cases t <;> rfl
@[simp] theorem shflOf_shflCode (t : ShflMode) : shflOf (shflCode t) = some t := by cases t <;> rfl
@[simp] theorem voteOf_voteCode (t : VoteMode) : voteOf (voteCode t) = some t := by cases t <;> rfl
@[simp] theorem subwOf_subwCode (t : SubW) : subwOf (subwCode t) = some t := by cases t <;> rfl
@[simp] theorem atomOpOf_atomOpCode (t : AtomOp) : atomOpOf (atomOpCode t) = some t := by cases t <;> rfl
@[simp] theorem qfieldOf_qfieldCode (t : QField) : qfieldOf (qfieldCode t) = some t := by cases t <;> rfl

theorem tyCode_lt (t : Ty) : tyCode t < 10 := by cases t <;> decide
theorem ffmtCode_lt (t : FFmt) : ffmtCode t < 6 := by cases t <;> decide
theorem efmtCode_lt (t : EFmt) : efmtCode t < 6 := by cases t <;> decide
theorem rmCode_lt (t : RMode) : rmCode t < 4 := by cases t <;> decide
theorem szCode_lt (t : Sz) : szCode t < 8 := by cases t <;> decide
theorem condCode_lt (t : Cond) : condCode t < 6 := by cases t <;> decide
theorem fcondCode_lt (t : FCond) : fcondCode t < 8 := by cases t <;> decide
theorem orderCode_lt (t : Order) : orderCode t < 5 := by cases t <;> decide
theorem scopeCode_lt (t : Scope) : scopeCode t < 6 := by cases t <;> decide
theorem spaceCode_lt (t : Space) : spaceCode t < 3 := by cases t <;> decide
theorem hintCode_lt (t : Hint) : hintCode t < 3 := by cases t <;> decide
theorem shflCode_lt (t : ShflMode) : shflCode t < 4 := by cases t <;> decide
theorem voteCode_lt (t : VoteMode) : voteCode t < 4 := by cases t <;> decide
theorem subwCode_lt (t : SubW) : subwCode t < 6 := by cases t <;> decide
theorem atomOpCode_lt (t : AtomOp) : atomOpCode t < 8 := by cases t <;> decide
theorem qfieldCode_lt (t : QField) : qfieldCode t < 4 := by cases t <;> decide
theorem redLow_lt (op : RedOp) : redLow op < 65536 - 64 := by
  cases op <;> simp only [redLow] <;> first | omega | (rename_i t; have := tyCode_lt t; omega) | (rename_i t; have := rmCode_lt t; omega)
theorem bit_lt (b : Bool) : bit b < 2 := by cases b <;> decide
theorem bit_le (b : Bool) : bit b ≤ 1 := by cases b <;> decide
@[simp] theorem bit_beq_one (b : Bool) : (bit b == 1) = b := by cases b <;> rfl

@[simp] theorem fin_ofNat_val {n : Nat} [NeZero n] (x : Fin n) : Fin.ofNat n x.val = x := by
  apply Fin.ext; simp [Fin.ofNat, Nat.mod_eq_of_lt x.isLt]

@[simp] theorem bv_ofNat_toNat {n : Nat} (x : BitVec n) : BitVec.ofNat n x.toNat = x := by simp

/-! Operand specifiers -/

theorem specOf_lt (o : Opnd) : specOf o < 1024 := by cases o <;> simp only [specOf] <;> omega

@[simp] theorem opndOf_specOf (o : Opnd) : opndOf (specOf o) = some o := by
  cases o with
  | v n => have := n.isLt; simp [specOf, opndOf]
  | c n => have := n.isLt; simp [specOf, opndOf, show 576 + n.val < 624 by omega]
  | e n => have := n.isLt; simp [specOf, opndOf, show 624 + n.val < 628 by omega, show ¬ 624 + n.val < 576 by omega]
  | q n => have := n.isLt; simp [specOf, opndOf, show 628 + n.val < 640 by omega, show ¬ 628 + n.val < 576 by omega, show ¬ 628 + n.val < 624 by omega]
  | s n =>
    have := n.isLt
    simp [specOf, opndOf, show 640 + n.val < 704 by omega, show ¬ 640 + n.val < 576 by omega,
      show ¬ 640 + n.val < 624 by omega, show ¬ 640 + n.val < 628 by omega]
  | p n =>
    have := n.isLt
    simp [specOf, opndOf, show 704 + n.val < 712 by omega, show ¬ 704 + n.val < 576 by omega,
      show ¬ 704 + n.val < 624 by omega, show ¬ 704 + n.val < 628 by omega, show ¬ 704 + n.val < 640 by omega]
  | sr n =>
    have := n.isLt
    simp [specOf, opndOf, show 712 + n.val < 729 by omega, show ¬ 712 + n.val < 576 by omega,
      show ¬ 712 + n.val < 624 by omega, show ¬ 712 + n.val < 628 by omega, show ¬ 712 + n.val < 640 by omega,
      show ¬ 712 + n.val < 704 by omega]
  | imm n =>
    have := n.isLt
    simp [specOf, opndOf, show 768 + n.val < 1024 by omega, show ¬ 768 + n.val < 576 by omega,
      show ¬ 768 + n.val < 624 by omega, show ¬ 768 + n.val < 628 by omega, show ¬ 768 + n.val < 640 by omega,
      show ¬ 768 + n.val < 704 by omega, show ¬ 768 + n.val < 712 by omega, show ¬ 768 + n.val < 729 by omega]

@[simp] theorem predOf_add (n : Fin 8) : predOf (704 + n.val) = some n := by
  have := n.isLt; simp [predOf, show 704 + n.val < 712 by omega]

@[simp] theorem scalarOf_add (n : Fin 64) : scalarOf (640 + n.val) = some n := by
  have := n.isLt; simp [scalarOf, show 640 + n.val < 704 by omega]

@[simp] theorem queueOf_add (n : Fin 12) : queueOf (628 + n.val) = some n := by
  have := n.isLt; simp [queueOf, show 628 + n.val < 640 by omega]

@[simp] theorem s4Of_add (n : Fin 16) : s4Of (640 + 4 * n.val) = some n := by
  have := n.isLt
  simp [s4Of, show 640 + 4 * n.val < 704 by omega, show (640 + 4 * n.val) % 4 = 0 by omega]

@[simp] theorem v8Of_mul (n : Fin 72) : v8Of (8 * n.val) = some n := by
  have := n.isLt
  simp [v8Of, show 8 * n.val < 576 by omega]

@[simp] theorem need_true : need true = some () := rfl

/-! Words -/

theorem bitsOf_skip (a x k lo n : Nat) (h : a < 2 ^ k) : bitsOf (a + 2 ^ k * x) (k + lo) n = bitsOf x lo n := by
  simp only [bitsOf, Nat.pow_add, ← Nat.div_div_eq_div_mul]
  rw [Nat.add_mul_div_left _ _ (Nat.two_pow_pos k), Nat.div_eq_of_lt h, Nat.zero_add]

theorem bitsOf_here (a x n : Nat) (h : a < 2 ^ n) : bitsOf (a + 2 ^ n * x) 0 n = a := by
  simp [bitsOf, Nat.add_mul_mod_self_left, Nat.mod_eq_of_lt h]

theorem bitsOf_last (a n : Nat) (h : a < 2 ^ n) : bitsOf a 0 n = a := by simp [bitsOf, Nat.mod_eq_of_lt h]

theorem lt_peel (a x k n : Nat) (h : a < 2 ^ k) (h' : x < 2 ^ n) : a + 2 ^ k * x < 2 ^ (k + n) := by
  have : 2 ^ k * (x + 1) ≤ 2 ^ k * 2 ^ n := Nat.mul_le_mul_left _ h'
  rw [Nat.pow_add]
  rw [Nat.mul_add] at this
  omega

/-- The fields of a word that fit their places are read back (R162). -/
theorem fieldsOf_wordOf (f : Fields) (h0 : f.fmt < 2 ^ 2) (h1 : f.major < 2 ^ 8) (h2 : f.la < 2 ^ 4) (h3 : f.gp < 2 ^ 3)
    (h4 : f.gs < 2 ^ 1) (h5 : f.dst < 2 ^ 10) (h6 : f.sa < 2 ^ 10) (h7 : f.sb < 2 ^ 10) (h8 : f.low < 2 ^ 16) :
    fieldsOf (wordOf f) = f := by
  have e : wordOf f = f.low + 2 ^ 16 * (f.sb + 2 ^ 10 * (f.sa + 2 ^ 10 * (f.dst + 2 ^ 10 * (f.gs + 2 ^ 1 * (f.gp
      + 2 ^ 3 * (f.la + 2 ^ 4 * (f.major + 2 ^ 8 * f.fmt))))))) := rfl
  rw [e]
  have q0 := bitsOf_skip f.low (f.sb + 2 ^ 10 * (f.sa + 2 ^ 10 * (f.dst + 2 ^ 10 * (f.gs + 2 ^ 1 * (f.gp
      + 2 ^ 3 * (f.la + 2 ^ 4 * (f.major + 2 ^ 8 * f.fmt))))))) 16
  have q1 := bitsOf_skip f.sb (f.sa + 2 ^ 10 * (f.dst + 2 ^ 10 * (f.gs + 2 ^ 1 * (f.gp
      + 2 ^ 3 * (f.la + 2 ^ 4 * (f.major + 2 ^ 8 * f.fmt)))))) 10
  have q2 := bitsOf_skip f.sa (f.dst + 2 ^ 10 * (f.gs + 2 ^ 1 * (f.gp
      + 2 ^ 3 * (f.la + 2 ^ 4 * (f.major + 2 ^ 8 * f.fmt))))) 10
  have q3 := bitsOf_skip f.dst (f.gs + 2 ^ 1 * (f.gp + 2 ^ 3 * (f.la + 2 ^ 4 * (f.major + 2 ^ 8 * f.fmt)))) 10
  have q4 := bitsOf_skip f.gs (f.gp + 2 ^ 3 * (f.la + 2 ^ 4 * (f.major + 2 ^ 8 * f.fmt))) 1
  have q5 := bitsOf_skip f.gp (f.la + 2 ^ 4 * (f.major + 2 ^ 8 * f.fmt)) 3
  have q6 := bitsOf_skip f.la (f.major + 2 ^ 8 * f.fmt) 4
  have q7 := bitsOf_skip f.major f.fmt 8
  cases f
  simp only [fieldsOf, Fields.mk.injEq] at *
  refine ⟨?_, ?_, ?_, ?_, ?_, ?_, ?_, ?_, ?_⟩
  · rw [q0 46 2 h8, q1 36 2 h7, q2 26 2 h6, q3 16 2 h5, q4 15 2 h4, q5 12 2 h3, q6 8 2 h2, q7 0 2 h1, bitsOf_last _ _ h0]
  · rw [q0 38 8 h8, q1 28 8 h7, q2 18 8 h6, q3 8 8 h5, q4 7 8 h4, q5 4 8 h3, q6 0 8 h2, bitsOf_here _ _ _ h1]
  · rw [q0 34 4 h8, q1 24 4 h7, q2 14 4 h6, q3 4 4 h5, q4 3 4 h4, q5 0 4 h3, bitsOf_here _ _ _ h2]
  · rw [q0 31 3 h8, q1 21 3 h7, q2 11 3 h6, q3 1 3 h5, q4 0 3 h4, bitsOf_here _ _ _ h3]
  · rw [q0 30 1 h8, q1 20 1 h7, q2 10 1 h6, q3 0 1 h5, bitsOf_here _ _ _ h4]
  · rw [q0 20 10 h8, q1 10 10 h7, q2 0 10 h6, bitsOf_here _ _ _ h5]
  · rw [q0 10 10 h8, q1 0 10 h7, bitsOf_here _ _ _ h6]
  · rw [q0 0 10 h8, bitsOf_here _ _ _ h7]
  · rw [bitsOf_here _ _ _ h8]

theorem fieldsOf_full (major : Nat) (g : Guard) (la dst sa sb low : Nat) (h1 : major < 256) (h2 : la < 16)
    (h5 : dst < 1024) (h6 : sa < 1024) (h7 : sb < 1024) (h8 : low < 65536) :
    fieldsOf (full major g la dst sa sb low) = ⟨0, major, la, g.pred.val, bit g.neg, dst, sa, sb, low⟩ := by
  have := g.pred.isLt
  apply fieldsOf_wordOf <;> simp <;> first | omega | (cases g.neg <;> decide)

theorem full_fmt (major : Nat) (g : Guard) (la dst sa sb low : Nat) (h1 : major < 256) (h2 : la < 16)
    (h5 : dst < 1024) (h6 : sa < 1024) (h7 : sb < 1024) (h8 : low < 65536) :
    bitsOf (full major g la dst sa sb low) 62 2 = 0 :=
  congrArg Fields.fmt (fieldsOf_full major g la dst sa sb low h1 h2 h5 h6 h7 h8)

theorem full_lt (major : Nat) (g : Guard) (la dst sa sb low : Nat) (h1 : major < 256) (h2 : la < 16)
    (h5 : dst < 1024) (h6 : sa < 1024) (h7 : sb < 1024) (h8 : low < 65536) :
    full major g la dst sa sb low < 2 ^ 62 := by
  have hb : bit g.neg < 2 ^ 1 := bit_lt _
  exact lt_peel _ _ 16 46 h8 (lt_peel _ _ 10 36 h7 (lt_peel _ _ 10 26 h6 (lt_peel _ _ 10 16 h5 (lt_peel _ _ 1 15 hb
    (lt_peel _ _ 3 12 g.pred.isLt (lt_peel _ _ 4 8 h2 (lt_peel _ 0 8 0 h1 (by decide))))))))

@[simp] theorem guard_mk (mj la dst sa sb low : Nat) (g : Guard) :
    (⟨0, mj, la, g.pred.val, bit g.neg, dst, sa, sb, low⟩ : Fields).guard = g := by
  cases g; simp [Fields.guard]

@[simp] theorem laF_mk (mj gp gs dst sa sb low : Nat) (la : Fin 16) :
    (⟨0, mj, la.val, gp, gs, dst, sa, sb, low⟩ : Fields).laF = la := by simp [Fields.laF]

/-! Classes of the low bits (R178) -/

section classes

variable (fm mj la gp gs d a b : Nat)

@[simp] theorem tyA_mk (ty : Ty) (k) : Fields.tyA ⟨fm, mj, la, gp, gs, d, a, b, 4096 * tyCode ty⟩ k = k ty := by
  have := tyCode_lt ty
  have h1 : bitsOf (4096 * tyCode ty) 0 12 = 0 := by simp only [bitsOf]; omega
  have h2 : bitsOf (4096 * tyCode ty) 12 4 = tyCode ty := by simp only [bitsOf]; omega
  simp [Fields.tyA, h1, h2]

@[simp] theorem tyPc_mk (ty : Ty) (x : Nat) (h : x < 8) (k) :
    Fields.tyPc ⟨fm, mj, la, gp, gs, d, a, b, 4096 * tyCode ty + x⟩ k = k ty x := by
  have := tyCode_lt ty
  have h1 : bitsOf (4096 * tyCode ty + x) 3 9 = 0 := by simp only [bitsOf]; omega
  have h2 : bitsOf (4096 * tyCode ty + x) 12 4 = tyCode ty := by simp only [bitsOf]; omega
  have h3 : bitsOf (4096 * tyCode ty + x) 0 3 = x := by simp only [bitsOf]; omega
  simp [Fields.tyPc, h1, h2, h3]

@[simp] theorem tyTrap_mk (ty : Ty) (x : Bool) (k) :
    Fields.tyTrap ⟨fm, mj, la, gp, gs, d, a, b, 4096 * tyCode ty + 128 * bit x⟩ k = k ty x := by
  have := tyCode_lt ty
  have := bit_lt x
  have h1 : bitsOf (4096 * tyCode ty + 128 * bit x) 0 7 = 0 := by simp only [bitsOf]; omega
  have h4 : bitsOf (4096 * tyCode ty + 128 * bit x) 8 4 = 0 := by simp only [bitsOf]; omega
  have h2 : bitsOf (4096 * tyCode ty + 128 * bit x) 12 4 = tyCode ty := by simp only [bitsOf]; omega
  have h3 : bitsOf (4096 * tyCode ty + 128 * bit x) 7 1 = bit x := by simp only [bitsOf]; omega
  simp [Fields.tyTrap, h1, h2, h3, h4]

theorem tyMinor_of (low : Nat) (ty : Ty) (x : Nat) (h : x < 16) (e : low = 4096 * tyCode ty + 256 * x) (k) :
    Fields.tyMinor ⟨fm, mj, la, gp, gs, d, a, b, low⟩ k = k ty x := by
  subst e
  have := tyCode_lt ty
  have h1 : bitsOf (4096 * tyCode ty + 256 * x) 0 8 = 0 := by simp only [bitsOf]; omega
  have h2 : bitsOf (4096 * tyCode ty + 256 * x) 12 4 = tyCode ty := by simp only [bitsOf]; omega
  have h3 : bitsOf (4096 * tyCode ty + 256 * x) 8 4 = x := by simp only [bitsOf]; omega
  simp [Fields.tyMinor, h1, h2, h3]

@[simp] theorem tyMinor_cond (ty : Ty) (c : Cond) (k) :
    Fields.tyMinor ⟨fm, mj, la, gp, gs, d, a, b, 4096 * tyCode ty + 256 * condCode c⟩ k = k ty (condCode c) :=
  tyMinor_of fm mj la gp gs d a b _ ty _ (by have := condCode_lt c; omega) rfl k

@[simp] theorem tyMinor_fin (ty : Ty) (c : Fin 16) (k) :
    Fields.tyMinor ⟨fm, mj, la, gp, gs, d, a, b, 4096 * tyCode ty + 256 * c.val⟩ k = k ty c.val :=
  tyMinor_of fm mj la gp gs d a b _ ty _ c.isLt rfl k

@[simp] theorem tyMinor_0 (ty : Ty) (k) : Fields.tyMinor ⟨fm, mj, la, gp, gs, d, a, b, 4096 * tyCode ty⟩ k = k ty 0 :=
  tyMinor_of fm mj la gp gs d a b _ ty _ (by omega) (by omega) k

@[simp] theorem tyMinor_1 (ty : Ty) (k) : Fields.tyMinor ⟨fm, mj, la, gp, gs, d, a, b, 4096 * tyCode ty + 256⟩ k = k ty 1 :=
  tyMinor_of fm mj la gp gs d a b _ ty _ (by omega) (by omega) k

@[simp] theorem tyMinor_2 (ty : Ty) (k) : Fields.tyMinor ⟨fm, mj, la, gp, gs, d, a, b, 4096 * tyCode ty + 512⟩ k = k ty 2 :=
  tyMinor_of fm mj la gp gs d a b _ ty _ (by omega) (by omega) k

@[simp] theorem tyMinor_3 (ty : Ty) (k) : Fields.tyMinor ⟨fm, mj, la, gp, gs, d, a, b, 4096 * tyCode ty + 768⟩ k = k ty 3 :=
  tyMinor_of fm mj la gp gs d a b _ ty _ (by omega) (by omega) k

@[simp] theorem tyC_mk (ty : Ty) (c : Opnd) (k) :
    Fields.tyC ⟨fm, mj, la, gp, gs, d, a, b, 4096 * tyCode ty + specOf c⟩ k = k ty c := by
  have := tyCode_lt ty
  have := specOf_lt c
  have h1 : bitsOf (4096 * tyCode ty + specOf c) 10 2 = 0 := by simp only [bitsOf]; omega
  have h2 : bitsOf (4096 * tyCode ty + specOf c) 12 4 = tyCode ty := by simp only [bitsOf]; omega
  have h3 : bitsOf (4096 * tyCode ty + specOf c) 0 10 = specOf c := by simp only [bitsOf]; omega
  simp [Fields.tyC, h1, h2, h3]

@[simp] theorem c3_mk (c : Opnd) (k) : Fields.c3 ⟨fm, mj, la, gp, gs, d, a, b, specOf c⟩ k = k c := by
  have := specOf_lt c
  have h1 : bitsOf (specOf c) 10 6 = 0 := by simp only [bitsOf]; omega
  have h3 : bitsOf (specOf c) 0 10 = specOf c := by simp only [bitsOf]; omega
  simp [Fields.c3, h1, h3]

@[simp] theorem bf_mk (ty : Ty) (x y : Fin 64) (k) :
    Fields.bf ⟨fm, mj, la, gp, gs, d, a, b, 4096 * tyCode ty + 64 * x.val + y.val⟩ k = k ty x y := by
  have := tyCode_lt ty
  have := x.isLt
  have := y.isLt
  have h2 : bitsOf (4096 * tyCode ty + 64 * x.val + y.val) 12 4 = tyCode ty := by simp only [bitsOf]; omega
  have h3 : bitsOf (4096 * tyCode ty + 64 * x.val + y.val) 6 6 = x.val := by simp only [bitsOf]; omega
  have h4 : bitsOf (4096 * tyCode ty + 64 * x.val + y.val) 0 6 = y.val := by simp only [bitsOf]; omega
  simp [Fields.bf, h2, h3, h4]

theorem cv_of (low x y : Nat) (rm : RMode) (z n : Bool) (hx : x < 16) (hy : y < 16)
    (e : low = 4096 * x + 256 * y + 64 * rmCode rm + 32 * bit z + 16 * bit n) (k) :
    Fields.cv ⟨fm, mj, la, gp, gs, d, a, b, low⟩ k = k x y rm z n := by
  subst e
  have := rmCode_lt rm
  have := bit_lt z
  have := bit_lt n
  have h1 : bitsOf (4096 * x + 256 * y + 64 * rmCode rm + 32 * bit z + 16 * bit n) 0 4 = 0 := by simp only [bitsOf]; omega
  have h2 : bitsOf (4096 * x + 256 * y + 64 * rmCode rm + 32 * bit z + 16 * bit n) 6 2 = rmCode rm := by
    simp only [bitsOf]; omega
  have h3 : bitsOf (4096 * x + 256 * y + 64 * rmCode rm + 32 * bit z + 16 * bit n) 12 4 = x := by simp only [bitsOf]; omega
  have h4 : bitsOf (4096 * x + 256 * y + 64 * rmCode rm + 32 * bit z + 16 * bit n) 8 4 = y := by simp only [bitsOf]; omega
  have h5 : bitsOf (4096 * x + 256 * y + 64 * rmCode rm + 32 * bit z + 16 * bit n) 5 1 = bit z := by
    simp only [bitsOf]; omega
  have h6 : bitsOf (4096 * x + 256 * y + 64 * rmCode rm + 32 * bit z + 16 * bit n) 4 1 = bit n := by
    simp only [bitsOf]; omega
  simp [Fields.cv, h1, h2, h3, h4, h5, h6]

@[simp] theorem cv_ff (x y : FFmt) (rm : RMode) (z n : Bool) (k) :
    Fields.cv ⟨fm, mj, la, gp, gs, d, a, b, 4096 * ffmtCode x + 256 * ffmtCode y + 64 * rmCode rm + 32 * bit z + 16 * bit n⟩ k
      = k (ffmtCode x) (ffmtCode y) rm z n :=
  cv_of fm mj la gp gs d a b _ _ _ rm z n (by have := ffmtCode_lt x; omega) (by have := ffmtCode_lt y; omega) rfl k

@[simp] theorem cv_tf (x : Ty) (y : FFmt) (rm : RMode) (z : Bool) (k) :
    Fields.cv ⟨fm, mj, la, gp, gs, d, a, b, 4096 * tyCode x + 256 * ffmtCode y + 64 * rmCode rm + 32 * bit z⟩ k
      = k (tyCode x) (ffmtCode y) rm z false :=
  cv_of fm mj la gp gs d a b _ _ _ rm z false (by have := tyCode_lt x; omega) (by have := ffmtCode_lt y; omega)
    (by simp [bit]) k

@[simp] theorem cv_ft (x : FFmt) (y : Ty) (rm : RMode) (k) :
    Fields.cv ⟨fm, mj, la, gp, gs, d, a, b, 4096 * ffmtCode x + 256 * tyCode y + 64 * rmCode rm⟩ k
      = k (ffmtCode x) (tyCode y) rm false false :=
  cv_of fm mj la gp gs d a b _ _ _ rm false false (by have := ffmtCode_lt x; omega) (by have := tyCode_lt y; omega)
    (by simp [bit]) k

@[simp] theorem cv_tt (x y : Ty) (n : Bool) (k) :
    Fields.cv ⟨fm, mj, la, gp, gs, d, a, b, 4096 * tyCode x + 256 * tyCode y + 16 * bit n⟩ k
      = k (tyCode x) (tyCode y) .rne false n :=
  cv_of fm mj la gp gs d a b _ _ _ .rne false n (by have := tyCode_lt x; omega) (by have := tyCode_lt y; omega)
    (by simp [bit, rmCode]) k

theorem fl_of (low : Nat) (ft : FFmt) (rm : RMode) (z : Bool) (x : Nat) (hx : x < 16)
    (e : low = 4096 * ffmtCode ft + 1024 * rmCode rm + 512 * bit z + 16 * x) (k) :
    Fields.fl ⟨fm, mj, la, gp, gs, d, a, b, low⟩ k = k ft rm z x := by
  subst e
  have := ffmtCode_lt ft
  have := rmCode_lt rm
  have := bit_lt z
  have h1 : bitsOf (4096 * ffmtCode ft + 1024 * rmCode rm + 512 * bit z + 16 * x) 8 1 = 0 := by simp only [bitsOf]; omega
  have h2 : bitsOf (4096 * ffmtCode ft + 1024 * rmCode rm + 512 * bit z + 16 * x) 0 4 = 0 := by simp only [bitsOf]; omega
  have h3 : bitsOf (4096 * ffmtCode ft + 1024 * rmCode rm + 512 * bit z + 16 * x) 12 4 = ffmtCode ft := by
    simp only [bitsOf]; omega
  have h4 : bitsOf (4096 * ffmtCode ft + 1024 * rmCode rm + 512 * bit z + 16 * x) 10 2 = rmCode rm := by
    simp only [bitsOf]; omega
  have h5 : bitsOf (4096 * ffmtCode ft + 1024 * rmCode rm + 512 * bit z + 16 * x) 9 1 = bit z := by
    simp only [bitsOf]; omega
  have h6 : bitsOf (4096 * ffmtCode ft + 1024 * rmCode rm + 512 * bit z + 16 * x) 4 4 = x := by
    simp only [bitsOf]; omega
  simp [Fields.fl, h1, h2, h3, h4, h5, h6]

theorem fl0_of (low : Nat) (ft : FFmt) (rm : RMode) (z : Bool)
    (e : low = 4096 * ffmtCode ft + 1024 * rmCode rm + 512 * bit z) (k) :
    Fields.fl0 ⟨fm, mj, la, gp, gs, d, a, b, low⟩ k = k ft rm z := by
  rw [Fields.fl0, fl_of fm mj la gp gs d a b low ft rm z 0 (by omega) (by omega)]
  simp

@[simp] theorem fl0_mk (ft : FFmt) (rm : RMode) (z : Bool) (k) :
    Fields.fl0 ⟨fm, mj, la, gp, gs, d, a, b, 4096 * ffmtCode ft + 1024 * rmCode rm + 512 * bit z⟩ k = k ft rm z :=
  fl0_of fm mj la gp gs d a b _ ft rm z rfl k

@[simp] theorem fl0_z (ft : FFmt) (z : Bool) (k) :
    Fields.fl0 ⟨fm, mj, la, gp, gs, d, a, b, 4096 * ffmtCode ft + 512 * bit z⟩ k = k ft .rne z :=
  fl0_of fm mj la gp gs d a b _ ft .rne z (by simp [rmCode]) k

@[simp] theorem fl0_0 (ft : FFmt) (k) :
    Fields.fl0 ⟨fm, mj, la, gp, gs, d, a, b, 4096 * ffmtCode ft⟩ k = k ft .rne false :=
  fl0_of fm mj la gp gs d a b _ ft .rne false (by simp [rmCode, bit]) k

@[simp] theorem fl_cond (ft : FFmt) (z : Bool) (c : FCond) (k) :
    Fields.fl ⟨fm, mj, la, gp, gs, d, a, b, 4096 * ffmtCode ft + 512 * bit z + 16 * fcondCode c⟩ k = k ft .rne z (fcondCode c) :=
  fl_of fm mj la gp gs d a b _ ft .rne z _ (by have := fcondCode_lt c; omega) (by simp [rmCode]) k

@[simp] theorem fl32_mk (rm : RMode) (z : Bool) (k) :
    Fields.fl32 ⟨fm, mj, la, gp, gs, d, a, b, 1024 * rmCode rm + 512 * bit z⟩ k = k rm z := by
  rw [Fields.fl32, fl0_of fm mj la gp gs d a b _ .f32 rm z (by simp [ffmtCode])]
  simp

@[simp] theorem fl32_z (z : Bool) (k) : Fields.fl32 ⟨fm, mj, la, gp, gs, d, a, b, 512 * bit z⟩ k = k .rne z := by
  rw [Fields.fl32, fl0_of fm mj la gp gs d a b _ .f32 .rne z (by simp [ffmtCode, rmCode])]
  simp

theorem f3_of (low : Nat) (rm : RMode) (x : Nat) (c : Opnd) (hx : x < 16) (e : low = 16384 * rmCode rm + 1024 * x + specOf c)
    (k) : Fields.f3 ⟨fm, mj, la, gp, gs, d, a, b, low⟩ k = k rm x c := by
  subst e
  have := specOf_lt c
  have := rmCode_lt rm
  have h1 : bitsOf (16384 * rmCode rm + 1024 * x + specOf c) 14 2 = rmCode rm := by simp only [bitsOf]; omega
  have h2 : bitsOf (16384 * rmCode rm + 1024 * x + specOf c) 0 10 = specOf c := by simp only [bitsOf]; omega
  have h3 : bitsOf (16384 * rmCode rm + 1024 * x + specOf c) 10 4 = x := by simp only [bitsOf]; omega
  simp [Fields.f3, h1, h2, h3]

@[simp] theorem f3_z (rm : RMode) (z : Bool) (c : Opnd) (k) :
    Fields.f3 ⟨fm, mj, la, gp, gs, d, a, b, 16384 * rmCode rm + 8192 * bit z + specOf c⟩ k = k rm (8 * bit z) c :=
  f3_of fm mj la gp gs d a b _ rm _ c (by have := bit_lt z; omega) (by omega) k

@[simp] theorem f3_zz (rm : RMode) (z h : Bool) (c : Opnd) (k) :
    Fields.f3 ⟨fm, mj, la, gp, gs, d, a, b, 16384 * rmCode rm + 8192 * bit z + 4096 * bit h + specOf c⟩ k
      = k rm (8 * bit z + 4 * bit h) c :=
  f3_of fm mj la gp gs d a b _ rm _ c (by have := bit_lt z; have := bit_lt h; omega) (by omega) k

@[simp] theorem f3_fin (rm : RMode) (x y : Fin 4) (c : Opnd) (k) :
    Fields.f3 ⟨fm, mj, la, gp, gs, d, a, b, 16384 * rmCode rm + 4096 * x.val + 1024 * y.val + specOf c⟩ k
      = k rm (4 * x.val + y.val) c :=
  f3_of fm mj la gp gs d a b _ rm _ c (by omega) (by omega) k

theorem nw_of (low : Nat) (ef : EFmt) (rm : RMode) (z : Bool) (t : Fin 4)
    (e : low = 4096 * efmtCode ef + 1024 * rmCode rm + 512 * bit z + 128 * t.val) (k) :
    Fields.nw ⟨fm, mj, la, gp, gs, d, a, b, low⟩ k = k ef rm z t := by
  subst e
  have := efmtCode_lt ef
  have := rmCode_lt rm
  have := bit_lt z
  have := t.isLt
  have h1 : bitsOf (4096 * efmtCode ef + 1024 * rmCode rm + 512 * bit z + 128 * t.val) 0 7 = 0 := by
    simp only [bitsOf]; omega
  have h3 : bitsOf (4096 * efmtCode ef + 1024 * rmCode rm + 512 * bit z + 128 * t.val) 12 4 = efmtCode ef := by
    simp only [bitsOf]; omega
  have h4 : bitsOf (4096 * efmtCode ef + 1024 * rmCode rm + 512 * bit z + 128 * t.val) 10 2 = rmCode rm := by
    simp only [bitsOf]; omega
  have h5 : bitsOf (4096 * efmtCode ef + 1024 * rmCode rm + 512 * bit z + 128 * t.val) 9 1 = bit z := by
    simp only [bitsOf]; omega
  have h6 : bitsOf (4096 * efmtCode ef + 1024 * rmCode rm + 512 * bit z + 128 * t.val) 7 2 = t.val := by
    simp only [bitsOf]; omega
  simp [Fields.nw, h1, h3, h4, h5, h6]

@[simp] theorem nw_mk (ef : EFmt) (rm : RMode) (z : Bool) (t : Fin 4) (k) :
    Fields.nw ⟨fm, mj, la, gp, gs, d, a, b, 4096 * efmtCode ef + 1024 * rmCode rm + 512 * bit z + 128 * t.val⟩ k = k ef rm z t :=
  nw_of fm mj la gp gs d a b _ ef rm z t rfl k

@[simp] theorem nw_tab (ef : EFmt) (t : Fin 4) (k) :
    Fields.nw ⟨fm, mj, la, gp, gs, d, a, b, 4096 * efmtCode ef + 128 * t.val⟩ k = k ef .rne false t :=
  nw_of fm mj la gp gs d a b _ ef .rne false t (by simp [rmCode, bit]) k

@[simp] theorem nw_ef (ef : EFmt) (k) :
    Fields.nw ⟨fm, mj, la, gp, gs, d, a, b, 4096 * efmtCode ef⟩ k = k ef .rne false 0 :=
  nw_of fm mj la gp gs d a b _ ef .rne false 0 (by simp [rmCode, bit]) k

@[simp] theorem nw_rm (ef : EFmt) (rm : RMode) (k) :
    Fields.nw ⟨fm, mj, la, gp, gs, d, a, b, 4096 * efmtCode ef + 1024 * rmCode rm⟩ k = k ef rm false 0 :=
  nw_of fm mj la gp gs d a b _ ef rm false 0 (by simp [bit]) k

@[simp] theorem nw_z (ef : EFmt) (rm : RMode) (z : Bool) (k) :
    Fields.nw ⟨fm, mj, la, gp, gs, d, a, b, 4096 * efmtCode ef + 1024 * rmCode rm + 512 * bit z⟩ k = k ef rm z 0 :=
  nw_of fm mj la gp gs d a b _ ef rm z 0 (by simp) k

@[simp] theorem nw_t (t : Fin 4) (k) :
    Fields.nw ⟨fm, mj, la, gp, gs, d, a, b, 128 * t.val⟩ k = k .n4e2 .rne false t :=
  nw_of fm mj la gp gs d a b _ .n4e2 .rne false t (by simp [rmCode, bit, efmtCode]) k

@[simp] theorem pk_mk (x : Fin 3) (y : Fin 16) (k) :
    Fields.pk ⟨fm, mj, la, gp, gs, d, a, b, 4096 * x.val + 256 * y.val⟩ k = k x y := by
  have := x.isLt
  have := y.isLt
  have h1 : bitsOf (4096 * x.val + 256 * y.val) 0 8 = 0 := by simp only [bitsOf]; omega
  have h2 : bitsOf (4096 * x.val + 256 * y.val) 12 4 = x.val := by simp only [bitsOf]; omega
  have h3 : bitsOf (4096 * x.val + 256 * y.val) 8 4 = y.val := by simp only [bitsOf]; omega
  simp [Fields.pk, h1, h2, h3]

theorem ln_of (low x y r : Nat) (s : SubW) (z : Nat) (hx : x < 16) (hy : y < 16) (hr : r < 4) (hz : z < 2)
    (e : low = 4096 * x + 256 * y + 64 * r + 8 * subwCode s + 4 * z) (k) :
    Fields.ln ⟨fm, mj, la, gp, gs, d, a, b, low⟩ k = k x y r s z := by
  subst e
  have := subwCode_lt s
  have h1 : bitsOf (4096 * x + 256 * y + 64 * r + 8 * subwCode s + 4 * z) 0 2 = 0 := by simp only [bitsOf]; omega
  have h2 : bitsOf (4096 * x + 256 * y + 64 * r + 8 * subwCode s + 4 * z) 3 3 = subwCode s := by simp only [bitsOf]; omega
  have h3 : bitsOf (4096 * x + 256 * y + 64 * r + 8 * subwCode s + 4 * z) 12 4 = x := by simp only [bitsOf]; omega
  have h4 : bitsOf (4096 * x + 256 * y + 64 * r + 8 * subwCode s + 4 * z) 8 4 = y := by simp only [bitsOf]; omega
  have h5 : bitsOf (4096 * x + 256 * y + 64 * r + 8 * subwCode s + 4 * z) 6 2 = r := by simp only [bitsOf]; omega
  have h6 : bitsOf (4096 * x + 256 * y + 64 * r + 8 * subwCode s + 4 * z) 2 1 = z := by simp only [bitsOf]; omega
  simp [Fields.ln, h1, h2, h3, h4, h5, h6]

@[simp] theorem ln_shfl (ty : Ty) (m : ShflMode) (s : SubW) (k) :
    Fields.ln ⟨fm, mj, la, gp, gs, d, a, b, 4096 * tyCode ty + 256 * shflCode m + 8 * subwCode s⟩ k
      = k (tyCode ty) (shflCode m) 0 s 0 :=
  ln_of fm mj la gp gs d a b _ _ _ 0 s 0 (by have := tyCode_lt ty; omega) (by have := shflCode_lt m; omega) (by omega)
    (by omega) (by omega) k

@[simp] theorem ln_vote (m : VoteMode) (s : SubW) (k) :
    Fields.ln ⟨fm, mj, la, gp, gs, d, a, b, 256 * voteCode m + 8 * subwCode s⟩ k = k 0 (voteCode m) 0 s 0 :=
  ln_of fm mj la gp gs d a b _ 0 _ 0 s 0 (by omega) (by have := voteCode_lt m; omega) (by omega) (by omega) (by omega) k

@[simp] theorem ln_match (ty : Ty) (m : Bool) (s : SubW) (k) :
    Fields.ln ⟨fm, mj, la, gp, gs, d, a, b, 4096 * tyCode ty + 256 * bit m + 8 * subwCode s⟩ k
      = k (tyCode ty) (bit m) 0 s 0 :=
  ln_of fm mj la gp gs d a b _ _ _ 0 s 0 (by have := tyCode_lt ty; omega) (by have := bit_lt m; omega) (by omega)
    (by omega) (by omega) k

/-- The lane reductions read back their operation. -/
theorem ln_red (op : RedOp) (s : SubW) (f : RedOp → SubW → Option Instr) :
    (Fields.ln ⟨fm, mj, la, gp, gs, d, a, b, redLow op + 8 * subwCode s⟩
      fun ty minor rm sub flt => (redOf flt minor ty rm).bind fun o => f o sub) = f op s := by
  cases op with
  | fadd rm =>
    rw [ln_of fm mj la gp gs d a b _ 0 0 (rmCode rm) s 1 (by omega) (by omega) (rmCode_lt rm) (by omega)
      (by simp only [redLow]; omega)]
    simp [redOf]
  | fmin =>
    rw [ln_of fm mj la gp gs d a b _ 0 1 0 s 1 (by omega) (by omega) (by omega) (by omega) (by simp only [redLow]; omega)]
    simp [redOf]
  | fmax =>
    rw [ln_of fm mj la gp gs d a b _ 0 2 0 s 1 (by omega) (by omega) (by omega) (by omega) (by simp only [redLow]; omega)]
    simp [redOf]
  | add t =>
    rw [ln_of fm mj la gp gs d a b _ (tyCode t) 0 0 s 0 (by have := tyCode_lt t; omega) (by omega) (by omega) (by omega)
      (by simp only [redLow]; omega)]
    simp [redOf]
  | min t =>
    rw [ln_of fm mj la gp gs d a b _ (tyCode t) 1 0 s 0 (by have := tyCode_lt t; omega) (by omega) (by omega) (by omega)
      (by simp only [redLow]; omega)]
    simp [redOf]
  | max t =>
    rw [ln_of fm mj la gp gs d a b _ (tyCode t) 2 0 s 0 (by have := tyCode_lt t; omega) (by omega) (by omega) (by omega)
      (by simp only [redLow]; omega)]
    simp [redOf]
  | and t =>
    rw [ln_of fm mj la gp gs d a b _ (tyCode t) 3 0 s 0 (by have := tyCode_lt t; omega) (by omega) (by omega) (by omega)
      (by simp only [redLow]; omega)]
    simp [redOf]
  | or t =>
    rw [ln_of fm mj la gp gs d a b _ (tyCode t) 4 0 s 0 (by have := tyCode_lt t; omega) (by omega) (by omega) (by omega)
      (by simp only [redLow]; omega)]
    simp [redOf]
  | xor t =>
    rw [ln_of fm mj la gp gs d a b _ (tyCode t) 5 0 s 0 (by have := tyCode_lt t; omega) (by omega) (by omega) (by omega)
      (by simp only [redLow]; omega)]
    simp [redOf]

theorem mo_of (low : Nat) (sz : Sz) (o : BitVec 12) (e : low = 8192 * szCode sz + o.toNat) (k) :
    Fields.mo ⟨fm, mj, la, gp, gs, d, a, b, low⟩ k = k sz o := by
  subst e
  have := szCode_lt sz
  have := o.isLt
  have h1 : bitsOf (8192 * szCode sz + o.toNat) 12 1 = 0 := by simp only [bitsOf]; omega
  have h2 : bitsOf (8192 * szCode sz + o.toNat) 13 3 = szCode sz := by simp only [bitsOf]; omega
  have h3 : bitsOf (8192 * szCode sz + o.toNat) 0 12 = o.toNat := by simp only [bitsOf]; omega
  simp [Fields.mo, h1, h2, h3]

@[simp] theorem mo_mk (sz : Sz) (o : BitVec 12) (k) :
    Fields.mo ⟨fm, mj, la, gp, gs, d, a, b, 8192 * szCode sz + o.toNat⟩ k = k sz o :=
  mo_of fm mj la gp gs d a b _ sz o rfl k

@[simp] theorem mo_0 (o : BitVec 12) (k) :
    Fields.mo ⟨fm, mj, la, gp, gs, d, a, b, o.toNat⟩ k = k .z8 o :=
  mo_of fm mj la gp gs d a b _ .z8 o (by simp [szCode]) k

@[simp] theorem mo_6 (o : BitVec 12) (k) :
    Fields.mo ⟨fm, mj, la, gp, gs, d, a, b, 49152 + o.toNat⟩ k = k .b128 o :=
  mo_of fm mj la gp gs d a b _ .b128 o (by simp [szCode]) k

theorem mformLow_lt (f : MForm) : mformLow f < 8192 := by
  cases f with
  | off o => have := o.isLt; simp only [mformLow]; omega
  | tile dir t => have := t.isLt; simp only [mformLow]; split <;> omega

@[simp] theorem mf_mk (sz : Sz) (f : MForm) (k) :
    Fields.mf ⟨fm, mj, la, gp, gs, d, a, b, 8192 * szCode sz + mformLow f⟩ k = k sz f := by
  have := szCode_lt sz
  have := mformLow_lt f
  have h2 : bitsOf (8192 * szCode sz + mformLow f) 13 3 = szCode sz := by simp only [bitsOf]; omega
  have h3 : mformOf (8192 * szCode sz + mformLow f) = some f := by
    cases f with
    | off o =>
      have := o.isLt
      have h1 : bitsOf (8192 * szCode sz + o.toNat) 12 1 = 0 := by simp only [bitsOf]; omega
      have h3 : bitsOf (8192 * szCode sz + o.toNat) 0 12 = o.toNat := by simp only [bitsOf]; omega
      simp [mformOf, mformLow, h1, h3]
    | tile dir t =>
      have := t.isLt
      have hd : (if dir then 2048 else 0) = 2048 * bit dir := by cases dir <;> rfl
      have := bit_lt dir
      simp only [mformLow, hd, mformOf]
      have h1 : bitsOf (8192 * szCode sz + (4096 + 2048 * bit dir + t.val)) 12 1 = 1 := by simp only [bitsOf]; omega
      have h3 : bitsOf (8192 * szCode sz + (4096 + 2048 * bit dir + t.val)) 6 5 = 0 := by simp only [bitsOf]; omega
      have h4 : bitsOf (8192 * szCode sz + (4096 + 2048 * bit dir + t.val)) 11 1 = bit dir := by simp only [bitsOf]; omega
      have h5 : bitsOf (8192 * szCode sz + (4096 + 2048 * bit dir + t.val)) 0 6 = t.val := by simp only [bitsOf]; omega
      simp [h1, h3, h4, h5]
  simp [Fields.mf, h2, h3]

@[simp] theorem at_mk (ty : Ty) (op : AtomOp) (z : Bool) (k) :
    Fields.at_ ⟨fm, mj, la, gp, gs, d, a, b, 4096 * tyCode ty + 256 * atomOpCode op + 128 * bit z⟩ k = k op ty z := by
  have := tyCode_lt ty
  have := atomOpCode_lt op
  have := bit_lt z
  have h1 : bitsOf (4096 * tyCode ty + 256 * atomOpCode op + 128 * bit z) 0 7 = 0 := by simp only [bitsOf]; omega
  have h2 : bitsOf (4096 * tyCode ty + 256 * atomOpCode op + 128 * bit z) 12 4 = tyCode ty := by simp only [bitsOf]; omega
  have h3 : bitsOf (4096 * tyCode ty + 256 * atomOpCode op + 128 * bit z) 8 4 = atomOpCode op := by
    simp only [bitsOf]; omega
  have h4 : bitsOf (4096 * tyCode ty + 256 * atomOpCode op + 128 * bit z) 7 1 = bit z := by simp only [bitsOf]; omega
  simp [Fields.at_, h1, h2, h3, h4]

theorem tl_of (low x : Nat) (t : Fin 64) (hx : x < 16) (e : low = 4096 * x + t.val) (k) :
    Fields.tl ⟨fm, mj, la, gp, gs, d, a, b, low⟩ k = k x t := by
  subst e
  have := t.isLt
  have h1 : bitsOf (4096 * x + t.val) 6 6 = 0 := by simp only [bitsOf]; omega
  have h2 : bitsOf (4096 * x + t.val) 12 4 = x := by simp only [bitsOf]; omega
  have h3 : bitsOf (4096 * x + t.val) 0 6 = t.val := by simp only [bitsOf]; omega
  simp [Fields.tl, h1, h2, h3]

@[simp] theorem tl_bit (x : Bool) (t : Fin 64) (k) :
    Fields.tl ⟨fm, mj, la, gp, gs, d, a, b, 4096 * bit x + t.val⟩ k = k (bit x) t :=
  tl_of fm mj la gp gs d a b _ _ t (by have := bit_lt x; omega) rfl k

@[simp] theorem tl_field (x : QField) (k) :
    Fields.tl ⟨fm, mj, la, gp, gs, d, a, b, 4096 * qfieldCode x⟩ k = k (qfieldCode x) 0 :=
  tl_of fm mj la gp gs d a b _ _ 0 (by have := qfieldCode_lt x; omega) (by simp) k

@[simp] theorem tl0_mk (t : Fin 64) (k) : Fields.tl0 ⟨fm, mj, la, gp, gs, d, a, b, t.val⟩ k = k t := by
  rw [Fields.tl0, tl_of fm mj la gp gs d a b _ 0 t (by omega) (by omega)]
  simp

theorem kk_of (low : Nat) (x : Fin 16) (t u : Fin 64) (e : low = 4096 * x.val + 64 * t.val + u.val) (k) :
    Fields.kk ⟨fm, mj, la, gp, gs, d, a, b, low⟩ k = k x t u := by
  subst e
  have := x.isLt
  have := t.isLt
  have := u.isLt
  have h1 : bitsOf (4096 * x.val + 64 * t.val + u.val) 12 4 = x.val := by simp only [bitsOf]; omega
  have h2 : bitsOf (4096 * x.val + 64 * t.val + u.val) 6 6 = t.val := by simp only [bitsOf]; omega
  have h3 : bitsOf (4096 * x.val + 64 * t.val + u.val) 0 6 = u.val := by simp only [bitsOf]; omega
  simp [Fields.kk, h1, h2, h3]

@[simp] theorem kk_mk (x : Fin 16) (t u : Fin 64) (k) :
    Fields.kk ⟨fm, mj, la, gp, gs, d, a, b, 4096 * x.val + 64 * t.val + u.val⟩ k = k x t u :=
  kk_of fm mj la gp gs d a b _ x t u rfl k

@[simp] theorem kk_t (x : Fin 16) (t : Fin 64) (k) :
    Fields.kk ⟨fm, mj, la, gp, gs, d, a, b, 4096 * x.val + 64 * t.val⟩ k = k x t 0 :=
  kk_of fm mj la gp gs d a b _ x t 0 (by simp) k

@[simp] theorem k0_mk (x : Fin 16) (k) : Fields.k0 ⟨fm, mj, la, gp, gs, d, a, b, 4096 * x.val⟩ k = k x := by
  rw [Fields.k0, kk_of fm mj la gp gs d a b _ x 0 0 (by simp)]
  simp

@[simp] theorem sr_mk (r : Fin 17) (k) : Fields.sr ⟨fm, mj, la, gp, gs, d, a, b, 712 + r.val⟩ k = k r := by
  have := r.isLt
  simp [Fields.sr, show 712 + r.val < 729 by omega]

theorem kextf_mk (x : Fin 16) (rm : RMode) (z : Bool) (k : Fin 16 → RMode → Bool → Option Instr) :
    (do
      need (bitsOf (4096 * x.val + 1024 * rmCode rm + 512 * bit z) 0 9 == 0)
      let r ← rmOf (bitsOf (4096 * x.val + 1024 * rmCode rm + 512 * bit z) 10 2)
      k (Fin.ofNat 16 (bitsOf (4096 * x.val + 1024 * rmCode rm + 512 * bit z) 12 4)) r
        (bitsOf (4096 * x.val + 1024 * rmCode rm + 512 * bit z) 9 1 == 1)) = k x rm z := by
  have := x.isLt
  have := rmCode_lt rm
  have := bit_lt z
  have h1 : bitsOf (4096 * x.val + 1024 * rmCode rm + 512 * bit z) 0 9 = 0 := by simp only [bitsOf]; omega
  have h2 : bitsOf (4096 * x.val + 1024 * rmCode rm + 512 * bit z) 10 2 = rmCode rm := by simp only [bitsOf]; omega
  have h3 : bitsOf (4096 * x.val + 1024 * rmCode rm + 512 * bit z) 12 4 = x.val := by simp only [bitsOf]; omega
  have h4 : bitsOf (4096 * x.val + 1024 * rmCode rm + 512 * bit z) 9 1 = bit z := by simp only [bitsOf]; omega
  simp [h1, h2, h3, h4]

/-! Operand places -/

@[simp] theorem dab_mk (low : Nat) (x y z : Opnd) (k) :
    Fields.dab ⟨fm, mj, la, gp, gs, specOf x, specOf y, specOf z, low⟩ k = k x y z := by simp [Fields.dab]

@[simp] theorem da_mk (low : Nat) (x y : Opnd) (k) :
    Fields.da ⟨fm, mj, la, gp, gs, specOf x, specOf y, 0, low⟩ k = k x y := by simp [Fields.da]

@[simp] theorem ab_mk (low : Nat) (x y : Opnd) (k) :
    Fields.ab ⟨fm, mj, la, gp, gs, 0, specOf x, specOf y, low⟩ k = k x y := by simp [Fields.ab]

@[simp] theorem a1_mk (low : Nat) (x : Opnd) (k) :
    Fields.a1 ⟨fm, mj, la, gp, gs, 0, specOf x, 0, low⟩ k = k x := by simp [Fields.a1]

@[simp] theorem d1_mk (low : Nat) (x : Opnd) (k) :
    Fields.d1 ⟨fm, mj, la, gp, gs, specOf x, 0, 0, low⟩ k = k x := by simp [Fields.d1]

@[simp] theorem z0_mk (low : Nat) (i) : Fields.z0 ⟨fm, mj, la, gp, gs, 0, 0, 0, low⟩ i = i := by simp [Fields.z0]

@[simp] theorem noLa_mk (low : Nat) (i) : Fields.noLa ⟨fm, mj, 0, gp, gs, d, a, b, low⟩ i = i := by simp [Fields.noLa]

@[simp] theorem lz_mk (i) : Fields.lz ⟨fm, mj, la, gp, gs, d, a, b, 0⟩ i = i := by simp [Fields.lz]

end classes

end Sys2Proof.Laws
end

