-- ==== Sys2Proof/Laws/Issue.lean ====
section
/-! SUPPORT. The issue of a word: what a word does that meets nothing before its effect, what it does when it faults, and
what a wave looks like after the writes of a word (R11, R21 to R24, R48, R168). -/

namespace Sys2Proof.Laws

open Sys2Proof Sys2Proof.Machine

/-! Look-ups after updates -/

theorem find_updWhere {α : Type} (p q : α → Bool) (f : α → α) (hf : ∀ x, q x = true → p (f x) = p x) (l : List α) :
    (updWhere q f l).find? p = (l.find? p).map fun x => if q x then f x else x := by
  induction l with
  | nil => rfl
  | cons x xs ih =>
    simp only [updWhere, List.map_cons, List.find?_cons] at ih ⊢
    have h : p (if q x = true then f x else x) = p x := by
      split
      · next hq => exact hf x hq
      · rfl
    rw [h]
    cases p x
    · simpa using ih
    · simp

/-- The wave that an update names, after it. -/
theorem wave_updWave (m : Mach) (c i : Nat) (f : Wave → Wave)
    (hf : ∀ w, (w.core == c && w.id == i) = true → (f w).core = w.core ∧ (f w).id = w.id) :
    (m.updWave c i f).wave c i = (m.wave c i).map f := by
  unfold Mach.wave
  rw [updWave_waves, find_updWhere _ _ _ (fun w h => by rw [(hf w h).1, (hf w h).2])]
  cases h : m.waves.find? fun w => w.core == c && w.id == i with
  | none => rfl
  | some w =>
    have := List.find?_some h
    simp only [Option.map_some]
    rw [if_pos this]

/-- A wave that an update does not name, after it. -/
theorem wave_updWave_other (m : Mach) (c i c' i' : Nat) (f : Wave → Wave) (hne : ¬ (c' = c ∧ i' = i))
    (hf : ∀ w, (w.core == c && w.id == i) = true → (f w).core = w.core ∧ (f w).id = w.id) :
    (m.updWave c i f).wave c' i' = m.wave c' i' := by
  unfold Mach.wave
  rw [updWave_waves, find_updWhere _ _ _ (fun w h => by rw [(hf w h).1, (hf w h).2])]
  cases h : m.waves.find? fun w => w.core == c' && w.id == i' with
  | none => rfl
  | some w =>
    have h' := List.find?_some h
    simp only [Bool.and_eq_true, beq_iff_eq] at h'
    simp only [Option.map_some]
    rw [if_neg]
    simp only [Bool.and_eq_true, beq_iff_eq]
    exact fun hc => hne ⟨h'.1.symm.trans hc.1, h'.2.symm.trans hc.2⟩

/-- The path that is being performed stands in its wave: among the issuing paths, where no set-aside path is tried. -/
theorem curPath_wave (m : Mach) (w : Wave) (p : Path) (h : m.curPath = some (w, p)) :
    m.wave w.core w.id = some w ∧ (m.probing = false → p ∈ w.paths) := by
  unfold Mach.curPath at h
  split at h
  · next core id mask _ =>
    split at h
    · next w' hw =>
      split at h
      · cases hp : w'.paths.find? fun p => p.mask == mask with
        | none => rw [hp] at h; cases h
        | some p' =>
          rw [hp] at h
          cases h
          have hm := List.find?_some hw
          simp only [Bool.and_eq_true, beq_iff_eq] at hm
          exact ⟨by rw [hm.1, hm.2]; exact hw, fun _ => List.mem_of_find?_eq_some hp⟩
      · cases h
    · cases h
  · next core id mask hc =>
    split at h
    · next w' hw =>
      split at h
      · cases hp : w'.aside.find? fun p => p.mask == mask with
        | none => rw [hp] at h; cases h
        | some p' =>
          rw [hp] at h
          cases h
          have hm := List.find?_some hw
          simp only [Bool.and_eq_true, beq_iff_eq] at hm
          exact ⟨by rw [hm.1, hm.2]; exact hw, fun hq => absurd hq (by simp [Mach.probing, hc])⟩
      · cases h
    · cases h
  · cases h

/-! Issuing -/

/-- What a word does that meets nothing before its effect. -/
theorem runWord_body (info : WordInfo) (body : Dev → Mach → Io → Eff) (s : State) (m : Mach) (io : Io)
    (h : Issues s info m io) : runWord info body s = .next { s with mach := runBody s.dev io info (body s.dev m io) } := by
  obtain ⟨hb, ⟨w0, p0, h0, hm⟩, hs, hl, hc, hr, hq, -⟩ := h
  subst hm
  obtain ⟨w, p, act⟩ := io
  simp only at hl hs hc hr hq
  subst hl
  simp only [runWord, issueWord, performWord, State.withMach, hb, h0, hs, hc, hr, hq, if_false, Bool.false_eq_true, Bool.or_self]

/-- A word whose effect no lane faults in, and that does not wait, completes. -/
theorem runWord_done (info : WordInfo) (body : Dev → Mach → Io → Eff) (s : State) (m : Mach) (io : Io)
    (h : Issues s info m io) (h1 : (body s.dev m io).stall = false) (h2 : (body s.dev m io).whole = none)
    (h3 : (body s.dev m io).flts = []) : runWord info body s = .next (issued s io info (body s.dev m io)) := by
  rw [runWord_body info body s m io h]
  simp only [runBody, h1, h2, finishWord, h3, h.running, issued, if_false, Bool.false_eq_true]

/-- A word whose effect is to write registers writes them. -/
theorem runWord_ok (info : WordInfo) (body : Dev → Mach → Io → Eff) (s : State) (m m' : Mach) (io : Io)
    (outs : List RegWrite) (h : Issues s info m io) (hb : body s.dev m io = Eff.ok m' outs) :
    runWord info body s = .next (wrote s m' io info outs) := by
  rw [runWord_done info body s m io h (by rw [hb]; rfl) (by rw [hb]; rfl) (by rw [hb]; rfl), hb]
  rfl

/-- A word that writes one value a lane writes it. -/
theorem laneWord_done (info : WordInfo) (d : Opnd) (bits : Nat) (f : Dev → Mach → Wave → Nat → Nat) (s : State)
    (m : Mach) (io : Io) (h : Issues s info m io) :
    laneWord info d bits f s = .next (wrote s m io info (perLane io bits d fun l => f s.dev m io.w l)) :=
  runWord_ok info _ s m m io _ h rfl

/-- A word that writes one predicate a lane writes it. -/
theorem predWord_done (info : WordInfo) (n : Nat) (f : Dev → Mach → Wave → Nat → Bool) (s : State)
    (m : Mach) (io : Io) (h : Issues s info m io) :
    predWord info n f s = .next (wrote s m io info (perLaneP io n fun l => f s.dev m io.w l)) :=
  runWord_ok info _ s m m io _ h rfl

/-- A word that is a lane word writes its destination. -/
theorem writesOnly_lane (i : Instr) (info : WordInfo) (d : Opnd) (bits : Nat) (f : Dev → Mach → Wave → Nat → Nat)
    (he : ∀ s, exec i s = laneWord info d bits f s) :
    writesOnly i info fun dv m io => perLane io bits d fun l => f dv m io.w l := fun s m io h =>
  (he s).trans (laneWord_done info d bits f s m io h)

/-- A word that is a predicate word writes its predicate. -/
theorem writesOnly_pred (i : Instr) (info : WordInfo) (n : Nat) (f : Dev → Mach → Wave → Nat → Bool)
    (he : ∀ s, exec i s = predWord info n f s) :
    writesOnly i info fun dv m io => perLaneP io n fun l => f dv m io.w l := fun s m io h =>
  (he s).trans (predWord_done info n f s m io h)

/-- A word whose effect is only to write registers. -/
theorem writesOnly_ok (i : Instr) (info : WordInfo) (outs : Dev → Mach → Io → List RegWrite)
    (he : ∀ s, exec i s = runWord info (fun dv m io => Eff.ok m (outs dv m io)) s) : writesOnly i info outs :=
  fun s m io h => (he s).trans (runWord_ok info _ s m m io _ h rfl)

/-- A word that interlocks waits one cycle more. -/
theorem runWord_wait (info : WordInfo) (body : Dev → Mach → Io → Eff) (s : State) (m m' : Mach) (io : Io)
    (h : Issues s info m io) (hb : body s.dev m io = Eff.wait m') :
    runWord info body s = .next { s with mach := stallPath m' io none } := by
  rw [runWord_body info body s m io h, hb]
  rfl

/-- A word with a fault of the whole word parks its wave. -/
theorem runWord_fault (info : WordInfo) (body : Dev → Mach → Io → Eff) (s : State) (m m' : Mach) (io : Io) (code : Nat)
    (addr : BitVec 64) (h : Issues s info m io) (hb : body s.dev m io = Eff.fault m' code addr) :
    runWord info body s = .next (parkedAtWord s m' io io.faultLanes ⟨code, addr⟩) := by
  rw [runWord_body info body s m io h, hb]
  simp only [runBody, Eff.fault, Eff.ok, parkedAtWord, List.isEmpty_nil, if_true, if_false, Bool.false_eq_true]

/-- Every compute word answers a next state. -/
theorem runWord_next (info : WordInfo) (body : Dev → Mach → Io → Eff) (s : State) :
    ∃ f, runWord info body s = .next (s.withMach f) := ⟨_, rfl⟩

/-! The machine after a word -/

/-- A wave with its paths, outstanding operations, count of R341 and number of words replaced. -/
def withRun (w : Wave) (ps : List Path) (ds : List Deferred) (n k : Nat) : Wave :=
  { w with paths := ps, deferred := ds, ckCount := n, issueNo := k }

/-- The wave after the queue reads and the register writes of a word. -/
def afterWrites (w : Wave) (io : Io) (info : WordInfo) (e : Eff) : Wave :=
  if info.atOnce then (w.popQueues io.act info.srcs).puts e.outs else w.popQueues io.act info.srcs

theorem issued_eq (w : Wave) (io : Io) (info : WordInfo) (e : Eff) : ∃ ps ds n k,
    w.issued io info e = withRun (afterWrites w io info e) ps ds n k := by
  unfold Wave.issued afterWrites
  by_cases h : info.la = some 0
  · simp only [h, if_true]
    exact ⟨_, _, _, _, rfl⟩
  · simp only [h, if_false]
    exact ⟨_, _, _, _, rfl⟩

theorem withRun_core (w : Wave) (ps : List Path) (ds : List Deferred) (n k : Nat) : (withRun w ps ds n k).core = w.core := rfl

theorem withRun_id (w : Wave) (ps : List Path) (ds : List Deferred) (n k : Nat) : (withRun w ps ds n k).id = w.id := rfl

theorem withRun_lanes (w : Wave) (ps : List Path) (ds : List Deferred) (n k : Nat) :
    (withRun w ps ds n k).lanes = w.lanes := rfl

theorem withRun_s (w : Wave) (ps : List Path) (ds : List Deferred) (n k : Nat) : (withRun w ps ds n k).s = w.s := rfl

theorem afterWrites_core (w : Wave) (io : Io) (info : WordInfo) (e : Eff) : (afterWrites w io info e).core = w.core := by
  unfold afterWrites
  split
  · rw [puts_core]; rfl
  · rfl

theorem afterWrites_id (w : Wave) (io : Io) (info : WordInfo) (e : Eff) : (afterWrites w io info e).id = w.id := by
  unfold afterWrites
  split
  · rw [puts_id]; rfl
  · rfl

@[simp] theorem issued_core (w : Wave) (io : Io) (info : WordInfo) (e : Eff) : (w.issued io info e).core = w.core := by
  obtain ⟨ps, ds, n, k, h⟩ := issued_eq w io info e
  rw [h, withRun_core, afterWrites_core]

@[simp] theorem issued_id (w : Wave) (io : Io) (info : WordInfo) (e : Eff) : (w.issued io info e).id = w.id := by
  obtain ⟨ps, ds, n, k, h⟩ := issued_eq w io info e
  rw [h, withRun_id, afterWrites_id]

theorem issued_lanes (w : Wave) (io : Io) (info : WordInfo) (e : Eff) :
    (w.issued io info e).lanes = (afterWrites w io info e).lanes := by
  obtain ⟨ps, ds, n, k, h⟩ := issued_eq w io info e
  rw [h, withRun_lanes]

theorem issued_s (w : Wave) (io : Io) (info : WordInfo) (e : Eff) :
    (w.issued io info e).s = (afterWrites w io info e).s := by
  obtain ⟨ps, ds, n, k, h⟩ := issued_eq w io info e
  rw [h, withRun_s]

@[simp] theorem wrote_dev (s : State) (m : Mach) (io : Io) (info : WordInfo) (outs : List RegWrite) :
    (wrote s m io info outs).dev = s.dev := rfl

@[simp] theorem wrote_svc (s : State) (m : Mach) (io : Io) (info : WordInfo) (outs : List RegWrite) :
    (wrote s m io info outs).svc = s.svc := rfl

@[simp] theorem wrote_mem (s : State) (m : Mach) (io : Io) (info : WordInfo) (outs : List RegWrite) :
    (wrote s m io info outs).mach.mem = m.mem := rfl

@[simp] theorem settlePath_mem (m : Mach) (w : Wave) (p : Path) : (settlePath m w p).mem = m.mem := rfl

/-- The machine of an issue keeps memory. -/
theorem issues_mem (s : State) (info : WordInfo) (m : Mach) (io : Io) (h : Issues s info m io) : m.mem = s.mach.mem := by
  obtain ⟨-, ⟨w, p, -, rfl⟩, -⟩ := h
  rfl

/-- The wave of an issue after the word. -/
theorem wrote_wave (s : State) (info : WordInfo) (m : Mach) (io : Io) (outs : List RegWrite) (h : Issues s info m io) :
    (wrote s m io info outs).mach.wave io.w.core io.w.id = some (io.w.issued io info (Eff.ok m outs)) := by
  have hw := (curPath_wave m io.w io.p h.stands).1
  simp only [wrote, issued]
  rw [wave_updWave _ _ _ _ (fun w _ => ⟨issued_core w io info _, issued_id w io info _⟩)]
  show (m.wave io.w.core io.w.id).map _ = _
  rw [hw]
  rfl

/-! Registers after writes -/

/-- A write to another destination leaves a main register. -/
theorem put_v (x : Lane) (d : Dest) (val : BitVec 64) (n : Nat) (h : d ≠ .v n) : (x.put d val).v[n]? = x.v[n]? := by
  cases d with
  | v k =>
    have : k ≠ n := fun e => h (by rw [e])
    simp [Lane.put, List.getElem?_set_ne this]
  | p k => simp only [Lane.put]; split <;> rfl
  | _ => rfl

/-- A write to a main register that exists is read back. -/
theorem put_v_same (x : Lane) (val : BitVec 64) (n : Nat) (h : n < x.v.length) :
    (x.put (.v n) val).v[n]? = some (val.setWidth 32) := by
  simp [Lane.put, h]

/-- The lanes of a wave after one write. -/
theorem put_lane (w : Wave) (r : RegWrite) (l : Nat) :
    (w.put r).lane l = match r.dst with
      | .s _ => w.lane l
      | d => if l = r.lane ∧ l < w.lanes.length then (w.lane l).put d r.val else w.lane l := by
  obtain ⟨k, d, val⟩ := r
  have gen : ∀ d : Dest, (w.updLane k fun x => x.put d val).lane l
      = if l = k ∧ l < w.lanes.length then (w.lane l).put d val else w.lane l := by
    intro d
    simp only [Wave.lane, Wave.updLane, updAt, List.getD_eq_getElem?_getD]
    cases hk : w.lanes[k]? with
    | none =>
      have : ¬ (l = k ∧ l < w.lanes.length) := by
        rintro ⟨rfl, hl⟩
        rw [List.getElem?_eq_getElem hl] at hk
        cases hk
      rw [if_neg this]
    | some x =>
      have hlt : k < w.lanes.length := by
        rcases Nat.lt_or_ge k w.lanes.length with h | h
        · exact h
        · rw [List.getElem?_eq_none h] at hk; cases hk
      by_cases hl : l = k
      · subst hl
        rw [List.getElem?_eq_getElem hlt, Option.some.injEq] at hk
        simp [hlt, hk]
      · rw [if_neg (fun h => hl h.1)]
        simp only [List.getElem?_set_ne (fun h : k = l => hl h.symm)]
  cases d <;> first | rfl | exact gen _

/-- A lane that no write of a list names, or names only with scalars, is as before. -/
theorem puts_lane_other (rs : List RegWrite) : ∀ (w : Wave) (l : Nat), (∀ r ∈ rs, r.lane ≠ l) → (w.puts rs).lane l = w.lane l := by
  induction rs with
  | nil => intro w l _; rfl
  | cons r rs ih =>
    intro w l h
    have h1 : (w.put r).lane l = w.lane l := by
      rw [put_lane]
      cases r.dst <;> first | rfl | exact if_neg fun hc => h r (by simp) hc.1.symm
    exact (ih (w.put r) l fun q hq => h q (by simp [hq])).trans h1

/-- A main register that no write names is as before. -/
theorem puts_v_other (rs : List RegWrite) : ∀ (w : Wave) (l n : Nat), (∀ r ∈ rs, ¬ (r.lane = l ∧ r.dst = .v n)) →
    ((w.puts rs).lane l).v[n]? = (w.lane l).v[n]? := by
  induction rs with
  | nil => intro w l n _; rfl
  | cons r rs ih =>
    intro w l n h
    have h1 : ((w.put r).lane l).v[n]? = (w.lane l).v[n]? := by
      rw [put_lane]
      have hr := h r (by simp)
      have : ∀ d : Dest, r.dst = d → (if l = r.lane ∧ l < w.lanes.length then (w.lane l).put d r.val else w.lane l).v[n]?
          = (w.lane l).v[n]? := by
        intro d hd
        split
        · next hc => exact put_v _ _ _ _ fun e => hr ⟨hc.1.symm, hd.trans e⟩
        · rfl
      cases hd : r.dst <;> first | rfl | exact this _ hd
    exact (ih (w.put r) l n fun q hq => h q (by simp [hq])).trans h1

end Sys2Proof.Laws
end

