-- ==== Sys2Proof/Laws/PerInstr.lean ====
section
/-! SUPPORT. Each instruction read back from its own word: the family `RoundTrip` (R161 to R188, R418). -/

namespace Sys2Proof.Laws

set_option Elab.async false

/-- The word of an instruction, with its prefix, decodes to the instruction. -/
def RoundTrip.Statement (i : Instr) : Prop :=
  i.wellFormed = true →
    (∀ w, instrWord i = some w → w < 2 ^ 64 ∧
      match prefixIn i with
      | none => bitsOf w 62 2 ≠ 2 ∧ decodeWord w = .ok i
      | some p => decodeUnit (prefixWord p) w = .ok i) ∧
    (∀ w, serviceWord i = some w → w < 2 ^ 32 ∧ decodeService w = .ok i)

/-- The fields of the word of an instruction decode to it. -/
def ReadsBack (i : Instr) : Prop :=
  ∃ (mj : Nat) (g : Guard) (la d a b low : Nat),
    fullWord i = some (full mj g la d a b low) ∧ mj < 256 ∧ la < 16 ∧ d < 1024 ∧ a < 1024 ∧ b < 1024 ∧ low < 65536 ∧
      decodeFull ⟨0, mj, la, g.pred.val, bit g.neg, d, a, b, low⟩ (prefixIn i) = some i

theorem prefixOf_prefixWord (p : Prefix) : prefixOf (prefixWord p) = some p := by
  have h1 := orderCode_lt p.order
  have h2 := scopeCode_lt p.scope
  have h3 := spaceCode_lt p.space
  have h4 := hintCode_lt p.hint
  have h5 := bit_lt p.code
  have h6 := p.policy.isLt
  have e : prefixWord p = 0 + 2 ^ 49 * (bit p.code + 2 ^ 1 * (hintCode p.hint + 2 ^ 2 * (p.policy.val + 2 ^ 2
      * (spaceCode p.space + 2 ^ 2 * (scopeCode p.scope + 2 ^ 3 * (orderCode p.order + 2 ^ 3 * 2)))))) := by
    rw [Nat.zero_add]; rfl
  have q0 := fun lo n => bitsOf_skip 0 (bit p.code + 2 ^ 1 * (hintCode p.hint + 2 ^ 2 * (p.policy.val + 2 ^ 2
      * (spaceCode p.space + 2 ^ 2 * (scopeCode p.scope + 2 ^ 3 * (orderCode p.order + 2 ^ 3 * 2)))))) 49 lo n (by omega)
  have q1 := fun lo n => bitsOf_skip (bit p.code) (hintCode p.hint + 2 ^ 2 * (p.policy.val + 2 ^ 2
      * (spaceCode p.space + 2 ^ 2 * (scopeCode p.scope + 2 ^ 3 * (orderCode p.order + 2 ^ 3 * 2))))) 1 lo n h5
  have q2 := fun lo n => bitsOf_skip (hintCode p.hint) (p.policy.val + 2 ^ 2
      * (spaceCode p.space + 2 ^ 2 * (scopeCode p.scope + 2 ^ 3 * (orderCode p.order + 2 ^ 3 * 2)))) 2 lo n (by omega)
  have q3 := fun lo n => bitsOf_skip p.policy.val
      (spaceCode p.space + 2 ^ 2 * (scopeCode p.scope + 2 ^ 3 * (orderCode p.order + 2 ^ 3 * 2))) 2 lo n (by omega)
  have q4 := fun lo n => bitsOf_skip (spaceCode p.space) (scopeCode p.scope + 2 ^ 3 * (orderCode p.order + 2 ^ 3 * 2))
      2 lo n (by omega)
  have q5 := fun lo n => bitsOf_skip (scopeCode p.scope) (orderCode p.order + 2 ^ 3 * 2) 3 lo n (by omega)
  have q6 := fun lo n => bitsOf_skip (orderCode p.order) 2 3 lo n (by omega)
  have r0 : bitsOf (prefixWord p) 0 49 = 0 := by rw [e, bitsOf_here _ _ _ (by omega)]
  have r1 : bitsOf (prefixWord p) 49 1 = bit p.code := by rw [e, q0 0 1, bitsOf_here _ _ _ h5]
  have r2 : bitsOf (prefixWord p) 50 2 = hintCode p.hint := by rw [e, q0 1 2, q1 0 2, bitsOf_here _ _ _ (by omega)]
  have r3 : bitsOf (prefixWord p) 52 2 = p.policy.val := by rw [e, q0 3 2, q1 2 2, q2 0 2, bitsOf_here _ _ _ (by omega)]
  have r4 : bitsOf (prefixWord p) 54 2 = spaceCode p.space := by
    rw [e, q0 5 2, q1 4 2, q2 2 2, q3 0 2, bitsOf_here _ _ _ (by omega)]
  have r5 : bitsOf (prefixWord p) 56 3 = scopeCode p.scope := by
    rw [e, q0 7 3, q1 6 3, q2 4 3, q3 2 3, q4 0 3, bitsOf_here _ _ _ (by omega)]
  have r6 : bitsOf (prefixWord p) 59 3 = orderCode p.order := by
    rw [e, q0 10 3, q1 9 3, q2 7 3, q3 5 3, q4 3 3, q5 0 3, bitsOf_here _ _ _ (by omega)]
  have r7 : bitsOf (prefixWord p) 62 2 = 2 := by
    rw [e, q0 13 2, q1 12 2, q2 10 2, q3 8 2, q4 6 2, q5 3 2, q6 0 2]; rfl
  simp [prefixOf, r0, r1, r2, r3, r4, r5, r6, r7]

theorem prefixWord_fmt (p : Prefix) : bitsOf (prefixWord p) 62 2 = 2 := by
  have h := prefixOf_prefixWord p
  by_cases hc : bitsOf (prefixWord p) 62 2 = 2
  · exact hc
  · simp [prefixOf, need, hc] at h

theorem decodeWord_of_full (f : Fields) (i : Instr) (w : Nat) (hd : decodeFull f none = some i) (h0 : bitsOf w 62 2 = 0)
    (hf : fieldsOf w = f) (hw : i.wellFormed = true) : decodeWord w = .ok i := by
  unfold decodeWord
  rw [h0]
  simp only [hf, hd, checked, hw, if_true]

theorem decodeUnit_of_full (f : Fields) (i : Instr) (p : Prefix) (w1 w : Nat) (hd : decodeFull f (some p) = some i)
    (h0 : bitsOf w 62 2 = 0) (hf : fieldsOf w = f) (hw : i.wellFormed = true) (hp : prefixOf w1 = some p)
    (ht : takesPrefix i = true) : decodeUnit w1 w = .ok i := by
  unfold decodeUnit
  rw [hp]
  simp only [h0, hf, hd, checked, hw, ht, if_true, Bool.not_true, Bool.false_eq_true, if_false]

theorem roundTrip_of_full (i : Instr) (hi : instrWord i = fullWord i) (hs : serviceWord i = none)
    (ht : (prefixIn i).isSome = true → takesPrefix i = true) (h : i.wellFormed = true → ReadsBack i) :
    RoundTrip.Statement i := by
  intro hw
  obtain ⟨mj, g, la, d, a, b, low, e, h1, h2, h3, h4, h5, h6, hd⟩ := h hw
  refine ⟨fun w hw' => ?_, fun w h => by simp [hs] at h⟩
  rw [hi, e, Option.some.injEq] at hw'
  subst hw'
  have hf := fieldsOf_full mj g la d a b low h1 h2 h3 h4 h5 h6
  have h0 := full_fmt mj g la d a b low h1 h2 h3 h4 h5 h6
  refine ⟨Nat.lt_trans (full_lt mj g la d a b low h1 h2 h3 h4 h5 h6) (Nat.pow_lt_pow_right (by decide) (by decide)), ?_⟩
  cases hp : prefixIn i with
  | none =>
    rw [hp] at hd
    exact ⟨by rw [h0]; decide, decodeWord_of_full _ i _ hd h0 hf hw⟩
  | some p =>
    rw [hp] at hd
    exact decodeUnit_of_full _ i p _ _ hd h0 hf hw (prefixOf_prefixWord p) (ht (by rw [hp]; rfl))

theorem RoundTrip.add (g : Guard) (ty : Ty) (d a b : Opnd) : RoundTrip.Statement (.add g ty d a b) :=
  roundTrip_of_full _ rfl rfl (by simp [takesPrefix, prefixIn]) fun _ =>
    ⟨_, g, _, _, _, _, _, rfl, by decide, by omega, specOf_lt d, specOf_lt a, specOf_lt b,
      by have := tyCode_lt ty; omega,
      by simp [decodeFull, decodeInt]⟩

theorem RoundTrip.addc (g : Guard) (ty : Ty) (d a b : Opnd) (pc : Fin 7) : RoundTrip.Statement (.addc g ty d a b pc) :=
  roundTrip_of_full _ rfl rfl (by simp [takesPrefix, prefixIn]) fun _ =>
    ⟨_, g, _, _, _, _, _, rfl, by decide, by omega, specOf_lt d, specOf_lt a, specOf_lt b,
      by have := tyCode_lt ty; omega,
      by simp [decodeFull, decodeInt, tyPc_mk 0 _ 0 g.pred.val (bit g.neg) _ _ _ ty pc.val (by omega)]⟩

theorem RoundTrip.sub (g : Guard) (ty : Ty) (d a b : Opnd) : RoundTrip.Statement (.sub g ty d a b) :=
  roundTrip_of_full _ rfl rfl (by simp [takesPrefix, prefixIn]) fun _ =>
    ⟨_, g, _, _, _, _, _, rfl, by decide, by omega, specOf_lt d, specOf_lt a, specOf_lt b,
      by have := tyCode_lt ty; omega,
      by simp [decodeFull, decodeInt]⟩

theorem RoundTrip.subb (g : Guard) (ty : Ty) (d a b : Opnd) (pc : Fin 7) : RoundTrip.Statement (.subb g ty d a b pc) :=
  roundTrip_of_full _ rfl rfl (by simp [takesPrefix, prefixIn]) fun _ =>
    ⟨_, g, _, _, _, _, _, rfl, by decide, by omega, specOf_lt d, specOf_lt a, specOf_lt b,
      by have := tyCode_lt ty; omega,
      by simp [decodeFull, decodeInt, tyPc_mk 0 _ 0 g.pred.val (bit g.neg) _ _ _ ty pc.val (by omega)]⟩

theorem RoundTrip.mul (g : Guard) (ty : Ty) (d a b : Opnd) : RoundTrip.Statement (.mul g ty d a b) :=
  roundTrip_of_full _ rfl rfl (by simp [takesPrefix, prefixIn]) fun _ =>
    ⟨_, g, _, _, _, _, _, rfl, by decide, by omega, specOf_lt d, specOf_lt a, specOf_lt b,
      by have := tyCode_lt ty; omega,
      by simp [decodeFull, decodeInt]⟩

theorem RoundTrip.mulh (g : Guard) (ty : Ty) (d a b : Opnd) : RoundTrip.Statement (.mulh g ty d a b) :=
  roundTrip_of_full _ rfl rfl (by simp [takesPrefix, prefixIn]) fun _ =>
    ⟨_, g, _, _, _, _, _, rfl, by decide, by omega, specOf_lt d, specOf_lt a, specOf_lt b,
      by have := tyCode_lt ty; omega,
      by simp [decodeFull, decodeInt]⟩

theorem RoundTrip.mad (g : Guard) (ty : Ty) (d a b c : Opnd) : RoundTrip.Statement (.mad g ty d a b c) :=
  roundTrip_of_full _ rfl rfl (by simp [takesPrefix, prefixIn]) fun _ =>
    ⟨_, g, _, _, _, _, _, rfl, by decide, by omega, specOf_lt d, specOf_lt a, specOf_lt b,
      by have := tyCode_lt ty; have := specOf_lt c; omega,
      by simp [decodeFull, decodeInt]⟩

theorem RoundTrip.div (g : Guard) (la : Fin 16) (ty : Ty) (trap : Bool) (d a b : Opnd) : RoundTrip.Statement (.div g la ty trap d a b) :=
  roundTrip_of_full _ rfl rfl (by simp [takesPrefix, prefixIn]) fun _ =>
    ⟨_, g, _, _, _, _, _, rfl, by decide, by omega, specOf_lt d, specOf_lt a, specOf_lt b,
      by have := tyCode_lt ty; have := bit_lt trap; omega,
      by simp [decodeFull, decodeInt]⟩

theorem RoundTrip.rem (g : Guard) (la : Fin 16) (ty : Ty) (trap : Bool) (d a b : Opnd) : RoundTrip.Statement (.rem g la ty trap d a b) :=
  roundTrip_of_full _ rfl rfl (by simp [takesPrefix, prefixIn]) fun _ =>
    ⟨_, g, _, _, _, _, _, rfl, by decide, by omega, specOf_lt d, specOf_lt a, specOf_lt b,
      by have := tyCode_lt ty; have := bit_lt trap; omega,
      by simp [decodeFull, decodeInt]⟩

theorem RoundTrip.min (g : Guard) (ty : Ty) (d a b : Opnd) : RoundTrip.Statement (.min g ty d a b) :=
  roundTrip_of_full _ rfl rfl (by simp [takesPrefix, prefixIn]) fun _ =>
    ⟨_, g, _, _, _, _, _, rfl, by decide, by omega, specOf_lt d, specOf_lt a, specOf_lt b,
      by have := tyCode_lt ty; omega,
      by simp [decodeFull, decodeInt]⟩

theorem RoundTrip.max (g : Guard) (ty : Ty) (d a b : Opnd) : RoundTrip.Statement (.max g ty d a b) :=
  roundTrip_of_full _ rfl rfl (by simp [takesPrefix, prefixIn]) fun _ =>
    ⟨_, g, _, _, _, _, _, rfl, by decide, by omega, specOf_lt d, specOf_lt a, specOf_lt b,
      by have := tyCode_lt ty; omega,
      by simp [decodeFull, decodeInt]⟩

theorem RoundTrip.abs (g : Guard) (ty : Ty) (d a : Opnd) : RoundTrip.Statement (.abs g ty d a) :=
  roundTrip_of_full _ rfl rfl (by simp [takesPrefix, prefixIn]) fun _ =>
    ⟨_, g, _, _, _, _, _, rfl, by decide, by omega, specOf_lt d, specOf_lt a, by omega,
      by have := tyCode_lt ty; omega,
      by simp [decodeFull, decodeInt]⟩

theorem RoundTrip.neg (g : Guard) (ty : Ty) (d a : Opnd) : RoundTrip.Statement (.neg g ty d a) :=
  roundTrip_of_full _ rfl rfl (by simp [takesPrefix, prefixIn]) fun _ =>
    ⟨_, g, _, _, _, _, _, rfl, by decide, by omega, specOf_lt d, specOf_lt a, by omega,
      by have := tyCode_lt ty; omega,
      by simp [decodeFull, decodeInt]⟩

theorem RoundTrip.and (g : Guard) (ty : Ty) (d a b : Opnd) : RoundTrip.Statement (.and g ty d a b) :=
  roundTrip_of_full _ rfl rfl (by simp [takesPrefix, prefixIn]) fun _ =>
    ⟨_, g, _, _, _, _, _, rfl, by decide, by omega, specOf_lt d, specOf_lt a, specOf_lt b,
      by have := tyCode_lt ty; omega,
      by simp [decodeFull, decodeInt]⟩

theorem RoundTrip.or (g : Guard) (ty : Ty) (d a b : Opnd) : RoundTrip.Statement (.or g ty d a b) :=
  roundTrip_of_full _ rfl rfl (by simp [takesPrefix, prefixIn]) fun _ =>
    ⟨_, g, _, _, _, _, _, rfl, by decide, by omega, specOf_lt d, specOf_lt a, specOf_lt b,
      by have := tyCode_lt ty; omega,
      by simp [decodeFull, decodeInt]⟩

theorem RoundTrip.xor (g : Guard) (ty : Ty) (d a b : Opnd) : RoundTrip.Statement (.xor g ty d a b) :=
  roundTrip_of_full _ rfl rfl (by simp [takesPrefix, prefixIn]) fun _ =>
    ⟨_, g, _, _, _, _, _, rfl, by decide, by omega, specOf_lt d, specOf_lt a, specOf_lt b,
      by have := tyCode_lt ty; omega,
      by simp [decodeFull, decodeInt]⟩

theorem RoundTrip.andn (g : Guard) (ty : Ty) (d a b : Opnd) : RoundTrip.Statement (.andn g ty d a b) :=
  roundTrip_of_full _ rfl rfl (by simp [takesPrefix, prefixIn]) fun _ =>
    ⟨_, g, _, _, _, _, _, rfl, by decide, by omega, specOf_lt d, specOf_lt a, specOf_lt b,
      by have := tyCode_lt ty; omega,
      by simp [decodeFull, decodeInt]⟩

theorem RoundTrip.shl (g : Guard) (ty : Ty) (d a b : Opnd) : RoundTrip.Statement (.shl g ty d a b) :=
  roundTrip_of_full _ rfl rfl (by simp [takesPrefix, prefixIn]) fun _ =>
    ⟨_, g, _, _, _, _, _, rfl, by decide, by omega, specOf_lt d, specOf_lt a, specOf_lt b,
      by have := tyCode_lt ty; omega,
      by simp [decodeFull, decodeInt]⟩

theorem RoundTrip.shr (g : Guard) (ty : Ty) (d a b : Opnd) : RoundTrip.Statement (.shr g ty d a b) :=
  roundTrip_of_full _ rfl rfl (by simp [takesPrefix, prefixIn]) fun _ =>
    ⟨_, g, _, _, _, _, _, rfl, by decide, by omega, specOf_lt d, specOf_lt a, specOf_lt b,
      by have := tyCode_lt ty; omega,
      by simp [decodeFull, decodeInt]⟩

theorem RoundTrip.sar (g : Guard) (ty : Ty) (d a b : Opnd) : RoundTrip.Statement (.sar g ty d a b) :=
  roundTrip_of_full _ rfl rfl (by simp [takesPrefix, prefixIn]) fun _ =>
    ⟨_, g, _, _, _, _, _, rfl, by decide, by omega, specOf_lt d, specOf_lt a, specOf_lt b,
      by have := tyCode_lt ty; omega,
      by simp [decodeFull, decodeInt]⟩

theorem RoundTrip.rotl (g : Guard) (ty : Ty) (d a b : Opnd) : RoundTrip.Statement (.rotl g ty d a b) :=
  roundTrip_of_full _ rfl rfl (by simp [takesPrefix, prefixIn]) fun _ =>
    ⟨_, g, _, _, _, _, _, rfl, by decide, by omega, specOf_lt d, specOf_lt a, specOf_lt b,
      by have := tyCode_lt ty; omega,
      by simp [decodeFull, decodeInt]⟩

theorem RoundTrip.popc (g : Guard) (ty : Ty) (d a : Opnd) : RoundTrip.Statement (.popc g ty d a) :=
  roundTrip_of_full _ rfl rfl (by simp [takesPrefix, prefixIn]) fun _ =>
    ⟨_, g, _, _, _, _, _, rfl, by decide, by omega, specOf_lt d, specOf_lt a, by omega,
      by have := tyCode_lt ty; omega,
      by simp [decodeFull, decodeInt]⟩

theorem RoundTrip.clz (g : Guard) (ty : Ty) (d a : Opnd) : RoundTrip.Statement (.clz g ty d a) :=
  roundTrip_of_full _ rfl rfl (by simp [takesPrefix, prefixIn]) fun _ =>
    ⟨_, g, _, _, _, _, _, rfl, by decide, by omega, specOf_lt d, specOf_lt a, by omega,
      by have := tyCode_lt ty; omega,
      by simp [decodeFull, decodeInt]⟩

theorem RoundTrip.ctz (g : Guard) (ty : Ty) (d a : Opnd) : RoundTrip.Statement (.ctz g ty d a) :=
  roundTrip_of_full _ rfl rfl (by simp [takesPrefix, prefixIn]) fun _ =>
    ⟨_, g, _, _, _, _, _, rfl, by decide, by omega, specOf_lt d, specOf_lt a, by omega,
      by have := tyCode_lt ty; omega,
      by simp [decodeFull, decodeInt]⟩

theorem RoundTrip.brev (g : Guard) (ty : Ty) (d a : Opnd) : RoundTrip.Statement (.brev g ty d a) :=
  roundTrip_of_full _ rfl rfl (by simp [takesPrefix, prefixIn]) fun _ =>
    ⟨_, g, _, _, _, _, _, rfl, by decide, by omega, specOf_lt d, specOf_lt a, by omega,
      by have := tyCode_lt ty; omega,
      by simp [decodeFull, decodeInt]⟩

theorem RoundTrip.bfx (g : Guard) (ty : Ty) (pos len1 : Fin 64) (d a : Opnd) : RoundTrip.Statement (.bfx g ty pos len1 d a) :=
  roundTrip_of_full _ rfl rfl (by simp [takesPrefix, prefixIn]) fun _ =>
    ⟨_, g, _, _, _, _, _, rfl, by decide, by omega, specOf_lt d, specOf_lt a, by omega,
      by have := tyCode_lt ty; omega,
      by simp [decodeFull, decodeInt]⟩

theorem RoundTrip.bfi (g : Guard) (ty : Ty) (pos len1 : Fin 64) (d a b : Opnd) : RoundTrip.Statement (.bfi g ty pos len1 d a b) :=
  roundTrip_of_full _ rfl rfl (by simp [takesPrefix, prefixIn]) fun _ =>
    ⟨_, g, _, _, _, _, _, rfl, by decide, by omega, specOf_lt d, specOf_lt a, specOf_lt b,
      by have := tyCode_lt ty; omega,
      by simp [decodeFull, decodeInt]⟩

theorem RoundTrip.sel (g : Guard) (ty : Ty) (d a b : Opnd) (pc : Fin 8) : RoundTrip.Statement (.sel g ty d a b pc) :=
  roundTrip_of_full _ rfl rfl (by simp [takesPrefix, prefixIn]) fun _ =>
    ⟨_, g, _, _, _, _, _, rfl, by decide, by omega, specOf_lt d, specOf_lt a, specOf_lt b,
      by have := tyCode_lt ty; omega,
      by simp [decodeFull, decodeInt]⟩

theorem RoundTrip.cmp (g : Guard) (ty : Ty) (cond : Cond) (d : Fin 8) (a b : Opnd) : RoundTrip.Statement (.cmp g ty cond d a b) :=
  roundTrip_of_full _ rfl rfl (by simp [takesPrefix, prefixIn]) fun _ =>
    ⟨_, g, _, _, _, _, _, rfl, by decide, by omega, by omega, specOf_lt a, specOf_lt b,
      by have := tyCode_lt ty; have := condCode_lt cond; omega,
      by simp [decodeFull, decodeInt]⟩

theorem RoundTrip.pand (g : Guard) (d a b : Fin 8) : RoundTrip.Statement (.pand g d a b) :=
  roundTrip_of_full _ rfl rfl (by simp [takesPrefix, prefixIn]) fun _ =>
    ⟨_, g, _, _, _, _, _, rfl, by decide, by omega, by omega, by omega, by omega,
      by omega,
      by simp [decodeFull, decodeInt, bitsOf]⟩

theorem RoundTrip.por (g : Guard) (d a b : Fin 8) : RoundTrip.Statement (.por g d a b) :=
  roundTrip_of_full _ rfl rfl (by simp [takesPrefix, prefixIn]) fun _ =>
    ⟨_, g, _, _, _, _, _, rfl, by decide, by omega, by omega, by omega, by omega,
      by omega,
      by simp [decodeFull, decodeInt, bitsOf]⟩

theorem RoundTrip.pxor (g : Guard) (d a b : Fin 8) : RoundTrip.Statement (.pxor g d a b) :=
  roundTrip_of_full _ rfl rfl (by simp [takesPrefix, prefixIn]) fun _ =>
    ⟨_, g, _, _, _, _, _, rfl, by decide, by omega, by omega, by omega, by omega,
      by omega,
      by simp [decodeFull, decodeInt, bitsOf]⟩

theorem RoundTrip.pnot (g : Guard) (d a : Fin 8) : RoundTrip.Statement (.pnot g d a) :=
  roundTrip_of_full _ rfl rfl (by simp [takesPrefix, prefixIn]) fun _ =>
    ⟨_, g, _, _, _, _, _, rfl, by decide, by omega, by omega, by omega, by omega,
      by omega,
      by simp [decodeFull, decodeInt, bitsOf]⟩

theorem RoundTrip.mov (g : Guard) (ty : Ty) (d a : Opnd) : RoundTrip.Statement (.mov g ty d a) :=
  roundTrip_of_full _ rfl rfl (by simp [takesPrefix, prefixIn]) fun _ =>
    ⟨_, g, _, _, _, _, _, rfl, by decide, by omega, specOf_lt d, specOf_lt a, by omega,
      by have := tyCode_lt ty; omega,
      by simp [decodeFull, decodeInt]⟩

theorem RoundTrip.movi (g : Guard) (d : Opnd) (imm : BitVec 26) : RoundTrip.Statement (.movi g d imm) :=
  roundTrip_of_full _ rfl rfl (by simp [takesPrefix, prefixIn]) fun _ =>
    ⟨_, g, _, _, _, _, _, rfl, by decide, by omega, specOf_lt d, by omega, by omega,
      by omega,
      by simp [decodeFull, decodeInt, Nat.mod_add_div]⟩

theorem RoundTrip.movh (g : Guard) (d : Opnd) (imm : BitVec 16) (pos : Fin 4) : RoundTrip.Statement (.movh g d imm pos) :=
  roundTrip_of_full _ rfl rfl (by simp [takesPrefix, prefixIn]) fun _ =>
    ⟨_, g, _, _, _, _, _, rfl, by decide, by omega, specOf_lt d, by omega, by omega,
      by omega,
      by simp [decodeFull, decodeInt]⟩

theorem RoundTrip.lea (g : Guard) (ty : Ty) (d a b : Opnd) (sh : Fin 16) : RoundTrip.Statement (.lea g ty d a b sh) :=
  roundTrip_of_full _ rfl rfl (by simp [takesPrefix, prefixIn]) fun _ =>
    ⟨_, g, _, _, _, _, _, rfl, by decide, by omega, specOf_lt d, specOf_lt a, specOf_lt b,
      by have := tyCode_lt ty; omega,
      by simp [decodeFull, decodeInt]⟩

theorem RoundTrip.cvti (g : Guard) (dt st : Ty) (sat : Bool) (d a : Opnd) : RoundTrip.Statement (.cvti g dt st sat d a) :=
  roundTrip_of_full _ rfl rfl (by simp [takesPrefix, prefixIn]) fun _ =>
    ⟨_, g, _, _, _, _, _, rfl, by decide, by omega, specOf_lt d, specOf_lt a, by omega,
      by have := tyCode_lt dt; have := tyCode_lt st; have := bit_lt sat; omega,
      by simp [decodeFull, decodeInt]⟩

theorem RoundTrip.fadd (g : Guard) (ft : FFmt) (rm : RMode) (ftz : Bool) (d a b : Opnd) : RoundTrip.Statement (.fadd g ft rm ftz d a b) :=
  roundTrip_of_full _ rfl rfl (by simp [takesPrefix, prefixIn]) fun _ =>
    ⟨_, g, _, _, _, _, _, rfl, by decide, by omega, specOf_lt d, specOf_lt a, specOf_lt b,
      by have := ffmtCode_lt ft; have := rmCode_lt rm; have := bit_lt ftz; omega,
      by simp [decodeFull, decodeFloat]⟩

theorem RoundTrip.fsub (g : Guard) (ft : FFmt) (rm : RMode) (ftz : Bool) (d a b : Opnd) : RoundTrip.Statement (.fsub g ft rm ftz d a b) :=
  roundTrip_of_full _ rfl rfl (by simp [takesPrefix, prefixIn]) fun _ =>
    ⟨_, g, _, _, _, _, _, rfl, by decide, by omega, specOf_lt d, specOf_lt a, specOf_lt b,
      by have := ffmtCode_lt ft; have := rmCode_lt rm; have := bit_lt ftz; omega,
      by simp [decodeFull, decodeFloat]⟩

theorem RoundTrip.fmul (g : Guard) (ft : FFmt) (rm : RMode) (ftz : Bool) (d a b : Opnd) : RoundTrip.Statement (.fmul g ft rm ftz d a b) :=
  roundTrip_of_full _ rfl rfl (by simp [takesPrefix, prefixIn]) fun _ =>
    ⟨_, g, _, _, _, _, _, rfl, by decide, by omega, specOf_lt d, specOf_lt a, specOf_lt b,
      by have := ffmtCode_lt ft; have := rmCode_lt rm; have := bit_lt ftz; omega,
      by simp [decodeFull, decodeFloat]⟩

theorem RoundTrip.ffma (g : Guard) (rm : RMode) (ftz : Bool) (d a b c : Opnd) : RoundTrip.Statement (.ffma g rm ftz d a b c) :=
  roundTrip_of_full _ rfl rfl (by simp [takesPrefix, prefixIn]) fun _ =>
    ⟨_, g, _, _, _, _, _, rfl, by decide, by omega, specOf_lt d, specOf_lt a, specOf_lt b,
      by have := rmCode_lt rm; have := bit_lt ftz; have := specOf_lt c; omega,
      by simp [decodeFull, decodeFloat]⟩

theorem RoundTrip.hfma2 (g : Guard) (half : Bool) (rm : RMode) (ftz : Bool) (d a b c : Opnd) : RoundTrip.Statement (.hfma2 g half rm ftz d a b c) :=
  roundTrip_of_full _ rfl rfl (by simp [takesPrefix, prefixIn]) fun _ =>
    ⟨_, g, _, _, _, _, _, rfl, by decide, by omega, specOf_lt d, specOf_lt a, specOf_lt b,
      by have := rmCode_lt rm; have := bit_lt ftz; have := bit_lt half; have := specOf_lt c; omega,
      by simp only [decodeFull, decodeFloat, f3_zz, noLa_mk, dab_mk, guard_mk]; cases half <;> cases ftz <;> simp [bit]⟩

theorem RoundTrip.fmin (g : Guard) (ft : FFmt) (ftz : Bool) (d a b : Opnd) : RoundTrip.Statement (.fmin g ft ftz d a b) :=
  roundTrip_of_full _ rfl rfl (by simp [takesPrefix, prefixIn]) fun _ =>
    ⟨_, g, _, _, _, _, _, rfl, by decide, by omega, specOf_lt d, specOf_lt a, specOf_lt b,
      by have := ffmtCode_lt ft; have := bit_lt ftz; omega,
      by simp [decodeFull, decodeFloat]⟩

theorem RoundTrip.fmax (g : Guard) (ft : FFmt) (ftz : Bool) (d a b : Opnd) : RoundTrip.Statement (.fmax g ft ftz d a b) :=
  roundTrip_of_full _ rfl rfl (by simp [takesPrefix, prefixIn]) fun _ =>
    ⟨_, g, _, _, _, _, _, rfl, by decide, by omega, specOf_lt d, specOf_lt a, specOf_lt b,
      by have := ffmtCode_lt ft; have := bit_lt ftz; omega,
      by simp [decodeFull, decodeFloat]⟩

theorem RoundTrip.fcmp (g : Guard) (ft : FFmt) (cond : FCond) (ftz : Bool) (d : Fin 8) (a b : Opnd) : RoundTrip.Statement (.fcmp g ft cond ftz d a b) :=
  roundTrip_of_full _ rfl rfl (by simp [takesPrefix, prefixIn]) fun _ =>
    ⟨_, g, _, _, _, _, _, rfl, by decide, by omega, by omega, specOf_lt a, specOf_lt b,
      by have := ffmtCode_lt ft; have := bit_lt ftz; have := fcondCode_lt cond; omega,
      by simp [decodeFull, decodeFloat]⟩

theorem RoundTrip.fclass (g : Guard) (ft : FFmt) (d a : Opnd) : RoundTrip.Statement (.fclass g ft d a) :=
  roundTrip_of_full _ rfl rfl (by simp [takesPrefix, prefixIn]) fun _ =>
    ⟨_, g, _, _, _, _, _, rfl, by decide, by omega, specOf_lt d, specOf_lt a, by omega,
      by have := ffmtCode_lt ft; omega,
      by simp [decodeFull, decodeFloat]⟩

theorem RoundTrip.frcpa (g : Guard) (la : Fin 16) (ftz : Bool) (d a : Opnd) : RoundTrip.Statement (.frcpa g la ftz d a) :=
  roundTrip_of_full _ rfl rfl (by simp [takesPrefix, prefixIn]) fun _ =>
    ⟨_, g, _, _, _, _, _, rfl, by decide, by omega, specOf_lt d, specOf_lt a, by omega,
      by have := bit_lt ftz; omega,
      by simp [decodeFull, decodeFloat]⟩

theorem RoundTrip.frsqa (g : Guard) (la : Fin 16) (ftz : Bool) (d a : Opnd) : RoundTrip.Statement (.frsqa g la ftz d a) :=
  roundTrip_of_full _ rfl rfl (by simp [takesPrefix, prefixIn]) fun _ =>
    ⟨_, g, _, _, _, _, _, rfl, by decide, by omega, specOf_lt d, specOf_lt a, by omega,
      by have := bit_lt ftz; omega,
      by simp [decodeFull, decodeFloat]⟩

theorem RoundTrip.fsqrt (g : Guard) (la : Fin 16) (ft : FFmt) (rm : RMode) (ftz : Bool) (d a : Opnd) : RoundTrip.Statement (.fsqrt g la ft rm ftz d a) :=
  roundTrip_of_full _ rfl rfl (by simp [takesPrefix, prefixIn]) fun _ =>
    ⟨_, g, _, _, _, _, _, rfl, by decide, by omega, specOf_lt d, specOf_lt a, by omega,
      by have := ffmtCode_lt ft; have := rmCode_lt rm; have := bit_lt ftz; omega,
      by simp [decodeFull, decodeFloat]⟩

theorem RoundTrip.fdiv (g : Guard) (la : Fin 16) (ft : FFmt) (rm : RMode) (ftz : Bool) (d a b : Opnd) : RoundTrip.Statement (.fdiv g la ft rm ftz d a b) :=
  roundTrip_of_full _ rfl rfl (by simp [takesPrefix, prefixIn]) fun _ =>
    ⟨_, g, _, _, _, _, _, rfl, by decide, by omega, specOf_lt d, specOf_lt a, specOf_lt b,
      by have := ffmtCode_lt ft; have := rmCode_lt rm; have := bit_lt ftz; omega,
      by simp [decodeFull, decodeFloat]⟩

theorem RoundTrip.fexp2 (g : Guard) (la : Fin 16) (rm : RMode) (ftz : Bool) (d a : Opnd) : RoundTrip.Statement (.fexp2 g la rm ftz d a) :=
  roundTrip_of_full _ rfl rfl (by simp [takesPrefix, prefixIn]) fun _ =>
    ⟨_, g, _, _, _, _, _, rfl, by decide, by omega, specOf_lt d, specOf_lt a, by omega,
      by have := rmCode_lt rm; have := bit_lt ftz; omega,
      by simp [decodeFull, decodeFloat]⟩

theorem RoundTrip.flog2 (g : Guard) (la : Fin 16) (rm : RMode) (ftz : Bool) (d a : Opnd) : RoundTrip.Statement (.flog2 g la rm ftz d a) :=
  roundTrip_of_full _ rfl rfl (by simp [takesPrefix, prefixIn]) fun _ =>
    ⟨_, g, _, _, _, _, _, rfl, by decide, by omega, specOf_lt d, specOf_lt a, by omega,
      by have := rmCode_lt rm; have := bit_lt ftz; omega,
      by simp [decodeFull, decodeFloat]⟩

theorem RoundTrip.fsin (g : Guard) (la : Fin 16) (rm : RMode) (ftz : Bool) (d a : Opnd) : RoundTrip.Statement (.fsin g la rm ftz d a) :=
  roundTrip_of_full _ rfl rfl (by simp [takesPrefix, prefixIn]) fun _ =>
    ⟨_, g, _, _, _, _, _, rfl, by decide, by omega, specOf_lt d, specOf_lt a, by omega,
      by have := rmCode_lt rm; have := bit_lt ftz; omega,
      by simp [decodeFull, decodeFloat]⟩

theorem RoundTrip.fcos (g : Guard) (la : Fin 16) (rm : RMode) (ftz : Bool) (d a : Opnd) : RoundTrip.Statement (.fcos g la rm ftz d a) :=
  roundTrip_of_full _ rfl rfl (by simp [takesPrefix, prefixIn]) fun _ =>
    ⟨_, g, _, _, _, _, _, rfl, by decide, by omega, specOf_lt d, specOf_lt a, by omega,
      by have := rmCode_lt rm; have := bit_lt ftz; omega,
      by simp [decodeFull, decodeFloat]⟩

theorem RoundTrip.ftanh (g : Guard) (la : Fin 16) (rm : RMode) (ftz : Bool) (d a : Opnd) : RoundTrip.Statement (.ftanh g la rm ftz d a) :=
  roundTrip_of_full _ rfl rfl (by simp [takesPrefix, prefixIn]) fun _ =>
    ⟨_, g, _, _, _, _, _, rfl, by decide, by omega, specOf_lt d, specOf_lt a, by omega,
      by have := rmCode_lt rm; have := bit_lt ftz; omega,
      by simp [decodeFull, decodeFloat]⟩

theorem RoundTrip.cvtf (g : Guard) (dt st : FFmt) (rm : RMode) (ftz nan : Bool) (d a : Opnd) (b : Option Opnd) : RoundTrip.Statement (.cvtf g dt st rm ftz nan d a b) := by
  cases b with
  | none =>
    exact roundTrip_of_full _ rfl rfl (by simp [takesPrefix, prefixIn]) fun hw =>
      ⟨0x31, g, 0, specOf d, specOf a, 0, 4096 * ffmtCode dt + 256 * ffmtCode st + 64 * rmCode rm + 32 * bit ftz + 16 * bit nan,
        rfl, by decide, by omega, specOf_lt d, specOf_lt a, by decide,
        by have := ffmtCode_lt dt; have := ffmtCode_lt st; have := rmCode_lt rm; have := bit_lt ftz; have := bit_lt nan; omega,
        by
          change (dt != st && (!nan || !dt.arith) && d.dst 32 && a.src 32 && (dt.arith && st.arith)) = true at hw
          simp only [Bool.and_eq_true] at hw
          simp [decodeFull, decodeFloat, hw.2.1, hw.2.2]⟩
  | some o =>
    exact roundTrip_of_full _ rfl rfl (by simp [takesPrefix, prefixIn]) fun hw =>
      ⟨0x31, g, 0, specOf d, specOf a, specOf o, 4096 * ffmtCode dt + 256 * ffmtCode st + 64 * rmCode rm + 32 * bit ftz + 16 * bit nan,
        rfl, by decide, by omega, specOf_lt d, specOf_lt a, specOf_lt o,
        by have := ffmtCode_lt dt; have := ffmtCode_lt st; have := rmCode_lt rm; have := bit_lt ftz; have := bit_lt nan; omega,
        by
          change (dt != st && (!nan || !dt.arith) && d.dst 32 && a.src 32 && (!(dt.arith && st.arith) && o.src 32)) = true at hw
          simp only [Bool.and_eq_true, Bool.not_eq_true'] at hw
          have h : (dt.arith && st.arith) = false := hw.2.1
          simp [decodeFull, decodeFloat]
          intro h1 h2
          simp [h1, h2] at h⟩

theorem RoundTrip.cvtfi (g : Guard) (ty : Ty) (ft : FFmt) (rm : RMode) (ftz : Bool) (d a : Opnd) : RoundTrip.Statement (.cvtfi g ty ft rm ftz d a) :=
  roundTrip_of_full _ rfl rfl (by simp [takesPrefix, prefixIn]) fun _ =>
    ⟨_, g, _, _, _, _, _, rfl, by decide, by omega, specOf_lt d, specOf_lt a, by omega,
      by have := tyCode_lt ty; have := ffmtCode_lt ft; have := rmCode_lt rm; have := bit_lt ftz; omega,
      by simp [decodeFull, decodeFloat]⟩

theorem RoundTrip.cvtif (g : Guard) (ft : FFmt) (ty : Ty) (rm : RMode) (d a : Opnd) : RoundTrip.Statement (.cvtif g ft ty rm d a) :=
  roundTrip_of_full _ rfl rfl (by simp [takesPrefix, prefixIn]) fun _ =>
    ⟨_, g, _, _, _, _, _, rfl, by decide, by omega, specOf_lt d, specOf_lt a, by omega,
      by have := ffmtCode_lt ft; have := tyCode_lt ty; have := rmCode_lt rm; omega,
      by simp [decodeFull, decodeFloat]⟩

theorem RoundTrip.frnd (g : Guard) (ft : FFmt) (rm : RMode) (ftz : Bool) (d a : Opnd) : RoundTrip.Statement (.frnd g ft rm ftz d a) :=
  roundTrip_of_full _ rfl rfl (by simp [takesPrefix, prefixIn]) fun _ =>
    ⟨_, g, _, _, _, _, _, rfl, by decide, by omega, specOf_lt d, specOf_lt a, by omega,
      by have := ffmtCode_lt ft; have := rmCode_lt rm; have := bit_lt ftz; omega,
      by simp [decodeFull, decodeFloat]⟩

theorem RoundTrip.dot4 (g : Guard) (fa fb : Fin 4) (rm : RMode) (d a b c : Opnd) : RoundTrip.Statement (.dot4 g fa fb rm d a b c) :=
  roundTrip_of_full _ rfl rfl (by simp [takesPrefix, prefixIn]) fun _ =>
    ⟨_, g, _, _, _, _, _, rfl, by decide, by omega, specOf_lt d, specOf_lt a, specOf_lt b,
      by have := rmCode_lt rm; have := specOf_lt c; omega,
      by
        simp [decodeFull, decodeNarrow]
        exact ⟨Fin.ext (show (4 * fa.val + fb.val) / 4 % 4 = fa.val by omega),
          Fin.ext (show fb.val % 4 % 4 = fb.val by omega)⟩⟩

theorem RoundTrip.dot8 (g : Guard) (fa fb : Fin 4) (rm : RMode) (d a b c : Opnd) : RoundTrip.Statement (.dot8 g fa fb rm d a b c) :=
  roundTrip_of_full _ rfl rfl (by simp [takesPrefix, prefixIn]) fun _ =>
    ⟨_, g, _, _, _, _, _, rfl, by decide, by omega, specOf_lt d, specOf_lt a, specOf_lt b,
      by have := rmCode_lt rm; have := specOf_lt c; omega,
      by
        simp [decodeFull, decodeNarrow]
        exact ⟨Fin.ext (show (4 * fa.val + fb.val) / 4 % 4 = fa.val by omega),
          Fin.ext (show fb.val % 4 % 4 = fb.val by omega)⟩⟩

theorem RoundTrip.qnt (g : Guard) (ef : EFmt) (rm : RMode) (nan : Bool) (tab : Fin 4) (d a b : Opnd) : RoundTrip.Statement (.qnt g ef rm nan tab d a b) :=
  roundTrip_of_full _ rfl rfl (by simp [takesPrefix, prefixIn]) fun _ =>
    ⟨_, g, _, _, _, _, _, rfl, by decide, by omega, specOf_lt d, specOf_lt a, specOf_lt b,
      by have := efmtCode_lt ef; have := rmCode_lt rm; have := bit_lt nan; omega,
      by simp [decodeFull, decodeNarrow]⟩

theorem RoundTrip.dqnt (g : Guard) (ef : EFmt) (tab : Fin 4) (d a b : Opnd) : RoundTrip.Statement (.dqnt g ef tab d a b) :=
  roundTrip_of_full _ rfl rfl (by simp [takesPrefix, prefixIn]) fun _ =>
    ⟨_, g, _, _, _, _, _, rfl, by decide, by omega, specOf_lt d, specOf_lt a, specOf_lt b,
      by have := efmtCode_lt ef; omega,
      by simp [decodeFull, decodeNarrow]⟩

theorem RoundTrip.bscl (g : Guard) (ef : EFmt) (d a : Opnd) : RoundTrip.Statement (.bscl g ef d a) :=
  roundTrip_of_full _ rfl rfl (by simp [takesPrefix, prefixIn]) fun _ =>
    ⟨_, g, _, _, _, _, _, rfl, by decide, by omega, specOf_lt d, specOf_lt a, by omega,
      by have := efmtCode_lt ef; omega,
      by simp [decodeFull, decodeNarrow]⟩

theorem RoundTrip.pkb (g : Guard) (esz : Fin 3) (pos : Fin 16) (d a : Opnd) : RoundTrip.Statement (.pkb g esz pos d a) :=
  roundTrip_of_full _ rfl rfl (by simp [takesPrefix, prefixIn]) fun _ =>
    ⟨_, g, _, _, _, _, _, rfl, by decide, by omega, specOf_lt d, specOf_lt a, by omega,
      by omega,
      by simp [decodeFull, decodeNarrow]⟩

theorem RoundTrip.upkb (g : Guard) (esz : Fin 3) (pos : Fin 16) (d a : Opnd) : RoundTrip.Statement (.upkb g esz pos d a) :=
  roundTrip_of_full _ rfl rfl (by simp [takesPrefix, prefixIn]) fun _ =>
    ⟨_, g, _, _, _, _, _, rfl, by decide, by omega, specOf_lt d, specOf_lt a, by omega,
      by omega,
      by simp [decodeFull, decodeNarrow]⟩

theorem RoundTrip.blkld (g : Guard) (la : Fin 16) (pre : Option Prefix) (d a : Opnd) : RoundTrip.Statement (.blkld g la pre d a) :=
  roundTrip_of_full _ rfl rfl (by simp [takesPrefix, prefixIn]) fun _ =>
    ⟨_, g, _, _, _, _, _, rfl, by decide, by omega, specOf_lt d, specOf_lt a, by omega,
      by omega,
      by simp [decodeFull, decodeNarrow, prefixIn]⟩

theorem RoundTrip.blkst (g : Guard) (pre : Option Prefix) (a b : Opnd) : RoundTrip.Statement (.blkst g pre a b) :=
  roundTrip_of_full _ rfl rfl (by simp [takesPrefix, prefixIn]) fun _ =>
    ⟨_, g, _, _, _, _, _, rfl, by decide, by omega, by omega, specOf_lt a, specOf_lt b,
      by omega,
      by simp [decodeFull, decodeNarrow, prefixIn]⟩

theorem RoundTrip.mxld (g : Guard) (la : Fin 16) (pre : Option Prefix) (ef : EFmt) (rm : RMode) (d a b : Opnd) : RoundTrip.Statement (.mxld g la pre ef rm d a b) :=
  roundTrip_of_full _ rfl rfl (by simp [takesPrefix, prefixIn]) fun _ =>
    ⟨_, g, _, _, _, _, _, rfl, by decide, by omega, specOf_lt d, specOf_lt a, specOf_lt b,
      by have := efmtCode_lt ef; have := rmCode_lt rm; omega,
      by simp [decodeFull, decodeNarrow, prefixIn]⟩

theorem RoundTrip.mxst (g : Guard) (pre : Option Prefix) (ef : EFmt) (rm : RMode) (nan : Bool) (x a b : Opnd) : RoundTrip.Statement (.mxst g pre ef rm nan x a b) :=
  roundTrip_of_full _ rfl rfl (by simp [takesPrefix, prefixIn]) fun _ =>
    ⟨_, g, _, _, _, _, _, rfl, by decide, by omega, specOf_lt x, specOf_lt a, specOf_lt b,
      by have := efmtCode_lt ef; have := rmCode_lt rm; have := bit_lt nan; omega,
      by simp [decodeFull, decodeNarrow, prefixIn]⟩

theorem RoundTrip.ctab (g : Guard) (pre : Option Prefix) (tab : Fin 4) (a : Opnd) : RoundTrip.Statement (.ctab g pre tab a) :=
  roundTrip_of_full _ rfl rfl (by simp [takesPrefix, prefixIn]) fun _ =>
    ⟨_, g, _, _, _, _, _, rfl, by decide, by omega, by omega, specOf_lt a, by omega,
      by omega,
      by simp [decodeFull, decodeNarrow, prefixIn]⟩

theorem RoundTrip.shfl (g : Guard) (mode : ShflMode) (ty : Ty) (sub : SubW) (d a b : Opnd) : RoundTrip.Statement (.shfl g mode ty sub d a b) :=
  roundTrip_of_full _ rfl rfl (by simp [takesPrefix, prefixIn]) fun _ =>
    ⟨_, g, _, _, _, _, _, rfl, by decide, by omega, specOf_lt d, specOf_lt a, specOf_lt b,
      by have := tyCode_lt ty; have := shflCode_lt mode; have := subwCode_lt sub; omega,
      by simp [decodeFull, decodeNarrow]⟩

theorem RoundTrip.vote (g : Guard) (mode : VoteMode) (sub : SubW) (d : Opnd) (a : Fin 8) : RoundTrip.Statement (.vote g mode sub d a) :=
  roundTrip_of_full _ rfl rfl (by simp [takesPrefix, prefixIn]) fun _ =>
    ⟨_, g, _, _, _, _, _, rfl, by decide, by omega, specOf_lt d, by omega, by omega,
      by have := voteCode_lt mode; have := subwCode_lt sub; omega,
      by simp [decodeFull, decodeNarrow]⟩

theorem RoundTrip.lred (g : Guard) (op : RedOp) (sub : SubW) (d a : Opnd) : RoundTrip.Statement (.lred g op sub d a) :=
  roundTrip_of_full _ rfl rfl (by simp [takesPrefix, prefixIn]) fun _ =>
    ⟨_, g, _, _, _, _, _, rfl, by decide, by omega, specOf_lt d, specOf_lt a, by omega,
      by have := redLow_lt op; have := subwCode_lt sub; omega,
      by simpa [decodeFull, decodeNarrow] using ln_red 0 _ 0 _ _ _ _ _ op sub fun op sub => some (.lred g op sub d a)⟩

theorem RoundTrip.lscan (g : Guard) (op : RedOp) (sub : SubW) (d a : Opnd) : RoundTrip.Statement (.lscan g op sub d a) :=
  roundTrip_of_full _ rfl rfl (by simp [takesPrefix, prefixIn]) fun _ =>
    ⟨_, g, _, _, _, _, _, rfl, by decide, by omega, specOf_lt d, specOf_lt a, by omega,
      by have := redLow_lt op; have := subwCode_lt sub; omega,
      by simpa [decodeFull, decodeNarrow] using ln_red 0 _ 0 _ _ _ _ _ op sub fun op sub => some (.lscan g op sub d a)⟩

theorem RoundTrip.matchL (g : Guard) (all : Bool) (ty : Ty) (sub : SubW) (d a : Opnd) : RoundTrip.Statement (.matchL g all ty sub d a) :=
  roundTrip_of_full _ rfl rfl (by simp [takesPrefix, prefixIn]) fun _ =>
    ⟨_, g, _, _, _, _, _, rfl, by decide, by omega, specOf_lt d, specOf_lt a, by omega,
      by have := tyCode_lt ty; have := bit_lt all; have := subwCode_lt sub; omega,
      by simp [decodeFull, decodeNarrow, bit_lt, bit_le]⟩

theorem RoundTrip.ld (g : Guard) (la : Fin 16) (pre : Option Prefix) (sz : Sz) (off : BitVec 12) (d a : Opnd) : RoundTrip.Statement (.ld g la pre sz off d a) :=
  roundTrip_of_full _ rfl rfl (by simp [takesPrefix, prefixIn]) fun _ =>
    ⟨_, g, _, _, _, _, _, rfl, by decide, by omega, specOf_lt d, specOf_lt a, by omega,
      by have := szCode_lt sz; omega,
      by simp [decodeFull, decodeMem, prefixIn]⟩

theorem RoundTrip.st (g : Guard) (pre : Option Prefix) (sz : Sz) (off : BitVec 12) (a b : Opnd) : RoundTrip.Statement (.st g pre sz off a b) :=
  roundTrip_of_full _ rfl rfl (by simp [takesPrefix, prefixIn]) fun _ =>
    ⟨_, g, _, _, _, _, _, rfl, by decide, by omega, by omega, specOf_lt a, specOf_lt b,
      by have := szCode_lt sz; omega,
      by simp [decodeFull, decodeMem, prefixIn]⟩

theorem RoundTrip.lds (g : Guard) (la : Fin 16) (pre : Option Prefix) (sz : Sz) (form : MForm) (d a : Opnd) : RoundTrip.Statement (.lds g la pre sz form d a) :=
  roundTrip_of_full _ rfl rfl (by simp [takesPrefix, prefixIn]) fun _ =>
    ⟨_, g, _, _, _, _, _, rfl, by decide, by omega, specOf_lt d, specOf_lt a, by omega,
      by have := szCode_lt sz; have := mformLow_lt form; omega,
      by simp [decodeFull, decodeMem, prefixIn]⟩

theorem RoundTrip.sts (g : Guard) (pre : Option Prefix) (sz : Sz) (form : MForm) (a b : Opnd) : RoundTrip.Statement (.sts g pre sz form a b) :=
  roundTrip_of_full _ rfl rfl (by simp [takesPrefix, prefixIn]) fun _ =>
    ⟨_, g, _, _, _, _, _, rfl, by decide, by omega, by omega, specOf_lt a, specOf_lt b,
      by have := szCode_lt sz; have := mformLow_lt form; omega,
      by simp [decodeFull, decodeMem, prefixIn]⟩

theorem RoundTrip.ldb (g : Guard) (la : Fin 16) (pre : Option Prefix) (sz : Sz) (form : MForm) (d a : Opnd) : RoundTrip.Statement (.ldb g la pre sz form d a) :=
  roundTrip_of_full _ rfl rfl (by simp [takesPrefix, prefixIn]) fun _ =>
    ⟨_, g, _, _, _, _, _, rfl, by decide, by omega, specOf_lt d, specOf_lt a, by omega,
      by have := szCode_lt sz; have := mformLow_lt form; omega,
      by simp [decodeFull, decodeMem, prefixIn]⟩

theorem RoundTrip.stb (g : Guard) (pre : Option Prefix) (sz : Sz) (form : MForm) (a b : Opnd) : RoundTrip.Statement (.stb g pre sz form a b) :=
  roundTrip_of_full _ rfl rfl (by simp [takesPrefix, prefixIn]) fun _ =>
    ⟨_, g, _, _, _, _, _, rfl, by decide, by omega, by omega, specOf_lt a, specOf_lt b,
      by have := szCode_lt sz; have := mformLow_lt form; omega,
      by simp [decodeFull, decodeMem, prefixIn]⟩

theorem RoundTrip.ldq (g : Guard) (pre : Option Prefix) (sz : Sz) (off : BitVec 12) (q : Fin 12) (a : Opnd) : RoundTrip.Statement (.ldq g pre sz off q a) :=
  roundTrip_of_full _ rfl rfl (by simp [takesPrefix, prefixIn]) fun _ =>
    ⟨_, g, _, _, _, _, _, rfl, by decide, by omega, by omega, specOf_lt a, by omega,
      by have := szCode_lt sz; omega,
      by simp [decodeFull, decodeMem, prefixIn]⟩

theorem RoundTrip.stq (g : Guard) (pre : Option Prefix) (sz : Sz) (off : BitVec 12) (a : Opnd) (q : Fin 12) : RoundTrip.Statement (.stq g pre sz off a q) :=
  roundTrip_of_full _ rfl rfl (by simp [takesPrefix, prefixIn]) fun _ =>
    ⟨_, g, _, _, _, _, _, rfl, by decide, by omega, by omega, specOf_lt a, by omega,
      by have := szCode_lt sz; omega,
      by simp [decodeFull, decodeMem, prefixIn]⟩

theorem RoundTrip.pref (g : Guard) (pre : Option Prefix) (off : BitVec 12) (a : Opnd) : RoundTrip.Statement (.pref g pre off a) :=
  roundTrip_of_full _ rfl rfl (by simp [takesPrefix, prefixIn]) fun _ =>
    ⟨_, g, _, _, _, _, _, rfl, by decide, by omega, by omega, specOf_lt a, by omega,
      by omega,
      by simp [decodeFull, decodeMem, prefixIn]⟩

theorem RoundTrip.atom (g : Guard) (la : Fin 16) (pre : Option Prefix) (op : AtomOp) (ty : Ty) (d : Option Opnd) (a b : Opnd) : RoundTrip.Statement (.atom g la pre op ty d a b) := by
  cases d with
  | none =>
    exact roundTrip_of_full _ rfl rfl (by simp [takesPrefix, prefixIn]) fun hw =>
      ⟨0x61, g, la.val, 0, specOf a, specOf b, 4096 * tyCode ty + 256 * atomOpCode op + 128 * bit true,
        rfl, by decide, by omega, by decide, specOf_lt a, specOf_lt b,
        by have := tyCode_lt ty; have := atomOpCode_lt op; have := bit_lt true; omega,
        by
          change (Prefix.ok atomOrders [.glb, .spad] pre && op.tyOk ty && !a.isP && b.src ty.regBits && la == 0) = true at hw
          simp only [Bool.and_eq_true, beq_iff_eq] at hw
          have h : la = 0 := hw.2
          subst h
          simp [decodeFull, decodeMem, prefixIn]⟩
  | some o =>
    exact roundTrip_of_full _ rfl rfl (by simp [takesPrefix, prefixIn]) fun _ =>
      ⟨0x61, g, la.val, specOf o, specOf a, specOf b, 4096 * tyCode ty + 256 * atomOpCode op + 128 * bit false,
        rfl, by decide, by omega, specOf_lt o, specOf_lt a, specOf_lt b,
        by have := tyCode_lt ty; have := atomOpCode_lt op; have := bit_lt false; omega,
        by simp [decodeFull, decodeMem, prefixIn]⟩

theorem RoundTrip.cas (g : Guard) (la : Fin 16) (pre : Option Prefix) (ty : Ty) (d a b c : Opnd) : RoundTrip.Statement (.cas g la pre ty d a b c) :=
  roundTrip_of_full _ rfl rfl (by simp [takesPrefix, prefixIn]) fun _ =>
    ⟨_, g, _, _, _, _, _, rfl, by decide, by omega, specOf_lt d, specOf_lt a, specOf_lt b,
      by have := tyCode_lt ty; have := specOf_lt c; omega,
      by simp [decodeFull, decodeMem, prefixIn]⟩

theorem RoundTrip.cas128 (g : Guard) (la : Fin 16) (pre : Option Prefix) (d a b c : Opnd) : RoundTrip.Statement (.cas128 g la pre d a b c) :=
  roundTrip_of_full _ rfl rfl (by simp [takesPrefix, prefixIn]) fun _ =>
    ⟨_, g, _, _, _, _, _, rfl, by decide, by omega, specOf_lt d, specOf_lt a, specOf_lt b,
      by have := specOf_lt c; omega,
      by simp [decodeFull, decodeMem, prefixIn]⟩

theorem RoundTrip.ld128a (g : Guard) (la : Fin 16) (pre : Option Prefix) (off : BitVec 12) (d a : Opnd) : RoundTrip.Statement (.ld128a g la pre off d a) :=
  roundTrip_of_full _ rfl rfl (by simp [takesPrefix, prefixIn]) fun _ =>
    ⟨_, g, _, _, _, _, _, rfl, by decide, by omega, specOf_lt d, specOf_lt a, by omega,
      by omega,
      by simp [decodeFull, decodeMem, prefixIn]⟩

theorem RoundTrip.st128a (g : Guard) (pre : Option Prefix) (off : BitVec 12) (a b : Opnd) : RoundTrip.Statement (.st128a g pre off a b) :=
  roundTrip_of_full _ rfl rfl (by simp [takesPrefix, prefixIn]) fun _ =>
    ⟨_, g, _, _, _, _, _, rfl, by decide, by omega, by omega, specOf_lt a, specOf_lt b,
      by omega,
      by simp [decodeFull, decodeMem, prefixIn]⟩

theorem RoundTrip.fence (g : Guard) (pre : Prefix) : RoundTrip.Statement (.fence g pre) :=
  roundTrip_of_full _ rfl rfl (by simp [takesPrefix, prefixIn]) fun _ =>
    ⟨_, g, _, _, _, _, _, rfl, by decide, by omega, by omega, by omega, by omega,
      by omega,
      by simp [decodeFull, decodeMem, prefixIn]⟩

theorem RoundTrip.invr (g : Guard) (pre : Option Prefix) (a b : Opnd) : RoundTrip.Statement (.invr g pre a b) :=
  roundTrip_of_full _ rfl rfl (by simp [takesPrefix, prefixIn]) fun _ =>
    ⟨_, g, _, _, _, _, _, rfl, by decide, by omega, by omega, specOf_lt a, specOf_lt b,
      by omega,
      by simp [decodeFull, decodeMem, prefixIn]⟩

theorem RoundTrip.wbr (g : Guard) (pre : Option Prefix) (a b : Opnd) : RoundTrip.Statement (.wbr g pre a b) :=
  roundTrip_of_full _ rfl rfl (by simp [takesPrefix, prefixIn]) fun _ =>
    ⟨_, g, _, _, _, _, _, rfl, by decide, by omega, by omega, specOf_lt a, specOf_lt b,
      by omega,
      by simp [decodeFull, decodeMem, prefixIn]⟩

theorem RoundTrip.regw (g : Guard) (pre : Option Prefix) (a b : Opnd) : RoundTrip.Statement (.regw g pre a b) :=
  roundTrip_of_full _ rfl rfl (by simp [takesPrefix, prefixIn]) fun _ =>
    ⟨_, g, _, _, _, _, _, rfl, by decide, by omega, by omega, specOf_lt a, specOf_lt b,
      by omega,
      by simp [decodeFull, decodeMem, prefixIn]⟩

theorem RoundTrip.icinv (g : Guard) (pre : Option Prefix) (a b : Opnd) : RoundTrip.Statement (.icinv g pre a b) :=
  roundTrip_of_full _ rfl rfl (by simp [takesPrefix, prefixIn]) fun _ =>
    ⟨_, g, _, _, _, _, _, rfl, by decide, by omega, by omega, specOf_lt a, specOf_lt b,
      by omega,
      by simp [decodeFull, decodeMem, prefixIn]⟩

theorem RoundTrip.gnew (g : Guard) (d a : Opnd) : RoundTrip.Statement (.gnew g d a) :=
  roundTrip_of_full _ rfl rfl (by simp [takesPrefix, prefixIn]) fun _ =>
    ⟨_, g, _, _, _, _, _, rfl, by decide, by omega, specOf_lt d, specOf_lt a, by omega,
      by omega,
      by simp [decodeFull, decodeGroup]⟩

theorem RoundTrip.join (g : Guard) (a : Opnd) : RoundTrip.Statement (.join g a) :=
  roundTrip_of_full _ rfl rfl (by simp [takesPrefix, prefixIn]) fun _ =>
    ⟨_, g, _, _, _, _, _, rfl, by decide, by omega, by omega, specOf_lt a, by omega,
      by omega,
      by simp [decodeFull, decodeGroup]⟩

theorem RoundTrip.leave (g : Guard) : RoundTrip.Statement (.leave g) :=
  roundTrip_of_full _ rfl rfl (by simp [takesPrefix, prefixIn]) fun _ =>
    ⟨_, g, _, _, _, _, _, rfl, by decide, by omega, by omega, by omega, by omega,
      by omega,
      by simp [decodeFull, decodeGroup]⟩

theorem RoundTrip.bar (g : Guard) (b : Fin 16) : RoundTrip.Statement (.bar g b) :=
  roundTrip_of_full _ rfl rfl (by simp [takesPrefix, prefixIn]) fun _ =>
    ⟨_, g, _, _, _, _, _, rfl, by decide, by omega, by omega, by omega, by omega,
      by omega,
      by simp [decodeFull, decodeGroup]⟩

theorem RoundTrip.bara (g : Guard) (b : Fin 16) : RoundTrip.Statement (.bara g b) :=
  roundTrip_of_full _ rfl rfl (by simp [takesPrefix, prefixIn]) fun _ =>
    ⟨_, g, _, _, _, _, _, rfl, by decide, by omega, by omega, by omega, by omega,
      by omega,
      by simp [decodeFull, decodeGroup]⟩

theorem RoundTrip.barw (g : Guard) (b : Fin 16) : RoundTrip.Statement (.barw g b) :=
  roundTrip_of_full _ rfl rfl (by simp [takesPrefix, prefixIn]) fun _ =>
    ⟨_, g, _, _, _, _, _, rfl, by decide, by omega, by omega, by omega, by omega,
      by omega,
      by simp [decodeFull, decodeGroup]⟩

theorem RoundTrip.gang (g : Guard) (a : Opnd) : RoundTrip.Statement (.gang g a) :=
  roundTrip_of_full _ rfl rfl (by simp [takesPrefix, prefixIn]) fun _ =>
    ⟨_, g, _, _, _, _, _, rfl, by decide, by omega, by omega, specOf_lt a, by omega,
      by omega,
      by simp [decodeFull, decodeGroup]⟩

theorem RoundTrip.waitw (g : Guard) (pre : Option Prefix) (ty : Ty) (d : Fin 8) (a b c : Opnd) : RoundTrip.Statement (.waitw g pre ty d a b c) :=
  roundTrip_of_full _ rfl rfl (by simp [takesPrefix, prefixIn]) fun _ =>
    ⟨_, g, _, _, _, _, _, rfl, by decide, by omega, by omega, specOf_lt a, specOf_lt b,
      by have := tyCode_lt ty; have := specOf_lt c; omega,
      by simp [decodeFull, decodeGroup, prefixIn]⟩

theorem RoundTrip.pollb (g : Guard) (pre : Option Prefix) (ty : Ty) (cond : Cond) (d : Fin 8) (a b : Opnd) : RoundTrip.Statement (.pollb g pre ty cond d a b) :=
  roundTrip_of_full _ rfl rfl (by simp [takesPrefix, prefixIn]) fun _ =>
    ⟨_, g, _, _, _, _, _, rfl, by decide, by omega, by omega, specOf_lt a, specOf_lt b,
      by have := tyCode_lt ty; have := condCode_lt cond; omega,
      by simp [decodeFull, decodeGroup, prefixIn]⟩

theorem RoundTrip.yield (g : Guard) : RoundTrip.Statement (.yield g) :=
  roundTrip_of_full _ rfl rfl (by simp [takesPrefix, prefixIn]) fun _ =>
    ⟨_, g, _, _, _, _, _, rfl, by decide, by omega, by omega, by omega, by omega,
      by omega,
      by simp [decodeFull, decodeGroup]⟩

theorem RoundTrip.nap (g : Guard) (a : Opnd) : RoundTrip.Statement (.nap g a) :=
  roundTrip_of_full _ rfl rfl (by simp [takesPrefix, prefixIn]) fun _ =>
    ⟨_, g, _, _, _, _, _, rfl, by decide, by omega, by omega, specOf_lt a, by omega,
      by omega,
      by simp [decodeFull, decodeGroup]⟩

theorem RoundTrip.grow (g : Guard) (d : Fin 8) (a b : Opnd) : RoundTrip.Statement (.grow g d a b) :=
  roundTrip_of_full _ rfl rfl (by simp [takesPrefix, prefixIn]) fun _ =>
    ⟨_, g, _, _, _, _, _, rfl, by decide, by omega, by omega, specOf_lt a, specOf_lt b,
      by omega,
      by simp [decodeFull, decodeGroup]⟩

theorem RoundTrip.shrink (g : Guard) (a : Opnd) : RoundTrip.Statement (.shrink g a) :=
  roundTrip_of_full _ rfl rfl (by simp [takesPrefix, prefixIn]) fun _ =>
    ⟨_, g, _, _, _, _, _, rfl, by decide, by omega, by omega, specOf_lt a, by omega,
      by omega,
      by simp [decodeFull, decodeGroup]⟩

theorem RoundTrip.spawn (g : Guard) (d : Fin 8) (a : Opnd) (v8 : Fin 72) (offer : Fin 8) (inv : Bool) : RoundTrip.Statement (.spawn g d a v8 offer inv) :=
  roundTrip_of_full _ rfl rfl (by simp [takesPrefix, prefixIn]) fun _ =>
    ⟨_, g, _, _, _, _, _, rfl, by decide, by omega, by omega, specOf_lt a, by omega,
      by have := bit_lt inv; omega,
      by
        have := bit_lt inv
        have h1 : bitsOf (offer.val + 8 * bit inv) 4 12 = 0 := by simp only [bitsOf]; omega
        have h2 : bitsOf (offer.val + 8 * bit inv) 0 3 = offer.val := by simp only [bitsOf]; omega
        have h3 : bitsOf (offer.val + 8 * bit inv) 3 1 = bit inv := by simp only [bitsOf]; omega
        simp [decodeFull, decodeGroup, h1, h2, h3]⟩

theorem RoundTrip.enq (g : Guard) (d : Fin 8) (a : Opnd) (s4 : Fin 16) : RoundTrip.Statement (.enq g d a s4) :=
  roundTrip_of_full _ rfl rfl (by simp [takesPrefix, prefixIn]) fun _ =>
    ⟨_, g, _, _, _, _, _, rfl, by decide, by omega, by omega, specOf_lt a, by omega,
      by omega,
      by simp [decodeFull, decodeGroup]⟩

theorem RoundTrip.deq (g : Guard) (la : Fin 16) (s4 : Fin 16) (a : Opnd) (pr : Fin 8) : RoundTrip.Statement (.deq g la s4 a pr) :=
  roundTrip_of_full _ rfl rfl (by simp [takesPrefix, prefixIn]) fun _ =>
    ⟨_, g, _, _, _, _, _, rfl, by decide, by omega, by omega, specOf_lt a, by omega,
      by omega,
      by simp [decodeFull, decodeGroup]⟩

theorem RoundTrip.qinfo (g : Guard) (la : Fin 16) (field : QField) (d a : Opnd) : RoundTrip.Statement (.qinfo g la field d a) :=
  roundTrip_of_full _ rfl rfl (by simp [takesPrefix, prefixIn]) fun _ =>
    ⟨_, g, _, _, _, _, _, rfl, by decide, by omega, specOf_lt d, specOf_lt a, by omega,
      by have := qfieldCode_lt field; omega,
      by simp [decodeFull, decodeGroup]⟩

theorem RoundTrip.xq (g : Guard) (s4 : Fin 16) : RoundTrip.Statement (.xq g s4) :=
  roundTrip_of_full _ rfl rfl (by simp [takesPrefix, prefixIn]) fun _ =>
    ⟨_, g, _, _, _, _, _, rfl, by decide, by omega, by omega, by omega, by omega,
      by omega,
      by simp [decodeFull, decodeTile]⟩

theorem RoundTrip.lq (g : Guard) (s4 : Fin 16) : RoundTrip.Statement (.lq g s4) :=
  roundTrip_of_full _ rfl rfl (by simp [takesPrefix, prefixIn]) fun _ =>
    ⟨_, g, _, _, _, _, _, rfl, by decide, by omega, by omega, by omega, by omega,
      by omega,
      by simp [decodeFull, decodeTile]⟩

theorem RoundTrip.tset (g : Guard) (t : Fin 64) (a : Opnd) : RoundTrip.Statement (.tset g t a) :=
  roundTrip_of_full _ rfl rfl (by simp [takesPrefix, prefixIn]) fun _ =>
    ⟨_, g, _, _, _, _, _, rfl, by decide, by omega, by omega, specOf_lt a, by omega,
      by omega,
      by simp [decodeFull, decodeTile]⟩

theorem RoundTrip.tstate (g : Guard) (t : Fin 64) (d : Opnd) : RoundTrip.Statement (.tstate g t d) :=
  roundTrip_of_full _ rfl rfl (by simp [takesPrefix, prefixIn]) fun _ =>
    ⟨_, g, _, _, _, _, _, rfl, by decide, by omega, specOf_lt d, by omega, by omega,
      by omega,
      by simp [decodeFull, decodeTile]⟩

theorem RoundTrip.twait (g : Guard) (t : Fin 64) : RoundTrip.Statement (.twait g t) :=
  roundTrip_of_full _ rfl rfl (by simp [takesPrefix, prefixIn]) fun _ =>
    ⟨_, g, _, _, _, _, _, rfl, by decide, by omega, by omega, by omega, by omega,
      by omega,
      by simp [decodeFull, decodeTile]⟩

theorem RoundTrip.tdrain (g : Guard) (t : Fin 64) : RoundTrip.Statement (.tdrain g t) :=
  roundTrip_of_full _ rfl rfl (by simp [takesPrefix, prefixIn]) fun _ =>
    ⟨_, g, _, _, _, _, _, rfl, by decide, by omega, by omega, by omega, by omega,
      by omega,
      by simp [decodeFull, decodeTile]⟩

theorem RoundTrip.tfree (g : Guard) (t : Fin 64) : RoundTrip.Statement (.tfree g t) :=
  roundTrip_of_full _ rfl rfl (by simp [takesPrefix, prefixIn]) fun _ =>
    ⟨_, g, _, _, _, _, _, rfl, by decide, by omega, by omega, by omega, by omega,
      by omega,
      by simp [decodeFull, decodeTile]⟩

theorem RoundTrip.cupset (g : Guard) (add : Bool) (t : Fin 64) (a : Opnd) : RoundTrip.Statement (.cupset g add t a) :=
  roundTrip_of_full _ rfl rfl (by simp [takesPrefix, prefixIn]) fun _ =>
    ⟨_, g, _, _, _, _, _, rfl, by decide, by omega, by omega, specOf_lt a, by omega,
      by have := bit_lt add; omega,
      by simp [decodeFull, decodeTile, bit_lt, bit_le]⟩

theorem RoundTrip.cupwt (g : Guard) (t : Fin 64) : RoundTrip.Statement (.cupwt g t) :=
  roundTrip_of_full _ rfl rfl (by simp [takesPrefix, prefixIn]) fun _ =>
    ⟨_, g, _, _, _, _, _, rfl, by decide, by omega, by omega, by omega, by omega,
      by omega,
      by simp [decodeFull, decodeTile]⟩

theorem RoundTrip.cupqry (g : Guard) (t : Fin 64) (d : Opnd) : RoundTrip.Statement (.cupqry g t d) :=
  roundTrip_of_full _ rfl rfl (by simp [takesPrefix, prefixIn]) fun _ =>
    ⟨_, g, _, _, _, _, _, rfl, by decide, by omega, specOf_lt d, by omega, by omega,
      by omega,
      by simp [decodeFull, decodeTile]⟩

theorem RoundTrip.chki (g : Guard) (t : Fin 64) (a b : Opnd) : RoundTrip.Statement (.chki g t a b) :=
  roundTrip_of_full _ rfl rfl (by simp [takesPrefix, prefixIn]) fun _ =>
    ⟨_, g, _, _, _, _, _, rfl, by decide, by omega, by omega, specOf_lt a, specOf_lt b,
      by omega,
      by simp [decodeFull, decodeTile]⟩

theorem RoundTrip.kguard (g : Guard) (k : Fin 16) (a : Opnd) : RoundTrip.Statement (.kguard g k a) :=
  roundTrip_of_full _ rfl rfl (by simp [takesPrefix, prefixIn]) fun _ =>
    ⟨_, g, _, _, _, _, _, rfl, by decide, by omega, by omega, specOf_lt a, by omega,
      by omega,
      by simp [decodeFull, decodeTile]⟩

theorem RoundTrip.kclr (g : Guard) (k : Fin 16) : RoundTrip.Statement (.kclr g k) :=
  roundTrip_of_full _ rfl rfl (by simp [takesPrefix, prefixIn]) fun _ =>
    ⟨_, g, _, _, _, _, _, rfl, by decide, by omega, by omega, by omega, by omega,
      by omega,
      by simp [decodeFull, decodeTile]⟩

theorem RoundTrip.kmul (g : Guard) (la : Fin 16) (k : Fin 16) (ta tb : Fin 64) (a : Opnd) : RoundTrip.Statement (.kmul g la k ta tb a) :=
  roundTrip_of_full _ rfl rfl (by simp [takesPrefix, prefixIn]) fun _ =>
    ⟨_, g, _, _, _, _, _, rfl, by decide, by omega, by omega, specOf_lt a, by omega,
      by omega,
      by simp [decodeFull, decodeTile]⟩

theorem RoundTrip.kmma (g : Guard) (la : Fin 16) (k : Fin 16) (ta tb : Fin 64) (a : Opnd) : RoundTrip.Statement (.kmma g la k ta tb a) :=
  roundTrip_of_full _ rfl rfl (by simp [takesPrefix, prefixIn]) fun _ =>
    ⟨_, g, _, _, _, _, _, rfl, by decide, by omega, by omega, specOf_lt a, by omega,
      by omega,
      by simp [decodeFull, decodeTile]⟩

theorem RoundTrip.kext (g : Guard) (la : Fin 16) (k : Fin 16) (d a : Opnd) : RoundTrip.Statement (.kext g la k d a) :=
  roundTrip_of_full _ rfl rfl (by simp [takesPrefix, prefixIn]) fun _ =>
    ⟨_, g, _, _, _, _, _, rfl, by decide, by omega, specOf_lt d, specOf_lt a, by omega,
      by omega,
      by simp [decodeFull, decodeTile]⟩

theorem RoundTrip.kextf (g : Guard) (la : Fin 16) (k : Fin 16) (rm : RMode) (add : Bool) (d a b : Opnd) : RoundTrip.Statement (.kextf g la k rm add d a b) :=
  roundTrip_of_full _ rfl rfl (by simp [takesPrefix, prefixIn]) fun _ =>
    ⟨_, g, _, _, _, _, _, rfl, by decide, by omega, specOf_lt d, specOf_lt a, specOf_lt b,
      by have := rmCode_lt rm; have := bit_lt add; omega,
      by simpa [decodeFull, decodeTile] using kextf_mk k rm add fun k rm add => some (.kextf g la k rm add d a b)⟩

theorem RoundTrip.ksto (g : Guard) (la : Fin 16) (k : Fin 16) (ta : Fin 64) (a : Opnd) : RoundTrip.Statement (.ksto g la k ta a) :=
  roundTrip_of_full _ rfl rfl (by simp [takesPrefix, prefixIn]) fun _ =>
    ⟨_, g, _, _, _, _, _, rfl, by decide, by omega, by omega, specOf_lt a, by omega,
      by omega,
      by simp [decodeFull, decodeTile]⟩

theorem RoundTrip.kpack (g : Guard) (la : Fin 16) (k : Fin 16) (ta : Fin 64) (a b : Opnd) : RoundTrip.Statement (.kpack g la k ta a b) :=
  roundTrip_of_full _ rfl rfl (by simp [takesPrefix, prefixIn]) fun _ =>
    ⟨_, g, _, _, _, _, _, rfl, by decide, by omega, by omega, specOf_lt a, specOf_lt b,
      by omega,
      by simp [decodeFull, decodeTile]⟩

theorem RoundTrip.kstat (g : Guard) (la : Fin 16) (k : Fin 16) (d : Opnd) : RoundTrip.Statement (.kstat g la k d) :=
  roundTrip_of_full _ rfl rfl (by simp [takesPrefix, prefixIn]) fun _ =>
    ⟨_, g, _, _, _, _, _, rfl, by decide, by omega, specOf_lt d, by omega, by omega,
      by omega,
      by simp [decodeFull, decodeTile]⟩

theorem RoundTrip.sget (g : Guard) (la : Fin 16) (sz : Sz) (off : BitVec 12) (d : Opnd) (n : Fin 64) : RoundTrip.Statement (.sget g la sz off d n) :=
  roundTrip_of_full _ rfl rfl (by simp [takesPrefix, prefixIn]) fun _ =>
    ⟨_, g, _, _, _, _, _, rfl, by decide, by omega, specOf_lt d, by omega, by omega,
      by have := szCode_lt sz; omega,
      by simp [decodeFull, decodeSys]⟩

theorem RoundTrip.sput (g : Guard) (sz : Sz) (off : BitVec 12) (n : Fin 64) (b : Opnd) : RoundTrip.Statement (.sput g sz off n b) :=
  roundTrip_of_full _ rfl rfl (by simp [takesPrefix, prefixIn]) fun _ =>
    ⟨_, g, _, _, _, _, _, rfl, by decide, by omega, by omega, by omega, specOf_lt b,
      by have := szCode_lt sz; omega,
      by simp [decodeFull, decodeSys]⟩

theorem RoundTrip.presume (g : Guard) (n : Fin 64) : RoundTrip.Statement (.presume g n) :=
  roundTrip_of_full _ rfl rfl (by simp [takesPrefix, prefixIn]) fun _ =>
    ⟨_, g, _, _, _, _, _, rfl, by decide, by omega, by omega, by omega, by omega,
      by omega,
      by simp [decodeFull, decodeSys]⟩

theorem RoundTrip.pretry (g : Guard) (n : Fin 64) : RoundTrip.Statement (.pretry g n) :=
  roundTrip_of_full _ rfl rfl (by simp [takesPrefix, prefixIn]) fun _ =>
    ⟨_, g, _, _, _, _, _, rfl, by decide, by omega, by omega, by omega, by omega,
      by omega,
      by simp [decodeFull, decodeSys]⟩

theorem RoundTrip.predir (g : Guard) (n : Fin 64) (b c : Opnd) : RoundTrip.Statement (.predir g n b c) :=
  roundTrip_of_full _ rfl rfl (by simp [takesPrefix, prefixIn]) fun _ =>
    ⟨_, g, _, _, _, _, _, rfl, by decide, by omega, by omega, by omega, specOf_lt b,
      by have := specOf_lt c; omega,
      by simp [decodeFull, decodeSys]⟩

theorem RoundTrip.pkill (g : Guard) (n : Fin 64) : RoundTrip.Statement (.pkill g n) :=
  roundTrip_of_full _ rfl rfl (by simp [takesPrefix, prefixIn]) fun _ =>
    ⟨_, g, _, _, _, _, _, rfl, by decide, by omega, by omega, by omega, by omega,
      by omega,
      by simp [decodeFull, decodeSys]⟩

theorem RoundTrip.fraise (g : Guard) (prio : Fin 8) (a : Opnd) : RoundTrip.Statement (.fraise g prio a) :=
  roundTrip_of_full _ rfl rfl (by simp [takesPrefix, prefixIn]) fun _ =>
    ⟨_, g, _, _, _, _, _, rfl, by decide, by omega, by omega, specOf_lt a, by omega,
      by omega,
      by simp [decodeFull, decodeSys]⟩

theorem RoundTrip.trap (g : Guard) (service : Fin 4096) (a : Opnd) : RoundTrip.Statement (.trap g service a) :=
  roundTrip_of_full _ rfl rfl (by simp [takesPrefix, prefixIn]) fun _ =>
    ⟨_, g, _, _, _, _, _, rfl, by decide, by omega, by omega, specOf_lt a, by omega,
      by omega,
      by simp [decodeFull, decodeSys]⟩

theorem RoundTrip.brk (g : Guard) (tag : BitVec 16) : RoundTrip.Statement (.brk g tag) :=
  roundTrip_of_full _ rfl rfl (by simp [takesPrefix, prefixIn]) fun _ =>
    ⟨_, g, _, _, _, _, _, rfl, by decide, by omega, by omega, by omega, by omega,
      by omega,
      by simp [decodeFull, decodeSys]⟩

theorem RoundTrip.ckpt (g : Guard) (n : BitVec 16) : RoundTrip.Statement (.ckpt g n) :=
  roundTrip_of_full _ rfl rfl (by simp [takesPrefix, prefixIn]) fun _ =>
    ⟨_, g, _, _, _, _, _, rfl, by decide, by omega, by omega, by omega, by omega,
      by omega,
      by simp [decodeFull, decodeSys]⟩

theorem RoundTrip.resid (g : Guard) (a : Opnd) : RoundTrip.Statement (.resid g a) :=
  roundTrip_of_full _ rfl rfl (by simp [takesPrefix, prefixIn]) fun _ =>
    ⟨_, g, _, _, _, _, _, rfl, by decide, by omega, by omega, specOf_lt a, by omega,
      by omega,
      by simp [decodeFull, decodeSys]⟩

theorem RoundTrip.rds (g : Guard) (r : Fin 17) (d : Opnd) : RoundTrip.Statement (.rds g r d) :=
  roundTrip_of_full _ rfl rfl (by simp [takesPrefix, prefixIn]) fun _ =>
    ⟨_, g, _, _, _, _, _, rfl, by decide, by omega, specOf_lt d, by omega, by omega,
      by omega,
      by simp [decodeFull, decodeSys]⟩

theorem RoundTrip.wrs (g : Guard) (r : Fin 17) (a : Opnd) : RoundTrip.Statement (.wrs g r a) :=
  roundTrip_of_full _ rfl rfl (by simp [takesPrefix, prefixIn]) fun _ =>
    ⟨_, g, _, _, _, _, _, rfl, by decide, by omega, by omega, specOf_lt a, by omega,
      by omega,
      by simp [decodeFull, decodeSys]⟩

theorem RoundTrip.isync (g : Guard) : RoundTrip.Statement (.isync g) :=
  roundTrip_of_full _ rfl rfl (by simp [takesPrefix, prefixIn]) fun _ =>
    ⟨_, g, _, _, _, _, _, rfl, by decide, by omega, by omega, by omega, by omega,
      by omega,
      by simp [decodeFull, decodeSys]⟩

theorem RoundTrip.nop (g : Guard) : RoundTrip.Statement (.nop g) :=
  roundTrip_of_full _ rfl rfl (by simp [takesPrefix, prefixIn]) fun _ =>
    ⟨_, g, _, _, _, _, _, rfl, by decide, by omega, by omega, by omega, by omega,
      by omega,
      by simp [decodeFull, decodeSys]⟩

theorem RoundTrip.snap (g : Guard) : RoundTrip.Statement (.snap g) :=
  roundTrip_of_full _ rfl rfl (by simp [takesPrefix, prefixIn]) fun _ =>
    ⟨_, g, _, _, _, _, _, rfl, by decide, by omega, by omega, by omega, by omega,
      by omega,
      by simp [decodeFull, decodeSys]⟩


theorem roundTrip_of_none (i : Instr) (h1 : instrWord i = none) (h2 : serviceWord i = none) : RoundTrip.Statement i :=
  fun _ => ⟨fun w h => by simp [h1] at h, fun w h => by simp [h2] at h⟩

theorem roundTrip_of_trailer (i : Instr) (w : Nat) (h1 : instrWord i = some w) (h2 : serviceWord i = none)
    (hp : prefixIn i = none) (hl : w < 2 ^ 64) (h0 : bitsOf w 62 2 = 3) (ht : trailerOf w = some i) :
    RoundTrip.Statement i := by
  intro hw
  refine ⟨fun v h => ?_, fun v h => by simp [h2] at h⟩
  rw [h1, Option.some.injEq] at h
  subst h
  refine ⟨hl, ?_⟩
  rw [hp]
  refine ⟨by rw [h0]; decide, ?_⟩
  unfold decodeWord
  rw [h0]
  simp only [ht, checked, hw, if_true]

/-- The places of a trailer (R176). -/
theorem trailerWord_eq (kind : Nat) (aw : BitVec 5) (tp ts tr offa offb : Nat) :
    trailerWord kind aw tp ts tr offa offb = 0 + 2 ^ 1 * (offb + 2 ^ 19 * (offa + 2 ^ 19 * (tr + 2 ^ 10 * (ts + 2 ^ 1 * (tp
      + 2 ^ 3 * (aw.toNat + 2 ^ 5 * (kind + 2 ^ 4 * 3))))))) := by
  rw [Nat.zero_add]; rfl

theorem trailer_fields (kind : Nat) (aw : BitVec 5) (tp ts tr offa offb : Nat) (hk : kind < 2 ^ 4) (h1 : tp < 2 ^ 3)
    (h2 : ts < 2 ^ 1) (h3 : tr < 2 ^ 10) (h4 : offa < 2 ^ 19) (h5 : offb < 2 ^ 19) :
    trailerWord kind aw tp ts tr offa offb < 2 ^ 64 ∧
    bitsOf (trailerWord kind aw tp ts tr offa offb) 62 2 = 3 ∧ bitsOf (trailerWord kind aw tp ts tr offa offb) 58 4 = kind ∧
    bitsOf (trailerWord kind aw tp ts tr offa offb) 53 5 = aw.toNat ∧
    bitsOf (trailerWord kind aw tp ts tr offa offb) 50 3 = tp ∧ bitsOf (trailerWord kind aw tp ts tr offa offb) 49 1 = ts ∧
    bitsOf (trailerWord kind aw tp ts tr offa offb) 39 10 = tr ∧ bitsOf (trailerWord kind aw tp ts tr offa offb) 20 19 = offa ∧
    bitsOf (trailerWord kind aw tp ts tr offa offb) 1 19 = offb ∧ bitsOf (trailerWord kind aw tp ts tr offa offb) 0 1 = 0 := by
  have ha := aw.isLt
  rw [trailerWord_eq]
  have q0 := bitsOf_skip 0 (offb + 2 ^ 19 * (offa + 2 ^ 19 * (tr + 2 ^ 10 * (ts + 2 ^ 1 * (tp
      + 2 ^ 3 * (aw.toNat + 2 ^ 5 * (kind + 2 ^ 4 * 3))))))) 1
  have q1 := bitsOf_skip offb (offa + 2 ^ 19 * (tr + 2 ^ 10 * (ts + 2 ^ 1 * (tp
      + 2 ^ 3 * (aw.toNat + 2 ^ 5 * (kind + 2 ^ 4 * 3)))))) 19
  have q2 := bitsOf_skip offa (tr + 2 ^ 10 * (ts + 2 ^ 1 * (tp + 2 ^ 3 * (aw.toNat + 2 ^ 5 * (kind + 2 ^ 4 * 3))))) 19
  have q3 := bitsOf_skip tr (ts + 2 ^ 1 * (tp + 2 ^ 3 * (aw.toNat + 2 ^ 5 * (kind + 2 ^ 4 * 3)))) 10
  have q4 := bitsOf_skip ts (tp + 2 ^ 3 * (aw.toNat + 2 ^ 5 * (kind + 2 ^ 4 * 3))) 1
  have q5 := bitsOf_skip tp (aw.toNat + 2 ^ 5 * (kind + 2 ^ 4 * 3)) 3
  have q6 := bitsOf_skip aw.toNat (kind + 2 ^ 4 * 3) 5
  have q7 := bitsOf_skip kind 3 4
  have z : 0 < 2 ^ 1 := by decide
  refine ⟨?_, ?_, ?_, ?_, ?_, ?_, ?_, ?_, ?_, ?_⟩
  · exact lt_peel _ _ 1 63 z (lt_peel _ _ 19 44 h5 (lt_peel _ _ 19 25 h4 (lt_peel _ _ 10 15 h3 (lt_peel _ _ 1 14 h2
      (lt_peel _ _ 3 11 h1 (lt_peel _ _ 5 6 ha (lt_peel _ _ 4 2 hk (by decide))))))))
  · rw [q0 61 2 z, q1 42 2 h5, q2 23 2 h4, q3 13 2 h3, q4 12 2 h2, q5 9 2 h1, q6 4 2 ha, q7 0 2 hk]; rfl
  · rw [q0 57 4 z, q1 38 4 h5, q2 19 4 h4, q3 9 4 h3, q4 8 4 h2, q5 5 4 h1, q6 0 4 ha, bitsOf_here _ _ _ hk]
  · rw [q0 52 5 z, q1 33 5 h5, q2 14 5 h4, q3 4 5 h3, q4 3 5 h2, q5 0 5 h1, bitsOf_here _ _ _ ha]
  · rw [q0 49 3 z, q1 30 3 h5, q2 11 3 h4, q3 1 3 h3, q4 0 3 h2, bitsOf_here _ _ _ h1]
  · rw [q0 48 1 z, q1 29 1 h5, q2 10 1 h4, q3 0 1 h3, bitsOf_here _ _ _ h2]
  · rw [q0 38 10 z, q1 19 10 h5, q2 0 10 h4, bitsOf_here _ _ _ h3]
  · rw [q0 19 19 z, q1 0 19 h5, bitsOf_here _ _ _ h4]
  · rw [q0 0 19 z, bitsOf_here _ _ _ h5]
  · rw [bitsOf_here _ _ _ z]

/-- Zero low bits of a number that is a multiple of a power of two. -/
theorem bitsOf_zero (w x n : Nat) (h : w = 2 ^ n * x) : bitsOf w 0 n = 0 := by
  subst h; simp [bitsOf]

theorem RoundTrip.next (aw : BitVec 5) : RoundTrip.Statement (.next aw) := by
  obtain ⟨hl, h0, hk, ha, -⟩ := trailer_fields 0 aw 0 0 0 0 0 (by decide) (by decide) (by decide) (by decide) (by decide) (by decide)
  refine roundTrip_of_trailer _ _ rfl rfl rfl hl h0 ?_
  have hz : bitsOf (trailerWord 0 aw 0 0 0 0 0) 0 53 = 0 :=
    bitsOf_zero _ (aw.toNat + 32 * (0 + 16 * 3)) 53 (by simp only [trailerWord]; omega)
  simp [trailerOf, hk, ha, hz]

theorem RoundTrip.ret (aw : BitVec 5) : RoundTrip.Statement (.ret aw) := by
  obtain ⟨hl, h0, hk, ha, -⟩ := trailer_fields 4 aw 0 0 0 0 0 (by decide) (by decide) (by decide) (by decide) (by decide) (by decide)
  refine roundTrip_of_trailer _ _ rfl rfl rfl hl h0 ?_
  have hz : bitsOf (trailerWord 4 aw 0 0 0 0 0) 0 53 = 0 :=
    bitsOf_zero _ (aw.toNat + 32 * (4 + 16 * 3)) 53 (by simp only [trailerWord]; omega)
  simp [trailerOf, hk, ha, hz]

theorem RoundTrip.exit (aw : BitVec 5) : RoundTrip.Statement (.exit aw) := by
  obtain ⟨hl, h0, hk, ha, -⟩ := trailer_fields 5 aw 0 0 0 0 0 (by decide) (by decide) (by decide) (by decide) (by decide) (by decide)
  refine roundTrip_of_trailer _ _ rfl rfl rfl hl h0 ?_
  have hz : bitsOf (trailerWord 5 aw 0 0 0 0 0) 0 53 = 0 :=
    bitsOf_zero _ (aw.toNat + 32 * (5 + 16 * 3)) 53 (by simp only [trailerWord]; omega)
  simp [trailerOf, hk, ha, hz]

theorem RoundTrip.brp (aw : BitVec 5) (p : Fin 8) (sense : Bool) (offa offb : BitVec 19) :
    RoundTrip.Statement (.brp aw p sense offa offb) := by
  obtain ⟨hl, h0, hk, ha, h1, h2, h3, h4, h5, h6⟩ := trailer_fields 1 aw p.val (bit sense) 0 offa.toNat offb.toNat (by decide)
    p.isLt (bit_lt _) (by decide) offa.isLt offb.isLt
  refine roundTrip_of_trailer _ _ rfl rfl rfl hl h0 ?_
  simp [trailerOf, hk, ha, h1, h2, h3, h4, h5, h6]

theorem RoundTrip.call (aw : BitVec 5) (offa : BitVec 19) : RoundTrip.Statement (.call aw offa) := by
  obtain ⟨hl, h0, hk, ha, -, -, -, h4, -⟩ := trailer_fields 3 aw 0 0 0 offa.toNat 0 (by decide) (by decide) (by decide)
    (by decide) offa.isLt (by decide)
  refine roundTrip_of_trailer _ _ rfl rfl rfl hl h0 ?_
  have hz : bitsOf (trailerWord 3 aw 0 0 0 offa.toNat 0) 0 20 = 0 :=
    bitsOf_zero _ (offa.toNat + 524288 * (0 + 1024 * (0 + 2 * (0 + 8 * (aw.toNat + 32 * (3 + 16 * 3)))))) 20
      (by simp only [trailerWord]; omega)
  have hy : bitsOf (trailerWord 3 aw 0 0 0 offa.toNat 0) 39 14 = 0 := by
    have := offa.isLt
    rw [trailerWord_eq, bitsOf_skip _ _ 1 38 14 (by decide), bitsOf_skip _ _ 19 19 14 (by decide),
      bitsOf_skip _ _ 19 0 14 offa.isLt]
    exact bitsOf_zero _ (aw.toNat + 32 * (3 + 16 * 3)) 14 (by omega)
  simp [trailerOf, hk, ha, h4, hz, hy]

theorem RoundTrip.loopn (aw : BitVec 5) (x : Opnd) (offa : BitVec 19) : RoundTrip.Statement (.loopn aw x offa) := by
  have hs := specOf_lt x
  obtain ⟨hl, h0, hk, ha, -, -, h3, h4, -⟩ := trailer_fields 6 aw 0 0 (specOf x) offa.toNat 0 (by decide) (by decide) (by decide)
    hs offa.isLt (by decide)
  refine roundTrip_of_trailer _ _ rfl rfl rfl hl h0 ?_
  have hz : bitsOf (trailerWord 6 aw 0 0 (specOf x) offa.toNat 0) 0 20 = 0 :=
    bitsOf_zero _ (offa.toNat + 524288 * (specOf x + 1024 * (0 + 2 * (0 + 8 * (aw.toNat + 32 * (6 + 16 * 3)))))) 20
      (by simp only [trailerWord]; omega)
  have hy : bitsOf (trailerWord 6 aw 0 0 (specOf x) offa.toNat 0) 49 4 = 0 := by
    rw [trailerWord_eq, bitsOf_skip _ _ 1 48 4 (by decide), bitsOf_skip _ _ 19 29 4 (by decide),
      bitsOf_skip _ _ 19 10 4 offa.isLt, bitsOf_skip _ _ 10 0 4 hs]
    exact bitsOf_zero _ (aw.toNat + 32 * (6 + 16 * 3)) 4 (by omega)
  simp [trailerOf, hk, ha, h3, h4, hz, hy]

theorem RoundTrip.jidx (aw : BitVec 5) (x : Opnd) (offa : BitVec 19) (len1 : BitVec 12) :
    RoundTrip.Statement (.jidx aw x offa len1) := by
  have hs := specOf_lt x
  have hb := len1.isLt
  obtain ⟨hl, h0, hk, ha, -, -, h3, h4, -⟩ := trailer_fields 2 aw 0 0 (specOf x) offa.toNat (128 * len1.toNat) (by decide)
    (by decide) (by decide) hs offa.isLt (by omega)
  refine roundTrip_of_trailer _ _ rfl rfl rfl hl h0 ?_
  have hz : bitsOf (trailerWord 2 aw 0 0 (specOf x) offa.toNat (128 * len1.toNat)) 0 8 = 0 :=
    bitsOf_zero _ (len1.toNat + 4096 * (offa.toNat + 524288 * (specOf x + 1024 * (0 + 2 * (0 + 8 * (aw.toNat
      + 32 * (2 + 16 * 3))))))) 8 (by simp only [trailerWord]; omega)
  have hy : bitsOf (trailerWord 2 aw 0 0 (specOf x) offa.toNat (128 * len1.toNat)) 49 4 = 0 := by
    rw [trailerWord_eq, bitsOf_skip _ _ 1 48 4 (by decide), bitsOf_skip _ _ 19 29 4 (by omega),
      bitsOf_skip _ _ 19 10 4 offa.isLt, bitsOf_skip _ _ 10 0 4 hs]
    exact bitsOf_zero _ (aw.toNat + 32 * (2 + 16 * 3)) 4 (by omega)
  have hx : bitsOf (trailerWord 2 aw 0 0 (specOf x) offa.toNat (128 * len1.toNat)) 8 12 = len1.toNat := by
    have e : trailerWord 2 aw 0 0 (specOf x) offa.toNat (128 * len1.toNat) = 0 + 2 ^ 8 * (len1.toNat + 2 ^ 12 * (offa.toNat
        + 524288 * (specOf x + 1024 * (0 + 2 * (0 + 8 * (aw.toNat + 32 * (2 + 16 * 3))))))) := by
      simp only [trailerWord]; omega
    rw [e, bitsOf_skip _ _ 8 0 12 (by decide), bitsOf_here _ _ _ hb]
  simp [trailerOf, hk, ha, h3, h4, hz, hy, hx]

/-! Paired words (R170, R171) -/

theorem shortSpec_lt (o : Opnd) (h : o.short = true) : shortSpec o < 256 := by
  cases o <;> simp only [Opnd.short, decide_eq_true_eq, Bool.false_eq_true] at h <;> simp only [shortSpec] <;> omega

theorem shortOf_shortSpec (o : Opnd) (h : o.short = true) : shortOf (shortSpec o) = o := by
  cases o with
  | v n =>
    simp only [Opnd.short, decide_eq_true_eq] at h
    simp [shortSpec, shortOf, h]
  | c n => have := n.isLt; simp [shortSpec, shortOf, show 192 + n.val < 240 by omega]
  | e n =>
    have := n.isLt
    simp [shortSpec, shortOf, show 240 + n.val < 244 by omega, show ¬ 240 + n.val < 192 by omega]
  | q n =>
    have := n.isLt
    simp [shortSpec, shortOf, show ¬ 244 + n.val < 192 by omega, show ¬ 244 + n.val < 240 by omega]
  | s n => simp [Opnd.short] at h
  | p n => simp [Opnd.short] at h
  | sr n => simp [Opnd.short] at h
  | imm n => simp [Opnd.short] at h

theorem halfOp_code (op : HalfOp) :
    (halfCode op).1 < 2 ^ 7 ∧ (halfCode op).2 < 2 ^ 5 ∧ halfOpOf (halfCode op).1 (halfCode op).2 = some op := by
  cases op with
  | add t => have := t.isLt; simp [halfCode, halfOpOf]; omega
  | sub t => have := t.isLt; simp [halfCode, halfOpOf]; omega
  | min z => cases z <;> decide
  | max z => cases z <;> decide
  | fadd rm z => cases rm <;> cases z <;> decide
  | fmul rm z => cases rm <;> cases z <;> decide
  | fmin z => cases z <;> decide
  | fmax z => cases z <;> decide
  | _ => decide

theorem half_short (h : Half) (ok : h.ok = true) : h.d.short = true ∧ h.s.short = true := by
  cases h with
  | mk op d s g =>
    cases op <;> simp only [Half.ok, Bool.and_eq_true, beq_iff_eq] at ok <;> first
      | exact ok
      | (obtain ⟨⟨rfl, rfl⟩, -⟩ := ok; exact ⟨rfl, rfl⟩)

theorem halfOf_halfWord (h : Half) (ok : h.ok = true) : halfWord h < 2 ^ 31 ∧ halfOf (halfWord h) = some h := by
  obtain ⟨sd, ss⟩ := half_short h ok
  obtain ⟨h1, h2, h3⟩ := halfOp_code h.op
  have hd := shortSpec_lt _ sd
  have hs := shortSpec_lt _ ss
  have e : halfWord h = (halfCode h.op).2 + 2 ^ 5 * (h.g.val + 2 ^ 3 * (shortSpec h.s + 2 ^ 8 * (shortSpec h.d
      + 2 ^ 8 * (halfCode h.op).1))) := rfl
  have q0 := bitsOf_skip (halfCode h.op).2 (h.g.val + 2 ^ 3 * (shortSpec h.s + 2 ^ 8 * (shortSpec h.d
      + 2 ^ 8 * (halfCode h.op).1))) 5
  have q1 := bitsOf_skip h.g.val (shortSpec h.s + 2 ^ 8 * (shortSpec h.d + 2 ^ 8 * (halfCode h.op).1)) 3
  have q2 := bitsOf_skip (shortSpec h.s) (shortSpec h.d + 2 ^ 8 * (halfCode h.op).1) 8
  have q3 := bitsOf_skip (shortSpec h.d) (halfCode h.op).1 8
  rw [e]
  constructor
  · exact lt_peel _ _ 5 26 h2 (lt_peel _ _ 3 23 h.g.isLt (lt_peel _ _ 8 15 hs (lt_peel _ _ 8 7 hd h1)))
  · have r1 := (q0 19 7 h2).trans ((q1 16 7 h.g.isLt).trans ((q2 8 7 hs).trans ((q3 0 7 hd).trans (bitsOf_last _ _ h1))))
    have r2 := (q0 11 8 h2).trans ((q1 8 8 h.g.isLt).trans ((q2 0 8 hs).trans (bitsOf_here _ _ _ hd)))
    have r3 := (q0 3 8 h2).trans ((q1 0 8 h.g.isLt).trans (bitsOf_here _ _ _ hs))
    have r4 := (q0 0 3 h2).trans (bitsOf_here _ _ _ h.g.isLt)
    have r5 := bitsOf_here _ (h.g.val + 2 ^ 3 * (shortSpec h.s + 2 ^ 8 * (shortSpec h.d + 2 ^ 8 * (halfCode h.op).1))) _ h2
    simp only [halfOf, r1, r2, r3, r4, r5, h3, Option.map_some, shortOf_shortSpec _ sd, shortOf_shortSpec _ ss,
      fin_ofNat_val]

theorem decodeWord_of_pair (u l : Half) (w : Nat) (h0 : bitsOf w 62 2 = 1) (h1 : halfOf (bitsOf w 31 31) = some u)
    (h2 : halfOf (bitsOf w 0 31) = some l) (hw : (Instr.pairedWord u l).wellFormed = true) :
    decodeWord w = .ok (.pairedWord u l) := by
  unfold decodeWord
  rw [h0]
  simp only [h1, h2, checked, Option.bind_eq_bind, Option.bind_some, hw, if_true]

theorem RoundTrip.pairedWord (u l : Half) : RoundTrip.Statement (.pairedWord u l) := by
  intro hw
  have hw' : pairOk u l = true := hw
  simp only [pairOk, Bool.and_eq_true] at hw'
  obtain ⟨hu, eu⟩ := halfOf_halfWord u hw'.1.1.1.1
  obtain ⟨hl, el⟩ := halfOf_halfWord l hw'.1.1.1.2
  refine ⟨fun w h => ?_, fun w h => by simp [serviceWord] at h⟩
  have e : halfWord l + 2 ^ 31 * (halfWord u + 2 ^ 31) = halfWord l + 2 ^ 31 * (halfWord u + 2 ^ 31 * 1) := by
    rw [Nat.mul_one]
  simp only [instrWord, Option.some.injEq] at h
  rw [e] at h
  subst h
  have q0 := bitsOf_skip (halfWord l) (halfWord u + 2 ^ 31 * 1) 31
  have r0 : bitsOf (halfWord l + 2 ^ 31 * (halfWord u + 2 ^ 31 * 1)) 62 2 = 1 :=
    (q0 31 2 hl).trans ((bitsOf_skip (halfWord u) 1 31 0 2 hu).trans rfl)
  have r1 : bitsOf (halfWord l + 2 ^ 31 * (halfWord u + 2 ^ 31 * 1)) 31 31 = halfWord u :=
    (q0 0 31 hl).trans (bitsOf_here _ 1 _ hu)
  have r2 := bitsOf_here _ (halfWord u + 2 ^ 31 * 1) _ hl
  refine ⟨lt_peel _ _ 31 33 hl (lt_peel _ _ 31 2 hu (by decide)), ?_⟩
  exact ⟨by rw [r0]; decide, decodeWord_of_pair u l _ r0 (by rw [r1, eu]) (by rw [r2, el]) hw⟩

/-! Service-core words (R418) -/

theorem roundTrip_of_service (i : Instr) (f : Nat) (rd rs1 rs2 : Fin 32) (hf : f < 2 ^ 3) (h1 : instrWord i = none)
    (h2 : serviceWord i = some (0x0B + 2 ^ 7 * (rd.val + 2 ^ 5 * (f + 2 ^ 3 * (rs1.val + 2 ^ 5 * (rs2.val + 2 ^ 5 * 0))))))
    (hd : ∀ w, bitsOf w 0 7 = 0x0B → bitsOf w 25 7 = 0 → bitsOf w 7 5 = rd.val → bitsOf w 15 5 = rs1.val →
      bitsOf w 20 5 = rs2.val → bitsOf w 12 3 = f → decodeService w = .ok i) : RoundTrip.Statement i := by
  refine fun _ => ⟨fun w h => by simp [h1] at h, fun w h => ?_⟩
  rw [h2, Option.some.injEq] at h
  subst h
  have a1 := rd.isLt
  have a2 := rs1.isLt
  have a3 := rs2.isLt
  have z : 0x0B < 2 ^ 7 := by decide
  have q0 := bitsOf_skip 0x0B (rd.val + 2 ^ 5 * (f + 2 ^ 3 * (rs1.val + 2 ^ 5 * (rs2.val + 2 ^ 5 * 0)))) 7
  have q1 := bitsOf_skip rd.val (f + 2 ^ 3 * (rs1.val + 2 ^ 5 * (rs2.val + 2 ^ 5 * 0))) 5
  have q2 := bitsOf_skip f (rs1.val + 2 ^ 5 * (rs2.val + 2 ^ 5 * 0)) 3
  have q3 := bitsOf_skip rs1.val (rs2.val + 2 ^ 5 * 0) 5
  have q4 := bitsOf_skip rs2.val 0 5
  refine ⟨lt_peel _ _ 7 25 z (lt_peel _ _ 5 20 a1 (lt_peel _ _ 3 17 hf (lt_peel _ _ 5 12 a2 (lt_peel _ _ 5 7 a3 (by decide))))),
    hd _ ?_ ?_ ?_ ?_ ?_ ?_⟩
  · exact bitsOf_here _ _ _ z
  · rw [q0 18 7 z, q1 13 7 a1, q2 10 7 hf, q3 5 7 a2, q4 0 7 a3]; rfl
  · rw [q0 0 5 z, bitsOf_here _ _ _ a1]
  · rw [q0 8 5 z, q1 3 5 a1, q2 0 5 hf, bitsOf_here _ _ _ a2]
  · rw [q0 13 5 z, q1 8 5 a1, q2 5 5 hf, q3 0 5 a2, bitsOf_here _ _ _ a3]
  · rw [q0 5 3 z, q1 0 3 a1, bitsOf_here _ _ _ hf]

theorem RoundTrip.vspawn (rd rs1 rs2 : Fin 32) : RoundTrip.Statement (.vspawn rd rs1 rs2) :=
  roundTrip_of_service _ 0 rd rs1 rs2 (by decide) rfl (by simp only [serviceWord]; congr 1; omega) fun w h1 h2 h3 h4 h5 h6 => by
    simp [decodeService, h1, h2, h3, h4, h5, h6]

theorem RoundTrip.vjoin (rd rs1 rs2 : Fin 32) : RoundTrip.Statement (.vjoin rd rs1 rs2) :=
  roundTrip_of_service _ 1 rd rs1 rs2 (by decide) rfl (by simp only [serviceWord]; congr 1; omega) fun w h1 h2 h3 h4 h5 h6 => by
    simp [decodeService, h1, h2, h3, h4, h5, h6]

/-! Moves of agents, which have no word -/

theorem RoundTrip.waitwWake (core wave k : Nat) : RoundTrip.Statement (.waitwWake core wave k) := roundTrip_of_none _ rfl rfl
theorem RoundTrip.waitwTimeout (core wave k : Nat) : RoundTrip.Statement (.waitwTimeout core wave k) := roundTrip_of_none _ rfl rfl
theorem RoundTrip.pollbNapEnd (core wave k : Nat) : RoundTrip.Statement (.pollbNapEnd core wave k) := roundTrip_of_none _ rfl rfl
theorem RoundTrip.napEnd (core wave k : Nat) : RoundTrip.Statement (.napEnd core wave k) := roundTrip_of_none _ rfl rfl
theorem RoundTrip.growGrant (core : Nat) : RoundTrip.Statement (.growGrant core) := roundTrip_of_none _ rfl rfl
theorem RoundTrip.growTimeout (core wave k : Nat) : RoundTrip.Statement (.growTimeout core wave k) := roundTrip_of_none _ rfl rfl
theorem RoundTrip.tileDrained (core t : Nat) : RoundTrip.Statement (.tileDrained core t) := roundTrip_of_none _ rfl rfl
theorem RoundTrip.tileWaitWake (core wave k : Nat) : RoundTrip.Statement (.tileWaitWake core wave k) := roundTrip_of_none _ rfl rfl
theorem RoundTrip.kmulStep (core group k : Nat) : RoundTrip.Statement (.kmulStep core group k) := roundTrip_of_none _ rfl rfl
theorem RoundTrip.microTile (core group m : Nat) : RoundTrip.Statement (.microTile core group m) := roundTrip_of_none _ rfl rfl
theorem RoundTrip.issueCycle (core stage : Nat) : RoundTrip.Statement (.issueCycle core stage) := roundTrip_of_none _ rfl rfl
theorem RoundTrip.addressPromoted (core wave : Nat) (addr : BitVec 64) : RoundTrip.Statement (.addressPromoted core wave addr) := roundTrip_of_none _ rfl rfl
theorem RoundTrip.setAside (core wave path : Nat) : RoundTrip.Statement (.setAside core wave path) := roundTrip_of_none _ rfl rfl
theorem RoundTrip.interlockCleared (core wave k : Nat) : RoundTrip.Statement (.interlockCleared core wave k) := roundTrip_of_none _ rfl rfl
theorem RoundTrip.awaitDrained (core wave : Nat) : RoundTrip.Statement (.awaitDrained core wave) := roundTrip_of_none _ rfl rfl
theorem RoundTrip.resultWriteback (core wave k : Nat) : RoundTrip.Statement (.resultWriteback core wave k) := roundTrip_of_none _ rfl rfl
theorem RoundTrip.deferredFaultReport (core wave k : Nat) : RoundTrip.Statement (.deferredFaultReport core wave k) := roundTrip_of_none _ rfl rfl
theorem RoundTrip.storeFaultReport (k : Nat) (code : BitVec 8) : RoundTrip.Statement (.storeFaultReport k code) := roundTrip_of_none _ rfl rfl
theorem RoundTrip.waveResume (core wave : Nat) : RoundTrip.Statement (.waveResume core wave) := roundTrip_of_none _ rfl rfl
theorem RoundTrip.groupDissolve (core group : Nat) : RoundTrip.Statement (.groupDissolve core group) := roundTrip_of_none _ rfl rfl
theorem RoundTrip.copySegment (core group cmd seg : Nat) : RoundTrip.Statement (.copySegment core group cmd seg) := roundTrip_of_none _ rfl rfl
theorem RoundTrip.copyPieceWrite (core group cmd seg : Nat) : RoundTrip.Statement (.copyPieceWrite core group cmd seg) := roundTrip_of_none _ rfl rfl
theorem RoundTrip.ladleBag (core group cmd bag : Nat) : RoundTrip.Statement (.ladleBag core group cmd bag) := roundTrip_of_none _ rfl rfl
theorem RoundTrip.storeAtHome (k : Nat) : RoundTrip.Statement (.storeAtHome k) := roundTrip_of_none _ rfl rfl
theorem RoundTrip.loadAtHome (core : Nat) (word : Nat) : RoundTrip.Statement (.loadAtHome core word) := roundTrip_of_none _ rfl rfl
theorem RoundTrip.atomicAtHome (k : Nat) : RoundTrip.Statement (.atomicAtHome k) := roundTrip_of_none _ rfl rfl
theorem RoundTrip.l1Writeback (core : Nat) (word : Nat) : RoundTrip.Statement (.l1Writeback core word) := roundTrip_of_none _ rfl rfl
theorem RoundTrip.updateReceive (die k : Nat) : RoundTrip.Statement (.updateReceive die k) := roundTrip_of_none _ rfl rfl
theorem RoundTrip.valueReceive (die k : Nat) : RoundTrip.Statement (.valueReceive die k) := roundTrip_of_none _ rfl rfl
theorem RoundTrip.lineWake (die word : Nat) : RoundTrip.Statement (.lineWake die word) := roundTrip_of_none _ rfl rfl
theorem RoundTrip.fenceArbiter (k : Nat) : RoundTrip.Statement (.fenceArbiter k) := roundTrip_of_none _ rfl rfl
theorem RoundTrip.sequencerStore (k : Nat) : RoundTrip.Statement (.sequencerStore k) := roundTrip_of_none _ rfl rfl
theorem RoundTrip.replicaApply (member k : Nat) : RoundTrip.Statement (.replicaApply member k) := roundTrip_of_none _ rfl rfl
theorem RoundTrip.replicaMemberTimeout (group member : Nat) : RoundTrip.Statement (.replicaMemberTimeout group member) := roundTrip_of_none _ rfl rfl
theorem RoundTrip.linkTimeout (k : Nat) : RoundTrip.Statement (.linkTimeout k) := roundTrip_of_none _ rfl rfl
theorem RoundTrip.portLinkDown (port : Nat) : RoundTrip.Statement (.portLinkDown port) := roundTrip_of_none _ rfl rfl
theorem RoundTrip.pageWalk (die : Nat) (asid : BitVec 16) (va : BitVec 64) : RoundTrip.Statement (.pageWalk die asid va) := roundTrip_of_none _ rfl rfl
theorem RoundTrip.budgetExpired (core wave : Nat) : RoundTrip.Statement (.budgetExpired core wave) := roundTrip_of_none _ rfl rfl
theorem RoundTrip.deadlineExpired (k : Nat) : RoundTrip.Statement (.deadlineExpired k) := roundTrip_of_none _ rfl rfl
theorem RoundTrip.tailChange (n : Nat) : RoundTrip.Statement (.tailChange n) := roundTrip_of_none _ rfl rfl
theorem RoundTrip.bindTake (core idx : Nat) : RoundTrip.Statement (.bindTake core idx) := roundTrip_of_none _ rfl rfl
theorem RoundTrip.bindWithdraw (core idx : Nat) : RoundTrip.Statement (.bindWithdraw core idx) := roundTrip_of_none _ rfl rfl
theorem RoundTrip.taskEnd (k : Nat) : RoundTrip.Statement (.taskEnd k) := roundTrip_of_none _ rfl rfl
theorem RoundTrip.vjoinWake (core : Nat) : RoundTrip.Statement (.vjoinWake core) := roundTrip_of_none _ rfl rfl
theorem RoundTrip.drainEnd (asid : BitVec 16) : RoundTrip.Statement (.drainEnd asid) := roundTrip_of_none _ rfl rfl
theorem RoundTrip.saveComplete (asid : BitVec 16) : RoundTrip.Statement (.saveComplete asid) := roundTrip_of_none _ rfl rfl
theorem RoundTrip.saveDeadline (asid : BitVec 16) : RoundTrip.Statement (.saveDeadline asid) := roundTrip_of_none _ rfl rfl
theorem RoundTrip.cmdUnknown (code : BitVec 4) : RoundTrip.Statement (.cmdUnknown code) := roundTrip_of_none _ rfl rfl
theorem RoundTrip.start (failAt : Option (Fin 8)) : RoundTrip.Statement (.start failAt) := roundTrip_of_none _ rfl rfl
theorem RoundTrip.hostSnoop (line : Nat) : RoundTrip.Statement (.hostSnoop line) := roundTrip_of_none _ rfl rfl
theorem RoundTrip.hostMemAccess (acc : HostAccess) : RoundTrip.Statement (.hostMemAccess acc) := roundTrip_of_none _ rfl rfl
theorem RoundTrip.atsCompletion (asid : BitVec 16) (va : BitVec 64) (grant : Option Nat) (w : Bool) : RoundTrip.Statement (.atsCompletion asid va grant w) := roundTrip_of_none _ rfl rfl
theorem RoundTrip.prgResponse (asid : BitVec 16) (va : BitVec 64) (ok : Bool) : RoundTrip.Statement (.prgResponse asid va ok) := roundTrip_of_none _ rfl rfl
theorem RoundTrip.atsInvalidation (pasid : BitVec 20) (va : BitVec 64) (len : Nat) : RoundTrip.Statement (.atsInvalidation pasid va len) := roundTrip_of_none _ rfl rfl
theorem RoundTrip.thermalThrottle (temp : BitVec 8) : RoundTrip.Statement (.thermalThrottle temp) := roundTrip_of_none _ rfl rfl
theorem RoundTrip.thermalTrip (temp : BitVec 8) : RoundTrip.Statement (.thermalTrip temp) := roundTrip_of_none _ rfl rfl
theorem RoundTrip.tripRecovery (temp : BitVec 8) : RoundTrip.Statement (.tripRecovery temp) := roundTrip_of_none _ rfl rfl
theorem RoundTrip.powerLimit (watts : BitVec 12) : RoundTrip.Statement (.powerLimit watts) := roundTrip_of_none _ rfl rfl
theorem RoundTrip.mbUnknown (code : BitVec 8) : RoundTrip.Statement (.mbUnknown code) := roundTrip_of_none _ rfl rfl
theorem RoundTrip.violation (src : VSource) (kind : VKind) (addr : BitVec 64) : RoundTrip.Statement (.violation src kind addr) := roundTrip_of_none _ rfl rfl
theorem RoundTrip.map (k : Nat) (place : BitVec 64) (frame : BitVec 64) : RoundTrip.Statement (.map k place frame) := roundTrip_of_none _ rfl rfl
theorem RoundTrip.unmap (k : Nat) : RoundTrip.Statement (.unmap k) := roundTrip_of_none _ rfl rfl
theorem RoundTrip.alloc (k : Nat) (place : BitVec 64) (frame : BitVec 64) : RoundTrip.Statement (.alloc k place frame) := roundTrip_of_none _ rfl rfl
theorem RoundTrip.free (k : Nat) : RoundTrip.Statement (.free k) := roundTrip_of_none _ rfl rfl
theorem RoundTrip.fread (k : Nat) : RoundTrip.Statement (.fread k) := roundTrip_of_none _ rfl rfl
theorem RoundTrip.fwrite (k : Nat) : RoundTrip.Statement (.fwrite k) := roundTrip_of_none _ rfl rfl
theorem RoundTrip.log (k : Nat) : RoundTrip.Statement (.log k) := roundTrip_of_none _ rfl rfl
theorem RoundTrip.pairAnswer (feed : Option (BitVec 32)) : RoundTrip.Statement (.pairAnswer feed) := roundTrip_of_none _ rfl rfl
theorem RoundTrip.recall (remote : List Generation) : RoundTrip.Statement (.recall remote) := roundTrip_of_none _ rfl rfl
theorem RoundTrip.svcmdUnknown (code : BitVec 4) : RoundTrip.Statement (.svcmdUnknown code) := roundTrip_of_none _ rfl rfl
theorem RoundTrip.snapshotCut (asid : BitVec 16) : RoundTrip.Statement (.snapshotCut asid) := roundTrip_of_none _ rfl rfl
theorem RoundTrip.frameDrainComplete (frame : Nat) : RoundTrip.Statement (.frameDrainComplete frame) := roundTrip_of_none _ rfl rfl
theorem RoundTrip.partnerAck (asid : BitVec 16) : RoundTrip.Statement (.partnerAck asid) := roundTrip_of_none _ rfl rfl
theorem RoundTrip.busParityRetry (core wave : Nat) (addr : Nat) (groups : BitVec 16) (fails : Fin 6) : RoundTrip.Statement (.busParityRetry core wave addr groups fails) := roundTrip_of_none _ rfl rfl
theorem RoundTrip.registerWrite (field : RegField) (value : BitVec 64) : RoundTrip.Statement (.registerWrite field value) := roundTrip_of_none _ rfl rfl
theorem RoundTrip.portLinkUp (port : Nat) : RoundTrip.Statement (.portLinkUp port) := roundTrip_of_none _ rfl rfl
theorem RoundTrip.thermalThrottleEnd (temp : BitVec 8) : RoundTrip.Statement (.thermalThrottleEnd temp) := roundTrip_of_none _ rfl rfl
theorem RoundTrip.partnerLost (asid : BitVec 16) : RoundTrip.Statement (.partnerLost asid) := roundTrip_of_none _ rfl rfl
theorem RoundTrip.partnerGenerationReceive (gen : Generation) : RoundTrip.Statement (.partnerGenerationReceive gen) := roundTrip_of_none _ rfl rfl
theorem RoundTrip.partnerSlotReadRequest (module : BitVec 14) (slot : Bool) : RoundTrip.Statement (.partnerSlotReadRequest module slot) := roundTrip_of_none _ rfl rfl
theorem RoundTrip.retentionSleepEntry (die word : Nat) : RoundTrip.Statement (.retentionSleepEntry die word) := roundTrip_of_none _ rfl rfl
theorem RoundTrip.clockRebase : RoundTrip.Statement (.clockRebase) := roundTrip_of_none _ rfl rfl
theorem RoundTrip.stockpotDeliver : RoundTrip.Statement (.stockpotDeliver) := roundTrip_of_none _ rfl rfl
theorem RoundTrip.dispatchTurn : RoundTrip.Statement (.dispatchTurn) := roundTrip_of_none _ rfl rfl
theorem RoundTrip.attach : RoundTrip.Statement (.attach) := roundTrip_of_none _ rfl rfl
theorem RoundTrip.detach : RoundTrip.Statement (.detach) := roundTrip_of_none _ rfl rfl
theorem RoundTrip.qtsync : RoundTrip.Statement (.qtsync) := roundTrip_of_none _ rfl rfl
theorem RoundTrip.load : RoundTrip.Statement (.load) := roundTrip_of_none _ rfl rfl
theorem RoundTrip.preempt : RoundTrip.Statement (.preempt) := roundTrip_of_none _ rfl rfl
theorem RoundTrip.restore : RoundTrip.Statement (.restore) := roundTrip_of_none _ rfl rfl
theorem RoundTrip.kill : RoundTrip.Statement (.kill) := roundTrip_of_none _ rfl rfl
theorem RoundTrip.unload : RoundTrip.Statement (.unload) := roundTrip_of_none _ rfl rfl
theorem RoundTrip.inval : RoundTrip.Statement (.inval) := roundTrip_of_none _ rfl rfl
theorem RoundTrip.stepCmd : RoundTrip.Statement (.stepCmd) := roundTrip_of_none _ rfl rfl
theorem RoundTrip.freeze : RoundTrip.Statement (.freeze) := roundTrip_of_none _ rfl rfl
theorem RoundTrip.thaw : RoundTrip.Statement (.thaw) := roundTrip_of_none _ rfl rfl
theorem RoundTrip.orderlyWarmReset : RoundTrip.Statement (.orderlyWarmReset) := roundTrip_of_none _ rfl rfl
theorem RoundTrip.orderlyColdReset : RoundTrip.Statement (.orderlyColdReset) := roundTrip_of_none _ rfl rfl
theorem RoundTrip.forcedWarmReset : RoundTrip.Statement (.forcedWarmReset) := roundTrip_of_none _ rfl rfl
theorem RoundTrip.powerOn : RoundTrip.Statement (.powerOn) := roundTrip_of_none _ rfl rfl
theorem RoundTrip.powerBrake : RoundTrip.Statement (.powerBrake) := roundTrip_of_none _ rfl rfl
theorem RoundTrip.update : RoundTrip.Statement (.update) := roundTrip_of_none _ rfl rfl
theorem RoundTrip.attest : RoundTrip.Statement (.attest) := roundTrip_of_none _ rfl rfl
theorem RoundTrip.getcert : RoundTrip.Statement (.getcert) := roundTrip_of_none _ rfl rfl
theorem RoundTrip.lifecycle : RoundTrip.Statement (.lifecycle) := roundTrip_of_none _ rfl rfl
theorem RoundTrip.svcreg : RoundTrip.Statement (.svcreg) := roundTrip_of_none _ rfl rfl
theorem RoundTrip.svcunreg : RoundTrip.Statement (.svcunreg) := roundTrip_of_none _ rfl rfl
theorem RoundTrip.vclear : RoundTrip.Statement (.vclear) := roundTrip_of_none _ rfl rfl
theorem RoundTrip.pair : RoundTrip.Statement (.pair) := roundTrip_of_none _ rfl rfl
theorem RoundTrip.unpair : RoundTrip.Statement (.unpair) := roundTrip_of_none _ rfl rfl
theorem RoundTrip.discard : RoundTrip.Statement (.discard) := roundTrip_of_none _ rfl rfl
theorem RoundTrip.powerLoss : RoundTrip.Statement (.powerLoss) := roundTrip_of_none _ rfl rfl
theorem RoundTrip.powerBrakeRelease : RoundTrip.Statement (.powerBrakeRelease) := roundTrip_of_none _ rfl rfl
theorem RoundTrip.powerGatingEntry : RoundTrip.Statement (.powerGatingEntry) := roundTrip_of_none _ rfl rfl

end Sys2Proof.Laws
end

