-- ==== Sys2Proof/Tests/Slice0.lean ====
section
/-! SUPPORT. Tests: ill-formed terms that the checks refuse, words written out from the spec's encodings, single steps whose
results the spec gives, and a state that meets the hypotheses of each statement. -/

set_option Elab.async false
set_option maxRecDepth 100000

namespace Sys2Proof.Tests

open Sys2Proof.Machine

/-! ## Ill-formed terms (R164, R165, R172, R174, R189, R203 to R205) -/

/-- The unguarded guard. -/
def un : Guard := ⟨7, false⟩

/-- Predicates and special registers stand in no integer destination, and predicates in no source (R164). -/
theorem test_wf_specifiers :
    ((Instr.add un .s32 (.p 1) (.v 0) (.v 1)).wellFormed || (Instr.add un .s32 (.sr 1) (.v 0) (.v 1)).wellFormed
      || (Instr.add un .s32 (.imm 0) (.v 0) (.v 1)).wellFormed || (Instr.add un .s32 (.v 0) (.p 1) (.v 1)).wellFormed) = false ∧
    (Instr.add un .s32 (.v 0) (.sr 1) (.imm 0)).wellFormed = true := by decide

/-- A pair begins at an even register, and a quad at a multiple of four (R165). -/
theorem test_wf_alignment :
    ((Instr.add un .s64 (.v 1) (.v 0) (.v 2)).wellFormed || (Instr.add un .s64 (.v 0) (.c 3) (.v 2)).wellFormed
      || (Instr.ld un 0 none .b128 0 (.v 2) (.s 0)).wellFormed || (Instr.ld un 0 none .b128 0 (.s 1) (.s 0)).wellFormed) = false ∧
    (Instr.ld un 0 none .b128 0 (.v 4) (.s 0)).wellFormed = true := by decide

/-- Types (R205): no 8-bit `DIV`, no signed `ADDC`, no raw `MIN`, no signed `AND`, no unsigned `ABS`, no raw `CVTI`. -/
theorem test_wf_types :
    ((Instr.div un 0 .s8 false (.v 0) (.v 1) (.v 2)).wellFormed || (Instr.addc un .s32 (.v 0) (.v 1) (.v 2) 0).wellFormed
      || (Instr.min un .b32 (.v 0) (.v 1) (.v 2)).wellFormed || (Instr.and un .s32 (.v 0) (.v 1) (.v 2)).wellFormed
      || (Instr.abs un .z32 (.v 0) (.v 1)).wellFormed || (Instr.cvti un .s32 .b32 true (.v 0) (.v 1)).wellFormed
      || (Instr.cmp un .b32 .lt 0 (.v 0) (.v 1)).wellFormed || (Instr.neg un .z32 (.v 0) (.v 1)).wellFormed
      || (Instr.lea un .s64 (.v 0) (.v 2) (.v 4) 0).wellFormed) = false := by decide

/-- A long-latency result goes to no echo register (R22); a field lies inside its type (R212); `MOVH` keeps to its halves. -/
theorem test_wf_fields :
    ((Instr.div un 0 .s32 false (.e 0) (.v 1) (.v 2)).wellFormed || (Instr.bfx un .s32 30 3 (.v 0) (.v 1)).wellFormed
      || (Instr.bfi un .b32 31 1 (.v 0) (.v 1) (.v 2)).wellFormed || (Instr.movh un (.v 0) 5 2).wellFormed
      || (Instr.movh un (.q 0) 5 0).wellFormed || (Instr.pkb un 2 2 (.v 0) (.v 1)).wellFormed
      || (Instr.rds un 4 (.v 1)).wellFormed || (Instr.rds un 0 (.e 1)).wellFormed || (Instr.wrs un 12 (.s 0)).wellFormed) = false ∧
    (Instr.bfx un .s32 29 2 (.v 0) (.v 1)).wellFormed = true := by decide

/-- Formats (R179, R242 to R245): the floats of the arithmetic words, tables for integers alone, `.nan` for floats. -/
theorem test_wf_formats :
    ((Instr.fadd un .n8e4 .rne false (.v 0) (.v 1) (.v 2)).wellFormed || (Instr.qnt un .n8e4 .rne false 1 (.v 0) (.v 1) (.v 2)).wellFormed
      || (Instr.qnt un .s8 .rne true 0 (.v 0) (.v 1) (.v 2)).wellFormed || (Instr.cvtf un .f32 .f32 .rne false false (.v 0) (.v 1) none).wellFormed
      || (Instr.cvtf un .n8e4 .f32 .rne false false (.v 0) (.v 1) none).wellFormed
      || (Instr.dot4 un 2 0 .rne (.v 0) (.v 1) (.v 2) (.v 3)).wellFormed || (Instr.ctab un none 0 (.s 0)).wellFormed) = false ∧
    (Instr.qnt un .s8 .rne false 1 (.v 0) (.v 1) (.v 2)).wellFormed = true := by decide

/-- A prefix with an order, a space or a CODE bit that the word does not take (R173, R174); a fence of order rlx (R272). -/
theorem test_wf_prefixes :
    let p : Order → Space → Bool → Prefix := fun o s c => ⟨o, .group, s, 0, .none, c⟩
    ((Instr.ld un 0 (some (p .rel .glb false)) .b32 0 (.v 0) (.s 0)).wellFormed
      || (Instr.st un (some (p .acq .glb false)) .b32 0 (.s 0) (.v 0)).wellFormed
      || (Instr.ld un 0 (some (p .rlx .spad false)) .b32 0 (.v 0) (.s 0)).wellFormed
      || (Instr.ld un 0 (some (p .rlx .glb true)) .b32 0 (.v 0) (.s 0)).wellFormed
      || (Instr.fence un (p .rlx .glb false)).wellFormed || (Instr.fence un (p .sc .spad false)).wellFormed) = false ∧
    (Instr.ld un 0 (some (p .acq .glb true)) .b32 0 (.v 0) (.s 0)).wellFormed = true := by decide

/-- Memory words: store sizes, tile forms, `.nr` without lookahead, raw `CAS`, uniform operands (R256, R264, R268, R269). -/
theorem test_wf_memory :
    ((Instr.st un none .s8 0 (.s 0) (.v 0)).wellFormed || (Instr.lds un 0 none .z8 (.tile false 0) (.v 0) (.s 0)).wellFormed
      || (Instr.lds un 0 none .b32 (.tile false 0) (.v 0) (.v 1)).wellFormed || (Instr.atom un 1 none .add .b32 none (.s 0) (.v 0)).wellFormed
      || (Instr.atom un 0 none .max .b32 (some (.v 1)) (.s 0) (.v 0)).wellFormed
      || (Instr.cas un 0 none .s32 (.v 0) (.s 0) (.v 1) (.v 2)).wellFormed || (Instr.invr un none (.v 0) (.s 0)).wellFormed) = false := by
  decide

/-- Scalar-only positions (R165), even record handles, a nonzero `TRAP` service and the loop operands (R218, R332, R340). -/
theorem test_wf_uniform :
    ((Instr.join un (.v 0)).wellFormed || (Instr.grow un 0 (.v 0) (.s 0)).wellFormed || (Instr.enq un 0 (.v 0) 0).wellFormed
      || (Instr.tset un 0 (.c 0)).wellFormed || (Instr.kmul un 0 0 0 0 (.v 0)).wellFormed || (Instr.kext un 0 0 (.v 1) (.v 4)).wellFormed
      || (Instr.kextf un 0 0 .rne false (.s 0) (.v 0) (.v 1)).wellFormed || (Instr.sget un 0 .b32 0 (.v 0) 3).wellFormed
      || (Instr.sput un .b128 0 2 (.s 0)).wellFormed || (Instr.trap un 0 (.s 0)).wellFormed || (Instr.fraise un 0 (.v 0)).wellFormed
      || (Instr.loopn 0 (.e 0) 0).wellFormed || (Instr.jidx 0 (.imm 0) 0 0).wellFormed || (Instr.vote un .ballot .w (.p 1) 0).wellFormed
      || (Instr.vote un .all .w (.v 0) 0).wellFormed || (Instr.lred un (.min .b32) .w (.v 0) (.v 1)).wellFormed) = false := by decide

/-- The rules between the halves of a paired word (R172): banks, a shared queue, one destination, an idle half with fields. -/
theorem test_wf_pairs :
    let h : Opnd → Opnd → Half := fun d s => ⟨.mov, d, s, 0⟩
    ((Instr.pairedWord (h (.v 1) (.v 2)) (h (.v 3) (.v 6))).wellFormed || (Instr.pairedWord (h (.q 1) (.v 2)) (h (.q 1) (.v 3))).wellFormed
      || (Instr.pairedWord (h (.v 1) (.v 2)) (h (.v 1) (.v 3))).wellFormed || (Instr.pairedWord (h (.v 200) (.v 2)) (h (.v 1) (.v 3))).wellFormed
      || (Instr.pairedWord ⟨.nop, .v 1, .v 0, 0⟩ (h (.v 1) (.v 3))).wellFormed) = false ∧
    (Instr.pairedWord (h (.v 1) (.v 2)) (h (.v 3) (.v 5))).wellFormed = true := by decide

/-! ## Words written out from the spec -/

/-- The worked encoding of R163: MAJOR 0x58, LA 2, DST 8, SA 644, size 3, offset 16. -/
theorem test_decode_load : (decodeWord 0x160B808A10006010).toOption = some (.ld un 2 none .b64 16 (.v 8) (.s 4)) := by decide

/-- The worked encoding of R172: `ADD.s32 v5, v6` over `FMUL v11, c2`. -/
theorem test_decode_pair : (decodeWord 0x408283700C0BC2E0).toOption =
    some (.pairedWord ⟨.add 0, .v 5, .v 6, 7⟩ ⟨.fmul .rne false, .v 11, .c 2, 7⟩) := by decide

/-- The worked encoding of R177: `BRP` on p2 to +4, otherwise +1, awaiting loads. -/
theorem test_decode_branch : (decodeWord 0xC428000000400002).toOption = some (.brp 1 2 false 4 1) := by decide

/-- `EXIT` and `NEXT` without an await (R176). -/
theorem test_decode_exit : (decodeWord 0xD400000000000000).toOption = some (.exit 0) ∧ (decodeWord 0xC000000000000000).toOption = some (.next 0) := by decide

/-- The example of chapter 10: a prefix of order acqrel and scope 3, and `ATOM` of R268 under it. -/
theorem test_decode_atom : (decodeUnit 0x9B00000000000000 0x184B814A18036000).toOption =
    some (.atom un 2 (some ⟨.acqrel, .die, .glb, 0, .none, false⟩) .add .z32 (some (.v 20)) (.s 6) (.v 3)) := by decide

/-- R286: `BAR b3`; R297: `SPAWN p3, s10, v16, p1`; chapter 15: `ENQ p0, s5, s8`. -/
theorem test_decode_group : (decodeWord 0x20C3800000000003).toOption = some (.bar un 3) ∧
    (decodeWord 0x2403AC3A28100001).toOption = some (.spawn un 3 (.s 10) 2 1 false) ∧
    (decodeWord 0x2443AC0A16880000).toOption = some (.enq un 0 (.s 5) 2) := by decide

/-- Chapters 12 and 15: `XQ s8`, `LQ s4` and `KMMA k4, s12, t2, t9`. -/
theorem test_decode_engine : (decodeWord 0x2803800A20000000).toOption = some (.xq un 2) ∧ (decodeWord 0x2843800A10000000).toOption = some (.lq un 1) ∧
    (decodeWord 0x2CC3800A30004089).toOption = some (.kmma un 0 4 2 9 (.s 12)) := by decide

/-- Chapters 13 and 15: `SPUT.b32 [s2+36], s14`, `FRAISE s9, 5`, `RESID v5` and `PRESUME s2`. -/
theorem test_decode_system : (decodeWord 0x3043800A0A8E4024).toOption = some (.sput un .b32 36 2 (.s 14)) ∧
    (decodeWord 0x3183800A24000005).toOption = some (.fraise un 5 (.s 9)) ∧ (decodeWord 0x3243800014000000).toOption = some (.resid un (.v 5)) ∧
    (decodeWord 0x3083800A08000000).toOption = some (.presume un 2) := by decide

/-- Words that decode to nothing (R161, R189): the unassigned FMT-0 major 0xFF, a prefix alone, LA on `ADD`, a nonzero unused field of
`NOP`, and a word of a service core outside custom-0 (R418). -/
theorem test_decode_refuses : (decodeWord 0x3FC3800000000000).toOption = none ∧ (decodeWord 0x9B00000000000000).toOption = none ∧
    (decodeWord 0x0007800000010000).toOption = none ∧ (decodeWord 0x34C3800000000001).toOption = none ∧
    (decodeService 0x00000013).toOption = none := by decide

/-- `(p1) SHFL.up.b32.w8 v3, v1, 1` by R162, R178, R180 and R188: MAJOR 0x50, GP 1, DST 3, SA 1, SB 897, TY 8, MINOR 1, SUBW 3. -/
theorem test_decode_shuffle : (decodeWord 0x1400803007818118).toOption = some (.shfl ⟨1, false⟩ .up .b32 .w8 (.v 3) (.v 1) (.imm 129)) := by
  decide

/-! ## A small state -/

/-- A lane with a few registers of each class. -/
def lane0 (n : Nat) (v : List Word) : Lane :=
  { st := .run, tid := BitVec.ofNat 32 n, group := some 0, pc := codeVa, target := false, stack := [], v := v ++ List.replicate (32 - v.length) 0,
    c := [7, 9] ++ List.replicate 14 0, e := [0, 0, 0, 0], p := [false, true, false, false, false, false, false],
    lq := List.replicate 12 [], sq := List.replicate 12 [], arrived := List.replicate 16 none }

/-- A wave of core 0 with the given lanes on one path, and addresses, a size and small numbers in its scalars. -/
def wave0 (ls : List Lane) (mask : BitVec 64) : Wave :=
  { codeWave with
    s := [0x10800, 0x10840, 64, 4, 0x10880, 0x0010000000000001, 1, 2] ++ List.replicate 56 0
    lanes := ls ++ List.replicate (16 - ls.length) noLane
    paths := [{ pc := codeVa, mask := mask, seg := 0, fin := none, windows := [], stall := 0, target := false }] }

/-- A group of core 0 with the given threads of wave 0. -/
def group0 (ts : List Nat) : Group := newGroup 0 0 0 1 ⟨1, 1, 16, 4, 4, 4, 4⟩ (ts.map fun l => (0, l))

/-- A machine whose path of core 0, wave 0 is selected. One page is mapped at 0x10000. -/
def mach0 (ls : List Lane) : Mach :=
  let mask := BitVec.ofNat 64 (2 ^ ls.length - 1)
  { Mach.reset with
    freeCount := 1, cur := some (.path 0 0 mask), ctxs := [codeCtx], groups := [group0 (List.range ls.length)], waves := [wave0 ls mask]
    mem := codeTables.foldl (fun m e => m.writeN e.1 (toBytes 8 e.2)) [] }

/-- The module with that machine. -/
def state0 (ls : List Lane) : State := { State.reset with mach := mach0 ls }

/-- Two threads: v0 is 5 and 6, v1 is 3, and v2 to v5 hold the addresses 0x10800 and 0x10840. -/
def st0 : State := state0 [lane0 0 [5, 3, 0x10800, 0, 0x10840, 0], lane0 1 [6, 3, 0x10804, 0, 0x10844, 0]]

/-- The state after a word. -/
def after (i : Instr) (s : State) : State :=
  match exec i s with
  | .next t => t
  | _ => s

/-- A register of a lane of the wave. -/
def vReg (s : State) (l n : Nat) : Word := ((s.mach.waves.headD codeWave).lane l).v.getD n 0

/-- The wave's fault record code, or none, from what its parked record says. -/
def pcs (s : State) : List (BitVec 64) := (s.mach.waves.headD codeWave).paths.map Path.pc

/-! ### Meeting the hypotheses of an issue -/

/-- Where a word issues and meets nothing before its effect: the machine and the issue. -/
def issuesB (s : State) (info : WordInfo) : Option (Mach × Io) :=
  match s.mach.curPath with
  | none => none
  | some (w, p) =>
    let m := settlePath s.mach w p
    match m.curPath with
    | none => none
    | some (w, p) =>
      let io : Io := ⟨w, p, guardLanes w p.mask info.guard⟩
      if s.mach.probing = false ∧ preFault s.dev m io info = none ∧ io.retryWait info = false ∧
          queueStall w io.act info.srcs info.dsts = false ∧ w.step.getLsbD 0 = false
      then some (m, io) else none

theorem issues_of {s : State} {info : WordInfo} {m : Mach} {io : Io} (h : issuesB s info = some (m, io)) : Issues s info m io := by
  unfold issuesB at h
  split at h
  · cases h
  · next w p e =>
    simp only at h
    split at h
    · cases h
    · next w' p' e' =>
      split at h
      · next hc =>
        cases h
        exact ⟨hc.1, ⟨w, p, e, rfl⟩, e', rfl, hc.2.1, hc.2.2.1, hc.2.2.2.1, hc.2.2.2.2⟩
      · cases h

/-- Where a word issues, with a further condition on the machine and the issue. -/
def issuesAnd (s : State) (info : WordInfo) (q : Mach → Io → Bool) : Bool :=
  match issuesB s info with
  | some (m, io) => q m io
  | none => false

theorem issues_and {s : State} {info : WordInfo} {q : Mach → Io → Bool} (h : issuesAnd s info q = true) :
    ∃ m io, Issues s info m io ∧ q m io = true := by
  unfold issuesAnd at h
  split at h
  · next m io e => exact ⟨m, io, issues_of e, h⟩
  · cases h

/-- Where a word stands: the machine and the issue. -/
def standsB (s : State) (info : WordInfo) : Option (Mach × Io) :=
  match s.mach.curPath with
  | none => none
  | some (w, p) =>
    let m := settlePath s.mach w p
    match m.curPath with
    | none => none
    | some (w, p) =>
      let io : Io := ⟨w, p, guardLanes w p.mask info.guard⟩
      if s.mach.probing = false ∧ io.deferred info = none ∧ io.gone = false then some (m, io) else none

theorem stands_of {s : State} {info : WordInfo} {m : Mach} {io : Io} (h : standsB s info = some (m, io)) : Stands s info m io := by
  unfold standsB at h
  split at h
  · cases h
  · next w p e =>
    simp only at h
    split at h
    · cases h
    · next w' p' e' =>
      split at h
      · next hc =>
        cases h
        exact ⟨hc.1, ⟨w, p, e, rfl⟩, e', rfl, hc.2.1, hc.2.2⟩
      · cases h

/-- Where a word stands, with a further condition on the machine and the issue. -/
def standsAnd (s : State) (info : WordInfo) (q : Mach → Io → Bool) : Bool :=
  match standsB s info with
  | some (m, io) => q m io
  | none => false

theorem stands_and {s : State} {info : WordInfo} {q : Mach → Io → Bool} (h : standsAnd s info q = true) :
    ∃ m io, Stands s info m io ∧ q m io = true := by
  unfold standsAnd at h
  split at h
  · next m io e => exact ⟨m, io, stands_of e, h⟩
  · cases h

/-- Where a memory word issues and its order makes it wait for nothing. -/
def reachesAnd (s : State) (info : WordInfo) (k : MemKind) (pre : Option Prefix) (q : Mach → Io → Prefix → Mach → Bool) : Bool :=
  issuesAnd s info fun m io =>
    let r := orderBefore s.dev m io (forcePrefix k pre io.w)
    !r.2 && q m io (forcePrefix k pre io.w) r.1

theorem reaches_and {s : State} {info : WordInfo} {k : MemKind} {pre : Option Prefix} {q : Mach → Io → Prefix → Mach → Bool}
    (h : reachesAnd s info k pre q = true) : ∃ m io p m1, Reaches s info k pre m io p m1 ∧ q m io p m1 = true := by
  obtain ⟨m, io, hi, e⟩ := issues_and h
  simp only [Bool.and_eq_true, Bool.not_eq_true'] at e
  exact ⟨m, io, _, _, ⟨hi, rfl, Prod.ext rfl e.1⟩, e.2⟩

/-- Where a trailer is met. -/
def metB (s : State) (i : Instr) (aw : BitVec 5) (srcs : List (Opnd × Nat)) (preds : List Nat) : Option (Mach × Wave × Path) :=
  match s.mach.curPath with
  | none => none
  | some (w0, p0) =>
    let m := settlePath s.mach w0 p0
    match m.curPath with
    | none => none
    | some (w, p) =>
      let io : Io := ⟨w, p, lanesOf w.width p.mask⟩
      let info := trailerInfo i aw srcs preds w p
      if s.mach.probing = false ∧ trailerWaits io info = false ∧ io.deferred info = none ∧ (p.seg = 0 → p.target = false) ∧ p.mask ≠ 0
      then some (m, w, p) else none

theorem met_of {s : State} {i : Instr} {aw : BitVec 5} {srcs : List (Opnd × Nat)} {preds : List Nat} {m : Mach} {w : Wave} {p : Path}
    (h : metB s i aw srcs preds = some (m, w, p)) : TrailerMet s i aw srcs preds m w p := by
  unfold metB at h
  split at h
  · cases h
  · next w0 p0 e =>
    simp only at h
    split at h
    · cases h
    · next w' p' e' =>
      split at h
      · next hc =>
        cases h
        exact ⟨hc.1, ⟨w0, p0, e, rfl⟩, e', hc.2.1, hc.2.2.1, hc.2.2.2.1, hc.2.2.2.2⟩
      · cases h

/-- Where a trailer is met, with a further condition. -/
def metAnd (s : State) (i : Instr) (aw : BitVec 5) (srcs : List (Opnd × Nat)) (preds : List Nat) (q : Mach → Wave → Path → Bool) : Bool :=
  match metB s i aw srcs preds with
  | some (m, w, p) => q m w p
  | none => false

theorem met_and {s : State} {i : Instr} {aw : BitVec 5} {srcs : List (Opnd × Nat)} {preds : List Nat} {q : Mach → Wave → Path → Bool}
    (h : metAnd s i aw srcs preds q = true) : ∃ m w p, TrailerMet s i aw srcs preds m w p ∧ q m w p = true := by
  unfold metAnd at h
  split at h
  · next m w p e => exact ⟨m, w, p, met_of e, h⟩
  · cases h

/-- Where a trailer issues and meets nothing before its successor rule, with a further condition. -/
def atAnd (s : State) (i : Instr) (aw : BitVec 5) (srcs : List (Opnd × Nat)) (preds : List Nat) (q : Mach → Wave → Path → Bool) : Bool :=
  metAnd s i aw srcs preds fun m1 w1 p1 =>
    decide (p1.fin = none) && (lanesOf w1.width p1.mask).all (fun l => !srcs.any (unallotted w1 l) && !preds.any (unallottedP w1 l)) &&
      match (closePath m1 w1 p1).wave w1.core w1.id with
      | some w => !w.step.getLsbD 0 && q (closePath m1 w1 p1) w { p1 with windows := [] }
      | none => false

theorem at_and {s : State} {i : Instr} {aw : BitVec 5} {srcs : List (Opnd × Nat)} {preds : List Nat} {q : Mach → Wave → Path → Bool}
    (h : atAnd s i aw srcs preds q = true) : ∃ m w p, AtTrailer s i aw srcs preds m w p ∧ q m w p = true := by
  obtain ⟨m1, w1, p1, hm, e⟩ := met_and h
  simp only [Bool.and_eq_true, decide_eq_true_eq, List.all_eq_true, Bool.not_eq_true'] at e
  obtain ⟨⟨h1, h2⟩, h3⟩ := e
  split at h3
  · next w ew =>
    simp only [Bool.and_eq_true, Bool.not_eq_true'] at h3
    exact ⟨_, w, _, ⟨⟨m1, w1, p1, hm, h1, h2, rfl, ew, rfl⟩, h3.1⟩, h3.2⟩
  · cases h3

/-- Each word of a list issues on two lanes. -/
theorem issue_all {s : State} {l : List WordInfo} (h : l.all (fun i => issuesAnd s i fun _ io => decide (io.act ≠ [])) = true) :
    ∀ i ∈ l, ∃ m io, Issues s i m io ∧ io.act ≠ [] := by
  intro i hi
  obtain ⟨m, io, h1, h2⟩ := issues_and (List.all_eq_true.1 h i hi)
  exact ⟨m, io, h1, by simpa using h2⟩

/-! ## States that meet the hypotheses of the statements -/

/-- IntegerResults. -/
theorem wit_IntegerResults :
    ∀ i ∈ [shortInfo (.add un .s32 (.v 8) (.v 0) (.v 1)) un [(.v 0, 32), (.v 1, 32)] [(.v 8, 32)] [],
      shortInfo (.addc un .z64 (.v 8) (.v 2) (.v 4) 1) un [(.v 2, 64), (.v 4, 64)] [(.v 8, 64)] [1],
      shortInfo (.mad un .s32 (.v 8) (.v 0) (.v 1) (.imm 130)) un [(.v 0, 32), (.v 1, 32), (.imm 130, 32)] [(.v 8, 32)] [],
      shortInfo (.abs un .s8 (.v 8) (.v 0)) un [(.v 0, 32)] [(.v 8, 32)] [],
      shortInfo (.lea un .z32 (.v 8) (.s 0) (.v 0) 15) un [(.s 0, 64), (.v 0, 32)] [(.v 8, 64)] [],
      shortInfo (.lea un .b32 (.v 8) (.v 1) (.v 0) 3) un [(.v 1, 32), (.v 0, 32)] [(.v 8, 32)] [],
      shortInfo (.cvti un .s8 .z64 true (.v 8) (.v 2)) un [(.v 2, 64)] [(.v 8, 32)] []],
      ∃ m io, Issues st0 i m io ∧ io.act ≠ [] := issue_all (by decide +kernel)

/-- ShiftAndFieldResults: a division without a corner in any lane, under `.trap`, and the fields at the ends of their types. -/
theorem wit_ShiftAndFieldResults :
    (∃ m io, Issues st0 (longInfo (.div un 0 .s32 true (.v 8) (.v 0) (.v 1)) un 0 [(.v 0, 32), (.v 1, 32)] [(.v 8, 32)]) m io ∧
      (io.act.all fun l => readInt st0.dev m io.w l .s32 (.v 1) != 0 && readInt st0.dev m io.w l .s32 (.v 1) != -1) = true) ∧
    (∀ i ∈ [longInfo (.rem un 2 .s64 false (.v 8) (.v 2) (.v 30)) un 2 [(.v 2, 64), (.v 30, 64)] [(.v 8, 64)],
      shortInfo (.sar un .b32 (.v 8) (.v 0) (.v 1)) un [(.v 0, 32), (.v 1, 32)] [(.v 8, 32)] [],
      shortInfo (.clz un .b64 (.v 8) (.v 2)) un [(.v 2, 64)] [(.v 8, 64)] [],
      shortInfo (.bfx un .s64 63 0 (.v 8) (.v 2)) un [(.v 2, 64)] [(.v 8, 64)] [],
      shortInfo (.bfi un .b32 0 31 (.v 8) (.v 0) (.v 1)) un [(.v 0, 32), (.v 1, 32)] [(.v 8, 32)] [],
      shortInfo (.movh un (.s 4) 0xABCD 3) un [(.s 4, 64)] [(.s 4, 64)] []],
      ∃ m io, Issues st0 i m io ∧ io.act ≠ []) ∧
    (Instr.bfx un .s64 63 0 (.v 8) (.v 2)).wellFormed && (Instr.bfi un .b32 0 31 (.v 8) (.v 0) (.v 1)).wellFormed
      && (Instr.movh un (.s 4) 0xABCD 3).wellFormed = true :=
  ⟨issues_and (by decide +kernel), issue_all (by decide +kernel), by decide⟩

/-- The paired word of the next witness: `ADD v0, v1` over `MOV v10, v3` under p1. -/
def up0 : Half := ⟨.add 0, .v 0, .v 1, 7⟩
def lo0 : Half := ⟨.mov, .v 10, .v 3, 1⟩

/-- MoveAndPairResults. -/
theorem wit_MoveAndPairResults :
    (∀ i ∈ [shortInfo (.sel un .b32 (.v 8) (.v 0) (.v 1) 1) un [(.v 0, 32), (.v 1, 32)] [(.v 8, 32)] [1],
      shortInfo (.mov un .b64 (.v 8) (.s 0)) un [(.s 0, 64)] [(.v 8, 64)] [],
      shortInfo (.movi un (.v 8) 0x2000000) un [] [(.v 8, 32)] [],
      shortInfo (.cmp un .z32 .lt 2 (.v 0) (.v 1)) un [(.v 0, 32), (.v 1, 32)] [] [2],
      shortInfo (.pnot un 2 1) un [] [] [2, 1, 1]], ∃ m io, Issues st0 i m io ∧ io.act ≠ []) ∧
    (∃ m io, Issues st0 { shortInfo (.pairedWord up0 lo0) un [] [] [] with
        touch := [(.v 0, 32), (.v 1, 32), (.v 3, 32), (.v 0, 32), (.v 10, 32)] } m io ∧
      ([(up0, [(Opnd.v 0, 32), (Opnd.v 1, 32), (Opnd.v 0, 32)]), (lo0, [(Opnd.v 3, 32), (Opnd.v 10, 32)])].all fun (k : Half × List (Opnd × Nat)) =>
        io.act.all (fun l => !unallottedP io.w l k.1.g.val && k.2.all fun o => !unallotted io.w l o)
          && !queueStall io.w (io.act.filter fun l => (io.w.lane l).pred k.1.g.val) k.2 k.2 && !io.w.shadow) = true) :=
  ⟨issue_all (by decide +kernel), issues_and (by decide +kernel)⟩

/-- FloatRoundingIsCorrect. -/
theorem wit_FloatRoundingIsCorrect : FFmt.f16.arith = true ∧ 0 < 3 := by decide

/-- FloatOrderResults, FloatSumAndProductResults and FloatFunctionResults. -/
theorem wit_float_words :
    ∀ i ∈ [shortInfo (.fmax un .bf16 true (.v 8) (.v 0) (.v 1)) un [(.v 0, 32), (.v 1, 32)] [(.v 8, 32)] [],
      shortInfo (.fcmp un .f32 .un false 2 (.v 0) (.v 1)) un [(.v 0, 32), (.v 1, 32)] [] [2],
      shortInfo (.fclass un .f16 (.v 8) (.v 0)) un [(.v 0, 32)] [(.v 8, 32)] [],
      shortInfo (.fadd un .f32 .rdn true (.v 8) (.v 0) (.imm 255)) un [(.v 0, 32), (.imm 255, 32)] [(.v 8, 32)] [],
      shortInfo (.ffma un .rz false (.v 8) (.v 0) (.v 1) (.c 3)) un [(.v 0, 32), (.v 1, 32), (.c 3, 32)] [(.v 8, 32)] [],
      shortInfo (.hfma2 un true .rne false (.v 8) (.v 0) (.v 1) (.v 4)) un [(.v 0, 32), (.v 1, 32), (.v 4, 32)] [(.v 8, 32)] [],
      longInfo (.fdiv un 1 .f32 .rne false (.v 8) (.v 0) (.v 1)) un 1 [(.v 0, 32), (.v 1, 32)] [(.v 8, 32)],
      longInfo (.fsin un 15 .rne true (.v 8) (.v 0)) un 15 [(.v 0, 32)] [(.v 8, 32)],
      shortInfo (.cvtf un .f32 .n8e4 .rne false false (.v 8) (.v 0) (some (.v 1))) un [(.v 0, 32), (.v 1, 32)] [(.v 8, 32)] [],
      shortInfo (.cvtfi un .s64 .f32 .rz false (.v 8) (.v 0)) un [(.v 0, 32)] [(.v 8, 64)] [],
      shortInfo (.cvtif un .f16 .z8 .rup (.v 8) (.v 0)) un [(.v 0, 32)] [(.v 8, 32)] []],
      ∃ m io, Issues st0 i m io ∧ io.act ≠ [] := issue_all (by decide +kernel)

/-- FloatFunctionResults: the reciprocal of 1, and its two nearest integers. -/
theorem wit_reciprocal :
    (1 : Nat) * 2 ^ 23 = 2 ^ 23 + 0 ∧ 2 * (((2 ^ 23 * 128 : Nat) : Int) - (2 : Int) ^ 30).natAbs ≤ 128 ∧
      2 * (((65028 * (128 * 129) : Nat) : Int) - (2 : Int) ^ 30).natAbs ≤ 128 * 129 := by decide

/-- A companding table whose thresholds and slopes rise from zero. -/
def risingTable : List Byte := ((List.range 16).map fun i => toBytes 8 (64 * i + 2 ^ 16 * (64 * i) + 2 ^ 32)).flatten

/-- PackedAndQuantizingResults: a valid table, the last segment at or below 70, and the place of the code 0. -/
theorem wit_compandTable :
    ctValid risingTable = true ∧ (ctEntry risingTable 1).1 ≤ 70 ∧ (∀ j < 16, 1 < j → 70 < (ctEntry risingTable j).1) ∧
      2 * (((0 * compandMax .s8 : Nat) : Int) - ((0 * 2 ^ 16 : Nat) : Int)).natAbs ≤ compandMax .s8 ∧ (ctEntry risingTable 0).2.1 ≤ 0 ∧
      ∀ j < 16, 0 < j → 0 < (ctEntry risingTable j).2.1 := by decide +kernel

/-- The state with a table in the context's companding table 1. -/
def stTable : State := st0.withMach fun _ m => m.updCtx 1 fun c => { c with ctabs := [some (List.replicate 128 0), none, none] }

/-- PackedAndQuantizingResults: without and with a loaded table. -/
theorem wit_PackedAndQuantizingResults :
    (∀ i ∈ [shortInfo (.dot4 un 0 1 .rne (.v 8) (.v 0) (.v 1) (.c 0)) un [(.v 0, 32), (.v 1, 32), (.c 0, 32)] [(.v 8, 32)] [],
      shortInfo (.bscl un .n8e5 (.v 8) (.v 0)) un [(.v 0, 32)] [(.v 8, 32)] [],
      shortInfo (.pkb un 0 7 (.v 8) (.v 0)) un [(.v 0, 32), (.v 8, 32)] [(.v 8, 32)] [],
      shortInfo (.upkb un 2 1 (.v 8) (.v 0)) un [(.v 0, 32)] [(.v 8, 32)] [],
      shortInfo (.qnt un .n4e2 .rne true 0 (.v 8) (.v 0) (.v 1)) un [(.v 0, 32), (.v 1, 32)] [(.v 8, 32)] [],
      shortInfo (.dqnt un .s4 0 (.v 8) (.v 0) (.v 1)) un [(.v 0, 32), (.v 1, 32)] [(.v 8, 32)] []],
      ∃ m io, Issues st0 i m io ∧ io.act ≠ []) ∧
    (∀ i ∈ [shortInfo (.qnt un .s8 .rne false 1 (.v 8) (.v 0) (.v 1)) un [(.v 0, 32), (.v 1, 32)] [(.v 8, 32)] [],
      shortInfo (.dqnt un .s8 1 (.v 8) (.v 0) (.v 1)) un [(.v 0, 32), (.v 1, 32)] [(.v 8, 32)] []],
      ∃ m io, Issues stTable i m io ∧ (((m.ctx io.w.asid).bind fun c => c.ctabs[0]?).bind id).isSome = true) :=
  ⟨issue_all (by decide +kernel), by
    intro i hi
    simp only [List.mem_cons, List.not_mem_nil, or_false] at hi
    rcases hi with rfl | rfl <;> exact issues_and (q := fun m io => (((m.ctx io.w.asid).bind fun c => c.ctabs[0]?).bind id).isSome) (by decide +kernel)⟩

/-- LaneWordResults, in a wave of 16 lanes. -/
theorem wit_LaneWordResults :
    (∀ i ∈ [subInfo (.shfl un .xor .b32 .w8 (.v 8) (.v 0) (.v 1)) un .w8 [(.v 0, 32), (.v 1, 32)] [(.v 8, 32)] [] st0.mach,
      subInfo (.vote un .ballot .w (.s 6) 1) un .w [] [(.s 6, 64)] [1] st0.mach,
      subInfo (.matchL un true .b64 .w2 (.p 3) (.v 2)) un .w2 [(.v 2, 64)] [] [3] st0.mach,
      subInfo (.lred un (.add .s32) .w4 (.v 8) (.v 0)) un .w4 [(.v 0, 32)] [(.v 8, 32)] [] st0.mach,
      subInfo (.lscan un (.max .z32) .w16 (.v 8) (.v 0)) un .w16 [(.v 0, 32)] [(.v 8, 32)] [] st0.mach],
      ∃ m io, Issues st0 i m io ∧ io.act ≠ []) ∧ (st0.mach.waves.map Wave.width) = [16] :=
  ⟨issue_all (by decide +kernel), by decide +kernel⟩

/-- RegisterWritesFrame: a word that writes at once, in lanes that have the registers written. -/
theorem wit_RegisterWritesFrame :
    ∃ m io, Issues st0 (shortInfo (.mov un .b64 (.v 8) (.s 0)) un [(.s 0, 64)] [(.v 8, 64)] []) m io ∧
      ((shortInfo (.mov un .b64 (.v 8) (.s 0)) un [(.s 0, 64)] [(.v 8, 64)] []).atOnce && decide (io.act = [0, 1])
        && io.act.all fun l => decide (l < io.w.lanes.length) && decide (12 ≤ (io.w.lane l).v.length)
          && decide (4 ≤ (io.w.lane l).c.length) && decide (2 < (io.w.lane l).p.length) && decide (0 < io.w.s.length)) = true :=
  issues_and (by decide +kernel)

/-- What a gather of loads in some lanes gives when nothing faults. -/
def gOk (act : List Nat) (g : Gather) : Bool := decide (g.vals.map Prod.fst = act) && g.flts.isEmpty && g.dfl.isEmpty && !g.wait

/-- An answer that is no error. -/
def okB {ε α : Type} : Except ε α → Bool
  | .ok _ => true
  | .error _ => false

/-- Where an access stands, or a place that no access has. -/
def placeOf : Except Flt Where → Where
  | .ok x => x
  | .error _ => .mem []

/-- A condition on each lane, with the lanes before it. -/
def fronts (act : List Nat) (q : List Nat → Nat → Bool) : Bool := (List.range act.length).all fun i => q (act.take i) (act.getD i 0)

/-- A write of four bytes in flight to 0x10800. -/
def store0 : Store :=
  { tag := 1, core := 0, wave := 0, lane := 0, lanes := 1, tid := 0, group := some 0, asid := 1, pc := codeVa, va := 0x10800, pa := 0x200800,
    data := [1, 2, 3, 4], op := .write, order := 1, toHome := false, depth := none, more := [], stamp := [], guarded := false, record := none }

/-- CoherentValues: a core's write and a home's, a store in flight that covers a load, and storage of a group. -/
theorem wit_CoherentValues :
    (mach0 []).mem.wf = true ∧ (mach0 []).coh.lost 0x20000 = false ∧
    (∃ x : Store, x.op = .write ∧ x.guarded = false ∧ x.record = none ∧ x.more = [] ∧ x.pa ≤ 0x100001 ∧ 0x100001 + 2 ≤ x.pa + x.data.length) ∧
    (localWf (group0 [0]).spad = true ∧ localWf (group0 [0]).ostore = true) ∧ ((Space.glb == .spad) ≠ (Space.spad == .spad)) ∧
    (3 + 2 ≤ 5 ∨ 5 + 1 ≤ 3) :=
  ⟨by decide +kernel, by decide +kernel, ⟨{ store0 with pa := 0x100000 }, by decide⟩,
    by decide, by decide, by decide⟩

/-- The info of a load of 8 bytes, and its lane addresses. -/
def ldI : WordInfo := memInfo (.ld un 2 none .b64 8 (.v 8) (.v 2)) un (some 2) globLoad none [(.v 2, 64)] [(.v 8, 64)] st0.mach
def ld128I : WordInfo := memInfo (.ld128a un 0 none 0 (.v 8) (.s 0)) un (some 0) globLoad none [(.s 0, 64)] [(.v 8, 128)] st0.mach
def stI : WordInfo := memInfo (.st un none .b32 0 (.v 2) (.v 0)) un none globStore none [(.v 2, 64), (.v 0, 32)] [] st0.mach
def st128I : WordInfo := memInfo (.st128a un none 0 (.s 0) (.v 0)) un none globStore none [(.s 0, 64), (.v 0, 128)] [] st0.mach

/-- An address that a lane reads, with an offset. -/
def addrAt (m : Mach) (io : Io) (l : Nat) (o : Opnd) (off : BitVec 12) : Int := ((readOp st0.dev m io.w l 64 o : Int) + off.toInt) % 2 ^ 64

/-- LoadAndStoreResults: the four forms, on addresses of a mapped page. (`reaches_and` says what `reachesAnd` shows.) -/
theorem wit_LoadAndStoreResults :
    reachesAnd st0 ldI globLoad none (fun _ io _ m1 =>
      gOk io.act (gatherLoads st0.dev io.w .glb 8 false (fun l => addrAt m1 io l (.v 2) 8) io.act m1)) = true ∧
    reachesAnd st0 ld128I globLoad none (fun _ io _ m1 => let a := fun l => addrAt m1 io l (.s 0) 0
      gOk io.act (gatherBy (fun m l => if pcie128 st0.dev m io.w (a l) .r l then (.precise ⟨0x02, addr64 (a l)⟩, m)
        else homeLane st0.dev m io.w l (a l) 16 true) a io.act m1)) = true ∧
    reachesAnd st0 stI globStore none (fun _ io p m1 => let a := fun l => addrAt m1 io l (.v 2) 0
      fronts io.act fun pre l => okB (checkAcc st0.dev (pre.foldl (fun m k => storeAt io k (addr64 (a k))
        (placeOf (checkAcc st0.dev m1 io.w k .glb (a k) 4 .w false)) (toBytes 4 (readOp st0.dev m1 io.w k 32 (.v 0))) .write p m) m1)
        io.w l .glb (a l) 4 .w false)) = true ∧
    reachesAnd st0 st128I globStore none (fun _ io p m1 => let a := fun l => addrAt m1 io l (.s 0) 0
      io.act.all (fun l => !pcie128 st0.dev m1 io.w (a l) .w l) && fronts io.act fun pre l => okB (checkAcc st0.dev
        (pre.foldl (fun m k => storeAt io k (addr64 (a k)) (placeOf (checkAcc st0.dev m1 io.w k .glb (a k) 16 .w true))
          (toBytes 16 (readOp st0.dev m1 io.w k 128 (.v 0))) .write p m) m1) io.w l .glb (a l) 16 .w true)) = true := by
  decide +kernel

/-- A descriptor of a tile of two rows and two columns of 8-byte elements at scratchpad offset 64. -/
def tileDesc : BitVec 64 := 0x080E0001

/-- A tile with it. -/
def tile0 (x : TState) : Tile := ⟨tileDesc, x, false, 0, 16, 16, 0, 2, 0⟩

/-- The small state with its group changed. -/
def stG (f : Group → Group) : State := st0.withMach fun _ m => m.updGroup 0 0 f

/-- LocalStorageResults: offsets inside the group's scratchpad and operand store, and the tile forms on a ready and on a filling tile. -/
theorem wit_LocalStorageResults :
    ([(Instr.lds un 0 none .b64 (.off 8) (.v 8) (.v 1), Space.spad), (.ldb un 0 none .b64 (.off 8) (.v 8) (.v 1), .ostore)].all
      fun (x : Instr × Space) => reachesAnd st0 (memInfo x.1 un (some 0) (ownLoad x.2) none [(.v 0, 32)] [(.v 8, 64)] st0.mach) (ownLoad x.2) none
        fun _ io _ m1 => io.act.all fun l => match m1.laneGroup io.w l with
          | some g => g.inside x.2 8 8 true
          | none => false) = true ∧
    ([(Instr.sts un none .b32 (.off 8) (.s 2) (.v 1), Space.spad), (.stb un none .b32 (.off 8) (.s 2) (.v 1), .ostore)].all
      fun (x : Instr × Space) => reachesAnd st0 (memInfo x.1 un none (ownStore x.2) none [(.s 2, 32), (.v 1, 32)] [] st0.mach) (ownStore x.2) none
        fun _ io _ m1 => io.act.all fun l => match m1.laneGroup io.w l with
          | some g => g.inside x.2 ((readOp st0.dev m1 io.w l 32 (.s 2) : Int) + 8) 4 true
          | none => false) = true ∧
    (tdesc tileDesc).esize = 3 ∧ (tdesc tileDesc).bare = false ∧ (tdesc tileDesc).space = .spad ∧
    ([TState.ready, .filling].all fun t => decide (((stG fun g => { g with tiles := [(2, tile0 t)] }).mach.group 0 0).bind (fun g => g.tile 2)
      = some (tile0 t))) = true := by
  decide +kernel

/-- BlockResults: two lanes move a quarter each of the block at 0x10800. -/
theorem wit_BlockResults :
    reachesAnd st0 (memInfo (.blkld un 0 none (.v 8) (.s 0)) un (some 0) blockLoad none [(.s 0, 64)] [(.v 8, 128)] st0.mach) blockLoad none
      (fun _ io p m1 =>
        let base := fun l => laneAddr st0.dev m1 io.w l p.space (.s 0) 0
        let g := gatherLoads st0.dev io.w p.space 1 false base io.act m1
        io.act.all (fun l => base l % 64 == 0) && gOk io.act g && g.vals.all (fun x => !blockBad m1 io.w.asid (x.2.headD 0).toNat) &&
          gOk io.act (gatherLoads st0.dev io.w p.space 16 true (fun l => base l + 16 * (l % 4 : Nat)) io.act g.m)) = true ∧
    ([Space.glb, .spad].all fun sp => let pre : Option Prefix := if sp == .glb then none else some ⟨.rlx, .wave, .spad, 0, .none, false⟩
     let ab := blockBits blockStore pre st0.mach
     let a : Opnd := if sp == .glb then .s 0 else .s 2
     reachesAnd st0 (memInfo (.blkst un pre a (.v 12)) un none blockStore pre [(a, ab), (.v 12, 128)] [] st0.mach) blockStore pre
      (fun _ io p m1 =>
        let base := fun l => laneAddr st0.dev m1 io.w l p.space a 0
        let at_ := fun m l => checkAcc st0.dev m io.w l p.space (base l + 16 * (l % 4 : Nat)) 16 .w true
        let put := fun m l => storeAt io l (addr64 (base l + 16 * (l % 4 : Nat))) (placeOf (at_ m1 l)) (toBytes 16 (readOp st0.dev m1 io.w l 128 (.v 12))) .write p m
        p.space == sp && a.aligned ab && io.act.all (fun l => base l % 64 == 0 && (l % 4 != 0 || !blockBad m1 io.w.asid (readOp st0.dev m1 io.w l 128 (.v 12) % 256))
          && match at_ m1 l with
            | .ok (.mem _) => sp == .glb && !io.w.guarded
            | .ok _ => sp == .spad
            | .error _ => false)
          && fronts io.act fun pre l => okB (at_ (pre.foldl put m1) l))) = true := by
  decide +kernel

/-- The small state with a wave of 32 lanes, and a companding table at 0x10880. -/
def stMx : State := st0.withMach fun _ m =>
  { m with
    waves := m.waves.map fun w => { w with width := 32, lanes := w.lanes ++ List.replicate 16 noLane }
    mem := m.mem.writeN 0x200880 risingTable }

/-- BlockAndMxResults and OrdinaryWordsComplete: elements of n8e4 at 0x10800 with the scale at 0x10840, and the table at 0x10880. -/
theorem wit_MxAndTableResults :
    reachesAnd stMx (memInfo (.mxld un 0 none .n8e4 .rne (.v 8) (.s 0) (.s 1)) un (some 0) globLoad none [(.s 0, 64), (.s 1, 64)] [(.v 8, 32)] stMx.mach)
      globLoad none (fun _ io p m1 => decide (mxGroups io = [io.act]) && decide (io.act ≠ []) && 0x10800 % mxBytes .n8e4 == 0 &&
        (mxLoads stMx.dev m1 io p .n8e4 .rne (.s 0) (.s 1)).isSome) = true ∧
    reachesAnd stMx (memInfo (.mxst un none .n8e4 .rne false (.v 0) (.s 0) (.s 1)) un none globStore none [(.v 0, 32), (.s 0, 64), (.s 1, 64)] [] stMx.mach)
      globStore none (fun _ io p m1 => decide (mxGroups io = [io.act]) && (mxStores stMx.dev m1 io p .n8e4 .rne false (.v 0) (.s 0) (.s 1)).isSome) = true ∧
    mxBad stMx.mach = false ∧
    reachesAnd stMx (memInfo (.ctab un none 1 (.s 4)) un none ⟨[.rlx], none, [.glb]⟩ none [(.s 4, 64)] [] stMx.mach) ⟨[.rlx], none, [.glb]⟩ none
      (fun _ io _ m1 => decide (io.act ≠ []) && match homeLane stMx.dev m1 io.w io.lead 0x10880 128 false with
        | (.bytes bs, _) => ctValid bs
        | _ => false) = true := by
  decide +kernel

/-- AtomicResults: each atomic on two lanes, with and without a result, in global memory and (with a space) in scratchpad. -/
theorem wit_AtomicResults :
    reachesAnd st0 (memInfo (.atom un 0 none .max .z32 (some (.v 8)) (.v 2) (.v 0)) un (some 0) anyAtom none [(.v 2, 64), (.v 0, 32)] [(.v 8, 32)] st0.mach)
      anyAtom none (fun _ io p m1 => p.space == .glb && gOk io.act (atomicLanes st0.dev io p.space 4 (atomicOpOf .max) (fun l => laneAddr st0.dev m1 io.w l p.space (.v 2) 0)
        (fun l old => some (atomNew .max .z32 (readOp st0.dev m1 io.w l 32 (.v 0)) old)) m1)) = true ∧
    reachesAnd st0 (memInfo (.cas un 0 none .b64 (.v 8) (.s 0) (.v 2) (.v 4)) un (some 0) anyAtom none [(.s 0, 64), (.v 2, 64), (.v 4, 64)] [(.v 8, 64)] st0.mach)
      anyAtom none (fun _ io p m1 => gOk io.act (atomicLanes st0.dev io p.space 8 (some 2) (fun l => laneAddr st0.dev m1 io.w l p.space (.s 0) 0)
        (fun l old => if ofBytes old = readOp st0.dev m1 io.w l 64 (.v 2) then some (toBytes 8 (readOp st0.dev m1 io.w l 64 (.v 4))) else none) m1)) = true ∧
    reachesAnd st0 (memInfo (.cas128 un 0 none (.v 8) (.s 0) (.v 0) (.v 4)) un (some 0) globAtom none [(.s 0, 64), (.v 0, 128), (.v 4, 128)] [(.v 8, 128)] st0.mach)
      globAtom none (fun _ io _ m1 => gOk io.act (atomicLanes st0.dev io .glb 16 (some 2) (fun _ => 0x10800)
        (fun l old => if ofBytes old = readOp st0.dev m1 io.w l 128 (.v 0) then some (toBytes 16 (readOp st0.dev m1 io.w l 128 (.v 4))) else none) m1)) = true ∧
    reachesAnd st0 (memInfo (.atom un 0 none .add .s64 none (.s 0) (.v 4)) un none anyAtom none [(.s 0, 64), (.v 4, 64)] [] st0.mach)
      anyAtom none (fun _ io p m1 =>
        let at_ := fun m l => checkAcc st0.dev m io.w l p.space 0x10800 8 .w true
        let x := fun l => readOp st0.dev m1 io.w l 64 (.v 4)
        !io.w.guarded && fronts io.act fun pre l => match at_ (pre.foldl (fun m k => storeAt io k 0x10800 (placeOf (at_ m1 k)) (toBytes 8 (x k))
            (.atom .add .s64 (BitVec.ofNat 64 (x k))) p m) m1) l with
          | .ok (.mem ps) => !pcieRefuses st0.dev ps (atomicOpOf .add).isSome
          | _ => false) = true ∧
    (let pre : Option Prefix := some ⟨.rlx, .wave, .spad, 0, .none, false⟩
     reachesAnd st0 (memInfo (.atom un 0 pre .xor .b32 none (.s 2) (.v 0)) un none anyAtom pre [(.s 2, 32), (.v 0, 32)] [] st0.mach)
      anyAtom pre (fun _ io p m1 => fronts io.act fun front l => match checkAcc st0.dev (front.foldl (fun m k => match m.group 0 0 with
          | some g => m.putLocal 0 0 .spad 64 (atomNew .xor .b32 (readOp st0.dev m1 io.w k 32 (.v 0)) (g.bytes .spad 64 4))
          | none => m) m1) io.w l p.space (laneAddr st0.dev m1 io.w l p.space (.s 2) 0) 4 .w true with
        | .ok (.local 0 0 .spad 64) => true
        | _ => false)) = true := by
  decide +kernel

/-- A compute wave 0 and its shadow wave 1, which is selected. Lane 0 of the compute wave has pushed two entries onto `q1`. -/
def stShadow : State := st0.withMach fun _ m =>
  { m with
    cur := some (.path 0 1 3)
    waves := m.waves.flatMap fun w =>
      [{ w with partner := some 1, lanes := w.lanes.map fun x => { x with sq := [[], [1, 2], [], [], [], [], [], [], [], [], [], []] } },
        { w with id := 1, slot := some 1, shadow := true, partner := some 0 }] }

/-- QueueWordResults. -/
theorem wit_QueueWordResults :
    reachesAnd stShadow { memInfo (.ldq un none .b64 0 1 (.v 2)) un none globLoad none [(.v 2, 64)] [] stShadow.mach with bad := false } globLoad none
      (fun _ io _ m1 => let g := gatherLoads stShadow.dev io.w .glb 8 false (fun l => addrAt m1 io l (.v 2) 0) io.act m1
        io.w.shadow && gOk io.act g && match partnerOf m1 io.w with
          | some c => !c.ended && io.act.all (fun l => decide (((c.lane l).lq.getD 1 []).length + 2 ≤ 16)) && decide (partnerOf g.m io.w = some c)
          | none => false) = true ∧
    reachesAnd stShadow { memInfo (.stq un none .b64 0 (.v 2) 1) un none globStore none [(.v 2, 64)] [] stShadow.mach with bad := false } globStore none
      (fun _ io p m1 => match partnerOf m1 io.w with
        | some c => !c.ended && io.act.all (fun l => decide (2 ≤ ((c.lane l).sq.getD 1 []).length)) && fronts io.act fun pre l =>
          okB (checkAcc stShadow.dev (pre.foldl (fun m k => storeAt io k (addr64 (addrAt m1 io k (.v 2) 0))
            (placeOf (checkAcc stShadow.dev m1 io.w k .glb (addrAt m1 io k (.v 2) 0) 8 .w false)) (toBytes 8 (regWords ((c.lane k).sq.getD 1 []) 0 2)) .write p m)
            m1) io.w l .glb (addrAt m1 io l (.v 2) 0) 8 .w false)
        | none => false) = true ∧
    (let s := stShadow.withMach fun _ m => m.updWave 0 0 fun w => { w with ended := true, lanes := w.lanes.map fun x => { x with sq := List.replicate 12 [] } }
     reachesAnd s { memInfo (.stq un none .b64 0 (.v 2) 1) un none globStore none [(.v 2, 64)] [] s.mach with bad := false } globStore none
      (fun _ io _ m1 => match partnerOf m1 io.w with
        | some c => c.ended && io.act.any fun l => decide (((c.lane l).sq.getD 1 []).length < 2)
        | none => false)) = true ∧
    (memInfo (.ldq un none .b64 0 1 (.v 2)) un none globLoad none [(.v 2, 64)] [] stShadow.mach).bad = false ∧
    (memInfo (.stq un none .b64 0 (.v 2) 1) un none globStore none [(.v 2, 64)] [] stShadow.mach).bad = false := by
  decide +kernel

/-- FenceAndRegionResults: a range of 64 bytes at 0x10800. -/
theorem wit_FenceAndRegionResults :
    let fence : Prefix := ⟨.acqrel, .die, .glb, 0, .none, true⟩
    let region := fun (i : Instr) (k : MemKind) => memInfo i un none k none [(.s 0, 64), (.s 2, 64)] [] st0.mach
    let all : MemKind := ⟨[.rlx], none, [.glb]⟩
    issuesAnd st0 (memInfo (.pref un none 0 (.s 0)) un none all none [(.s 0, 64)] [] st0.mach) (fun _ io => decide (io.act ≠ [])) = true ∧
    issuesAnd st0 { shortInfo (.fence un fence) un [] [] [] with rel := releases fence.order } (fun m io => decide (io.act ≠ []) && !fencePending m io
      && !io.w.guarded) = true ∧
    issuesAnd st0 (region (.invr un none (.s 0) (.s 2)) ⟨[.rlx, .acq], none, [.glb]⟩) (fun m io => !fencePending m io) = true ∧
    reachesAnd st0 (region (.wbr un none (.s 0) (.s 2)) ⟨[.rlx, .rel], none, [.glb]⟩) ⟨[.rlx, .rel], none, [.glb]⟩ none (fun _ _ _ _ => true) = true ∧
    reachesAnd st0 (region (.regw un none (.s 0) (.s 2)) all) all none (fun _ io _ m1 => !io.w.guarded &&
      okB (translateRange st0.dev m1 (coreDie io.w.core) io.w.asid 0x10800 64 .w false)) = true ∧
    reachesAnd st0 (region (.icinv un none (.s 0) (.s 2)) all) all none (fun _ io _ m1 =>
      let ps := mappedPieces st0.dev m1 io.w 0x10800 64
      !rangeOpen io ps (drainRange st0.dev io ps m1)) = true ∧
    issuesAnd (st0.withMach fun _ m => m.updWave 0 0 fun w => { w with guarded := true })
      { shortInfo (.fence un { fence with scope := .sys }) un [] [] [] with rel := releases fence.order } (fun m io => decide (io.act ≠ [])
        && !fencePending m io && io.w.guarded && arbited .sys) = true ∧
    issuesAnd st0 { shortInfo (.fence un fence) un [] [] [] with rel := releases fence.order } (fun m io =>
      releaseDone (releaseAt st0.dev io.w.core fence.order fence.scope m) io.w.core io.w.id (maskOf io.act) fence.order fence.scope) = true := by
  decide +kernel

/-- An access in flight to 0x10800. -/
def flight (op : StoreOp) : Store := { store0 with op := op }

/-- The small state with an access in flight. -/
def stFlight (x : Store) : State := st0.withMach fun _ m => { m with coh := { m.coh with stores := [x] } }

/-- The small state with page 0x11000 mapped as a replicated page of group 5, whose members are modules 0 and 1, and a
store in flight to it. -/
def stRep : State := { stFlight { flight .write with va := 0x11000, pa := 0x201000 } with
  dev := { Dev.reset with att := { Attach.reset with rgbase := 0x400000 } } }.withMach fun _ m =>
    { m with mem := (m.mem.writeN 0x104088 (toBytes 8 (0x2010DF + 5 * 2 ^ 50))).writeN 0x400140 (toBytes 64 (1 + 3 * 2 ^ 256)) }

/-- Where the home of a store is. -/
def homeOf (s : State) (x : Store) : Option Xlat := (storeHome s.dev s.mach x).toOption

/-- StoreAtHomeResults: a write, an atomic, and a store to a replicated page, numbered and then applied by module 1. -/
theorem wit_StoreAtHomeResults :
    ([StoreOp.write, .atom .add .z32 7].all fun op => let s := stFlight (flight op)
      s.mach.mem.wf && s.mach.storeClear (flight op) && (flight op).more.isEmpty && decide (homeOf s (flight op) = some ⟨0x200800, .hbm, true, none⟩) &&
      s.mach.frozen.isEmpty && (List.range 3).all (fun i => !s.mach.coh.lost (0x40100 + i)) &&
      decide (((flight op).newBytes (s.mach.homeBytes 0x200800 4)).length = 4)) = true ∧
    (let x := { flight .write with va := 0x11000, pa := 0x201000 }
     stRep.mach.storeClear x = true ∧ x.more = [] ∧ homeOf stRep x = some ⟨0x201000, .rep 5, true, none⟩) ∧
    (let t := after (.sequencerStore 0) stRep
     t.mach.coh.reps.map RepStore.acked = [[]] ∧ repMembers t.dev t.mach 5 = [0, 1] ∧ (t.mach.coh.reps.take 0).all (fun x => x.group != 5) = true) := by
  decide +kernel

/-- SpecialRegisterResults: a source of each write that is legal, and a priority above the launch priority. -/
theorem wit_SpecialRegisterResults :
    ([((13 : Fin 17), 63), (14, 67), (15, 67)].all fun (x : Fin 17 × Nat) => issuesAnd st0 (shortInfo (.wrs un x.1 (.imm 128)) un [(.imm 128, 64)] [] [])
      fun m io => let v := readOp st0.dev m io.w io.lead 64 (.imm 128)
        decide (io.act ≠ []) && memdefOk (BitVec.ofNat 64 v) && decide (v < 4) && decide (v ≤ io.w.launchPr.toNat)) = true ∧
    standsAnd st0 (shortInfo (.wrs un 15 (.imm 133)) un [(.imm 133, 64)] [] []) (fun m io =>
      let v := readOp st0.dev m io.w io.lead 64 (.imm 133)
      decide (io.illegal (shortInfo (.wrs un 15 (.imm 133)) un [(.imm 133, 64)] [] []) = none) && decide (io.act ≠ []) &&
        decide (io.w.launchPr.toNat < v) && decide (v < 8)) = true ∧
    ([((3 : Fin 17), (63 : Fin 256)), (13, 143), (14, 132), (15, 136)].all fun (x : Fin 17 × Fin 256) =>
      standsAnd st0 (shortInfo (.wrs un x.1 (.imm x.2)) un [(.imm x.2, 64)] [] []) fun m io =>
        let v := readOp st0.dev m io.w io.lead 64 (.imm x.2)
        decide (io.illegal (shortInfo (.wrs un x.1 (.imm x.2)) un [(.imm x.2, 64)] [] []) = none) && decide (io.act ≠ []) &&
          (instrWord (.wrs un x.1 (.imm x.2))).isSome &&
          match x.1.val with
          | 13 => !memdefOk (BitVec.ofNat 64 v)
          | 14 => decide (4 ≤ v)
          | 15 => decide (8 ≤ v)
          | _ => true) = true ∧
    issuesAnd st0 (shortInfo (.rds un 12 (.v 8)) un [] [(.v 8, 64)] []) (fun _ io => decide (io.act ≠ [])) = true ∧
    issuesAnd st0 (shortInfo (.isync un) un [] [] []) (fun _ io => decide (io.act ≠ [])) = true ∧
    issuesAnd st0 (shortInfo (.nop un) un [] [] []) (fun _ _ => true) = true := by
  decide +kernel

/-- The small state in an armed context, with a second group on another core that has not arrived. -/
def stArmed : State := st0.withMach fun _ m => { m with
  ctxs := m.ctxs.map fun c => { c with snap := { c.snap with armed := true } }
  groups := m.groups ++ [newGroup 1 0 0 1 ⟨1, 1, 16, 4, 4, 4, 4⟩ [(0, 0)]] }

/-- MarkerResults: a marker that counts and one under a guard that no lane meets, a residual with and without guarded mode, and
`SNAP.cut` in an armed context and in another. -/
theorem wit_MarkerResults :
    issuesAnd st0 (shortInfo (.ckpt un 9) un [] [] []) (fun _ io => !io.act.isEmpty && io.w.allOn io.p.mask) = true ∧
    issuesAnd st0 (shortInfo (.ckpt ⟨0, false⟩ 9) ⟨0, false⟩ [] [] []) (fun _ io => io.act.isEmpty) = true ∧
    ([false, true].all fun b => issuesAnd (st0.withMach fun _ m => m.updWave 0 0 fun w => { w with guarded := b })
      (shortInfo (.resid un (.v 0)) un [(.v 0, 32)] [] []) fun _ io => io.w.guarded == b) = true ∧
    (let info := { shortInfo (.snap un) un [] [] [] with rel := true }
     standsAnd st0 info fun m io => decide (io.illegal info = none) && decide (io.act ≠ []) && !io.w.guarded &&
       (m.ctx io.w.asid).any fun c => !c.snap.armed) = true ∧
    ([stArmed, st0].all fun s => issuesAnd s { shortInfo (.snap un) un [] [] [] with rel := true } fun m io =>
      let m1 := releaseAt s.dev io.w.core .rel .sys m
      decide (io.act ≠ []) && !io.w.guarded && !io.w.snapped && !fencePending m io && (m.ctx io.w.asid).isSome &&
        releaseDone m1 io.w.core io.w.id (BitVec.allOnes 64) .rel .sys && (m1.wave io.w.core io.w.id).isSome) = true ∧
    (stArmed.mach.groups.any fun k => k.asid == 1 && !k.handler && !k.guarded && !k.snapIn && k.core != 0) = true := by
  decide +kernel

/-- RaisedFaultResults: the three words, and an `ADD` at a place where no word may stand, from a shadow wave on a queue, and above
the allotment. -/
theorem wit_RaisedFaultResults :
    issuesAnd st0 (shortInfo (.fraise un 5 (.s 0)) un [(.s 0, 64)] [] []) (fun m io =>
      decide (io.act ≠ []) && decide (readOp st0.dev m io.w io.lead 64 (.s 0) < 2 ^ 52)) = true ∧
    issuesAnd st0 (shortInfo (.trap un 9 (.s 0)) un [(.s 0, 64)] [] []) (fun _ io => decide (io.act ≠ [])) = true ∧
    issuesAnd st0 (shortInfo (.brk un 7) un [] [] []) (fun _ io => decide (io.act ≠ [])) = true ∧
    (let info := shortInfo (.add un .s32 (.v 8) (.v 0) (.v 1)) un [(.v 0, 32), (.v 1, 32)] [(.v 8, 32)] []
     let at24 := st0.withMach fun _ m => m.updWave 0 0 fun w => { w with paths := w.paths.map fun p => { p with seg := 24 } }
     standsAnd at24 info fun _ io => decide (24 ≤ io.p.seg) && (instrWord info.instr).isSome) = true ∧
    (let info := shortInfo (.add un .s32 (.v 40) (.v 0) (.v 1)) un [(.v 0, 32), (.v 1, 32)] [(.v 40, 32)] []
     standsAnd st0 info fun _ io => decide (io.p.seg < 24) && io.p.fin.isNone && !io.w.shadow &&
       (lanesOf io.w.width io.p.mask).any fun l => io.act.contains l && unallotted io.w l (.v 40, 32)) = true := by
  decide +kernel

/-- The small state with words of the mapped page registered to core 5, and the page in the TLB of die 0. -/
def stPage (ws : List (Nat × BitVec 64)) : State := st0.withMach fun _ m => { m with coh := { m.coh with
  tlb := [⟨0, 1, 0x10, 0x20001F, 0⟩], regions := [⟨0x200, 5⟩]
  words := ws.map fun x => ⟨0x40000 + x.1 / 8, .region, false⟩
  l1 := ws.map fun x => ⟨5, 1, 0x40000 + x.1 / 8, true, true, x.2⟩ } }

/-- The small state with a fault table at 0x10100: the parking area at 0x10C00 with one ordinary record, a handler's queue at
0x10040 with room for four entries, and entries for the codes 0x50, 0x71 and 0x72. -/
def stF : State := (stPage
  ([(0x40, 0), (0x48, 4), (0x50, 0x10080), (0x58, 0), (0x60, 0), (0x68, 0), (0x70, 0), (0x78, 0), (0x100, 0x10040), (0x108, 0x10C00), (0x110, 1)] ++
    [0x50, 0x71, 0x72].flatMap fun c => [(0x140 + 32 * c, 0x10040), (0x148 + 32 * c, 0x10E00), (0x150 + 32 * c, 0x6400000003), (0x158 + 32 * c, 9)])).withMach
  fun _ m => m.updCtx 1 fun c => { c with faulttab := 0x10100 }

/-- A fault of a wave at depth 0. -/
def info0 : ParkInfo := ⟨1, 0, 0, 0, none, 0x50, none, 0xABC, 3, 0, 0, 0x10000⟩

/-- TakingAFaultResults: every step of the entry, and fields within their widths. -/
theorem wit_TakingAFaultResults :
    (let d := stF.dev
     let m := stF.mach
     let e := faultEntry d m 1 0x10100 0x50
     let base := readVa64 d m 1 0x10108
     let c := m.choose (bitsOf (readVa64 d m 1 0x10110).toNat 0 32)
     e.queue = 0x10040 ∧ freeRecord c.2 1 base 1 0 c.1 = some 0 ∧
     (match writeVa d { c.2 with freeCount := c.2.freeCount + 1 } 1 base (toBytes 256 (recordBits d info0 0 3 (Config.stateHandle c.2.freeCount))) true with
      | some m2 =>
        let p : Parked := ⟨base, 1, .wave 0 0, 0x50, 0, false, m2.disp.nextId, 0, [], [], [], 0x10000, 0⟩
        let m3 := pageRequest 1 0x50 0xABC { m2 with disp := { m2.disp with parked := p :: m2.disp.parked } }
        match m3.ctx 1 with
        | some c3 => match pickQueue d m3 1 e.queue (readVa64 d m3 1 c3.faulttab) with
          | some (q, h) => decide (h.count < h.cap) && m3.disp.ftasks.isEmpty && (enqueueAt d m3 1 q h (taskEntry e.launch base 0x50 3 0 e.budget e.deadline)).isSome
          | none => false
        | none => false
      | none => false) = true) ∧
    (info0.kind < 2 ^ 5 ∧ info0.code < 2 ^ 8 ∧ info0.core < 2 ^ 8 ∧ info0.group < 2 ^ 9 ∧ info0.wave < 2 ^ 8 ∧ info0.tag < 2 ^ 16 ∧
      info0.tail = (0x10000 : BitVec 64).toNat) := by
  decide +kernel

/-- The record of wave 0, parked at its word. -/
def rec0 : Parked := ⟨0x10C00, 1, .wave 0 0, 0x71, 0, false, 1, 0, (List.range 16).map fun l => (l, codeVa), [], [], codeVa, 0⟩

/-- Wave 0 parked, with its record in the table, and wave 1 selected: its `s0` holds a handle, `s1` a state offset, and `s2` the queue
at 0x10040. -/
def stParked (handle off : BitVec 64) : State := stF.withMach fun _ m =>
  { m with
    cur := some (.path 0 1 3), disp := { m.disp with parked := [rec0], nextId := 2 }
    groups := m.groups.map fun g => { newGroup 0 0 0 1 ⟨1, 1, 16, 4, 4, 4, 4⟩ [(0, 0), (0, 1), (1, 0), (1, 1)] with tiles := g.tiles }
    waves := m.waves.flatMap fun w => [{ w with parked := some 0x10C00, slot := none },
      { w with id := 1, slot := some 1, s := ((w.s.set 0 handle).set 1 off).set 2 0x10040 }] }

/-- The state offset of a class and a lane. -/
def offOf (cls lane lo : Nat) : BitVec 64 := BitVec.ofNat 64 (2 ^ 24 * cls + 2 ^ 16 * lane + lo)

/-- What a handle of the issuing wave names. -/
def handleIs (s : State) (m : Mach) (io : Io) (q : HandleRes → Bool) : Bool := q (checkHandle s.dev m (io.w.core / 64) io.w.asid (io.w.s.getD 0 0))

/-- The live record. -/
def isRec0 : HandleRes → Bool
  | .live p => decide (p = rec0)
  | _ => false

/-- A disposition, and its release at system scope. -/
def dispInfo (i : Instr) (srcs : List (Opnd × Nat)) : WordInfo := { shortInfo i un ((.s 0, 64) :: srcs) [] [] with rel := true }

/-- The four dispositions of `s0`. -/
def disps : List WordInfo :=
  [dispInfo (.presume un 0) [], dispInfo (.pretry un 0) [], dispInfo (.pkill un 0) [], dispInfo (.predir un 0 (.s 2) (.s 4)) [(.s 2, 64), (.s 4, 64)]]

/-- ParkedStateResults: the classes at the first and last word of a lane, the patches, and each disposition of a live record, of a
disposed one and of a handle that names none. -/
theorem wit_ParkedStateResults :
    ([(1, 0, 0), (1, 1, 124), (2, 1, 60), (3, 0, 12), (6, 0, 508)].all fun (x : Nat × Nat × Nat) =>
      let s := stParked 0x10C00 (offOf x.1 x.2.1 x.2.2)
      let ok := fun (m : Mach) (io : Io) => decide (io.act ≠ []) && handleIs s m io isRec0 && match stateClass s.dev m rec0 x.1 x.2.1 with
        | some bs => decide (x.2.2 + 4 ≤ bs.length) && okB (patchState s.dev m rec0 x.1 x.2.1 (bs.take x.2.2 ++ [1, 2, 3, 4] ++ bs.drop (x.2.2 + 4)))
        | none => false
      issuesAnd s (longInfo (.sget un 0 .b32 0 (.v 8) 0) un 0 [(.s 0, 64), (.s 1, 64)] [(.v 8, 32)]) ok &&
        issuesAnd s (shortInfo (.sput un .b32 0 0 (.s 3)) un [(.s 0, 64), (.s 1, 64), (.s 3, 32)] [] []) ok) = true ∧
    issuesAnd (stParked 0x10C80 0) (longInfo (.sget un 0 .b32 0 (.v 8) 0) un 0 [(.s 0, 64), (.s 1, 64)] [(.v 8, 32)]) (fun m io =>
      handleIs (stParked 0x10C80 0) m io fun r => decide (r = .bad)) = true ∧
    (let s := stParked 0x10C00 0
     let w := s.mach.waves.headD codeWave
     ([1, 2, 3, 6].all fun c => match waveClass s.mach rec0 w c 0 with
       | some bs => okB (patchWave s.mach rec0 w c 0 bs)
       | none => false) = true) ∧
    (disps.all fun info => let s := stParked 0x10C00 0
      issuesAnd s info fun m io =>
        let m1 := releaseAt s.dev io.w.core .rel .sys m
        decide (io.act ≠ []) && handleIs s m io isRec0 && !fencePending m io && releaseDone m1 io.w.core io.w.id io.p.mask .rel .sys &&
          !staleTask m1 io.w rec0) = true ∧
    (let s := stParked 0x10C00 0
     readOp s.dev s.mach (s.mach.waves.getD 1 codeWave) 0 64 (.s 4) % 128 = 0 ∧
     (match readHdr s.dev s.mach 1 0x10040 with
       | some h => !h.host
       | none => false) = true) ∧
    (disps.all fun info => issuesAnd (stParked 0x10C80 0) info fun m io => handleIs (stParked 0x10C80 0) m io fun r => decide (r = .bad)) = true ∧
    (disps.all fun info => let s := (stParked 0x10C00 0).withMach fun _ m =>
        { m with disp := { m.disp with parked := [] }, mem := m.mem.writeN 0x200C01 [1] }
      issuesAnd s info fun m io => handleIs s m io fun r => decide (r = .disposed)) = true ∧
    (let s := stParked 0x10C00 0
     let w := s.mach.waves.headD codeWave
     let m := dispose s.dev rec0 s.mach
     s.mach.wave w.core w.id = some w ∧ (m.wave w.core w.id).isSome = true ∧ w.deferred.find? Deferred.raised = none ∧
       ([false, true].all fun again => (resumePcs s.dev m rec0 w again).all fun x => x.2.1 == x.2.2) = true) := by
  decide +kernel

/-- The small state with lane 0 in a subroutine, a jump table of three entries at the path's target, and a count in `s3`. -/
def stTrail : State := st0.withMach fun _ m =>
  { m.updWave 0 0 (fun w => w.updLanes 3 fun x => { x with stack := [0x10100] }) with
    mem := m.mem.writeN 0x200040 (toBytes 8 0x0000000200000001) }

/-- TrailerResults: each trailer issues, with room for the call, a return address, and an entry of the jump table. -/
theorem wit_TrailerResults :
    atAnd st0 (.next 0) 0 [] [] (fun _ _ _ => true) = true ∧ atAnd st0 (.brp 0 1 true 3 9) 0 [] [1] (fun _ _ _ => true) = true ∧
    atAnd st0 (.call 0 3) 0 [] [] (fun _ w p => (lanesOf w.width p.mask).all fun l => decide ((w.lane l).stack.length < 32)) = true ∧
    atAnd stTrail (.ret 0) 0 [] [] (fun _ w p => (lanesOf w.width p.mask).all fun l => decide ((w.lane l).stack ≠ [])) = true ∧
    atAnd st0 (.loopn 0 (.s 3) 3) 0 [(.s 3, 32)] [] (fun _ _ _ => true) = true ∧
    atAnd stTrail (.jidx 0 (.s 6) 8 1) 0 [(.s 6, 32)] [] (fun m w p =>
      let t := BitVec.ofInt 64 ((p.pc.toNat : Int) + 8 * (8 : BitVec 19).toInt)
      ((lanesOf w.width p.mask).foldl (fun (r : Bool × Mach) l => let x := readOp stTrail.dev m w l 32 (.s 6)
        match tableEntry stTrail.dev r.2 w t x with
        | (.ok e, m2) => (r.1 && decide (x ≤ 1) && e == 2, m2)
        | (.error _, m2) => (false, m2)) (true, m)).1) = true ∧
    atAnd st0 (.exit 0) 0 [] [] (fun m w p => drained m w p.mask 15 && decide (p.mask ≠ 0) &&
      match leaveLanes st0.dev w.core w.id (lanesOf w.width p.mask) m with
      | ⟨_, false, false, _⟩ => true
      | _ => false) = true ∧
    atAnd (stFlight (flight .write)) (.exit 16) 16 [] [] (fun m w p => !drained m w p.mask 31) = true ∧
    (match st0.mach.wave 0 0 with
     | some w => decide (0 ∈ lanesOf w.width 3) && decide (0 < w.lanes.length)
     | none => false) = true := by
  decide +kernel

/-- A path of the wave that has waited. -/
def path0 (mask : BitVec 64) (stall : Nat) : Path := { pc := codeVa, mask := mask, seg := 0, fin := none, windows := [], stall := stall, target := false }

/-- The small state with its wave changed. -/
def stW (f : Wave → Wave) : State := st0.withMach fun _ m => m.updWave 0 0 f

/-- The small state with a path that waits from its trailer. -/
def stWait (x : WaitFor) : State := stW fun w => { w with paths := [], waits := [⟨path0 3 0, x⟩] }

/-- A wait on the word at 0x10800, which holds zero. -/
def waitw0 (limit : Option Nat) : WaitFor :=
  .waitw 3 4 ⟨.rlx, .group, .glb, 0, .none, false⟩ [(0, 0x10800, 0), (1, 0x10800, 0)] [0x200800, 0x200800] 1 limit .written

/-- The compute wave whose path is set aside and whose word is tried: it may name an empty queue, or wait for nothing. -/
def stProbe : State := stShadow.withMach fun _ m =>
  { m.updWave 0 0 fun w => { w with paths := [], aside := [path0 3 0] } with cur := some (.probe 0 0 3) }

/-- IssueStageResults: ages, stalls, the ends of the waits, and requests that fit and do not. -/
theorem wit_IssueStageResults :
    (let w := (st0.mach.wave 0 0).getD codeWave
     (64 ≤ ({ w with ages := [(codeVa, 64)] } : Wave).ageOf codeVa ∧ w.promoted.contains codeVa = false) ∧ w.ageOf codeVa < 64) ∧
    ((stW fun w => { w with paths := [path0 3 256] }).mach.wave 0 0).bind (fun w => w.paths[0]?) = some (path0 3 256) ∧
    ((stW fun w => { w with paths := [path0 3 5] }).mach.wave 0 0).bind (fun w => (w.paths.filter fun q => !q.canIssue)[0]?) = some (path0 3 5) ∧
    ((stW fun w => { w with aside := [path0 3 0] }).mach.wave 0 0).bind (fun w => w.aside[0]?) = some (path0 3 0) ∧
    ([WaitFor.nap 0, .poll 9, .grow 1 64 [0, 1] (some 0) 0, waitw0 (some 0), waitw0 (some 9)].all fun x =>
      match (stWait x).mach.wave 0 0 with
      | some w => w.parked.isNone && !w.ended && decide (w.waits[0]? = some ⟨path0 3 0, x⟩)
      | none => false) = true ∧
    (match (stWait (waitw0 none)).mach.wave 0 0 with
     | some w =>
       let r := orderBefore st0.dev (stWait (waitw0 none)).mach ⟨w, { path0 3 0 with pc := codeVa - 8 }, [0, 1]⟩ ⟨.rlx, .group, .glb, 0, .none, false⟩
       !r.2 && gOk [0, 1] (gatherLoads st0.dev w .glb 4 true (fun _ => 0x10800) [0, 1] r.1)
     | none => false) = true ∧
    ([(.v 1, false), (.q 0, true)].all fun (x : Opnd × Bool) =>
      let info := shortInfo (.add un .s32 (.v 8) x.1 (.v 1)) un [(x.1, 32), (.v 1, 32)] [(.v 8, 32)] []
      stProbe.mach.probing && match stProbe.mach.curPath with
        | some (w, p) =>
          let r := settleWindows w p
          let io : Io := ⟨r.1, r.2, guardLanes w p.mask un⟩
          (decide (preFault stProbe.dev stProbe.mach io info = none) && (io.retryWait info || queueStall r.1 io.act info.srcs info.dsts)) == x.2
        | none => false) = true ∧
    ([(64, true), (200000, false)].all fun (n : Nat × Bool) => let s := stWait (.grow 1 n.1 [0, 1] none 4)
      decide (growPending s.mach 0 = [⟨0, 3, 1, n.1, [0, 1], 4⟩]) && (match s.mach.wave 0 0 with
        | some w => growFits s.mach 0 w n.1 == n.2
        | none => false)) = true ∧
    (match (stWait (.grow 1 64 [0, 1] none 4)).mach.wave 0 0 with
     | some w => decide (0 < w.lanes.length) && decide ((1 : Nat) < (w.lane 0).p.length) && decide (w.vAllot < 64) && decide ((w.lane 0).st ≠ .empty)
     | none => false) = true := by
  decide +kernel

/-- The small state whose wave waits for a slot while other waves hold all of them; one of those only naps. -/
def stFull : State := st0.withMach fun _ m =>
  let out := fun (w : Wave) => ({ w with slot := none, evicted := true, resume := w.paths, paths := [] } : Wave)
  let other := fun (n : Nat) => ({ codeWave with id := n + 1, slot := some n, lanes := [], s := [], paths := [], waits := [⟨path0 1 0, if n = 5 then .nap 100 else .exit 0⟩] } : Wave)
  { m with waves := m.waves.map out ++ (List.range 128).map other }

/-- PendingWorkResults: a wave that waits for a slot, free or held by a wave that only waits, an exit, a store, and a group that
dissolves. -/
theorem wit_PendingWorkResults :
    (match st0.mach.wave 0 0 with
     | some w => decide ((w.paths ++ w.aside ++ w.resume)[0]? = some (path0 3 0)) && w.parked.isNone && !w.evicted && w.waits.isEmpty
     | none => false) = true ∧
    (let s := stW fun w => { w with slot := none, evicted := true, resume := w.paths, paths := [] }
     match s.mach.wave 0 0 with
     | some w => w.awaitsSlot && (freeSlot s.mach 0 (mayStock s.mach w) (mateSlot s.mach w)).isSome && poolFits s.mach w
     | none => false) = true ∧
    (let s := stFull
     match s.mach.wave 0 0 with
     | some w => w.awaitsSlot && (freeSlot s.mach 0 (mayStock s.mach w) (mateSlot s.mach w)).isNone && (mateSlot s.mach w).isNone &&
         match bestOf evictBetter (s.mach.waves.filter fun v => v.core == 0 && v.id != 0 && v.evictable &&
           (seatFree w (s.mach.updWave 0 v.id fun v => { v with slot := none, evicted := true })).isSome) with
         | some v => poolFits (s.mach.updWave 0 v.id fun v => { v with slot := none, evicted := true }) w
         | none => false
     | none => false) = true ∧
    ((stFlight (flight .write)).mach.coh.stores[0]? = some (flight .write) ∧ (flight .write).record = none) ∧
    ((stG fun g => { g with dissolve := some (0, 1) }).mach.group 0 0).map Group.dissolve = some (some (0, 1)) ∧
    (match (stW fun w => { w with deferred := [⟨3, ⟨0x40, 0⟩, codeVa, [], 2, false, false, true, 0⟩] }).mach.wave 0 0 with
     | some w => (w.deferred[0]?).any Deferred.again
     | none => false) = true ∧
    (match (stWait (.exit 15)).mach.wave 0 0 with
     | some w => w.parked.isNone && !w.evicted && decide (w.waits = [⟨path0 3 0, .exit 15⟩])
     | none => false) = true := by
  decide +kernel

/-- The small state with a second group on the core, whose one member is in another wave. -/
def stG2 : State := st0.withMach fun _ m => { m with groups := m.groups ++ [newGroup 0 1 1 1 ⟨1, 1, 16, 4, 4, 4, 4⟩ [(9, 0)]] }

/-- What becomes of lanes that leave. -/
def leftIs (s : State) (m : Mach) (io : Io) (ls : List Nat) (bad : Bool) : Bool :=
  let r := leaveLanes s.dev io.w.core io.w.id ls m
  !r.wait && r.bad == bad

/-- GroupWordResults: resources that the core has and lacks, a group that is there and not, groups that are left with and without a
live tile, and gang lists that are valid and not. -/
theorem wit_GroupWordResults :
    issuesAnd st0 (shortInfo (.gnew un (.v 8) (.imm 128)) un [(.imm 128, 64)] [(.v 8, 32)] []) (fun m io =>
      match gdescOf (readOp st0.dev m io.w io.lead 64 (.imm 128)) with
      | some a => decide (freeGroup m 0 = some 1) && poolHolds m 0 a && leftIs st0 m io io.act false
      | none => false) = true ∧
    (let s := stG fun g => { g with alloc := { g.alloc with spad := 2 ^ 40 } }
     issuesAnd s (shortInfo (.gnew un (.v 8) (.s 7)) un [(.s 7, 64)] [(.v 8, 32)] []) (fun m io =>
      match gdescOf (readOp s.dev m io.w io.lead 64 (.s 7)) with
      | some a => !poolHolds m 0 a
      | none => false)) = true ∧
    issuesAnd stG2 (shortInfo (.join un (.s 6)) un [(.s 6, 32)] [] []) (fun m io => (m.group 0 1).isSome &&
      decide ((io.act.filter fun l => (io.w.lane l).group != some 1) = io.act) && leftIs stG2 m io io.act false &&
        decide ((m.group 0 1).bind Group.dissolve = none)) = true ∧
    issuesAnd st0 (shortInfo (.join un (.s 6)) un [(.s 6, 32)] [] []) (fun m _ => (m.group 0 1).isNone) = true ∧
    issuesAnd st0 (shortInfo (.join un (.imm 128)) un [(.imm 128, 32)] [] []) (fun m io => (m.group 0 0).isSome &&
      decide ((io.act.filter fun l => (io.w.lane l).group != some 0) = [])) = true ∧
    issuesAnd st0 (shortInfo (.leave un) un [] [] []) (fun m io => leftIs st0 m io io.act false) = true ∧
    (let s := stG fun g => { g with tiles := [(2, tile0 .filling)] }
     issuesAnd s (shortInfo (.leave un) un [] [] []) fun m io => leftIs s m io io.act true) = true ∧
    ([(.imm 128, true), (.s 5, false)].all fun (x : Opnd × Bool) => issuesAnd st0 (shortInfo (.gang un x.1) un [(x.1, 64)] [] []) fun m io =>
      okB (pathGroup m io) && !productsOpen m io.w (BitVec.allOnes 64) && (gangList m io.w (BitVec.ofNat 64 (readOp st0.dev m io.w io.lead 64 x.1))).isSome == x.2) = true := by
  decide +kernel

/-- The small state with a word issued that waits from the trailer on. -/
def stFin (x : WaitFor) : State := stW fun w => { w with paths := w.paths.map fun p => { p with seg := 1, fin := some x } }

/-- A group with barrier 0 in a phase with three members, of which one has arrived. -/
def stBar : State := stG fun g => { g with bars := [⟨4, [(0, 0), (0, 1), (9, 0)], [(9, 0)], []⟩] }

/-- BarrierResults. -/
theorem wit_BarrierResults :
    ([Instr.bara un 0, .bar un 0, .barw un 0].all fun i => issuesAnd stBar (shortInfo i un [] [] []) fun m io =>
      (barFaults m io 0).isEmpty && io.act.all fun l => (openArrival m io.w 0 l).isNone) = true ∧
    (let b : Barrier := ⟨4, [(0, 0), (0, 1)], [(0, 0)], []⟩
     ((0, 1) ∈ b.members ∧ (0, 1) ∉ b.arrived) ∧ (∀ x ∈ b.members, x = (0, 1) ∨ x ∈ b.arrived) ∧ ((0, 0) ∉ b.members ∨ (0, 0) ∈ b.arrived) ∧
     ∃ x ∈ (⟨4, [(0, 0), (0, 1)], [], []⟩ : Barrier).members, x ≠ (0, 1) ∧ x ∉ ([] : List (Nat × Nat))) ∧
    ([WaitFor.nap 5, .poll 4, .tile 2 false 3 none, .grow 1 64 [0, 1] (some 9) 0, waitw0 (some 9), waitw0 none, .barrier 0 [(0, 0), (0, 1)], .done, .yield].all
      fun x => metAnd (stFin x) (.next 0) 0 [] [] fun _ w p => decide (p.fin = some x) && !w.step.getLsbD 0 && p.windows.isEmpty && !w.ended) = true ∧
    (let s := stBar.withMach fun _ m => m.updWave 0 0 fun w => (w.updLanes 3 fun x => { x with arrived := x.arrived.set 0 (some 4) })
     let t := s.withMach fun _ m => m.updWave 0 0 fun w => { w with paths := w.paths.map fun p => { p with seg := 1, fin := some (.barrier 0 [(0, 4), (1, 4)]) } }
     metAnd t (.next 0) 0 [] [] fun m w p => decide (maskOf ((barWaiters m w.core w.id 0 [0, 1]).map Prod.fst) = p.mask)) = true ∧
    metAnd (stFin (.barrier 0 [(0, 4), (1, 4)])) (.next 0) 0 [] [] (fun m w _ => (barWaiters m w.core w.id 0 [0, 1]).isEmpty) = true := by
  decide +kernel

/-- WaitWordResults: words that equal their values and words that do not, requests of each kind. -/
theorem wit_WaitWordResults :
    ([Opnd.imm 128, .v 0].all fun b =>
      let info := memInfo (.waitw un none .b32 1 (.s 0) b (.imm 138)) un none waitKind none [(.s 0, 64), (b, 32), (.imm 138, 64)] [(.p 1, 1)] st0.mach
      reachesAnd st0 { info with bad := info.bad || !(Opnd.s 0).aligned 64 } waitKind none fun _ io p m1 =>
        gOk io.act (gatherLoads st0.dev io.w p.space 4 true (fun l => laneAddr st0.dev m1 io.w l p.space (.s 0) 0) io.act m1) &&
          decide (readOp st0.dev m1 io.w io.lead 64 (.imm 138) ≠ 0)) = true ∧
    ([Cond.eq, .ne].all fun c =>
      let info := memInfo (.pollb un none .b32 c 1 (.s 0) (.imm 128)) un none waitKind none [(.s 0, 64), (.imm 128, 32)] [(.p 1, 1)] st0.mach
      reachesAnd st0 { info with bad := info.bad || !(Opnd.s 0).aligned 64 } waitKind none fun _ io p m1 =>
        gOk io.act (gatherLoads st0.dev io.w p.space 4 true (fun l => laneAddr st0.dev m1 io.w l p.space (.s 0) 0) io.act m1)) = true ∧
    ([shortInfo (.yield un) un [] [] [], shortInfo (.nap un (.s 2)) un [(.s 2, 32)] [] []].all fun i => issuesAnd st0 i fun _ _ => true) = true ∧
    ([(4, 1), (2, 2), (1, 0)].all fun (x : Fin 64 × Nat) => let a : Opnd := .s x.1
      issuesAnd st0 (shortInfo (.grow un 1 a (.s 3)) un [(a, 32), (.s 3, 64)] [(.p 1, 1)] []) fun m io =>
        let count := (readOp st0.dev m io.w io.lead 32 a + 7) / 8 * 8
        if x.2 = 2 then decide (count ≤ 576) && decide (io.w.vAllot < count) && (growPending m 0).isEmpty && growFits m 0 io.w count
        else decide (576 < count)) = true ∧
    issuesAnd st0 (shortInfo (.grow un 1 (.imm 128) (.s 3)) un [(.imm 128, 32), (.s 3, 64)] [(.p 1, 1)] []) (fun _ _ => true) = true ∧
    (let s := stW fun w => { w with aside := [{ path0 4 0 with fin := some (.grow 1 64 [2] none 0) }] }
     issuesAnd s (shortInfo (.grow un 1 (.s 2) (.s 3)) un [(.s 2, 32), (.s 3, 64)] [(.p 1, 1)] []) fun m _ => !(growPending m 0).isEmpty) = true ∧
    ([Opnd.s 2, .imm 136].all fun a =>
      let n := shrinkCount un a st0
      issuesAnd st0 { shortInfo (.shrink un a) un [(a, 32)] [] [] with touch := (List.range (576 - n)).map fun i => (.v (Fin.ofNat 576 (n + i)), 32) }
        fun _ io => decide (io.w.vAllot ≤ n) || !pendingAboveV io.w n) = true := by
  decide +kernel

/-- The small state with a queue header at 0x10040, given its first two words, a ring at 0x10080 with one entry, and the header's
address in `s10`. -/
def stQ (w0 w1 : BitVec 64) : State := (stPage
  [(0x40, w0), (0x48, w1), (0x50, 0x10080), (0x58, 0), (0x60, 0), (0x68, 0), (0x70, 0), (0x78, 0), (0x80, 0x5000), (0x88, 0), (0x90, 0), (0x98, 0)]).withMach
  fun _ m => m.updWave 0 0 fun w => { w with s := w.s.set 10 0x10040 }

/-- The conditions that the words of a task queue meet before its header. -/
def qReady (s : State) (m : Mach) (io : Io) : Bool :=
  let q := BitVec.ofNat 64 (readOp s.dev m io.w io.lead 64 (.s 10))
  let sc := queueScope s.dev m io q
  decide (io.act ≠ []) && decide (q.toNat % 64 = 0) && !io.w.guarded && !fencePending m io &&
    releaseDone (releaseAt s.dev io.w.core .rel sc m) io.w.core io.w.id (maskOf io.act) .rel sc

/-- TaskQueueResults: a queue with room for one of two offers, one with an entry, an empty one, and the header's fields. -/
theorem wit_TaskQueueResults :
    (let s := stQ 0 1
     let regs := (List.range 4).map fun i => ((Opnd.v (Fin.ofNat 576 (16 + 2 * i)), 64) : Opnd × Nat)
     issuesAnd s { shortInfo (.spawn un 3 (.s 10) 2 1 false) un ((.s 10, 64) :: regs) [(.p 3, 1)] [1] with rel := true } fun m io => qReady s m io &&
       match enqueueLanes s.dev io 0x10040 ((io.act.filter fun l => (io.w.lane l).pred 1 != false).map fun l =>
         (l, toBytes 32 (regWords (io.w.lane l).v 16 8))) m with
       | .done _ k [] => decide (k = 1)
       | _ => false) = true ∧
    (let s := stQ 0 4
     issuesAnd s { shortInfo (.enq un 3 (.s 10) 0) un ((.s 10, 64) :: fourRegs 0) [(.p 3, 1)] [] with rel := true } fun m io => qReady s m io &&
       match enqueueLanes s.dev io 0x10040 [(io.lead, toBytes 32 (ofWords ((List.range 4).map fun i => io.w.s.getD i 0)))] m with
       | .done _ k [] => decide (k = 1)
       | _ => false) = true ∧
    ([(0x100000000, true), (0x100000001, false)].all fun (x : BitVec 64 × Bool) => let s := stQ x.1 0x200000004
     issuesAnd s (longInfo (.deq un 0 3 (.s 10) 3) un 0 [(.s 10, 64)] (fourRegs 3 ++ [(.p 3, 1)])) fun m io => qReady s m io &&
       match dequeueOne s.dev io 0x10040 m with
       | .took _ _ => x.2
       | .empty _ => !x.2
       | _ => false) = true ∧
    (let s := stQ 0x300000001 4
     issuesAnd s (longInfo (.qinfo un 0 .count (.v 8) (.s 10)) un 0 [(.s 10, 64)] [(.v 8, 32)]) fun m io => qReady s m io &&
       match reachHdr s.dev m io 0x10040 .r with
       | .hdr h ps m2 => io.act.all (fun l => !repWait s.dev m2 io.w l ps) && decide (h.kind = 0)
       | _ => false) = true := by
  decide +kernel

/-- The small state with its group changed, and a descriptor in `s8`. -/
def stT (d : BitVec 64) (ts : List (Nat × Tile)) : State := (stG fun g => { g with tiles := ts }).withMach fun _ m =>
  m.updWave 0 0 fun w => { w with s := w.s.set 8 d }

/-- A path that waits for tile 2. -/
def stTileWait (seen : Option TileSeen) : State := (stT 0 [(2, tile0 .ready)]).withMach fun _ m =>
  m.updWave 0 0 fun w => { w with paths := [], waits := [⟨path0 3 0, .tile 2 false 3 seen⟩] }

/-- TileResults: a new and an idle entry, tiles in each state, cups whose expectation fits and does not, and a shared check-out. -/
theorem wit_TileResults :
    ([[], [(2, tile0 .empty)], [(2, tile0 .ready)]].all fun ts => let s := stT tileDesc ts
      issuesAnd s (shortInfo (.tset un 2 (.s 8)) un [(.s 8, 64)] [] []) fun m io => match pathGroup m io with
        | .ok gr => !tdescBad tileDesc && decide ((tdesc tileDesc).base + (tdesc tileDesc).span ≤ 32768 * gr.alloc.spad) && decide ((tdesc tileDesc).space = .spad) &&
          decide (gr.tiles.length < gr.alloc.tiles) && !gr.readers 2
        | .error _ => false) = true ∧
    ([TState.ready, .filling, .draining, .empty].all fun x => let s := stT tileDesc [(2, tile0 x)]
      ([shortInfo (.tstate un 2 (.v 8)) un [] [(.v 8, 64)] [], shortInfo (.cupqry un 2 (.v 8)) un [] [(.v 8, 64)] [],
        shortInfo (.twait un 2) un [] [] [], shortInfo (.cupwt un 2) un [] [] [], shortInfo (.tdrain un 2) un [] [] [],
        shortInfo (.tfree un 2) un [] [] []].all fun info => issuesAnd s info fun m io => match pathGroup m io with
          | .ok gr => decide (gr.tile 2 = some (tile0 x)) && !gr.readers 2
          | .error _ => false)) = true ∧
    ((tile0 .ready).abandoned = false ∧ (tdesc (tile0 .ready).desc).bare = false ∧ (tile0 .ready).expect < 2 ^ 24) ∧
    ([(false, 64), (true, 0)].all fun (x : Bool × BitVec 64) => issuesAnd (stT x.2 [(2, tile0 .filling)]) (shortInfo (.cupset un x.1 2 (.s 8)) un [(.s 8, 32)] [] [])
      fun m io => okB (pathGroup m io) && decide (16 ≤ (if x.1 then 16 + x.2.toNat else x.2.toNat))) = true ∧
    issuesAnd (stT 4 [(2, tile0 .filling)]) (shortInfo (.cupset un false 2 (.s 8)) un [(.s 8, 32)] [] []) (fun m io => okB (pathGroup m io)) = true ∧
    (let s := (stT 64 [(2, tile0 .ready)]).withMach fun _ m =>
       { m with coh := { m.coh with checks := [⟨0, 0, 1, 0x10800, 64, 0x200800, false, [], []⟩] } }
     issuesAnd s { shortInfo (.chki un 2 (.s 0) (.s 2)) un [(.s 0, 64), (.s 2, 64)] [] [] with rel := true } fun m io => okB (pathGroup m io) &&
       m.coh.checks.any fun k => k.core == 0 && k.group == 0 && decide (0x10800 ≤ k.lo) && decide (k.lo + k.len ≤ 0x10840) && !k.excl) = true ∧
    ([(TState.draining, true), (.ready, false)].all fun (x : TState × Bool) => let s := stT 0 [(2, tile0 x.1)]
      match s.mach.groups.find? fun g => g.core == 0 && (g.tile 2).isSome with
      | some g => decide (g.tile 2 = some (tile0 x.1)) && !drainHeld s.mach g 2 (tile0 x.1)
      | none => false) = true ∧
    ([some (.ready .sys), none, some .gone].all fun seen => let s := stTileWait seen
      match s.mach.wave 0 0 with
      | some w => w.parked.isNone && !w.ended && decide (w.waits[0]? = some ⟨path0 3 0, .tile 2 false 3 seen⟩) &&
        w.pathIn 0 (path0 3 0) && match s.mach.group 0 0 with
        | some g => decide (g.tile 2 = some (tile0 .ready))
        | none => false
      | none => false) = true := by
  decide +kernel

/-- A copy of 64 bytes from 0x10800 to scratchpad offset 128, with cup 2; the same in two rows, by an extension block at scratchpad
offset 256; and a ladle of two bags of four columns, by the block at 0x10880. -/
def copyCmd : List (BitVec 64) := [0x10800, 128, 0x52250, 64]
def copyCmd2 : List (BitVec 64) := [0x10800, 128, 0x52290, 0x400000040]
def ladleCmd : List (BitVec 64) := [0x10880, 128, 0x52011, 0x30002]

/-- The small state with a command in `s8` to `s11`, an idle tile 2, the blocks, and the ladle's lists. -/
def stCmd (ws : List (BitVec 64)) : State := (st0.withMach fun _ m =>
  { m.updWave 0 0 (fun w => { w with s := w.s.take 8 ++ ws ++ w.s.drop 12 }) with
    mem := [(0x880, 0x10800), (0x888, 0x1000000002), (0x890, 0x108C0), (0x898, 0x108D0), (0x8A8, 0x200000010), (0x8C0, 0x100000000), (0x8D0, 0x100000000),
      (0x8D8, 2)].foldl (fun m (e : Nat × Nat) => m.writeN (0x200000 + e.1) (toBytes 8 e.2)) m.mem }).withMach fun _ m =>
    m.updGroup 0 0 fun g => { g with
      tiles := [(2, { tile0 .empty with expect := 0, arrived := 0 })]
      spad := localWriteN g.spad 256 (([0x4000000002, 0x100000040, 0, 1, 0x100000000, 0, 0, 0].map fun (x : Nat) => toBytes 8 x).flatten) }

/-- The state after a command is accepted, and after its first segment has begun. -/
def stCopy : State := after (.xq un 2) (stCmd copyCmd)
def stCopying : State := after (.copySegment 0 0 0 0) stCopy
def stLadle : State := after (.lq un 2) (stCmd ladleCmd)

/-- A group and its first command. -/
def grp0 (s : State) : Group := (s.mach.group 0 0).getD (group0 [])

/-- The room that a command finds. -/
def fitsB (gr : Group) (ladle : Bool) (ws block : List (BitVec 64)) : Bool :=
  decide (gr.ringUsed ladle < 4) && (cmdHead ws).cupen && match gr.tile (cmdHead ws).cup with
    | some x => decide (x.state ≠ .draining) && decide (x.expect + cmdBytes ladle ws block < 2 ^ 24)
    | none => false

/-- EngineCommandResults: commands that are accepted, a segment that begins and one whose check-out conflicts, a piece, and a bag. -/
theorem wit_EngineCommandResults :
    ([(copyCmd, false), (copyCmd2, true)].all fun (x : List (BitVec 64) × Bool) =>
      issuesAnd (stCmd x.1) (shortInfo (.xq un 2) un (fourRegs 2) [] []) fun m io => match pathGroup m io with
        | .ok gr => !copyBad x.1 && (copyExt x.1 == x.2) &&
          (if x.2 then gr.inside .spad 256 64 true && !extBad x.1 (spadWords gr 256) && fitsB gr false x.1 (spadWords gr 256) else fitsB gr false x.1 [])
        | .error _ => false) = true ∧
    issuesAnd (stCmd ladleCmd) (shortInfo (.lq un 2) un (fourRegs 2) [] []) (fun m io => !ladleBad ladleCmd && match pathGroup m io with
      | .ok gr => match loadLane (stCmd ladleCmd).dev m io.w io.lead .glb 0x10880 64 true with
        | (.bytes bs, _) => let b := (List.range 8).map fun i => BitVec.ofNat 64 (ofBytes ((bs.drop (8 * i)).take 8))
          !paramBad ladleCmd b && fitsB gr true ladleCmd b
        | _ => false
      | .error _ => false) = true ∧
    (let busy := stCopy.withMach fun _ m => { m with coh := { m.coh with checks := [⟨3, 1, 1, 0x10800, 64, 0x200800, true, [], []⟩] } }
     ([(stCopy, true), (busy, false)].all fun (x : State × Bool) => match (grp0 x.1).cmd false 0 with
       | some c => (grp0 x.1).mayBegin c && c.segs.isEmpty && decide (0 < c.total) && !c.complete && !c.killed && !x.1.mach.saves 1 &&
         x.1.mach.turnOf false 0 0 && decide ((copySeg c 0).ssp = 0) && decide ((copySeg c 0).dsp = 1) &&
         (let c2 := { c with segs := c.segs ++ [copySeg c 0] }
          let m1 := (x.1.mach.serve false 0 0).updGroup 0 0 fun g => g.updCmd c.order fun _ => c2
          match segChecks x.1.dev (grp0 x.1) c2 (copySeg c 0) m1 with
          | .ok ks => match checkOut ks m1 with
            | .ok m2 => x.2 && (reserveSeg (grp0 x.1) c2 (copySeg c 0) m2).isSome
            | .error _ => !x.2
          | .error _ => false)
       | none => false) = true) ∧
    (match (grp0 stCopying).cmd false 0 with
     | some c => !c.killed && (match c.segs.find? fun x => x.no == 0 && x.state == .running with
       | some x => decide (x.sent = 0) && match engineRead stCopying.dev (grp0 stCopying) c.wave x.ssp x.src 64 stCopying.mach with
         | (.bytes bs, m1) => match engineWrite stCopying.dev (grp0 stCopying) c.wave x.dsp x.dst bs m1 with
           | (.bytes _, m2) => !creditWaits m2 (grp0 stCopying) c
           | _ => false
         | _ => false
       | none => false)
     | none => false) = true ∧
    (match (grp0 stLadle).cmd true 0 with
     | some c => (grp0 stLadle).mayBegin c && c.segs.isEmpty && decide (0 < c.total) && !c.complete && !c.killed && !stLadle.mach.saves 1 &&
       stLadle.mach.turnOf true 0 0 &&
       (let l := ladleOf c.words c.block
        let c2 := { c with segs := c.segs ++ [bagSeg c 0] }
        let m1 := (stLadle.mach.serve true 0 0).updGroup 0 0 fun g => g.updCmd c.order fun _ => c2
        match bagOffset stLadle.dev (grp0 stLadle) c.wave l 0 m1 with
        | (.ok o0, m2) =>
          let x := { bagSeg c 0 with src := addr64 ((l.ilist : Int) + 4 * o0), known := true }
          match bagOffset stLadle.dev (grp0 stLadle) c.wave l 1 (m2.updSeg 0 0 c.order 0 fun _ => x) with
          | (.ok o1, m3) => decide (l.dsp ≠ 3) && decide (o0 ≤ o1) && decide (o1 ≤ l.nidx) &&
            match poolRows stLadle.dev (grp0 stLadle) c.wave l 0 x.src o0 o0 (List.replicate l.cols 0) m3 (o1 - o0) with
            | (.ok acc, m4) => decide (acc.length = 4) && match reserveSeg (grp0 stLadle) c2 x m4 with
              | some m5 => match engineWrite stLadle.dev (grp0 stLadle) c.wave x.dsp x.dst ((acc.map (toBytes 4)).flatten) m5 with
                | (.bytes _, m6) => !creditWaits m6 (grp0 stLadle) c2
                | _ => false
              | none => false
            | _ => false
          | _ => false
        | _ => false)
     | none => false) = true := by
  decide +kernel

/-- An accumulator of outer form with a digit 5 in place 0, one of raw mode, and one that no step has used. -/
def outer0 : AccVal := ⟨16, .outer, [(0, 5)], List.replicate 64 (some 0), List.replicate 64 (some 0), 0, 0, 0⟩
def raw0 : AccVal := ⟨0, .none, [], [], [], 0, 0, 77⟩

/-- Tiles of 64 rows of one byte in scratchpad and of one row of 64 bytes in the operand store, a result tile and a raw tile. -/
def tileA : Tile := ⟨0x1F80000, .ready, false, 0, 0, 0, 0, 0, 0⟩
def tileB : Tile := ⟨0x201F8010000, .ready, false, 0, 0, 0, 0, 0, 0⟩
def tileR : Tile := ⟨0x0C0C0010, .ready, false, 0, 0, 0, 0, 0, 0⟩
def tileW : Tile := ⟨0x180E0020, .ready, false, 0, 0, 0, 0, 0, 0⟩

/-- The small state with those tiles and accumulators, zeros in the storage of the operands, and a gang. -/
def stK (gang : BitVec 64) (latch : List LatchEnt) : State := (stG fun g => { g with
  accs := [⟨outer0, [], []⟩, ⟨raw0, [], []⟩, ⟨clearAcc 16, [], []⟩, ⟨clearAcc 16, [], []⟩], latch := latch
  tiles := [(1, tileA), (2, tileB), (3, tileR), (4, tileW)]
  spad := (List.range 64).map fun i => (8 * i, 0), ostore := (List.range 128).map fun i => (i, 0) }).withMach fun _ m =>
    m.updWave 0 0 fun w => { w with gang := gang }

/-- The small state with a step pending on accumulator 2, and with a sequence of one micro-tile on it. -/
def kstep0 : KStep := ⟨1, 0, 0, 1, 2, 0, 3, codeVa, false⟩
def kseq0 : KSeq := ⟨[0, 1], 0, 0, codeVa, 0, 2, 1, 2, 1, 0, true, none, 0, [], false⟩
def stPend : State := (stK 0 []).withMach fun _ m => m.updGroup 0 0 fun g => { g with accs := g.accs.set 2 ⟨clearAcc 16, [kstep0], []⟩ }
def stSeq : State := (stK 0 []).withMach fun _ m => m.updGroup 0 0 fun g => { g with seqs := [kseq0] }

/-- A word on an accumulator issues, and finds it free. -/
def accOk (s : State) (info : WordInfo) (k : Nat) (q : Mach → Io → Group → AccVal → Bool) : Bool :=
  issuesAnd s info fun m io => decide (io.act ≠ []) && match pathGroup m io with
    | .ok gr => decide (k < gr.alloc.acc) && !gr.busyOn k && (match accView m io gr k with
      | .ok v => q m io gr v
      | .error _ => false)
    | .error _ => false

/-- AccumulatorWordResults: widths at the ends of their range, the first and the last digit, and tiles of each kind. -/
theorem wit_AccumulatorWordResults :
    ([Opnd.imm 128, .imm 136, .imm 168].all fun a => accOk (stK 0 []) (shortInfo (.kguard un 0 a) un [(a, 32)] [] []) 0 fun m io _ _ =>
      let n := readOp (stK 0 []).dev m io.w io.lead 32 a
      decide (n = 0) || (decide (8 ≤ n) && decide (n ≤ 40))) = true ∧
    accOk (stK 0 []) (shortInfo (.kclr un 0) un [] [] []) 0 (fun _ _ _ _ => true) = true ∧
    accOk (stK 0 []) (longInfo (.kstat un 0 0 (.v 8)) un 0 [] [(.v 8, 64)]) 0 (fun _ _ _ _ => true) = true ∧
    ([(0, Opnd.imm 128, 4096), (1, .s 0, 5120)].all fun (x : Fin 16 × Opnd × Nat) =>
      let s := (stK 0 []).withMach fun _ m => m.updWave 0 0 fun w => { w with s := w.s.set 0 5119 }
      accOk s (longInfo (.kext un 0 x.1 (.v 8) x.2.1) un 0 [(x.2.1, 32)] [(.v 8, 64)]) x.1.val fun m io _ v => decide (digitLimit v = x.2.2) &&
        io.act.all fun l => decide (readOp s.dev m io.w l 32 x.2.1 < digitLimit v)) = true ∧
    accOk (stK 0 []) (longInfo (.kextf un 0 0 .rne true (.v 8) (.imm 128) (.imm 129)) un 0 [(.imm 128, 32), (.imm 129, 32), (.v 8, 32)] [(.v 8, 32)]) 0
      (fun m io _ v => io.act.all fun l => decide (readOp (stK 0 []).dev m io.w l 32 (.imm 128) < digitLimit v)) = true ∧
    ([((0 : Fin 16), (3 : Fin 64), (0x10 : BitVec 64)), (1, 4, 2)].all fun (x : Fin 16 × Fin 64 × BitVec 64) =>
      let s := (stK 0 []).withMach fun _ m => m.updWave 0 0 fun w => { w with s := w.s.set 0 x.2.2 }
      accOk s (longInfo (.ksto un 0 x.1 x.2.1 (.s 0)) un 0 [(.s 0, 64)] []) x.1.val fun _ _ gr _ => match gr.tile x.2.1.val with
        | some t => !kstoBad x.2.2 (tdesc t.desc) ((gr.acc x.1.val).g == 0) && decide (t.consume = .use t)
        | none => false) = true ∧
    accOk (stK 0 []) (longInfo (.kpack un 0 0 1 (.v 0) (.imm 128)) un 0 [(.v 0, 32), (.imm 128, 32)] []) 0 (fun m io gr _ =>
      let t := tdesc tileA.desc
      decide (gr.tile 1 = some tileA) && !t.bare && decide (t.region = 0) && decide (t.width ≤ 512) && decide (tileA.consume = .use tileA) &&
        io.act.all fun l => decide (readOp (stK 0 []).dev m io.w l 32 (.imm 128) * 16 < 8 * t.width)) = true ∧
    (outer0.g ≠ 0 ∧ outer0.form ≠ .conv ∧ outer0.nr.getLsbD 0 = false ∧ outer0.er[(0 : Nat)]? = some (some 0)) ∧
    (({ outer0 with nr := 1 } : AccVal).nr.getLsbD 0 = true ∧ (clearAcc 16).er[(0 : Nat)]? = some none) := by
  decide +kernel

/-- AccumulateStepIsExact: a step that adds 2 * 3 to the digit 5. -/
theorem wit_AccumulateStepIsExact :
    let x : Coef := ⟨2, some 0, false⟩
    let y : Coef := ⟨3, some 0, false⟩
    (outer0.digits.map Prod.fst).Pairwise (· < ·) ∧ okB (outerStep outer0 (x :: List.replicate 63 .none_) (y :: List.replicate 63 .none_)) = true := by
  decide +kernel

/-- ProductWorkResults. -/
theorem wit_ProductWorkResults :
    accOk (stK 0 []) (longInfo (.kmul un 0 2 1 2 (.imm 128)) un 0 [(.imm 128, 64)] []) 2 (fun m io gr _ =>
      let p := pdesc 0
      !pdescBad 0 false && decide (readOp (stK 0 []).dev m io.w io.lead 64 (.imm 128) = 0) && decide (formFits gr 2 p = .ok) &&
        match operandTiles gr p 1 2 with
        | some o => !o.bad p && decide (stepOutside o p p.k0 2 = none) && decide (o.use = .use o.ta) && !convBad m gr o p 2
        | none => false) = true ∧
    (let info := longInfo (.kmma un 0 2 1 2 (.imm 128)) un 0 [(.imm 128, 64)] []
     let two : BitVec 64 := 0x2000000000100
     let ent : LatchEnt := ⟨1, 3, BitVec.ofNat 64 ((instrWord (.kmma un 0 2 1 2 (.imm 128))).getD 0), 0, two, codeVa, none⟩
     let sees := fun (latch : List LatchEnt) (q : Mach → Io → Group → Bool) =>
       accOk (stK two latch) info 2 fun m io gr _ => bitsOf io.w.gang.toNat 48 3 == 2 && !io.w.gangDead && gr.latch == latch && q m io gr
     sees [{ ent with wave := 0, out := some (0, 0, 7) }] (fun _ io _ => decide (io.p.mask = 3) && decide (io.p.pc = codeVa)) = true ∧
     sees [] (fun _ io _ => decide ((gangMembers io.w.gang).length = 2)) = true ∧
     sees [ent] (fun m io gr => match startSeq (m.updGroup 0 0 fun x => { x with latch := x.latch ++ [{ ent with wave := 0 }] }) gr (gangList51 io.w) ent.word
         io.p.pc 0 2 1 2 [(0, 3), (1, 3)] with
       | .go _ _ => decide (gangList51 io.w = two)
       | _ => false) = true) ∧
    ((grp0 stPend).accs[2]?.map Acc.pend = some [kstep0] ∧ (grp0 stPend).seqs = [] ∧ kstep0.again = false ∧
      (match operandTiles (grp0 stPend) (pdesc 0) 1 2 with
       | some o => !formBad (clearAcc 16) (pdesc 0) && match stepOn stPend.mach (grp0 stPend) o (pdesc 0) 0 2 (clearAcc 16) with
         | .ok _ => true
         | _ => false
       | none => false) = true) ∧
    (((grp0 stSeq).seqs.filter fun q => q.active && q.parked.isNone)[0]? = some kseq0 ∧ kseq0.mask.getLsbD 0 = false ∧
      (match operandTiles (grp0 stSeq) (pdesc kseq0.desc) kseq0.ta kseq0.tb with
       | some o => okB (runSteps stSeq.mach (grp0 stSeq) o (pdesc kseq0.desc) ((seqAccs kseq0.acc kseq0.desc).map fun k => (k, (grp0 stSeq).acc k)) (tileSteps kseq0 0))
       | none => false) = true) ∧
    (∀ i ≤ ({ kseq0 with mask := 1 } : KSeq).last, ({ kseq0 with mask := 1 } : KSeq).mask.getLsbD i = true) := by
  decide +kernel

/-- The small state with its coherence state changed. -/
def stCoh (f : Coh → Coh) : State := st0.withMach fun _ m => { m with coh := f m.coh }

/-- The small state of a module with its device blocks changed. -/
def stDev (f : Dev → Dev) (s : State) : State := { s with dev := f s.dev }

/-- A word of the home that core 0 holds registered under a line entry. -/
def stOwned : State := stCoh fun c => { c with
  words := [⟨5, .line, false⟩], lines := [⟨0, [0x1FF, 0x1FF, 0x1FF, 0x1FF, 0x1FF, 0, 0x1FF, 0x1FF]⟩], l1 := [⟨0, 1, 5, true, true, 9⟩] }

/-- HomeServiceResults: a word of the core's own die and one of another, a lost word, one whose owner's copy fails ECC, moves that are
next in order and that are not, and fences of each kind. -/
theorem wit_HomeServiceResults :
    ((st0.mach.choose 4).1 = 0 ∧ st0.mach.coh.lost 0 = false ∧ wordDie 0 = coreDie 0 ∧ st0.mach.coh.l1Of 0 0 = none ∧ st0.mach.coh.copies = []) ∧
    ((List.range 4).any fun i => wordDie (512 * i) != coreDie 0 && decide (8 * (512 * i) < hbmBytes) && decide (st0.mach.coh.ownerCore (512 * i) = none)) = true ∧
    ((stCoh fun c => { c with words := [⟨5, .unreg, true⟩] }).mach.coh.lost 5 = true) ∧
    (st0.mach.mem.wf = true ∧ st0.mach.coh.ownerCore 0 ≠ some 0 ∧ stOwned.mach.coh.ownerCore 5 = some 0 ∧
      ((stOwned.withMach fun _ m => { m with choices := [1] }).mach.choose 4).1 = 1) ∧
    ([([0, 1, 0, 0], true), ([0, 2, 0, 0], false)].all fun (x : List Nat × Bool) =>
      let u : Update := ⟨1, 0, 64, some 9, x.1⟩
      let c := (stCoh fun c => { c with updates := [u] }).mach.coh
      let a := c.appliedV.getD 0 []
      decide ((c.updates.filter fun u => u.dst == 0)[0]? = some u) && decide (1 < a.length) &&
        ((List.range 4).all (fun j => if j = 1 then x.1.getD j 0 == a.getD j 0 + 1 else decide (x.1.getD j 0 ≤ a.getD j 0)) == x.2)) = true ∧
    ([([0, 0, 0, 0], true), ([0, 1, 0, 0], false)].all fun (x : List Nat × Bool) =>
      let v : DieValue := ⟨1, 0, .fill 64 0, x.1⟩
      let m := (stCoh fun c => { c with values := [v] }).mach
      decide ((m.coh.values.filter fun u => u.dst == 0)[0]? = some v) && decide (m.coh.state 64 = .unreg) && decide (m.mem.word 64 = 0) &&
        !m.coh.lost 64 && decide (0 < m.coh.knownV.length) &&
        ((List.range 4).all (fun j => decide (x.1.getD j 0 ≤ (m.coh.appliedV.getD 0 []).getD j 0)) == x.2)) = true ∧
    ((∀ u ∈ (stCoh fun c => { c with updates := [⟨1, 0, 64, some 9, [0, 1, 0, 0]⟩] }).mach.coh.updates, u.dst < 4) ∧
      (stCoh fun c => { c with gen := 0xFFFF }).mach.coh.gen = 0xFFFF) ∧
    (wordDie 0 = 0 ∧ (0 : Nat) / 8 = 5 / 8 ∧ st0.mach.mem.wf = true) ∧
    ([(⟨0, 0, 3, .acqrel, .group, false, none, none⟩, [], true), (⟨0, 0, 3, .sc, .sys, true, none, none⟩, [], true),
        (⟨0, 0, 3, .sc, .sys, false, none, some [1, 0, 0, 0]⟩, [], true), (⟨0, 0, 3, .sc, .sys, false, some codeVa, none⟩, [], true),
        (⟨0, 0, 3, .rel, .sys, false, none, none⟩, [{ flight .write with stamp := [0, 0, 0, 0] }], false)].all fun (x : Fence × List Store × Bool) =>
      let s := stCoh fun c => { c with fences := [x.1], stores := x.2.1 }
      let m := releaseAt s.dev x.1.core x.1.order x.1.scope s.mach
      decide (s.mach.coh.fences[0]? = some x.1) && decide (x.1.core < 256) &&
        (releaseDone m x.1.core x.1.wave x.1.mask x.1.order x.1.scope == x.2.2 || x.2.1 != [])) = true ∧
    [(⟨0, 0, 3, .acqrel, .sys, true, none, none⟩ : Fence)].Nodup := by
  decide +kernel

/-- The replicated state with a store numbered, and a store to another module that was sent at time 0. -/
def stLate : State := after (.sequencerStore 0) stRep
def stLink (mod : Option Nat) (at_ : Nat) : State := (stFlight (flight .write)).withMach fun _ m =>
  { m with usec := at_, coh := { m.coh with remote := [⟨1, mod, 1, 0, false⟩] } }

/-- FabricResults. -/
theorem wit_FabricResults :
    ((stLate.mach.coh.reps.any fun r => r.group == 5 && !r.acked.contains 1) = true ∧ 1 ∈ repMembers stLate.dev stLate.mach 5 ∧
      ¬ (st0.mach.coh.reps.any fun r => r.group == 5) = true) ∧
    ([some 7, none].all fun mod => [(49, false), (50, true)].all fun (x : Nat × Bool) => let s := stLink mod x.1
      decide (s.mach.coh.remote[0]? = some ⟨1, mod, 1, 0, false⟩) && decide (flight .write ∈ s.mach.coh.stores) && decide ((flight .write).tag = 1) && (flight .write).record.isNone &&
        (decide (0 + linkTimeout s.mach 1 ≤ s.mach.usec) == x.2)) = true ∧
    ((st0.mach.ctx 1).isSome = true ∧
      (stDev (fun d => { d with att := { d.att with linkup := 3 } }) st0).dev.att.linkup.getLsbD 1 = true ∧ st0.dev.att.linkup.getLsbD 1 = false) ∧
    ((match st0.mach.ctx 1 with
      | some c => okB (st0.mach.walk c.ptroot.toNat 0x10000 5) && !okB (st0.mach.walk c.ptroot.toNat 0x20000 5) && st0.mach.coh.tlb.isEmpty
      | none => false) = true) ∧
    ((st0.mach.wave 0 0).isSome = true ∧ 0x200000 < hbmBytes ∧ st0.dev.srv.retired = []) := by
  decide +kernel

/-- A launch record: a group of 16 threads at 0x10000 of the small floor, with 8 scalars, for ASID 1. -/
def lr0 : Nat := 0x10000 + 2 ^ 256 * 16 + 2 ^ 288 * 16 + 2 ^ 304 + 2 ^ 306 * 4 + 2 ^ 312 * 32 + 2 ^ 322 * 16 + 2 ^ 328 * 8 + 2 ^ 400

/-- The small state attached, with queue 3 registered at 0x10040: its one entry launches the record at 0x10E00, or one that is
misaligned. -/
def stDisp (launch : Nat) (en : Bool) : State := stDev (fun d => { d with att := { d.att with attached := true, qtbase := 0x500000 } })
  (st0.withMach fun _ m =>
    { m with
      disp := { m.disp with queues := if en then [⟨3, 0x10040, 1, false, false, 0, 1, []⟩] else [] }
      mem := (((m.mem.writeN 0x200040 (toBytes 64 (2 ^ 32 + 2 ^ 64 * 4 + 2 ^ 128 * 0x10080))).writeN 0x200080 (toBytes 8 launch)).writeN 0x200E00
        (toBytes 128 lr0)).writeN 0x500060 (toBytes 11 (0x10040 + 2 ^ 64 + 2 ^ 80)) })

/-- The one head of the registered queue. -/
def head0 (launch : Nat) : HeadEnt := ⟨⟨3, 0x10040, 1, false, false, 0, 1, []⟩, 0, [BitVec.ofNat 64 launch, 0, 0, 0], 4⟩

/-- The task of that record. -/
def task0 : Task :=
  { id := 1, lrAddr := 0x10E00, lr := (List.range 16).map fun i => BitVec.ofNat 64 (bitsOf lr0 (64 * i) 64), asid := 1, arg := 0, user0 := 0, user1 := 0,
    kind := 0, depth := 0, prio := 4, deadline := 0, budget := 0, used := 0, groups := 1, nextG := 0, back := [], live := 0, doneG := 0, started := false,
    ended := false, jctr := 0, only := none, ftask := none, parent := none }

/-- DispatchTurnResults: a queue whose TAIL has and has not changed, tables that hold an entry and not, a head whose task is taken or
refused, and the order of heads. -/
theorem wit_DispatchTurnResults :
    ([(1, true), (0, false)].all fun (x : Nat × Bool) =>
      let s := (stDisp 0x10E00 true).withMach fun _ m => { m with disp := { m.disp with queues := [⟨3, 0x10040, 1, false, false, 0, x.1, []⟩] } }
      match readHdr s.dev s.mach 1 0x10040 with
      | some h => decide (h.tail = x.1) == x.2
      | none => false) = true ∧
    ((stDisp 0x10E00 true).dev.att.attached = true ∧ st0.dev.att.attached = false) ∧
    (let s := stDisp 0x10E00 false
     bitOf (queueEntry s.dev s.mach 3) 80 = true ∧ bitOf (queueEntry s.dev s.mach 4) 80 = false ∧ s.mach.disp.queues = [] ∧
       resident s.mach 1 = true ∧ bitsOf (queueEntry s.dev s.mach 3) 83 45 = 0 ∧ (readHdr s.dev s.mach 1 0x10040).isSome = true) ∧
    (let s := stDisp 0x10E00 true
     (heads s.dev s.mach).2 = [head0 0x10E00] ∧ (heads st0.dev st0.mach).2 = [] ∧ bestOf (headBetter s.mach) [head0 0x10E00] = some (head0 0x10E00) ∧
       s.mach.disp.tasks = []) ∧
    ([(0x10E00, 0), (0x10E40, 1)].all fun (x : Nat × Nat) => let s := stDisp x.1 true
      let m1 := advanceHead s.dev (head0 x.1).q 0 { s.mach with disp := { s.mach.disp with rr := [(4, 3)] } }
      decide (taskReason s.dev m1 1 (BitVec.ofNat 64 x.1) = x.2) && decide (ftaskAt s.mach (head0 x.1).q 0 = none)) = true ∧
    (let a := head0 0x10E00
     let b : HeadEnt := { a with q := { a.q with n := 5 } }
     let m := { st0.mach with disp := { st0.mach.disp with rr := [(4, 5)] } }
     a.level = b.level ∧ a.q.n < 16384 ∧ b.q.n < 16384 ∧ lastQueue m 4 = some 5 ∧ a.q.n < b.q.n ∧ b.q.n ≤ 5) ∧
    (task0.depth < { task0 with depth := 1 }.depth ∧ task0.prio < { task0 with prio := 5 }.prio) ∧
    ((pickCore st0.mach task0 0).isSome && !task0.stocks) = true := by
  decide +kernel

/-- The state with that task bound. -/
def rec1 : BindRec := ⟨0, 0, 0, 4, 0, 0, 1, 0, 0x10E00, 0, 0, 0, 0, 0, 1⟩
def stBound : State := (stDisp 0x10E00 true).withMach fun _ m =>
  { m with disp := { m.disp with tasks := [{ task0 with nextG := 1 }], slots := [rec1], nextId := 2 } }

/-- A fault task, and a state that holds it: its record parked, in a queue at 0x10040 with room or without. -/
def ftask0 (taken : Bool) (slot : Option Nat) : FTask := ⟨7, 0x10C00, 1, 0x10040, 0x10E00, 0x50, 3, 0, 0, 5, 5, slot, taken, 0⟩
def stTask (cap : BitVec 64) (t : FTask) : State := (stQ 0x100000000 cap).withMach fun _ m =>
  { m with usec := 5, disp := { m.disp with ftasks := [t], parked := [{ rec0 with code := 0x50 }] } }

/-- BoundTaskResults. -/
theorem wit_BoundTaskResults :
    (bestOf BindRec.before (boundRecs stBound.mach rec1.core) = some rec1 ∧
     (match stBound.mach.task rec1.taskref with
      | some t => (stBound.mach.waves.all fun w => w.core != rec1.core || !w.awaitsSlot) && groupFits stBound.mach rec1.core false t rec1.gindex && !t.stocks &&
          (pickSlots false (lrShadow t.lr) (waveCount (t.sizeOf rec1.gindex) (lrWidth t.lr)) (slotsUsed stBound.mach rec1.core)).isSome
      | none => false) = true) ∧
    (let full := stBound.withMach fun _ m => m.updGroup 0 0 fun g => { g with alloc := { g.alloc with spad := 2 ^ 40 } }
     (match full.mach.task rec1.taskref with
      | some t => !groupFits full.mach rec1.core false t rec1.gindex && decide (boundRecs full.mach rec1.core = [rec1])
      | none => false) = true) ∧
    (match stBound.mach.task rec1.taskref with
     | some t => decide (0 < lrWidth t.lr) && decide (0 < t.sizeOf 0) && decide (t.sizeOf 0 ≤ 0 * lrWidth t.lr + 20)
     | none => false) = true ∧
    ((boundRecs stBound.mach rec1.core).find? (fun x => x.idx == rec1.idx) = some rec1 ∧ resident stBound.mach rec1.asid = true ∧ rec1.deadline = 0 ∧
      resident (stBound.withMach fun _ m => m.updCtx 1 fun c => { c with cstate := .draining }).mach rec1.asid = false) ∧
    (match stBound.mach.disp.tasks with
     | [t] => !taskDone stBound.mach t && taskDone { stBound.mach with disp := { stBound.mach.disp with slots := [] } } t && decide (t.ftask = none)
     | _ => false) = true ∧
    ([(0, 9), (1, 9), (1, 8)].all fun (x : Nat × Nat) =>
      let t := { task0 with kind := x.1, budget := 9, used := x.2 }
      let s := (stW fun w => { w with task := some 1 }).withMach fun _ m => { m with disp := { m.disp with tasks := [t] } }
      match s.mach.wave 0 0 with
      | some w => decide (w.task = some 1) && decide (s.mach.task 1 = some t)
      | none => false) = true ∧
    ([false, true].all fun taken => let s := stTask 4 (ftask0 taken (some 0))
      decide (s.mach.disp.ftasks[0]? = some (ftask0 taken (some 0))) && decide (5 ≤ s.mach.usec) && (s.mach.parkedAt 1 0x10C00).isSome) = true ∧
    ([(4, true), (1, false)].all fun (x : BitVec 64 × Bool) => let s := stTask x.1 (ftask0 false none)
      (deliverHeld s.dev (ftask0 false none) s.mach).isSome == x.2 && match pickQueue s.dev s.mach 1 0x10040 0 with
        | some (q, h) => decide (q = 0x10040) && (decide (h.count < h.cap) == x.2) &&
          (enqueueAt s.dev s.mach 1 q h (taskEntry 0x10E00 0x10C00 0x50 3 0 0 5)).isSome
        | none => false) = true := by
  decide +kernel

/-- Service core 0 selected, for ASID 1: `x5` and `x6` hold two numbers, and `x5` perhaps a capability. -/
def svc0 (a b : BitVec 64) (cap : Option (BitVec 64)) (user : Bool) : SvcCore :=
  { SvcCore.reset with x := ((List.replicate 32 (0 : BitVec 64)).set 5 a).set 6 b, caps := (List.replicate 32 none).set 5 cap, user := user, svasid := 1 }
def stSvc (c : SvcCore) : State :=
  let s := (stDisp 0x10E00 false).withMach fun _ m => { m with cur := some (.service 0), mem := m.mem.writeN 0x300000 [4] }
  { s with svc := [c] }

/-- A capability to load 4 KiB at 0x300000 (R414 to R416): G 12, BASE 0x300, LENGTH 1, and the right of bit 106. -/
def cap0 : BitVec 64 := 0x4000100C00C

/-- ServiceCoreResults: `vspawn` of a record that is taken and of one that is refused, `vjoin` of a target that is met and of one that
is not, the exceptions, and a capability. -/
theorem wit_ServiceCoreResults :
    ([(0x10E00, 0), (0x10E40, 1)].all fun (x : BitVec 64 × Nat) => let s := stSvc (svc0 x.1 7 none false)
      decide (s.mach.cur = some (.service 0)) && resident s.mach 1 && decide (taskReason s.dev s.mach 1 x.1 = x.2)) = true ∧
    (svc0 0 0 none true).user = true ∧ ((0x8000000000000000 : BitVec 64).getLsbD 63 = true ∧ (0x300001 : BitVec 64).toNat % 8 ≠ 0) ∧
    capGrants (svc0 0x300000 3 none false) 5 8 106 = false ∧ capGrants (svc0 0x300000 3 (some cap0) false) 5 8 106 = true ∧
    capBounds 0x300000 cap0 = some (0x300000, 0x301000) ∧
    ([(3, true), (9, false)].all fun (x : BitVec 64 × Bool) =>
      let c := { svc0 0x300000 x.1 (some cap0) false with joining := some (1, 5, 6) }
      let s := stSvc c
      decide (s.svc[0]? = some c) && match serviceLoad s.dev s.mach c (c.reg 5) with
        | .ok v => decide (v = 4) && (joinMet v (c.reg 6) == x.2)
        | .error _ => false) = true := by
  decide +kernel

/-- The small state attached, with a queue of requests at 0x10040: its head is the given request, with its reply at 0x10900. A file of
64 bytes at 0x10A80 is in the table at 0x10A00, and the log ring is at 0x10B00. -/
def stReq (op high : Nat) (arg0 arg1 : BitVec 64) (places : List Placement) : State :=
  let late : List LateWindow := [⟨0x10000, 8192, 0x400000⟩]
  let s := stDev (fun d => { d with att := { d.att with attached := true, ifneg := 0x1111 } }) (st0.withMach fun _ m =>
    { m.updCtx 1 (fun c => { c with places := places, windows := late }) with
      mem := ((m.mem.writeN 0x200040 (toBytes 64 (2 ^ 32 + 2 ^ 64 * 4 + 2 ^ 98 + 2 ^ 128 * 0x10080))).writeN 0x200080
        (toBytes 32 (op + 2 ^ 16 * high + 2 ^ 64 * arg0.toNat + 2 ^ 128 * 0x10900 + 2 ^ 192 * arg1.toNat))).writeN 0x200A00 (toBytes 16 (0x10A80 + 2 ^ 64 * 64)) })
  { s with svcq := [⟨0x10040, 1, 0x10A00, 1, 0x10B00, 0⟩] }

/-- The head of the queue is that request, and the machine after its dequeuing. -/
def reqMach (s : State) (op : Nat) : Option Mach :=
  match headRequest s.dev s.mach ⟨0x10040, 1, 0x10A00, 1, 0x10B00, 0⟩ with
  | some (h, r) => if r.op = op then some (setHdr s.dev s.mach 1 0x10040 0 ((h.head + 1) % 2 ^ 32)) else none
  | none => none

/-- ServiceRequestResults: each request, with a place that is free, held or wrong, and inside and outside a file. -/
theorem wit_ServiceRequestResults :
    ([0, 8].all fun op => (reqMach (stReq op 0 0 0 []) op).isSome) = true ∧
    ([([], true), ([⟨0x20000, 0x10000, 4096, false⟩], false)].all fun (x : List Placement × Bool) =>
      match reqMach (stReq 1 0 0x10800 0 x.1) 1 with
      | some m => (findPlace m 1 (fun p => !p.alloc && p.src == 0x10000)).isNone == x.2 && (windowOf m 1 0x10800).isSome &&
        (windowOf m 1 0x20000).isNone && (windowOf m 1 0x11000).isSome && (mapPage 1 0x20000 0x300000 m).isSome &&
        (mapPage 1 0x10000 0x300000 m).isNone && m.mem.wf
      | none => false) = true ∧
    ([(2, false), (4, true)].all fun (x : Nat × Bool) => match reqMach (stReq x.1 0 0x20000 0 [⟨0x20000, 0x10000, 4096, x.2⟩]) x.1 with
      | some m => (findPlace m 1 (fun p => (p.alloc == x.2) && p.va == 0x20000)).isSome && (findPlace m 1 (fun p => (p.alloc == x.2) && p.va == 0x30000)).isNone
      | none => false) = true ∧
    (match reqMach (stReq 3 0 4096 100 []) 3 with
     | some m => decide ((4096 : BitVec 64).toNat = 4096 * 2 ^ 0) && decide (0x300000 + 4096 * 1 ≤ privateBase) && (mapPages 1 0x20000 0x300000 1 m).isSome
     | none => false) = true ∧
    ([5, 6].all fun op => let s := stReq op (2 ^ 16 * 8) 0x10800 60 []
      let q : SvcQueue := ⟨0x10040, 1, 0x10A00, 1, 0x10B00, 0⟩
      match reqMach s op with
      | some m => decide (fileOf s.dev m q 0 = some (0x10A80, 64)) && (let n : Nat := min 8 (64 - 60)
        match readAs s.dev m 1 (if op = 6 then 0x10800 else 0x10A80 + 60) n with
        | some bs => (writeVa s.dev m 1 (if op = 6 then 0x10A80 + 60 else 0x10800) bs false).isSome && (readAs s.dev m 1 0x50000 n).isNone
        | none => false)
      | none => false) = true ∧
    (match reqMach (stReq 7 (2 ^ 16 * 8) 0x10800 0 []) 7 with
     | some m => match readAs st0.dev m 1 0x10800 8 with
       | some bs => (writeVa st0.dev m 1 0x10B00 (bs.take 8) false).isSome
       | none => false
     | none => false) = true ∧
    (match writeVa st0.dev st0.mach 1 (0x10900 + 8) (toBytes 8 5) true with
     | some m1 => (writeVa st0.dev m1 1 0x10900 (toBytes 8 1) true).isSome
     | none => false) = true := by
  decide +kernel

/-- The small state of an attached module whose control block names ASID 1, in a context of the given state. -/
def stCmdC (st : CState) (arg : BitVec 64) : State := stDev (fun d => { d with
    att := { d.att with attached := true }, ctl := { d.ctl with cmdasid := 1, cmdarg := arg, ctxbase := 0x600000 } })
  (st0.withMach fun _ m => m.updCtx 1 fun c => { c with cstate := st })

/-- The descriptor of ASID 2 at index 2, with its fault table at an address. At 0x10FC0 stands one that names no handler. -/
def desc0 (tab : Nat) : Nat := 2 + 2 ^ 64 * 0x100000 + 2 ^ 128 * tab + 2 ^ 256 * 0x400000 + 2 ^ 320 * 9
def stLoad (tab : Nat) : State := (stCmdC .resident 2).withMach fun _ m =>
  { m with mem := (Memory.write [] 0x200FD0 1).writeN 0x600100 (toBytes 44 (desc0 tab))
           coh := { m.coh with tlb := (List.range 3).map fun i => ⟨0, 2, 0x10 + i, BitVec.ofNat 64 (0x20001F + 4096 * i), 0⟩ } }

theorem read_unlisted (m : Memory) (a : Nat) (h : ∀ c ∈ m, c.1 ≠ a) : m.read a = 0 := by
  induction m with
  | nil => rfl
  | cons c r ih =>
    obtain ⟨k, b⟩ := c
    have h0 : a ≠ k := fun e => h (k, b) (by simp) e.symm
    simp only [Memory.read, if_neg h0]
    exact ih fun c hc => h c (by simp [hc])

theorem readN_unlisted (m : Memory) (n : Nat) : ∀ a, (∀ c ∈ m, ¬ (a ≤ c.1 ∧ c.1 < a + n)) → m.readN a n = List.replicate n 0 := by
  induction n with
  | zero => intro a _; rfl
  | succ n ih =>
    intro a h
    rw [Memory.readN, ih (a + 1) fun c hc hx => h c hc (by omega), read_unlisted m a fun c hc e => h c hc (by omega)]
    rfl

/-- Words that memory does not list read as zero. -/
theorem homeBytes_unlisted (m : Mach) (w k : Nat) (hw : m.coh.words = []) (h : ∀ c ∈ m.mem, ¬ (8 * w ≤ c.1 ∧ c.1 < 8 * w + 8 * k)) :
    m.homeBytes (8 * w) (8 * k) = List.replicate (8 * k) 0 := by
  have hp : wordPieces (8 * w) (8 * k) = (List.range k).map fun i => (w + i, 0, 8) := by
    have h1 : (8 * w % 8 + 8 * k + 7) / 8 = k := by omega
    have h2 : 8 * w / 8 = w := by omega
    simp only [wordPieces, h1, h2]
    exact List.map_congr_left fun i hi => by
      have := List.mem_range.1 hi
      simp only [Prod.mk.injEq, true_and]
      omega
  have hv : ∀ i < k, m.homeValue (w + i) = 0 := by
    intro i hi
    have ho : m.coh.ownerCore (w + i) = none := by simp [Coh.ownerCore, Coh.owner, Coh.state, Coh.find, hw]
    simp only [Mach.homeValue, ho, Memory.word]
    rw [readN_unlisted _ _ _ fun c hc hx => h c hc (by omega)]
    rfl
  have hm : ((List.range k).map fun i => (w + i, 0, 8)).map (fun p => ((toBytes 8 (m.homeValue p.1).toNat).drop p.2.1).take p.2.2)
      = List.replicate k (List.replicate 8 (0 : Byte)) := by
    rw [List.map_map]
    refine List.eq_replicate_iff.2 ⟨by simp, fun b hb => ?_⟩
    obtain ⟨i, hi, rfl⟩ := List.mem_map.1 hb
    simp only [Function.comp, hv i (List.mem_range.1 hi)]
    rfl
  rw [Mach.homeBytes, hp, hm]
  refine List.eq_replicate_iff.2 ⟨by simp [Nat.mul_comm], fun b hb => ?_⟩
  obtain ⟨l, hl, hb⟩ := List.mem_flatten.1 hb
  rw [List.eq_of_mem_replicate hl] at hb
  exact List.eq_of_mem_replicate hb

/-- The machine in which LOAD reads the fault table. -/
def machLoad : Mach := { (stLoad 0x10FC0).mach with ctxs := (stLoad 0x10FC0).mach.ctxs ++ [ctxOf 2 (desc0 0x10FC0)] }

theorem ofBytes_zeros (n : Nat) : ofBytes (List.replicate n 0) = 0 := by
  induction n with
  | zero => rfl
  | succ n ih =>
    rw [List.replicate_succ, ofBytes, ih]
    rfl

/-- A fault table with one ordinary record and no handler keeps to R386. -/
theorem table_good : faultTableBad (stLoad 0x10FC0).dev machLoad 2 0x10FC0 = false := by
  have ht : (translateRange (stLoad 0x10FC0).dev machLoad 0 2 0x10FC0 8256 .r true).toOption = some
      [(⟨0x200FC0, .hbm, true, none⟩, 64), (⟨0x201000, .hbm, true, none⟩, 4096), (⟨0x202000, .hbm, true, none⟩, 4096)] := by decide +kernel
  have h0 : machLoad.homeBytes 0x200FC0 64 = List.replicate 16 0 ++ 1 :: List.replicate 47 0 := by decide +kernel
  have h1 : machLoad.homeBytes 0x201000 4096 = List.replicate 4096 0 :=
    homeBytes_unlisted machLoad (0x201000 / 8) 512 (by decide +kernel) (by decide +kernel)
  have h2 : machLoad.homeBytes 0x202000 4096 = List.replicate 4096 0 :=
    homeBytes_unlisted machLoad (0x202000 / 8) 512 (by decide +kernel) (by decide +kernel)
  have hr : readVa (stLoad 0x10FC0).dev machLoad 2 0x10FC0 8256 true
      = .ok ((List.replicate 16 0 ++ 1 :: List.replicate 47 0) ++ List.replicate 8192 0) := by
    unfold readVa
    cases e : translateRange (stLoad 0x10FC0).dev machLoad 0 2 0x10FC0 8256 .r true with
    | error f => rw [e] at ht; cases ht
    | ok ps =>
      rw [e] at ht
      cases ht
      have hl : ∀ pa n, machLoad.lostIn pa n = none := by
        intro pa n
        have hw : machLoad.coh.words = [] := by decide +kernel
        simp [Mach.lostIn, Coh.lost, Coh.find, hw]
      simp only [List.find?, Option.isSome, List.findSome?, hl, List.map_cons, List.map_nil, h0, h1, h2, List.flatten_cons, List.flatten_nil,
        List.append_nil, List.replicate_append_replicate]
  unfold faultTableBad
  rw [hr]
  simp only [Bool.or_eq_false_iff]
  refine ⟨by decide +kernel, List.any_eq_false.2 fun c hc => ?_⟩
  have hd : (((List.replicate 16 (0 : Byte) ++ 1 :: List.replicate 47 0) ++ List.replicate 8192 0).drop (64 + 32 * c)).take 32
      = List.replicate (min 32 (8192 - 32 * c)) (0 : Byte) := by
    rw [← List.drop_drop, List.drop_left' (by rfl), List.drop_replicate, List.take_replicate]
  rw [hd, ofBytes_zeros]
  have : (List.range 256).all (fun c => !faultEntryBad c 0) = true := by decide +kernel
  simpa using List.all_eq_true.1 this c hc

/-- ContextCommandResults: a module that serves and one that does not, a context in each state, and descriptors that LOAD accepts and
refuses. -/
theorem wit_ContextCommandResults :
    ((st0.dev.serves = false ∧ (stCmdC .resident 0).dev.serves = true ∧ (stCmdC .resident 0).dev.ctl.cmdbusy = false ∧
      (∀ c ∈ (stCmdC .resident 0).mach.ctxs, c.restoring = false)) ∧
    ([CState.resident, .saved, .killed, .nonresident, .draining, .saving].all fun st =>
      ((stCmdC st 0).mach.ctx (stCmdC st 0).dev.ctl.cmdasid).map Ctx.cstate == some st) = true ∧
    ((stCmdC .resident 0).mach.ctx 2 = none ∧ ((stCmdC .resident 0x10000).mach.wave 0 0).map Wave.asid = some 1) ∧
    (256 ≤ (stCmdC .resident 256).dev.ctl.cmdarg.toNat ∧ bitsOf (readDesc (stCmdC .resident 2).dev (stCmdC .resident 2).mach 2) 0 16 = 0) ∧
    ([0x10FC0, 0x50000].all fun tab => let s := stLoad tab
      decide (readDesc s.dev s.mach 2 = desc0 tab) && !descBad (desc0 tab) && decide (s.mach.ctx 2 = none) && decide (residentCount s.mach < 256)) = true ∧
    (let s := stLoad 0x50000
     faultTableBad s.dev { s.mach with ctxs := s.mach.ctxs ++ [ctxOf 2 (desc0 0x50000)] } 2 0x50000 = true)) ∧
    faultTableBad (stLoad 0x10FC0).dev machLoad 2 0x10FC0 = false :=
  ⟨by decide +kernel, table_good⟩

/-- The small state whose context drains, saves or is saved, with the time left to it and the pages of its save area. -/
def stDrain (st : CState) (t n : Nat) : State := (stCmdC st 0).withMach fun _ m =>
  (m.updCtx 1 fun c => { c with drainT := t, savesize := n }).updWave 0 0 fun w => { w with saved := some none }
def stSaved : State := (stCmdC .saved 0).withMach fun _ m =>
  { (m.updCtx 1 fun c => { c with groups := m.groups, waves := m.waves }) with groups := [], waves := [] }

/-- PreemptionResults: a resident context, one that drains with a group left and without, one that is saved, and a RESTORE that places
everything. -/
theorem wit_PreemptionResults :
    (stCmdC .resident 0).dev.serves = true ∧
    ([(0, false), (9, true)].all fun (x : Nat × Bool) => let s := stDrain .draining x.1 9
      (s.mach.groups.any fun g => g.asid == 1) && match s.mach.ctx 1 with
        | some c => decide (c.cstate = .draining) && (decide (s.mach.usec < c.drainT) == x.2)
        | none => false) = true ∧
    ([(9, 9, 0), (0, 0, 0), (0, 9, 5)].all fun (x : Nat × Nat × Nat) => let s := (stDrain .saving x.1 x.2.1).withMach fun _ m => { m with usec := x.2.2 }
      let m := saveStores s.dev 1 s.mach
      (decide (s.mach.usec < 9) && (s.mach.ctx 1).isSome) && match m.ctx 1 with
        | some c => decide (c.cstate = .saving) && saveReady 1 m && (decide (m.usec ≤ c.drainT) == decide (x.2.2 = 0))
        | none => false) = true ∧
    ([none, some (some 7)].all fun (at_ : Option (Option Nat)) => let s := (stDrain .saving 0 9).withMach fun _ m => m.updWave 0 0 fun w => { w with saved := at_ }
      let runs := fun (w : Wave) => w.asid == 1 && !w.ended && !saveTaken s.mach w
      (s.mach.waves.any runs == at_.isNone) && saveReady 1 (saveStores s.dev 1 { s.mach with
        waves := updWhere runs (fun w => { w with saved := some none }) s.mach.waves })) = true ∧
    (let s := stSaved
     (match s.mach.ctx 1 with
      | some c => decide (c.cstate = .saved) &&
        (let m0 := refreshDesc s.dev 1 (s.mach.updCtx 1 fun x => { x with restoring := true })
         match (placeUnits 1 (c.groups.length + c.waves.length) m0).ctx 1 with
         | some k => k.groups.isEmpty && k.waves.isEmpty && s.mach.disp.parked.isEmpty
         | none => false)
      | none => false) = true) := by
  decide +kernel

/-- The small state detached, with a mode and the interfaces that the host supports. -/
def stAtt (mode : BitVec 2) (ifhost : BitVec 64) : State := stDev (fun d => { d with att := { d.att with mode := mode, ifhost := ifhost } }) st0

/-- The small state attached, with the given interfaces agreed. -/
def stOn (ifneg : BitVec 64) : State := stDev (fun d => { d with att := { d.att with attached := true, mode := 1, ifneg := ifneg } }) st0

/-- The small state with the context's snapshot state changed. -/
def snapSet (f : Snap → Snap) (s : State) : State := s.withMach fun _ m => m.updCtx 1 fun c => { c with snap := f c.snap }

/-- AttachResults: each mode, interfaces that suffice and that do not, a module that is attached and one that is in recovery; field
values within and out of range; an armed context, and a service core in each mode. -/
theorem wit_AttachResults :
    ([(0, 0x111), (1, 0x111), (2, 0x111), (3, 0x111), (2, 0x1011)].all fun (x : BitVec 2 × BitVec 64) => let s := stAtt x.1 x.2
      s.dev.ready && !s.dev.ctl.recovery && !s.dev.att.attached && decide (s.dev.att.mode = x.1) && decide ((s.mach.choose 2).1 = 0) &&
        ((List.range 3).any fun n => decide (s.dev.att.ifhost.toNat / 2 ^ (4 * n) % 16 = 0)) == decide (x.2 = 0x1011)) = true ∧
    ((stOn 0).dev.att.attached = true ∧ (stDev (fun d => { d with ctl := { d.ctl with recovery := true } }) st0).dev.ctl.recovery = true) ∧
    ([(0x1111111, true), (0x1001111, false)].all fun (x : BitVec 64 × Bool) => let s := stOn x.1
      s.dev.ready && s.dev.ctl.powered && !s.dev.att.refused && s.dev.att.attached && (s.dev.agreed 4 && s.dev.agreed 5) == x.2 && s.dev.agreed 6) = true ∧
    ((stOn 0).dev.agreed 6 = false ∧ (∀ c ∈ (stOn 0).mach.ctxs, c.snap.armed = false) ∧
      ∃ c ∈ (snapSet (fun x => { x with armed := true }) (stOn 0)).mach.ctxs, c.snap.armed = true) ∧
    (st0.dev.srv.pstate = 0 ∧ (stDev (fun d => { d with srv := { d.srv with pstate := 3 } }) st0).dev.srv.pstate ≠ 0) ∧
    (400 ≤ (2400 : BitVec 64).toNat % 2 ^ 12 ∧ (2400 : BitVec 64).toNat % 2 ^ 12 ≤ 2400 ∧ 2400 < (2401 : BitVec 64).toNat % 2 ^ 12 ∧
      70 ≤ (70 : BitVec 64).toNat % 256 ∧ (100 : BitVec 64).toNat % 256 ≤ 100 ∧ 100 < (101 : BitVec 64).toNat % 256 ∧
      1 ≤ (50 : BitVec 64).toNat % 64 ∧ (50 : BitVec 64).toNat % 64 ≤ 50) ∧
    ((st0.svc[15]?).map SvcCore.user = some false ∧ ((stSvc (svc0 0 0 none true)).svc[0]?).map SvcCore.user = some true) := by
  decide +kernel

/-- HostAccessResults. -/
theorem wit_HostAccessResults :
    ((stDev (fun d => { d with att := { d.att with refused := true } }) st0).dev.att.refused = true ∧ (stOn 0).dev.att.refused = false ∧ 64 + [(1 : Byte)].length ≤ 2 ^ 50) ∧
    ((stOn 0).dev.ready = true ∧ (stOn 0).dev.att.attached = true ∧ (stOn 0).dev.att.mode = 1 ∧ (stOn 0).mach.frozen = [] ∧ (stOn 0).mach.mem.wf = true) ∧
    (0x200000 + 4 ≤ privateBase ∧ privateBase < privateBase - 4 + 8 ∧ privateBase - 4 + 8 ≤ hbmBytes ∧ 0 < [(1 : Byte)].length) ∧
    ([true, false].all fun r => let s := stDev (fun d => { d with ctl := { d.ctl with recovery := r } }) st0
      s.dev.ctl.powered && !s.dev.att.refused && s.dev.ctl.recovery == r) = true ∧ 0 + 4 ≤ 2 ^ 24 ∧
    (privateBase ≤ (BitVec.ofNat 64 privateBase).toNat ∧ (BitVec.ofNat 64 privateBase).toNat < hbmBytes ∧ (0 : BitVec 64).toNat < privateBase) ∧
    (stOn 0x1000000).dev.agreed 6 = true ∧
    (let s := stCoh fun c => { c with words := [⟨hostAddr 64 / 8, .line, false⟩], lines := [⟨hostAddr 64 / 64, 0 :: List.replicate 7 0x1FF⟩], l1 := [⟨0, 1, hostAddr 64 / 8, true, true, 9⟩], hostLines := [(hostAddr 64 / 64, false)] }
     s.mach.mem.wf = true ∧ isHost (hostAddr 64) = true ∧ hostAddr 64 / 8 ∈ hostLineWords 1 ∧ s.mach.coh.lost (hostAddr 64 / 8) = false ∧
       s.dev.errRing = false) := by
  decide +kernel

/-- The small state whose page is one of the host, with page requests. -/
def stAts (reqs : List PageReq) (prk : List Parked) : State := st0.withMach fun _ m =>
  { m with mem := m.mem.writeN 0x104080 (toBytes 8 0x25F), coh := { m.coh with reqs := reqs }, disp := { m.disp with parked := prk } }

/-- TranslationServiceResults: a page of the host, requests that are sent and that wait, and a store that used the answer or did not. -/
theorem wit_TranslationServiceResults :
    (let s := stAts [] []
     (s.mach.ctx 1).map Ctx.asid = some 1 ∧ atsPage s.mach 1 0x10010 = true ∧ atsPage s.mach 1 0x11010 = false ∧
       (∀ x ∈ s.mach.disp.parked, x.asid = 1 → x.code ≠ 0x04) ∧ ∀ r ∈ s.mach.coh.reqs, r.asid = 1 → r.page ≠ 0x10) ∧
    ([true, false].all fun b => (stAts [⟨1, 0x10, b⟩] []).mach.coh.reqs.any fun r => r.asid == 1 && r.page == 0x10 && r.sent == b) = true ∧
    ((∀ x ∈ [(⟨1, 0x10, true⟩ : PageReq)], x.sent = true) ∧ (⟨1, 0x11, false⟩ : PageReq).sent = false) ∧
    ([[], [⟨1, 0x10⟩]].all fun gone => let s := (stAts [] []).withMach fun _ m => { m with coh := { m.coh with revoked := gone } }
      s.mach.coh.ats.isEmpty && s.mach.coh.prgFail.isEmpty && match s.mach.ctx 1 with
        | some c => match s.mach.leaf 0 c 0x10010 with
          | .ok (e, _) => bitsOf e 6 2 == 1 && bitOf e 9 && (s.mach.coh.revoked.contains ⟨1, 0x10⟩ == !gone.isEmpty)
          | .error _ => false
        | none => false) = true ∧
    (let m := { (stFlight (flight .write)).mach with groups := [] }
     m.coh.stores = [flight .write] ∧ m.groups = [] ∧ (flight .write).asid = 1 ∧ (flight .write).record = none ∧
       ([true, false].all fun b => (fun g => b && g == 0x10) ((flight .write).va.toNat / 4096) == b) = true) := by
  decide +kernel

/-- ResetAndStartResults: an attached module with and without an UPDATE that runs, and a module that starts, with and without an image. -/
theorem wit_ResetAndStartResults :
    ([none, some [1]].all fun u => let s := stDev (fun d => { d with mgt := { d.mgt with updating := u } }) (stOn 0)
      s.dev.ready && s.dev.att.attached && decide (s.dev.mgt.updating = u) && decide ((s.mach.ctx 1).map Ctx.cstate = some .resident)) = true ∧
    (st0.dev.att.attached = false ∧ (∀ c ∈ (stOn 0).mach.ctxs, (stOn 0).mach.ctx c.asid = some c)) ∧
    ([none, some [1]].all fun u => [0, 2].all fun (n : BitVec 2) =>
      let s := stDev (fun d => { d with ctl := { d.ctl with bootstage := 0, failcnt := n }, mgt := { d.mgt with store := u, wiping := decide (n = 0) } }) st0
      s.dev.ctl.powered && s.dev.ctl.bootstage != 7 && !s.dev.ctl.recovery && !s.dev.mgt.holdTrip && s.dev.mgt.store == u) = true ∧
    (stDev (fun d => { d with ctl := { d.ctl with powered := false } }) st0).dev.ctl.powered = false := by
  decide +kernel

/-- PowerAndTemperatureResults: over the cap, with headroom, and between; at each limit of the temperatures. -/
theorem wit_PowerAndTemperatureResults :
    ([(2401, 0), (2280, 1), (2400, 2)].all fun (x : BitVec 12 × Nat) => let g := st0.dev.mgt
      decide (g.pwrcap < x.1) == (x.2 == 0) && (decide (100 * x.1.toNat ≤ 95 * g.pwrcap.toNat) && !g.throt.getLsbD 1 && !g.throt.getLsbD 2) == (x.2 == 1) &&
        (decide (x.1 ≤ g.pwrcap) && decide (95 * g.pwrcap.toNat < 100 * x.1.toNat)) == (x.2 == 2)) = true ∧
    (st0.dev.mgt.tlimit ≤ 95 ∧ (94 : BitVec 8) < st0.dev.mgt.tlimit ∧ (90 : BitVec 8).toNat + 5 ≤ st0.dev.mgt.tlimit.toNat ∧
      st0.dev.mgt.tlimit.toNat < (91 : BitVec 8).toNat + 5 ∧ (84 : BitVec 8).toNat < 85 ∧ 110 ≤ (110 : BitVec 8).toNat ∧ st0.dev.ctl.powered = true) ∧
    (1200 ≤ (1300 : BitVec 12).toNat ∧ (1300 : BitVec 12).toNat % 100 = 0) := by
  decide +kernel

/-- The small state attached with every interface but one agreed, its mailbox buffer at 0x201000, with bytes in it. -/
def stBox (ifneg : BitVec 64) (bs : List Byte) : State := stDev (fun d => { d with mgt := { d.mgt with mbbuf := 0x201000 } })
  ((stOn ifneg).withMach fun _ m => { m with mem := m.mem.writeN 0x201000 bs })

/-- A registered queue of the service OS. -/
def svcq0 : SvcQueue := ⟨0x10040, 1, 0x10A00, 1, 0, 0⟩

/-- MailboxResults: a module that serves and one that does not, a good buffer and a bad one, with and without an identity, an image that
is not formed and a request of each kind; queues that are well formed and not, registered and not. -/
theorem wit_MailboxResults :
    (let s := stBox 0x1111111 []
     s.dev.ctl.recovery = false ∧ s.dev.ready = true ∧ s.dev.att.attached = true ∧ s.dev.agreed 6 = true ∧ s.dev.mgt.mbbusy = false ∧
       s.dev.mgt.updating = none ∧ s.dev.agreed 3 = true ∧ (stBox 0x1110111 []).dev.agreed 3 = false ∧ (stBox 0x0111111 []).dev.agreed 6 = false ∧
       bufferBad s.dev = false ∧ bufferBad (stDev (fun d => { d with mgt := { d.mgt with mbbuf := 8 } }) s).dev = true ∧
       s.dev.mgt.pendingReset = none ∧ (s.mach.choose 2).1 = 0 ∧ s.dev.mgt.wiping = false) ∧
    ([true, false].all fun b => noIdentity (stDev (fun d => { d with mgt := { d.mgt with lcstate := 1, hasSecret := b } }) st0).dev == !b) = true ∧
    ((updateImage (stBox 0x1111111 [0, 0, 0x20])).isSome = true ∧ imageError st0.dev [] = 5) ∧
    (let s := (stBox 0x1111111 [1]).withMach fun _ m => m.updCtx 1 fun c => { c with cstate := .killed }
     (∀ c ∈ s.mach.ctxs, c.cstate ≠ .resident ∧ c.cstate ≠ .draining ∧ c.cstate ≠ .saving) ∧ ∃ c ∈ st0.mach.ctxs, c.cstate = .resident) ∧
    (requestError st0.dev [4] [] [] = 5 ∧ [0, 1, 2, 3].map (fun l => requestError (stDev (fun d => { d with mgt := { d.mgt with lcstate := l } }) st0).dev
      [if l = 1 then 1 else 0] [] []) = [4, 4, 4, 4]) ∧
    (svcQueueOf st0.dev st0.mach 0 = none ∧ (let s := st0.withMach fun _ m => { m with mem := m.mem.writeN 0x200040 (toBytes 64 (2 ^ 32 + 2 ^ 64 * 4 + 2 ^ 98 + 2 ^ 128 * 0x10080)) }
      svcQueueOf s.dev s.mach (0x10040 + 2 ^ 64 + 2 ^ 128 * 0x10A00 + 2 ^ 192) = some svcq0) ∧ st0.svcq.length < 256) ∧
    ([[], [svcq0]].all fun q => let s := { stBox 0x1111111 (toBytes 16 (0x10040 + 2 ^ 64)) with svcq := q }
      let n := ofBytes (mbBytes s 0 16)
      (s.svcq.any fun x => decide (x.hdr.toNat = n % 2 ^ 64) && decide (x.asid.toNat = n / 2 ^ 64 % 2 ^ 16)) == !q.isEmpty) = true := by
  decide +kernel

/-- The small state whose page is eligible for a snapshot or is not, with a region of it armed. -/
def stSnap (pte : Nat) (st : SState) : State := snapSet
  (fun x => { x with armed := true, round := true, sstate := st, regions := [⟨0x10000, 1, 4⟩], jobid := 7, lastgen := 3 })
  (stDev (fun d => { d with srv := { d.srv with rsvbase := 0x40000000, rsvpct := 1 } }) ((stOn 0x1111111).withMach fun _ m =>
    { m with mem := m.mem.writeN 0x104080 (toBytes 8 pte) }))

/-- A frozen frame of the small context, with or without its second buffer, and the module with it. -/
def frz (second : Option Nat) : Frozen := ⟨0x20, 1, [], second, [(0, 0)]⟩
def stFrz (fs : List Frozen) (pct : BitVec 6) : State := stDev (fun d => { d with srv := { d.srv with rsvbase := if pct = 0 then 0 else 0x40000000 } })
  ((stSnap 0x20003F .draining).withMach fun _ m => { m with frozen := fs })

/-- SnapshotResults: a context that is due and one that is not, an eligible page and one that is not, frames frozen with and without a
second buffer, the last frame and one that is not, and each answer to an arming. -/
theorem wit_SnapshotResults :
    ([(0x20003F, true), (0x20001F, false)].all fun (x : Nat × Bool) => let s := stSnap x.1 .idle
      match s.mach.ctx 1 with
      | some c => c.snap.armed && c.snap.round && decide (c.snap.sstate = .idle) && (regionFrame s.mach 1 0x10000).isSome == x.2 &&
        decide (regionPages c.snap.regions = [(0, 0, 0x10000)]) && s.mach.ctxs.all (fun y => y.asid != 1 || y == c)
      | none => false) = true ∧
    (st0.mach.mem.wf = true ∧ (∀ f ∈ st0.mach.frozen, f.frame ≠ 0x20)) ∧
    ([(some 0, 1, 0), (none, 1, 1), (none, 0, 2)].all fun (x : Option Nat × BitVec 6 × Nat) => let s := stFrz [frz x.1] x.2.1
      s.mach.frozen.find? (fun f => f.frame == 0x200000 / 65536) == some (frz x.1) &&
        decide (x.2.2 = 0 ∨ ((0 < s.dev.srv.reserveFrames ∧ 0 ∉ reserveUsed s.dev s.mach) ↔ x.2.2 = 1))) = true ∧
    ([[frz none], [frz none, ⟨0x21, 1, [], none, [(0, 65536)]⟩]].all fun fs => let s := stFrz fs 1
      decide ((s.mach.frozen.find? fun x => x.frame == 0x20) = some (frz none)) && !(s.mach.frozen.any fun x => frameWaits s.dev s.mach x) &&
        (match s.mach.ctx 1 with
         | some c => decide (c.snap.sstate = .draining) && decide (c.snap.slot < s.dev.srv.own.length)
         | none => false) && decide ((s.mach.choose 2).1 = 0) && (fs.any fun x => x.frame != 0x20) == decide (fs.length = 2)) = true ∧
    (let good := 7 + 2 ^ 112 + 2 ^ 1024 * (0x10000 + 2 ^ 64 + 2 ^ 98)
     [armError (stSnap 0x20003F .idle).dev (stSnap 0x20003F .idle).mach 1 0, armError (stSnap 0x20001F .idle).dev (stSnap 0x20001F .idle).mach 1 good,
      armError (stSnap 0x20003F .idle).dev { (stSnap 0x20003F .idle).mach with ctxs := (stSnap 0x20003F .idle).mach.ctxs ++
        [{ codeCtx with asid := 2, snap := { Snap.fresh with armed := true } }] } 1 good,
      armError (stOn 0x1111111).dev (stSnap 0x20003F .idle).mach 1 good, armError (stSnap 0x20003F .idle).dev (stSnap 0x20003F .idle).mach 1 good]
        = [1, 2, 3, 4, 0]) := by
  decide +kernel

/-- A committed generation without regions, of job 7. -/
def gen0 (n : Nat) : Generation :=
  { jobid := 7, srcmod := 0, number := n, tcut := 0, feed := 0, pfeed := 0, regions := [], data := [], commit := true }

/-- The small state attached, with its survival block changed, no groups, and the configuration of job 7 at 0x10000. -/
def stSurv (f : Survival → Survival) : State := stDev (fun d => { d with srv := f d.srv, att := { d.att with linkup := 1 } })
  ((stOn 0x1111111).withMach fun _ m => { m.updCtx 1 (fun c => { c with snapcfg := 0x10000, snap := { c.snap with jobid := 7, lastgen := 4 } }) with
    groups := [], mem := m.mem.writeN 0x200000 [7] })

/-- SurvivalCommandResults: interface 4 agreed and not, a partner that may be paired and one that may not, each answer, a generation to
recall and none, and a copy that is the latest and not. -/
theorem wit_SurvivalCommandResults :
    (st0.dev.serves = false ∧ (stOn 0).dev.serves = true ∧ (stOn 0).dev.srv.svbusy = false ∧ (stOn 0).dev.agreed 4 = false ∧ (stOn 0x10000).dev.agreed 4 = true) ∧
    ([(1, 0, true), (0, 0, false), (256, 0, false), (1, 2, false)].all fun (x : BitVec 14 × BitVec 2 × Bool) =>
      let s := stSurv fun v => { v with partner := x.1, pstate := x.2.1 }
      (decide (s.dev.srv.pstate = 0) && decide (s.dev.srv.partner ≠ s.dev.att.modid) &&
        decide (s.dev.srv.partner.toNat / 256 = s.dev.att.modid.toNat / 256)) == x.2.2 && s.dev.reaches x.1.toNat && !(stOn 0).dev.reaches x.1.toNat) = true ∧
    (let s := stSurv fun v => { v with svasid := 1, own := [some (gen0 3), some (gen0 4)] }
     (match s.mach.ctx 1 with
      | some c => decide (c.snap.sstate = .idle) && decide (c.cstate = .resident) && s.mach.groups.isEmpty && s.mach.disp.slots.isEmpty &&
        (match readConfig s.dev s.mach c with
         | some n => decide (newestGen (BitVec.ofNat 64 (bitsOf n 0 64)) s.dev.srv.srcmod (recallFrom s.dev []) = some (gen0 4)) &&
           !tablesDiffer (cfgRegions n) (gen0 4).regions && (writeRegions s.dev 1 (cfgRegions n) (gen0 4) s.mach).isSome
         | none => false)
      | none => false) = true ∧ s.mach.ctx 2 = none ∧ (s.mach.choose 2).1 = 0 ∧ newestGen 8 0 (recallFrom s.dev []) = none ∧
       nextSlot s.dev = 0) ∧
    (tablesDiffer [] [⟨0x10000, 1, 4⟩] = true ∧ st0.mach.groups ≠ [] ∧ ((stSnap 0x20003F .draining).mach.ctx 1).map (fun c => c.snap.sstate) = some .draining) ∧
    ([(0, 0, 0), (1, 1, 1), (2, 3, 2)].all fun (x : BitVec 32 × BitVec 32 × Nat) =>
      let s := stDev (fun d => { d with mgt := { d.mgt with feedid := x.2.1 } }) (stSurv fun v => { v with pstate := 1 })
      decide (s.dev.srv.pstate = 1) && (decide (x.1 = 0 ∨ s.dev.mgt.feedid = 0) == decide (x.2.2 = 0)) &&
        (decide (x.1 ≠ 0 ∧ x.1 = s.dev.mgt.feedid) == decide (x.2.2 = 1))) = true ∧
    ([(3, false), (4, true)].all fun (x : Nat × Bool) => let s := stSurv fun v => { v with sending := some (gen0 x.1), pstate := 2 }
      match s.mach.ctx 1 with
      | some c => decide (s.dev.srv.sending = some (gen0 x.1)) && decide (s.dev.srv.pstate = 2) &&
        (decide (c.snap.jobid = (gen0 x.1).jobid) && decide (c.snap.lastgen = (gen0 x.1).number)) == x.2
      | none => false) = true ∧
    (gen0 3).srcmod = st0.dev.srv.partner := by
  decide +kernel

/-- DecodeReadsBackEncode: an instruction with a prefix, and a word of a service core. -/
theorem wit_DecodeReadsBackEncode :
    ((Instr.ld un 2 none .b64 16 (.v 8) (.s 4)).wellFormed = true ∧ instrWord (.ld un 2 none .b64 16 (.v 8) (.s 4)) ≠ none) ∧
    ((Instr.vspawn 10 1 2).wellFormed = true ∧ serviceWord (.vspawn 10 1 2) = some 0x0020850B) := by
  decide

/-- StepRunsDecodedInstruction: a word that is placed and selected, and one of a service core, and an agenda that holds a move and one
that does not. -/
theorem wit_StepRunsDecodedInstruction :
    (let s := State.reset.withFetchWord 64 0x34C3800000000000
     match s.mach.latch with
     | .path core wave mask :: rest =>
       let m := { s.mach with latch := rest, cur := some (.path core wave mask) }
       (match m.curPath with
        | some (w, p) => decide (p.pc.toNat % 8 = 0) && m.coh.icache.isEmpty && w.fetched.isEmpty &&
          (match translate s.dev m (coreDie core) w.asid p.pc .x false with
           | .ok x => x.err.isNone && (m.lostIn x.pa 8).isNone
           | .error _ => false) &&
          (match fetchWord s.dev w.core w.id p.pc m with
           | (.ok x, m1) => decide (x = 0x34C3800000000000) && (decodeWord x.toNat).toOption.isSome &&
             decide (((m1.wave 0 0).bind fun w => w.fetched.find? fun y => y.1 == p.pc) = some (p.pc, x))
           | _ => false)
        | none => false)
     | _ => false) = true ∧
    (let s := State.reset.withFetchWord 32 0x0020850B
     match s.mach.latch, s.svc[0]? with
     | .service 0 :: rest, some c => c.joining.isNone && c.exc.isNone &&
       decide ((fetchService s.dev { s.mach with latch := rest, cur := some (.service 0) } c).toOption = some 0x0020850B)
     | _, _ => false) = true ∧
    ([0x0FF0000F, 0x0000700B].all fun w =>
      let s := State.reset.withFetchWord 32 w
      match s.mach.latch, s.svc[0]? with
      | .service 0 :: rest, some c =>
        decide ((fetchService s.dev { s.mach with latch := rest, cur := some (.service 0) } c).toOption = some w) && (decodeService w).toOption.isNone &&
          (isFence w == decide (w = 0x0FF0000F))
      | _, _ => false) = true ∧
    ([(0x4000000000000000, 1)].all fun (x : BitVec 64 × Nat) =>
      match fetchService st0.dev st0.mach { SvcCore.reset with pc := x.1 } with
      | .error e => e == x.2
      | .ok _ => false) = true ∧
    (stProbe.mach.curPath.isSome = true ∧ codeVa.toNat % 8 = 0) ∧
    (State.reset.mach.latch = [] ∧ State.reset.agenda = []) := by
  decide +kernel

/-- ComputeWordsLeaveTheDevice, and the invariants of the machine: a word that completes, and a state in which the invariants hold. -/
theorem wit_invariants :
    (instrWord (.nop un) ≠ none ∧ (match exec (.nop un) st0 with
      | .next t => decide (t.dev = st0.dev)
      | _ => false) = true ∧ (match step State.reset with
      | .next t => t.mach.mem.wf
      | _ => false) = true) ∧
    registersLegal State.reset ∧ State.reset.mach.mem.wf = true ∧ State.reset.dev.srv.retired.length ≤ 4096 := by
  refine ⟨by decide +kernel, ?_, by decide +kernel, by decide +kernel⟩
  unfold registersLegal
  decide +kernel

/-! ### The worked examples of the spec, and single steps -/

/-- Sixteen lanes with `v1` = 10 l; `p1` is false in lane 3 and `p2` holds from lane 4. The path has lanes 0 to 7 (the table after
R229). -/
def stLanes : State :=
  let s := state0 ((List.range 16).map fun l =>
    { lane0 l [0, BitVec.ofNat 32 (10 * l), 0, 77, 77] with p := [false, l != 3, decide (4 ≤ l), false, false, false, false] })
  s.withMach fun _ m => { (m.updWave 0 0 fun w => { w with paths := w.paths.map fun p => { p with mask := 0xFF } }) with
    cur := some (.path 0 0 0xFF) }

/-- A register of lanes 0 to 7, and of lane 8. -/
def lanes9 (n : Nat) (s : State) : List Nat := (List.range 9).map fun l => (vReg s l n).toNat

theorem test_shfl_worked : lanes9 3 (after (.shfl ⟨1, false⟩ .up .b32 .w8 (.v 3) (.v 1) (.imm 129)) stLanes) = [70, 0, 10, 77, 40, 40, 50, 60, 77] := by
  decide +kernel

theorem test_lscan_worked : lanes9 4 (after (.lscan ⟨1, false⟩ (.add .s32) .w8 (.v 4) (.v 1)) stLanes) = [0, 10, 30, 77, 70, 120, 180, 250, 77] := by
  decide +kernel

theorem test_vote_worked : (after (.vote ⟨1, false⟩ .ballot .w8 (.s 6) 2) stLanes).mach.waves.map (fun w => w.s.getD 6 0) = [0xF0] := by
  decide +kernel

/-- R223: a count of 1 falls through, and one of 0 wraps and goes back. -/
theorem test_loopn_ends :
    let t := after (.loopn 0 (.v 0) (-1)) (state0 [lane0 0 [1], lane0 1 [0]])
    (vReg t 0 0 = 0 ∧ vReg t 1 0 = 0xFFFFFFFF) ∧ t.mach.waves.map (fun w => (w.lanes.take 2).map Lane.pc) = [[codeVa + 8, codeVa - 8]] := by
  decide +kernel

/-- R122, the two worked cases, with the scale code 127 in `c0`. -/
theorem test_cvtf_worked :
    let s := fun (x : Word) => (state0 [{ lane0 0 [x] with c := 127 :: List.replicate 15 0 }])
    let cvt := fun (rm : RMode) (nan : Bool) (x : Word) => vReg (after (.cvtf un .n8e4 .f32 rm false nan (.v 3) (.v 0) (some (.c 0))) (s x)) 0 3
    cvt .rne false 0x43740000 = cvt .rne false 0x43780000 ∧ cvt .rne true 0x43780000 = 0x80 ∧ cvt .rz false 0x43960000 = cvt .rne false 0x43740000 := by
  decide +kernel

/-- R203, R207: an 8-bit sum wraps and extends, and MULH keeps the upper half of the exact signed product. -/
theorem test_add_wraps :
    vReg (after (.add un .s8 (.v 3) (.v 0) (.v 1)) (state0 [lane0 0 [0x7F, 1]])) 0 3 = 0xFFFFFF80 ∧
    vReg (after (.mulh un .s32 (.v 3) (.v 0) (.v 1)) (state0 [lane0 0 [0x80000000, 0xFFFFFFFF]])) 0 3 = 0 := by
  decide +kernel

/-- R257: a signed load extends, and a store keeps its bytes in order. -/
theorem test_load_extends :
    vReg (after (.ld un 0 none .s8 3 (.v 1) (.s 0)) (st0.withMach fun _ m => { m with mem := m.mem.writeN 0x200800 [1, 2, 3, 0x80] })) 0 1 = 0xFFFFFF80 := by
  decide +kernel

/-- R163: a guard that holds in no lane writes nothing. -/
theorem test_guard_off : vReg (after (.add ⟨0, false⟩ .s32 (.v 3) (.v 0) (.v 1)) st0) 0 3 = 0 := by decide +kernel

/-- R222: EXIT ends the threads of its path. -/
theorem test_exit_ends : (after (.exit 0) st0).mach.waves.all (fun w => w.lanes.all fun l => l.st != .run) = true := by
  decide +kernel

end Sys2Proof.Tests
end

section
/-! The numbers of the integer words: their n-bit strings read bit by bit (R9), the reduction of an integer to a width
(R9), and the result of a type in its register (R203). -/

namespace Sys2Proof.Proofs

open Sys2Proof Sys2Proof.Machine

/-! Bits of a number (R9) -/

theorem bitOf_eq_testBit (x i : Nat) : bitOf x i = x.testBit i := by
  rw [bitOf, Nat.testBit_eq_decide_div_mod_eq]
  rfl

theorem ofBits_lt (n : Nat) (p : Nat → Bool) : ofBits n p < 2 ^ n := by
  induction n with
  | zero => simp [ofBits]
  | succ n ih =>
    rw [ofBits, Nat.pow_succ]
    split <;> omega

/-- The number of n bits has the bits that are given. -/
theorem testBit_ofBits (n : Nat) (p : Nat → Bool) (i : Nat) : (ofBits n p).testBit i = (decide (i < n) && p i) := by
  induction n with
  | zero => simp [ofBits]
  | succ n ih =>
    have hlt := ofBits_lt n p
    have e : ofBits (n + 1) p = 2 ^ n * (if p n then 1 else 0) + ofBits n p := by
      rw [ofBits]
      split <;> omega
    rw [e, Nat.testBit_two_pow_mul_add _ hlt, ih]
    rcases Nat.lt_trichotomy i n with h | rfl | h
    · rw [if_pos h, decide_eq_true h, decide_eq_true (Nat.lt_succ_of_lt h)]
    · rw [if_neg (Nat.lt_irrefl i), Nat.sub_self, decide_eq_true (Nat.lt_succ_self i), Bool.true_and]
      cases p i <;> rfl
    · rw [if_neg (by omega), decide_eq_false (by omega : ¬ i < n + 1), Bool.false_and]
      obtain ⟨k, hk⟩ : ∃ k, i - n = k + 1 := ⟨i - n - 1, by omega⟩
      rw [hk, Nat.testBit_succ]
      split <;> exact Nat.zero_testBit k

/-- A number of n bits is the one whose bits are given. -/
theorem eq_ofBits {n x : Nat} {p : Nat → Bool} (hx : x < 2 ^ n) (h : ∀ i < n, x.testBit i = p i) : x = ofBits n p := by
  refine Nat.eq_of_testBit_eq fun i => ?_
  rw [testBit_ofBits]
  by_cases hi : i < n
  · rw [h i hi, decide_eq_true hi, Bool.true_and]
  · rw [Nat.testBit_lt_two_pow (Nat.lt_of_lt_of_le hx (Nat.pow_le_pow_right (by decide) (by omega)))]
    rw [decide_eq_false hi, Bool.false_and]

theorem bitsOf_lt (x lo n : Nat) : bitsOf x lo n < 2 ^ n := Nat.mod_lt _ (Nat.two_pow_pos n)

theorem testBit_bitsOf (x lo n i : Nat) : (bitsOf x lo n).testBit i = (decide (i < n) && x.testBit (lo + i)) := by
  rw [bitsOf, Nat.testBit_mod_two_pow, Nat.testBit_div_two_pow, Nat.add_comm]

/-- A field of a number replaced: the field's bits, and the others as they were. -/
theorem testBit_replace_field (x f pos len i : Nat) (hf : f < 2 ^ len) :
    (x - 2 ^ pos * bitsOf x pos len + 2 ^ pos * f).testBit i =
      if pos ≤ i ∧ i < pos + len then f.testBit (i - pos) else x.testBit i := by
  have hx : x = 2 ^ pos * (2 ^ len * (x / 2 ^ pos / 2 ^ len) + bitsOf x pos len) + x % 2 ^ pos := by
    rw [bitsOf, Nat.div_add_mod, Nat.div_add_mod]
  have e : x - 2 ^ pos * bitsOf x pos len + 2 ^ pos * f =
      2 ^ pos * (2 ^ len * (x / 2 ^ pos / 2 ^ len) + f) + x % 2 ^ pos := by
    rw [Nat.mul_add] at hx ⊢
    omega
  have hlow : x % 2 ^ pos < 2 ^ pos := Nat.mod_lt _ (Nat.two_pow_pos pos)
  rw [e, Nat.testBit_two_pow_mul_add _ hlow, Nat.testBit_two_pow_mul_add _ hf]
  by_cases h1 : i < pos
  · rw [if_pos h1, if_neg (by omega), Nat.testBit_mod_two_pow, decide_eq_true h1, Bool.true_and]
  · rw [if_neg h1]
    by_cases h2 : i - pos < len
    · rw [if_pos h2, if_pos (by omega)]
    · rw [if_neg h2, if_neg (by omega), Nat.testBit_div_two_pow, Nat.testBit_div_two_pow]
      congr 1
      omega

/-- A field of a number replaced leaves a number of its width. -/
theorem replace_field_lt {x f pos len n : Nat} (hx : x < 2 ^ n) (hf : f < 2 ^ len) (hn : pos + len ≤ n) :
    x - 2 ^ pos * bitsOf x pos len + 2 ^ pos * f < 2 ^ n := by
  refine Nat.lt_pow_two_of_testBit _ fun i hi => ?_
  rw [testBit_replace_field _ _ _ _ _ hf, if_neg (by omega)]
  exact Nat.testBit_lt_two_pow (Nat.lt_of_lt_of_le hx (Nat.pow_le_pow_right (by decide) hi))

/-! Reduction to a width, and the signed reading (R9) -/

theorem wrapTo_lt (n : Nat) (x : Int) : wrapTo n x < 2 ^ n := by
  have hc : ((2 : Int) ^ n) = ((2 ^ n : Nat) : Int) := by norm_cast
  have hpos : (0 : Int) < ((2 ^ n : Nat) : Int) := Int.natCast_pos.mpr (Nat.two_pow_pos n)
  rw [wrapTo, hc, Int.toNat_lt (Int.emod_nonneg x (Int.ne_of_gt hpos))]
  exact Int.emod_lt_of_pos x hpos

/-- The reduction of a natural number is its remainder. -/
theorem wrapTo_natCast (n x : Nat) : wrapTo n (x : Int) = x % 2 ^ n := by
  rw [wrapTo]
  norm_cast

theorem wrapTo_eq_toNat_ofInt (n : Nat) (x : Int) : wrapTo n x = (BitVec.ofInt n x).toNat := by
  rw [BitVec.toNat_ofInt, wrapTo]
  norm_cast

theorem signedOf_eq_toInt (n x : Nat) : signedOf n x = (BitVec.ofNat n x).toInt := by
  rw [BitVec.toInt_eq_toNat_cond, BitVec.toNat_ofNat, signedOf]
  norm_cast

/-- The reduction of a signed reading divided by a power of two: an arithmetic right shift. -/
theorem testBit_wrapTo_signedOf_div (n x k i : Nat) (hn : 0 < n) (hi : i < n) :
    (wrapTo n (signedOf n x / 2 ^ k)).testBit i = x.testBit (min (i + k) (n - 1)) := by
  have e : wrapTo n (signedOf n x / 2 ^ k) = ((BitVec.ofNat n x).sshiftRight k).toNat := by
    rw [BitVec.sshiftRight, ← wrapTo_eq_toNat_ofInt, signedOf_eq_toInt, Int.shiftRight_eq_div_pow]
    norm_cast
  rw [e, ← BitVec.getLsbD, BitVec.getLsbD_sshiftRight]
  have hm : (BitVec.ofNat n x).msb = x.testBit (n - 1) := by
    rw [BitVec.msb_eq_getLsbD_last, BitVec.getLsbD_ofNat, decide_eq_true (by omega : n - 1 < n), Bool.true_and]
  rw [hm, BitVec.getLsbD_ofNat, Nat.add_comm k i, decide_eq_false (Nat.not_le.mpr hi), Bool.not_false, Bool.true_and]
  by_cases h : i + k < n
  · rw [if_pos h, decide_eq_true h, Bool.true_and, Nat.min_eq_left (by omega)]
  · rw [if_neg h, Nat.min_eq_right (by omega)]

/-- A signed reading reduced to a greater width: the sign bit is repeated. -/
theorem testBit_wrapTo_signedOf (n len x i : Nat) (hi : i < n) (hlen : 0 < len) :
    (wrapTo n (signedOf len x)).testBit i = if i < len then x.testBit i else x.testBit (len - 1) := by
  have e : wrapTo n (signedOf len x) = ((BitVec.ofNat len x).signExtend n).toNat := by
    rw [BitVec.signExtend, ← wrapTo_eq_toNat_ofInt, signedOf_eq_toInt]
  rw [e, ← BitVec.getLsbD, BitVec.getLsbD_signExtend]
  rw [decide_eq_true hi, Bool.true_and, BitVec.msb_eq_getLsbD_last, BitVec.getLsbD_ofNat, BitVec.getLsbD_ofNat,
    decide_eq_true (by omega : len - 1 < len), Bool.true_and]
  by_cases h : i < len
  · rw [if_pos h, if_pos h, decide_eq_true h, Bool.true_and]
  · rw [if_neg h, if_neg h]

/-! Results of a type (R203) -/

theorem bits_pos (ty : Ty) : 0 < ty.bits := by cases ty <;> decide

theorem bits_le (ty : Ty) : ty.bits ≤ 64 := by cases ty <;> decide

/-- A number of a type's width read by the type and extended to a register: as it stands in the register (R203). -/
theorem wrapTo_intOf {ty : Ty} {x : Nat} (hx : x < 2 ^ ty.bits) : wrapTo 64 (intOf ty x) = asReg ty x := by
  have h64 : 2 ^ ty.bits ≤ 2 ^ 64 := Nat.pow_le_pow_right (by decide) (bits_le ty)
  have hP : 2 ^ ty.bits = 2 * 2 ^ (ty.bits - 1) := by
    rw [← Nat.pow_succ', Nat.succ_eq_add_one, Nat.sub_add_cancel (bits_pos ty)]
  rw [intOf, asReg]
  cases ty.signed
  · rw [if_neg (by decide), Bool.false_and, if_neg (by decide), Nat.mod_eq_of_lt hx, wrapTo_natCast]
    omega
  · simp only [if_true, Bool.true_and, decide_eq_true_eq, signedOf, Nat.mod_eq_of_lt hx]
    generalize 2 ^ (ty.bits - 1) = P at *
    by_cases h : 2 * x < 2 ^ ty.bits
    · rw [if_pos h, if_neg (by omega), wrapTo_natCast]
      omega
    · rw [if_neg h, if_pos (by omega), wrapTo]
      have hc : ((2 : Int) ^ ty.bits) = ((2 ^ ty.bits : Nat) : Int) := by norm_cast
      rw [hc]
      generalize 2 ^ ty.bits = N at *
      omega

/-- An integer result of a type is reduced to the width and extended by the type (R203). -/
theorem intRes_eq_asReg (ty : Ty) (x : Int) : intRes ty x = asReg ty (wrapTo ty.bits x) := wrapTo_intOf (wrapTo_lt _ _)

end Sys2Proof.Proofs
end

section
/-! Operands as numbers of their width (R164, R165), and the words that write one value a lane (R203 to R217). -/

namespace Sys2Proof.Proofs

open Sys2Proof Sys2Proof.Machine Sys2Proof.Laws

/-! Operands (R164, R165) -/

theorem sumNat_append (xs ys : List Nat) : sumNat (xs ++ ys) = sumNat xs + sumNat ys := by
  induction xs with
  | nil => exact (Nat.zero_add _).symm
  | cons x xs ih => rw [List.cons_append, sumNat, sumNat, ih, Nat.add_assoc]

theorem sumNat_range_succ (f : Nat → Nat) (k : Nat) :
    sumNat ((List.range (k + 1)).map f) = sumNat ((List.range k).map f) + f k := by
  rw [List.range_succ, List.map_append, sumNat_append]
  rfl

/-- Words of 32 bits, low word first, make a number of 32 bits a word. -/
theorem sumNat_words_lt (f : Nat → Word) (k : Nat) :
    sumNat ((List.range k).map fun i => 2 ^ (32 * i) * (f i).toNat) < 2 ^ (32 * k) := by
  induction k with
  | zero => exact Nat.one_pos
  | succ k ih =>
    have hw : 2 ^ (32 * k) * (f k).toNat ≤ 2 ^ (32 * k) * (2 ^ 32 - 1) :=
      Nat.mul_le_mul_left _ (Nat.le_sub_one_of_lt (f k).isLt)
    rw [sumNat_range_succ, Nat.mul_succ, Nat.pow_add]
    omega

/-- An operand of 32 or 64 bits is a number of its width. -/
theorem readOp_lt (dv : Dev) (m : Mach) (w : Wave) (l : Nat) {bits : Nat} (o : Opnd) (hb : bits = 32 ∨ bits = 64) :
    readOp dv m w l bits o < 2 ^ bits := by
  have hk : 2 ^ (32 * (bits / 32)) = 2 ^ bits := by rcases hb with rfl | rfl <;> rfl
  have h128 : bits ≠ 128 := by omega
  have hpos := Nat.two_pow_pos bits
  cases o with
  | v n => exact hk ▸ sumNat_words_lt _ _
  | c n => exact hk ▸ sumNat_words_lt _ _
  | e n => exact hk ▸ sumNat_words_lt _ _
  | q n => exact hk ▸ sumNat_words_lt _ _
  | s n =>
    rw [readOp, if_neg h128]
    exact Nat.mod_lt _ hpos
  | p n =>
    have : 1 < 2 ^ bits := Nat.one_lt_two_pow (by omega)
    rw [readOp]
    split <;> omega
  | sr r => exact Nat.mod_lt _ hpos
  | imm n => exact wrapTo_lt _ _

/-! Words of one value a lane -/

/-- A word that writes one value a lane, the value given in another form. -/
theorem writesOnly_lane_of_eq {i : Instr} {info : WordInfo} {d : Opnd} {bits : Nat} {f : Dev → Mach → Wave → Nat → Nat}
    {f' : Dev → Mach → Io → Nat → Nat} (he : ∀ s, exec i s = laneWord info d bits f s)
    (hf : ∀ dv m io l, f dv m io.w l = f' dv m io l) :
    writesOnly i info fun dv m io => perLane io bits d (f' dv m io) := by
  have e : (fun dv m io => perLane io bits d fun l => f dv m io.w l) = fun dv m io => perLane io bits d (f' dv m io) := by
    simp only [hf]
  exact e ▸ writesOnly_lane i info d bits f he

/-- A word of two integer sources writes its exact result, reduced and extended by the type. -/
theorem writesOnly_intWord2 {i : Instr} {g : Guard} {ty : Ty} {d a b : Opnd} (f : Int → Int → Int)
    (he : ∀ s, exec i s = intWord2 i g ty d a b f s) :
    writesOnly i (shortInfo i g [(a, ty.regBits), (b, ty.regBits)] [(d, ty.regBits)] []) fun dv m io =>
      perLane io ty.regBits d fun l =>
        asReg ty (wrapTo ty.bits (f (readInt dv m io.w l ty a) (readInt dv m io.w l ty b))) := by
  simp only [intWord2] at he
  exact writesOnly_lane_of_eq he fun _ _ _ _ => intRes_eq_asReg _ _

/-- A word of one integer source writes its exact result, reduced and extended by the type; `r` is the result as reduced. -/
theorem writesOnly_intWord1 {i : Instr} {g : Guard} {ty : Ty} {d a : Opnd} (f : Int → Int) (r : Int → Nat)
    (he : ∀ s, exec i s = intWord1 i g ty d a f s) (hf : ∀ x, wrapTo ty.bits (f x) = r x) :
    writesOnly i (shortInfo i g [(a, ty.regBits)] [(d, ty.regBits)] []) fun dv m io =>
      perLane io ty.regBits d fun l => asReg ty (r (readInt dv m io.w l ty a)) := by
  simp only [intWord1] at he
  exact writesOnly_lane_of_eq he fun _ _ _ _ => by rw [intRes_eq_asReg, hf]

/-- A word of a result and a carry writes both, in each lane in which it acts (R206). -/
theorem writesOnly_carryWord {i : Instr} {g : Guard} {ty : Ty} {d a b : Opnd} {pc : Fin 7}
    {f : Nat → Nat → Nat → Bool → Nat × Bool} (he : ∀ s, exec i s = carryWord i g ty d a b pc f s) :
    writesOnly i (shortInfo i g [(a, ty.regBits), (b, ty.regBits)] [(d, ty.regBits)] [pc.val]) fun dv m io =>
      let r := fun l => f ty.bits (readOp dv m io.w l ty.regBits a) (readOp dv m io.w l ty.regBits b) ((io.w.lane l).pred pc.val)
      perLane io ty.regBits d (fun l => (r l).1) ++ perLaneP io pc.val fun l => (r l).2 :=
  writesOnly_ok i _ _ fun s => by
    rw [he, carryWord]
    simp only [perLane, perLaneP, List.map_map]
    rfl

/-! The arithmetic of single words -/

theorem exec_min (g : Guard) (ty : Ty) (d a b : Opnd) (s : State) :
    exec (.min g ty d a b) s = intWord2 (.min g ty d a b) g ty d a b (fun x y => min x y) s := by
  simp only [Int.min_def]
  rfl

theorem exec_max (g : Guard) (ty : Ty) (d a b : Opnd) (s : State) :
    exec (.max g ty d a b) s = intWord2 (.max g ty d a b) g ty d a b (fun x y => max x y) s := by
  simp only [Int.max_def]
  rfl

/-- The most negative value is its own negation at its width (R209). -/
theorem wrapTo_neg (ty : Ty) (x : Int) :
    wrapTo ty.bits (-x) = if x = -(2 ^ (ty.bits - 1)) then 2 ^ (ty.bits - 1) else wrapTo ty.bits (-x) := by
  split
  · next h =>
    rw [h, Int.neg_neg]
    have e : ((2 : Int) ^ (ty.bits - 1)) = ((2 ^ (ty.bits - 1) : Nat) : Int) := by norm_cast
    have hlt : 2 ^ (ty.bits - 1) < 2 ^ ty.bits := Nat.pow_lt_pow_right (by decide) (Nat.sub_one_lt (Nat.ne_of_gt (bits_pos ty)))
    rw [e, wrapTo_natCast, Nat.mod_eq_of_lt hlt]
  · rfl

/-- A borrow leaves where the sources' difference is negative (R206). -/
theorem subBorrow_eq (n x y : Nat) (bin : Bool) :
    subBorrow n x y bin =
      (wrapTo n ((x : Int) - ((y + if bin then 1 else 0 : Nat) : Int)), decide (x < y + if bin then 1 else 0)) := by
  have e : (x : Int) - y - (if bin then 1 else 0) = (x : Int) - ((y + if bin then 1 else 0 : Nat) : Int) := by
    cases bin <;> simp only [if_true, Bool.false_eq_true, if_false] <;> omega
  simp only [subBorrow, e, Prod.mk.injEq, decide_eq_decide, true_and]
  omega

/-- A clamp to a type's range (R215). -/
theorem clampTo_eq (ty : Ty) (x : Int) :
    clampTo ty x = max (if ty.signed then -(2 ^ (ty.bits - 1)) else 0)
      (min (if ty.signed then 2 ^ (ty.bits - 1) - 1 else 2 ^ ty.bits - 1) x) := by
  have h1 : (0 : Int) < 2 ^ (ty.bits - 1) := Int.pow_pos (by decide)
  have h2 : (0 : Int) < 2 ^ ty.bits := Int.pow_pos (by decide)
  simp only [clampTo]
  generalize (2 : Int) ^ (ty.bits - 1) = P at *
  generalize (2 : Int) ^ ty.bits = N at *
  cases ty.signed <;> simp only [if_true, Bool.false_eq_true, if_false] <;> omega

/-- `LEA` on natural numbers (R214). -/
theorem wrapTo_add_mul (n x y k : Nat) : wrapTo n ((x : Int) + (y : Int) * 2 ^ k) = (x + y * 2 ^ k) % 2 ^ n := by
  rw [← wrapTo_natCast]
  norm_cast

/-- `LEA` adds b, shifted, to a (R214). -/
theorem writesOnly_lea (g : Guard) (ty : Ty) (d a b : Opnd) (sh : Fin 16) :
    writesOnly (.lea g ty d a b sh)
      (shortInfo (.lea g ty d a b sh) g [(a, (leaBits ty).1), (b, (leaBits ty).2)] [(d, (leaBits ty).1)] []) fun dv m io =>
      perLane io (leaBits ty).1 d fun l =>
        let x := readOp dv m io.w l (leaBits ty).1 a
        let y := readOp dv m io.w l (leaBits ty).2 b
        if ty = .s32 then wrapTo (leaBits ty).1 ((x : Int) + signedOf 32 y * 2 ^ sh.val)
        else (x + y * 2 ^ sh.val) % 2 ^ (leaBits ty).1 :=
  writesOnly_lane_of_eq (fun _ => by rw [exec, execLea]) fun _ _ _ _ => by
    split
    · rfl
    · exact wrapTo_add_mul _ _ _ _

/-- Settles O1, a word at a time, from the value that each shared word writes and the arithmetic of its result. -/
theorem integerResults : Obligations.IntegerResults := by
  unfold Obligations.IntegerResults
  refine ⟨⟨fun g ty d a b => ?_, fun g ty d a b pc => ?_⟩, fun g ty st d a b c sh sat => ?_⟩
  · refine ⟨?add, ?sub, ?mul, ?mulh, ?min, ?max⟩
    case add => exact writesOnly_intWord2 (fun x y => x + y) fun _ => rfl
    case sub => exact writesOnly_intWord2 (fun x y => x - y) fun _ => rfl
    case mul => exact writesOnly_intWord2 (fun x y => x * y) fun _ => rfl
    case mulh => exact writesOnly_intWord2 (fun x y => x * y / 2 ^ ty.bits) fun _ => rfl
    case min => exact writesOnly_intWord2 (fun x y => min x y) (exec_min g ty d a b)
    case max => exact writesOnly_intWord2 (fun x y => max x y) (exec_max g ty d a b)
  · refine ⟨?addc, ?subb⟩
    case addc => exact writesOnly_carryWord (f := addCarry) fun _ => rfl
    case subb => simpa only [subBorrow_eq] using writesOnly_carryWord (f := subBorrow) fun _ => rfl
  · refine ⟨?mad, ?abs, ?neg, ?lea64, ?leaz, ?leas, ?lea32, ?cvti⟩
    case mad => exact writesOnly_lane_of_eq (fun _ => by rw [exec, execMad]; rfl) fun _ _ _ _ => by rw [intRes_eq_asReg]
    case abs =>
      exact writesOnly_intWord1 (fun x => x.natAbs) (fun x => wrapTo ty.bits (if x < 0 then -x else x)) (fun _ => rfl)
        fun x => congrArg (wrapTo ty.bits) (by omega)
    case neg =>
      exact writesOnly_intWord1 (fun x => -x)
        (fun x => if x = -(2 ^ (ty.bits - 1)) then 2 ^ (ty.bits - 1) else wrapTo ty.bits (-x)) (fun _ => rfl) (wrapTo_neg ty)
    case lea64 => exact writesOnly_lea g .b64 d a b sh
    case leaz => exact writesOnly_lea g .z32 d a b sh
    case leas => exact writesOnly_lea g .s32 d a b sh
    case lea32 => exact writesOnly_lea g .b32 d a b sh
    case cvti =>
      exact writesOnly_lane_of_eq (fun _ => by rw [exec, execCvti]; rfl) fun _ _ _ _ => by
        rw [intRes_eq_asReg]
        simp only [clampTo_eq]

end Sys2Proof.Proofs
end

section
/-! Division, bitwise, shift, bit-count and bit-field words (R208, R210 to R213). -/

namespace Sys2Proof.Proofs

open Sys2Proof Sys2Proof.Machine Sys2Proof.Laws

/-! Division (R208) -/

/-- The two cases of a division that R143 sets apart. -/
def divCorner (ty : Ty) (x y : Int) : Prop := y = 0 ∨ (ty.signed = true ∧ x = -(2 ^ (ty.bits - 1)) ∧ y = -1)

theorem divRem_zero (ty : Ty) (x : Int) : divRem ty x 0 = (-1, x, true) := if_pos rfl

/-- The most negative value divided by −1. -/
theorem divRem_least {ty : Ty} {x y : Int} (hy : y ≠ 0) (h : ty.signed = true ∧ x = -(2 ^ (ty.bits - 1)) ∧ y = -1) :
    divRem ty x y = (x, 0, true) := by
  obtain ⟨hs, hx, hm⟩ := h
  rw [divRem, if_neg hy, if_pos (by simp only [hs, hx, hm, beq_self_eq_true, Bool.and_self])]

/-- A division outside the two corners truncates toward zero. -/
theorem divRem_plain {ty : Ty} {x y : Int} (h : ¬ divCorner ty x y) : divRem ty x y = (x.tdiv y, x.tmod y, false) := by
  obtain ⟨hy, hm⟩ := not_or.mp h
  rw [divRem, if_neg hy, if_neg (by simpa only [Bool.and_eq_true, beq_iff_eq, and_assoc] using hm)]

theorem divRem_quot (ty : Ty) (x y : Int) :
    (divRem ty x y).1 = if y = 0 then -1 else if ty.signed = true ∧ x = -(2 ^ (ty.bits - 1)) ∧ y = -1 then x else x.tdiv y := by
  split
  · next hy => rw [hy, divRem_zero]
  · next hy =>
    split
    · next hm => rw [divRem_least hy hm]
    · next hm => rw [divRem_plain (not_or.mpr ⟨hy, hm⟩)]

theorem divRem_rest (ty : Ty) (x y : Int) :
    (divRem ty x y).2.1 = if y = 0 then x else if ty.signed = true ∧ x = -(2 ^ (ty.bits - 1)) ∧ y = -1 then 0 else x.tmod y := by
  split
  · next hy => rw [hy, divRem_zero]
  · next hy =>
    split
    · next hm => rw [divRem_least hy hm]
    · next hm => rw [divRem_plain (not_or.mpr ⟨hy, hm⟩)]

/-- A division that traps in no acting lane writes its result in each of them. -/
theorem divWord_done {i : Instr} {g : Guard} {la : Fin 16} {ty : Ty} {trap : Bool} {d a b : Opnd} (f : Int × Int × Bool → Int)
    {s : State} {m : Mach} {io : Io} (he : exec i s = divWord i g la ty trap d a b f s)
    (hno : ∀ l ∈ io.act, trap = true → ¬ divCorner ty (readInt s.dev m io.w l ty a) (readInt s.dev m io.w l ty b))
    (h : Issues s (longInfo i g la [(a, ty.regBits), (b, ty.regBits)] [(d, ty.regBits)]) m io) :
    exec i s = .next (wrote s m io (longInfo i g la [(a, ty.regBits), (b, ty.regBits)] [(d, ty.regBits)])
      (perLane io ty.regBits d fun l =>
        asReg ty (wrapTo ty.bits (f (divRem ty (readInt s.dev m io.w l ty a) (readInt s.dev m io.w l ty b)))))) := by
  rw [he]
  refine runWord_ok _ _ s m m io _ h ?_
  have hq : ∀ l ∈ io.act, (trap && (divRem ty (readInt s.dev m io.w l ty a) (readInt s.dev m io.w l ty b)).2.2) = false := by
    intro l hl
    cases ht : trap
    · rfl
    · rw [divRem_plain (hno l hl ht), Bool.and_false]
  have hbad : (io.act.map fun l => (l, divRem ty (readInt s.dev m io.w l ty a) (readInt s.dev m io.w l ty b))).filter
      (fun x => trap && x.2.2.2) = [] := by
    simpa only [List.filter_eq_nil_iff, List.forall_mem_map, Bool.not_eq_true] using hq
  have hgood : (io.act.map fun l => (l, divRem ty (readInt s.dev m io.w l ty a) (readInt s.dev m io.w l ty b))).filter
      (fun x => !(trap && x.2.2.2)) = io.act.map fun l => (l, divRem ty (readInt s.dev m io.w l ty a) (readInt s.dev m io.w l ty b)) := by
    simpa only [List.filter_eq_self, List.forall_mem_map, Bool.not_eq_true'] using hq
  simp only [hbad, hgood, List.map_map, List.map_nil, perLane, ← intRes_eq_asReg]
  rfl

/-! Bitwise operations and shifts, bit by bit (R210) -/

theorem and_eq_ofBits {n x : Nat} (y : Nat) (hx : x < 2 ^ n) : x &&& y = ofBits n fun i => bitOf x i && bitOf y i := by
  refine eq_ofBits (Nat.lt_of_le_of_lt Nat.and_le_left hx) fun i _ => ?_
  simp only [Nat.testBit_and, bitOf_eq_testBit]

theorem or_eq_ofBits {n x y : Nat} (hx : x < 2 ^ n) (hy : y < 2 ^ n) : x ||| y = ofBits n fun i => bitOf x i || bitOf y i :=
  eq_ofBits (Nat.or_lt_two_pow hx hy) fun i _ => by simp only [Nat.testBit_or, bitOf_eq_testBit]

theorem xor_eq_ofBits {n x y : Nat} (hx : x < 2 ^ n) (hy : y < 2 ^ n) : x ^^^ y = ofBits n fun i => bitOf x i != bitOf y i :=
  eq_ofBits (Nat.xor_lt_two_pow hx hy) fun i _ => by simp only [Nat.testBit_xor, bitOf_eq_testBit]

theorem andn_eq_ofBits {n x y : Nat} (hx : x < 2 ^ n) (hy : y < 2 ^ n) :
    x &&& (2 ^ n - 1 - y) = ofBits n fun i => bitOf x i && !bitOf y i := by
  refine eq_ofBits (Nat.lt_of_le_of_lt Nat.and_le_left hx) fun i hi => ?_
  rw [Nat.testBit_and, Nat.sub_sub, Nat.add_comm 1 y, Nat.testBit_two_pow_sub_succ hy, decide_eq_true hi, Bool.true_and]
  simp only [bitOf_eq_testBit]

theorem shl_eq_ofBits (n x k : Nat) : x * 2 ^ k % 2 ^ n = ofBits n fun i => decide (k ≤ i) && bitOf x (i - k) := by
  refine eq_ofBits (Nat.mod_lt _ (Nat.two_pow_pos n)) fun i hi => ?_
  rw [Nat.testBit_mod_two_pow, Nat.testBit_mul_two_pow, decide_eq_true hi, Bool.true_and, bitOf_eq_testBit]

theorem shr_eq_ofBits {n x : Nat} (k : Nat) (hx : x < 2 ^ n) :
    x / 2 ^ k = ofBits n fun i => decide (i + k < n) && bitOf x (i + k) := by
  refine eq_ofBits (Nat.lt_of_le_of_lt (Nat.div_le_self _ _) hx) fun i _ => ?_
  rw [Nat.testBit_div_two_pow, bitOf_eq_testBit]
  by_cases h : i + k < n
  · rw [decide_eq_true h, Bool.true_and]
  · rw [decide_eq_false h, Bool.false_and]
    exact Nat.testBit_lt_two_pow (Nat.lt_of_lt_of_le hx (Nat.pow_le_pow_right (by decide) (by omega)))

theorem sar_eq_ofBits {n : Nat} (x k : Nat) (hn : 0 < n) :
    wrapTo n (signedOf n x / 2 ^ k) = ofBits n fun i => bitOf x (min (i + k) (n - 1)) :=
  eq_ofBits (wrapTo_lt _ _) fun i hi => by rw [testBit_wrapTo_signedOf_div n x k i hn hi, bitOf_eq_testBit]

/-- A rotation puts the low part above the high part. -/
theorem rotl_eq_ofBits {n x k : Nat} (hx : x < 2 ^ n) (hk : k < n) :
    x * 2 ^ k % 2 ^ n + x / 2 ^ (n - k) = ofBits n fun i => bitOf x ((i + n - k) % n) := by
  have hsplit : 2 ^ n = 2 ^ k * 2 ^ (n - k) := by rw [← Nat.pow_add, Nat.add_sub_cancel' (Nat.le_of_lt hk)]
  have hhigh : x / 2 ^ (n - k) < 2 ^ k := Nat.div_lt_of_lt_mul (by rwa [Nat.mul_comm, ← hsplit])
  have hlow : x * 2 ^ k % 2 ^ n = 2 ^ k * (x % 2 ^ (n - k)) := by rw [hsplit, Nat.mul_comm x, Nat.mul_mod_mul_left]
  rw [hlow]
  refine eq_ofBits ?_ fun i hi => ?_
  · have : x % 2 ^ (n - k) < 2 ^ (n - k) := Nat.mod_lt _ (Nat.two_pow_pos _)
    calc 2 ^ k * (x % 2 ^ (n - k)) + x / 2 ^ (n - k) < 2 ^ k * (x % 2 ^ (n - k)) + 2 ^ k := by omega
      _ = 2 ^ k * (x % 2 ^ (n - k) + 1) := (Nat.mul_succ _ _).symm
      _ ≤ 2 ^ n := hsplit ▸ Nat.mul_le_mul_left _ this
  · rw [Nat.testBit_two_pow_mul_add _ hhigh, bitOf_eq_testBit]
    by_cases h : i < k
    · rw [if_pos h, Nat.testBit_div_two_pow, Nat.mod_eq_of_lt (by omega : i + n - k < n)]
      congr 1
      omega
    · have e : (i + n - k) % n = i - k := by
        rw [show i + n - k = i - k + n by omega, Nat.add_mod_right, Nat.mod_eq_of_lt (by omega)]
      rw [if_neg h, Nat.testBit_mod_two_pow, e, decide_eq_true (by omega), Bool.true_and]

/-! Counts of bits (R211) -/

/-- The zero bits above the highest one bit. -/
theorem countLead_spec {n x : Nat} (hx : x < 2 ^ n) :
    (x = 0 → countLead n x = n) ∧
      (x ≠ 0 → countLead n x < n ∧ 2 ^ (n - 1 - countLead n x) ≤ x ∧ x < 2 ^ (n - countLead n x)) := by
  rw [countLead, Nat.mod_eq_of_lt hx, bitLen]
  refine ⟨fun h => by rw [if_pos h]; omega, fun h => ?_⟩
  have hlog : Nat.log2 x < n := (Nat.log2_lt h).mpr hx
  rw [if_neg h, show n - 1 - (n - (Nat.log2 x + 1)) = Nat.log2 x by omega,
    show n - (n - (Nat.log2 x + 1)) = Nat.log2 x + 1 by omega]
  exact ⟨by omega, Nat.log2_self_le h, Nat.lt_log2_self⟩

/-- The zero bits below the lowest one bit. -/
theorem countTrail_spec {n x : Nat} (hx : x < 2 ^ n) :
    (x = 0 → countTrail n x = n) ∧
      (x ≠ 0 → countTrail n x < n ∧ x % 2 ^ countTrail n x = 0 ∧ bitOf x (countTrail n x) = true) := by
  rw [countTrail]
  cases hf : (List.range n).find? fun i => bitOf x i with
  | none =>
    have hz : ∀ i < n, bitOf x i = false := fun i hi =>
      eq_false_of_ne_true (List.find?_eq_none.mp hf i (List.mem_range.mpr hi))
    have h0 : x = 0 := by
      refine Nat.eq_of_testBit_eq fun i => ?_
      rw [Nat.zero_testBit]
      by_cases hi : i < n
      · rw [← bitOf_eq_testBit, hz i hi]
      · exact Nat.testBit_lt_two_pow (Nat.lt_of_lt_of_le hx (Nat.pow_le_pow_right (by decide) (by omega)))
    exact ⟨fun _ => rfl, fun h => absurd h0 h⟩
  | some k =>
    obtain ⟨hk, hlt, hz⟩ := List.find?_range_eq_some.mp hf
    refine ⟨fun h => ?_, fun _ => ⟨List.mem_range.mp hlt, ?_, hk⟩⟩
    · rw [h, bitOf_eq_testBit, Nat.zero_testBit] at hk
      cases hk
    · refine Nat.eq_of_testBit_eq fun j => ?_
      rw [Option.getD_some, Nat.testBit_mod_two_pow, Nat.zero_testBit]
      by_cases hj : j < k
      · rw [← bitOf_eq_testBit, (Bool.not_eq_true' _).mp (hz j hj), Bool.and_false]
      · rw [decide_eq_false hj, Bool.false_and]

theorem bitReverse_eq_ofBits (n x : Nat) : bitReverse n x = ofBits n fun i => bitOf x (n - 1 - i) := by
  have h : ∀ (p : Nat → Bool) k, sumNat ((List.range k).map fun i => if p i then 2 ^ i else 0) = ofBits k p := by
    intro p k
    induction k with
    | zero => rfl
    | succ k ih => rw [sumNat_range_succ, ih, ofBits]
  exact h _ n

/-! Bit fields (R212, R213) -/

/-- A field extracted and extended by the type. -/
theorem extract_eq_ofBits {ty : Ty} {pos len : Nat} (x : Nat) (hlen : 0 < len) (hle : pos + len ≤ ty.bits) :
    (if ty.signed then intRes ty (wrapTo ty.bits (signedOf len (bitsOf x pos len))) else bitsOf x pos len) =
      ofBits (if ty.signed then 64 else ty.bits) fun i =>
        if i < len then bitOf x (pos + i) else ty.signed && bitOf x (pos + len - 1) := by
  simp only [bitOf_eq_testBit]
  cases hs : ty.signed
  · simp only [Bool.false_eq_true, if_false]
    refine eq_ofBits (Nat.lt_of_lt_of_le (bitsOf_lt _ _ _) (Nat.pow_le_pow_right (by decide) (by omega))) fun i _ => ?_
    rw [testBit_bitsOf]
    by_cases h : i < len
    · rw [if_pos h, decide_eq_true h, Bool.true_and]
    · rw [if_neg h, decide_eq_false h, Bool.false_and, Bool.false_and]
  · have hread : intRes ty (wrapTo ty.bits (signedOf len (bitsOf x pos len))) =
        wrapTo 64 (signedOf ty.bits (wrapTo ty.bits (signedOf len (bitsOf x pos len)))) := by
      rw [intRes, wrapTo_natCast, Nat.mod_eq_of_lt (wrapTo_lt _ _), intOf, hs, if_pos rfl]
    rw [if_pos rfl, if_pos rfl, hread]
    refine eq_ofBits (wrapTo_lt _ _) fun i hi => ?_
    rw [testBit_wrapTo_signedOf 64 ty.bits _ i hi (bits_pos ty), Bool.true_and]
    by_cases h : i < len
    · rw [if_pos (by omega), if_pos h, testBit_wrapTo_signedOf ty.bits len _ i (by omega) hlen, if_pos h, testBit_bitsOf,
        decide_eq_true h, Bool.true_and]
    · have hsign : ∀ j < ty.bits, len - 1 ≤ j →
          (wrapTo ty.bits (signedOf len (bitsOf x pos len))).testBit j = x.testBit (pos + len - 1) := by
        intro j hj hl
        rw [testBit_wrapTo_signedOf ty.bits len _ j hj hlen]
        have hb : (bitsOf x pos len).testBit (len - 1) = x.testBit (pos + len - 1) := by
          rw [testBit_bitsOf, decide_eq_true (by omega), Bool.true_and]
          congr 1
          omega
        split
        · rw [show j = len - 1 by omega, hb]
        · exact hb
      rw [if_neg h]
      split
      · exact hsign i (by omega) (by omega)
      · exact hsign _ (Nat.sub_one_lt (Nat.ne_of_gt (bits_pos ty))) (by omega)

/-- A field replaced, bit by bit. -/
theorem replace_eq_ofBits {n x f pos len : Nat} {p : Nat → Bool} (hx : x < 2 ^ n) (hf : f < 2 ^ len) (hle : pos + len ≤ n)
    (hp : ∀ j < len, f.testBit j = p j) :
    x - 2 ^ pos * bitsOf x pos len + 2 ^ pos * f =
      ofBits n fun i => if pos ≤ i ∧ i < pos + len then p (i - pos) else bitOf x i := by
  refine eq_ofBits (replace_field_lt hx hf hle) fun i _ => ?_
  rw [testBit_replace_field x f pos len i hf, bitOf_eq_testBit]
  by_cases hi : pos ≤ i ∧ i < pos + len
  · rw [if_pos hi, if_pos hi, hp _ (by omega)]
  · rw [if_neg hi, if_neg hi]

/-! Words read as n-bit strings -/

theorem regBits_of_raw {ty : Ty} (h : ty.raw = true) : ty.regBits = ty.bits := by
  cases ty <;> first | rfl | cases h

theorem regBits_of_full {ty : Ty} (h : ty.full = true) : ty.regBits = ty.bits := by
  cases ty <;> first | rfl | cases h

theorem regBits_cases (ty : Ty) : ty.regBits = 32 ∨ ty.regBits = 64 := by
  rw [Ty.regBits]
  split
  · exact .inr rfl
  · exact .inl rfl

/-- A word of two sources read as strings of their widths writes its function of the two, given in another form. -/
theorem writesOnly_bitWord2 {i : Instr} {g : Guard} {ty : Ty} {d a b : Opnd} {bb : Nat} {f' : Dev → Mach → Io → Nat → Nat}
    (f : Nat → Nat → Nat → Nat) (hreg : ty.regBits = ty.bits) (hbb : bb = ty.bits ∨ bb = 32)
    (he : ∀ s, exec i s = bitWord2 i g ty d a b bb f s)
    (hf : ∀ dv m io l, readOp dv m io.w l ty.bits a < 2 ^ ty.bits → readOp dv m io.w l bb b < 2 ^ bb →
      f ty.bits (readOp dv m io.w l ty.bits a) (readOp dv m io.w l bb b) = f' dv m io l) :
    writesOnly i (shortInfo i g [(a, ty.bits), (b, bb)] [(d, ty.bits)] []) fun dv m io => perLane io ty.bits d (f' dv m io) := by
  have hn := hreg ▸ regBits_cases ty
  simp only [bitWord2, rb, hreg] at he
  refine writesOnly_lane_of_eq he fun dv m io l => hf _ _ _ _ (readOp_lt dv m io.w l a hn) (readOp_lt dv m io.w l b ?_)
  rcases hbb with rfl | rfl
  · exact hn
  · exact .inl rfl

/-- A word of one source read as a string of its width writes its function of it, given in another form. -/
theorem writesOnly_bitWord1 {i : Instr} {g : Guard} {ty : Ty} {d a : Opnd} {f' : Dev → Mach → Io → Nat → Nat}
    (f : Nat → Nat → Nat) (hreg : ty.regBits = ty.bits) (he : ∀ s, exec i s = bitWord1 i g ty d a f s)
    (hf : ∀ dv m io l, f ty.bits (readOp dv m io.w l ty.bits a) = f' dv m io l) :
    writesOnly i (shortInfo i g [(a, ty.bits)] [(d, ty.bits)] []) fun dv m io => perLane io ty.bits d (f' dv m io) := by
  simp only [bitWord1, rb, hreg] at he
  exact writesOnly_lane_of_eq he hf

theorem movh_wellFormed (g : Guard) (d : Opnd) (imm : BitVec 16) (pos : Fin 4) :
    (Instr.movh g d imm pos).wellFormed = match d with
      | .q _ => false
      | .s _ => true
      | _ => d.dst 32 && decide (pos.val < 2) := by
  cases d <;> rfl

/-- The width of `MOVH`'s destination holds the field that it replaces (R213). -/
theorem movh_field_fits {g : Guard} {d : Opnd} {imm : BitVec 16} {pos : Fin 4} (h : (Instr.movh g d imm pos).wellFormed = true) :
    16 * pos.val + 16 ≤ movhBits d := by
  have hpos := pos.isLt
  rw [movh_wellFormed] at h
  cases d with
  | s n => show _ ≤ 64; omega
  | q n => cases h
  | v n | c n | e n | p n | sr n | imm n =>
    have h2 : pos.val < 2 := of_decide_eq_true (Bool.and_eq_true_iff.mp h).2
    show _ ≤ 32
    omega

theorem movhBits_cases (d : Opnd) : movhBits d = 32 ∨ movhBits d = 64 := by
  cases d with
  | s n => exact .inr rfl
  | v n | c n | e n | q n | p n | sr n | imm n => exact .inl rfl

/-- Settles O2, a word at a time, from the bits of each word's result. -/
theorem shiftAndFieldResults : Obligations.ShiftAndFieldResults := by
  unfold Obligations.ShiftAndFieldResults
  refine ⟨⟨?division, fun g ty d a b hraw => ?bitwise⟩, fun g ty d a hraw => ?counts, ?bfx, ?bfi, ?movh⟩
  case division =>
    intro g la ty trap d a b info corner quot rest s m io hno
    refine ⟨fun h => ?_, fun h => ?_⟩
    · simpa only [divRem_quot] using divWord_done Prod.fst (by rw [exec, execDiv]) hno h
    · simpa only [divRem_rest] using divWord_done (fun x => x.2.1) (by rw [exec, execRem]) hno h
  case bitwise =>
    have hreg := regBits_of_raw hraw
    refine ⟨?and, ?or, ?xor, ?andn, ?shl, ?shr, ?sar, ?rotl⟩
    case and =>
      exact writesOnly_bitWord2 (fun _ x y => x &&& y) hreg (.inl rfl) (fun s => by rw [exec, execAnd, rb, hreg])
        fun _ _ _ _ hx _ => and_eq_ofBits _ hx
    case or =>
      exact writesOnly_bitWord2 (fun _ x y => x ||| y) hreg (.inl rfl) (fun s => by rw [exec, execOr, rb, hreg])
        fun _ _ _ _ hx hy => or_eq_ofBits hx hy
    case xor =>
      exact writesOnly_bitWord2 (fun _ x y => x ^^^ y) hreg (.inl rfl) (fun s => by rw [exec, execXor, rb, hreg])
        fun _ _ _ _ hx hy => xor_eq_ofBits hx hy
    case andn =>
      exact writesOnly_bitWord2 (fun n x y => x &&& (2 ^ n - 1 - y)) hreg (.inl rfl)
        (fun s => by rw [exec, execAndn, rb, hreg]) fun _ _ _ _ hx hy => andn_eq_ofBits hx hy
    case shl =>
      exact writesOnly_bitWord2 (fun n x y => x * 2 ^ (y % n) % 2 ^ n) hreg (.inr rfl) (fun s => by rw [exec, execShl])
        fun _ _ _ _ _ _ => shl_eq_ofBits _ _ _
    case shr =>
      exact writesOnly_bitWord2 (fun n x y => x / 2 ^ (y % n)) hreg (.inr rfl) (fun s => by rw [exec, execShr])
        fun _ _ _ _ hx _ => shr_eq_ofBits _ hx
    case sar =>
      exact writesOnly_bitWord2 (fun n x y => wrapTo n (signedOf n x / 2 ^ (y % n))) hreg (.inr rfl)
        (fun s => by rw [exec, execSar]) fun _ _ _ _ _ _ => sar_eq_ofBits _ _ (bits_pos ty)
    case rotl =>
      exact writesOnly_bitWord2 (fun n x y => x * 2 ^ (y % n) % 2 ^ n + x / 2 ^ (n - y % n)) hreg (.inr rfl)
        (fun s => by rw [exec, execRotl]) fun _ _ _ _ hx _ => rotl_eq_ofBits hx (Nat.mod_lt _ (bits_pos ty))
  case counts =>
    have hreg := regBits_of_raw hraw
    refine ⟨⟨popCount ty.bits, fun x _ => rfl, ?popc⟩, ⟨countLead ty.bits, fun x => countLead_spec, ?clz⟩,
      ⟨countTrail ty.bits, fun x => countTrail_spec, ?ctz⟩, ⟨bitReverse ty.bits, fun x _ => bitReverse_eq_ofBits ty.bits x, ?brev⟩⟩
    case popc => exact writesOnly_bitWord1 popCount hreg (fun s => by rw [exec, execPopc]) fun _ _ _ _ => rfl
    case clz => exact writesOnly_bitWord1 countLead hreg (fun s => by rw [exec, execClz]) fun _ _ _ _ => rfl
    case ctz => exact writesOnly_bitWord1 countTrail hreg (fun s => by rw [exec, execCtz]) fun _ _ _ _ => rfl
    case brev => exact writesOnly_bitWord1 bitReverse hreg (fun s => by rw [exec, execBrev]) fun _ _ _ _ => rfl
  case bfx =>
    intro g ty pos len1 d a hwf
    change (ty.full && decide (pos.val + len1.val + 1 ≤ ty.bits) && d.dst ty.regBits && a.src ty.regBits) = true at hwf
    simp only [Bool.and_eq_true, decide_eq_true_eq] at hwf
    obtain ⟨⟨⟨hfull, hle⟩, -⟩, -⟩ := hwf
    exact writesOnly_bitWord1
      (fun n x =>
        let f := bitsOf x pos.val (len1.val + 1)
        if ty.signed then intRes ty (wrapTo n (signedOf (len1.val + 1) f)) else f)
      (regBits_of_full hfull) (fun s => by rw [exec, execBfx]) fun _ _ _ _ => extract_eq_ofBits _ (Nat.succ_pos _) hle
  case bfi =>
    intro g ty pos len1 d a b hwf
    change (ty.raw && decide (pos.val + len1.val + 1 ≤ ty.bits) && d.dst ty.regBits && a.src ty.regBits && b.src ty.regBits)
      = true at hwf
    simp only [Bool.and_eq_true, decide_eq_true_eq] at hwf
    obtain ⟨⟨⟨⟨hraw, hle⟩, -⟩, -⟩, -⟩ := hwf
    have hreg := regBits_of_raw hraw
    refine writesOnly_bitWord2
      (fun _ x y => x - 2 ^ pos.val * bitsOf x pos.val (len1.val + 1) + 2 ^ pos.val * bitsOf y 0 (len1.val + 1))
      hreg (.inl rfl) (fun s => by rw [exec, execBfi, rb, hreg]) fun _ _ _ _ hx _ => ?_
    refine replace_eq_ofBits hx (bitsOf_lt _ _ _) hle fun j hj => ?_
    rw [testBit_bitsOf, decide_eq_true hj, Bool.true_and, Nat.zero_add, bitOf_eq_testBit]
  case movh =>
    intro g d imm pos hwf n hn
    obtain rfl : n = movhBits d := hn.trans (by cases d <;> rfl)
    refine writesOnly_lane_of_eq (fun _ => by rw [exec, execMovh]) fun dv m io l => ?_
    exact replace_eq_ofBits (readOp_lt dv m io.w l d (movhBits_cases d)) imm.isLt (movh_field_fits hwf) fun _ _ => rfl

end Sys2Proof.Proofs
end

section
/-! Lane words (R224 to R229): where the statement about reductions fails. -/

namespace Sys2Proof.Proofs

open Sys2Proof Sys2Proof.Machine

/-- An issue record that names lane 0 of a wave of 16 lanes twice. No word issues so, since the lanes in which a guard holds
are listed once each (R163). -/
def twiceNamed : Io :=
  ⟨codeWave, { pc := codeVa, mask := 1, seg := 0, fin := none, windows := [], stall := 0, target := false }, [0, 0]⟩

/-- Refutes O9: its clause on sums that do not depend on the tree is stated of every issue record, without `Issues`. Where the
record names a lane twice, the tree of R141 takes the lane's value once, and the sum over the record's lanes takes it twice: an
`LRED.add.s32` of the constant 1 in lane 0 gives 1, and the statement asks for 2. -/
theorem not_laneWordResults : ¬ Obligations.LaneWordResults := by
  unfold Obligations.LaneWordResults
  rintro ⟨-, hred⟩
  obtain ⟨-, -, htree⟩ := hred ⟨7, false⟩ (.add .s32) .w2 (.v 1) (.imm 129) State.reset State.reset.mach twiceNamed
  obtain ⟨hsum, -⟩ := htree (.inl rfl) 0 (by decide) .s32
  have once_eq_twice : (1 : Nat) = 2 := hsum rfl
  exact absurd once_eq_twice (by decide)

end Sys2Proof.Proofs
end
